-- ==== Sys2Proof/Word.lean ====
section
/-! DEFINITION. The word types of the Z9 (00 R10, 12 R214, R217): names only. -/

namespace Sys2Proof

/-- A scalar register, one lane of a vector register, a configuration word. -/
abbrev Word := BitVec 32
/-- One byte of any memory space. -/
abbrev Byte := BitVec 8
/-- A 64-bit scalar pair (03 R59). -/
abbrev DWord := BitVec 64
/-- One bit per lane of a group (01 R12). -/
abbrev LaneMask := BitVec 96
/-- A shape register (03 R62). -/
abbrev ShapeBits := BitVec 512
/-- A scalar register number in a 7-bit field. -/
abbrev SReg := BitVec 7
/-- A register number in a 9-bit field of a lane word (12 R221). -/
abbrev VReg := BitVec 9
/-- A shape register number in a 4-bit field. -/
abbrev ShReg := BitVec 4
/-- A barrier slot field: 0-15, or 31 for none (12 R214). -/
abbrev Bsl := BitVec 5

end Sys2Proof
end

