-- ==== Sys2Proof/Syntax.lean ====
section
/-! DEFINITION. The instructions of Fiane and the events of the table, one constructor per row of spec/opcode_table.json. -/

namespace Sys2Proof

/-- The immediate of a word that the extension prefix may precede (12 R216): its 32-bit value, and whether the prefix is
there. Without the prefix the value is that of imm11, extended as the entry says. -/
structure Imm where
  val : Word
  pfx : Bool
deriving DecidableEq, Repr

/-- The fields of a lane word beside its opcode (12 R217). -/
structure LaneWord where
  pred : BitVec 5
  neg  : Bool
  ty   : BitVec 4
  vd   : VReg
  va   : VReg
  vb   : VReg
  vc   : VReg
  la   : BitVec 4
  mod  : BitVec 6
  ext  : Word
deriving DecidableEq, Repr

/-- What the members of a collective exchange before any byte moves (08 R156). -/
structure CollDesc where
  op   : Nat
  red  : Nat
  sr   : Bool
  fmt  : Nat
  exts : List Nat
  step : Nat
  root : Nat
deriving DecidableEq, Repr

/-- A request that a peer makes of this device's memory (05 R110-R112, 24 R388). -/
inductive PeerReq where
  | write (va : Nat) (bytes : List Byte)
  | add   (va : Nat) (inc : Nat)
  | max   (va : Nat) (signed : Bool) (v : Word)
  | fmax  (va : Nat) (v : Word)
  | fadd  (va : Nat) (v : Word) (rank team grp elem : Nat)
deriving DecidableEq, Repr

/-- Where an ordered queue lives (06 R123). -/
inductive Home where
  | core (c : Nat)
  | annex (d : Nat)
  | hub (h : Nat)
deriving DecidableEq, Repr

/-- The instructions and the events. Scalar words first (13, 16, 22), then lane words (14, 15), then the events of the
engines, hubs, links and host, whose operands say which operation or unit they befall. -/
inductive Instr where
  -- control (13 R243-R246, R266, R268)
  | br (off : BitVec 25)
  | jal (d : SReg) (i : Imm)
  | jr (a : SReg)
  | beq (d a : SReg) (i : Imm)
  | bne (d a : SReg) (i : Imm)
  | blt (d a : SReg) (i : Imm)
  | bge (d a : SReg) (i : Imm)
  | trap (c : BitVec 16)
  | brk (c : BitVec 16)
  | hsetLabel (i : Imm)
  | hsetRegister (a : SReg) (pfx : Bool)
  | lpc (a : SReg) (i : Imm)
  -- integer (13 R247-R249)
  | add (d a b : SReg)
  | sub (d a b : SReg)
  | mul (d a b : SReg)
  | mulh (d a b : SReg)
  | mulhu (d a b : SReg)
  | and (d a b : SReg)
  | or (d a b : SReg)
  | xor (d a b : SReg)
  | shl (d a b : SReg)
  | shr (d a b : SReg)
  | sra (d a b : SReg)
  | slt (d a b : SReg)
  | sltu (d a b : SReg)
  | min (d a b : SReg)
  | max (d a b : SReg)
  | popc (d a : SReg)
  | addi (d a : SReg) (i : Imm)
  | andi (d a : SReg) (i : Imm)
  | ori (d a : SReg) (i : Imm)
  | xori (d a : SReg) (i : Imm)
  | shli (d a : SReg) (n : BitVec 5)
  | shri (d a : SReg) (n : BitVec 5)
  | srai (d a : SReg) (n : BitVec 5)
  | slti (d a : SReg) (i : Imm)
  | sltui (d a : SReg) (i : Imm)
  | add64 (d a b : SReg)
  | sub64 (d a b : SReg)
  | shl64 (d a b : SReg)
  | shr64 (d a b : SReg)
  | addi64 (d a : SReg) (i : Imm)
  | mul64 (d a b : SReg)
  | sltu64 (d a b : SReg)
  -- scalar memory (13 R250, R251)
  | sldTeamMemory (d a : SReg) (i : Imm)
  | sldAnnex (d a : SReg) (i : Imm)
  | sstTeamMemory (d a : SReg) (i : Imm)
  | sstAnnex (d a : SReg) (i : Imm)
  | sldAcq (d a : SReg) (ax : Bool) (sc : BitVec 2) (la : BitVec 4)
  | sstRel (d a : SReg) (ax : Bool) (sc : BitVec 2)
  -- masks, predicates, moves, specials, shapes (13 R252-R258)
  | mpush (n : BitVec 5)
  | kget (d : SReg) (w : BitVec 2) (n : BitVec 5)
  | kset (a : SReg) (w : BitVec 2) (n : BitVec 5)
  | movvs (d a : SReg) (v : VReg)
  | sget (d : SReg) (i : BitVec 11)
  | sset (a : SReg) (i : BitVec 11)
  | elect (d a : SReg)
  | shld (ax : Bool) (n : ShReg) (a : SReg) (i : Imm)
  | shset (n : ShReg) (a : SReg) (f : BitVec 7)
  | movsv (d a : SReg) (v : VReg)
  -- waits, fences, barrier slots (13 R259-R265)
  | wait (c : BitVec 3) (n : BitVec 8)
  | yield (c : BitVec 3) (n : BitVec 8) (o : BitVec 14)
  | fence (sc : BitVec 3)
  | bsinit (a : SReg) (n : BitVec 4)
  | bsarr (d : SReg) (n : BitVec 4)
  | bswait (a : SReg) (n : BitVec 4)
  | bsaw (n : BitVec 4)
  | wcnt (a b : SReg)
  | wadr (a b : SReg)
  | bsget (d : SReg) (n : BitVec 4)
  -- copies and engine atomics (16 R303-R311)
  | cpl (d s : ShReg) (a : SReg) (b : Bsl)
  | cps (d s : ShReg) (a : SReg) (b : Bsl)
  | cpx (d s : ShReg) (a : SReg) (b : Bsl)
  | cpm (d s : ShReg) (a : SReg) (b : Bsl)
  | cpg (d s : ShReg) (a : SReg) (b : Bsl)
  | cprPut (d s : ShReg) (a : SReg) (b : Bsl)
  | cprGet (d s : ShReg) (a : SReg) (b : Bsl)
  | cpa (d s : ShReg) (a : SReg) (b : Bsl) (peer : Bool) (op : BitVec 2)
  | cpw (a : SReg) (b : Bsl) (peer : Bool)
  | cpst (d s : ShReg) (a : SReg) (b : Bsl)
  | cpcb (s : ShReg) (a : SReg) (b : Bsl) (t : BitVec 2)
  | aclose (sp : BitVec 2) (a b : SReg)
  -- collectives (16 R312)
  | clar (t : ShReg) (a : SReg) (b : Bsl) (sr : Bool) (op : BitVec 2)
  | clrs (t : ShReg) (a : SReg) (b : Bsl) (sr : Bool) (op : BitVec 2)
  | clag (t : ShReg) (a : SReg) (b : Bsl)
  | clbc (t : ShReg) (a : SReg) (b : Bsl)
  | launch (d a : SReg) (ax : Bool) (la : BitVec 4)
  -- matrix (16 R314-R317)
  | mxa (acc z pair sp sel : Bool) (sha : ShReg) (pc vbq : BitVec 4) (x : BitVec 8) (vm : Option (BitVec 6))
  | mxwb (d : ShReg) (a : SReg) (b : Bsl) (pair keep acc : Bool)
  | mxfence (d : SReg)
  | mxwait (a : SReg)
  -- Filler and statistics (16 R318-R322)
  | bkfile (shA shG : ShReg) (r : SReg) (last : Bool) (shT : ShReg)
  | bkcommit (d s : ShReg) (a : SReg) (b : Bsl)
  | bkstat (d : SReg) (n : BitVec 11)
  | bkfence (a : SReg)
  | stget (d a : SReg)
  | stclr (a : SReg)
  -- privileged (22 R358-R364)
  | cwinRead (d a b : SReg)
  | cwinWrite (d a b : SReg)
  | gctlHalt (d a : SReg)
  | gctlResume (d a : SReg)
  | gctlReplay (d a : SReg)
  | gctlCancel (d a : SReg)
  | gctlCompact (d a : SReg)
  | gctlTake (d a : SReg)
  | gctlKill (d a : SReg)
  | gctlStep (d a : SReg)
  | ctxSave (d a b : SReg)
  | ctxLoad (d a b : SReg)
  | tinv (a b : SReg)
  | cfgRead (d a b : SReg)
  | cfgWrite (d a b : SReg)
  -- lane issue and the prefix (13 R246, 12 R216)
  | lx (n : BitVec 11)
  | lxa (n : BitVec 7) (a : SReg) (i : Imm)
  | extensionPrefix (h : BitVec 21)
  -- lane integer (14 R273-R276)
  | vaddInt (w : LaneWord)
  | vsubInt (w : LaneWord)
  | vmulInt (w : LaneWord)
  | vmulh (w : LaneWord)
  | vmad (w : LaneWord)
  | vabsInt (w : LaneWord)
  | vnegInt (w : LaneWord)
  | vminInt (w : LaneWord)
  | vmaxInt (w : LaneWord)
  | vadds (w : LaneWord)
  | vsubs (w : LaneWord)
  | vand (w : LaneWord)
  | vor (w : LaneWord)
  | vxor (w : LaneWord)
  | vnot (w : LaneWord)
  | vshl (w : LaneWord)
  | vshr (w : LaneWord)
  | vsra (w : LaneWord)
  | vpopc (w : LaneWord)
  | vclz (w : LaneWord)
  | vbfx (w : LaneWord)
  | vbfi (w : LaneWord)
  | vmov (w : LaneWord)
  | vsel (w : LaneWord)
  | vcmpInt (w : LaneWord)
  -- lane float (14 R277-R279)
  | vaddFp (w : LaneWord)
  | vsubFp (w : LaneWord)
  | vmulFp (w : LaneWord)
  | vfma (w : LaneWord)
  | vnegFp (w : LaneWord)
  | vabsFp (w : LaneWord)
  | vminFp (w : LaneWord)
  | vmaxFp (w : LaneWord)
  | vcmpFp (w : LaneWord)
  | vrnd (w : LaneWord)
  -- special functions (14 R280)
  | vrcp (w : LaneWord)
  | vrsqrt (w : LaneWord)
  | vsqrt (w : LaneWord)
  | vexp2 (w : LaneWord)
  | vlog2 (w : LaneWord)
  | vsin (w : LaneWord)
  | vcos (w : LaneWord)
  | vtanh (w : LaneWord)
  | vsigm (w : LaneWord)
  | vdiv (w : LaneWord)
  -- conversion (14 R283-R286)
  | vcvt (w : LaneWord)
  | vpack (w : LaneWord)
  | vunpk (w : LaneWord)
  | vbscale (w : LaneWord)
  -- cross-lane (15 R291, R292)
  | vperm (w : LaneWord)
  | vshx (w : LaneWord)
  | vup (w : LaneWord)
  | vdn (w : LaneWord)
  | vbcast (w : LaneWord)
  | vred (w : LaneWord)
  | vscan (w : LaneWord)
  -- lane memory (15 R293-R297)
  | vld (w : LaneWord)
  | vst (w : LaneWord)
  | vatom (w : LaneWord)
  | vfatomAddOrd (w : LaneWord)
  | vfatomMax (w : LaneWord)
  | vspill (w : LaneWord)
  | vfill (w : LaneWord)
  -- profile (15 R299)
  | pclr (w : LaneWord)
  | pins (w : LaneWord)
  | pmax (w : LaneWord)
  | padd (w : LaneWord)
  | pinf (w : LaneWord)
  | pconj (w : LaneWord)
  | psimp (w : LaneWord)
  | peval (w : LaneWord)
  | parg (w : LaneWord)
  | pget (w : LaneWord)
  -- symbols (15 R301)
  | vlate (w : LaneWord)
  | vres (w : LaneWord)
  | sybindManual (w : LaneWord)
  | sybindCnt (w : LaneWord)
  | sybindSlot (w : LaneWord)
  | syset (w : LaneWord)
  | syrel (w : LaneWord)
  -- predicate logic (14 R287, R288)
  | vkand (w : LaneWord)
  | vkor (w : LaneWord)
  | vkxor (w : LaneWord)
  | vkandn (w : LaneWord)
  | vknot (w : LaneWord)
  | vkset (w : LaneWord)
  | vksetC (w : LaneWord)
  -- events of a group's and a core's operations; `op` is an operation's handle
  | laneLoadComplete (op : Nat)
  | sfuResultWrite (op : Nat)
  | copyStart (op : Nat)
  | copyComplete (op : Nat)
  | orderedCloseStep (op : Nat)
  | orderedQueueExhausted (h : Home)
  | accumulatorGrant (core : Nat)
  | matrixOperationComplete (core : Nat)
  | writeBackPerformed (op : Nat)
  | profileOperationComplete (core : Nat)
  | collectiveDescriptor (part idx team seq rank : Nat) (d : CollDesc) (tile : List Nat)
  | collectiveComplete (op : Nat)
  | collectiveTimeout (op : Nat)
  | symbolResolution (team sym : Nat)
  -- events of the Filler and the distributor; `p` is a partition
  | filingComplete (p : Nat)
  | drainLaunch (p : Nat)
  | factRelaunch (p : Nat)
  | factDiscard (p : Nat)
  | accreset (p : Nat)
  | recordAcceptance (p : Nat)
  | launchAgentWake (p : Nat)
  | hostLaunchPort (p addr : Nat)
  | teamAdmission (p : Nat)
  | preemptionSave (team : Nat)
  | gridRetirement (grid : Nat)
  -- events of the Curator and the market
  | faultRecordEnqueue (core : Nat)
  | curatorTrap (core : Nat)
  | verdictApplication (core : Nat)
  | hotspotMigration (die : Nat)
  -- events of translation, storage, links, host and bring-up
  | translationWalk (p : Nat)
  | serviceResponse (p : Nat)
  | scrubPass (die : Nat)
  | spareSwapRequest (v : Word)
  | hostMemoryWrite (addr : Nat) (bytes : List Byte)
  | hostMemoryRead (addr len : Nat)
  | peerRequest (p asid : Nat) (r : PeerReq)
  | memoryLinkFailure (i : Nat)
  | nalmondLinkDown (j : Nat)
  | peerUnreachable (op : Nat)
  -- events that come from outside the machine only
  | flitCrcFailure (j : Nat)
  | nalmondLaneLoss (j : Nat)
  | peerLinkReturn (j : Nat)
  | vectorUnmask (v : Nat)
  -- words without operands (13 R244, R252, R262, R268; 16 R320; 22 R358)
  | exit
  | tail
  | hret
  | melse
  | mpop
  | gbar
  | bkfenceAll
  | eret
  -- events without operands
  | pollingRecheck
  | marketInterval
  | budgetTakeEffect
  | clockRaise
  | governorSubslot
  | hostAllocationDeadline
  | spareSwapComplete
  | hostLinkReset
  | bringUp
  | recordWindowDeadline
  | attestationRequest
  | attestationReportReady
  | illegalInstruction
deriving DecidableEq, Repr

end Sys2Proof
end

