-- ==== Sys2Proof/WellFormed.lean ====
section
/-! DEFINITION. Which field values an instruction may carry: what 12 R225 calls illegal-field, apart from the bits that no
operand names (those the decoder finds by encoding again). Checks of register numbers against a file or budget, which need the
state, are made where the instruction runs. -/

namespace Sys2Proof

namespace Imm

/-- An SI immediate of a prefixable word whose field is signed: without a prefix it is a sign-extended imm11 (12 R215). -/
def okSigned (i : Imm) : Bool := i.pfx || i.val == (i.val.setWidth 11).signExtend 32

/-- The same for a field that the entry reads as unsigned. -/
def okUnsigned (i : Imm) : Bool := i.pfx || i.val == (i.val.setWidth 11).setWidth 32

end Imm

/-- bsl of 16 to 30 is illegal (12 R215). -/
def bslOk (b : Bsl) : Bool := b.toNat < 16 || b.toNat == 31

namespace LaneWord

/-- Guards: k0-k23 plain or negated, or always (02 R47). -/
def guardOk (w : LaneWord) : Bool := w.pred.toNat < 24 || (w.pred.toNat == 31 && !w.neg)

/-- The guard that a word acting in every lane, or once, must carry (15 R297, R300, R301). -/
def always (w : LaneWord) : Bool := w.pred.toNat == 31 && !w.neg

/-- bsrc, modifier bits [63:62] (12 R220). -/
def bsrc (w : LaneWord) : Nat := w.mod.toNat / 16

/-- mod[3:0] of an arithmetic word (14 R269). -/
def m4 (w : LaneWord) : Nat := w.mod.toNat % 16

/-- The type code is one of those listed (12 R218). -/
def tyIn (w : LaneWord) (l : List Nat) : Bool := l.contains w.ty.toNat

/-- The word takes operand b (12 R220): ext is LR, LI or LS by bsrc. -/
def bOk (w : LaneWord) : Bool :=
  match w.bsrc with
  | 0 => w.ext == 0
  | 1 => w.vb == 0
  | 2 => w.vb == 0 && w.ext.toNat < 128
  | _ => false

/-- The word takes no operand b: bsrc, vb and ext are zero (14 R270). -/
def unary (w : LaneWord) : Bool := w.bsrc == 0 && w.vb == 0 && w.ext == 0

def vcZero (w : LaneWord) : Bool := w.vc == 0
def laZero (w : LaneWord) : Bool := w.la == 0
def isPred (v : VReg) : Bool := v.toNat < 24

/-- Integer types I, S and B of 14 R273. -/
def tyI : List Nat := [3, 4, 5, 6, 7, 8, 9]
def tyS : List Nat := [3, 5, 7, 9]
def tyB : List Nat := [10, 11, 12]
def tyF : List Nat := [0, 1, 2]

/-- A binary arithmetic word with no modifier and no vc. -/
def bin (w : LaneWord) (tys : List Nat) : Bool :=
  w.guardOk && w.tyIn tys && w.bOk && w.m4 == 0 && w.vcZero && w.laZero

/-- The same with the third source vc. -/
def tern (w : LaneWord) (tys : List Nat) : Bool :=
  w.guardOk && w.tyIn tys && w.bOk && w.m4 == 0 && w.laZero

/-- A unary arithmetic word. -/
def un (w : LaneWord) (tys : List Nat) : Bool :=
  w.guardOk && w.tyIn tys && w.unary && w.m4 == 0 && w.vcZero && w.laZero

/-- A unary SFU word: long-latency (14 R280, R281). -/
def sfu (w : LaneWord) : Bool := w.guardOk && w.tyIn [0] && w.unary && w.m4 == 0 && w.vcZero

/-- ord, modifier bits [61:60], of a memory word (12 R220). -/
def ord (w : LaneWord) : Nat := w.mod.toNat / 4 % 4

/-- The memory modifier and the LM ext (12 R220, 15 R293): ordering accepted, scope only with an ordering, va only with idx. -/
def memOk (w : LaneWord) (ords : List Nat) : Bool :=
  w.guardOk && ords.contains w.ord && (w.ord != 0 || w.mod.toNat / 16 == 0) &&
    (w.mod.toNat / 2 % 2 == 1 || w.va == 0) && w.ext.toNat / 128 % 2 == 0

/-- A spill word (15 R297). -/
def spillOk (w : LaneWord) : Bool :=
  w.always && w.mod == 0 && w.va == 0 && w.vcZero && w.tyIn [12, 13, 14] && w.ext.toNat / 128 % 2 == 0

/-- A profile word acting once per issue (15 R299, R300). -/
def whole (w : LaneWord) : Bool := w.always && w.ty == 0 && w.ext == 0 && w.laZero && w.vcZero

/-- A symbol word acting once per issue (15 R301). -/
def symOnce (w : LaneWord) : Bool := w.always && w.ty == 0 && w.ext == 0 && w.laZero

/-- A predicate word (14 R287). -/
def predOk (w : LaneWord) : Bool :=
  w.guardOk && w.ty == 0 && w.mod == 0 && w.vcZero && w.laZero && w.ext == 0 &&
    isPred w.vd && isPred w.va && isPred w.vb

/-- vred and vscan (15 R292). -/
def redOk (w : LaneWord) : Bool :=
  let op := w.mod.toNat % 8
  w.guardOk && w.vb == 0 && w.vcZero && w.ext == 0 && w.laZero && op < 6 && w.mod.toNat / 8 < 6 &&
    (if op < 3 then w.tyIn [0, 3, 4] else w.tyIn [12])

/-- vup and vdn (15 R291). -/
def shiftOk (w : LaneWord) : Bool :=
  w.guardOk && w.tyIn [12] && w.vcZero && w.laZero && w.vb == 0 && w.mod.toNat < 2 && w.ext.toNat < 96

/-- The pairs of vcvt, destination type then source code (14 R283). -/
def cvtPairs : List (Nat × Nat) := [(3, 0), (4, 0), (0, 3), (0, 4), (3, 4), (4, 3)]

end LaneWord

open LaneWord in
/-- The field values of an instruction are legal (12 R225, R240 and the entry of each). -/
def Instr.wf : Instr → Bool
  | .jal _ i | .beq _ _ i | .bne _ _ i | .blt _ _ i | .bge _ _ i | .hsetLabel i
  | .addi _ _ i | .andi _ _ i | .ori _ _ i | .xori _ _ i | .slti _ _ i | .sltui _ _ i | .addi64 _ _ i
  | .sldTeamMemory _ _ i | .sldAnnex _ _ i | .sstTeamMemory _ _ i | .sstAnnex _ _ i | .shld _ _ _ i => i.okSigned
  | .lpc _ i => i.okUnsigned
  | .lxa n _ i => i.okUnsigned && n.toNat < 64
  | .lx n => 1 ≤ n.toNat && n.toNat ≤ 64
  | .hsetRegister a _ => a != 0
  | .mpush n => n.toNat < 24
  | .kget _ w n | .kset _ w n => w.toNat < 3 && n.toNat < 24
  | .sget _ i | .sset _ i => i.toNat < 18
  | .shset _ a f => f.toNat < 16 || (f.toNat == 16 && a == 0)
  | .wait c _ | .yield c _ _ => c.toNat < 5
  | .fence sc => sc.toNat < 5
  | .cpl _ _ _ b | .cps _ _ _ b | .cpx _ _ _ b | .cpm _ _ _ b | .cpg _ _ _ b | .cprPut _ _ _ b | .cprGet _ _ _ b
  | .cpw _ b _ | .cpst _ _ _ b | .cpcb _ _ b _ | .clag _ _ b | .clbc _ _ b | .bkcommit _ _ _ b | .mxwb _ _ b _ _ _ => bslOk b
  | .cpa _ _ _ b _ op => bslOk b && op.toNat < 3
  | .aclose sp _ _ => sp.toNat < 3
  | .clar _ _ b sr op | .clrs _ _ b sr op => bslOk b && op.toNat < 3 && (!sr || op == 0)
  | .mxa _ _ _ sp sel _ pc _ x vm =>
      let bs := pc.toNat == 4 || pc.toNat == 9
      pc.toNat < 13 && (!sp || pc.toNat < 6 || pc.toNat == 11 || pc.toNat == 12) &&
        (!sel || (sp && (pc.toNat == 11 || pc.toNat == 12))) &&
        (bs || (if sp then x.toNat < 64 else x == 0)) && (vm.isSome == (sp && bs))
  | .bkstat _ n => n.toNat < 12
  | .bkfence a => a != 0
  | .gctlCompact _ a | .gctlTake _ a => a == 0
  | .vaddInt w | .vsubInt w | .vmulInt w | .vminInt w | .vmaxInt w | .vadds w | .vsubs w => w.bin tyI
  | .vmulh w => w.bin [3, 4, 5, 6, 7, 8]
  | .vmad w => w.tern tyI
  | .vabsInt w | .vnegInt w => w.un tyS
  | .vand w | .vor w | .vxor w => w.bin [12]
  | .vnot w => w.un [12]
  | .vshl w | .vshr w => w.bin tyB
  | .vsra w => w.bin [3, 5, 7]
  | .vpopc w | .vclz w => w.un tyB
  | .vbfx w => w.bin [3, 4]
  | .vbfi w => w.tern [12]
  | .vmov w => w.bin [0, 3, 4, 12, 13, 14] && w.va == 0 && (w.ty.toNat < 13 || w.bsrc == 0)
  | .vsel w => w.tern [0, 3, 4, 12] && isPred w.vc
  | .vcmpInt w =>
      w.guardOk && w.tyIn [3, 4] && w.bOk && w.m4 < 6 && w.vcZero && w.laZero && isPred w.vd
  | .vaddFp w | .vsubFp w | .vmulFp w | .vminFp w | .vmaxFp w => w.bin tyF
  | .vfma w => w.tern tyF
  | .vnegFp w | .vabsFp w => w.un tyF
  | .vcmpFp w => w.guardOk && w.tyIn [0] && w.bOk && w.m4 < 8 && w.vcZero && w.laZero && isPred w.vd
  | .vrnd w => w.guardOk && w.tyIn tyF && w.unary && w.m4 < 5 && w.vcZero && w.laZero
  | .vrcp w | .vrsqrt w | .vsqrt w | .vexp2 w | .vlog2 w | .vsin w | .vcos w | .vtanh w | .vsigm w => w.sfu
  | .vdiv w => w.guardOk && w.tyIn [0] && w.bOk && w.m4 == 0 && w.vcZero
  | .vcvt w => w.guardOk && w.unary && w.vcZero && w.laZero && cvtPairs.contains (w.ty.toNat, w.m4)
  | .vpack w => w.guardOk && w.ty == 0 && w.vcZero && w.laZero && w.m4 < 2 && (if w.m4 == 1 then w.bOk else w.unary)
  | .vunpk w => w.guardOk && w.tyIn [0, 3] && w.vcZero && w.laZero && w.m4 < 2 &&
      (if w.m4 == 1 then w.bOk && w.ty == 0 else w.unary)
  | .vbscale w => w.un [0]
  | .vperm w => w.guardOk && w.tyIn [12] && w.vcZero && w.laZero && w.mod == 0 && w.ext == 0
  | .vshx w => w.guardOk && w.tyIn [12] && w.vcZero && w.laZero && w.vb == 0 && w.mod == 0 && w.ext.toNat < 128
  | .vup w | .vdn w => w.shiftOk
  | .vbcast w => w.guardOk && w.tyIn [12] && w.vcZero && w.laZero && w.vb == 0 &&
      (w.mod == 0 || (w.mod == 1 && w.ext.toNat < 128))
  | .vred w | .vscan w => w.redOk
  | .vld w => w.memOk [0, 1] && w.vb == 0 && w.vcZero && w.tyIn [5, 6, 7, 8, 12, 13, 14]
  | .vst w => w.memOk [0, 2] && w.vd == 0 && w.vcZero && w.laZero && w.tyIn [10, 11, 12, 13, 14]
  | .vatom w => w.memOk [0, 1, 2] && w.vc.toNat < 8 && (if w.vc.toNat < 3 then w.tyIn [3, 4] else w.tyIn [12])
  | .vfatomAddOrd w => w.memOk [0, 2] && w.vc == 0 && w.vd == 0 && w.laZero && w.ty == 0
  | .vfatomMax w => w.memOk [0, 1, 2] && w.vc == 1 && w.ty == 0
  | .vspill w => w.spillOk && w.vd == 0 && w.laZero
  | .vfill w => w.spillOk && w.vb == 0
  | .pclr w | .pconj w | .psimp w => w.whole && w.vb == 0 && w.mod == 0
  | .pmax w | .pinf w => w.whole && w.mod == 0
  | .padd w => w.whole && w.mod.toNat < 3
  | .pins w => w.guardOk && w.ty == 0 && w.ext == 0 && w.laZero && w.mod == 0
  | .peval w | .parg w => w.guardOk && w.ty == 0 && w.ext == 0 && w.vcZero && w.mod == 0
  | .pget w => w.guardOk && w.ty == 0 && w.vb == 0 && w.vcZero && w.mod == 0
  | .vlate w => w.guardOk && w.ty == 0 && w.ext == 0 && w.laZero && w.vb == 0 && w.vcZero && w.mod == 0
  | .vres w | .sybindManual w | .syrel w =>
      w.symOnce && w.vb == 0 && w.vcZero && w.mod == 0 && w.va == 0
  | .sybindCnt w => w.symOnce && w.mod == 1
  | .sybindSlot w => w.symOnce && w.vcZero && w.vb.toNat < 16 && (w.mod == 2 || w.mod == 6)
  | .syset w => w.symOnce && w.vb == 0 && w.vcZero && w.mod == 0
  | .vkand w | .vkor w | .vkxor w | .vkandn w => w.predOk
  | .vknot w => w.predOk && w.vb == 0
  | .vkset w => w.guardOk && w.ty == 0 && w.vb == 0 && w.vcZero && w.laZero && w.ext == 0 && isPred w.vd && w.mod.toNat < 32
  | .vksetC w => w.guardOk && w.ty == 0 && w.va == 0 && w.vb == 0 && w.vcZero && w.laZero && w.ext == 0 && isPred w.vd &&
      (w.mod == 32 || w.mod == 33)
  | _ => true

end Sys2Proof
end

