-- ==== Sys2Proof/Decode.lean ====
section
/-! DEFINITION. Encoding and decoding of scalar and lane words (12 R214-R220, R223-R225). A word decodes by its opcode to the
instruction its fields name; the instruction is accepted only if it is well formed and encodes to that very word, so that a
nonzero unused or reserved field is refused. -/

namespace Sys2Proof

/-! ### Scalar word formats (12 R214) -/

def encS3 (op : BitVec 7) (d a b : SReg) (l : BitVec 4) : Word := op ++ d ++ a ++ b ++ l
def encSI (op : BitVec 7) (d a : SReg) (i : BitVec 11) : Word := op ++ d ++ a ++ i
def encSJ (op : BitVec 7) (i : BitVec 25) : Word := op ++ i
def encSE (op : BitVec 7) (s1 s2 : ShReg) (a : SReg) (b m : BitVec 5) : Word := op ++ s1 ++ s2 ++ a ++ b ++ m
/-- The prefix word (12 R216). -/
def encPfx (h : BitVec 21) : Word := (0x7F#7 ++ 0#4) ++ h

def fOp (w : Word) : BitVec 7 := w.extractLsb' 25 7
def fD (w : Word) : SReg := w.extractLsb' 18 7
def fA (w : Word) : SReg := w.extractLsb' 11 7
def fB (w : Word) : SReg := w.extractLsb' 4 7
def fL (w : Word) : BitVec 4 := w.extractLsb' 0 4
def fI (w : Word) : BitVec 11 := w.extractLsb' 0 11
def fJ (w : Word) : BitVec 25 := w.extractLsb' 0 25
def fS1 (w : Word) : ShReg := w.extractLsb' 21 4
def fS2 (w : Word) : ShReg := w.extractLsb' 17 4
def fSA (w : Word) : SReg := w.extractLsb' 10 7
def fBsl (w : Word) : BitVec 5 := w.extractLsb' 5 5
def fMod (w : Word) : BitVec 5 := w.extractLsb' 0 5
def fBit (w : Word) (n : Nat) : Bool := w.getLsbD n

/-- imm11 of a word, with the prefix's 21 bits above it when there is one (12 R216); signed extension without. -/
def immS (w : Word) : Option (BitVec 21) → Imm
  | none => ⟨(fI w).signExtend 32, false⟩
  | some h => ⟨h ++ fI w, true⟩

/-- The same where the entry reads imm11 unsigned. -/
def immU (w : Word) : Option (BitVec 21) → Imm
  | none => ⟨(fI w).setWidth 32, false⟩
  | some h => ⟨h ++ fI w, true⟩

/-- The low 11 bits of an immediate, as the word carries them. -/
def Imm.low (i : Imm) : BitVec 11 := i.val.setWidth 11
/-- The 21 bits that the prefix carries. -/
def Imm.high (i : Imm) : BitVec 21 := i.val.extractLsb' 11 21

/-- A word with an immediate, behind its prefix when it has one. -/
def encImm (i : Imm) (w : Word) : List Word := if i.pfx then [encPfx i.high, w] else [w]

/-! ### Lane words (12 R217) -/

/-- The 96 bits of a lane word. -/
def encLane (op : BitVec 8) (w : LaneWord) : BitVec 96 :=
  w.ext ++ w.mod ++ w.la ++ w.vc ++ w.vb ++ w.va ++ w.vd ++ w.ty ++ BitVec.ofBool w.neg ++ w.pred ++ op

/-- The fields of 96 bits. -/
def laneFields (x : BitVec 96) : LaneWord where
  pred := x.extractLsb' 8 5
  neg := x.getLsbD 13
  ty := x.extractLsb' 14 4
  vd := x.extractLsb' 18 9
  va := x.extractLsb' 27 9
  vb := x.extractLsb' 36 9
  vc := x.extractLsb' 45 9
  la := x.extractLsb' 54 4
  mod := x.extractLsb' 58 6
  ext := x.extractLsb' 64 32

/-- The instruction that a lane opcode names (12 R224); three opcodes name more than one row of the table, told apart by vc
(vfatom), mod[1:0] (sybind) and mod[5] (vkset). `none`: unassigned. -/
def laneInstr (op : BitVec 8) (w : LaneWord) : Option Instr :=
  match op.toNat with
  | 0x01 => some (.vaddInt w) | 0x02 => some (.vsubInt w) | 0x03 => some (.vmulInt w) | 0x04 => some (.vmulh w)
  | 0x05 => some (.vmad w) | 0x06 => some (.vabsInt w) | 0x07 => some (.vnegInt w) | 0x08 => some (.vminInt w)
  | 0x09 => some (.vmaxInt w) | 0x0A => some (.vadds w) | 0x0B => some (.vsubs w) | 0x0C => some (.vand w)
  | 0x0D => some (.vor w) | 0x0E => some (.vxor w) | 0x0F => some (.vnot w) | 0x10 => some (.vshl w)
  | 0x11 => some (.vshr w) | 0x12 => some (.vsra w) | 0x13 => some (.vpopc w) | 0x14 => some (.vclz w)
  | 0x15 => some (.vbfx w) | 0x16 => some (.vbfi w) | 0x17 => some (.vmov w) | 0x18 => some (.vsel w)
  | 0x19 => some (.vcmpInt w)
  | 0x40 => some (.vaddFp w) | 0x41 => some (.vsubFp w) | 0x42 => some (.vmulFp w) | 0x43 => some (.vfma w)
  | 0x44 => some (.vnegFp w) | 0x45 => some (.vabsFp w) | 0x46 => some (.vminFp w) | 0x47 => some (.vmaxFp w)
  | 0x48 => some (.vcmpFp w) | 0x49 => some (.vrnd w)
  | 0x60 => some (.vrcp w) | 0x61 => some (.vrsqrt w) | 0x62 => some (.vsqrt w) | 0x63 => some (.vexp2 w)
  | 0x64 => some (.vlog2 w) | 0x65 => some (.vsin w) | 0x66 => some (.vcos w) | 0x67 => some (.vtanh w)
  | 0x68 => some (.vsigm w) | 0x69 => some (.vdiv w)
  | 0x80 => some (.vcvt w) | 0x81 => some (.vpack w) | 0x82 => some (.vunpk w) | 0x83 => some (.vbscale w)
  | 0xA0 => some (.vperm w) | 0xA1 => some (.vshx w) | 0xA2 => some (.vup w) | 0xA3 => some (.vdn w)
  | 0xA4 => some (.vbcast w) | 0xA5 => some (.vred w) | 0xA6 => some (.vscan w)
  | 0xC0 => some (.vld w) | 0xC1 => some (.vst w) | 0xC2 => some (.vatom w)
  | 0xC3 => some (if w.vc == 0 then .vfatomAddOrd w else .vfatomMax w)
  | 0xC4 => some (.vspill w) | 0xC5 => some (.vfill w)
  | 0xD0 => some (.pclr w) | 0xD1 => some (.pins w) | 0xD2 => some (.pmax w) | 0xD3 => some (.padd w)
  | 0xD4 => some (.pinf w) | 0xD5 => some (.pconj w) | 0xD6 => some (.psimp w) | 0xD7 => some (.peval w)
  | 0xD8 => some (.parg w) | 0xD9 => some (.pget w)
  | 0xE0 => some (.vlate w) | 0xE1 => some (.vres w)
  | 0xE2 => some (if w.mod.toNat % 4 == 0 then .sybindManual w else if w.mod.toNat % 4 == 1 then .sybindCnt w else .sybindSlot w)
  | 0xE3 => some (.syset w) | 0xE4 => some (.syrel w)
  | 0xE8 => some (.vkand w) | 0xE9 => some (.vkor w) | 0xEA => some (.vkxor w) | 0xEB => some (.vkandn w)
  | 0xEC => some (.vknot w)
  | 0xED => some (if w.mod.toNat < 32 then .vkset w else .vksetC w)
  | _ => none

/-- The opcode and fields of a lane instruction; `none` for every other instruction. -/
def laneParts : Instr → Option (BitVec 8 × LaneWord)
  | .vaddInt w => some (0x01, w) | .vsubInt w => some (0x02, w) | .vmulInt w => some (0x03, w) | .vmulh w => some (0x04, w)
  | .vmad w => some (0x05, w) | .vabsInt w => some (0x06, w) | .vnegInt w => some (0x07, w) | .vminInt w => some (0x08, w)
  | .vmaxInt w => some (0x09, w) | .vadds w => some (0x0A, w) | .vsubs w => some (0x0B, w) | .vand w => some (0x0C, w)
  | .vor w => some (0x0D, w) | .vxor w => some (0x0E, w) | .vnot w => some (0x0F, w) | .vshl w => some (0x10, w)
  | .vshr w => some (0x11, w) | .vsra w => some (0x12, w) | .vpopc w => some (0x13, w) | .vclz w => some (0x14, w)
  | .vbfx w => some (0x15, w) | .vbfi w => some (0x16, w) | .vmov w => some (0x17, w) | .vsel w => some (0x18, w)
  | .vcmpInt w => some (0x19, w)
  | .vaddFp w => some (0x40, w) | .vsubFp w => some (0x41, w) | .vmulFp w => some (0x42, w) | .vfma w => some (0x43, w)
  | .vnegFp w => some (0x44, w) | .vabsFp w => some (0x45, w) | .vminFp w => some (0x46, w) | .vmaxFp w => some (0x47, w)
  | .vcmpFp w => some (0x48, w) | .vrnd w => some (0x49, w)
  | .vrcp w => some (0x60, w) | .vrsqrt w => some (0x61, w) | .vsqrt w => some (0x62, w) | .vexp2 w => some (0x63, w)
  | .vlog2 w => some (0x64, w) | .vsin w => some (0x65, w) | .vcos w => some (0x66, w) | .vtanh w => some (0x67, w)
  | .vsigm w => some (0x68, w) | .vdiv w => some (0x69, w)
  | .vcvt w => some (0x80, w) | .vpack w => some (0x81, w) | .vunpk w => some (0x82, w) | .vbscale w => some (0x83, w)
  | .vperm w => some (0xA0, w) | .vshx w => some (0xA1, w) | .vup w => some (0xA2, w) | .vdn w => some (0xA3, w)
  | .vbcast w => some (0xA4, w) | .vred w => some (0xA5, w) | .vscan w => some (0xA6, w)
  | .vld w => some (0xC0, w) | .vst w => some (0xC1, w) | .vatom w => some (0xC2, w)
  | .vfatomAddOrd w => some (0xC3, w) | .vfatomMax w => some (0xC3, w)
  | .vspill w => some (0xC4, w) | .vfill w => some (0xC5, w)
  | .pclr w => some (0xD0, w) | .pins w => some (0xD1, w) | .pmax w => some (0xD2, w) | .padd w => some (0xD3, w)
  | .pinf w => some (0xD4, w) | .pconj w => some (0xD5, w) | .psimp w => some (0xD6, w) | .peval w => some (0xD7, w)
  | .parg w => some (0xD8, w) | .pget w => some (0xD9, w)
  | .vlate w => some (0xE0, w) | .vres w => some (0xE1, w)
  | .sybindManual w => some (0xE2, w) | .sybindCnt w => some (0xE2, w) | .sybindSlot w => some (0xE2, w)
  | .syset w => some (0xE3, w) | .syrel w => some (0xE4, w)
  | .vkand w => some (0xE8, w) | .vkor w => some (0xE9, w) | .vkxor w => some (0xEA, w) | .vkandn w => some (0xEB, w)
  | .vknot w => some (0xEC, w) | .vkset w => some (0xED, w) | .vksetC w => some (0xED, w)
  | _ => none

/-! ### Scalar instructions (12 R223) -/

/-- The bits of an mxa word (16 R314). -/
def encMxa (acc z pair sp sel : Bool) (sha : ShReg) (pc vbq : BitVec 4) (x : BitVec 8) : Word :=
  0x68#7 ++ BitVec.ofBool acc ++ BitVec.ofBool z ++ BitVec.ofBool pair ++ BitVec.ofBool sp ++ BitVec.ofBool sel ++
    sha ++ pc ++ vbq ++ x

/-- The words of a scalar instruction, its prefix first when it has one; an event, or a lane word, has none. -/
def encScalar : Instr → List Word
  | .br o => [encSJ 0x01 o]
  | .jal d i => encImm i (encSI 0x02 d 0 i.low)
  | .jr a => [encS3 0x03 0 a 0 0]
  | .beq d a i => encImm i (encSI 0x04 d a i.low)
  | .bne d a i => encImm i (encSI 0x05 d a i.low)
  | .blt d a i => encImm i (encSI 0x06 d a i.low)
  | .bge d a i => encImm i (encSI 0x07 d a i.low)
  | .exit => [encSJ 0x08 0]
  | .tail => [encSJ 0x09 0]
  | .trap c => [encSJ 0x0A (c.setWidth 25)]
  | .brk c => [encSJ 0x0B (c.setWidth 25)]
  | .hsetLabel i => encImm i (encSI 0x0C 0 0 i.low)
  | .hsetRegister a p => encImm ⟨0, p⟩ (encSI 0x0C 0 a 0)
  | .hret => [encSJ 0x0D 0]
  | .lpc a i => encImm i (encSI 0x0E 0 a i.low)
  | .add d a b => [encS3 0x10 d a b 0]
  | .sub d a b => [encS3 0x11 d a b 0]
  | .mul d a b => [encS3 0x12 d a b 0]
  | .mulh d a b => [encS3 0x13 d a b 0]
  | .mulhu d a b => [encS3 0x14 d a b 0]
  | .and d a b => [encS3 0x15 d a b 0]
  | .or d a b => [encS3 0x16 d a b 0]
  | .xor d a b => [encS3 0x17 d a b 0]
  | .shl d a b => [encS3 0x18 d a b 0]
  | .shr d a b => [encS3 0x19 d a b 0]
  | .sra d a b => [encS3 0x1A d a b 0]
  | .slt d a b => [encS3 0x1B d a b 0]
  | .sltu d a b => [encS3 0x1C d a b 0]
  | .min d a b => [encS3 0x1D d a b 0]
  | .max d a b => [encS3 0x1E d a b 0]
  | .popc d a => [encS3 0x1F d a 0 0]
  | .addi d a i => encImm i (encSI 0x20 d a i.low)
  | .andi d a i => encImm i (encSI 0x21 d a i.low)
  | .ori d a i => encImm i (encSI 0x22 d a i.low)
  | .xori d a i => encImm i (encSI 0x23 d a i.low)
  | .shli d a n => [encSI 0x24 d a (n.setWidth 11)]
  | .shri d a n => [encSI 0x25 d a (n.setWidth 11)]
  | .srai d a n => [encSI 0x26 d a (n.setWidth 11)]
  | .slti d a i => encImm i (encSI 0x27 d a i.low)
  | .sltui d a i => encImm i (encSI 0x28 d a i.low)
  | .add64 d a b => [encS3 0x29 d a b 0]
  | .sub64 d a b => [encS3 0x2A d a b 0]
  | .shl64 d a b => [encS3 0x2B d a b 0]
  | .shr64 d a b => [encS3 0x2C d a b 0]
  | .addi64 d a i => encImm i (encSI 0x2D d a i.low)
  | .mul64 d a b => [encS3 0x2E d a b 0]
  | .sltu64 d a b => [encS3 0x2F d a b 0]
  | .sldTeamMemory d a i => encImm i (encSI 0x30 d a i.low)
  | .sldAnnex d a i => encImm i (encSI 0x31 d a i.low)
  | .sstTeamMemory d a i => encImm i (encSI 0x32 d a i.low)
  | .sstAnnex d a i => encImm i (encSI 0x33 d a i.low)
  | .sldAcq d a ax sc la => [encSI 0x34 d a (BitVec.ofBool ax ++ sc ++ 0#4 ++ la)]
  | .sstRel d a ax sc => [encSI 0x35 d a (BitVec.ofBool ax ++ sc ++ 0#8)]
  | .mpush n => [encSI 0x3C 0 0 (n.setWidth 11)]
  | .melse => [encSJ 0x3D 0]
  | .mpop => [encSJ 0x3E 0]
  | .kget d w n => [encSI 0x3F d 0 (0#4 ++ w ++ n)]
  | .kset a w n => [encSI 0x40 0 a (0#4 ++ w ++ n)]
  | .movvs d a v => [encSI 0x41 d a (v ++ 0#2)]
  | .sget d i => [encSI 0x42 d 0 i]
  | .sset a i => [encSI 0x43 0 a i]
  | .elect d a => [encS3 0x44 d a 0 0]
  | .shld ax n a i => encImm i (encSI 0x45 (0#2 ++ BitVec.ofBool ax ++ n) a i.low)
  | .shset n a f => [encS3 0x46 (0#3 ++ n) a f 0]
  | .movsv d a v => [encSI 0x47 d a (v ++ 0#2)]
  | .wait c n => [encSI 0x48 0 0 (c ++ n)]
  | .yield c n o => [encSJ 0x49 (c ++ n ++ o)]
  | .fence sc => [encSI 0x4A 0 0 (sc.setWidth 11)]
  | .bsinit a n => [encSI 0x4B 0 a (n.setWidth 11)]
  | .bsarr d n => [encSI 0x4C d 0 (n.setWidth 11)]
  | .bswait a n => [encSI 0x4D 0 a (n.setWidth 11)]
  | .bsaw n => [encSI 0x4E 0 0 (n.setWidth 11)]
  | .gbar => [encSJ 0x4F 0]
  | .wcnt a b => [encS3 0x50 0 a b 0]
  | .wadr a b => [encS3 0x51 0 a b 0]
  | .bsget d n => [encSI 0x52 d 0 (n.setWidth 11)]
  | .cpl d s a b => [encSE 0x58 d s a b 0]
  | .cps d s a b => [encSE 0x59 d s a b 0]
  | .cpx d s a b => [encSE 0x5A d s a b 0]
  | .cpm d s a b => [encSE 0x5B d s a b 0]
  | .cpg d s a b => [encSE 0x5C d s a b 0]
  | .cprPut d s a b => [encSE 0x5D d s a b 0]
  | .cprGet d s a b => [encSE 0x5D d s a b 1]
  | .cpa d s a b p o => [encSE 0x5E d s a b (0#2 ++ BitVec.ofBool p ++ o)]
  | .cpw a b p => [encSE 0x5F 0 0 a b (0#4 ++ BitVec.ofBool p)]
  | .cpst d s a b => [encSE 0x60 d s a b 0]
  | .cpcb s a b t => [encSE 0x61 0 s a b (0#3 ++ t)]
  | .aclose p a b => [encS3 0x62 (0#5 ++ p) a b 0]
  | .clar t a b sr o => [encSE 0x63 t 0 a b (0#2 ++ BitVec.ofBool sr ++ o)]
  | .clrs t a b sr o => [encSE 0x64 t 0 a b (0#2 ++ BitVec.ofBool sr ++ o)]
  | .clag t a b => [encSE 0x65 t 0 a b 0]
  | .clbc t a b => [encSE 0x66 t 0 a b 0]
  | .launch d a ax la => [encS3 0x67 d a (0#6 ++ BitVec.ofBool ax) la]
  | .mxa acc z pair sp sel sha pc vbq x vm =>
      match vm with
      | none => [encMxa acc z pair sp sel sha pc vbq x]
      | some m => [encPfx (0#15 ++ m), encMxa acc z pair sp sel sha pc vbq x]
  | .mxwb d a b pair keep acc =>
      [encSE 0x69 d 0 a b (0#2 ++ BitVec.ofBool pair ++ BitVec.ofBool keep ++ BitVec.ofBool acc)]
  | .mxfence d => [encSI 0x6A d 0 0]
  | .mxwait a => [encSI 0x6B 0 a 0]
  | .bkfile sa sg r l st => [encSE 0x70 sa sg r 31 (BitVec.ofBool l ++ st)]
  | .bkcommit d s a b => [encSE 0x71 d s a b 0]
  | .bkstat d n => [encSI 0x72 d 0 n]
  | .bkfence a => [encS3 0x73 0 a 0 0]
  | .bkfenceAll => [encS3 0x73 0 0 1 0]
  | .stget d a => [encSI 0x74 d a 0]
  | .stclr a => [encSI 0x75 0 a 0]
  | .eret => [encSJ 0x76 0]
  | .cwinRead d a b | .cwinWrite d a b => [encS3 0x77 d a b 0]
  | .gctlHalt d a => [encS3 0x78 d a 0 0]
  | .gctlResume d a => [encS3 0x78 d a 1 0]
  | .gctlReplay d a => [encS3 0x78 d a 2 0]
  | .gctlCancel d a => [encS3 0x78 d a 3 0]
  | .gctlCompact d a => [encS3 0x78 d a 4 0]
  | .gctlTake d a => [encS3 0x78 d a 5 0]
  | .gctlKill d a => [encS3 0x78 d a 6 0]
  | .gctlStep d a => [encS3 0x78 d a 7 0]
  | .ctxSave d a b | .ctxLoad d a b => [encS3 0x79 d a b 0]
  | .tinv a b => [encS3 0x7A 0 a b 0]
  | .cfgRead d a b | .cfgWrite d a b => [encS3 0x7B d a b 0]
  | .lx n => [encSI 0x7C 0 0 n]
  | .lxa n a i => encImm i (encSI 0x7D n a i.low)
  | .extensionPrefix h => [encPfx h]
  | _ => []

/-- The opcodes whose entry marks them prefixable (12 R216, 13 "P"). -/
def prefixable (op : BitVec 7) : Bool :=
  [0x02, 0x04, 0x05, 0x06, 0x07, 0x0C, 0x0E, 0x20, 0x21, 0x22, 0x23, 0x27, 0x28, 0x2D, 0x30, 0x31, 0x32, 0x33, 0x45,
    0x68, 0x7D].contains op.toNat

/-- The instruction that a scalar word names by its opcode, with the bits `h` of the prefix before it, if any. cwin, ctx and
cfg have one word for two rows of the table each: the word decodes to the reading, saving row, and the register that names the
direction picks the row when the word issues (`Machine.resolve`). `none`: unassigned. -/
def scalarInstr (w : Word) (h : Option (BitVec 21)) : Option Instr :=
  match (fOp w).toNat with
  | 0x01 => some (.br (fJ w))
  | 0x02 => some (.jal (fD w) (immS w h))
  | 0x03 => some (.jr (fA w))
  | 0x04 => some (.beq (fD w) (fA w) (immS w h))
  | 0x05 => some (.bne (fD w) (fA w) (immS w h))
  | 0x06 => some (.blt (fD w) (fA w) (immS w h))
  | 0x07 => some (.bge (fD w) (fA w) (immS w h))
  | 0x08 => some .exit
  | 0x09 => some .tail
  | 0x0A => some (.trap ((fJ w).setWidth 16))
  | 0x0B => some (.brk ((fJ w).setWidth 16))
  | 0x0C => some (if fA w == 0 then .hsetLabel (immS w h) else .hsetRegister (fA w) h.isSome)
  | 0x0D => some .hret
  | 0x0E => some (.lpc (fA w) (immU w h))
  | 0x10 => some (.add (fD w) (fA w) (fB w))
  | 0x11 => some (.sub (fD w) (fA w) (fB w))
  | 0x12 => some (.mul (fD w) (fA w) (fB w))
  | 0x13 => some (.mulh (fD w) (fA w) (fB w))
  | 0x14 => some (.mulhu (fD w) (fA w) (fB w))
  | 0x15 => some (.and (fD w) (fA w) (fB w))
  | 0x16 => some (.or (fD w) (fA w) (fB w))
  | 0x17 => some (.xor (fD w) (fA w) (fB w))
  | 0x18 => some (.shl (fD w) (fA w) (fB w))
  | 0x19 => some (.shr (fD w) (fA w) (fB w))
  | 0x1A => some (.sra (fD w) (fA w) (fB w))
  | 0x1B => some (.slt (fD w) (fA w) (fB w))
  | 0x1C => some (.sltu (fD w) (fA w) (fB w))
  | 0x1D => some (.min (fD w) (fA w) (fB w))
  | 0x1E => some (.max (fD w) (fA w) (fB w))
  | 0x1F => some (.popc (fD w) (fA w))
  | 0x20 => some (.addi (fD w) (fA w) (immS w h))
  | 0x21 => some (.andi (fD w) (fA w) (immS w h))
  | 0x22 => some (.ori (fD w) (fA w) (immS w h))
  | 0x23 => some (.xori (fD w) (fA w) (immS w h))
  | 0x24 => some (.shli (fD w) (fA w) ((fI w).setWidth 5))
  | 0x25 => some (.shri (fD w) (fA w) ((fI w).setWidth 5))
  | 0x26 => some (.srai (fD w) (fA w) ((fI w).setWidth 5))
  | 0x27 => some (.slti (fD w) (fA w) (immS w h))
  | 0x28 => some (.sltui (fD w) (fA w) (immS w h))
  | 0x29 => some (.add64 (fD w) (fA w) (fB w))
  | 0x2A => some (.sub64 (fD w) (fA w) (fB w))
  | 0x2B => some (.shl64 (fD w) (fA w) (fB w))
  | 0x2C => some (.shr64 (fD w) (fA w) (fB w))
  | 0x2D => some (.addi64 (fD w) (fA w) (immS w h))
  | 0x2E => some (.mul64 (fD w) (fA w) (fB w))
  | 0x2F => some (.sltu64 (fD w) (fA w) (fB w))
  | 0x30 => some (.sldTeamMemory (fD w) (fA w) (immS w h))
  | 0x31 => some (.sldAnnex (fD w) (fA w) (immS w h))
  | 0x32 => some (.sstTeamMemory (fD w) (fA w) (immS w h))
  | 0x33 => some (.sstAnnex (fD w) (fA w) (immS w h))
  | 0x34 => some (.sldAcq (fD w) (fA w) (fBit w 10) (w.extractLsb' 8 2) (fL w))
  | 0x35 => some (.sstRel (fD w) (fA w) (fBit w 10) (w.extractLsb' 8 2))
  | 0x3C => some (.mpush (fMod w))
  | 0x3D => some .melse
  | 0x3E => some .mpop
  | 0x3F => some (.kget (fD w) (w.extractLsb' 5 2) (fMod w))
  | 0x40 => some (.kset (fA w) (w.extractLsb' 5 2) (fMod w))
  | 0x41 => some (.movvs (fD w) (fA w) (w.extractLsb' 2 9))
  | 0x42 => some (.sget (fD w) (fI w))
  | 0x43 => some (.sset (fA w) (fI w))
  | 0x44 => some (.elect (fD w) (fA w))
  | 0x45 => some (.shld (fBit w 22) (w.extractLsb' 18 4) (fA w) (immS w h))
  | 0x46 => some (.shset (w.extractLsb' 18 4) (fA w) (fB w))
  | 0x47 => some (.movsv (fD w) (fA w) (w.extractLsb' 2 9))
  | 0x48 => some (.wait (w.extractLsb' 8 3) (w.extractLsb' 0 8))
  | 0x49 => some (.yield (w.extractLsb' 22 3) (w.extractLsb' 14 8) (w.extractLsb' 0 14))
  | 0x4A => some (.fence (w.extractLsb' 0 3))
  | 0x4B => some (.bsinit (fA w) (fL w))
  | 0x4C => some (.bsarr (fD w) (fL w))
  | 0x4D => some (.bswait (fA w) (fL w))
  | 0x4E => some (.bsaw (fL w))
  | 0x4F => some .gbar
  | 0x50 => some (.wcnt (fA w) (fB w))
  | 0x51 => some (.wadr (fA w) (fB w))
  | 0x52 => some (.bsget (fD w) (fL w))
  | 0x58 => some (.cpl (fS1 w) (fS2 w) (fSA w) (fBsl w))
  | 0x59 => some (.cps (fS1 w) (fS2 w) (fSA w) (fBsl w))
  | 0x5A => some (.cpx (fS1 w) (fS2 w) (fSA w) (fBsl w))
  | 0x5B => some (.cpm (fS1 w) (fS2 w) (fSA w) (fBsl w))
  | 0x5C => some (.cpg (fS1 w) (fS2 w) (fSA w) (fBsl w))
  | 0x5D => some (if fBit w 0 then .cprGet (fS1 w) (fS2 w) (fSA w) (fBsl w) else .cprPut (fS1 w) (fS2 w) (fSA w) (fBsl w))
  | 0x5E => some (.cpa (fS1 w) (fS2 w) (fSA w) (fBsl w) (fBit w 2) (w.extractLsb' 0 2))
  | 0x5F => some (.cpw (fSA w) (fBsl w) (fBit w 0))
  | 0x60 => some (.cpst (fS1 w) (fS2 w) (fSA w) (fBsl w))
  | 0x61 => some (.cpcb (fS2 w) (fSA w) (fBsl w) (w.extractLsb' 0 2))
  | 0x62 => some (.aclose (w.extractLsb' 18 2) (fA w) (fB w))
  | 0x63 => some (.clar (fS1 w) (fSA w) (fBsl w) (fBit w 2) (w.extractLsb' 0 2))
  | 0x64 => some (.clrs (fS1 w) (fSA w) (fBsl w) (fBit w 2) (w.extractLsb' 0 2))
  | 0x65 => some (.clag (fS1 w) (fSA w) (fBsl w))
  | 0x66 => some (.clbc (fS1 w) (fSA w) (fBsl w))
  | 0x67 => some (.launch (fD w) (fA w) (fBit w 4) (fL w))
  | 0x68 => some (.mxa (fBit w 24) (fBit w 23) (fBit w 22) (fBit w 21) (fBit w 20) (w.extractLsb' 16 4)
      (w.extractLsb' 12 4) (w.extractLsb' 8 4) (w.extractLsb' 0 8) (h.map (·.setWidth 6)))
  | 0x69 => some (.mxwb (fS1 w) (fSA w) (fBsl w) (fBit w 2) (fBit w 1) (fBit w 0))
  | 0x6A => some (.mxfence (fD w))
  | 0x6B => some (.mxwait (fA w))
  | 0x70 => some (.bkfile (fS1 w) (fS2 w) (fSA w) (fBit w 4) (fL w))
  | 0x71 => some (.bkcommit (fS1 w) (fS2 w) (fSA w) (fBsl w))
  | 0x72 => some (.bkstat (fD w) (fI w))
  | 0x73 => some (if fB w == 1 then .bkfenceAll else .bkfence (fA w))
  | 0x74 => some (.stget (fD w) (fA w))
  | 0x75 => some (.stclr (fA w))
  | 0x76 => some .eret
  | 0x77 => some (.cwinRead (fD w) (fA w) (fB w))
  | 0x78 =>
      match (fB w).toNat with
      | 0 => some (.gctlHalt (fD w) (fA w))
      | 1 => some (.gctlResume (fD w) (fA w))
      | 2 => some (.gctlReplay (fD w) (fA w))
      | 3 => some (.gctlCancel (fD w) (fA w))
      | 4 => some (.gctlCompact (fD w) (fA w))
      | 5 => some (.gctlTake (fD w) (fA w))
      | 6 => some (.gctlKill (fD w) (fA w))
      | _ => some (.gctlStep (fD w) (fA w))
  | 0x79 => some (.ctxSave (fD w) (fA w) (fB w))
  | 0x7A => some (.tinv (fA w) (fB w))
  | 0x7B => some (.cfgRead (fD w) (fA w) (fB w))
  | 0x7C => some (.lx (fI w))
  | 0x7D => some (.lxa (fD w) (fA w) (immU w h))
  | _ => none

/-! ### Decoding -/

/-- Why bits are refused. -/
inductive Reject where
  /-- a field value that no entry accepts: the illegal-field fault at that opcode (12 R225) -/
  | illegalField (op : Nat)
  /-- the bytes end before the instruction does -/
  | truncated
deriving DecidableEq, Repr

/-- One scalar instruction from its first word and the word after it (`none` when that is not mapped), with the number of
words it takes. A prefix that joins no prefixable word is the instruction `extensionPrefix`, which faults (12 R216); an
unassigned opcode is `illegalInstruction` (12 R225). -/
def decodeScalar (w : Word) (next : Option Word) : Except Reject (Instr × Nat) :=
  if fOp w == 0x7F then
    match next with
    | none => .error .truncated
    | some w2 =>
      if w.extractLsb' 21 4 == 0 && prefixable (fOp w2) then
        match scalarInstr w2 (some (w.extractLsb' 0 21)) with
        | some i => if i.wf && encScalar i == [w, w2] then .ok (i, 2) else .error (.illegalField (fOp w2).toNat)
        | none => .error (.illegalField 0x7F)
      else if w.extractLsb' 21 4 == 0 then .ok (.extensionPrefix (w.extractLsb' 0 21), 1)
      else .error (.illegalField 0x7F)
  else
    match scalarInstr w none with
    | none => .ok (.illegalInstruction, 1)
    | some i => if i.wf && encScalar i == [w] then .ok (i, 1) else .error (.illegalField (fOp w).toNat)

/-- One lane instruction from its 96 bits. -/
def decodeLane (x : BitVec 96) : Except Reject Instr :=
  match laneInstr (x.extractLsb' 0 8) (laneFields x) with
  | none => .ok .illegalInstruction
  | some i => if i.wf then .ok i else .error (.illegalField (x.extractLsb' 0 8).toNat)

/-- The words of a scalar or lane instruction as they stand in memory, first word first (12 R214, R217); [] for an event. -/
def encode (i : Instr) : List Word :=
  match laneParts i with
  | some (op, w) =>
      let x := encLane op w
      [x.extractLsb' 0 32, x.extractLsb' 32 32, x.extractLsb' 64 32]
  | none => encScalar i

/-- Four bytes as a little-endian word (00 R10). -/
def wordOfBytes (b0 b1 b2 b3 : Byte) : Word := b3 ++ b2 ++ b1 ++ b0

/-- The bytes of a word, lowest address first. -/
def bytesOfWord (w : Word) : List Byte :=
  [w.extractLsb' 0 8, w.extractLsb' 8 8, w.extractLsb' 16 8, w.extractLsb' 24 8]

/-- Three words as a lane word (12 R217). -/
def laneOfWords (w0 w1 w2 : Word) : BitVec 96 := w2 ++ w1 ++ w0

/-- The decoder on any bytes of `.text`: the instruction and the bytes after it. -/
def decodeText : List Byte → Except Reject (Instr × List Byte)
  | b0 :: b1 :: b2 :: b3 :: rest =>
      let next := match rest with
        | c0 :: c1 :: c2 :: c3 :: _ => some (wordOfBytes c0 c1 c2 c3)
        | _ => none
      match decodeScalar (wordOfBytes b0 b1 b2 b3) next with
      | .ok (i, n) => .ok (i, rest.drop (4 * (n - 1)))
      | .error e => .error e
  | _ => .error .truncated

/-- The decoder on any bytes of `.lane`. -/
def decodeLaneBytes : List Byte → Except Reject (Instr × List Byte)
  | b0 :: b1 :: b2 :: b3 :: b4 :: b5 :: b6 :: b7 :: b8 :: b9 :: b10 :: b11 :: rest =>
      match decodeLane (laneOfWords (wordOfBytes b0 b1 b2 b3) (wordOfBytes b4 b5 b6 b7) (wordOfBytes b8 b9 b10 b11)) with
      | .ok i => .ok (i, rest)
      | .error e => .error e
  | _ => .error .truncated

/-- The instruction that the decoder reads from `nbits` table bits `w` followed by zero bits: more than 64 bits are a lane
word, fewer are scalar words. -/
def decodeTableWord (nbits w : Nat) : Option Instr :=
  if nbits > 64 then (decodeLane (BitVec.ofNat 96 w)).toOption
  else ((decodeScalar (BitVec.ofNat 32 w) (some (BitVec.ofNat 32 (w / 2 ^ 32)))).toOption).map (·.1)

end Sys2Proof
end

