-- ==== Sys2Proof/Config.lean ====
section
/-! DEFINITION. What the spec leaves open: free values, none of which has a body, so that no proof sees what they are. -/

namespace Sys2Proof.Config

open Sys2Proof

/-- FREE VALUE (log 1, log 20). Which of several allowed choices the machine makes, taken mod their number: the move of a step
whose agenda names none (the spec fixes no order between agents, 06 R127, 01 R37), the free slot that a fault record or a deferred
register takes, the entry that a full translation cache drops (24 R389). Applied to the counter of free values. -/
opaque pick : Nat → Nat

/-- FREE VALUE (log 19). The band, mod 8, in which a Curator's words are charged: they belong to no team (23 R368, R369). -/
opaque curatorBand : Nat

/-- FREE VALUE (log 6). How many instructions a sibling group begins after a faulting word before the halt reaches it; the
model takes it mod 7, because the skid count is 0 to 6 (22 R349). -/
opaque skid : Nat → Nat

/-- FREE VALUE (log 61). The stripe group, mod their number, in which a row of team memory, of the annex or of a register file lies: the
spec does not place rows (24 R392). Applied to the row's number in its structure. -/
opaque stripe : Nat → Nat

/-- FREE VALUE (log 62). The hub, mod 2, whose cache and walkers translate a hub's access to a page: the spec does not say (24 R389). -/
opaque hubFor : Nat → Nat

/-- FREE VALUE (log 15). The 2,592 bytes of the ML-DSA-87 public keys, which the spec does not give: of Tameus, for firmware (25 R411), and of
whoever signs configuration records (25 R412). -/
opaque tameusKey : BitVec 20736
opaque recordKey : BitVec 20736

/-- FREE VALUE (log 15). The 4,896 bytes of the device's private ML-DSA-87 key, derived from its physically unclonable function, and the 32 bytes
of randomness of a signature, by the counter of free values (25 R413). -/
opaque deviceKey : BitVec 39168
opaque signRandom : Nat → BitVec 256

/-- FREE VALUE (log 15). The device's 32-byte identity (25 R413). -/
opaque identity : BitVec 256

/-- FREE VALUE (log 24). A byte of the wrong product that Audit has found (07 R153): the spec does not say what it is. -/
opaque freeByte : Nat → Byte

end Sys2Proof.Config
end

