-- ==== Sys2Proof/Machine/Num.lean ====
section
/-! DEFINITION. Exact numbers, the number formats and every rounding of the Z9 (04 R72-R79, R85-R89). -/

namespace Sys2Proof.Machine

open Sys2Proof

/-! ### Exact rationals -/

/-- An exact rational number: num / den with den > 0, not reduced. Every finite value of the formats is one with a power of
two below. -/
structure Q where
  num : Int
  den : Nat
deriving DecidableEq, Repr

namespace Q

def ofInt (i : Int) : Q := ⟨i, 1⟩
def zero : Q := ⟨0, 1⟩
/-- 2^e. -/
def pow2 (e : Int) : Q := if e < 0 then ⟨1, 2 ^ e.natAbs⟩ else ⟨2 ^ e.toNat, 1⟩
def neg (a : Q) : Q := ⟨-a.num, a.den⟩
def abs (a : Q) : Q := ⟨a.num.natAbs, a.den⟩
/-- The sum; where one denominator divides the other, the larger is kept. -/
def add (a b : Q) : Q :=
  if a.den % b.den == 0 then ⟨a.num + b.num * ((a.den / b.den : Nat) : Int), a.den⟩
  else if b.den % a.den == 0 then ⟨a.num * ((b.den / a.den : Nat) : Int) + b.num, b.den⟩
  else ⟨a.num * b.den + b.num * a.den, a.den * b.den⟩
def sub (a b : Q) : Q := a.add b.neg
def mul (a b : Q) : Q := ⟨a.num * b.num, a.den * b.den⟩
/-- The quotient, 0 for a zero divisor (no caller divides by zero). -/
def div (a b : Q) : Q :=
  if b.num == 0 then zero else if b.num < 0 then ⟨-(a.num * b.den), a.den * b.num.natAbs⟩ else ⟨a.num * b.den, a.den * b.num.natAbs⟩
def lt (a b : Q) : Bool := decide (a.num * b.den < b.num * a.den)
def le (a b : Q) : Bool := decide (a.num * b.den ≤ b.num * a.den)
def eq (a b : Q) : Bool := decide (a.num * b.den = b.num * a.den)
def isZero (a : Q) : Bool := a.num == 0
def isNeg (a : Q) : Bool := decide (a.num < 0)
def max (a b : Q) : Q := if a.lt b then b else a
def min (a b : Q) : Q := if b.lt a then b else a
/-- floor. -/
def floor (a : Q) : Int := a.num.fdiv a.den
def isInt (a : Q) : Bool := a.num.natAbs % a.den == 0
/-- floor(log2 a) for a > 0. -/
def log2 (a : Q) : Int :=
  let l : Int := (Nat.log2 a.num.natAbs : Int) - (Nat.log2 a.den : Int)
  if (pow2 l).le a then (if (pow2 (l + 1)).le a then l + 1 else l) else l - 1
/-- Sum of a list. -/
def sum (l : List Q) : Q := l.foldl add zero

end Q

/-! ### Formats (04 R72-R76) -/

/-- A floating-point format (04 R74). -/
structure FFmt where
  ebits : Nat
  mbits : Nat
  bias  : Int
  hasInf : Bool
  hasNan : Bool
  maxCode : Nat      -- code of the largest finite value
  nanCode : Nat      -- canonical NaN (04 R75), 0 where the format has none
deriving DecidableEq, Repr

namespace FFmt
def fp32 : FFmt := ⟨8, 23, 127, true, true, 0x7F7FFFFF, 0x7FC00000⟩
def bf16 : FFmt := ⟨8, 7, 127, true, true, 0x7F7F, 0x7FC0⟩
def fp16 : FFmt := ⟨5, 10, 15, true, true, 0x7BFF, 0x7E00⟩
def e4m3 : FFmt := ⟨4, 3, 7, false, true, 0x7E, 0x7F⟩
def e5m2 : FFmt := ⟨5, 2, 15, true, true, 0x7B, 0x7E⟩
def e2m1 : FFmt := ⟨2, 1, 1, false, false, 0x7, 0⟩
def width (f : FFmt) : Nat := 1 + f.ebits + f.mbits
def emin (f : FFmt) : Int := 1 - f.bias
/-- The code of +infinity. -/
def infCode (f : FFmt) : Nat := (2 ^ f.ebits - 1) * 2 ^ f.mbits
end FFmt

/-- What a number is: NaN, an infinity, or an exact finite magnitude with a sign (so that -0 is kept). -/
inductive FVal where
  | nan
  | inf (s : Bool)
  | fin (s : Bool) (m : Q)
deriving DecidableEq, Repr

namespace FVal
def toQ : FVal → Q
  | .fin s m => if s then m.neg else m
  | _ => Q.zero
def ofQ (q : Q) : FVal := .fin q.isNeg q.abs
def neg : FVal → FVal
  | .nan => .nan
  | .inf s => .inf (!s)
  | .fin s m => .fin (!s) m
def isNan : FVal → Bool
  | .nan => true
  | _ => false
def isZero : FVal → Bool
  | .fin _ m => m.isZero
  | _ => false
def sign : FVal → Bool
  | .nan => false
  | .inf s => s
  | .fin s _ => s
/-- a < b as numbers, -0 equal to +0; NaN compares false. -/
def lt : FVal → FVal → Bool
  | .nan, _ | _, .nan => false
  | .inf s, .inf t => s && !t
  | .inf s, .fin _ _ => s
  | .fin _ _, .inf t => !t
  | a, b => a.toQ.lt b.toQ
def eq : FVal → FVal → Bool
  | .nan, _ | _, .nan => false
  | .inf s, .inf t => s == t
  | .inf _, .fin _ _ | .fin _ _, .inf _ => false
  | a, b => a.toQ.eq b.toQ
/-- The lesser, +0 taken as larger than -0 (14 R277); no NaN. -/
def lesser (a b : FVal) : FVal := if a.lt b then a else if b.lt a then b else if a.sign then a else b
/-- The greater, under the same rule. -/
def greater (a b : FVal) : FVal := if b.lt a then a else if a.lt b then b else if a.sign then b else a
end FVal

/-- The value of a code of format f (04 R74). -/
def FFmt.value (f : FFmt) (bits : Nat) : FVal :=
  let s := bits / 2 ^ (f.ebits + f.mbits) % 2 == 1
  let e := bits / 2 ^ f.mbits % 2 ^ f.ebits
  let m := bits % 2 ^ f.mbits
  let mag := e * 2 ^ f.mbits + m
  if f.hasInf && e == 2 ^ f.ebits - 1 then (if m == 0 then .inf s else .nan)
  else if f.hasNan && !f.hasInf && mag == f.nanCode then .nan
  else if e == 0 then .fin s (Q.mul ⟨m, 1⟩ (Q.pow2 (f.emin - f.mbits)))
  else .fin s (Q.mul ⟨2 ^ f.mbits + m, 1⟩ (Q.pow2 ((e : Int) - f.bias - f.mbits)))

/-- The largest finite value. -/
def FFmt.maxVal (f : FFmt) : Q := (f.value f.maxCode).toQ

/-! ### Flags (04 R79) -/

/-- cond.aflags: [0] invalid, [1] divide by zero, [2] overflow, [3] underflow, [4] inexact. -/
abbrev AFlags := BitVec 5
def flInvalid : AFlags := 1
def flDivZero : AFlags := 2
def flOverflow : AFlags := 4
def flUnderflow : AFlags := 8
def flInexact : AFlags := 16
def flIf (b : Bool) (f : AFlags) : AFlags := if b then f else 0

/-! ### The keyed mixer (04 R88) -/

/-- rnd for a key and a counter. -/
def mixer (key ctr : BitVec 64) : Nat :=
  let z := key ^^^ (ctr * 0x9E3779B97F4A7C15#64)
  let z := (z ^^^ (z >>> 30)) * 0xBF58476D1CE4E5B9#64
  let z := (z ^^^ (z >>> 27)) * 0x94D049BB133111EB#64
  let z := z ^^^ (z >>> 31)
  z.toNat / 2 ^ 32

/-! ### Rounding (04 R78, R87) -/

/-- How to round: to nearest even, or stochastically with a 32-bit random value. -/
inductive RMode where
  | rne
  | sr (rnd : Nat)
deriving DecidableEq, Repr

/-- Round a non-negative rational to an integer, to nearest even. -/
def rneNat (q : Q) : Nat :=
  let n := q.num.natAbs / q.den
  let r := q.num.natAbs % q.den
  if 2 * r < q.den then n else if q.den < 2 * r then n + 1 else if n % 2 == 0 then n else n + 1

/-- Round a non-negative rational to an integer, by mode; ulp and the smallest step are 1 (04 R87). -/
def roundNat (md : RMode) (q : Q) : Nat :=
  match md with
  | .rne => rneNat q
  | .sr rnd =>
      if q.isInt then q.floor.toNat
      else if q.lt (Q.ofInt 1) then (if (rnd : Int) < (q.mul (Q.pow2 32)).floor then 1 else 0)
      else (q.add ⟨rnd, 2 ^ 32⟩).floor.toNat

/-- The magnitude code of |x| = m > 0 in format f. Rounded to nearest, a code above maxCode is an overflow, not treated here; stochastic
rounding never passes the largest finite value (04 R87). -/
def FFmt.roundMag (f : FFmt) (md : RMode) (m : Q) : Nat :=
  let e := Max.max m.log2 f.emin
  let ulp := Q.pow2 (e - f.mbits)
  let scale (k : Nat) : Nat := ((e + f.bias - 1).toNat) * 2 ^ f.mbits + k
  match md with
  | .rne => scale (rneNat (m.div ulp))
  | .sr rnd =>
    if (m.div ulp).isInt then Nat.min f.maxCode (scale (m.div ulp).floor.toNat)
    else if m.lt (Q.pow2 (f.emin - f.mbits)) then
      (if (rnd : Int) < (m.mul (Q.pow2 (32 - (f.emin - f.mbits)))).floor then 1 else 0)
    else
      let y := m.add (ulp.mul ⟨rnd, 2 ^ 32⟩)
      let e2 := Max.max y.log2 f.emin
      Nat.min f.maxCode (((e2 + f.bias - 1).toNat) * 2 ^ f.mbits + (y.div (Q.pow2 (e2 - f.mbits))).floor.toNat)

/-- The code with a sign. -/
def FFmt.signed (f : FFmt) (s : Bool) (mag : Nat) : Nat := (if s then 2 ^ (f.ebits + f.mbits) else 0) + mag

/-- Narrow a value to format f with one rounding, and the flags of that rounding (04 R78, R79). NaN gives the canonical NaN,
or +0 with invalid in a format without one; an infinity into a format that has them is exact and sets no flag (log 57). -/
def FFmt.narrow (f : FFmt) (md : RMode) : FVal → Nat × AFlags
  | .nan => if f.hasNan then (f.nanCode, 0) else (0, flInvalid)
  | .inf s =>
      if f.hasInf then (f.signed s f.infCode, 0)
      else (f.signed s f.maxCode, flOverflow ||| flInexact)
  | .fin s m =>
      if m.isZero then (f.signed s 0, 0)
      else
        let c := f.roundMag md m
        let ovf := f.maxVal.lt m
        if f.maxCode < c then
          ((f.signed s (if f.hasInf then f.infCode else f.maxCode)), flOverflow ||| flInexact)
        else
          let exact := (f.value c).toQ.eq m
          (f.signed s c, flIf ovf flOverflow ||| flIf (!exact) flInexact |||
            flIf (!exact && c < 2 ^ f.mbits) flUnderflow)

/-- RNE to FP32, as bits (12 R241). -/
def rne32 (v : FVal) : Word × AFlags := let (c, fl) := FFmt.fp32.narrow .rne v; (BitVec.ofNat 32 c, fl)

/-- The value of an FP32 word. -/
def f32 (w : Word) : FVal := FFmt.fp32.value w.toNat

/-! ### Exact arithmetic with the IEEE specials (14 R277) -/

/-- The exact sum, and whether a NaN arises from operands that are none. -/
def FVal.add : FVal → FVal → FVal × Bool
  | .nan, _ | _, .nan => (.nan, false)
  | .inf s, .inf t => if s == t then (.inf s, false) else (.nan, true)
  | .inf s, .fin _ _ | .fin _ _, .inf s => (.inf s, false)
  | .fin s m, .fin t n =>
      let q := (FVal.fin s m).toQ.add (FVal.fin t n).toQ
      if q.isZero then (.fin (m.isZero && n.isZero && s && t) Q.zero, false) else (.ofQ q, false)

/-- The exact product. -/
def FVal.mul : FVal → FVal → FVal × Bool
  | .nan, _ | _, .nan => (.nan, false)
  | .inf s, .inf t => (.inf (s != t), false)
  | .inf s, .fin t m | .fin t m, .inf s => if m.isZero then (.nan, true) else (.inf (s != t), false)
  | .fin s m, .fin t n => (.fin (s != t) (m.mul n), false)

/-- a × b + c, exact; ∞ × 0 is invalid whatever c is (14 R277). -/
def FVal.fma (a b c : FVal) : FVal × Bool :=
  let (p, i) := a.mul b
  if a.isNan || b.isNan then (.nan, false)
  else if i then (.nan, true)
  else let (r, j) := p.add c; (r, j)

/-- IEEE division (14 R280): value, invalid, divide by zero. -/
def FVal.div : FVal → FVal → FVal × AFlags
  | .nan, _ | _, .nan => (.nan, 0)
  | .inf _, .inf _ => (.nan, flInvalid)
  | .inf s, .fin t _ => (.inf (s != t), 0)
  | .fin s _, .inf t => (.fin (s != t) Q.zero, 0)
  | .fin s m, .fin t n =>
      if n.isZero then (if m.isZero then (.nan, flInvalid) else (.inf (s != t), flDivZero))
      else (.fin (s != t) (m.div n), 0)

/-! ### Format codes (04 R72) -/

/-- The float format of a code, where it is one. -/
def floatFmt (code : Nat) : Option FFmt :=
  match code with
  | 0x00 => some .fp32
  | 0x01 => some .bf16
  | 0x02 => some .fp16
  | 0x03 => some .e4m3
  | 0x04 => some .e5m2
  | 0x05 => some .e2m1
  | _ => none

/-- An integer code: signed?, width. -/
def intFmt (code : Nat) : Option (Bool × Nat) :=
  match code with
  | 0x10 => some (true, 32)
  | 0x11 => some (false, 32)
  | 0x12 => some (true, 16)
  | 0x13 => some (false, 16)
  | 0x14 => some (true, 8)
  | 0x15 => some (false, 8)
  | 0x16 => some (true, 4)
  | _ => none

/-- Element width in bits, for every code that is not reserved (04 R72). -/
def fmtWidth (code : Nat) : Option Nat :=
  match code with
  | 0x00 | 0x10 | 0x11 | 0x22 => some 32
  | 0x01 | 0x02 | 0x12 | 0x13 | 0x21 => some 16
  | 0x03 | 0x04 | 0x06 | 0x08 | 0x14 | 0x15 | 0x20 => some 8
  | 0x05 | 0x07 | 0x16 => some 4
  | 0x23 => some 64
  | 0x24 => some 128
  | _ => none

/-- The element format of a block-scaled code (04 R76). -/
def blockFmt (code : Nat) : Option FFmt :=
  match code with
  | 0x06 => some .e4m3
  | 0x07 => some .e2m1
  | _ => none

/-- An e8m0 scale byte: none for NaN (04 R76). -/
def e8m0 (b : Nat) : Option Q := if b == 0xFF then none else some (Q.pow2 ((b : Int) - 127))

/-- The two's complement value of the low w bits. -/
def sextInt (bits w : Nat) : Int :=
  let b := bits % 2 ^ w
  if 2 * b < 2 ^ w then b else (b : Int) - 2 ^ w

/-- The value of an element of a format code, alone (a block-scaled element without its scale). -/
def elemValue (code bits : Nat) : FVal :=
  match floatFmt code, blockFmt code, intFmt code with
  | some f, _, _ => f.value bits
  | _, some f, _ => f.value bits
  | _, _, some (true, w) => .ofQ (Q.ofInt (sextInt bits w))
  | _, _, some (false, w) => .ofQ (Q.ofInt (bits % 2 ^ w : Nat))
  | _, _, _ => if code == 0x08 then (match e8m0 bits with | none => .nan | some q => .fin false q) else .nan

/-- The canonical NaN of a code, 0 where it has none (04 R75). -/
def canonNan (code : Nat) : Nat :=
  match floatFmt code with
  | some f => f.nanCode
  | none => if code == 0x06 then 0x7F else if code == 0x08 then 0xFF else 0

/-! ### Narrowing to integers (04 R77) -/

/-- Clamp to the range of an integer type; invalid when it saturates. -/
def satInt (sgn : Bool) (w : Nat) (x : Int) : Int × AFlags :=
  let lo : Int := if sgn then -(2 ^ (w - 1)) else 0
  let hi : Int := if sgn then 2 ^ (w - 1) - 1 else 2 ^ w - 1
  if x < lo then (lo, flInvalid) else if hi < x then (hi, flInvalid) else (x, 0)

/-- An integer as the low w bits. -/
def intBits (w : Nat) (x : Int) : Nat := (x % (2 ^ w : Int)).toNat

/-- A value to an integer type: one rounding on the grid of 1, then saturation; NaN gives 0 and invalid (04 R77, 14 R283). A nonzero value
that rounds to 0 sets underflow with inexact (04 R79). -/
def toInt (sgn : Bool) (w : Nat) (md : RMode) : FVal → Nat × AFlags
  | .nan => (0, flInvalid)
  | .inf s => (intBits w (satInt sgn w (if s then -(2 ^ 64) else 2 ^ 64)).1, flInvalid)
  | .fin s m =>
      let n : Int := if m.isInt then m.floor else (roundNat md m : Nat)
      let (v, fl) := satInt sgn w (if s then -n else n)
      (intBits w v, fl ||| flIf (!m.isInt) flInexact ||| flIf (!m.isInt && n == 0) flUnderflow)

/-! ### Write-back (04 R85, R86) -/

/-- y clamped to [-b, c] (magnitudes), its sign kept. -/
def clampSigned (b c : Q) : FVal → FVal
  | .nan => .nan
  | .inf s => .fin s (if s then b else c)
  | .fin s m => .fin s (m.min (if s then b else c))

/-- min(clip, q), clip an FP32 special that is never negative or NaN (03 R67). -/
def clipMin (clip : FVal) (q : Q) : Q :=
  match clip with
  | .fin _ m => m.min q
  | _ => q

/-- Write-back of V under R85 to a destination code, with the tensor scale (smode 1) or none, the clip value and the rounding. -/
def writeBack (code : Nat) (v : FVal) (scale : Option FVal) (clip : FVal) (md : RMode) : Nat × AFlags :=
  let (y, made) := match scale with
    | none => (v, false)
    | some t => v.mul t
  if y.isNan then
    match floatFmt code with
    | some f => (f.nanCode, flIf (made || !f.hasNan) flInvalid)
    | none => (0, flInvalid)
  else
    match floatFmt code, intFmt code with
    | some f, _ =>
        let hi := clipMin clip f.maxVal
        let ovf := match y with
          | .inf _ => true
          | .fin _ m => f.maxVal.lt m
          | .nan => false
        let (c, fl) := f.narrow md (clampSigned hi hi y)
        (c, fl ||| flIf ovf flOverflow)
    | none, some (_, w) =>
        let lo := Q.ofInt (2 ^ (w - 1))
        let hi := Q.ofInt (2 ^ (w - 1) - 1)
        -- the user's clip sets no flag; what it leaves saturates at the type's bounds (log 58)
        let out := match y, clip with
          | .fin s m, _ => (if s then lo else hi).lt (clipMin clip m)
          | .inf s, .fin _ c => (if s then lo else hi).lt c
          | .inf _, _ => true
          | .nan, _ => false
        let (c, fl) := toInt true w md (clampSigned (clipMin clip lo) (clipMin clip hi) y)
        (c, fl ||| flIf out flInvalid)
    | none, none => (0, 0)

/-- Write-back of one block of 32 values under R86: the element codes, the scale byte and the flags. Overflow is judged on the value before
any clip (R79), against the element format's largest value at the block's scale (log 73). `clampFlags` is false for vbscale, whose final clamp
sets no flag (14 R286). -/
def blockWriteBack (code : Nat) (vs : List FVal) (clip : FVal) (mds : List RMode) (clampFlags : Bool) :
    List Nat × Nat × AFlags :=
  let f := if code == 0x06 then FFmt.e4m3 else FFmt.e2m1
  let t : Int := if code == 0x06 then 8 else 2
  if vs.any FVal.isNan then (vs.map fun _ => 0, 0xFF, 0)
  else
    let ys := vs.map fun v => match v, clip with
      | .inf s, .fin _ c => .fin s c
      | .fin s m, .fin _ c => .fin s (m.min c)
      | v, _ => v
    let e : Int :=
      if ys.any (fun y => match y with | .inf _ => true | _ => false) then 127
      else
        let a := ys.foldl (fun a y => a.max y.toQ.abs) Q.zero
        if a.isZero then 0 else Max.max (-127) (Min.min 127 (a.log2 - t))
    let one (p : (FVal × FVal) × RMode) : Nat × AFlags :=
      let ovf := match p.1.1 with
        | .inf _ => true
        | .fin _ m => f.maxVal.lt (m.mul (Q.pow2 (-e)))
        | .nan => false
      let z := match p.1.2 with
        | .inf s => FVal.fin s f.maxVal
        | .fin s m => .fin s ((m.mul (Q.pow2 (-e))).min f.maxVal)
        | .nan => .nan
      let (c, fl) := f.narrow p.2 z
      (c, fl ||| flIf (ovf && clampFlags) flOverflow)
    let rs := ((vs.zip ys).zip mds).map one
    (rs.map (·.1), (e + 127).toNat, rs.foldl (fun a r => a ||| r.2) 0)

end Sys2Proof.Machine
end

