-- ==== Sys2Proof/Machine/Cells.lean ====
section
/-! DEFINITION. The one store of the model: a list of (key, value) pairs in canonical form, keys strictly rising, no entry
equal to what an unlisted key reads as, which is zero (01 R32; 25 R411 phase 5). Memory spaces, register files, configuration
words and accumulators are all such stores. -/

namespace Sys2Proof.Machine

open Sys2Proof

/-- A sparse store of w-bit values by key; an unlisted key reads as zero. A memory space is Cells 8: its entries are
Host.Cell. -/
abbrev Cells (w : Nat) := List (Nat × BitVec w)

/-- A memory space. -/
abbrev Memory := Cells 8

namespace Cells

/-- The value at a key. -/
def get {w : Nat} : Cells w → Nat → BitVec w
  | [], _ => 0
  | (k, v) :: r, a => if k = a then v else if a < k then 0 else get r a

/-- Put a value at a key, keeping the canonical form: writing zero removes the entry. -/
def set {w : Nat} : Cells w → Nat → BitVec w → Cells w
  | [], a, v => if v = 0 then [] else [(a, v)]
  | (k, u) :: r, a, v =>
      if k = a then (if v = 0 then r else (a, v) :: r)
      else if a < k then (if v = 0 then (k, u) :: r else (a, v) :: (k, u) :: r)
      else (k, u) :: set r a v

/-- Keys strictly rising and no entry zero. -/
def wf {w : Nat} : Cells w → Bool
  | [] => true
  | [(_, v)] => v != 0
  | (k, v) :: (k', v') :: r => v != 0 && decide (k < k') && wf ((k', v') :: r)

/-- Put a list of values at keys, in order. -/
def setAll {w : Nat} (m : Cells w) : List (Nat × BitVec w) → Cells w
  | [] => m
  | (a, v) :: r => setAll (m.set a v) r

/-- The n values from key a upward. -/
def slice {w : Nat} (m : Cells w) (a : Nat) : Nat → List (BitVec w)
  | 0 => []
  | n + 1 => m.get a :: slice m (a + 1) n

/-- Put values at consecutive keys from a upward. -/
def setSlice {w : Nat} (m : Cells w) (a : Nat) : List (BitVec w) → Cells w
  | [] => m
  | v :: r => setSlice (m.set a v) (a + 1) r

/-- The entries whose key satisfies p. -/
def keep {w : Nat} (p : Nat → Bool) (m : Cells w) : Cells w := m.filter fun e => p e.1

end Cells

/-- Put x into a list in ascending order of f, behind those of the same rank. -/
def insertOn {α : Type} (f : α → Nat) (x : α) : List α → List α
  | [] => [x]
  | y :: r => if f x < f y then x :: y :: r else y :: insertOn f x r

/-- A list in ascending order of f; those of the same rank keep their order. -/
def sortOn {α : Type} (f : α → Nat) (l : List α) : List α := l.foldl (fun r x => insertOn f x r) []

/-- The canonical form of a memory. -/
abbrev Memory.wf (m : Memory) : Bool := Cells.wf m

/-- Bytes, lowest address first, as a number (00 R10). -/
def natOfBytes : List Byte → Nat
  | [] => 0
  | b :: r => b.toNat + 256 * natOfBytes r

/-- The n low bytes of a number, lowest address first. -/
def bytesOfNat : Nat → Nat → List Byte
  | 0, _ => []
  | n + 1, x => BitVec.ofNat 8 x :: bytesOfNat n (x / 256)

/-- The little-endian number of n bytes at an address. -/
def Cells.num (m : Memory) (a n : Nat) : Nat := natOfBytes (m.slice a n)

/-- Store the n low bytes of a number at an address. -/
def Cells.setNum (m : Memory) (a n x : Nat) : Memory := m.setSlice a (bytesOfNat n x)

end Sys2Proof.Machine
end

