-- ==== Sys2Proof/Machine/State.lean ====
section
/-! DEFINITION. The state of the machine (INVENTORY.md, "State"): plain data, everything the spec gives the device. Register
files, memories and configuration words are canonical stores (`Cells`), tables of teams, groups, operations and cores are lists
keyed by rising numbers (`Tab`). -/

namespace Sys2Proof.Machine

open Sys2Proof

/-! ### Tables -/

/-- A table by number, keys strictly rising. -/
abbrev Tab (α : Type) := List (Nat × α)

namespace Tab
/-- The row of a number. -/
def get {α : Type} : Tab α → Nat → Option α
  | [], _ => none
  | (k, v) :: r, a => if k = a then some v else if a < k then none else get r a
/-- Put a row, keeping the keys rising. -/
def set {α : Type} : Tab α → Nat → α → Tab α
  | [], a, v => [(a, v)]
  | (k, u) :: r, a, v => if k = a then (a, v) :: r else if a < k then (a, v) :: (k, u) :: r else (k, u) :: set r a v
/-- Remove a row. -/
def del {α : Type} : Tab α → Nat → Tab α
  | [], _ => []
  | (k, u) :: r, a => if k = a then r else (k, u) :: del r a
/-- Keys strictly rising. -/
def wf {α : Type} : Tab α → Bool
  | [] => true
  | [_] => true
  | (k, _) :: (k', v') :: r => decide (k < k') && wf ((k', v') :: r)
end Tab

/-! ### Names -/

/-- The fault codes of 22 R348. -/
inductive FaultCode where
  | instructionFetch | illegalInstruction | privilegedInstruction | illegalField | illegalRegister | illegalOperand
  | illegalScope | address | copyAddressOverflow | pinnedWrite | translation | reconvOverflow | reconvUnderflow
  | orderedQueueExhausted | collectiveMismatch | collectiveTimeout | teamDeadlock | userTrap | breakpoint | peerUnreachable
deriving DecidableEq, Repr

/-- The code as a record carries it (22 R348). -/
def FaultCode.code : FaultCode → BitVec 8
  | .instructionFetch => 0x01 | .illegalInstruction => 0x02 | .privilegedInstruction => 0x03 | .illegalField => 0x04
  | .illegalRegister => 0x05 | .illegalOperand => 0x06 | .illegalScope => 0x07 | .address => 0x08
  | .copyAddressOverflow => 0x09 | .pinnedWrite => 0x0A | .translation => 0x0B | .reconvOverflow => 0x0C
  | .reconvUnderflow => 0x0D | .orderedQueueExhausted => 0x0E | .collectiveMismatch => 0x0F | .collectiveTimeout => 0x10
  | .teamDeadlock => 0x11 | .userTrap => 0x12 | .breakpoint => 0x13 | .peerUnreachable => 0x14

/-- Counter classes (02 R55). -/
inductive Cls where
  | ld | cp | mx | cl | pf
deriving DecidableEq, Repr

/-- The user conditions (03 R69). -/
inductive Cond where
  | arith | profile | filler | deferral
deriving DecidableEq, Repr

/-- Access kinds of a walk (24 R388). -/
inductive Kind where
  | read | write | peerRead | peerWrite | fetch
deriving DecidableEq, Repr

/-- Where a byte lies, with its home (05 R91, 06 R117): team memory of a team, a group's spill stack, the annex of a die at an
absolute offset, physical device memory, a peer's device memory, a Curator's private memory. -/
inductive Loc where
  | team (tid off : Nat)
  | spill (tid idx off : Nat)
  | annex (die off : Nat)
  | dev (pa : Nat)
  | peer (d va : Nat)
  | curator (core off : Nat)
deriving DecidableEq, Repr

/-- An address as a program names it, before translation. -/
structure VAddr where
  space : Nat          -- 0 device, 1 team memory, 2 annex, 5 a peer (space codes of 03 R62; 5 is the model's own)
  addr  : Nat
  dev   : Nat          -- the peer's device number, space 5 only
deriving DecidableEq, Repr

/-- A register that a long-latency result will be written to. -/
inductive RegRef where
  | s (r : Nat)
  | v (r : Nat)
  | sh (n : Nat)
deriving DecidableEq, Repr

/-! ### Groups -/

/-- A long-latency result on its way to a register (02 R53): the register keeps its prior value until the result has come
(`here`) and its window, `left` instructions of the stream, is over. `lanes` says in which lanes it writes: those of its effect that
no later write has replaced; of a scalar or shape register lane 0 stands for the whole. -/
structure Pend where
  reg   : RegRef
  lanes : LaneMask
  vals  : Cells 32     -- by lane; key 0 for a scalar register; keys 0-15 the words of a shape register
  op    : Nat          -- the operation that brings it
  lane  : Bool         -- the stream: lane words, or scalar words
  left  : Nat
  win   : Nat          -- the window it belongs to, 0 for none: one instruction opens one window (02 R54)
  here  : Bool
  form  : Bool         -- a form has been written to its register since: it joins it as values (10 R192)
deriving DecidableEq, Repr

/-- Run state (02 R44): words to issue, the lane cursor, whether the run is an lxa's, the bytes of the lx or lxa, and the code of
the words still to issue, three words each, as the lx or lxa fetched it (02 R43): none where the run was set otherwise. -/
structure Run where
  n      : Nat
  cursor : Word
  own    : Bool
  len    : Nat
  code   : List Word
deriving DecidableEq, Repr

/-- A reconvergence entry (02 R48): s125-s127, the else set, fmt. -/
structure Reconv where
  mask : LaneMask
  els  : LaneMask
  fmt  : Word
deriving DecidableEq, Repr

/-- The handler frame (13 R267). -/
structure Frame where
  spc   : DWord
  lpc   : Word
  run   : Run
  mask  : LaneMask
  fmt   : Word
  depth : Nat
  cond  : Cond
deriving DecidableEq, Repr

/-- Wait records (01 R38); `pa` is the watched word's physical address. `polling`: a watch that found its hub's table full (08 R167). -/
inductive Wait where
  | slot (n : Nat) (phase : Bool)
  | gbar (j : Nat)
  | wadr (va pa : Nat) (old : Word) (polling : Bool)
  | wcnt (va pa : Nat) (target : Word) (polling : Bool)
  | bkfence (handle : Option Nat) (limit : Nat)
  | bkfile (op : Nat)      -- of the bkfence kind: the pending filing, by the operation that brings its number (09 R183)
  | sym (n : Nat)
  | sidecar
  | yield (c : Cls) (n : Nat) (cont : DWord)
  | other                  -- parked by a flag that cwin or an image has set, beside a wait record of no kind (log 47)
deriving DecidableEq, Repr

/-- An operation of the group that its counter still counts (02 R55, R56), in issue order. -/
structure Infl where
  cls  : Cls
  op   : Nat
  fin : Bool
deriving DecidableEq, Repr

/-- A codeword of a register, accumulator or profile row with symbols in error (24 R392, R394): `was` is none where each read corrects them (vector
registers only); where they cannot be corrected, the 16 bytes of its data symbols without their errors, which it yields again once the banks in
error are mapped out. A write of the whole row takes the entry away. -/
structure BadCode where
  reg : Nat
  row : Nat
  b   : Bool
  was : Option (List Byte)
deriving DecidableEq, Repr

/-- It cannot be corrected. -/
def BadCode.bad (e : BadCode) : Bool := e.was.isSome

/-- One group (01 R14, 02, 03). -/
structure Group where
  idx     : Nat            -- index within the team
  kind    : Nat            -- 1 feed, 2 compute, 3 courier
  role    : Nat            -- role index (01 R17)
  core    : Nat            -- logical core
  slot    : Nat            -- core-local slot 8q + i (22 R360)
  live    : Nat            -- live lanes
  blocks  : Nat            -- register budget
  s       : Cells 32
  v       : Cells 32       -- key 96 r + l
  k       : Cells 96
  sh      : Cells 512
  fmt     : Word
  seed    : DWord
  ptol    : Word
  clip    : Word
  cond    : Word
  hnd     : DWord
  convCnt : DWord          -- conversion count (04 R89)
  wbCnt   : DWord          -- write-back count (04 R89)
  batchCnt : Word          -- 07 R150
  opens   : List Nat       -- open matrix operations
  mxFlags : BitVec 5       -- flags of open write-backs that are performed (14 R272)
  auditHalt : List Word    -- batches with an Audit mismatch: the team halts as one completes (24 R396)
  spc     : DWord
  lpc     : Word
  run     : Run
  rstack  : List Reconv    -- the entries in hardware, newest first, at most 32
  rdepth  : Nat            -- depth of the whole stack; older entries stand in the reconvergence area of `spill` (02 R49)
  spill   : Memory
  pend    : List Pend      -- oldest first
  infl    : List Infl      -- oldest first
  tags    : Cells 11       -- sidecar tags: [0] deferred, [5:1] symbol, [10:6] slot (22 R356)
  scar    : Cells 32       -- sidecar slots, key 96 slot + l
  frame   : Option Frame   -- some: the group is in its handler
  reissue : Option Cond    -- the word that hret re-issues cannot enter for this condition, or was counted before (13 R268, 09 R183)
  wait    : Option Wait    -- some: the group is parked
  skid    : Nat            -- skid count of the last halt
  skidMax : Nat            -- instructions it may still begin while halted
  faulted : Bool           -- fault pending (22 R356)
  cancel  : LaneMask       -- lanes cancelled for the next issue of the word (22 R351)
  asmSeq  : Cells 32       -- slices with np > 1 issued so far, by slot (05 R102)
  gbarN   : Nat            -- grid barriers arrived at (13 R263)
  stepping : Bool          -- resumed for one instruction (22 R361)
  ending  : Bool           -- exit or tail has closed its windows and batch and waits (13 R244)
  tailFull : Bool          -- its tail found no free tracker entry and behaves as exit (01 R34)
  ended   : Bool
  charged : Bool           -- its next word was withheld and counted once (23 R369)
  moved   : Bool           -- the model's: the word that it was given last has issued
  badV    : List BadCode   -- codewords of its registers with symbols in error, by register and row of 8 lanes (24 R394)
  cntAdj  : Cells 8        -- by class 0-4: what cwin or a load has added to the counter beside the operations counted (22 R360)
  stall   : Option Home    -- the ordered queue that its next word found full (06 R125)
  ctxH    : Tab (Nat × Nat) -- words of its block, by number, that cwin has written where nothing alive takes them: the live word then, the word written (22 R360)
deriving DecidableEq, Repr

/-! ### Teams -/

/-- Where a symbol gets its value (10 R185). Value words: a device address, or a space of the team's (1 or 2) and offset. -/
inductive SymSrc where
  | manual
  | counter (f fpa : Nat) (target : Word) (val valpa : Nat) (polling : Bool)
  | slot (n : Nat) (phase : Bool) (ax : Bool) (val : Nat)
deriving DecidableEq, Repr

/-- A symbol that is not free (03 R66): its source, whether the source's condition has held, and its value once resolved. -/
structure Sym where
  src : SymSrc
  met : Bool
  val : Option Word
deriving DecidableEq, Repr

/-- A line of a profile (03 R65). -/
structure Line where
  a : Word
  b : Word
  t : BitVec 16
deriving DecidableEq, Repr

/-- A profile register (03 R65, 11 R200). -/
structure Prof where
  lo : Word
  hi : Word
  lines : List Line
deriving DecidableEq, Repr

/-- The empty profile: domain [-inf, +inf], no lines (03 R65). -/
def Prof.empty : Prof := ⟨0xFF800000, 0x7F800000, []⟩

/-- One slice of a copy (05 R101). `lanes` and `addrs`: the gather's lanes still to do and their addresses (05 R109). -/
structure Slice where
  idx    : Nat
  glid   : Nat
  pc     : DWord
  lword  : Word
  dst    : ShapeBits
  src    : ShapeBits
  origin : List Int
  lanes  : LaneMask
  addrs  : List Nat
  seq    : Nat           -- the model's: the operations numbered before it issued
deriving DecidableEq, Repr

/-- The copy forms (05 R106) and bkcommit (09 R178). -/
inductive CopyForm where
  | cpl | cps | cpx | cpm | cpg | cprPut | cprGet
  | cpa (op : Nat) (peer : Bool)
  | cpw (peer : Bool)
  | cpst
  | bkcommit
deriving DecidableEq, Repr

/-- The common operands of a copy (05 R101). -/
structure CopyOps where
  form : CopyForm
  np   : Nat
  bsl  : Nat            -- 31: none
  inc  : Nat
  cspace : Nat
  caddr : Nat
  peer : Nat            -- device number
  after : List Nat      -- cpw: the operations that it waits for (05 R112)
  ent   : Nat           -- cpa.fadd.ord: the elements that stand in a queue already (05 R111, 06 R125)
deriving DecidableEq, Repr

/-- An assembly that has not started (05 R102), by slot and number. -/
structure Asm where
  bs   : Nat
  num  : Nat
  op   : Nat            -- the copy operation that holds the joined slices
deriving DecidableEq, Repr

/-- One team (01 R18, R32). -/
structure Team where
  grid    : Nat
  id      : Nat            -- team linear id
  core    : Nat            -- its core, or the leader
  paired  : Bool
  entry   : Nat            -- team entry on its core
  entry2  : Nat            -- on the follower
  ngrp    : Nat
  order   : Nat            -- order of admission on the device
  halted  : Bool
  killing : Bool           -- killed, its remaining operations still running (22 R414)
  bs      : Cells 32       -- barrier slots, as the word of 03 R64
  syms    : Tab Sym
  profs   : Tab Prof
  nprof   : Nat
  tm      : Memory
  tmSize  : Nat            -- bytes declared
  spillOn : Bool
  cb      : Memory         -- codebook tables, key 16384 t + 64 x + byte (22 R356)
  cbE     : Cells 8        -- entry sizes (05 R114)
  asms    : List Asm       -- not started
  asmDone : List (Nat × Nat) -- assemblies that have started: slot, number
  collSeq : Cells 32       -- collectives issued by peer-set index (08 R156)
  mcset   : Option Nat     -- multicast set (01 R22)
  reserve : Bool           -- Filler drain team: both accumulators are reserved to it (07 R147)
  badP    : List BadCode   -- codewords of its profile store that cannot be corrected, by register and row (24 R394)
  lrec    : BitVec 1024    -- its launch record as accepted (22 R356)
  ctxX    : Tab (List Nat × List Nat) -- wait-state records (0-15) and symbols (16-47) as cwin or a load has written them, where they differ from the
                           -- live words: those, and the words written, read as long as the live ones stay (22 R360; log 47)
deriving DecidableEq, Repr

/-- A retirement tracker entry (01 R34): the team and group, and the PC of the tail; the outstanding counts are those of the
operations of the group. -/
structure Tracker where
  core : Nat
  tid  : Nat
  idx  : Nat
  glid : Nat
  pc   : DWord
deriving DecidableEq, Repr

/-! ### Grids -/

/-- Where a launch record's status word lies (01 R25): nowhere (a drain grid, a handler grid, a record that was refused before
it was read), in device memory of an address space, or in the annex of a die. -/
inductive RecLoc where
  | nowhere
  | host (va : Nat)        -- of a host's posting: its address space is that of the acceptance (23 R386)
  | dev (asid va : Nat)
  | annex (die off : Nat)
deriving DecidableEq, Repr

/-- A fault record (22 R348). -/
structure FaultRec where
  faddr : DWord
  lanes : LaneMask
  aux   : Word
  pc    : DWord
  lword : Word
  op    : Nat             -- operation handle; the record shows its low 16 bits
  code  : FaultCode
  glid  : Word
  team  : Word
  grp   : BitVec 8
  exited : Bool
  impr  : Bool
  lane  : Bool
  taken : Bool
  entry : BitVec 3
  seq   : Word
  clk   : DWord
  tid   : Nat             -- the model's: the team it belongs to
  service : Bool          -- the model's: named in a lane-fault service that still runs
deriving DecidableEq, Repr

/-- A lane of the fault service (22 R350): its record as it was named, the record's slot, and the lane. -/
structure Origin where
  q    : Nat
  of   : FaultRec
  lane : Nat
deriving DecidableEq, Repr

/-- One grid (01 R20-R28). -/
structure Grid where
  part    : Nat
  record  : BitVec 1024     -- the record as accepted
  loc     : RecLoc
  age     : Nat
  asid    : Nat
  awBase  : Nat             -- annex window, bytes
  awSize  : Nat
  prio    : Nat             -- level, as it now stands
  nteams  : Nat
  next    : Nat             -- teams below it have been admitted, but for those of `skipped`
  skipped : List Nat        -- first teams of sets passed over: the head of their level
  lastIn  : Bool            -- the last set, smaller than the others, has been admitted ahead
  waiting : List Nat        -- pre-empted teams (linear ids) waiting to be restored
  retired : Nat
  depPa   : Option Nat      -- physical address of the dependency word
  depMet  : Bool
  depPoll : Bool            -- its dependency word found the hub's table full: it is polled (23 R365)
  drain   : Option Nat      -- accession number of the Filler entry it drains
  killed  : Bool
  handler : Option Nat      -- core whose Curator launched it as the lane-fault service (22 R350)
  origins : List Origin
  verdicts : List (Nat × Word) -- v8 of its lanes as its groups end, by packed lane
deriving DecidableEq, Repr

/-! ### Engine operations -/

/-- A descriptor and tile received from a peer (08 R156). -/
structure Recv where
  idx  : Nat
  team : Nat
  seq  : Nat
  rank : Nat
  desc : CollDesc
  tile : List Nat
deriving DecidableEq, Repr

/-- A collective as issued (08 R155-R162). -/
structure Coll where
  desc  : CollDesc
  idx   : Nat             -- peer-set index
  seq   : Nat
  rank  : Nat             -- this member's
  size  : Nat             -- P
  tile  : ShapeBits
  bsl   : Nat
  got   : List Recv       -- what the other members sent, once the handshake is complete (08 R156)
  spent : Bool            -- a mismatch: what they sent has been taken, and it is not past its handshake
deriving DecidableEq, Repr

/-- A matrix operation as issued (16 R314-R316). -/
structure Mxa where
  acc  : Nat
  z    : Bool
  pair : Bool
  sp   : Bool
  sel  : Nat
  a    : ShapeBits
  pc   : Nat
  vb   : Nat
  vs   : Nat
  vm   : Nat
  core : Nat
deriving DecidableEq, Repr

/-- A write-back as issued (16 R316). -/
structure Mxwb where
  acc   : Nat
  keep  : Bool
  pair  : Bool
  dst   : ShapeBits
  scale : Word
  fmt   : Word
  clip  : Word
  seed  : DWord
  cnt   : DWord
  bsl   : Nat
  core  : Nat
  res   : Bool             -- a residue accumulation, on the issuing core and on the follower
  res2  : Bool
deriving DecidableEq, Repr

/-- A profile operation as issued (15 R299, 11 R203). -/
inductive ProfOp where
  | clr (e : Nat) (lo hi : Word)
  | ins (e : Nat) (lines : List Line) (bad : Bool)
  | max (d a b : Nat)
  | add (d a b : Nat) (tm : Nat)
  | inf (d a b : Nat)
  | conj (d a : Nat)
  | simp (d a : Nat)
  | eval (e : Nat) (xs : Cells 32) (lanes : LaneMask)
  | arg (e : Nat) (xs : Cells 32) (lanes : LaneMask)
  | get (d e : Nat) (imm : Word) (lanes : LaneMask)
deriving DecidableEq, Repr

/-- A filing (09 R171, R173). -/
structure Filing where
  a : ShapeBits
  g : ShapeBits
  t : ShapeBits
  recAddr : Nat
  record : BitVec 1024
  last : Bool
  team : Nat              -- team linear id
  idx  : Nat
  asid : Nat
  awBase : Nat
  awSize : Nat
  op   : Nat              -- the bkfile operation that brings the accession number
  counted : Bool          -- it did not fit, was counted in ovf (09 R183)
deriving DecidableEq, Repr

/-- An SFU word that may enter the arithmetic handler (14 R282): until that is decided it has no effect on its group. What it writes
if it does not enter: register, lookahead, lanes, values. -/
structure SfuHold where
  vd   : Nat
  la   : Nat
  eff  : LaneMask
  vals : Cells 32
deriving DecidableEq, Repr

/-- What an operation does. -/
inductive OpKind where
  | load                                   -- lane or scalar load: its results stand in the group's Pend (15 R294, 13 R250)
  | sfu (flags : BitVec 5) (quad : Nat) (beats : Nat) (hold : Option SfuHold)   -- 14 R281, R282
  | copy (c : CopyOps) (slices : List Slice)
  | cpcb (t : Nat) (src : ShapeBits) (bsl : Nat)
  | close (v : VAddr) (len : Nat) (left : List Nat) -- aclose: the range, and the words still to close (16 R311)
  | coll (c : Coll)
  | mxa (m : Mxa)
  | mxwb (w : Mxwb)
  | batch (b : Word) (ops : List Nat) (flags : BitVec 5) -- 07 R150; the flags of its write-backs (14 R272)
  | prof (p : ProfOp) (ptol : Word) (sync : Bool)   -- sync: it may enter the handler, its group stays on the word (11 R211)
  | filing                                 -- bkfile, waiting for its number
  | launch (ax : Bool) (addr : Nat)
deriving DecidableEq, Repr

/-- How far an operation is. `waiting`: not started (an assembly to complete, a fill whose set is away, a handshake, an
accumulator to be granted); `ready`: may start; `moving`: started; `failed`: raised a fault, held for replay or cancel. -/
inductive Stage where
  | waiting | ready | moving | failed
deriving DecidableEq, Repr

/-- An operation that a group has issued and that has not completed. -/
structure Op where
  tid    : Nat
  idx    : Nat
  glid   : Nat
  core   : Nat
  pc     : DWord
  lword  : Word
  cls    : Option Cls
  exited : Bool           -- its group has ended
  stage  : Stage
  fault  : Option FaultCode  -- an unresolved translation, reported when it next moves (24 R390)
  since  : Nat            -- clk at issue, or at its last restart
  kind   : OpKind
deriving DecidableEq, Repr

/-- An entry of an ordered queue (06 R123): home, address there, addend and key. -/
structure QEnt where
  home : Home
  loc  : Loc
  x    : Word
  rank : Nat
  team : Nat
  grp  : Nat
  elem : Nat
  seq  : Nat
deriving DecidableEq, Repr

/-! ### Cores -/

/-- Who holds an accumulator (07 R147). -/
structure Hold where
  tid     : Nat
  residue : Bool
  pair    : Bool
  rel     : Option Nat     -- a write-back that releases it has issued: its team no longer holds it
deriving DecidableEq, Repr

/-- A saved team (22 R354): its number, grid and id, the slot of the pre-emption area if it has one, whether a resume is due at
the load, its die; and the team and group records, of which the load takes what the image does not lay out (log 12). -/
structure Saved where
  tid  : Nat
  grid : Nat
  id   : Nat
  slot : Option Nat
  part : Nat
  resume : Bool
  die  : Nat
  team : Team
  groups : List Group
  holds : List (Option Hold) -- what it held of its leader's a0 and a1, then its follower's
deriving DecidableEq, Repr

/-- A team that the distributor has halted in order to save it (23 R366), and the teams of its multicast set that resume then. -/
structure Evict where
  tid    : Nat
  others : List Nat
  resume : Bool            -- it was running
  off    : Option Nat      -- the cluster that it moves off (23 R381); none: it is saved into a slot
deriving DecidableEq, Repr

/-- A translation held in a cache (24 R389): the leaf of a walk that succeeded. -/
structure Tlb where
  asid : Nat
  base : Nat
  size : Nat
  pa   : Nat
  w    : Bool
  p    : Bool
deriving DecidableEq, Repr

/-- A core beside its groups: Curator (22 R345), fault queue (R348), accumulators (07 R147), queues, translation cache. -/
structure Core where
  s       : Cells 32
  spc     : DWord
  stopped : Bool
  mem     : Memory
  fq      : Tab FaultRec
  fqWait  : List FaultRec
  seq     : Word
  a0      : Cells 32       -- key 192 i + c; of a residue accumulation the low word, a1 the high word (07 R147)
  a1      : Cells 32
  hold0   : Option Hold
  hold1   : Option Hold
  accWait : List (Nat × DWord × Instr) -- mxa.z words waiting for an accumulator, in order: group (key 64 team + index), SPC, word
  mxq     : List Nat
  mxCount : Nat            -- mxa executed (07 R153)
  mxDone  : Nat            -- clocks for which the operation at the head of mxq has occupied the arrays (07 R148)
  prq     : List Nat
  tlb     : List Tlb
  charged : Bool           -- its Curator's next word was withheld and counted once (23 R369)
  waiting : Bool           -- the model's: its Curator's word has issued and waits to complete
  badA    : List BadCode   -- codewords of its accumulators that cannot be corrected, by accumulator and row (24 R394)
deriving DecidableEq, Repr

/-- A core at reset. -/
def Core.fresh : Core :=
  { s := [], spc := 0, stopped := false, mem := [], fq := [], fqWait := [], seq := 0, a0 := [], a1 := [], hold0 := none, hold1 := none,
    accWait := [], mxq := [], mxCount := 0, mxDone := 0, prq := [], tlb := [], charged := false, waiting := false, badA := [] }

/-! ### Partitions -/

/-- A statistics slot (03 R70). -/
structure Stat where
  acc   : Nat              -- 160 bits
  sat   : Bool
  amax  : Word
  count : DWord
deriving DecidableEq, Repr

/-- A statistics slot as the partition is built (03 R70). -/
def Stat.zero : Stat := ⟨0, false, 0, 0⟩

/-- State of a Filler entry (09 R171); a committed entry has left. -/
inductive FState where
  | filed | draining | failed
deriving DecidableEq, Repr

structure FEnt where
  acc   : Nat
  f     : Filing
  state : FState
  grid  : Nat
deriving DecidableEq, Repr

/-- Who asked for a translation: the one that an unresolved fault is reported to (24 R390). -/
inductive Req where
  | group (tid idx : Nat)
  | op (h : Nat)
  | record (p : Nat)
  | image (core : Nat)
  | hub
deriving DecidableEq, Repr

/-- A walk asked for (24 R388, R389); requests of one cache for the same space, page and kind are one of these. -/
structure Walk where
  asid : Nat
  va   : Nat               -- requests join by page of 64 KiB
  kind : Kind
  core : Option Nat        -- whose cache it fills; none: the hub's
  who  : List Req
deriving DecidableEq, Repr

/-- A record waiting to be accepted (23 R365, 01 R27). -/
structure Posting where
  who  : Option (Nat × Nat × Nat)   -- a launch: team, group index, operation; none: the host
  agent : Bool                      -- the hub's launch agent (host launch area)
  loc  : RecLoc
  asid : Nat
  awBase : Nat
  awSize : Nat
deriving DecidableEq, Repr

structure Part where
  entries : List FEnt      -- accession order
  next    : Nat
  ovf     : Word
  parked  : List Filing
  drains  : Word           -- drain grids launched since the partition was built (23 R380)
  stats   : Tab Stat
  posts   : List Posting
  posted  : DWord          -- sequence numbers of the host launch area already taken (01 R27)
  heads   : Tab (Nat × Nat × List Nat)  -- head of each level: its grid, its first team, the cores reserved for it (01 R29)
  walks   : List Walk
  served  : List (List Walk) -- requests filed with the service queue, by slot order, not yet acted on; those of one slot share space, page and kind
  status  : List (RecLoc × Nat) -- status words whose page waits for its walk, with their codes (01 R25)
  svcP    : Word           -- producer count of the service queue
  svcC    : Word           -- slots acted on
  bad     : List (Req × Walk)  -- unresolved translations not yet reported
  recv    : List Recv
  ages    : Nat            -- records accepted
  evict   : List Evict     -- pre-emptions under way
deriving DecidableEq, Repr

/-- A partition as built: the Filler empty, its next number 1 (09 R172). -/
def Part.fresh : Part :=
  { entries := [], next := 1, ovf := 0, parked := [], drains := 0, stats := [], posts := [], posted := 0, heads := [], walks := [], served := [],
    status := [], svcP := 0, svcC := 0, bad := [], recv := [], ages := 0, evict := [] }

/-! ### Market, links, storage -/

/-- A cluster (23 R368-R372). -/
structure Cluster where
  issued   : Cells 32      -- by band
  withheld : Cells 32
  won      : Nat           -- tokens in force
  unit     : Nat           -- the charge per token that their budget was made with (23 R371, R376)
  grant    : Nat           -- tokens cleared for this interval
  sub      : Nat           -- sub-slot 0-9
  rem      : Int           -- left of the sub-slot
  began    : Bool          -- has issued a word in this sub-slot
  window   : List Nat      -- charges of the last four clocks
  temp     : Nat           -- sensor reading, 0.25 C (input)
  hotAll   : Bool          -- above the threshold since the interval began
  hotLast  : Bool          -- above it for the whole of the last interval; its one move is still due
  bid      : List (Nat × Word) -- this interval's bid: length and value, in descending value
deriving DecidableEq, Repr

/-- A cluster at reset. -/
def Cluster.fresh : Cluster := ⟨[], [], 0, 0, 0, 0, 0, false, [], 0, false, false, []⟩

/-- What training finds on a memory link (25 R404): the module's size code and whether it runs mode B. -/
structure Module where
  size  : Nat
  modeB : Bool
deriving DecidableEq, Repr

/-- What training finds on a Nalmond link (25 R407). -/
structure Nalmond where
  v2    : Bool
  half  : Bool
  retry : Nat
  up    : Bool
  since : Nat              -- clk at which it went down
deriving DecidableEq, Repr

/-- A codeword of a memory row that its code cannot correct (24 R394): the row, which codeword, and the bytes of the row that the
operation under way has written, of which all 32 make the row correct again. -/
structure BadRow where
  row  : Loc
  b    : Bool
  fill : BitVec 32
deriving DecidableEq, Repr

/-- A row of a stripe group (24 R392): of a memory space, a group's vector register, a core's accumulator, a team's profile register. -/
inductive Row where
  | mem (l : Loc)
  | vreg (tid idx r k : Nat)
  | acc (core j k : Nat)
  | prof (tid e k : Nat)
deriving DecidableEq, Repr

/-- A symbol in error (24 R392): row, codeword, bank, error pattern, and whether a rewrite leaves it (R393). -/
structure SymErr where
  row  : Row
  b    : Bool
  bank : Nat
  e    : Byte
  hard : Bool
  fill : BitVec 32         -- as of a BadRow, for a memory row
deriving DecidableEq, Repr

/-- A stripe group (24 R392): die, core (127 for the annex), quadrant, structure in the order of R392, number in it. -/
structure Stripe where
  die  : Nat
  core : Nat
  quad : Nat
  str  : Nat
  grp  : Nat
deriving DecidableEq, Repr

/-- A multiplier cell that forms a wrong significand product in the next mxa of its core (07 R153): the element that it works for, and
how far the product is off. -/
structure CellErr where
  core  : Nat
  row   : Nat
  col   : Nat
  delta : Int
deriving DecidableEq, Repr

/-- A spare swap in progress (24 R397). -/
structure Swap where
  die   : Nat
  saved : List Nat         -- team linear ids saved, in order, with their grids
  grids : List Nat
deriving DecidableEq, Repr

/-! ### Moves -/

/-- Who issues instructions. -/
inductive Agent where
  | group (tid idx : Nat)
  | curator (core : Nat)
deriving DecidableEq, Repr

/-- What the world outside does or shows (25; 24 R392; 23 R381). -/
inductive Input where
  | module (link : Nat) (m : Option Module)
  | nalmond (link : Nat) (n : Option Nalmond)
  | hostLink (up : Bool)
  | flash (hubFw record curatorFw : List Byte)
  | sensor (cluster temp : Nat)
  | badRow (l : Loc) (b : Bool)
  | symErr (e : SymErr)
  | peerBad (d va : Nat)
  | peerPin (d first bound : Nat) (on : Bool)
  | peerFull (d : Nat) (ranges : List (Nat × Nat))
  | peerExhausted (d : Nat) (ranges : List (Nat × Nat))
  | flitOk (link : Nat)
  | bringFail (phase : Nat)
  | coreLost (core : Nat)
  | cellErr (e : CellErr)
  | peerByte (d va : Nat) (b : Byte)
  | mask (v : Nat)
deriving DecidableEq, Repr

/-- One entry of the agenda: which agent acts next (log 1). -/
inductive Move where
  | issue (a : Agent)
  | event (i : Instr)
  | tick (n : Nat)
  | input (x : Input)
deriving DecidableEq, Repr

/-! ### The state -/

/-- The device (00 R1-R3) and, in its last fields, what the model adds: the agenda, the acting agent, the counters that free
values and handles are drawn from, and what the last host read returned. -/
structure State where
  clk      : DWord
  dev      : Memory
  annex    : Memory          -- key 2^26 die + offset
  peers    : Memory          -- key 2^57 device + address
  cfg      : Cells 32        -- configuration words, key `cfgKey`
  cores    : Tab Core
  teams    : Tab Team
  groups   : Tab Group       -- key 64 team + index
  grids    : Tab Grid
  saved    : List Saved
  ops      : Tab Op
  trackers : List Tracker
  oq       : List QEnt       -- ordered queues, in order of arrival
  oqSince  : Tab Nat         -- clk since which each queue has been full (06 R125); key 0-95 core, 96-103 annex, 104, 105 hub
  parts    : Tab Part
  clusters : Tab Cluster
  interval : Nat             -- market intervals begun
  price    : Word
  clockSet : Cells 32        -- the setting that each die's clock runs at (23 R375, R376)
  mphase   : Nat             -- the interval: 0 awaits the host's allocation, 1 cleared, 2 budgets in effect, 3 clocks raised
  mstart   : Nat             -- clk at which the budgets in force took effect
  hubTlb   : List Tlb        -- the north hub's cache, the south hub's
  hubTlb1  : List Tlb
  msixMask : BitVec 4
  msixPend : BitVec 4
  msixSent : Cells 32
  hostUp   : Bool
  modules  : Tab Module
  mfailed  : List Nat
  nalmond  : Tab Nalmond     -- links with a partner
  badRows  : List BadRow
  symErrs  : List SymErr     -- symbols in error, beside those of rows that cannot be corrected
  mappedOut : List (Stripe × Nat) -- banks mapped out
  cellErrs : List CellErr    -- multiplier cells whose next product is wrong (07 R153)
  peerBad  : List (Nat × Nat) -- device and page of 64 KiB that the peer's translation service could not resolve (05 R105)
  peerPins : List (Nat × Nat × Nat) -- device, first byte and end of a range that the peer's Filler pins in the space of its traffic (09 R175)
  peerFull : List (Nat × Nat × Nat) -- device, first byte and end of a range whose ordered queue at the peer takes no entry now (06 R125)
  peerq    : List (Nat × Nat × PeerReq) -- requests of peers that wait here: partition, address space, request
  bringBad : List Nat        -- phases of bring-up that fail (25 R411)
  spare    : Bool            -- a spare die stands by
  swap     : Option Swap
  flashHub : List Byte
  flashRec : List Byte
  flashCur : List Byte
  serial   : DWord
  meas     : BitVec 512
  agenda   : List Move
  cur      : Option Agent
  free     : Nat
  handles  : Nat
  hostRead : List Byte
deriving DecidableEq, Repr

/-- The key of a configuration word (22 R364): space 0 core, 1 die, 2 partition, 3 device; instance; byte offset. -/
def cfgKey (space inst off : Nat) : Nat := space * 2 ^ 40 + inst * 2 ^ 32 + off

/-- Why the machine stops. -/
inductive Fault where
  /-- Raised by `exec` when it is given a scalar, lane or privileged word and no agent is the one issuing (`State.cur` is
  none), or that agent is not there: no such issue exists on the device. Safe: the model stops. -/
  | noAgent
deriving DecidableEq, Repr

/-- Why an instruction has no meaning. -/
inductive Refusal where
  /-- Raised by an arm of `exec` for an instruction that the model gives no meaning. Safe: the model stops. -/
  | notModelled (mnemonic : String)
deriving DecidableEq, Repr

namespace State

/-- The machine right after reset, before bring-up (25 R411): nothing is listed anywhere, the spare die stands by (24 R397);
the values that no rule gives are named in log entries 7, 8, 9 and 10. -/
def reset : State where
  clk := 0
  dev := []
  annex := []
  peers := []
  cfg := []
  cores := []
  teams := []
  groups := []
  grids := []
  saved := []
  ops := []
  trackers := []
  oq := []
  oqSince := []
  parts := []
  clusters := []
  interval := 0
  price := 0
  clockSet := []
  mphase := 3
  mstart := 0
  hubTlb := []
  hubTlb1 := []
  msixMask := 0
  msixPend := 0
  msixSent := []
  hostUp := false
  modules := []
  mfailed := []
  nalmond := []
  badRows := []
  symErrs := []
  mappedOut := []
  cellErrs := []
  peerBad := []
  peerPins := []
  peerFull := []
  peerq := []
  bringBad := []
  spare := true
  swap := none
  flashHub := []
  flashRec := []
  flashCur := []
  serial := 0
  meas := 0
  agenda := []
  cur := none
  free := 0
  handles := 1
  hostRead := []

end State

end Sys2Proof.Machine
end

