-- ==== Sys2Proof/Machine/Regs.lean ====
section
/-! DEFINITION. A group's registers, lookahead windows and interlocks (02 R52-R54), its masks (02 R46) and its counters
(02 R55, R56). -/

namespace Sys2Proof.Machine

open Sys2Proof

/-- Bit b of a number. -/
def bitAt (n b : Nat) : Bool := n / 2 ^ b % 2 == 1

/-- Bits lo to lo + len - 1 of a number. -/
def fieldAt (n lo len : Nat) : Nat := n / 2 ^ lo % 2 ^ len

/-- The lanes of a mask, ascending. -/
def lanesOf (m : LaneMask) : List Nat := (List.range 96).filter fun l => m.getLsbD l

/-- The mask of the lanes below n. -/
def lanesBelow (n : Nat) : LaneMask := BitVec.ofNat 96 (2 ^ n - 1)

/-- The mask of a list of lanes. -/
def maskOf (l : List Nat) : LaneMask := l.foldl (fun m i => m ||| (1#96 <<< i)) 0

/-! ### Group registers, windows, interlocks -/

/-- No run in progress. -/
def Run.none : Run := ⟨0, 0, false, 0, []⟩

/-- Inside its window for an instruction of that stream (02 R53). -/
def Pend.inWin (p : Pend) (lane : Bool) : Bool := p.lane == lane && p.left != 0

/-- It has come and stream `lane` sees it. -/
def Pend.seen (p : Pend) (lane : Bool) : Bool := !p.inWin lane && p.here

/-- Nothing more is to come of it: its window is over, and it has come or later writes replaced all of it (02 R53). -/
def Pend.over (p : Pend) : Bool := p.left == 0 && (p.here || p.lanes == 0)

namespace Group

/-- The live lanes (01 R12). -/
def liveMask (g : Group) : LaneMask := lanesBelow g.live

/-- An instruction of stream `lane` that names r must wait for a result of an earlier instruction (02 R53). -/
def blocked (g : Group) (lane : Bool) (r : RegRef) : Bool := g.pend.any fun p => p.reg == r && p.lanes != 0 && !p.inWin lane && !p.here

/-- Scalar register r as stream `lane` reads it: s0 is zero (03 R59); a result that has come is seen outside its window. -/
def readS (g : Group) (lane : Bool) (r : Nat) : Word :=
  if r = 0 then 0
  else match g.pend.find? fun p => p.reg == .s r && p.lanes != 0 && p.seen lane with
    | some p => p.vals.get 0
    | none => g.s.get r

/-- The result that stream `lane` sees in lane l of vector register r before the register itself. -/
def seenV (g : Group) (lane : Bool) (r l : Nat) : Option Pend := g.pend.find? fun p => p.reg == .v r && p.lanes.getLsbD l && p.seen lane

/-- Lane l of vector register r as stream `lane` reads it. -/
def readV (g : Group) (lane : Bool) (r l : Nat) : Word :=
  match g.seenV lane r l with
  | some p => p.vals.get l
  | none => g.v.get (96 * r + l)

/-- The sidecar tag of a register (10 R187): deferred, its symbol, its slot. -/
def deferred (g : Group) (r : Nat) : Bool := (g.tags.get r).getLsbD 0
def tagSym (g : Group) (r : Nat) : Nat := fieldAt (g.tags.get r).toNat 1 5
def tagSlot (g : Group) (r : Nat) : Nat := fieldAt (g.tags.get r).toNat 6 5

/-- Free the sidecar slot of a register. -/
def freeTag (g : Group) (r : Nat) : Group :=
  if g.deferred r then { g with tags := g.tags.set r 0, scar := g.scar.keep fun k => k / 96 != g.tagSlot r } else g

/-- A word without the bytes of a codeword of its row: A holds the even bytes, B the odd ones (24 R392). -/
def dropCode (b : Bool) (w : Word) : Word := if b then w &&& 0x00FF00FF else w &&& 0xFF00FF00

/-- The data symbols of a codeword after word i of its row is written. -/
def putSyms (b : Bool) (l : List Byte) (i : Nat) (w : Word) : List Byte :=
  let o := if b then 8 else 0
  (l.set (2 * i) (w.extractLsb' o 8)).set (2 * i + 1) (w.extractLsb' (o + 16) 8)

/-- A write to the lanes m of register r has been performed: a row of 8 lanes that it covers whole has no symbol in error; in another row the
bytes of a codeword that cannot be corrected go on reading zero (24 R394). -/
def rowsWritten (g : Group) (r : Nat) (m : LaneMask) : Group :=
  if g.badV.isEmpty then g
  else
    let full (e : BadCode) : Bool := e.reg == r && (List.range 8).all fun i => m.getLsbD (8 * e.row + i)
    let left := (g.badV.filter fun e => !full e).map fun e => if e.reg = r then
        { e with was := e.was.map fun l => ((List.range 8).filter fun i => m.getLsbD (8 * e.row + i)).foldl (fun l i =>
          putSyms e.b l i (g.v.get (96 * r + 8 * e.row + i))) l }
      else e
    { g with badV := left,
             v := (left.filter fun e => e.reg == r && e.bad).foldl (fun v e => (List.range 8).foldl (fun v i =>
               v.set (96 * r + 8 * e.row + i) (dropCode e.b (v.get (96 * r + 8 * e.row + i)))) v) g.v }

/-- Put words into lanes of a vector register. In a register that holds a form they are values, forms of scale +0 (10 R187). -/
def putLanes (g : Group) (r : Nat) (m : LaneMask) (f : Nat → Word) : Group :=
  { g with v := (lanesOf m).foldl (fun v l => v.set (96 * r + l) (f l)) g.v,
           scar := if g.deferred r then (lanesOf m).foldl (fun c l => c.set (96 * g.tagSlot r + l) 0) g.scar else g.scar }.rowsWritten r m

/-- Write a result that has come to its register, in the lanes that no later write replaced. A vector register is then concrete
(10 R193), unless a form was written to it since; until then its sidecar slot is taken (log 80). -/
def apply (g : Group) (p : Pend) : Group :=
  match p.reg with
  | .s r => if r = 0 || p.lanes = 0 then g else { g with s := g.s.set r (p.vals.get 0) }
  | .v r => let g := if p.form || p.lanes = 0 then g else g.freeTag r
            g.putLanes r p.lanes p.vals.get
  | .sh n => if p.lanes = 0 then g
      else { g with sh := g.sh.set n (BitVec.ofNat 512 ((List.range 16).foldl (fun x i => x + (p.vals.get i).toNat * 2 ^ (32 * i)) 0)) }

/-- Apply every result that has come and whose window is over. -/
def settle (g : Group) : Group := (g.pend.filter Pend.over).foldl apply { g with pend := g.pend.filter fun (p : Pend) => !p.over }

/-- One instruction of a stream has issued: every window of that stream is one shorter (02 R53). -/
def tick (g : Group) (lane : Bool) : Group :=
  ({ g with pend := g.pend.map fun (p : Pend) => if p.lane == lane then { p with left := p.left - 1 } else p, moved := true, stall := none }).settle

/-- Register r is written in the lanes of m: there the write replaces every result that stands before the register or is still to
come, for every later reader (02 R53, 14 R281). The window stays open. -/
def claim (g : Group) (r : RegRef) (m : LaneMask) : Group :=
  { g with pend := g.pend.map fun (p : Pend) => if p.reg == r then { p with lanes := p.lanes &&& ~~~m } else p }

/-- Write scalar register r; a write to s0 is discarded. -/
def writeS (g : Group) (r : Nat) (v : Word) : Group :=
  if r = 0 then g else let g := g.claim (.s r) (BitVec.allOnes 96); { g with s := g.s.set r v }

/-- s125-s127 as one mask (02 R46), as stream `lane` reads them. -/
def mask (g : Group) (lane : Bool) : LaneMask := g.readS lane 127 ++ g.readS lane 126 ++ g.readS lane 125

/-- Set s125-s127. -/
def setMask (g : Group) (m : LaneMask) : Group :=
  ((g.writeS 125 (m.extractLsb' 0 32)).writeS 126 (m.extractLsb' 32 32)).writeS 127 (m.extractLsb' 64 32)

/-- Write lanes of vector register r from a function (02 R47, R53). -/
def writeV (g : Group) (r : Nat) (m : LaneMask) (f : Nat → Word) : Group := (g.claim (.v r) m).putLanes r m f

/-- Open windows of a stream, oldest first. -/
def windows (g : Group) (lane : Bool) : List Nat := ((g.pend.filter fun (p : Pend) => p.inWin lane && p.win != 0).map (·.win)).dedup

/-- A long-latency instruction with lookahead L is about to issue: where 16 windows of its stream are open it closes the oldest
(02 R54), before it reads its own registers. -/
def makeRoom (g : Group) (lane : Bool) (L : Nat) : Group :=
  let ws := g.windows lane
  if L != 0 && ws.length ≥ 16 then
    ({ g with pend := g.pend.map fun (p : Pend) => if p.inWin lane && p.win == ws.headD 0 then { p with left := 0 } else p }).settle
  else g

/-- The results of one long-latency instruction with lookahead L are on their way, each in the lanes given: those that take effect
(02 R47, R52-R54); its window is counted from the next instruction. A result that takes effect nowhere is none. -/
def expect (g : Group) (lane : Bool) (op L : Nat) (rs : List (RegRef × LaneMask × Cells 32)) : Group :=
  let rs := rs.filter fun r => r.1 != .s 0 && r.2.1 != 0
  let g := rs.foldl (fun g r => g.claim r.1 r.2.1) (g.makeRoom lane (if rs.isEmpty then 0 else L))
  { g with pend := g.pend ++ rs.map fun r => ⟨r.1, r.2.1, r.2.2, op, lane, L + 1, if L = 0 then 0 else op, false, false⟩ }

/-- The results of operation op have come. -/
def arrive (g : Group) (op : Nat) : Group :=
  ({ g with pend := g.pend.map fun (p : Pend) => if p.op == op then { p with here := true } else p }).settle

/-- The same with the values given now. -/
def deliver (g : Group) (op : Nat) (f : RegRef → Cells 32 → Cells 32) : Group :=
  ({ g with pend := g.pend.map fun (p : Pend) => if p.op == op then { p with vals := f p.reg p.vals, here := true } else p }).settle

/-- Close every window (02 R54: at exit or tail). -/
def closeWindows (g : Group) : Group := ({ g with pend := g.pend.map fun (p : Pend) => { p with left := 0 } }).settle

/-- The scalar word at the SPC, of len bytes, has issued. -/
def advance (g : Group) (len : Nat) : Group := ({ g with spc := g.spc + BitVec.ofNat 64 len, reissue := none }).tick false

/-- The lane word at the cursor has issued (02 R42, R44): the cursor moves; of an lx the LPC moves too; after the last word the
SPC passes the lx or lxa. -/
def laneDone (g : Group) : Group :=
  let r := g.run
  let g := { g with lpc := if r.own then g.lpc else g.lpc + 1, cancel := 0, reissue := none,
                    run := { r with n := r.n - 1, cursor := r.cursor + 1, code := r.code.drop 3 } }
  let g := if r.n ≤ 1 then { g with spc := g.spc + BitVec.ofNat 64 r.len, run := Run.none } else g
  g.tick true

/-- The number of a class, in the order of 12 R222. -/
def clsNo : Cls → Nat
  | .ld => 0 | .cp => 1 | .mx => 2 | .cl => 3 | .pf => 4

/-- The counter of a class (02 R55): the operations counted, and what a write of the counter itself has added (22 R360), mod 256. -/
def counter (g : Group) (c : Cls) : Nat := ((g.infl.filter fun x => x.cls == c).length + (g.cntAdj.get (clsNo c)).toNat) % 256

/-- Operations of one class leave their counter in issue order (02 R56). -/
def leave : List Infl → List Cls → List Infl
  | [], _ => []
  | x :: r, held => if x.fin && !held.contains x.cls then leave r held
                    else x :: leave r (x.cls :: held)

/-- Operation op is complete: it and those that waited for it leave. -/
def opDone (g : Group) (op : Nat) : Group :=
  { g with infl := leave (g.infl.map fun x => if x.op == op then { x with fin := true } else x) [] }

/-- The lane-word index of a fault: 0xFFFF_FFFF outside a run (22 R348). -/
def lword (g : Group) : Word := if g.run.n = 0 then 0xFFFFFFFF else g.run.cursor

/-- Depth limit of the reconvergence stack (02 R49), with the team's spill switch. -/
def rlimit (spillOn : Bool) : Nat := if spillOn then 96 else 32

end Group

end Sys2Proof.Machine
end

