-- ==== Sys2Proof/Machine/Flags.lean ====
section
/-! DEFINITION. The sticky flags and user conditions of cond (03 R69), and entering a user handler (13 R267). -/

namespace Sys2Proof.Machine

open Sys2Proof

/-- The sticky bit of a condition in cond (03 R69). -/
def Cond.sticky : Cond → Word
  | .arith => 0x20 | .profile => 0x40 | .filler => 0x80 | .deferral => 0x100

/-- Its enable bit. -/
def Cond.enable : Cond → Word
  | .arith => 0x400 | .profile => 0x800 | .filler => 0x1000 | .deferral => 0x2000

namespace Group

/-- A flag of f is not yet set: the arithmetic condition arises (03 R69). -/
def newFlags (g : Group) (f : AFlags) : Bool := f &&& ~~~(g.cond.setWidth 5) != 0

/-- Set aflags; a newly set one sets sticky bit [5] (03 R69). -/
def setFlags (g : Group) (f : AFlags) : Group :=
  { g with cond := (g.cond ||| f.setWidth 32) ||| (if g.newFlags f then 0x20 else 0) }

/-- Set a condition's sticky bit. -/
def setSticky (g : Group) (c : Cond) : Group := { g with cond := g.cond ||| c.sticky }

/-- The condition would enter the handler: enabled, hnd nonzero, the group not in its handler (03 R69, 13 R267). -/
def canEnter (g : Group) (c : Cond) : Bool := g.cond &&& c.enable != 0 && g.hnd != 0 && g.frame.isNone

/-- TAKING A USER CONDITION: the group still stands on the word, and the frame is filled, and the SPC goes to hnd with no run in progress
(13 R267). Registers, mask and fmt keep their values; results on their way to s125-s127 have come, since the word waited for them
(02 R53). -/
def enterHandler (g : Group) (c : Cond) : Group :=
  { g with frame := some ⟨g.spc, g.lpc, g.run, g.mask true, g.fmt, g.rdepth, c⟩, spc := g.hnd, run := Run.none }

/-- RETURN FROM A HANDLER (13 R268): mask, fmt, LPC, run state and SPC from the frame; the word that raised the arithmetic
condition cannot enter for it on its next issue, and a filing is not counted twice (09 R183). -/
def leaveHandler (g : Group) (f : Frame) : Group :=
  { (g.setMask f.mask) with fmt := f.fmt, lpc := f.lpc, run := f.run, spc := f.spc, frame := none,
                            reissue := if f.cond = .arith || f.cond = .filler then some f.cond else none }

end Group

end Sys2Proof.Machine
end

