-- ==== Sys2Proof/Machine/Forms.lean ====
section
/-! DEFINITION. Deferred registers of a group: the forms they hold, their values, and making them concrete (10 R187, R188, R193). -/

namespace Sys2Proof.Machine

open Sys2Proof

/-- The value of the form (sc, o) over a symbol resolved to x (10 R188). -/
def formVal (sc x o : Word) : Word :=
  if sc.setWidth 31 = 0 then o
  else if (f32 x).isNan || (f32 o).isNan then 0x7FC00000
  else (rne32 ((f32 sc).fma (f32 x) (f32 o)).1).1

namespace Group

/-- A sidecar tag. -/
def mkTag (sym slot : Nat) : BitVec 11 := BitVec.ofNat 11 (1 + 2 * (sym % 32) + 64 * (slot % 32))

/-- The scale of a deferred register in a lane, as the lane stream reads it: a result that has come is a value (10 R187). -/
def scale (g : Group) (lane : Bool) (r l : Nat) : Word := if (g.seenV lane r l).isSome then 0 else g.scar.get (96 * g.tagSlot r + l)

/-- Stream `lane` reads a form in register r: it is deferred, and no result that has come made it concrete. -/
def readsForm (g : Group) (lane : Bool) (r : Nat) : Bool :=
  g.deferred r && !(g.pend.any fun p => p.reg == .v r && p.lanes != 0 && p.seen lane && !p.form)

/-- value(v, l) (12 R241, 10 R188): x gives the values of the team's symbols. -/
def value (g : Group) (lane : Bool) (x : Nat → Option Word) (r l : Nat) : Word :=
  if g.readsForm lane r then formVal (g.scale lane r l) ((x (g.tagSym r)).getD 0) (g.readV lane r l) else g.readV lane r l

/-- Make a register concrete: every live lane takes its value, the slot frees (10 R193, R195, R196). -/
def concrete (g : Group) (x : Nat → Option Word) (r : Nat) : Group :=
  if g.deferred r then
    ({ g with v := (lanesOf g.liveMask).foldl (fun v l =>
        v.set (96 * r + l) (formVal (g.scar.get (96 * g.tagSlot r + l)) ((x (g.tagSym r)).getD 0) (g.v.get (96 * r + l)))) g.v }).freeTag r |>.rowsWritten r g.liveMask
  else g

/-- A deferred register whose full-width result has come is concrete once later writes have replaced the last lane of that result: every
lane of it holds a value (10 R193). -/
def allValues (g : Group) (r : Nat) : Group :=
  if (g.pend.any fun p => p.reg == .v r && !p.form) && !(g.pend.any fun p => p.reg == .v r && !p.form && p.lanes != 0) then g.freeTag r else g

/-- Registers of a list of which a word with effect m keeps lanes: all where it takes effect in some lanes only, none where it writes
nothing (10 R193, 02 R47). -/
def kept (g : Group) (m : LaneMask) (rs : List Nat) : List Nat := if m = g.liveMask || m = 0 then [] else rs

/-- Write values into the lanes m of register r: a deferred register becomes concrete, the lanes kept taking their values (10 R193).
Where no lane is written nothing changes (02 R47). -/
def writeVal (g : Group) (lane : Bool) (x : Nat → Option Word) (r : Nat) (m : LaneMask) (f : Nat → Word) : Group :=
  if m = 0 then g else ((if g.readsForm lane r then g.concrete x r else g).writeV r m f).allValues r

/-- A long-latency result for the lanes m of register r is on its way: the lanes it keeps take their values (10 R193). -/
def keepVal (g : Group) (x : Nat → Option Word) (m : LaneMask) (r : Nat) : Group :=
  if (g.kept m [r]).isEmpty then g else g.concrete x r

/-- The lowest pending symbol among those of the deferred registers of a list. -/
def pendingSym (g : Group) (lane : Bool) (x : Nat → Option Word) (rs : List Nat) : Option Nat :=
  let ys := (rs.filter fun r => g.readsForm lane r && (x (g.tagSym r)).isNone).map g.tagSym
  if ys.isEmpty then none else some (ys.foldl Nat.min 31)

end Group

end Sys2Proof.Machine
end

