-- ==== Sys2Proof/Machine/Ops.lean ====
section
/-! DEFINITION. The named operations over state, registers and memory that every meaning is written in: accessors, memory with its homes (06 R117), taking a fault (22 R348, R349), barrier slots (03 R64), wakes
(01 R38), counters (02 R55, R56). -/

namespace Sys2Proof.Machine

open Sys2Proof

/-- What a meaning answers. -/
abbrev Out := Host.Outcome State Fault Refusal

/-! ### Accessors of the state -/

namespace State

def group (s : State) (t i : Nat) : Option Group := s.groups.get (64 * t + i)
def putGroup (s : State) (t i : Nat) (g : Group) : State := { s with groups := s.groups.set (64 * t + i) g }
def mapGroup (s : State) (t i : Nat) (f : Group → Group) : State :=
  match s.group t i with
  | some g => s.putGroup t i (f g)
  | none => s
/-- The groups of a team, by index. -/
def groupsOf (s : State) (t : Nat) : List Group := (s.groups.filter fun e => e.1 / 64 == t).map (·.2)
def team (s : State) (t : Nat) : Option Team := s.teams.get t
def putTeam (s : State) (t : Nat) (x : Team) : State := { s with teams := s.teams.set t x }
def mapTeam (s : State) (t : Nat) (f : Team → Team) : State :=
  match s.team t with
  | some x => s.putTeam t (f x)
  | none => s
def grid (s : State) (g : Nat) : Option Grid := s.grids.get g
def putGrid (s : State) (g : Nat) (x : Grid) : State := { s with grids := s.grids.set g x }
/-- The grid of a team. -/
def gridOf (s : State) (t : Nat) : Option Grid := (s.team t).bind fun x => s.grid x.grid
def core (s : State) (c : Nat) : Core := (s.cores.get c).getD Core.fresh
def putCore (s : State) (c : Nat) (x : Core) : State := { s with cores := s.cores.set c x }
def mapCore (s : State) (c : Nat) (f : Core → Core) : State := s.putCore c (f (s.core c))
def part (s : State) (p : Nat) : Part := (s.parts.get p).getD Part.fresh
def putPart (s : State) (p : Nat) (x : Part) : State := { s with parts := s.parts.set p x }
def mapPart (s : State) (p : Nat) (f : Part → Part) : State := s.putPart p (f (s.part p))
def cluster (s : State) (c : Nat) : Cluster := (s.clusters.get c).getD Cluster.fresh
def putCluster (s : State) (c : Nat) (x : Cluster) : State := { s with clusters := s.clusters.set c x }
def putOp (s : State) (h : Nat) (o : Op) : State := { s with ops := s.ops.set h o }
/-- A configuration word (22 R364). -/
def cfgW (s : State) (space inst off : Nat) : Word := s.cfg.get (cfgKey space inst off)
def setCfgW (s : State) (space inst off : Nat) (v : Word) : State := { s with cfg := s.cfg.set (cfgKey space inst off) v }
/-- A pair of configuration words, low word first. -/
def cfgD (s : State) (space inst off : Nat) : Nat := (s.cfgW space inst off).toNat + 2 ^ 32 * (s.cfgW space inst (off + 4)).toNat

/-- Bring-up has stopped with an error: only BAR0 reads and a new record are accepted (25 R411). -/
def broken (s : State) : Bool := fieldAt (s.cfgW 3 0 0x500).toNat 8 8 != 0

/-- The next free value's number. -/
def draw (s : State) : Nat × State := (s.free, { s with free := s.free + 1 })

/-- The partition of a die: nibble d of the partition map (24 R384). -/
def dieValid (s : State) (d : Nat) : Bool := bitAt (s.cfgW 3 0 0x400).toNat (4 * d + 3)
def diePart (s : State) (d : Nat) : Nat := fieldAt (s.cfgW 3 0 0x400).toNat (4 * d) 3
/-- The core is present (24 R398). -/
def corePresent (s : State) (c : Nat) : Bool := bitAt (s.cfgW 3 0 (0x420 + 4 * (c / 32))).toNat (c % 32)

/-- Raise an MSI-X vector: held pending once while masked (25 R402). -/
def msix (s : State) (v : Nat) : State :=
  if s.msixMask.getLsbD v then { s with msixPend := s.msixPend ||| (1#4 <<< v) }
  else { s with msixSent := s.msixSent.set v (s.msixSent.get v + 1) }

/-! ### Machine checks (24 R395) -/

/-- What a machine-check record names; the fields of R395. -/
structure Mc where
  source : Nat
  die    : Nat
  core   : Nat := 127
  quad   : Nat := 0
  faddr  : Nat := 15 * 2 ^ 60
  batch  : Nat := 0
  team   : Nat := 0xFFFFFFFF
  grp    : Nat := 0
  bank   : Nat := 31
  sgrp   : Nat := 2047
  halted : Bool := false

/-- The 256 bits of a record. -/
def Mc.bits (m : Mc) (clk : DWord) : Nat :=
  m.source + (if m.halted then 2 ^ 24 else 0) + m.quad % 4 * 2 ^ 27 + m.core % 128 * 2 ^ 29 + m.die % 16 * 2 ^ 36 +
    m.sgrp % 2048 * 2 ^ 40 + m.bank % 32 * 2 ^ 51 + m.grp % 256 * 2 ^ 56 + m.team % 2 ^ 32 * 2 ^ 64 +
    m.batch % 2 ^ 32 * 2 ^ 96 + clk.toNat * 2 ^ 128 + m.faddr % 2 ^ 64 * 2 ^ 192

/-- Write a machine-check record: the log of its die, its count, the core's mcpend, MSI-X vector 1 (24 R395, 25 R402). -/
def machineCheck (s : State) (m : Mc) : State :=
  let n := s.cfgW 1 m.die 0x7F0
  let x := m.bits s.clk
  let s := (List.range 8).foldl (fun s i =>
    s.setCfgW 1 m.die (0x800 + 32 * (n.toNat % 32) + 4 * i) (BitVec.ofNat 32 (x / 2 ^ (32 * i)))) s
  let s := s.setCfgW 1 m.die 0x7F0 (n + 1)
  let s := if m.core = 127 then s
    else
      let p := s.cfgW 0 m.core 0x030
      s.setCfgW 0 m.core 0x030 (if p = 0xFFFFFFFF then p else p + 1)
  s.msix 1

/-! ### Halting a team (22 R349) -/

/-- The value of a symbol, once resolved. -/
def symX (s : State) (t n : Nat) : Option Word := ((s.team t).bind fun x => x.syms.get n).bind (·.val)

/-- An SFU word in flight writes its results, and its flags reach cond (14 R281, R282). A held one is decided here: where it would newly
set a flag its flags are set, nothing is written and its group, still on the word, enters the handler; otherwise it has its effect and
the group moves on. -/
def sfuWrite (s : State) (h : Nat) : State :=
  match s.ops.get h with
  | some o =>
    match o.kind, s.group o.tid o.idx with
    | .sfu fl _ _ hold, some g =>
      let s := { s with ops := s.ops.del h }
      match hold with
      | some e =>
        s.putGroup o.tid o.idx (if g.newFlags fl && g.canEnter .arith then (g.setFlags fl).enterHandler .arith
          else (((g.keepVal (s.symX o.tid) e.eff e.vd).expect true h e.la [(.v e.vd, e.eff, e.vals)]).laneDone.arrive h).setFlags fl)
      | none => s.putGroup o.tid o.idx ((g.arrive h).setFlags fl)
    | .sfu _ _ _ _, none => { s with ops := s.ops.del h }
    | _, _ => s
  | none => s

/-- The SFU words of a group that are in flight, in issue order. -/
def sfuOps (s : State) (t i : Nat) : List Nat :=
  (s.ops.filter fun e => e.2.tid == t && e.2.idx == i && (match e.2.kind with
    | .sfu _ _ _ _ => true
    | _ => false)).map (·.1)

/-- A group drains every SFU word that it has issued (14 R282). -/
def drainSfu (s : State) (t i : Nat) : State := (s.sfuOps t i).foldl sfuWrite s

/-- Halt every group of a team: SFU words drain, but those that a group has left to its tracker entry; a sibling that is running may begin up to 6 further instructions, a free value
(log 6); `self` is the faulting group, which begins none. -/
def pauseTeam (s : State) (t : Nat) (self : Option Nat) : State :=
  match s.team t with
  | none => s
  | some x =>
    if x.halted then
      match self with
      | some i => s.mapGroup t i fun g => { g with skidMax := 0 }
      | none => s
    else
      let s := s.putTeam t { x with halted := true }
      (s.groupsOf t).foldl (fun s g =>
        let (n, s) := s.draw
        let run := !g.ended && g.wait.isNone && self != some g.idx
        let s := s.mapGroup t g.idx fun g => { g with skid := 0, skidMax := if run then Config.skid n % 7 else 0 }
        if g.ended then s else s.drainSfu t g.idx) s

/-- A team that is being saved or moved, or that halts for another's save, is not resumed after it: only gctl resumes it (24 R396, 22 R361). -/
def keepHalted (s : State) (t : Nat) : State :=
  if s.parts.any fun e => e.2.evict.any fun v => v.tid == t || v.others.contains t then
    { s with parts := s.parts.map fun (e : Nat × Part) => (e.1, { e.2 with evict := e.2.evict.map fun v =>
      { v with resume := v.resume && v.tid != t, others := v.others.filter (· != t) } }) }
  else s

/-- A halt by a fault, an Audit mismatch, an uncorrectable read or a Curator (22 R349, 24 R394, R396). -/
def haltTeam (s : State) (t : Nat) (self : Option Nat) : State := (s.pauseTeam t self).keepHalted t

/-! ### Fault records (22 R348) -/

/-- Untaken records. -/
def fqcnt (c : Core) : Nat := (c.fq.filter fun r => !r.2.taken).length

/-- The slots that the next record may take: those that hold none or a taken one. -/
def fqFree (c : Core) : List Nat :=
  (List.range 64).filter fun q => match c.fq.get q with
    | none => true
    | some r => r.taken && !r.service

/-- One of the free slots; the spec does not say which (log 20). -/
def fqSlot (c : Core) (n : Nat) : Option Nat :=
  let f := fqFree c
  if f.isEmpty then none else f[Config.pick n % f.length]?

/-- Put a record into a core's fault queue: it gets its number; with the queue full it waits in its core. -/
def enqueueRec (s : State) (core : Nat) (r : FaultRec) : State :=
  let c := s.core core
  let r := { r with seq := c.seq, clk := s.clk }
  let c := { c with seq := c.seq + 1 }
  let (n, s) := s.draw
  s.putCore core (match (if fqcnt c < 64 && c.fqWait.isEmpty then fqSlot c n else none) with
    | some q => { c with fq := c.fq.set q r }
    | none => { c with fqWait := c.fqWait ++ [r] })

/-- What the fault of a group or operation adds to its place. -/
structure Detail where
  faddr : Nat := 0
  lanes : LaneMask := 0
  aux   : Word := 0
  lane  : Bool := false

/-- The team's entry on a core. -/
def entryOn (x : Team) (core : Nat) : Nat := if core = x.core then x.entry else x.entry2

/-- TAKING A FAULT at issue (22 R348, R349): the record is written, the team halts, the SPC stays on the word, the group's fault is
pending. -/
def raiseGroup (s : State) (t i : Nat) (code : FaultCode) (d : Detail) : State :=
  match s.team t, s.group t i with
  | some x, some g =>
    let r : FaultRec :=
      { faddr := BitVec.ofNat 64 d.faddr, lanes := d.lanes, aux := d.aux, pc := g.spc, lword := g.lword, op := 0, code := code,
        glid := BitVec.ofNat 32 (32 * x.id + i), team := BitVec.ofNat 32 x.id, grp := BitVec.ofNat 8 i, exited := false,
        impr := false, lane := d.lane, taken := false, entry := BitVec.ofNat 3 (entryOn x g.core), seq := 0, clk := 0, tid := t,
        service := false }
    let s := (s.putGroup t i { g with faulted := true }).enqueueRec g.core r
    s.haltTeam t (some i)
  | _, _ => s

/-- Taking an imprecise fault of an engine operation (22 R352): the record names the operation and the issuing word; the team
halts; the operation is held for replay or cancel. -/
def raiseOp (s : State) (h : Nat) (idx : Nat) (pc : DWord) (lword : Word) (code : FaultCode) (d : Detail) : State :=
  match s.ops.get h with
  | none => s
  | some o =>
    let s := s.putOp h { o with stage := .failed, fault := none }
    match s.team o.tid with
    | none => s
    | some x =>
      let g := s.group o.tid idx
      let ex := match g with
        | some g => g.ended
        | none => true
      let core := match g with
        | some g => g.core
        | none => o.core
      let r : FaultRec :=
        { faddr := BitVec.ofNat 64 d.faddr, lanes := d.lanes, aux := d.aux, pc := pc, lword := lword, op := h, code := code,
          glid := BitVec.ofNat 32 (32 * x.id + idx), team := BitVec.ofNat 32 x.id, grp := BitVec.ofNat 8 idx, exited := ex,
          impr := true, lane := d.lane, taken := false, entry := BitVec.ofNat 3 (entryOn x core), seq := 0, clk := 0, tid := o.tid,
          service := false }
      (s.enqueueRec core r).haltTeam o.tid none

/-- A Curator's fault stops it and records machine check 0x06; the batch field carries the code of trap or brk (22 R345). -/
def raiseCurator (s : State) (c : Nat) (code : Nat) : State :=
  (s.mapCore c fun x => { x with stopped := true }).machineCheck
    { source := 6, die := c / 12, core := c, batch := code }

/-- A fault at issue of the agent that issues (12 R226). -/
def raiseNow (s : State) (code : FaultCode) (d : Detail := {}) : State :=
  match s.cur with
  | some (.group t i) => s.raiseGroup t i code d
  | some (.curator c) => s.raiseCurator c d.aux.toNat
  | none => s

/-! ### The issuing agent -/

/-- The agent that issues is there. -/
def present (s : State) : Bool :=
  match s.cur with
  | some (.group t i) => (s.group t i).isSome
  | some (.curator _) => true
  | none => false

/-- The meaning of a word needs an agent that issues it. -/
def issuing (s : State) (k : Out) : Out := if s.present then k else .fault .noAgent

/-- The issuing group, with its team number and index. -/
def self (s : State) : Option (Nat × Nat × Group) :=
  match s.cur with
  | some (.group t i) => (s.group t i).map fun g => (t, i, g)
  | _ => none

/-- A word of a group's own: a Curator does not execute it (12 R225). -/
def byGroup (s : State) (k : Nat → Nat → Group → Out) : Out :=
  match s.cur with
  | some (.group t i) =>
    match s.group t i with
    | some g => k t i g
    | none => .fault .noAgent
  | some (.curator c) => .next (s.raiseCurator c 0)
  | none => .fault .noAgent

/-- A word of the Curator's own: in a group it raises the privileged-instruction fault (12 R225, R228). -/
def byCurator (s : State) (k : Nat → Out) : Out :=
  match s.cur with
  | some (.curator c) => k c
  | some (.group _ _) => if s.present then .next (s.raiseNow .privilegedInstruction) else .fault .noAgent
  | none => .fault .noAgent

/-- Scalar register of the issuing agent (03 R59, 22 R345). -/
def sreg (s : State) (r : SReg) : Word :=
  match s.cur with
  | some (.group t i) =>
    match s.group t i with
    | some g => g.readS false r.toNat
    | none => 0
  | some (.curator c) => if r = 0 then 0 else (s.core c).s.get r.toNat
  | none => 0

/-- Write a scalar register of the issuing agent; a write to s0 is discarded. -/
def setS (s : State) (r : SReg) (v : Word) : State :=
  match s.cur with
  | some (.group t i) => s.mapGroup t i fun g => g.writeS r.toNat v
  | some (.curator c) => if r = 0 then s else s.mapCore c fun x => { x with s := x.s.set r.toNat v }
  | none => s

/-- A register pair as one value: the even register holds the low half (03 R59). -/
def spair (s : State) (r : SReg) : DWord := s.sreg (r + 1) ++ s.sreg r

/-- Write a pair; based on s0 it writes s1 only (13 R242). -/
def setPair (s : State) (r : SReg) (v : DWord) : State := (s.setS r (v.extractLsb' 0 32)).setS (r + 1) (v.extractLsb' 32 32)

/-- Where the issuing agent stands. -/
def spc (s : State) : DWord :=
  match s.cur with
  | some (.group t i) => ((s.group t i).map (·.spc)).getD 0
  | some (.curator c) => (s.core c).spc
  | none => 0

/-- The SPC of the issuing agent is set; one scalar word has issued. -/
def jump (s : State) (pc : DWord) : State :=
  match s.cur with
  | some (.group t i) => s.mapGroup t i fun g => ({ g with spc := pc, reissue := none }).tick false
  | some (.curator c) => s.mapCore c fun x => { x with spc := pc }
  | none => s

/-- The scalar word of len bytes has issued: on to the next. -/
def advance (s : State) (len : Nat) : State := s.jump (s.spc + BitVec.ofNat 64 len)

/-- Some register named waits for an earlier result (02 R53): the word cannot issue yet (01 R33). -/
def held (s : State) (rs : List SReg) : Bool :=
  match s.cur with
  | some (.group t i) =>
    match s.group t i with
    | some g => rs.any fun r => r != 0 && g.blocked false (.s r.toNat)
    | none => false
  | _ => false

/-- A scalar word that reads and writes the registers `rs`: it waits for them, then has its effect. -/
def scalar (s : State) (rs : List SReg) (k : State → State) : Out :=
  s.issuing (if s.held rs then .next s else .next (k s))

/-- The same after the check that every pair named is even (03 R59). -/
def scalarPairs (s : State) (pairs : List SReg) (rs : List SReg) (k : State → State) : Out :=
  s.issuing (if pairs.any fun r => r.toNat % 2 == 1 then .next (s.raiseNow .illegalRegister)
    else if s.held (rs ++ pairs ++ pairs.map (· + 1)) then .next s else .next (k s))

/-! ### Counters and completion (02 R55, R56) -/

/-- A group's counter has fallen: a parked yield that it satisfies continues at its label (02 R57). -/
def wakeYield (g : Group) : Group :=
  match g.wait with
  | some (.yield c n k) => if g.counter c ≤ n then ({ g with wait := none, spc := k, reissue := none }).tick false else g
  | _ => g

/-- The operation leaves its group's counter; an ended group's counter is not updated (01 R36). -/
def leaveCounter (s : State) (t i h : Nat) : State :=
  s.mapGroup t i fun g => if g.ended then g else wakeYield (g.opDone h)

/-- A new operation: its handle, and the state with it recorded and counted. -/
def newOp (s : State) (t i : Nat) (g : Group) (glid : Nat) (cls : Option Cls) (stage : Stage) (kind : OpKind) : Nat × State :=
  let h := s.handles
  let o : Op := ⟨t, i, glid, g.core, g.spc, g.lword, cls, false, stage, none, s.clk.toNat, kind⟩
  let s := { s with handles := h + 1, ops := s.ops.set h o }
  let s := match cls with
    | some c => s.mapGroup t i fun g => { g with infl := g.infl ++ [⟨c, h, false⟩] }
    | none => s
  (h, s)

/-- Group linear id (01 R15). -/
def glid (s : State) (t i : Nat) : Nat := 32 * (((s.team t).map (·.id)).getD 0) + i

/-! ### Barrier slots (03 R64, 13 R261) -/

def bsExpected (w : Word) : Nat := fieldAt w.toNat 0 10
def bsArrived (w : Word) : Nat := fieldAt w.toNat 10 10
def bsPhase (w : Word) : Bool := bitAt w.toNat 20
def bsWord (expected arrived : Nat) (phase : Bool) : Word :=
  BitVec.ofNat 32 (expected % 1024 + arrived % 1024 * 1024 + if phase then 2 ^ 20 else 0)

/-- The slot after one arrival (03 R64). -/
def bsArrive (w : Word) : Word :=
  if bsArrived w + 1 = bsExpected w then bsWord (bsExpected w) 0 (!bsPhase w)
  else bsWord (bsExpected w) (bsArrived w + 1) (bsPhase w)

/-- The phase of a slot has changed: groups parked on it are ready, past their word; slot symbols see it (10 R185). -/
def slotFlipped (s : State) (t n : Nat) : State :=
  match s.team t with
  | none => s
  | some x =>
    let ph := bsPhase (x.bs.get n)
    let s := (s.groupsOf t).foldl (fun s g =>
      match g.wait with
      | some (.slot m p) => if m = n && p != ph then s.putGroup t g.idx ({ g with wait := none }.advance 4) else s
      | _ => s) s
    s.mapTeam t fun x => { x with syms := x.syms.map fun e => match e.2.src with
      | .slot m p _ _ => if m = n && p != ph then (e.1, { e.2 with met := true }) else e
      | _ => e }

/-- Apply one arrival to a slot that is initialised. -/
def slotArrive (s : State) (t n : Nat) : State :=
  match s.team t with
  | none => s
  | some x =>
    let w := x.bs.get n
    let w' := bsArrive w
    let s := s.putTeam t { x with bs := x.bs.set n w' }
    if bsPhase w' != bsPhase w then s.slotFlipped t n else s

/-- The engine's arrival for operation h on slot `bsl` of its team (03 R64, 05 R103): on a slot that is not initialised it is an
illegal-operand fault at the issuing group. -/
def engineArrive (s : State) (t h bsl : Nat) (idx : Nat) (pc : DWord) (lword : Word) : State :=
  if bsl = 31 then s
  else match s.team t with
  | none => s
  | some x =>
    if x.killing then s
    else if bsExpected (x.bs.get bsl) = 0 then s.raiseOp h idx pc lword .illegalOperand {}
    else s.slotArrive t bsl

end State

/-! ### Memory (05 R91, 06 R117) -/

/-- The byte n further on. -/
def Loc.plus : Loc → Nat → Loc
  | .team t o, n => .team t (o + n)
  | .spill t i o, n => .spill t i (o + n)
  | .annex d o, n => .annex d (o + n)
  | .dev a, n => .dev (a + n)
  | .peer d a, n => .peer d (a + n)
  | .curator c o, n => .curator c (o + n)

/-- Its address within its space. -/
def Loc.off : Loc → Nat
  | .team _ o | .spill _ _ o | .annex _ o | .dev o | .peer _ o | .curator _ o => o

/-- The start of its 32-byte row. -/
def Loc.row : Loc → Loc
  | .team t o => .team t (o / 32 * 32)
  | .spill t i o => .spill t i (o / 32 * 32)
  | .annex d o => .annex d (o / 32 * 32)
  | .dev a => .dev (a / 32 * 32)
  | .peer d a => .peer d (a / 32 * 32)
  | .curator c o => .curator c (o / 32 * 32)

/-- The machine-check source of an uncorrectable read there: 0x04 at a memory module, else 0x01 (24 R394). -/
def Loc.badSource : Loc → Nat
  | .dev _ => 4
  | _ => 1

namespace State

/-- The stored byte at a place. -/
def stored (s : State) : Loc → Byte
  | .team t o => ((s.team t).map fun x => x.tm.get o).getD 0
  | .spill t i o => ((s.group t i).map fun g => g.spill.get o).getD 0
  | .annex d o => s.annex.get (2 ^ 26 * d + o)
  | .dev a => s.dev.get a
  | .peer d a => s.peers.get (2 ^ 57 * d + a)
  | .curator c o => (s.core c).mem.get o

/-- Trained memory links, ascending (25 R404). -/
def trained (s : State) : List Nat := (List.range 48).filter fun i => bitAt (s.cfgD 3 0 0x504) i

/-- The memory link of a physical address (25 R405). -/
def linkOf (s : State) (pa : Nat) : Option Nat :=
  let l := s.trained
  if l.isEmpty then none else l[pa / 4096 % l.length]?

/-- The hub that owns a physical address (06 R117, 25 R404). -/
def hubOf (s : State) (pa : Nat) : Nat :=
  match s.linkOf pa with
  | some l => l / 24
  | none => 0

/-- The home of a device address lies on a link that has failed (25 R406). -/
def linkLost (s : State) : Loc → Bool
  | .dev pa => !s.mfailed.isEmpty && (match s.linkOf pa with
      | some l => s.mfailed.contains l
      | none => false)
  | _ => false

/-- The byte lies in a codeword that cannot be corrected, or on a failed link (24 R394, 25 R406). -/
def uncorrectable (s : State) (l : Loc) : Bool :=
  s.linkLost l || s.badRows.any fun r => r.row == l.row && r.b == (l.off % 2 == 1)

/-- The byte that a read receives: zero where the row is uncorrectable (24 R394). -/
def byteAt (s : State) (l : Loc) : Byte := if s.uncorrectable l then 0 else s.stored l

/-- n bytes from a place. -/
def bytesAt (s : State) (l : Loc) : Nat → List Byte
  | 0 => []
  | n + 1 => s.byteAt l :: s.bytesAt (l.plus 1) n

/-- Their little-endian number (00 R10). -/
def numAt (s : State) (l : Loc) (n : Nat) : Nat := natOfBytes (s.bytesAt l n)

/-- A 32-bit word at a place. -/
def wordAt (s : State) (l : Loc) : Word := BitVec.ofNat 32 (s.numAt l 4)

/-- Store one byte; on a failed link it is dropped (25 R406). -/
def setByte (s : State) (l : Loc) (b : Byte) : State :=
  if s.linkLost l then s
  else match l with
  | .team t o => s.mapTeam t fun x => { x with tm := x.tm.set o b }
  | .spill t i o => s.mapGroup t i fun g => { g with spill := g.spill.set o b }
  | .annex d o => { s with annex := s.annex.set (2 ^ 26 * d + o) b }
  | .dev a => { s with dev := s.dev.set a b }
  | .peer d a => { s with peers := s.peers.set (2 ^ 57 * d + a) b }
  | .curator c o => s.mapCore c fun x => { x with mem := x.mem.set o b }

/-- Store bytes from a place upward. -/
def setBytesRaw (s : State) (l : Loc) : List Byte → State
  | [] => s
  | b :: r => (s.setByte l b).setBytesRaw (l.plus 1) r

/-- The bytes of a row that n bytes from l on lie in. -/
def rowHit (l : Loc) (n : Nat) (row : Loc) : BitVec 32 :=
  (List.range n).foldl (fun m i => if (l.plus i).row == row then m ||| (1#32 <<< ((l.plus i).off % 32)) else m) 0

/-- Bytes have been written: a row of which the operation under way has now written all 32 is correct again (24 R394). -/
def freshRows (s : State) (l : Loc) (n : Nat) : State :=
  if s.badRows.isEmpty && s.symErrs.isEmpty then s
  else
    let symHit (e : SymErr) : BitVec 32 := match e.row with
      | .mem r => rowHit l n r
      | _ => 0
    { s with badRows := (s.badRows.map fun (r : BadRow) => { r with fill := r.fill ||| rowHit l n r.row }).filter fun r => r.fill != BitVec.allOnes 32,
             symErrs := (s.symErrs.map fun (e : SymErr) => { e with fill := e.fill ||| symHit e }).filter fun e => e.fill != BitVec.allOnes 32 }

/-- A new operation begins: no byte of a row has been written by it. -/
def openRows (s : State) : State :=
  if s.badRows.isEmpty && s.symErrs.isEmpty then s
  else { s with badRows := s.badRows.map fun (r : BadRow) => { r with fill := 0 }, symErrs := s.symErrs.map fun (e : SymErr) => { e with fill := 0 } }

/-- wcnt's condition: the signed distance from the target (08 R165). -/
def cntHolds (w target : Word) : Bool := decide ((w - target).toNat < 2 ^ 31)

/-- A write performed at its home in device memory is checked against the hub's watches (08 R166): waiting groups that it
satisfies are ready past their word, counter symbols and dependent grids see it. Polling waits are left to their re-check; a write that is lost
with its link satisfies none (25 R406). -/
def checkWatches (s : State) (pa n : Nat) : State :=
  let hit (a : Nat) : Bool := decide (a < pa + n) && decide (pa < a + 4) && !s.linkLost (.dev a)
  let s := s.groups.foldl (fun s e =>
    match e.2.wait with
    | some (.wadr _ a old false) =>
        if hit a && s.wordAt (.dev a) != old then { s with groups := s.groups.set e.1 ({ e.2 with wait := none }.advance 4) } else s
    | some (.wcnt _ a v false) =>
        if hit a && cntHolds (s.wordAt (.dev a)) v then { s with groups := s.groups.set e.1 ({ e.2 with wait := none }.advance 4) } else s
    | _ => s) s
  let s := s.teams.foldl (fun s e =>
    if e.2.syms.isEmpty then s
    else { s with teams := s.teams.set e.1 { e.2 with syms := e.2.syms.map fun y => match y.2.src with
      | .counter _ a v _ _ false => if hit a && cntHolds (s.wordAt (.dev a)) v then (y.1, { y.2 with met := true }) else y
      | _ => y } }) s
  s.grids.foldl (fun s e =>
    match e.2.depPa with
    | some a =>
        if hit a && !e.2.depMet && !e.2.depPoll && decide (fieldAt e.2.record.toNat 512 32 ≤ (s.wordAt (.dev a)).toNat)
        then { s with grids := s.grids.set e.1 { e.2 with depMet := true } } else s
    | none => s) s

/-- Perform a store at its home. -/
def setBytes (s : State) (l : Loc) (bs : List Byte) : State :=
  let s := (s.setBytesRaw l bs).freshRows l bs.length
  match l with
  | .dev a => s.checkWatches a bs.length
  | _ => s

/-- Store the n low bytes of a number. -/
def setNum (s : State) (l : Loc) (n x : Nat) : State := s.setBytes l (bytesOfNat n x)

/-- The address of a place as a machine-check record names it (24 R395). -/
def mcAddr : Loc → Nat
  | .team _ o => 1 * 2 ^ 60 + o
  | .spill _ _ o => 1 * 2 ^ 60 + o
  | .annex _ o => 2 * 2 ^ 60 + o
  | .dev a => 3 * 2 ^ 60 + a
  | .peer _ a => a
  | .curator _ o => 15 * 2 ^ 60 + o

/-- The stripe group of a row (24 R392): structures 0 team memory, 1 annex, 2 vector registers, 3 accumulators, 4 profile store. A team's
spill stacks lie in its core's team memory. No group where the structure is not of R392's table. -/
def stripeOf (s : State) (r : Row) : Option Stripe :=
  let coreG (c str n k : Nat) : Stripe := ⟨c / 12, c, 0, str, Config.stripe k % n⟩
  match r with
  | .mem (.team t o) => (s.team t).map fun x => coreG (if x.paired && decide (x.tmSize / 2 ≤ o) then x.core + 1 else x.core) 0 8 (o / 32)
  | .mem (.spill t i o) => (s.group t i).map fun g => coreG g.core 0 8 (2 ^ 20 + o / 32)
  | .mem (.annex d o) => some ⟨d, 127, 0, 1, Config.stripe (o / 32) % 64⟩
  | .vreg t i r k => (s.group t i).map fun g => ⟨g.core / 12, g.core, g.slot / 8, 2, Config.stripe (12 * r + k) % 2⟩
  | .acc c _ k => some ⟨c / 12, c, 8 * k / 192 / 64, 3, 0⟩
  | .prof t _ _ => (s.team t).map fun x => ⟨x.core / 12, x.core, 0, 4, 0⟩
  | .mem _ => none

/-- The stripe group and the quadrant that a record gives for a row: the quadrant is that of the row's bank, else `q` (24 R395; log 83). -/
def stripeNo (s : State) (r : Option Row) : Nat := ((r.bind s.stripeOf).map (·.grp)).getD 2047
def quadNo (s : State) (r : Option Row) (q : Nat) : Nat :=
  match r.bind s.stripeOf with
  | some x => if x.str = 2 || x.str = 3 then x.quad else q
  | none => q

/-- The record of an uncorrectable read of a row, and the halt of the reading team, whose group is named where one reads; a Curator's read
raises its machine check (24 R394, R395, 22 R345). The quadrant is that of the row's bank, else that of the reading group (log 83). -/
def readBad (s : State) (source faddr core : Nat) (row : Option Row) (who : Option (Nat × Option Nat)) : State :=
  let g := who.bind fun w => w.2.bind (s.group w.1)
  let s := s.machineCheck { source := source, die := core / 12, core := core, faddr := faddr, halted := who.isSome,
                            team := ((who.bind fun w => (s.team w.1).map (·.id))).getD 0xFFFFFFFF, grp := (g.map (·.idx)).getD 0,
                            quad := s.quadNo row ((g.map fun g => g.slot / 8).getD 0), sgrp := s.stripeNo row }
  match who with
  | some w => s.haltTeam w.1 none
  | none => s.raiseCurator core 0

/-- What a read of n bytes does beside answering (24 R394): an uncorrectable byte records source 0x01, or 0x04 at a memory module. -/
def noteRead (s : State) (l : Loc) (n : Nat) (core : Nat) (who : Option (Nat × Option Nat)) : State :=
  if s.badRows.isEmpty && s.mfailed.isEmpty then s
  else match (List.range n).find? fun i => s.uncorrectable (l.plus i) with
  | none => s
  | some i =>
    s.readBad l.badSource (mcAddr (l.plus i)) core (some (.mem (l.plus i).row)) who

/-- The same of a hub's own read, which has no team: only the record, in the log of die 0, or of the die whose annex is read (log 29). -/
def noteHubRead (s : State) (l : Loc) (n : Nat) : State :=
  if s.badRows.isEmpty && s.mfailed.isEmpty then s
  else match (List.range n).find? fun i => s.uncorrectable (l.plus i) with
  | none => s
  | some i => s.machineCheck { source := l.badSource, die := (match l with | .annex d _ => d | _ => 0), faddr := mcAddr (l.plus i),
                               sgrp := s.stripeNo (some (.mem (l.plus i).row)) }

/-- Group i of a team reads vector registers `rs`: one with a row that cannot be corrected records the read and halts the team; the row's
bytes read zero already (24 R394). -/
def noteRegs (s : State) (t i : Nat) (rs : List Nat) : State :=
  match s.group t i with
  | some g => match g.badV.find? fun e => e.bad && rs.contains e.reg with
    | some e => s.readBad 1 (15 * 2 ^ 60) g.core (some (.vreg t i e.reg e.row)) (some (t, some i))
    | none => s
  | none => s

/-! ### Team memory and annex windows (05 R92, R93) -/

/-- The annex window of a team's grid: base and size in bytes. -/
def window (s : State) (t : Nat) : Nat × Nat :=
  match s.gridOf t with
  | some g => (g.awBase, g.awSize)
  | none => (0, 0)

/-- The limit of a space for the issuing agent: team memory as declared, the grid's window; a Curator's private memory and the
whole annex (22 R345). -/
def limit (s : State) (ax : Bool) : Nat :=
  match s.cur with
  | some (.group t _) => if ax then (s.window t).2 else ((s.team t).map (·.tmSize)).getD 0
  | some (.curator _) => if ax then 2 ^ 26 else 2 ^ 18
  | none => 0

/-- The place of an offset of a space, for an agent. -/
def place (s : State) (a : Agent) (ax : Bool) (off : Nat) : Loc :=
  match a with
  | .group t i =>
    if ax then .annex (((s.group t i).map (·.core)).getD 0 / 12) ((s.window t).1 + off) else .team t off
  | .curator c => if ax then .annex (c / 12) off else .curator c off

/-- The same for the issuing agent. -/
def placeNow (s : State) (ax : Bool) (off : Nat) : Loc :=
  match s.cur with
  | some a => s.place a ax off
  | none => .curator 0 off

/-- The core of the issuing agent, and its team. -/
def coreNow (s : State) : Nat :=
  match s.cur with
  | some (.group t i) => ((s.group t i).map (·.core)).getD 0
  | some (.curator c) => c
  | none => 0
def teamNow (s : State) : Option Nat :=
  match s.cur with
  | some (.group t _) => some t
  | _ => none

/-- faddr of a fault in a space of the group's (22 R348). -/
def faddrOf (ax : Bool) (off : Nat) : Nat := (if ax then 2 else 1) * 2 ^ 60 + off % 2 ^ 60

/-! ### Release of a fault record's waiting place -/

/-- A slot of a core's queue has come free: the oldest waiting record takes it. -/
def fillQueue (s : State) (core : Nat) : State :=
  let c := s.core core
  match c.fqWait with
  | [] => s
  | r :: rest =>
    let (n, s) := s.draw
    match (if fqcnt c < 64 then fqSlot c n else none) with
    | some q => s.putCore core { c with fq := c.fq.set q r, fqWait := rest }
    | none => s

end State

end Sys2Proof.Machine
end

