-- ==== Sys2Proof/Machine/Translate.lean ====
section
/-! DEFINITION. Translation of device addresses (24 R387-R391): walks, caches, the fault service queue. -/

namespace Sys2Proof.Machine

open Sys2Proof

namespace State

/-- One table entry as read at its home (24 R387): none when a byte of it cannot be corrected, which counts as invalid (24 R394). -/
def tableEntry (s : State) (a : Nat) : Option Nat :=
  if (List.range 8).any fun i => s.uncorrectable (.dev (a + i)) then none else some (s.numAt (.dev a) 8)

/-- The kind writes; the kind is a peer's (24 R388). -/
def kindWrites : Kind → Bool
  | .write | .peerWrite => true
  | _ => false
def kindPeer : Kind → Bool
  | .peerRead | .peerWrite => true
  | _ => false

/-- Shift and width of the index at a level (24 R388). -/
def levelShift : Nat → Nat × Nat
  | 3 => (43, 14)
  | 2 => (30, 13)
  | 1 => (21, 9)
  | _ => (16, 5)

/-- The levels of a walk from the table at t downward; n counts the levels left below, so the level is n (24 R388). -/
def walkFrom (s : State) (p : Nat) (kind : Kind) (va : Nat) : Nat → Nat → Option Tlb
  | n, t =>
    let (sh, w) := levelShift n
    match s.tableEntry (t + 8 * fieldAt va sh w) with
    | none => none
    | some e =>
      let fr := e / 2 ^ 8 % 2 ^ 35 * 2 ^ 8
      if e % 2 == 0 || fieldAt e 43 21 != 0 || fieldAt e 4 4 != 0 then none
      else if bitAt e 1 then
        let size := 2 ^ sh
        let pa := fr + va % size
        if n = 3 || fr % size != 0 || decide (fr < s.cfgD 2 p 0x010) || decide (s.cfgD 2 p 0x018 < fr + size) then none
        else if (kindWrites kind && !bitAt e 2) || (kindPeer kind && !bitAt e 3) then none
        else some ⟨0, va - va % size, size, pa - va % size, bitAt e 2, bitAt e 3⟩
      else match n with
        | 0 => none
        | m + 1 => if fr % (8 * 2 ^ (levelShift m).2) != 0 then none else walkFrom s p kind va m fr

/-- A whole walk (24 R388): the leaf, or none where the walk faults. -/
def walkTable (s : State) (p asid : Nat) (kind : Kind) (va : Nat) : Option Tlb :=
  if fieldAt (s.cfgW 2 p 0x00C).toNat 0 13 ≤ asid then none
  else match s.tableEntry (s.cfgD 2 p 0x004 + 8 * asid) with
  | none => none
  | some r => if r % 2 == 0 then none else (s.walkFrom p kind va 3 (r / 2 ^ 17 % 2 ^ 26 * 2 ^ 17)).map fun e => { e with asid := asid }

/-- A cached leaf serves the access. -/
def tlbHit (e : Tlb) (asid : Nat) (kind : Kind) (va : Nat) : Bool :=
  e.asid == asid && decide (e.base ≤ va) && decide (va < e.base + e.size) && (!kindWrites kind || e.w) && (!kindPeer kind || e.p)

/-- The entries that a walk reads, to the first that cannot be read or leads no further (24 R388, R394). -/
def walkReads (s : State) (va : Nat) : Nat → Nat → List Nat
  | n, t =>
    let a := t + 8 * fieldAt va (levelShift n).1 (levelShift n).2
    a :: match s.tableEntry a, n with
      | some e, m + 1 => if e % 2 == 0 || bitAt e 1 then [] else walkReads s va m (e / 2 ^ 8 % 2 ^ 35 * 2 ^ 8)
      | _, _ => []

/-- Entries of a walk that cannot be corrected. -/
def walkBad (s : State) (p asid va : Nat) : List Nat :=
  if s.badRows.isEmpty && s.mfailed.isEmpty then []
  else
    let a := s.cfgD 2 p 0x004 + 8 * asid
    (a :: match s.tableEntry a with
      | some r => if r % 2 == 0 then [] else s.walkReads va 3 (r / 2 ^ 17 % 2 ^ 26 * 2 ^ 17)
      | none => []).filter fun a => (s.tableEntry a).isNone

/-- The hub whose cache serves a hub's access to a page; the spec does not say which (log 62). -/
def hubSide (va : Nat) : Nat := Config.hubFor (va / 65536) % 2

/-- The cache that an access uses: a core's, or a hub's (24 R389). -/
def tlbOf (s : State) (core : Option Nat) (va : Nat) : List Tlb :=
  match core with
  | some c => (s.core c).tlb
  | none => if hubSide va = 0 then s.hubTlb else s.hubTlb1

/-- The address space by which a cache names an entry: the hubs serve every partition, so theirs carries the partition too. -/
def tlbSpace (core : Option Nat) (p asid : Nat) : Nat := if core.isNone then 4096 * p + asid else asid

/-- What translating answers. -/
inductive Xlat where
  | ok (pa : Nat)
  | wait (s : State)      -- a walk has been asked for: the access waits
  | bad (s : State)       -- the service could not resolve it (24 R390)

/-- The same address space and page: such requests of one cache share a walk (24 R389). -/
def samePage (w : Walk) (asid va : Nat) : Bool := w.asid == asid && w.va / 65536 == va / 65536

/-- The same space, page and kind: such requests share a service slot (24 R390). -/
def sameReq (w : Walk) (asid : Nat) (kind : Kind) (va : Nat) : Bool := samePage w asid va && w.kind == kind

/-- Translate one address for an access: through the cache; where it misses, a walk is joined or asked for and the access
waits; an unresolved fault is reported once (24 R388-R390). -/
def translate (s : State) (who : Req) (core : Option Nat) (p asid : Nat) (kind : Kind) (va : Nat) : Xlat :=
  match (s.tlbOf core va).find? fun e => tlbHit e (tlbSpace core p asid) kind va with
  | some e => .ok (e.pa + (va - e.base))
  | none =>
    let x := s.part p
    if x.bad.any fun b => b.1 == who && sameReq b.2 asid kind va then
      .bad (s.putPart p { x with bad := x.bad.filter fun b => !(b.1 == who && sameReq b.2 asid kind va) })
    else
      let join (w : Walk) : Walk :=
        if sameReq w asid kind va && w.core == core && !w.who.contains who then { w with who := w.who ++ [who] } else w
      let here (w : Walk) : Bool := sameReq w asid kind va && w.core == core
      if x.walks.any here || x.served.any (·.any here) then
        .wait (s.putPart p { x with walks := x.walks.map join, served := x.served.map (·.map join) })
      else .wait (s.putPart p { x with walks := x.walks ++ [⟨asid, va, kind, core, [who]⟩] })

/-- Put a leaf into a cache of at most n entries; replacement is not architected (24 R389): `v` says which entry of a full
cache goes. -/
def cacheLeaf (l : List Tlb) (n v : Nat) (e : Tlb) : List Tlb :=
  let l := l.filter fun x => !(x.asid == e.asid && x.base == e.base && x.size == e.size)
  (if l.length < n then l else l.eraseIdx (v % l.length)) ++ [e]

/-- A faulting walk joins the slot of its space, page and kind that is pending, or is filed with the translation service queue (24 R390): the
slot, then P; with htrans the host is signalled. -/
def fileService (s : State) (p : Nat) (w : Walk) : State :=
  let x := s.part p
  let same (l : List Walk) : Bool := l.any fun v => sameReq v w.asid w.kind w.va
  if x.served.any same then s.putPart p { x with served := x.served.map fun l => if same l then l ++ [w] else l }
  else
    let q := s.cfgD 2 p 0x020
    let a := q + 32 * (x.svcP.toNat % 256)
    let kind : Nat := match w.kind with
      | .read => 0 | .write => 1 | .peerRead => 2 | .peerWrite => 3 | .fetch => 4
    let die : Nat := match w.core with
      | some c => c / 12
      | none => 0xFF
    let s := s.putPart p { x with svcP := x.svcP + 1, served := x.served ++ [[w]] }
    let s := s.setBytes (.dev a) (bytesOfNat 8 w.va ++ bytesOfNat 2 w.asid ++ [BitVec.ofNat 8 kind, 0] ++ bytesOfNat 4 die ++
      bytesOfNat 16 0)
    let s := s.setNum (.dev (q + 0x2000)) 4 (x.svcP + 1).toNat
    if bitAt (s.cfgW 2 p 0x100).toNat 1 then s.msix 0 else s

/-- The team and group that a requester of a walk belongs to. -/
def reqTeam (s : State) : Req → Option (Nat × Option Nat)
  | .group t i => some (t, some i)
  | .op h => (s.ops.get h).map fun o => (o.tid, some o.idx)
  | _ => none

/-- What a walk does beside answering (24 R394): an entry that cannot be corrected records source 0x04, and its requesters' teams halt. -/
def noteWalk (s : State) (p : Nat) (w : Walk) : State :=
  (s.walkBad p w.asid w.va).foldl (fun s a =>
    match w.who.filterMap s.reqTeam with
    | [] => match w.core with
      | some c => s.machineCheck { source := 4, die := c / 12, core := c, faddr := mcAddr (.dev a) }
      | none => s.machineCheck { source := 4, die := 0, faddr := mcAddr (.dev a) }
    | t :: ts => ts.foldl (fun s t => s.haltTeam t.1 none) (s.readBad 4 (mcAddr (.dev a)) (w.core.getD 0) none (some t))) s

/-- A walk has read its leaf: a cache takes it, or its request is filed for service (24 R388-R390). -/
def walkOne (s : State) (p : Nat) (w : Walk) : State :=
  match s.walkTable p w.asid w.kind w.va with
  | some e =>
    let (n, s) := s.draw
    match w.core with
    | some c => s.mapCore c fun k => { k with tlb := cacheLeaf k.tlb 4096 (Config.pick n) e }
    | none =>
      let e := { e with asid := tlbSpace none p e.asid }
      if hubSide w.va = 0 then { s with hubTlb := cacheLeaf s.hubTlb 8192 (Config.pick n) e }
      else { s with hubTlb1 := cacheLeaf s.hubTlb1 8192 (Config.pick n) e }
  | none => s.fileService p w

/-- One walk of partition p is served by a walker: the oldest request that can go on, with every other of its cache for the same space and
page, whatever its kind (24 R389). A walk that faults waits while 256 requests are pending in the service queue (24 R390). -/
def walkStep (s : State) (p : Nat) : State :=
  let x := s.part p
  let may (w : Walk) : Bool := x.served.length < 256 || (s.walkTable p w.asid w.kind w.va).isSome || x.served.any (·.any fun v => sameReq v w.asid w.kind w.va)
  match x.walks.find? may with
  | none => s
  | some w =>
    let with' (v : Walk) : Bool := v == w || (v.core == w.core && samePage v w.asid w.va && (s.walkTable p v.asid v.kind v.va).isSome)
    let ws := x.walks.filter with'
    let s := (s.putPart p { x with walks := x.walks.filter fun v => !with' v }).noteWalk p { w with who := ws.flatMap (·.who) }
    ws.foldl (fun s v => s.walkOne p v) s

/-- The hub acts on the next slot that the service agent has passed (24 R390): resolved, the walks run again; unresolved, each
requester is told. A status other than these walks again (log 17). -/
def serviceStep (s : State) (p : Nat) : State :=
  let x := s.part p
  let q := s.cfgD 2 p 0x020
  let s := s.noteHubRead (.dev (q + 0x2004)) 4
  if s.wordAt (.dev (q + 0x2004)) = x.svcC then s
  else match x.served with
  | [] => s
  | l :: r =>
    let st := s.numAt (.dev (q + 32 * (x.svcC.toNat % 256) + 11)) 1
    let s := s.noteHubRead (.dev (q + 32 * (x.svcC.toNat % 256) + 11)) 1
    let x := { x with served := r, svcC := x.svcC + 1 }
    if st = 2 then s.putPart p { x with bad := x.bad ++ l.flatMap fun w => w.who.map fun u => (u, w) }
    else s.putPart p { x with walks := x.walks ++ l }

/-- Remove the entries that a `tinv` names from a cache (22 R363). -/
def tlbDrop (mode : Nat) (asid va : Nat) (l : List Tlb) : List Tlb :=
  l.filter fun e => match mode with
    | 0 => !(decide (e.base ≤ va) && decide (va < e.base + e.size))
    | 1 => e.asid % 4096 != asid
    | _ => false

/-- The partition of a core. -/
def partOf (s : State) (core : Nat) : Nat := s.diePart (core / 12)

/-- Translate for a group's own access. -/
def translateNow (s : State) (t i : Nat) (kind : Kind) (va : Nat) : Xlat :=
  let core := ((s.group t i).map (·.core)).getD 0
  s.translate (.group t i) (some core) (s.partOf core) (((s.gridOf t).map (·.asid)).getD 0) kind va

end State

end Sys2Proof.Machine
end

