-- ==== Sys2Proof/Machine/Operands.lean ====
section
/-! DEFINITION. Operands of lane words: effect mask (02 R47), value(v, l) with deferred registers (10 R187-R193), operand b
(12 R220), packed elements (14 R270), and the one frame in which every lane word issues: register checks, interlocks, parking
on symbols, the arithmetic condition, writing results (14 R271, R272). -/

namespace Sys2Proof.Machine

open Sys2Proof

/-! ### Parking (01 R38) and team deadlock (01 R40) -/

namespace State

/-- An engine operation (01 R37, 22 R324): not a load or an SFU word, which are the core's. -/
def engineOp : OpKind → Bool
  | .load | .sfu _ _ _ _ => false
  | _ => true

/-- Every group of the team that has not ended is parked on a barrier slot of the team or on the sidecar, and no engine operation and
no tracker entry of the team is outstanding. -/
def deadlocked (s : State) (t : Nat) : Bool :=
  let gs := (s.groupsOf t).filter fun g => !g.ended
  !gs.isEmpty && (gs.all fun g => match g.wait with
    | some (.slot _ _) | some .sidecar => true
    | _ => false) && !(s.ops.any fun e => e.2.tid == t && engineOp e.2.kind) && !(s.trackers.any fun e => e.tid == t)

/-- The core raises the team-deadlock fault (01 R40); the record names one of the groups that have not ended, drawn (log 18). -/
def checkDeadlock (s : State) (t : Nat) : State :=
  if s.deadlocked t then
    let (n, s) := s.draw
    let gs := (s.groupsOf t).filter fun g => !g.ended
    match gs[Config.pick n % gs.length]? with
    | some g => s.raiseGroup t g.idx .teamDeadlock {}
    | none => s
  else s

/-- Park a group with a wait record. The SPC, or the run state, stays on the waiting word. -/
def park (s : State) (t i : Nat) (w : Wait) : State :=
  (s.mapGroup t i fun g => { g with wait := some w }).checkDeadlock t

end State

namespace Group

/-- The lanes in which a lane word takes effect (02 R47); lanes that a verdict cancelled do not (22 R351). -/
def effect (g : Group) (w : LaneWord) : LaneMask :=
  let k : LaneMask := if w.pred.toNat = 31 then BitVec.allOnes 96 else if w.neg then ~~~(g.k.get w.pred.toNat) else g.k.get w.pred.toNat
  g.liveMask &&& g.mask true &&& k &&& ~~~g.cancel

/-- The word reads operand b from a scalar register (12 R220). -/
def bScalar (w : LaneWord) : List Nat := if w.bsrc = 2 then [w.ext.toNat % 128] else []
/-- The vector register of operand b, if it is one. -/
def bReg (w : LaneWord) : List Nat := if w.bsrc = 0 then [w.vb.toNat] else []

/-- b[l] (12 R241): register, immediate, or broadcast scalar. -/
def opB (g : Group) (x : Nat → Option Word) (w : LaneWord) (l : Nat) : Word :=
  if w.bsrc = 1 then w.ext
  else if w.bsrc = 2 then g.readS true (w.ext.toNat % 128)
  else g.value true x w.vb.toNat l

/-- A register number at or above the budget (03 R60, 12 R221). -/
def badReg (g : Group) (rs : List Nat) : Bool := rs.any fun r => decide (32 * g.blocks ≤ r)

/-- A lane word must wait for a register, or for the mask (02 R46, R53). -/
def laneBlocked (g : Group) (vs ss : List Nat) : Bool :=
  (vs.any fun r => g.blocked true (.v r)) || ([125, 126, 127] ++ ss).any fun r => r != 0 && g.blocked true (.s r)

end Group

/-! ### Packed elements (14 R270) -/

/-- Bits per element of a lane type (12 R218). -/
def tyWidth (ty : Nat) : Nat :=
  match ty with
  | 1 | 2 | 5 | 6 | 11 => 16
  | 7 | 8 | 10 => 8
  | 9 => 4
  | _ => 32

/-- The elements of a type are signed. -/
def tySigned (ty : Nat) : Bool := [3, 5, 7, 9].contains ty

/-- The float format of a lane type. -/
def tyFmt (ty : Nat) : FFmt := if ty = 1 then .bf16 else if ty = 2 then .fp16 else .fp32

/-- Element i of a lane, of w bits. -/
def elem (w : Nat) (x : Word) (i : Nat) : Nat := x.toNat / 2 ^ (w * i) % 2 ^ w

/-- The elements of a lane put together. -/
def packElems (w : Nat) (es : List Nat) : Word :=
  BitVec.ofNat 32 ((es.zipIdx.map fun e => e.1 % 2 ^ w * 2 ^ (w * e.2)).foldl (· + ·) 0)

/-- Compute element by element: each answers its bits and flags. -/
def mapElems (w : Nat) (f : Nat → Nat × AFlags) : Word × AFlags :=
  let rs := (List.range (32 / w)).map f
  (packElems w (rs.map (·.1)), rs.foldl (fun a r => a ||| r.2) 0)

/-! ### The frame of a lane word -/

/-- What a lane word does once it issues: vector results by register, a predicate result, flags, and what else it changes in the
group (a count). -/
structure LaneOut where
  vs    : List (Nat × (Nat → Word)) := []
  ks    : List (Nat × LaneMask) := []
  flags : AFlags := 0
  upd   : Group → Group := id

/-- What a lane word sees when it issues. -/
structure LaneIn where
  g   : Group
  eff : LaneMask
  x   : Nat → Option Word           -- symbol values
  rd  : Nat → Nat → Word            -- value(v, l)
  b   : Nat → Word                  -- b[l]

namespace State

/-- A group waits to issue for its own synchronous operation: an SFU word while the arithmetic handler can be entered, a profile
word that may enter its handler (11 R211, 14 R282). -/
def syncWait (s : State) (t i : Nat) : Bool :=
  s.ops.any fun e => e.2.tid == t && e.2.idx == i && (match e.2.kind with
    | .sfu _ _ _ _ => ((s.group t i).map fun g => g.canEnter .arith).getD false
    | .prof _ _ sync => sync
    | _ => false)

/-- A word that has read a row of a vector register that cannot be corrected has issued: the read is recorded, the team halts, and the word
completes in every other respect (24 R394). -/
def notingRegs (s0 : State) (t i r k : Nat) : Out → Out
  | .next s => .next (if ((s.group t i).map (·.moved)).getD false || s.handles != s0.handles then
      s.readBad 1 (15 * 2 ^ 60) (((s.group t i).map (·.core)).getD 0) (some (.vreg t i r k)) (some (t, some i)) else s)
  | o => o

/-- The same where it reads the registers rs. -/
def readingRegs (s : State) (t i : Nat) (g : Group) (rs : List Nat) (o : Out) : Out :=
  match g.badV.find? fun e => e.bad && rs.contains e.reg with
  | some e => s.notingRegs t i e.reg e.row o
  | none => o

/-- Issue a lane word that reads the vector registers rd as values, reads scalar registers ss and writes the vector registers dst:
the entry's own illegal-field check, illegal-register, the entry's other checks, then interlocks, then the symbols it must have; the word has no effect
before (12 R226, 02 R53, 10 R193). `wide`: the word acts in every live lane. A word that opens a 17th window reads its registers with
the oldest window closed (02 R54); one that acts in no lane opens none. -/
def laneIssue (s : State) (w : LaneWord) (wide : Bool) (rd dst ss : List Nat) (chk : Group → Option FaultCode)
    (k : Nat → Nat → LaneIn → Out) : Out :=
  s.byGroup fun t i g =>
    let c := chk g
    let eff := if wide then g.liveMask &&& ~~~g.cancel else g.effect w
    let g := g.makeRoom true (if eff = 0 then 0 else w.la.toNat)
    if c = some .illegalField then .next (s.raiseNow .illegalField)
    else if g.badReg (rd ++ dst) then .next (s.raiseNow .illegalRegister)
    else match c with
    | some c => .next (s.raiseNow c)
    | none =>
      if g.laneBlocked (rd ++ dst) ss then .next s
      else
        let x := s.symX t
        match g.pendingSym true x (rd ++ g.kept eff dst) with
        | some y => .next (s.park t i (.sym y))
        | none => s.readingRegs t i g (rd ++ g.kept eff dst) (k t i ⟨g, eff, x, g.value true x, g.opB x w⟩)

/-- Write what a lane word answers into the group (14 R271: results are concrete). -/
def laneWrite (i : LaneIn) (o : LaneOut) : Group :=
  let g := o.vs.foldl (fun g r => g.writeVal true i.x r.1 i.eff r.2) i.g
  let g := o.ks.foldl (fun g r => { g with k := g.k.set r.1 ((r.2 &&& i.eff) ||| (g.k.get r.1 &&& ~~~i.eff)) }) g
  o.upd (g.setFlags o.flags)

/-- A lane word's results at once, or the arithmetic condition's handler (14 R272): then the flags only. -/
def laneFinish (s : State) (t n : Nat) (i : LaneIn) (o : LaneOut) : State :=
  if i.g.newFlags o.flags && i.g.canEnter .arith && i.g.reissue != some .arith then
    (s.drainSfu t n).mapGroup t n fun g => (g.setFlags o.flags).enterHandler .arith
  else s.putGroup t n (laneWrite i o).laneDone

/-- An ordinary lane word: all its reads, then all its writes. -/
def laneWord (s : State) (w : LaneWord) (rd dst ss : List Nat) (chk : Group → Option FaultCode) (f : LaneIn → LaneOut) : Out :=
  s.laneIssue w false rd dst ss chk fun t n i => .next (s.laneFinish t n i (f i))

/-- A binary or ternary arithmetic word on elements: a from va, b, c from vc when `tern` (14 R270). -/
def laneElems (s : State) (w : LaneWord) (tern : Bool) (f : Nat → Nat → Nat → Nat × AFlags) : Out :=
  let rd := w.va.toNat :: Group.bReg w ++ if tern then [w.vc.toNat] else []
  s.laneWord w rd [w.vd.toNat] (Group.bScalar w) (fun _ => none) fun i =>
    let wd := tyWidth w.ty.toNat
    let one (l : Nat) : Word × AFlags := mapElems wd fun e =>
      f (elem wd (i.rd w.va.toNat l) e) (elem wd (i.b l) e) (if tern then elem wd (i.rd w.vc.toNat l) e else 0)
    { vs := [(w.vd.toNat, fun l => (one l).1)]
      flags := (lanesOf i.eff).foldl (fun a l => a ||| (one l).2) 0 }

/-- A unary arithmetic word on elements. -/
def laneUnary (s : State) (w : LaneWord) (f : Nat → Nat × AFlags) : Out :=
  s.laneWord w [w.va.toNat] [w.vd.toNat] [] (fun _ => none) fun i =>
    let wd := tyWidth w.ty.toNat
    let one (l : Nat) : Word × AFlags := mapElems wd fun e => f (elem wd (i.rd w.va.toNat l) e)
    { vs := [(w.vd.toNat, fun l => (one l).1)]
      flags := (lanesOf i.eff).foldl (fun a l => a ||| (one l).2) 0 }

end State

end Sys2Proof.Machine
end

