-- ==== Sys2Proof/Machine/Deferred.lean ====
section
/-! DEFINITION. Transforms of deferred registers (10 R189-R192, R194). -/

namespace Sys2Proof.Machine

open Sys2Proof

namespace Group

/-- Sidecar slots that no register holds. -/
def freeSlots (g : Group) : List Nat :=
  let used := (g.tags.filter fun e => e.2.getLsbD 0).map fun e => fieldAt e.2.toNat 6 5
  (List.range 32).filter fun n => !used.contains n

/-- Write a form over symbol y into register d: the scale and offset of each live lane. In the lanes m it takes effect; in the others
a result on its way will stand as values beside it (10 R192). -/
def putForm (g : Group) (d y slot : Nat) (m : LaneMask) (f : Nat → Word × Word) : Group :=
  let g := g.claim (.v d) m
  { g with v := (lanesOf g.liveMask).foldl (fun v l => v.set (96 * d + l) (f l).2) g.v,
           pend := g.pend.map fun (p : Pend) => if p.reg == .v d then { p with form := true } else p,
           tags := g.tags.set d (mkTag y slot), scar := (lanesOf g.liveMask).foldl (fun c l => c.set (96 * slot + l) (f l).1) g.scar }

end Group

namespace State

/-- The sidecar is full (10 R194): the sticky bit, then the handler, or the group parks. -/
def sidecarFull (s : State) (t n : Nat) : State :=
  let s := s.mapGroup t n fun g => g.setSticky .deferral
  if ((s.group t n).map fun g => g.canEnter .deferral).getD false then
    (s.drainSfu t n).mapGroup t n fun g => g.enterHandler .deferral
  else s.park t n .sidecar

/-- A transform, or vlate, writes the form f over symbol y into register d where it takes effect; elsewhere d keeps its content, as
a form or as a value, and forms over two symbols meet (10 R191, R192). One that takes effect nowhere changes nothing (02 R47). -/
def writeForm (s : State) (t n : Nat) (i : LaneIn) (d y : Nat) (f : Nat → Word × Word) : Out :=
  let g := i.g
  let z := g.tagSym d
  let meet := i.eff != g.liveMask && g.deferred d && z != y
  let low := Nat.min y z
  if i.eff = 0 then .next (s.putGroup t n g.laneDone)
  else if meet && (i.x low).isNone then .next (s.park t n (.sym low))
  else if !g.deferred d && g.freeSlots.isEmpty then .next (s.sidecarFull t n)
  else
    let free := g.freeSlots
    let (k, s) := if g.deferred d then (0, s) else s.draw
    let slot := if g.deferred d then g.tagSlot d else free.getD (Config.pick k % free.length) 0
    let new (l : Nat) : Word × Word :=
      if meet && y == low then (0, formVal (f l).1 ((i.x low).getD 0) (f l).2) else f l
    let old (l : Nat) : Word × Word :=
      if g.deferred d && !(meet && z == low) then (g.scale true d l, g.readV true d l) else (0, g.value true i.x d l)
    .next (s.putGroup t n (g.putForm d (if meet then Nat.max y z else y) slot i.eff
      fun l => if i.eff.getLsbD l then new l else old l).laneDone)

/-- An operand of a transform: a register that holds a form, or a value. -/
inductive Opd where
  | form (sym r : Nat)
  | val

/-- Operand r of a transform: r is a register number. -/
def opdReg (g : Group) (r : Nat) : Opd := if g.readsForm true r then .form (g.tagSym r) r else .val
/-- Operand b. -/
def opdB (g : Group) (w : LaneWord) : Opd := if w.bsrc = 0 then opdReg g w.vb.toNat else .val

/-- The symbols of operands. -/
def opdSyms (os : List Opd) : List Nat := os.filterMap fun o => match o with
  | .form y _ => some y
  | .val => none

/-- Issue a transform on the operands `os` (10 R190): the register and mask checks of every lane word; where two symbols meet, the
lower one's operands are values, and the group parks until it is resolved (R191). `f` makes the new form of a lane from the
operands' forms: none where an operand is a value. `v` gives the operands' values. -/
def transform (s : State) (w : LaneWord) (rd ss : List Nat) (os : Group → List Opd)
    (f : (Nat → Nat → Option (Word × Word)) → LaneIn → Nat → Word × Word) : Out :=
  s.byGroup fun t n g =>
    if g.badReg (rd ++ [w.vd.toNat]) then .next (s.raiseNow .illegalRegister)
    else if g.laneBlocked (rd ++ [w.vd.toNat]) ss then .next s
    else
      let x := s.symX t
      let i : LaneIn := ⟨g, g.effect w, x, g.value true x, g.opB x w⟩
      let ys := opdSyms (os g)
      let hi := ys.foldl Nat.max 0
      let lows := ys.filter fun y => y != hi
      let low := lows.foldl Nat.min 31
      if lows.any fun y => (x y).isNone then .next (s.park t n (.sym low))
      else
        let fm (k l : Nat) : Option (Word × Word) := match (os g)[k]? with
          | some (.form y r) => if y = hi then some (g.scale true r l, g.readV true r l) else none
          | _ => none
        s.readingRegs t n g rd (s.writeForm t n i w.vd.toNat hi fun l => f fm i l)

end State

/-! ### The new form (10 R190): operand values stand for forms with scale +0 -/

def fAdd (a b : Word) : Word := (rne32 ((f32 a).add (f32 b)).1).1
def fSub (a b : Word) : Word := (rne32 ((f32 a).add (f32 b).neg).1).1
def fMul (a b : Word) : Word := (rne32 ((f32 a).mul (f32 b)).1).1
def fFma (a b c : Word) : Word := (rne32 ((f32 a).fma (f32 b) (f32 c)).1).1
/-- Sign inverted. -/
def fNeg (a : Word) : Word := a ^^^ 0x80000000

/-- vadd of forms, or of a form and a value. -/
def formAdd (fa fb : Option (Word × Word)) (a b : Word) : Word × Word :=
  match fa, fb with
  | some p, some q => (fAdd p.1 q.1, fAdd p.2 q.2)
  | some p, none => (p.1, fAdd p.2 b)
  | none, some q => (q.1, fAdd a q.2)
  | none, none => (0, fAdd a b)

/-- vsub. -/
def formSub (fa fb : Option (Word × Word)) (a b : Word) : Word × Word :=
  match fa, fb with
  | some p, some q => (fSub p.1 q.1, fSub p.2 q.2)
  | some p, none => (p.1, fSub p.2 b)
  | none, some q => (fNeg q.1, fSub a q.2)
  | none, none => (0, fSub a b)

/-- vmul of a form and a value. -/
def formMul (fa fb : Option (Word × Word)) (a b : Word) : Word × Word :=
  match fa, fb with
  | some p, _ => (fMul b p.1, fMul b p.2)
  | none, some q => (fMul a q.1, fMul a q.2)
  | none, none => (0, fMul a b)

/-- vfma: at most one of a and b is a form. -/
def formFma (fa fb fc : Option (Word × Word)) (a b c : Word) : Word × Word :=
  let pk : Option ((Word × Word) × Word) := match fa, fb with
    | some p, _ => some (p, b)
    | none, some q => some (q, a)
    | none, none => none
  match pk, fc with
  | some (p, k), some r => (fFma k p.1 r.1, fFma k p.2 r.2)
  | some (p, k), none => (fMul k p.1, fFma k p.2 c)
  | none, some r => (r.1, fFma a b r.2)
  | none, none => (0, fFma a b c)

end Sys2Proof.Machine
end

