-- ==== Sys2Proof/Machine/ScalarInt.lean ====
section
/-! DEFINITION. Scalar integer words (13 R247-R249), for groups and Curators alike: modulo 2^32, or 2^64 for the pair forms; no flag
is set (13 R242). -/

namespace Sys2Proof.Machine

open Sys2Proof

/-- Bytes of a word that a prefix may precede (12 R216). -/
def immLen (i : Imm) : Nat := if i.pfx then 8 else 4

/-- Count of 1 bits. -/
def popCount {w : Nat} (x : BitVec w) : Nat := ((List.range w).filter fun i => x.getLsbD i).length

/-! ### The operations -/

def opAdd (a b : Word) : Word := a + b
def opSub (a b : Word) : Word := a - b
def opMul (a b : Word) : Word := a * b
def opMulh (a b : Word) : Word := (a.signExtend 64 * b.signExtend 64).extractLsb' 32 32
def opMulhu (a b : Word) : Word := (a.setWidth 64 * b.setWidth 64).extractLsb' 32 32
def opAnd (a b : Word) : Word := a &&& b
def opOr (a b : Word) : Word := a ||| b
def opXor (a b : Word) : Word := a ^^^ b
/-- A shift amount is the whole unsigned value of b (13 R247). -/
def opShl (a b : Word) : Word := if b.toNat < 32 then a <<< b.toNat else 0
def opShr (a b : Word) : Word := if b.toNat < 32 then a >>> b.toNat else 0
def opSra (a b : Word) : Word := a.sshiftRight (Nat.min b.toNat 31)
def opSlt (a b : Word) : Word := if a.toInt < b.toInt then 1 else 0
def opSltu (a b : Word) : Word := if a.toNat < b.toNat then 1 else 0
def opMin (a b : Word) : Word := if a.toInt ≤ b.toInt then a else b
def opMax (a b : Word) : Word := if a.toInt ≤ b.toInt then b else a
def opPopc (a : Word) : Word := BitVec.ofNat 32 (popCount a)
def opAdd64 (a b : DWord) : DWord := a + b
def opSub64 (a b : DWord) : DWord := a - b
def opShl64 (a : DWord) (b : Word) : DWord := if b.toNat < 64 then a <<< b.toNat else 0
def opShr64 (a : DWord) (b : Word) : DWord := if b.toNat < 64 then a >>> b.toNat else 0
def opMul64 (a b : DWord) : DWord := a * b
def opSltu64 (a b : DWord) : Word := if a.toNat < b.toNat then 1 else 0

namespace State

/-- sd := f sa sb (13 R247). -/
def alu (s : State) (d a b : SReg) (f : Word → Word → Word) : Out :=
  s.scalar [d, a, b] fun s => (s.setS d (f (s.sreg a) (s.sreg b))).advance 4

/-- sd := f sa imm (13 R248). -/
def aluImm (s : State) (d a : SReg) (v : Word) (len : Nat) (f : Word → Word → Word) : Out :=
  s.scalar [d, a] fun s => (s.setS d (f (s.sreg a) v)).advance len

/-- Pair sd := f (pair sa) (pair sb) (13 R249). -/
def aluPair (s : State) (d a b : SReg) (f : DWord → DWord → DWord) : Out :=
  s.scalarPairs [d, a, b] [] fun s => (s.setPair d (f (s.spair a) (s.spair b))).advance 4

/-- Pair sd := f (pair sa) sb, sb a single register (13 R249). -/
def aluShift64 (s : State) (d a b : SReg) (f : DWord → Word → DWord) : Out :=
  s.scalarPairs [d, a] [b] fun s => (s.setPair d (f (s.spair a) (s.sreg b))).advance 4

end State

def execAdd (d a b : SReg) (s : State) : Out := s.alu d a b opAdd
def execSub (d a b : SReg) (s : State) : Out := s.alu d a b opSub
def execMul (d a b : SReg) (s : State) : Out := s.alu d a b opMul
def execMulh (d a b : SReg) (s : State) : Out := s.alu d a b opMulh
def execMulhu (d a b : SReg) (s : State) : Out := s.alu d a b opMulhu
def execAnd (d a b : SReg) (s : State) : Out := s.alu d a b opAnd
def execOr (d a b : SReg) (s : State) : Out := s.alu d a b opOr
def execXor (d a b : SReg) (s : State) : Out := s.alu d a b opXor
def execShl (d a b : SReg) (s : State) : Out := s.alu d a b opShl
def execShr (d a b : SReg) (s : State) : Out := s.alu d a b opShr
def execSra (d a b : SReg) (s : State) : Out := s.alu d a b opSra
def execSlt (d a b : SReg) (s : State) : Out := s.alu d a b opSlt
def execSltu (d a b : SReg) (s : State) : Out := s.alu d a b opSltu
def execMin (d a b : SReg) (s : State) : Out := s.alu d a b opMin
def execMax (d a b : SReg) (s : State) : Out := s.alu d a b opMax
def execPopc (d a : SReg) (s : State) : Out := s.aluImm d a 0 4 fun x _ => opPopc x
def execAddi (d a : SReg) (i : Imm) (s : State) : Out := s.aluImm d a i.val (immLen i) opAdd
def execAndi (d a : SReg) (i : Imm) (s : State) : Out := s.aluImm d a i.val (immLen i) opAnd
def execOri (d a : SReg) (i : Imm) (s : State) : Out := s.aluImm d a i.val (immLen i) opOr
def execXori (d a : SReg) (i : Imm) (s : State) : Out := s.aluImm d a i.val (immLen i) opXor
def execShli (d a : SReg) (n : BitVec 5) (s : State) : Out := s.aluImm d a (n.setWidth 32) 4 opShl
def execShri (d a : SReg) (n : BitVec 5) (s : State) : Out := s.aluImm d a (n.setWidth 32) 4 opShr
def execSrai (d a : SReg) (n : BitVec 5) (s : State) : Out := s.aluImm d a (n.setWidth 32) 4 opSra
def execSlti (d a : SReg) (i : Imm) (s : State) : Out := s.aluImm d a i.val (immLen i) opSlt
def execSltui (d a : SReg) (i : Imm) (s : State) : Out := s.aluImm d a i.val (immLen i) opSltu
def execAdd64 (d a b : SReg) (s : State) : Out := s.aluPair d a b opAdd64
def execSub64 (d a b : SReg) (s : State) : Out := s.aluPair d a b opSub64
def execShl64 (d a b : SReg) (s : State) : Out := s.aluShift64 d a b opShl64
def execShr64 (d a b : SReg) (s : State) : Out := s.aluShift64 d a b opShr64
def execAddi64 (d a : SReg) (i : Imm) (s : State) : Out :=
  s.scalarPairs [d, a] [] fun s => (s.setPair d (opAdd64 (s.spair a) (i.val.signExtend 64))).advance (immLen i)
def execMul64 (d a b : SReg) (s : State) : Out := s.aluPair d a b opMul64
def execSltu64 (d a b : SReg) (s : State) : Out :=
  s.scalarPairs [a, b] [d] fun s => (s.setS d (opSltu64 (s.spair a) (s.spair b))).advance 4

end Sys2Proof.Machine
end

