-- ==== Sys2Proof/Machine/LaneInt.lean ====
section
/-! DEFINITION. Lane integer words (14 R273-R276). -/

namespace Sys2Proof.Machine

open Sys2Proof

/-- An element as an integer, by the signedness of its type (14 R270). -/
def elInt (ty e : Nat) : Int := if tySigned ty then sextInt e (tyWidth ty) else (e : Int)

/-- An exact integer stored mod 2^w: no flag. -/
def wrapEl (ty : Nat) (x : Int) : Nat × AFlags := (intBits (tyWidth ty) x, 0)

/-- An exact integer saturated to the type: invalid where it saturates (04 R77). -/
def satEl (ty : Nat) (x : Int) : Nat × AFlags :=
  let (v, f) := satInt (tySigned ty) (tyWidth ty) x
  (intBits (tyWidth ty) v, f)

/-- Count of leading zeros of a w-bit element. -/
def clzEl (w a : Nat) : Nat := if a = 0 then w else w - 1 - Nat.log2 a

namespace State

/-- A binary integer word: the exact result of two elements, wrapped. -/
def laneIntBin (s : State) (w : LaneWord) (f : Int → Int → Int) : Out :=
  s.laneElems w false fun a b _ => wrapEl w.ty.toNat (f (elInt w.ty.toNat a) (elInt w.ty.toNat b))

end State

def execVaddInt (w : LaneWord) (s : State) : Out := s.laneIntBin w (· + ·)
def execVsubInt (w : LaneWord) (s : State) : Out := s.laneIntBin w (· - ·)
def execVmulInt (w : LaneWord) (s : State) : Out := s.laneIntBin w (· * ·)
def execVmulh (w : LaneWord) (s : State) : Out := s.laneIntBin w fun a b => (a * b).fdiv (2 ^ tyWidth w.ty.toNat)
def execVmad (w : LaneWord) (s : State) : Out :=
  s.laneElems w true fun a b c => wrapEl w.ty.toNat (elInt w.ty.toNat a * elInt w.ty.toNat b + elInt w.ty.toNat c)
def execVabsInt (w : LaneWord) (s : State) : Out := s.laneUnary w fun a => wrapEl w.ty.toNat (elInt w.ty.toNat a).natAbs
def execVnegInt (w : LaneWord) (s : State) : Out := s.laneUnary w fun a => wrapEl w.ty.toNat (-(elInt w.ty.toNat a))
def execVminInt (w : LaneWord) (s : State) : Out := s.laneIntBin w min
def execVmaxInt (w : LaneWord) (s : State) : Out := s.laneIntBin w max
def execVadds (w : LaneWord) (s : State) : Out :=
  s.laneElems w false fun a b _ => satEl w.ty.toNat (elInt w.ty.toNat a + elInt w.ty.toNat b)
def execVsubs (w : LaneWord) (s : State) : Out :=
  s.laneElems w false fun a b _ => satEl w.ty.toNat (elInt w.ty.toNat a - elInt w.ty.toNat b)
def execVand (w : LaneWord) (s : State) : Out := s.laneElems w false fun a b _ => (a &&& b, 0)
def execVor (w : LaneWord) (s : State) : Out := s.laneElems w false fun a b _ => (a ||| b, 0)
def execVxor (w : LaneWord) (s : State) : Out := s.laneElems w false fun a b _ => (a ^^^ b, 0)
def execVnot (w : LaneWord) (s : State) : Out := s.laneUnary w fun a => (0xFFFFFFFF - a, 0)
/-- A shift by w or more gives 0 (14 R273). -/
def execVshl (w : LaneWord) (s : State) : Out :=
  s.laneElems w false fun a b _ => (if b < tyWidth w.ty.toNat then a * 2 ^ b % 2 ^ tyWidth w.ty.toNat else 0, 0)
def execVshr (w : LaneWord) (s : State) : Out :=
  s.laneElems w false fun a b _ => (if b < tyWidth w.ty.toNat then a / 2 ^ b else 0, 0)
def execVsra (w : LaneWord) (s : State) : Out :=
  s.laneElems w false fun a b _ =>
    wrapEl w.ty.toNat ((sextInt a (tyWidth w.ty.toNat)).fdiv (2 ^ Nat.min b (tyWidth w.ty.toNat - 1)))
def execVpopc (w : LaneWord) (s : State) : Out := s.laneUnary w fun a => (popCount (BitVec.ofNat 32 a), 0)
def execVclz (w : LaneWord) (s : State) : Out := s.laneUnary w fun a => (clzEl (tyWidth w.ty.toNat) a, 0)

/-! ### Bit fields (14 R274) -/

/-- Position and length of the field that b names: none when it is empty. -/
def bitField (b : Nat) : Option (Nat × Nat) :=
  let pos := b % 256
  let len := b / 256 % 256
  if 32 ≤ pos || len == 0 then none else some (pos, Nat.min len (32 - pos))

def bfx (sgn : Bool) (a b : Nat) : Nat :=
  match bitField b with
  | none => 0
  | some (p, n) => let f := fieldAt a p n; if sgn then intBits 32 (sextInt f n) else f

def bfi (a b c : Nat) : Nat :=
  match bitField b with
  | none => a
  | some (p, n) => a - fieldAt a p n * 2 ^ p + c % 2 ^ n * 2 ^ p

def execVbfx (w : LaneWord) (s : State) : Out := s.laneElems w false fun a b _ => (bfx (tySigned w.ty.toNat) a b, 0)
def execVbfi (w : LaneWord) (s : State) : Out := s.laneElems w true fun a b c => (bfi a b c, 0)

/-! ### Moves (14 R275) -/

/-- Registers of a type: 2 for .b64, 4 for .b128, else 1 (12 R218). -/
def tyRegs (ty : Nat) : Nat := if ty = 13 then 2 else if ty = 14 then 4 else 1

/-- A register that breaks the parity rule of its type (12 R218). -/
def oddReg (ty r : Nat) : Bool := r % tyRegs ty != 0

/-- A register and those after it that a type takes. -/
def regSpan (ty r : Nat) : List Nat := (List.range (tyRegs ty)).map (r + ·)

def execVmov (w : LaneWord) (s : State) : Out :=
  s.byGroup fun _ _ g =>
    if w.ty.toNat = 0 && w.bsrc == 0 && g.deferred w.vb.toNat then
      s.transform w [w.vb.toNat] [] (fun g => [State.opdB g w]) fun fm i l => (fm 0 l).getD (0, i.b l)
    else
      let n := tyRegs w.ty.toNat
      let src := if w.bsrc = 0 then regSpan w.ty.toNat w.vb.toNat else []
      s.laneWord w src (regSpan w.ty.toNat w.vd.toNat) (Group.bScalar w)
        (fun _ => if oddReg w.ty.toNat w.vd.toNat || (w.bsrc == 0 && oddReg w.ty.toNat w.vb.toNat) then some .illegalRegister else none)
        fun i => { vs := if n = 1 then [(w.vd.toNat, i.b)] else (List.range n).map fun k => (w.vd.toNat + k, i.rd (w.vb.toNat + k)) }

def execVsel (w : LaneWord) (s : State) : Out :=
  s.byGroup fun _ _ g =>
    let k := g.k.get w.vc.toNat
    if w.ty.toNat = 0 && (g.deferred w.va.toNat || (w.bsrc == 0 && g.deferred w.vb.toNat)) then
      s.transform w (w.va.toNat :: Group.bReg w) (Group.bScalar w) (fun g => [State.opdReg g w.va.toNat, State.opdB g w])
        fun fm i l => if k.getLsbD l then (fm 0 l).getD (0, i.rd w.va.toNat l) else (fm 1 l).getD (0, i.b l)
    else
      s.laneWord w (w.va.toNat :: Group.bReg w) [w.vd.toNat] (Group.bScalar w) (fun _ => none)
        fun i => { vs := [(w.vd.toNat, fun l => if k.getLsbD l then i.rd w.va.toNat l else i.b l)] }

/-! ### Comparison (14 R276, R278) -/

/-- The truth of an ordered comparison by its condition code, from a < b and a = b. -/
def ccTruth (cc : Nat) (lt eq : Bool) : Bool :=
  match cc with
  | 0 => eq
  | 1 => !eq
  | 2 => lt
  | 3 => lt || eq
  | 4 => !(lt || eq)
  | 5 => !lt
  | 6 => false
  | _ => true

namespace State

/-- A comparison that writes predicate vd. -/
def laneCmp (s : State) (w : LaneWord) (f : Word → Word → Bool × AFlags) : Out :=
  s.laneWord w (w.va.toNat :: Group.bReg w) [] (Group.bScalar w) (fun _ => none) fun i =>
    { ks := [(w.vd.toNat, maskOf ((lanesOf i.eff).filter fun l => (f (i.rd w.va.toNat l) (i.b l)).1))]
      flags := (lanesOf i.eff).foldl (fun a l => a ||| (f (i.rd w.va.toNat l) (i.b l)).2) 0 }

end State

def execVcmpInt (w : LaneWord) (s : State) : Out :=
  s.laneCmp w fun a b =>
    let x := elInt w.ty.toNat a.toNat
    let y := elInt w.ty.toNat b.toNat
    (ccTruth w.m4 (decide (x < y)) (decide (x = y)), 0)

end Sys2Proof.Machine
end

