-- ==== Sys2Proof/Machine/LaneFp.lean ====
section
/-! DEFINITION. Lane floating-point words (14 R277-R279): every rounding to nearest even, once, to the element's format. -/

namespace Sys2Proof.Machine

open Sys2Proof

/-- An exact result rounded to the type's format; `made`: a NaN arose from operands that are none (04 R79, 14 R277). -/
def fpEl (ty : Nat) (r : FVal × Bool) : Nat × AFlags :=
  let (c, f) := (tyFmt ty).narrow .rne r.1
  (c, f ||| flIf r.2 flInvalid)

/-- An element as a number. -/
def elF (ty e : Nat) : FVal := (tyFmt ty).value e

/-- The lesser or greater; a NaN operand gives NaN. -/
def pickF (f : FVal → FVal → FVal) (a b : FVal) : FVal := if a.isNan || b.isNan then .nan else f a b

namespace State

/-- A float word with operand b that is a transform when a source register is deferred. -/
def laneFp (s : State) (w : LaneWord) (tern : Bool) (isT : Group → Bool)
    (form : (Nat → Nat → Option (Word × Word)) → LaneIn → Nat → Word × Word) (f : FVal → FVal → FVal → FVal × Bool) : Out :=
  s.byGroup fun _ _ g =>
    if w.ty == 0 && isT g then
      s.transform w (w.va.toNat :: Group.bReg w ++ if tern then [w.vc.toNat] else []) (Group.bScalar w)
        (fun g => [opdReg g w.va.toNat, opdB g w] ++ if tern then [opdReg g w.vc.toNat] else []) form
    else s.laneElems w tern fun a b c => fpEl w.ty.toNat (f (elF w.ty.toNat a) (elF w.ty.toNat b) (elF w.ty.toNat c))

end State

/-- a, b or c of a word holds a form. -/
def formA (g : Group) (w : LaneWord) : Bool := g.deferred w.va.toNat
def formB (g : Group) (w : LaneWord) : Bool := w.bsrc == 0 && g.deferred w.vb.toNat
def formC (g : Group) (w : LaneWord) : Bool := g.deferred w.vc.toNat

def execVaddFp (w : LaneWord) (s : State) : Out :=
  s.laneFp w false (fun g => formA g w || formB g w)
    (fun fm i l => formAdd (fm 0 l) (fm 1 l) (i.rd w.va.toNat l) (i.b l)) fun a b _ => a.add b
def execVsubFp (w : LaneWord) (s : State) : Out :=
  s.laneFp w false (fun g => formA g w || formB g w)
    (fun fm i l => formSub (fm 0 l) (fm 1 l) (i.rd w.va.toNat l) (i.b l)) fun a b _ => a.add b.neg
/-- The product of two forms is no transform (10 R191). -/
def execVmulFp (w : LaneWord) (s : State) : Out :=
  s.laneFp w false (fun g => formA g w != formB g w)
    (fun fm i l => formMul (fm 0 l) (fm 1 l) (i.rd w.va.toNat l) (i.b l)) fun a b _ => a.mul b
def execVfma (w : LaneWord) (s : State) : Out :=
  s.laneFp w true (fun g => (formA g w || formB g w || formC g w) && !(formA g w && formB g w))
    (fun fm i l => formFma (fm 0 l) (fm 1 l) (fm 2 l) (i.rd w.va.toNat l) (i.b l) (i.rd w.vc.toNat l)) fun a b c => a.fma b c

/-- The sign bit of an element inverted: every other bit kept, no flag (14 R277). -/
def execVnegFp (w : LaneWord) (s : State) : Out :=
  s.byGroup fun _ _ g =>
    if w.ty == 0 && formA g w then
      s.transform w [w.va.toNat] [] (fun g => [State.opdReg g w.va.toNat]) fun fm i l =>
        match fm 0 l with
        | some p => (fNeg p.1, fNeg p.2)
        | none => (0, fNeg (i.rd w.va.toNat l))
    else s.laneUnary w fun a => let h := 2 ^ (tyWidth w.ty.toNat - 1); (if a < h then a + h else a - h, 0)
def execVabsFp (w : LaneWord) (s : State) : Out := s.laneUnary w fun a => (a % 2 ^ (tyWidth w.ty.toNat - 1), 0)
def execVminFp (w : LaneWord) (s : State) : Out :=
  s.laneElems w false fun a b _ => fpEl w.ty.toNat (pickF FVal.lesser (elF w.ty.toNat a) (elF w.ty.toNat b), false)
def execVmaxFp (w : LaneWord) (s : State) : Out :=
  s.laneElems w false fun a b _ => fpEl w.ty.toNat (pickF FVal.greater (elF w.ty.toNat a) (elF w.ty.toNat b), false)

/-- A float comparison (14 R278): truth and flag. -/
def cmpF (cc : Nat) (a b : Word) : Bool × AFlags :=
  let x := f32 a
  let y := f32 b
  if x.isNan || y.isNan then (cc == 1 || cc == 6, flIf (2 ≤ cc && cc ≤ 5) flInvalid)
  else (ccTruth cc (x.lt y) (x.eq y), 0)

def execVcmpFp (w : LaneWord) (s : State) : Out := s.laneCmp w (cmpF w.m4)

/-- A magnitude rounded to an integer by mode (14 R279); `neg` is the operand's sign. -/
def rndMag (mode : Nat) (neg : Bool) (m : Q) : Int :=
  let f := m.floor
  let up := if m.isInt then f else f + 1
  match mode with
  | 0 => (rneNat m : Nat)
  | 1 => f
  | 2 => if neg then up else f
  | 3 => if neg then f else up
  | _ => (m.add ⟨1, 2⟩).floor

/-- Round to an integral value of the same format; the result keeps the operand's sign; no flag (14 R279). -/
def rndEl (ty mode a : Nat) : Nat :=
  let f := tyFmt ty
  match f.value a with
  | .nan => f.nanCode
  | .inf _ => a
  | .fin sg m => (f.narrow .rne (.fin sg (Q.ofInt (rndMag mode sg m)))).1

def execVrnd (w : LaneWord) (s : State) : Out := s.laneUnary w fun a => (rndEl w.ty.toNat w.m4 a, 0)

end Sys2Proof.Machine
end

