-- ==== Sys2Proof/Machine/LaneConv.lean ====
section
/-! DEFINITION. Conversion, packing and block scaling (14 R283-R286), predicate logic (14 R287, R288). -/

namespace Sys2Proof.Machine

open Sys2Proof

/-! ### fmt (03 R68) and stochastic rounding (04 R88, R89) -/

def fmtCode (g : Group) : Nat := fieldAt g.fmt.toNat 0 8
def fmtSmode (g : Group) : Nat := fieldAt g.fmt.toNat 8 2
def fmtSr (g : Group) : Bool := bitAt g.fmt.toNat 10

/-- The key of a group's stochastic rounding. -/
def srKey (seed : DWord) (glid : Nat) : DWord := seed ^^^ BitVec.ofNat 64 (glid * 2 ^ 40)

/-- The rounding of element j of lane l of a lane conversion. -/
def laneMode (s : State) (t : Nat) (g : Group) (j l : Nat) : RMode :=
  if fmtSr g then .sr (mixer (srKey g.seed (s.glid t g.idx)) (BitVec.ofNat 64 (l + 96 * (g.convCnt.toNat + j)))) else .rne

/-- Count e conversions when rounding is stochastic. -/
def addConv (e : Nat) (g : Group) : Group := if fmtSr g then { g with convCnt := g.convCnt + BitVec.ofNat 64 e } else g

namespace State

/-- A conversion word: it needs the team for its key. -/
def laneConv (s : State) (w : LaneWord) (rd dst ss : List Nat) (chk : Group → Option FaultCode) (f : Nat → LaneIn → LaneOut) : Out :=
  s.laneIssue w false rd dst ss chk fun t n i => .next (s.laneFinish t n i (f t i))

end State

/-- One element of vcvt (14 R283): source and destination type codes. -/
def cvtEl (d sc : Nat) (md : RMode) (a : Nat) : Nat × AFlags :=
  if sc = 0 then toInt (d == 3) 32 md (FFmt.fp32.value a)
  else if d = 0 then FFmt.fp32.narrow md (.ofQ (Q.ofInt (elInt sc a)))
  else satEl d (elInt sc a)

def execVcvt (w : LaneWord) (s : State) : Out :=
  s.laneConv w [w.va.toNat] [w.vd.toNat] [] (fun _ => none) fun t i =>
    let one (l : Nat) : Nat × AFlags := cvtEl w.ty.toNat w.m4 (laneMode s t i.g 0 l) (i.rd w.va.toNat l).toNat
    { vs := [(w.vd.toNat, fun l => BitVec.ofNat 32 (one l).1)]
      flags := (lanesOf i.eff).foldl (fun a l => a ||| (one l).2) 0
      upd := if w.ty.toNat = 0 || w.m4 = 0 then addConv 1 else id }

/-- The faults of vpack and vunpk on smode (14 R284, R285). -/
def smodeFault (g : Group) (sc : Bool) : Option FaultCode :=
  if fmtSmode g = 2 || ((fmtSmode g == 1) != sc) then some .illegalOperand else none

/-- Elements per register of nfmt. -/
def packN (g : Group) : Nat := 32 / (fmtWidth (fmtCode g)).getD 32

/-- Registers r to r + n - 1. -/
def regsFrom (r n : Nat) : List Nat := (List.range n).map (r + ·)

def execVpack (w : LaneWord) (s : State) : Out :=
  s.byGroup fun _ _ g =>
    let n := packN g
    let sc := w.m4 == 1
    s.laneConv w (regsFrom w.va.toNat n ++ if sc then Group.bReg w else []) [w.vd.toNat] (if sc then Group.bScalar w else [])
      (fun g => smodeFault g sc) fun t i =>
        let one (l j : Nat) : Nat × AFlags :=
          writeBack (fmtCode i.g) (f32 (i.rd (w.va.toNat + j) l)) (if sc then some (f32 (i.b l)) else none) (f32 i.g.clip)
            (laneMode s t i.g j l)
        { vs := [(w.vd.toNat, fun l => packElems (32 / n) ((List.range n).map fun j => (one l j).1))]
          flags := (lanesOf i.eff).foldl (fun a l => (List.range n).foldl (fun a j => a ||| (one l j).2) a) 0
          upd := addConv n }

def execVunpk (w : LaneWord) (s : State) : Out :=
  s.byGroup fun _ _ g =>
    let n := packN g
    let sc := w.m4 == 1
    s.laneWord w (w.va.toNat :: if sc then Group.bReg w else []) (regsFrom w.vd.toNat n) (if sc then Group.bScalar w else [])
      (fun g => if w.ty == 3 && fmtCode g != 0x14 && fmtCode g != 0x16 then some .illegalField else smodeFault g sc) fun i =>
        let c := fmtCode i.g
        let one (l j : Nat) : Nat × AFlags :=
          let x := elem (32 / n) (i.rd w.va.toNat l) j
          if w.ty == 3 then (intBits 32 (sextInt x (32 / n)), 0)
          else if sc then
            let (p, made) := (elemValue c x).mul (f32 (i.b l))
            let (v, f) := FFmt.fp32.narrow .rne p
            (v, f ||| flIf made flInvalid)
          else FFmt.fp32.narrow .rne (elemValue c x)
        { vs := (List.range n).map fun j => (w.vd.toNat + j, fun l => BitVec.ofNat 32 (one l j).1)
          flags := (lanesOf i.eff).foldl (fun a l => (List.range n).foldl (fun a j => a ||| (one l j).2) a) 0 }

/-- vbscale (14 R286): block (j, β) is lanes 32β to 32β + 31 of register va + j. -/
def execVbscale (w : LaneWord) (s : State) : Out :=
  s.byGroup fun _ _ g =>
    let c := fmtCode g
    let bits := if c = 6 then 8 else 4
    let n := if fmtSmode g = 2 then 32 / bits else 1
    let nsc := n / 4
    s.laneConv w (regsFrom w.va.toNat n) (regsFrom w.vd.toNat (1 + nsc)) []
      (fun g => if fmtSmode g != 2 then some .illegalOperand else none) fun t i =>
        let blk (j b : Nat) : List Nat × Nat × AFlags :=
          let ls := regsFrom (32 * b) 32
          blockWriteBack c (ls.map fun l => if i.eff.getLsbD l then f32 (i.rd (w.va.toNat + j) l) else .fin false Q.zero)
            (f32 i.g.clip) (ls.map fun l => laneMode s t i.g j l) false
        let used := (List.range 3).filter fun b => (regsFrom (32 * b) 32).any fun l => i.eff.getLsbD l
        let tab : List (Nat × List (List Nat × Nat × AFlags)) := used.map fun b => (b, (List.range n).map fun j => blk j b)
        let at' (l : Nat) : List (List Nat × Nat × AFlags) := ((tab.find? fun e => e.1 == l / 32).map (·.2)).getD []
        { vs := (w.vd.toNat, fun l => packElems bits ((at' l).map fun r => r.1.getD (l % 32) 0)) ::
            (List.range nsc).map fun q => (w.vd.toNat + 1 + q, fun l => packElems 8 ((((at' l).drop (4 * q)).take 4).map fun r => r.2.1))
          flags := tab.foldl (fun a e => e.2.foldl (fun a r => a ||| r.2.2) a) 0
          upd := addConv n }

/-! ### Predicate logic -/

namespace State

/-- A predicate word: kd in the lanes that take effect. -/
def lanePred (s : State) (w : LaneWord) (f : LaneMask → LaneMask → LaneMask) : Out :=
  s.laneWord w [] [] [] (fun _ => none) fun i => { ks := [(w.vd.toNat, f (i.g.k.get w.va.toNat) (i.g.k.get w.vb.toNat))] }

end State

def execVkand (w : LaneWord) (s : State) : Out := s.lanePred w (· &&& ·)
def execVkor (w : LaneWord) (s : State) : Out := s.lanePred w (· ||| ·)
def execVkxor (w : LaneWord) (s : State) : Out := s.lanePred w (· ^^^ ·)
def execVkandn (w : LaneWord) (s : State) : Out := s.lanePred w fun a b => a &&& ~~~b
def execVknot (w : LaneWord) (s : State) : Out := s.lanePred w fun a _ => ~~~a
def execVkset (w : LaneWord) (s : State) : Out :=
  s.laneWord w [w.va.toNat] [] [] (fun _ => none) fun i =>
    { ks := [(w.vd.toNat, maskOf ((lanesOf i.eff).filter fun l => (i.rd w.va.toNat l).getLsbD (w.mod.toNat % 32)))] }
def execVksetC (w : LaneWord) (s : State) : Out :=
  s.laneWord w [] [] [] (fun _ => none) fun i => { ks := [(w.vd.toNat, if w.mod.toNat % 2 = 1 then i.eff else 0)] }

end Sys2Proof.Machine
end

