-- ==== Sys2Proof/Machine/Ecc.lean ====
section
/-! DEFINITION. The symbol code of the stripe groups (24 R392-R394): codewords over GF(2^8), decoding, symbols in error. What is stored
in the state is what a read of the row yields; a codeword that cannot be corrected stands in `badRows`, `Group.badV`, `Core.badA` or
`Team.badP`. -/

namespace Sys2Proof.Machine

open Sys2Proof

/-! ### GF(2^8) (24 R392) -/

/-- Times alpha, modulo x^8 + x^4 + x^3 + x^2 + 1. -/
def gfDouble (x : Byte) : Byte := (x <<< 1) ^^^ if x.getLsbD 7 then 0x1D else 0

/-- alpha to a power. -/
def gfAlpha : Nat → Byte
  | 0 => 1
  | n + 1 => gfDouble (gfAlpha n)

/-- The product: `n` counts the bits of y that are left. -/
def gfMulBits (x y : Byte) : Nat → Byte
  | 0 => 0
  | n + 1 => gfDouble (gfMulBits x y n) ^^^ if y.getLsbD (7 - n) then x else 0
def gfMul (x y : Byte) : Byte := gfMulBits x y 8

/-- The quotient of x by a y that is not 0. -/
def gfDiv (x y : Byte) : Byte := BitVec.ofNat 8 (((List.range 256).find? fun q => gfMul (BitVec.ofNat 8 q) y == x).getD 0)

/-- Banks of a stripe group: 16 of data, 2 of check symbols. -/
def eccBanks : Nat := 18

/-- The error of a codeword at bank i. -/
def errAt (es : List (Nat × Byte)) (i : Nat) : Byte := (es.filter fun e => e.1 == i).foldl (fun x e => x ^^^ e.2) 0

/-- The two syndromes of the errors in banks that are not mapped out. -/
def syndrome (out : List Nat) (es : List (Nat × Byte)) : Byte × Byte :=
  ((List.range eccBanks).filter fun i => !out.contains i).foldl (fun (s : Byte × Byte) i =>
    (s.1 ^^^ errAt es i, s.2 ^^^ gfMul (errAt es i) (gfAlpha i))) (0, 0)

/-- Decode a codeword (24 R392): what is still wrong in bank i after the decode, none where it is uncorrectable. A bank mapped out is an
erasure. -/
def eccDecode (out : List Nat) (es : List (Nat × Byte)) : Option (Nat → Byte) :=
  let (s0, s1) := syndrome out es
  match out with
  | [] =>
    if s0 = 0 && s1 = 0 then some (errAt es)
    else match (List.range eccBanks).find? fun i => s0 != 0 && s1 == gfMul s0 (gfAlpha i) with
      | some i => some fun k => if k = i then errAt es k ^^^ s0 else errAt es k
      | none => none
  | [m] => if s1 = gfMul s0 (gfAlpha m) then some fun k => if k = m then s0 else errAt es k else none
  | m :: n :: _ =>
    let x := gfDiv (s1 ^^^ gfMul s0 (gfAlpha n)) (gfAlpha m ^^^ gfAlpha n)
    some fun k => if k = m then x else if k = n then s0 ^^^ x else errAt es k

namespace State

/-! ### Where rows lie -/

/-- Banks of a row's group that are mapped out. -/
def banksOut (s : State) (r : Row) : List Nat :=
  match s.stripeOf r with
  | some g => (s.mappedOut.filter fun m => m.1 == g).map (·.2)
  | none => []

/-- The errors of a codeword. -/
def errsOf (s : State) (r : Row) (b : Bool) : List (Nat × Byte) := (s.symErrs.filter fun e => e.row == r && e.b == b).map fun e => (e.bank, e.e)

/-- The entry of a codeword in a list. -/
def codeOf (l : List BadCode) (r k : Nat) (b : Bool) : Option BadCode := l.find? fun e => e.reg == r && e.row == k && e.b == b
def dropCodeOf (l : List BadCode) (r k : Nat) (b : Bool) : List BadCode := l.filter fun e => !(e.reg == r && e.row == k && e.b == b)

/-- The entry of a register, accumulator or profile codeword. -/
def badCode (s : State) (r : Row) (b : Bool) : Option BadCode :=
  match r with
  | .mem _ => none
  | .vreg t i v k => (s.group t i).bind fun g => codeOf g.badV v k b
  | .acc c j k => codeOf (s.core c).badA j k b
  | .prof t e k => (s.team t).bind fun x => codeOf x.badP e k b

/-- The codeword is known as one that cannot be corrected. -/
def rowBad (s : State) (r : Row) (b : Bool) : Bool :=
  match r with
  | .mem l => s.badRows.any fun x => x.row == l && x.b == b
  | r => ((s.badCode r b).map BadCode.bad).getD false

/-- Errors of vector register rows that have been written whole since are gone: the register has no entry for them (24 R394). -/
def dropStale (s : State) : State :=
  { s with symErrs := s.symErrs.filter fun e => match e.row with
    | .vreg _ _ _ _ => (s.badCode e.row e.b).isSome
    | _ => true }

/-! ### Changing what a row yields -/

/-- Byte n of a word; change it. -/
def byteOf (n : Nat) (w : Word) : Byte := w.extractLsb' (8 * n) 8
def wordByte (f : Byte → Byte) (n : Nat) (w : Word) : Word :=
  (w &&& ~~~(0xFF#32 <<< (8 * n))) ||| ((f (byteOf n w)).setWidth 32 <<< (8 * n))

/-- Change byte o of a line area, 12 bytes a line: slope, intercept, tag. -/
def lineByte (f : Byte → Byte) (o : Nat) (p : Prof) : Prof :=
  { p with lines := p.lines.zipIdx.map fun e => if e.2 ≠ o / 12 then e.1
      else match o % 12 / 4 with
      | 0 => { e.1 with a := wordByte f (o % 4) e.1.a }
      | 1 => { e.1 with b := wordByte f (o % 4) e.1.b }
      | _ => if o % 4 < 2 then { e.1 with t := (wordByte f (o % 4) (e.1.t.setWidth 32)).setWidth 16 } else e.1 }

/-- Byte o of a line area. -/
def lineByteOf (o : Nat) (p : Prof) : Byte :=
  match p.lines[o / 12]? with
  | none => 0
  | some l => match o % 12 / 4 with
    | 0 => byteOf (o % 4) l.a
    | 1 => byteOf (o % 4) l.b
    | _ => if o % 4 < 2 then byteOf (o % 4) (l.t.setWidth 32) else 0

/-- Byte n of a row as it stands. -/
def rowGet (s : State) (r : Row) (n : Nat) : Byte :=
  match r with
  | .mem l => s.stored (l.plus n)
  | .vreg t i v k => byteOf (n % 4) (((s.group t i).map fun g => g.v.get (96 * v + 8 * k + n / 4)).getD 0)
  | .acc c j k => byteOf (n % 4) ((if j = 0 then (s.core c).a0 else (s.core c).a1).get (8 * k + n / 4))
  | .prof t e k => (((s.team t).bind fun x => x.profs.get e).map (lineByteOf (32 * k + n))).getD 0

/-- Change byte n of a row. -/
def rowByte (s : State) (r : Row) (n : Nat) (f : Byte → Byte) : State :=
  match r with
  | .mem l => s.setByte (l.plus n) (f (s.stored (l.plus n)))
  | .vreg t i v k => s.mapGroup t i fun g => { g with v := g.v.set (96 * v + 8 * k + n / 4) (wordByte f (n % 4) (g.v.get (96 * v + 8 * k + n / 4))) }
  | .acc c j k => s.mapCore c fun x =>
      let put (a : Cells 32) : Cells 32 := a.set (8 * k + n / 4) (wordByte f (n % 4) (a.get (8 * k + n / 4)))
      if j = 0 then { x with a0 := put x.a0 } else { x with a1 := put x.a1 }
  | .prof t e k => s.mapTeam t fun x => { x with profs := x.profs.map fun p => if p.1 = e then (e, lineByte f (32 * k + n) p.2) else p }

/-- Byte of a row at which data bank i keeps its symbol of a codeword. -/
def symByte (b : Bool) (i : Nat) : Nat := 2 * i + if b then 1 else 0

/-- Change the data symbols of a codeword. -/
def codeBytes (s : State) (r : Row) (b : Bool) (f : Nat → Byte → Byte) : State :=
  (List.range 16).foldl (fun s i => s.rowByte r (symByte b i) (f i)) s

/-- A codeword, of which f is still wrong in what it yields, becomes one that cannot be corrected: its symbols are kept without their errors; a
register, accumulator or profile row holds zero there from now on. -/
def markBad (s : State) (r : Row) (b : Bool) (f : Nat → Byte) : State :=
  let was : List Byte := (List.range 16).map fun i => s.rowGet r (symByte b i) ^^^ f i
  let zero : State := s.codeBytes r b fun _ _ => 0
  match r with
  | .mem l => { s.codeBytes r b (fun i x => x ^^^ f i) with badRows := s.badRows ++ [⟨l, b, 0⟩] }
  | .vreg t i v k => zero.mapGroup t i fun g => { g with badV := dropCodeOf g.badV v k b ++ [⟨v, k, b, some was⟩] }
  | .acc c j k => zero.mapCore c fun x => { x with badA := x.badA ++ [⟨j, k, b, some was⟩] }
  | .prof t e k => zero.mapTeam t fun x => { x with badP := x.badP ++ [⟨e, k, b, some was⟩] }

/-- A codeword that could not be corrected decodes again, as the banks in error are mapped out: it yields its symbols, with what f says is still
wrong (24 R392). -/
def unmark (s : State) (r : Row) (b : Bool) (f : Nat → Byte) : State :=
  let put (was : Option (List Byte)) (s : State) : State := s.codeBytes r b fun i _ => (was.getD []).getD i 0 ^^^ f i
  match r, s.badCode r b with
  | .mem l, _ => { s.codeBytes r b (fun i x => x ^^^ f i) with badRows := s.badRows.filter fun x => !(x.row == l && x.b == b) }
  | .vreg t i v k, some e => put e.was (s.mapGroup t i fun g => { g with badV := dropCodeOf g.badV v k b ++ [⟨v, k, b, none⟩] })
  | .acc c j k, some e => put e.was (s.mapCore c fun x => { x with badA := dropCodeOf x.badA j k b })
  | .prof t p k, some e => put e.was (s.mapTeam t fun x => { x with badP := dropCodeOf x.badP p k b })
  | _, none => s

/-- What a codeword yields as the decode changes from one to another: the stored symbols follow, the codeword becomes uncorrectable, or it is
correct again. -/
def reDecode (s : State) (r : Row) (b : Bool) (old new : Option (Nat → Byte)) : State :=
  match s.rowBad r b, old, new with
  | false, some f, some g => (List.range 16).foldl (fun s i => if f i = g i then s else s.rowByte r (symByte b i) fun x => x ^^^ f i ^^^ g i) s
  | false, some f, none => s.markBad r b f
  | true, none, some g => s.unmark r b g
  | _, _, _ => s

/-- A vector register keeps an entry of each codeword with symbols in error. -/
def noteErr (s : State) (r : Row) (b : Bool) : State :=
  match r, s.badCode r b with
  | .vreg t i v k, none => s.mapGroup t i fun g => { g with badV := g.badV ++ [⟨v, k, b, none⟩] }
  | _, _ => s

/-- A symbol of a row is in error (24 R392). -/
def symErr (s : State) (e : SymErr) : State :=
  let dec (s : State) : Option (Nat → Byte) := eccDecode (s.banksOut e.row) (s.errsOf e.row e.b)
  if eccBanks ≤ e.bank then s
  else
    let s := (s.dropStale).noteErr e.row e.b
    let s' := { s with symErrs := s.symErrs ++ [{ e with fill := 0 }] }
    s'.reDecode e.row e.b (dec s) (dec s')

/-- Entries of vector registers' codewords with no symbol in error left go (24 R393). -/
def dropMarks (s : State) : State :=
  { s with groups := s.groups.map fun (e : Nat × Group) => if e.2.badV.isEmpty then e
      else (e.1, { e.2 with badV := e.2.badV.filter fun x => x.bad || !(s.errsOf (.vreg (e.1 / 64) (e.1 % 64) x.reg x.row) x.b).isEmpty }) }

/-- A bank is mapped out (24 R393): every codeword of its group with a symbol in error decodes anew. -/
def mapOut (s : State) (g : Stripe) (bank : Nat) : State :=
  let cs := ((s.symErrs.filter fun e => s.stripeOf e.row == some g).map fun e => (e.row, e.b)).dedup
  let s' := { s with mappedOut := s.mappedOut ++ [(g, bank)] }
  cs.foldl (fun u c => u.reDecode c.1 c.2 (eccDecode (s.banksOut c.1) (s.errsOf c.1 c.2)) (eccDecode (s'.banksOut c.1) (s'.errsOf c.1 c.2))) s'

/-- Errors of rows that no longer exist go with them. -/
def dropErrs (s : State) (gone : Row → Bool) : State :=
  if s.symErrs.isEmpty && s.badRows.isEmpty then s
  else { s with
         symErrs := s.symErrs.filter fun e => !gone e.row,
         badRows := s.badRows.filter fun r => !gone (.mem r.row) }

/-- A row of team t. -/
def rowOfTeam (t : Nat) : Row → Bool
  | .mem (.team u _) | .mem (.spill u _ _) | .vreg u _ _ _ | .prof u _ _ => u == t
  | _ => false

end State

end Sys2Proof.Machine
end

