-- ==== Sys2Proof/Machine/ScalarCtl.lean ====
section
/-! DEFINITION. Scalar control, lane issue, masks, predicates, specials, election and handlers (13 R243, R245, R246, R252-R256,
R266, R268). `exit` and `tail` are in Lifecycle.lean. -/

namespace Sys2Proof.Machine

open Sys2Proof

/-! ### Branches (13 R243) -/

/-- The address 4 × off bytes from where the instruction stands. -/
def State.target (s : State) (off : Word) : DWord := s.spc + off.signExtend 64 * 4

def execBr (off : BitVec 25) (s : State) : Out := s.scalar [] fun s => s.jump (s.target (off.signExtend 32))

def execJal (d : SReg) (i : Imm) (s : State) : Out :=
  s.scalarPairs [d] [] fun s =>
    let next := s.spc + BitVec.ofNat 64 (immLen i)
    let dest := s.target i.val
    (if d = 0 then s else s.setPair d next).jump dest

def execJr (a : SReg) (s : State) : Out :=
  s.scalarPairs [a] [] fun s => if (s.spair a).toNat % 4 ≠ 0 then s.raiseNow .illegalOperand else s.jump (s.spair a)

namespace State

/-- A conditional branch: to the target when c holds, else on. -/
def branch (s : State) (d a : SReg) (i : Imm) (c : Word → Word → Bool) : Out :=
  s.scalar [d, a] fun s => if c (s.sreg d) (s.sreg a) then s.jump (s.target i.val) else s.advance (immLen i)

end State

def execBeq (d a : SReg) (i : Imm) (s : State) : Out := s.branch d a i fun x y => x == y
def execBne (d a : SReg) (i : Imm) (s : State) : Out := s.branch d a i fun x y => x != y
def execBlt (d a : SReg) (i : Imm) (s : State) : Out := s.branch d a i fun x y => decide (x.toInt < y.toInt)
def execBge (d a : SReg) (i : Imm) (s : State) : Out := s.branch d a i fun x y => decide (y.toInt ≤ x.toInt)

/-! ### Traps (13 R245) -/

namespace State

/-- trap and brk: the fault is taken with the code in the record; the group's SPC then stands on the next word, where a resume
continues (13 R245). A Curator stops, its record carrying the code (22 R345). -/
def trapWith (s : State) (f : FaultCode) (c : BitVec 16) : Out :=
  s.issuing (.next
    (let s' := s.raiseNow f { aux := c.setWidth 32 }
     match s.cur with
     | some (.group t i) => s'.mapGroup t i fun g => g.advance 4
     | _ => s'))

end State

def execTrap (c : BitVec 16) (s : State) : Out := s.trapWith .userTrap c
def execBrk (c : BitVec 16) (s : State) : Out := s.trapWith .breakpoint c

/-! ### Lane issue (13 R246, 02 R42, R43) -/

namespace State

/-- Byte address of part j of lane word x, by its team's launch record (01 R23, 02 R41). -/
def laneAddr (s : State) (t : Nat) (x : Word) (j : Nat) : Nat :=
  (fieldAt (((s.team t).map Team.lrec).getD 0).toNat 64 64 + 12 * x.toNat + 4 * j) % 2 ^ 64

/-- What fetching code answers. -/
inductive Fetched (α : Type) where
  | ok (w : α) (s : State)
  | wait (s : State)
  | bad (s : State)

/-- One word of code of a group at a device address (02 R41, R43; log 51); an address at or above 2^57 is not mapped. -/
def fetchWord (s : State) (t i va : Nat) : Fetched Word :=
  if 2 ^ 57 ≤ va then .bad s
  else match s.translateNow t i .fetch va with
  | .ok pa => .ok (s.wordAt (.dev pa)) (s.noteRead (.dev pa) 4 (((s.group t i).map (·.core)).getD 0) (some (t, some i)))
  | .wait s => .wait s
  | .bad s => .bad s

/-- The words of code at a list of addresses. -/
def fetchWords (s : State) (t i : Nat) : List Nat → Fetched (List Word)
  | [] => .ok [] s
  | va :: r =>
    match s.fetchWord t i va with
    | .wait s => .wait s
    | .bad s => .bad s
    | .ok w s =>
      match s.fetchWords t i r with
      | .ok ws s => .ok (w :: ws) s
      | .wait s => .wait s
      | .bad s => .bad s

/-- The code of n lane words from a cursor: every word of a run is fetched before any issues (02 R43). -/
def fetchRun (s : State) (t i n : Nat) (cursor : Word) : Fetched (List Word) :=
  s.fetchWords t i ((List.range n).flatMap fun k => (List.range 3).map fun j => s.laneAddr t (cursor + BitVec.ofNat 32 k) j)

/-- Start a run of n lane words at a cursor: every word of it is fetched, or the lx or lxa raises the instruction-fetch fault and
nothing moves (02 R43). -/
def startRun (s : State) (t i n : Nat) (cursor : Word) (own : Bool) (len : Nat) : Out :=
  match s.fetchRun t i n cursor with
  | .wait s => .next s
  | .bad s => .next (s.raiseNow .instructionFetch)
  | .ok ws s => .next (s.mapGroup t i fun g => ({ g with run := ⟨n, cursor, own, len, ws⟩, reissue := none }).tick false)

end State

def execLx (n : BitVec 11) (s : State) : Out := s.byGroup fun t i g => s.startRun t i n.toNat g.lpc false 4

def execLxa (n : BitVec 7) (a : SReg) (i : Imm) (s : State) : Out :=
  s.byGroup fun t j _ => if s.held [a] then .next s else s.startRun t j (n.toNat + 1) (s.sreg a + i.val) true (immLen i)

def execLpc (a : SReg) (i : Imm) (s : State) : Out :=
  s.byGroup fun t j _ => if s.held [a] then .next s
    else .next ((s.mapGroup t j fun g => { g with lpc := s.sreg a + i.val }).advance (immLen i))

/-! ### Reconvergence (02 R48-R50, 13 R252) -/

/-- First byte of the reconvergence area in the spill stack (02 R49). -/
def reconvBase : Nat := 14336

/-- The 32 bytes of a spilled entry (02 R50). -/
def Reconv.bytes (e : Reconv) : List Byte := bytesOfNat 12 e.mask.toNat ++ bytesOfNat 12 e.els.toNat ++ bytesOfNat 4 e.fmt.toNat ++ bytesOfNat 4 0

/-- A spilled entry as it is read back; the reserved bits are ignored (02 R50). -/
def Reconv.ofNum (x : Nat) : Reconv := ⟨BitVec.ofNat 96 x, BitVec.ofNat 96 (x / 2 ^ 96), BitVec.ofNat 32 (x / 2 ^ 192)⟩

namespace Group

/-- Push an entry; with 32 in hardware the oldest goes to the area at its depth position (02 R49; log 52). -/
def pushReconv (g : Group) (e : Reconv) : Group :=
  let g := if g.rstack.length < 32 then g
    else match g.rstack.getLast? with
      | some o => { g with rstack := g.rstack.dropLast, spill := g.spill.setSlice (reconvBase + 32 * (g.rdepth - 32)) o.bytes }
      | none => g
  { g with rstack := e :: g.rstack, rdepth := g.rdepth + 1 }

/-- Pop the top entry; the newest entry of the area, the number x of 32 bytes, returns to hardware. -/
def popReconv (g : Group) (x : Nat := g.spill.num (reconvBase + 32 * (g.rdepth - 33)) 32) : Group :=
  { g with rstack := g.rstack.tail ++ if 32 < g.rdepth then [Reconv.ofNum x] else [], rdepth := g.rdepth - 1 }

end Group

namespace State

/-- Place of the entry at depth n, beyond 32, in a group's reconvergence area. -/
def reconvLoc (t i n : Nat) : Loc := .spill t i (reconvBase + 32 * (n - 33))

/-- The mask registers wait for an earlier load (02 R53). -/
def maskHeld (s : State) : Bool := s.held [125, 126, 127]

end State

def execMpush (n : BitVec 5) (s : State) : Out :=
  s.byGroup fun t i g =>
    if s.maskHeld then .next s
    else if Group.rlimit (((s.team t).map (·.spillOn)).getD false) ≤ g.rdepth then .next (s.raiseNow .reconvOverflow)
    else
      let k := g.k.get n.toNat
      let m := g.mask false
      let s' := s.putGroup t i (((g.pushReconv ⟨m, k, g.fmt⟩).setMask (m &&& k)).advance 4)
      .next (if g.rstack.length < 32 then s' else s'.freshRows (State.reconvLoc t i (g.rdepth + 1)) 32)

def execMelse (s : State) : Out :=
  s.byGroup fun t i g =>
    if s.maskHeld then .next s
    else match g.rstack with
    | [] => .next (s.raiseNow .reconvUnderflow)
    | e :: _ => .next (s.putGroup t i (({ g with fmt := e.fmt }.setMask (e.mask &&& ~~~e.els)).advance 4))

def execMpop (s : State) : Out :=
  s.byGroup fun t i g =>
    if s.maskHeld then .next s
    else match g.rstack with
    | [] => .next (s.raiseNow .reconvUnderflow)
    | e :: _ =>
      let l := State.reconvLoc t i g.rdepth
      let s' := s.putGroup t i (({ g.popReconv (s.numAt l 32) with fmt := e.fmt }.setMask e.mask).advance 4)
      .next (if g.rdepth ≤ 32 then s' else s'.noteRead l 32 g.core (some (t, some i)))

/-! ### Predicates and vector moves (13 R253, R254) -/

def execKget (d : SReg) (w : BitVec 2) (n : BitVec 5) (s : State) : Out :=
  s.byGroup fun _ _ g => if s.held [d] then .next s
    else .next ((s.setS d ((g.k.get n.toNat).extractLsb' (32 * w.toNat) 32)).advance 4)

/-- Bits 32 w to 32 w + 31 of a predicate replaced, non-live lanes staying zero (03 R61). -/
def ksetVal (live k : LaneMask) (w : Nat) (v : Word) : LaneMask :=
  let m : LaneMask := (0xFFFFFFFF#96) <<< (32 * w)
  (((v.setWidth 96 <<< (32 * w)) &&& m) ||| (k &&& ~~~m)) &&& live

def execKset (a : SReg) (w : BitVec 2) (n : BitVec 5) (s : State) : Out :=
  s.byGroup fun t i _ => if s.held [a] then .next s
    else .next ((s.mapGroup t i fun g => { g with k := g.k.set n.toNat (ksetVal g.liveMask (g.k.get n.toNat) w.toNat (s.sreg a)) }).advance 4)

def execMovvs (d a : SReg) (v : VReg) (s : State) : Out :=
  s.byGroup fun t i g =>
    if g.badReg [v.toNat] then .next (s.raiseNow .illegalRegister)
    else if s.held [d, a] || g.blocked false (.v v.toNat) then .next s
    else if 95 < (s.sreg a).toNat then .next (s.raiseNow .illegalOperand)
    else match g.pendingSym false (s.symX t) [v.toNat] with
    | some y => .next (s.park t i (.sym y))
    | none =>
      let l := (s.sreg a).toNat
      s.readingRegs t i g [v.toNat] (.next ((s.setS d (if g.live ≤ l then 0 else g.value false (s.symX t) v.toNat l)).advance 4))

def execMovsv (d a : SReg) (v : VReg) (s : State) : Out :=
  s.byGroup fun t i g =>
    if g.badReg [v.toNat] then .next (s.raiseNow .illegalRegister)
    else if s.held [d, a] || g.blocked false (.v v.toNat) then .next s
    else if 95 < (s.sreg a).toNat then .next (s.raiseNow .illegalOperand)
    else
      let m := maskOf [(s.sreg a).toNat] &&& g.liveMask
      let old := g.kept m [v.toNat]
      match g.pendingSym false (s.symX t) old with
      | some y => .next (s.park t i (.sym y))
      | none => s.readingRegs t i g old (.next (s.putGroup t i ((g.writeVal false (s.symX t) v.toNat m fun _ => s.sreg d).advance 4)))

/-! ### Specials (03 R67-R69, 13 R255) -/

/-- The special is 64 bits wide: clk, seed, hnd. -/
def wideSpecial (i : Nat) : Bool := i == 11 || i == 13 || i == 17

/-- The special's value (03 R67). -/
def State.special (s : State) (t : Nat) (g : Group) (i : Nat) : DWord :=
  let id := ((s.team t).map (·.id)).getD 0
  match i with
  | 0 => BitVec.ofNat 64 g.idx
  | 1 => BitVec.ofNat 64 id
  | 2 => BitVec.ofNat 64 (32 * id + g.idx)
  | 3 => BitVec.ofNat 64 (g.kind % 4 + 4 * g.role)
  | 4 => BitVec.ofNat 64 g.live
  | 5 => BitVec.ofNat 64 (((s.team t).map (·.ngrp)).getD 0)
  | 6 => BitVec.ofNat 64 (((s.gridOf t).map (·.nteams)).getD 0)
  | 7 => BitVec.ofNat 64 (g.core / 12)
  | 8 => BitVec.ofNat 64 g.core
  | 9 => BitVec.ofNat 64 (g.core % 12 / 2)
  | 10 => BitVec.ofNat 64 (g.slot / 8)
  | 11 => s.clk
  | 12 => g.fmt.setWidth 64
  | 13 => g.seed
  | 14 => g.ptol.setWidth 64
  | 15 => g.clip.setWidth 64
  | 16 => g.cond.setWidth 64
  | _ => g.hnd

def execSget (d : SReg) (i : BitVec 11) (s : State) : Out :=
  match s.cur with
  | some (.curator c) =>
    if i.toNat ≠ 11 then .next (s.raiseCurator c 0)
    else if d.toNat % 2 = 1 then .next (s.raiseCurator c 0)
    else .next ((s.setPair d s.clk).advance 4)
  | _ => s.byGroup fun t n g =>
    if wideSpecial i.toNat && d.toNat % 2 == 1 then .next (s.raiseNow .illegalRegister)
    else if s.held (if wideSpecial i.toNat then [d, d + 1] else [d]) || (i.toNat == 16 && !(s.sfuOps t n).isEmpty) then .next s
    else if wideSpecial i.toNat then .next ((s.setPair d (s.special t g i.toNat)).advance 4)
    else .next ((s.setS d ((s.special t g i.toNat).setWidth 32)).advance 4)

/-- A value that fmt accepts (03 R68, 04 R72): no reserved bit, smode not 3, and a format of its smode. -/
def fmtOk (v : Word) : Bool :=
  let c := fieldAt v.toNat 0 8
  let sm := fieldAt v.toNat 8 2
  v.toNat / 2 ^ 11 == 0 &&
    (if sm < 2 then [0, 1, 2, 3, 4, 5, 0x14, 0x16].contains c else sm == 2 && (c == 6 || c == 7))

/-- ptol and clip: no NaN, not negative; -0.0 is accepted (03 R67). -/
def nonNegative (v : Word) : Bool := !(f32 v).isNan && (!v.getLsbD 31 || v == 0x80000000)

namespace Group

/-- Write a writable special (03 R67-R69, 04 R89). -/
def setSpecial (g : Group) (i : Nat) (v : DWord) : Group :=
  match i with
  | 12 => { g with fmt := v.setWidth 32 }
  | 13 => { g with seed := v, convCnt := 0, wbCnt := 0 }
  | 14 => { g with ptol := v.setWidth 32 }
  | 15 => { g with clip := v.setWidth 32 }
  | 16 => { g with cond := v.setWidth 32 }
  | _ => g

end Group

/-- The fault of writing v to special i, if any (03 R67-R69). -/
def specialFault (i : Nat) (v : Word) : Option FaultCode :=
  match i with
  | 12 => if fmtOk v then none else some .illegalField
  | 13 => none
  | 14 | 15 => if nonNegative v then none else some .illegalOperand
  | 16 => if v.toNat / 2 ^ 14 == 0 then none else some .illegalField
  | _ => some .illegalOperand

def execSset (a : SReg) (i : BitVec 11) (s : State) : Out :=
  match s.cur with
  | some (.curator c) => .next (s.raiseCurator c 0)
  | _ => s.byGroup fun t n _ =>
    if wideSpecial i.toNat && a.toNat % 2 == 1 then .next (s.raiseNow .illegalRegister)
    else if s.held (if wideSpecial i.toNat then [a, a + 1] else [a]) then .next s
    else match specialFault i.toNat (s.sreg a) with
    | some c => .next (s.raiseNow c)
    | none =>
      let v := if wideSpecial i.toNat then s.spair a else (s.sreg a).setWidth 64
      .next ((s.mapGroup t n fun g => g.setSpecial i.toNat v).advance 4)

/-! ### Election (13 R256) -/

/-- The group is a candidate for a selection word, seen from a group on `core`. -/
def electable (sel : Word) (core : Nat) (g : Group) : Bool :=
  sel.getLsbD g.kind && 1 ≤ g.kind && g.kind ≤ 3 && (!sel.getLsbD 0 || g.core == core)

def execElect (d a : SReg) (s : State) : Out :=
  s.byGroup fun t i g =>
    if s.held [d, a] then .next s
    else if (s.sreg a).toNat / 16 ≠ 0 then .next (s.raiseNow .illegalOperand)
    else
      let c := (s.groupsOf t).filter (electable (s.sreg a) g.core)
      .next ((s.setS d (if (c.head?.map (·.idx)) == some i then 1 else 0)).advance 4)

/-! ### Handlers (13 R266, R268) -/

namespace State

def setHnd (s : State) (t i : Nat) (v : DWord) (len : Nat) : State := (s.mapGroup t i fun g => { g with hnd := v }).advance len

end State

def execHsetLabel (i : Imm) (s : State) : Out :=
  s.byGroup fun t n _ =>
    if (s.target i.val).toNat % 4 ≠ 0 then .next (s.raiseNow .illegalOperand) else .next (s.setHnd t n (s.target i.val) (immLen i))

def execHsetRegister (a : SReg) (p : Bool) (s : State) : Out :=
  s.byGroup fun t n _ =>
    if a.toNat % 2 = 1 then .next (s.raiseNow .illegalRegister)
    else if s.held [a, a + 1] then .next s
    else if (s.spair a).toNat % 4 ≠ 0 then .next (s.raiseNow .illegalOperand)
    else .next (s.setHnd t n (s.spair a) (if p then 8 else 4))

def execHret (s : State) : Out :=
  s.byGroup fun t n g =>
    match g.frame with
    | none => .next (s.raiseNow .illegalOperand)
    | some f =>
      if g.rdepth ≠ f.depth then .next (s.raiseNow .illegalOperand)
      else if s.maskHeld then .next s
      else .next (s.putGroup t n ((g.tick false).leaveHandler f))

end Sys2Proof.Machine
end

