-- ==== Sys2Proof/Machine/ScalarMem.lean ====
section
/-! DEFINITION. Scalar loads and stores of team memory and the annex (13 R250, R251) and the shape-register words (13 R257, R258).
A load reads memory when it issues (log 3); its register is written when it completes. -/

namespace Sys2Proof.Machine

open Sys2Proof

namespace State

/-- A load by a group: it counts on ld, and its registers, with the values read, are on their way (02 R53, R55). -/
def startLoad (s : State) (t i : Nat) (g : Group) (lane : Bool) (L : Nat) (rs : List (RegRef × LaneMask × Cells 32)) : State :=
  let (h, s) := s.newOp t i g (s.glid t i) (some .ld) .moving .load
  s.mapGroup t i fun g => g.expect lane h L rs

/-- What a long-latency scalar word with result sd and lookahead L sees: a word that opens a 17th window reads its registers with the oldest
window closed (02 R54); one into s0 opens none. -/
def withRoom (s : State) (d : SReg) (L : Nat) : State :=
  match s.cur with
  | some (.group t i) => s.mapGroup t i fun g => g.makeRoom false (if d.toNat = 0 then 0 else L)
  | _ => s

/-- The address of a scalar access is misaligned or beyond the limit of its space (13 R250). -/
def badAddr (s : State) (ax : Bool) (a n align : Nat) : Bool := a % align != 0 || decide (s.limit ax < a + n)

/-- Load one word into sd (13 R250). A Curator's register is written at once. -/
def scalarLoad (s : State) (d : SReg) (a : Word) (ax : Bool) (L len : Nat) : Out :=
  if s.badAddr ax a.toNat 4 4 then .next (s.raiseNow .address { faddr := faddrOf ax a.toNat })
  else
    let l := s.placeNow ax a.toNat
    match s.self with
    | some (t, i, g) =>
      if 255 ≤ g.counter .ld then .next s
      else .next (((s.startLoad t i g false L [(.s d.toNat, 1, Cells.set [] 0 (s.wordAt l))]).advance len).noteRead l 4 g.core (some (t, some i)))
    | none => .next (((s.setS d (s.wordAt l)).advance len).noteRead l 4 s.coreNow none)

/-- Store sd (13 R250). -/
def scalarStore (s : State) (d : SReg) (a : Word) (ax : Bool) (len : Nat) : Out :=
  if s.badAddr ax a.toNat 4 4 then .next (s.raiseNow .address { faddr := faddrOf ax a.toNat })
  else .next ((s.setNum (s.placeNow ax a.toNat) 4 (s.sreg d).toNat).advance len)

end State

def execSldTeamMemory (d a : SReg) (i : Imm) (s : State) : Out :=
  s.issuing (if s.held [d, a] then .next s else s.scalarLoad d (s.sreg a + i.val) false 0 (immLen i))
def execSldAnnex (d a : SReg) (i : Imm) (s : State) : Out :=
  s.issuing (if s.held [d, a] then .next s else s.scalarLoad d (s.sreg a + i.val) true 0 (immLen i))
def execSstTeamMemory (d a : SReg) (i : Imm) (s : State) : Out :=
  s.issuing (if s.held [d, a] then .next s else s.scalarStore d (s.sreg a + i.val) false (immLen i))
def execSstAnnex (d a : SReg) (i : Imm) (s : State) : Out :=
  s.issuing (if s.held [d, a] then .next s else s.scalarStore d (s.sreg a + i.val) true (immLen i))

/-- `sld.acq` (13 R251): the order of accesses is that of issue, so an acquire orders nothing more (log 3). -/
def execSldAcq (d a : SReg) (ax : Bool) (_sc : BitVec 2) (la : BitVec 4) (s : State) : Out :=
  let r := s.withRoom d la.toNat
  s.issuing (if r.held [d, a] then .next s else s.scalarLoad d (r.sreg a) ax la.toNat 4)
def execSstRel (d a : SReg) (ax : Bool) (_sc : BitVec 2) (s : State) : Out :=
  s.issuing (if s.held [d, a] then .next s else s.scalarStore d (s.sreg a) ax 4)

/-! ### Shape registers -/

/-- `shld` (13 R257): 64 bytes into a shape register; counts on ld. -/
def execShld (ax : Bool) (n : ShReg) (a : SReg) (i : Imm) (s : State) : Out :=
  s.byGroup fun t j g =>
    if s.held [a] || g.blocked false (.sh n.toNat) then .next s
    else
      let ad := (s.sreg a + i.val).toNat
      if s.badAddr ax ad 64 64 then .next (s.raiseNow .address { faddr := State.faddrOf ax ad })
      else if 255 ≤ g.counter .ld then .next s
      else
        let l := s.placeNow ax ad
        let ws : Cells 32 := (List.range 16).foldl (fun c k => c.set k (s.wordAt (l.plus (4 * k)))) []
        .next (((s.startLoad t j g false 0 [(.sh n.toNat, 1, ws)]).advance (immLen i)).noteRead l 64 g.core (some (t, some j)))

/-- Replace len bits at lo. -/
def setBits {w : Nat} (x : BitVec w) (lo len v : Nat) : BitVec w :=
  (x &&& ~~~(BitVec.ofNat w (2 ^ len - 1) <<< lo)) ||| (BitVec.ofNat w (v % 2 ^ len) <<< lo)

/-- The field code takes a pair (13 R258). -/
def shPair (f : Nat) : Bool := f == 0 || (9 ≤ f && f ≤ 13)

/-- Source bits above the field (13 R258): a value that does not fit. v is the register, or the pair. -/
def shTooWide (f : Nat) (v : DWord) : Bool :=
  if f = 1 then decide (255 < v.toNat) else if f = 2 then decide (65535 < v.toNat) else if f = 3 then decide (15 < v.toNat)
  else if f = 14 then decide (255 < v.toNat) else if f = 15 then decide (15 < v.toNat)
  else if 9 ≤ f && f ≤ 13 then v != (v.setWidth 48).signExtend 64
  else false

/-- The register with the field of code f replaced (13 R258, 03 R62). -/
def shSet (x : ShapeBits) (f : Nat) (v : DWord) : ShapeBits :=
  if f = 0 then setBits x 0 64 v.toNat
  else if f = 1 then setBits x 64 8 v.toNat
  else if f = 2 then setBits x 72 16 v.toNat
  else if f = 3 then setBits x 88 8 v.toNat
  else if f ≤ 8 then setBits x (96 + 32 * (f - 4)) 32 v.toNat
  else if f ≤ 13 then setBits x (256 + 48 * (f - 9)) 48 v.toNat
  else if f = 14 then setBits x 496 8 v.toNat
  else if f = 15 then setBits x 504 4 v.toNat
  else 0

/-- Change a shape register. -/
def Group.writeSh (g : Group) (n : Nat) (f : ShapeBits → ShapeBits) : Group :=
  let g := g.claim (.sh n) (BitVec.allOnes 96)
  { g with sh := g.sh.set n (f (g.sh.get n)) }

def execShset (n : ShReg) (a : SReg) (f : BitVec 7) (s : State) : Out :=
  s.byGroup fun t i g =>
    let pr := shPair f.toNat
    if pr && a.toNat % 2 == 1 then .next (s.raiseNow .illegalRegister)
    else if s.held (if pr then [a, a + 1] else [a]) || g.blocked false (.sh n.toNat) then .next s
    else
      let v := if pr then s.spair a else (s.sreg a).setWidth 64
      if shTooWide f.toNat v then .next (s.raiseNow .illegalOperand)
      else .next (s.putGroup t i ((g.writeSh n.toNat fun x => shSet x f.toNat v).advance 4))

end Sys2Proof.Machine
end

