-- ==== Sys2Proof/Machine/Lifecycle.lean ====
section
/-! DEFINITION. Ending a group and retiring a team (01 R34-R36, 13 R244), batches of matrix operations (07 R150), the grid barrier's
crossing (13 R263). -/

namespace Sys2Proof.Machine

open Sys2Proof

namespace State

/-- The group's earlier register writes have landed (07 R151). -/
def landed (g : Group) : Bool := g.pend.all fun (p : Pend) => p.here || p.lanes == 0

/-- Operation o was issued, in whole or in part, by group i of team t. -/
def opBy (o : Op) (t i : Nat) : Bool :=
  o.tid == t && (o.idx == i || match o.kind with
    | .copy _ sl => sl.any fun x => x.idx == i
    | _ => false)

/-- The operations of a group that have not completed. -/
def opsBy (s : State) (t i : Nat) : List Nat := (s.ops.filter fun e => opBy e.2 t i).map (·.1)

/-! ### Batches (07 R150) -/

/-- Batches of the group whose operations are all done complete, in order (07 R150): the flags of their write-backs reach cond
(14 R272), an Audit mismatch halts the team (24 R396). -/
def batchCheck (s : State) (t i : Nat) : State :=
  let bs := s.ops.filter fun e => e.2.tid == t && e.2.idx == i && (match e.2.kind with
    | .batch _ _ _ => true
    | _ => false)
  let done := bs.takeWhile fun e => match e.2.kind with
    | .batch _ os _ => os.all fun h => (s.ops.get h).isNone
    | _ => false
  done.foldl (fun s e =>
    match e.2.kind with
    | .batch b _ fl =>
      let s := { s with ops := s.ops.del e.1 }
      let halt := ((s.group t i).map fun g => g.auditHalt.contains b).getD false
      let s := (s.mapGroup t i fun g => if g.ended then g else
        let g := { g with auditHalt := g.auditHalt.erase b }
        g.setFlags fl).leaveCounter t i e.1
      if halt then s.haltTeam t none else s
    | _ => s) s

/-- Close every open operation of the group into its next batch; the batch's number (07 R150). -/
def closeBatch (s : State) (t i : Nat) (g : Group) : Word × State :=
  let (_, s) := s.newOp t i g (s.glid t i) (some .mx) .moving (.batch g.batchCnt g.opens g.mxFlags)
  let s := s.mapGroup t i fun g => { g with batchCnt := g.batchCnt + 1, opens := [], mxFlags := 0 }
  (g.batchCnt, s.batchCheck t i)

/-! ### Grid barrier (13 R263) -/

/-- Group g counts as arrived at barrier j: it has arrived there, or has ended. -/
def atBarrier (j : Nat) (g : Group) : Bool := g.ended || decide (j < g.gbarN)

/-- Every group of the grid has arrived at barrier j or has ended; teams that have retired have ended, saved ones are asked by
their records. -/
def barrierMet (s : State) (gr j : Nat) : Bool :=
  (s.teams.all fun e => e.2.grid != gr || (s.groupsOf e.1).all (atBarrier j)) &&
    (s.saved.all fun x => x.grid != gr || x.groups.all (atBarrier j))

/-- Groups parked at a barrier of the grid that is met leave it. -/
def barrierCheck (s : State) (gr : Nat) : State :=
  s.groups.foldl (fun s e =>
    match e.2.wait with
    | some (.gbar j) =>
      if ((s.team (e.1 / 64)).map (·.grid)) == some gr && s.barrierMet gr j then
        { s with groups := s.groups.set e.1 ({ e.2 with wait := none }.advance 4) }
      else s
    | _ => s) s

/-! ### Retirement (01 R35) -/

/-- Release what team t holds of core c's accumulators (07 R147). -/
def releaseAcc (s : State) (t c : Nat) : State :=
  let x := s.core c
  let keep (h : Option Hold) : Option Hold := match h with
    | some v => if v.tid = t then none else some v
    | none => none
  if keep x.hold0 == x.hold0 && keep x.hold1 == x.hold1 then s
  else s.putCore c { x with hold0 := keep x.hold0, hold1 := keep x.hold1 }

/-- The cores of a team. -/
def coresOf (x : Team) : List Nat := if x.paired then [x.core, x.core + 1] else [x.core]

/-- The team frees its resources: its entry, team memory, profile store, symbols, slots and accumulators; the grid counts it. Ordered adds
queued for its team memory stay in the queue (log 71). -/
def retire (s : State) (t : Nat) : State :=
  match s.team t with
  | none => s
  | some x =>
    let s := (coresOf x).foldl (fun s c => s.releaseAcc t c) s
    let s := { s with teams := s.teams.del t, groups := s.groups.filter fun e => e.1 / 64 != t,
                      ops := s.ops.filter fun e => e.2.tid != t,
                      trackers := s.trackers.filter fun e => e.tid != t }
    let s := s.dropErrs (rowOfTeam t)
    match s.grid x.grid with
    | some g => s.putGrid x.grid { g with retired := g.retired + 1 }
    | none => s

/-- An untaken record of the ended group holds its tracker entry (22 R352). -/
def recHolds (s : State) (t i : Nat) : Bool :=
  s.cores.any fun c => (c.2.fq.any fun r => r.2.tid == t && r.2.grp.toNat == i && !r.2.taken) ||
    c.2.fqWait.any fun r => r.tid == t && r.grp.toNat == i

/-- Tracker entries whose operations are done and whose faults are taken free; a team whose groups have ended and that holds no
entry retires (01 R34, R35). -/
def retireCheck (s : State) (t : Nat) : State :=
  match s.team t with
  | none => s
  | some x =>
    let s := { s with trackers := s.trackers.filter fun e => !(e.tid == t && (s.opsBy t e.idx).isEmpty && !s.recHolds t e.idx) }
    let ended := if x.killing then !(s.ops.any fun e => e.2.tid == t) else (s.groupsOf t).all (·.ended)
    if ended && !(s.trackers.any fun e => e.tid == t) then s.retire t else s

/-- Assemblies that can no longer complete and are not yet reported: every group of the team that has not joined has ended (05 R102). -/
def deadAssemblies (s : State) (t : Nat) : List Nat :=
  match s.team t with
  | none => []
  | some x =>
    (x.asms.filter fun a =>
      match s.ops.get a.op with
      | some o => o.stage != .failed && (match o.kind with
        | .copy _ sl => (s.groupsOf t).all fun g => g.ended || sl.any fun y => y.idx == g.idx
        | _ => false)
      | none => false).map (·.op)

/-- The team-deadlock fault of each of them, by ascending group index (05 R102, 22 R348). -/
def reportDead (s : State) (t : Nat) : State :=
  (sortOn (fun h => ((s.ops.get h).map (·.idx)).getD 0) (s.deadAssemblies t)).foldl (fun s h =>
    match s.ops.get h with
    | some o => s.raiseOp h o.idx o.pc o.lword .teamDeadlock {}
    | none => s) s

/-- Dead assemblies are reported (05 R102), a grid barrier may be met, tracker entries and the team may go. -/
def tidyTeam (s : State) (t : Nat) : State :=
  let s := s.reportDead t
  match s.team t with
  | none => s
  | some x => (s.barrierCheck x.grid).retireCheck t

/-- What follows the end of a group or a completed operation: the team is tidied, and a deadlock that stands then is reported (01 R40). -/
def settleTeam (s : State) (t : Nat) : State := (s.tidyTeam t).checkDeadlock t

/-- Tracker entries of a team. -/
def trackersOf (s : State) (t : Nat) : Nat := (s.trackers.filter fun e => e.tid == t).length

/-- What follows a taken record, or a load or SFU word that ends: none of them is an engine operation, and a deadlock is reported where a
tracker entry has completed with it (01 R40, 22 R352). -/
def settleTaken (s : State) (t : Nat) : State :=
  let s' := s.tidyTeam t
  if s'.trackersOf t < s.trackersOf t then s'.checkDeadlock t else s'

/-! ### exit and tail (13 R244) -/

/-- Verdicts of a handler group as it ends: v8 of each of its lanes (22 R351). -/
def noteVerdicts (s : State) (t : Nat) (g : Group) : State :=
  match s.team t with
  | none => s
  | some x =>
    match s.grid x.grid with
    | some gr =>
      if gr.handler.isNone then s
      else (s.noteRegs t g.idx [8]).putGrid x.grid { gr with verdicts := gr.verdicts ++ (List.range g.live).map fun l => (96 * x.id + l, g.readV true 8 l) }
    | none => s

/-- The group ends: its slot, registers, stack, frame and forms go (01 R34, 10 R197); its operations belong to an ended group. -/
def endGroup (s : State) (t i : Nat) : State :=
  match s.group t i with
  | none => s
  | some g =>
    let s := s.noteVerdicts t g
    let s : State := { s with ops := s.ops.map fun (e : Nat × Op) => if e.2.tid == t && e.2.idx == i then (e.1, { e.2 with exited := true }) else e }
    let g : Group := { g with ended := true, s := [], v := [], k := [], sh := [], rstack := [], rdepth := 0, frame := none }
    let g : Group := { g with tags := [], scar := [], pend := [], infl := [], run := Run.none, spill := [], wait := none, ending := false, tailFull := false }
    (s.putGroup t i g).settleTeam t

/-- The group begins to end: open matrix operations become a batch, windows close (13 R244). -/
def beginEnd (s : State) (t i : Nat) (g : Group) : State :=
  if g.ending then s
  else
    let s := if g.opens.isEmpty then s else (s.closeBatch t i g).2
    s.mapGroup t i fun g => { g.closeWindows with ending := true }

/-- An issued mxa of the team has yet to read this holder's registers (07 R151). -/
def heldByMxa (s : State) (t : Nat) (g : Group) : Bool :=
  g.kind == 2 && decide (g.role < 4) && s.ops.any fun e => e.2.tid == t && (match e.2.kind with
    | .mxa m => m.core == g.core || (m.pair && m.core + 1 == g.core)
    | _ => false)

end State

/-- The open matrix operations can become a batch: 255 batches are not outstanding (02 R55). -/
def Group.mayBegin (g : Group) : Bool := g.ending || g.opens.isEmpty || decide (g.counter .mx < 255)

/-- `exit` (01 R34): waits until every operation of the group has completed. -/
def execExit (s : State) : Out :=
  s.byGroup fun t i g =>
    if !g.mayBegin then .next s
    else
      let s := s.beginEnd t i g
      if !(s.opsBy t i).isEmpty || s.heldByMxa t g then .next s else .next (s.endGroup t i)

/-- `tail` (01 R34): waits only for what writes its registers; the rest goes to the core's tracker, which has 64 entries; one that
finds none free behaves as `exit` from then on. -/
def execTail (s : State) : Out :=
  s.byGroup fun t i g =>
    if !g.mayBegin then .next s
    else
      let s := s.beginEnd t i g
      let pending := ((s.group t i).map fun g => !State.landed g).getD false
      let rest := !(s.opsBy t i).isEmpty
      let full := decide (64 ≤ (s.trackers.filter fun e => e.core == g.core).length)
      if pending || s.heldByMxa t g then .next s
      else if rest && (full || g.tailFull) then .next (s.mapGroup t i fun g => { g with tailFull := true })
      else
        let s := if rest then { s with trackers := s.trackers ++ [⟨g.core, t, i, s.glid t i, g.spc⟩] } else s
        .next (s.endGroup t i)

end Sys2Proof.Machine
end

