-- ==== Sys2Proof/Machine/Queues.lean ====
section
/-! DEFINITION. The peer table (25 R408) and the ordered queues (06 R123-R125). -/

namespace Sys2Proof.Machine

open Sys2Proof

namespace State

/-! ### Peer table -/

/-- Entry d of a partition's peer table; entries at or above the count do not exist. -/
def peerEntry (s : State) (p d : Nat) : Nat :=
  if d < fieldAt (s.cfgW 2 p 0x200).toNat 0 13 then s.cfgD 4 p (8 * d) else 0

/-- The device number names a peer: valid, and not the device itself (05 R94). -/
def isPeer (s : State) (p d : Nat) : Bool := bitAt (s.peerEntry p d) 0 && !bitAt (s.peerEntry p d) 2

/-- The device number of the self entry, which is the device's rank (25 R408). -/
def selfDev (s : State) (p : Nat) : Nat :=
  ((List.range (fieldAt (s.cfgW 2 p 0x200).toNat 0 13)).find? fun d => bitAt (s.peerEntry p d) 0 && bitAt (s.peerEntry p d) 2).getD 0

/-- Some link to a peer is up (25 R410). -/
def peerUp (s : State) (p d : Nat) : Bool :=
  s.nalmond.any fun e => e.2.up && bitAt (s.peerEntry p d) (32 + e.1)

/-! ### Ordered queues -/

/-- A queue's number. -/
def homeKey : Home → Nat
  | .core c => c
  | .annex d => 96 + d
  | .hub h => 104 + h

/-- Entries a queue holds (06 R123). -/
def homeCap : Home → Nat
  | .core _ => 8192
  | .annex _ => 16384
  | .hub _ => 65536

def homeUsed (s : State) (h : Home) : Nat := (s.oq.filter fun e => e.home == h).length

/-- The home of a word (06 R117, 05 R92). -/
def homeOf (s : State) : Loc → Home
  | .team t o =>
    match s.team t with
    | some x => .core (if x.paired && decide (x.tmSize / 2 ≤ o) then x.core + 1 else x.core)
    | none => .core 0
  | .spill t i _ => .core (((s.group t i).map (·.core)).getD 0)
  | .annex d _ => .annex d
  | .dev pa => .hub (s.hubOf pa)
  | .peer _ _ => .hub 0
  | .curator c _ => .core c

/-- The clock since which a queue has been full (06 R125). -/
def markFull (s : State) (h : Home) : State :=
  match s.oqSince.get (homeKey h) with
  | some _ => s
  | none => { s with oqSince := s.oqSince.set (homeKey h) s.clk.toNat }

/-- Enter one ordered add with its key (06 R123). The key does not tell grids apart: adds of two grids with equal fields are counted in one
sequence, in order of arrival (log 68). The entry counts at the home that it entered, wherever its team then goes (log 75). -/
def enqueueAdd (s : State) (l : Loc) (x : Word) (rank team grp el : Nat) : State :=
  let h := s.homeOf l
  let sq := (s.oq.filter fun e => e.loc == l && e.rank == rank && e.team == team && e.grp == grp && e.elem == el).length
  let s := { s with oq := s.oq ++ [⟨h, l, x, rank, team, grp, el, sq⟩] }
  if s.homeUsed h = homeCap h then s.markFull h else s

/-- A queue is full. -/
def homeFull (s : State) (h : Home) : Bool := decide (homeCap h ≤ s.homeUsed h)

/-- Ordered adds (place, addend, group, lane or element) of one team enter in turn, up to the first that finds its home full (06 R125;
log 22); and how many have entered. -/
def enterAdds (s : State) (rank team : Nat) : List (Loc × Word × Nat × Nat) → State × Nat
  | [] => (s, 0)
  | a :: r =>
    if s.homeFull (s.homeOf a.1) then (s.markFull (s.homeOf a.1), 0)
    else
      let (s, n) := (s.enqueueAdd a.1 a.2.1 rank team a.2.2.1 a.2.2.2).enterAdds rank team r
      (s, n + 1)

/-- Key order (06 R123). -/
def keyLt (a b : QEnt) : Bool :=
  if a.rank != b.rank then decide (a.rank < b.rank)
  else if a.team != b.team then decide (a.team < b.team)
  else if a.grp != b.grp then decide (a.grp < b.grp)
  else if a.elem != b.elem then decide (a.elem < b.elem)
  else decide (a.seq < b.seq)

/-- Put an entry into a list in key order. -/
def insertKey (e : QEnt) : List QEnt → List QEnt
  | [] => [e]
  | x :: r => if keyLt e x then e :: x :: r else x :: insertKey e r

/-- The sum in key order, rounded at each add (06 R124). -/
def closeSum (w : Word) (es : List QEnt) : Word :=
  (es.foldr insertKey []).foldl (fun w e => (rne32 ((f32 w).add (f32 e.x)).1).1) w

/-- The home applies every queued add of one word, as one step (06 R124). -/
def closeWord (s : State) (l : Loc) : State :=
  let es := s.oq.filter fun e => e.loc == l
  if es.isEmpty then s
  else
    let w := closeSum (s.wordAt l) es
    let s := { s with oq := s.oq.filter fun e => e.loc != l, oqSince := es.foldl (fun q (e : QEnt) => q.del (homeKey e.home)) s.oqSince }
    s.setNum l 4 w.toNat

end State

end Sys2Proof.Machine
end

