-- ==== Sys2Proof/Machine/LaneData.lean ====
section
/-! DEFINITION. Cross-lane words (15 R290-R292) and lane memory words (15 R293-R297). -/

namespace Sys2Proof.Machine

open Sys2Proof

/-! ### Cross-lane moves -/

namespace State

/-- A cross-lane move: σ gives each lane's source lane; a lane that is not live reads as zero, whatever its mask (15 R290). -/
def laneMove (s : State) (w : LaneWord) (rd ss : List Nat) (σ : LaneIn → Nat → Nat) : Out :=
  s.laneWord w (w.va.toNat :: rd) [w.vd.toNat] ss (fun _ => none) fun i =>
    { vs := [(w.vd.toNat, fun l => if σ i l < i.g.live then i.rd w.va.toNat (σ i l) else 0)] }

end State

def execVperm (w : LaneWord) (s : State) : Out := s.laneMove w [w.vb.toNat] [] fun i l => (i.rd w.vb.toNat l).toNat
def execVshx (w : LaneWord) (s : State) : Out := s.laneMove w [] [] fun _ l => l ^^^ (w.ext.toNat % 128)
/-- Lanes below n read lane 96, which is none, unless the word wraps (15 R291). -/
def execVup (w : LaneWord) (s : State) : Out :=
  s.laneMove w [] [] fun _ l =>
    let n := w.ext.toNat
    if n ≤ l then l - n else if w.mod = 1 then l + 96 - n else 96
def execVdn (w : LaneWord) (s : State) : Out :=
  s.laneMove w [] [] fun _ l => if w.mod = 1 then (l + w.ext.toNat) % 96 else l + w.ext.toNat
def execVbcast (w : LaneWord) (s : State) : Out :=
  s.laneMove w [] (if w.mod = 1 then [w.ext.toNat] else []) fun i _ =>
    if w.mod = 1 then (i.g.readS true (w.ext.toNat % 128)).toNat else w.ext.toNat

/-! ### Reductions and scans (15 R292) -/

/-- The exact sum of FP32 terms and its flags, rounded once. -/
def sumF32 (xs : List FVal) : Word × AFlags :=
  if xs.any FVal.isNan then (0x7FC00000, 0)
  else if xs.any (· == .inf false) && xs.any (· == .inf true) then (0x7FC00000, flInvalid)
  else if xs.any (· == .inf false) then (0x7F800000, 0)
  else if xs.any (· == .inf true) then (0xFF800000, 0)
  else
    let q := Q.sum (xs.map FVal.toQ)
    if q.isZero then (if xs.all fun x => x.isZero && x.sign then 0x80000000 else 0, 0) else rne32 (.ofQ q)

/-- The reduction `op` of a nonempty list of words of type ty. -/
def reduceWords (op ty : Nat) (xs : List Word) : Word × AFlags :=
  match xs with
  | [] => (0, 0)
  | x :: r =>
    match op with
    | 0 => if ty = 0 then sumF32 (xs.map f32) else (r.foldl (· + ·) x, 0)
    | 1 => if ty = 0 then ((rne32 (r.foldl (fun a b => pickF FVal.lesser a (f32 b)) (f32 x))).1, 0)
           else if ty = 3 then (r.foldl opMin x, 0) else (r.foldl (fun a b => if a.toNat ≤ b.toNat then a else b) x, 0)
    | 2 => if ty = 0 then ((rne32 (r.foldl (fun a b => pickF FVal.greater a (f32 b)) (f32 x))).1, 0)
           else if ty = 3 then (r.foldl opMax x, 0) else (r.foldl (fun a b => if a.toNat ≤ b.toNat then b else a) x, 0)
    | 3 => (r.foldl (· &&& ·) x, 0)
    | 4 => (r.foldl (· ||| ·) x, 0)
    | _ => (r.foldl (· ^^^ ·) x, 0)

/-- Lanes per segment. -/
def segOf (c : Nat) : Nat :=
  match c with
  | 0 => 96 | 1 => 32 | 2 => 16 | 3 => 8 | 4 => 4 | _ => 2

namespace State

/-- vred, or vscan where `upTo`: each lane's terms are the lanes of its segment that take effect, up to itself in a scan. -/
def laneReduce (s : State) (w : LaneWord) (upTo : Bool) : Out :=
  s.laneWord w [w.va.toNat] [w.vd.toNat] [] (fun _ => none) fun i =>
    let sg := segOf (w.mod.toNat / 8)
    let one (l : Nat) : Word × AFlags :=
      reduceWords (w.mod.toNat % 8) w.ty.toNat
        (((lanesOf i.eff).filter fun j => j / sg == l / sg && (!upTo || decide (j ≤ l))).map (i.rd w.va.toNat))
    { vs := [(w.vd.toNat, fun l => (one l).1)]
      flags := (lanesOf i.eff).foldl (fun a l => a ||| (one l).2) 0 }

end State

def execVred (w : LaneWord) (s : State) : Out := s.laneReduce w false
def execVscan (w : LaneWord) (s : State) : Out := s.laneReduce w true

/-! ### Lane memory (15 R293) -/

/-- Fields of the memory modifier and LM (12 R219, R220). -/
def memAx (w : LaneWord) : Bool := bitAt w.mod.toNat 0
def memIdx (w : LaneWord) : Bool := bitAt w.mod.toNat 1
def memBase (w : LaneWord) : Nat := w.ext.toNat % 128
def memDisp (w : LaneWord) : Int := sextInt (w.ext.toNat / 256) 24

/-- Access width in bytes of a type (15 R294). -/
def accBytes (ty : Nat) : Nat := if ty = 13 then 8 else if ty = 14 then 16 else tyWidth ty / 8

/-- Address of a lane's access, exact. -/
def laneAd (w : LaneWord) (i : LaneIn) (l : Nat) : Int :=
  (i.g.readS true (memBase w)).toNat + memDisp w + if memIdx w then (i.rd w.va.toNat l).toInt else 0

namespace State

/-- The vector register that an index names. -/
def memRegs (w : LaneWord) : List Nat := if memIdx w then [w.va.toNat] else []

/-- A lane fault at an address (22 R350): the record names the failing lanes, and the address of one of them (log 21). -/
def laneFault (s : State) (bad : List Nat) (space : Nat) (ad : Nat → Int) : State :=
  let (n, s) := s.draw
  let l := bad.getD (Config.pick n % bad.length) 0
  s.raiseNow .address { faddr := space * 2 ^ 60 + (ad l % 2 ^ 60).toNat, lanes := maskOf bad, lane := true }

/-- Issue a lane memory word: all addresses are checked before any access (15 R293). -/
def laneMem (s : State) (w : LaneWord) (rd dst : List Nat) (odd : List Nat) (long : Bool)
    (k : Nat → Nat → LaneIn → (Nat → Loc) → Out) : Out :=
  s.laneIssue w false (memRegs w ++ rd) dst [memBase w]
    (fun _ => if odd.any (oddReg w.ty.toNat) then some .illegalRegister else none) fun t n i =>
      let wb := accBytes w.ty.toNat
      let lim := s.limit (memAx w)
      let bad := (lanesOf i.eff).filter fun l =>
        let a := laneAd w i l
        a < 0 || decide ((lim : Int) < a + wb) || a % wb != 0
      if !bad.isEmpty then .next (s.laneFault bad (if memAx w then 2 else 1) (laneAd w i))
      else if long && 255 ≤ i.g.counter .ld then .next s
      else k t n i fun l => s.placeNow (memAx w) (laneAd w i l).toNat

/-- Note the reads of a lane word (24 R394). -/
def noteLanes (s : State) (t : Nat) (i : LaneIn) (loc : Nat → Loc) (wb : Nat) : State :=
  if s.badRows.isEmpty && s.mfailed.isEmpty then s
  else (lanesOf i.eff).foldl (fun s l => s.noteRead (loc l) wb i.g.core (some (t, some i.g.idx))) s

/-- A lane load's registers are on their way, with the values read. -/
def laneLoad (s : State) (t n : Nat) (i : LaneIn) (L : Nat) (rs : List (Nat × Cells 32)) : State :=
  let s := s.mapGroup t n fun g => rs.foldl (fun g r => g.keepVal i.x i.eff r.1) g
  let g := (s.group t n).getD i.g
  (s.startLoad t n g true L (rs.map fun r => (.v r.1, i.eff, r.2))).mapGroup t n Group.laneDone

/-- Values of the lanes that take effect. -/
def laneVals (i : LaneIn) (f : Nat → Word) : Cells 32 := (lanesOf i.eff).foldl (fun c l => c.set l (f l)) []

end State

/-- What a load of x writes into register j of its span. -/
def loadWord (ty x j : Nat) : Word :=
  if tySigned ty && tyWidth ty < 32 then BitVec.ofNat 32 (intBits 32 (sextInt x (tyWidth ty))) else BitVec.ofNat 32 (x / 2 ^ (32 * j))

def execVld (w : LaneWord) (s : State) : Out :=
  s.laneMem w [] (regSpan w.ty.toNat w.vd.toNat) [w.vd.toNat] true fun t n i loc =>
    let wb := accBytes w.ty.toNat
    .next ((s.laneLoad t n i w.la.toNat ((List.range (tyRegs w.ty.toNat)).map fun j =>
      (w.vd.toNat + j, State.laneVals i fun l => loadWord w.ty.toNat (s.numAt (loc l) wb) j))).noteLanes t i loc wb)

/-- The bytes that a lane stores. -/
def storeNum (ty : Nat) (rd : Nat → Word) : Nat :=
  ((List.range (tyRegs ty)).map fun j => (rd j).toNat * 2 ^ (32 * j)).foldl (· + ·) 0

def execVst (w : LaneWord) (s : State) : Out :=
  s.laneMem w (regSpan w.ty.toNat w.vb.toNat) [] [w.vb.toNat] false fun t n i loc =>
    .next (((lanesOf i.eff).foldl (fun s l =>
      s.setNum (loc l) (accBytes w.ty.toNat) (storeNum w.ty.toNat fun j => i.rd (w.vb.toNat + j) l)) s).mapGroup t n Group.laneDone)

/-! ### Lane atomics (15 R295, R296) -/

/-- The new word of an atomic: d the old word, b the operand, c the prior vd. -/
def atomNew (op ty : Nat) (d b c : Word) : Word :=
  match op with
  | 0 => d + b
  | 1 => if ty = 3 then opMin d b else if d.toNat ≤ b.toNat then d else b
  | 2 => if ty = 3 then opMax d b else if d.toNat ≤ b.toNat then b else d
  | 3 => d &&& b
  | 4 => d ||| b
  | 5 => d ^^^ b
  | 6 => b
  | _ => if d = c then b else d

namespace State

/-- Lane atomics, in lane order; the old values by lane (15 R295). -/
def atomLanes (loc : Nat → Loc) (f : Nat → Word → Word) : List Nat → State → Cells 32 → State × Cells 32
  | [], s, c => (s, c)
  | l :: r, s, c =>
    let d := s.wordAt (loc l)
    atomLanes loc f r (s.setNum (loc l) 4 (f l d).toNat) (c.set l d)

/-- A lane atomic word. -/
def laneAtom (s : State) (w : LaneWord) (cas : Bool) (f : LaneIn → Nat → Word → Word) : Out :=
  s.laneMem w (w.vb.toNat :: if cas then [w.vd.toNat] else []) [w.vd.toNat] [] true fun t n i loc =>
    let s := s.noteLanes t i loc 4
    let (s, old) := atomLanes loc (f i) (lanesOf i.eff) s []
    .next (s.laneLoad t n i w.la.toNat [(w.vd.toNat, old)])

end State

def execVatom (w : LaneWord) (s : State) : Out :=
  s.laneAtom w (w.vc == 7) fun i l d => atomNew w.vc.toNat w.ty.toNat d (i.rd w.vb.toNat l) (i.rd w.vd.toNat l)

/-- The larger of two FP32 words (15 R296). -/
def maxF32 (a b : Word) : Word := (rne32 (pickF FVal.greater (f32 a) (f32 b))).1

def execVfatomMax (w : LaneWord) (s : State) : Out := s.laneAtom w false fun i l d => maxF32 d (i.rd w.vb.toNat l)

/-- vfatom.add.ord (15 R296): its lanes' adds enter their homes' queues in lane order. Where a queue is full the word waits with the lanes
that have entered cancelled for its next issue (06 R125; log 22). -/
def execVfatomAddOrd (w : LaneWord) (s : State) : Out :=
  s.laneMem w [w.vb.toNat] [] [] false fun t n i loc =>
    let ls := lanesOf i.eff
    let (s, k) := s.enterAdds (s.selfDev (s.partOf i.g.core)) (((s.team t).map (·.id)).getD 0)
      (ls.map fun l => (loc l, i.rd w.vb.toNat l, n, l))
    match ls[k]? with
    | none => .next (s.mapGroup t n Group.laneDone)
    | some l => .next (s.mapGroup t n fun g =>
        { g with stall := some (s.homeOf (loc l)), cancel := g.cancel ||| maskOf (ls.take k) })

/-! ### The spill stack (15 R297) -/

namespace State

/-- The address of a spill word, exact. -/
def spillAd (w : LaneWord) (g : Group) : Int := (g.readS true (memBase w)).toNat + memDisp w

/-- Issue a spill word: it acts in every live lane. -/
def laneSpill (s : State) (w : LaneWord) (rd dst : List Nat) (odd : Nat) (long : Bool) (k : Nat → Nat → LaneIn → Nat → Out) : Out :=
  s.laneIssue w true rd dst [memBase w]
    (fun _ => if oddReg w.ty.toNat odd then some .illegalRegister
      else if ((s.teamNow.bind s.team).map (·.spillOn)).getD false then none else some .illegalOperand) fun t n i =>
      let a := spillAd w i.g
      if i.eff != 0 && (a % 32 != 0 || a < 0 || decide (14336 < a + 384 * tyRegs w.ty.toNat)) then
        .next (s.laneFault (lanesOf i.eff) 4 fun _ => a)
      else if long && 255 ≤ i.g.counter .ld then .next s
      else k t n i a.toNat

end State

def execVspill (w : LaneWord) (s : State) : Out :=
  s.laneSpill w (regSpan w.ty.toNat w.vb.toNat) [] w.vb.toNat false fun t n i a =>
    .next (((lanesOf i.eff).foldl (fun s l => (List.range (tyRegs w.ty.toNat)).foldl (fun s j =>
      s.setNum (.spill t n (a + 384 * j + 4 * l)) 4 (i.rd (w.vb.toNat + j) l).toNat) s) s).mapGroup t n Group.laneDone)

def execVfill (w : LaneWord) (s : State) : Out :=
  s.laneSpill w [] (regSpan w.ty.toNat w.vd.toNat) w.vd.toNat true fun t n i a =>
    let loc (j l : Nat) : Loc := .spill t n (a + 384 * j + 4 * l)
    let s' := s.laneLoad t n i w.la.toNat ((List.range (tyRegs w.ty.toNat)).map fun j =>
      (w.vd.toNat + j, State.laneVals i fun l => s.wordAt (loc j l)))
    .next ((List.range (tyRegs w.ty.toNat)).foldl (fun s j => s.noteLanes t i (loc j) 4) s')

/-- LANE_LOAD_COMPLETE (02 R55): the data of a load is written, and it leaves `ld`. -/
def execLaneLoadComplete (op : Nat) (s : State) : Out :=
  match s.ops.get op with
  | some o =>
    match o.kind with
    | .load =>
      let s := { s with ops := s.ops.del op }
      .next (((s.mapGroup o.tid o.idx fun g => g.arrive op).leaveCounter o.tid o.idx op).settleTaken o.tid)
    | _ => .next s
  | none => .next s

end Sys2Proof.Machine
end

