-- ==== Sys2Proof/Machine/Shape.lean ====
section
/-! DEFINITION. Shape registers as tensors: fields and their checks (03 R62, R63; 05 R100; 04 R76), element offsets (05 R95-R97),
element bytes (04 R73, R76), bounds and fill (05 R98), and where an engine's address lies. -/

namespace Sys2Proof.Machine

open Sys2Proof

/-- The fields of a shape register (03 R62); extents and strides only of the dimensions below ndim. -/
structure Shape where
  space   : Nat
  addr    : Nat
  fmt     : Nat
  layout  : Nat
  ndim    : Nat
  nanfill : Bool
  exts    : List Nat
  strides : List Int
  stslot  : Nat
  cbtag   : Nat
deriving DecidableEq, Repr

namespace Shape

/-- The fields of a register. -/
def of (x : ShapeBits) : Shape :=
  let n := x.toNat
  let nd := fieldAt n 88 3
  { space := fieldAt n 60 4, addr := fieldAt n 0 60, fmt := fieldAt n 64 8, layout := fieldAt n 72 16, ndim := nd,
    nanfill := bitAt n 91, exts := (List.range (min nd 5)).map fun d => fieldAt n (96 + 32 * d) 32,
    strides := (List.range (min nd 5)).map fun d => sextInt (fieldAt n (256 + 48 * d) 48) 48,
    stslot := fieldAt n 496 8, cbtag := fieldAt n 504 4 }

def zorder (x : Shape) : Bool := bitAt x.layout 0
def transp (x : Shape) : Bool := bitAt x.layout 1
def ledge (x : Shape) : Nat := fieldAt x.layout 2 4
def width (x : Shape) : Nat := (fmtWidth x.fmt).getD 0
/-- Block-scaled (04 R76). -/
def block (x : Shape) : Bool := (blockFmt x.fmt).isSome
/-- Bytes that one element's address must be a multiple of (05 R100, 04 R76). -/
def align (x : Shape) : Nat := if x.block then 32 else max 1 (x.width / 8)

/-- The conditions of a block-scaled shape beside its address (04 R76). -/
def blockOk (x : Shape) : Bool :=
  if x.zorder then decide (3 ≤ x.ledge)
  else x.strides.headD 0 == 1 && x.exts.headD 0 % 32 == 0 && (x.strides.drop 1).all fun d => d % 32 == 0

/-- The register breaks none of the rules of its map (03 R62, R63; 05 R100; 04 R76): else illegal-field at the using word.
`anyAddr` leaves the address out, for the source of `cpg`, whose address field is ignored (16 R308). -/
def ok (anyAddr : Bool) (b : ShapeBits) : Bool :=
  let x := of b
  let n := b.toNat
  fieldAt n 508 4 == 0 && fieldAt n 92 4 == 0 && x.layout < 64 && x.cbtag ≤ 4 && 1 ≤ x.ndim && x.ndim ≤ 5 &&
    (fmtWidth x.fmt).isSome && x.space < 3 &&
    (anyAddr || (x.addr < (if x.space = 0 then 2 ^ 57 else if x.space = 1 then 2 ^ 24 else 2 ^ 26) && x.addr % x.align == 0)) &&
    (if x.zorder then decide (2 ≤ x.ledge) && decide (x.ledge ≤ 10) && decide (2 ≤ x.ndim) else !x.transp) &&
    (!x.block || x.blockOk)

/-- Interleave the leaf coordinates, column bit lowest (05 R96). -/
def leafIx (y x : Nat) : Nat → Nat
  | 0 => 0
  | b + 1 => leafIx y x b + (if bitAt x b then 2 ^ (2 * b) else 0) + (if bitAt y b then 2 ^ (2 * b + 1) else 0)

/-- Element offset of a stored row and column in Z-order (05 R96), with nt tiles in a row of tiles and edge 2^L. -/
def zOff (L nt row col : Nat) : Nat :=
  let T := 2 ^ L
  let y := row % T
  let x := col % T
  (row / T * nt + col / T) * (T * T) + 16 * leafIx (y / 4) (x / 4) (L - 2) + 4 * (y % 4) + x % 4

/-- The sum of c_d × stride_d. -/
def dot : List Int → List Int → Int
  | c :: cs, t :: ts => c * t + dot cs ts
  | _, _ => 0

/-- Element offset of in-bounds coordinates (05 R95-R97). -/
def offset (x : Shape) (c : List Int) : Int :=
  if x.zorder then
    let c0 := (c.headD 0).toNat
    let c1 := ((c.drop 1).headD 0).toNat
    let T := 2 ^ x.ledge
    let e0 := x.exts.headD 0
    let e1 := (x.exts.drop 1).headD 0
    let z : Nat := if x.transp then zOff x.ledge ((e1 + T - 1) / T) c0 c1 else zOff x.ledge ((e0 + T - 1) / T) c1 c0
    z + dot (c.drop 2) (x.strides.drop 2)
  else dot c x.strides

/-- In bounds (05 R98); a coordinate beyond signed 32 bits is not (05 R101). -/
def inb (x : Shape) (c : List Int) : Bool :=
  (c.zip x.exts).all fun p => decide (0 ≤ p.1) && decide (p.1 < p.2) && decide (p.1 < 2 ^ 31)

/-- Byte address in its space, exact, and the shift within the byte, of the element at an offset (04 R73, R76). -/
def posn (x : Shape) (o : Int) : Int × Nat :=
  if x.fmt = 6 then (x.addr + 1056 * (o / 1024) + 32 + o % 1024, 0)
  else if x.fmt = 7 then (x.addr + 544 * (o / 1024) + 32 + o % 1024 / 2, if o % 2 = 0 then 0 else 4)
  else if x.width = 4 then (x.addr + o / 2, if o % 2 = 0 then 0 else 4)
  else (x.addr + o * (x.width / 8 : Nat), 0)

/-- Byte address of the scale of an offset (04 R76). -/
def scalePosn (x : Shape) (o : Int) : Int := x.addr + (if x.fmt = 6 then 1056 else 544) * (o / 1024) + o % 1024 / 32

/-- Bytes that one element touches. -/
def elBytes (x : Shape) : Nat := max 1 (x.width / 8)

/-- The spans (address, length) of an in-bounds element, its block's scale among them (05 R99). -/
def spans (x : Shape) (c : List Int) : List (Int × Nat) :=
  let o := x.offset c
  (( x.posn o).1, x.elBytes) :: if x.block then [(x.scalePosn o, 1)] else []

/-- All positions of a box, dimension 0 fastest. -/
def box : List Nat → List (List Int)
  | [] => [[]]
  | e :: r => (box r).flatMap fun t => (List.range e).map fun (i : Nat) => (i : Int) :: t

/-- Coordinates o + b. -/
def shift (o b : List Int) : List Int := (b.zip o).map fun p => p.1 + p.2

/-- Pad or cut an origin to ndim. -/
def originOf (x : Shape) (o : List Int) : List Int := (o ++ [0, 0, 0, 0, 0]).take x.ndim

/-- The block of 32 coordinates that holds c, whether in bounds or not (05 R415). -/
def blockAt (x : Shape) (c : List Int) : List (List Int) :=
  let c0 := c.headD 0
  let r := c.drop 1
  if !x.zorder then (List.range 32).map fun (i : Nat) => (c0 / 32 * 32 + i) :: r
  else
    let c1 := r.headD 0
    let (w, h) : Int × Int := if x.transp then (4, 8) else (8, 4)
    (List.range 32).map fun (i : Nat) => (c0 / w * w + (i : Int) % w) :: (c1 / h * h + (i : Int) / w) :: r.drop 1

/-! ### Reading elements through the bytes of a space -/

/-- The bits of the element at an offset. -/
def getEl (x : Shape) (rd : Nat → Byte) (o : Int) : Nat :=
  let (b, sh) := x.posn o
  if x.width = 4 then (rd b.toNat).toNat / 2 ^ sh % 16
  else natOfBytes ((List.range (x.width / 8)).map fun i => rd (b.toNat + i))

/-- The bits that reading c delivers: the element, or fill (05 R98). Of a block no element of which is in bounds the codes are
+0, and its scale byte says whether the block reads as NaN (05 R415; log 56). -/
def read (x : Shape) (rd : Nat → Byte) (c : List Int) : Nat :=
  if x.inb c then x.getEl rd (x.offset c)
  else if !x.nanfill || (x.block && !(x.blockAt c).any x.inb) then 0
  else canonNan x.fmt

/-- The scale byte that reading c's block delivers (05 R415). -/
def readScale (x : Shape) (rd : Nat → Byte) (c : List Int) : Byte :=
  match (x.blockAt c).find? x.inb with
  | some d => rd (x.scalePosn (x.offset d)).toNat
  | none => if x.nanfill then 0xFF else 0x7F

/-- The number at in-bounds c: of a block-scaled format the element times its scale (04 R76). -/
def valueAt (x : Shape) (rd : Nat → Byte) (c : List Int) : FVal :=
  let v := elemValue x.fmt (x.getEl rd (x.offset c))
  if x.block then
    match e8m0 (rd (x.scalePosn (x.offset c)).toNat).toNat with
    | none => .nan
    | some q => (v.mul (.fin false q)).1
  else v

end Shape

/-! ### Where an engine's addresses lie -/

/-- A side of an operation: a team's memory, the window of a die's annex, device memory, a peer's (05 R91). -/
inductive Side where
  | tm (tid : Nat)
  | ax (die base : Nat)
  | dev
  | peer (d : Nat)
deriving DecidableEq, Repr

/-- The place of an address of a side; pages of 64 KiB are given by the table. -/
def Side.loc (tab : List (Nat × Nat)) : Side → Nat → Loc
  | .tm t, a => .team t a
  | .ax d b, a => .annex d (b + a)
  | .dev, a => .dev (((tab.lookup (a / 65536)).getD 0) + a % 65536)
  | .peer d, a => .peer d a

namespace State

/-- The side that a space code names for an operation; `peer` where its device side is a peer. -/
def sideOf (s : State) (o : Op) (space : Nat) (peer : Option Nat) : Side :=
  match space, peer with
  | 0, some d => .peer d
  | 0, none => .dev
  | 1, _ => .tm o.tid
  | _, _ => .ax (o.core / 12) (s.window o.tid).1

/-- The limit of a space for a team (05 R99). -/
def limitOf (s : State) (t space : Nat) : Nat :=
  match space with
  | 0 => 2 ^ 57
  | 1 => ((s.team t).map (·.tmSize)).getD 0
  | _ => (s.window t).2

/-- What translating a list of pages answers: their physical addresses; a wait for a walk; a page that the service could not
resolve. -/
inductive Pages where
  | ok (tab : List (Nat × Nat))
  | wait (s : State)
  | bad (s : State) (page : Nat)

/-- Translate every page that an operation touches. -/
def pages (s : State) (who : Req) (core : Option Nat) (p asid : Nat) : List (Kind × Nat) → List (Nat × Nat) → Pages
  | [], tab => .ok tab
  | (k, pg) :: r, tab =>
    match s.translate who core p asid k (65536 * pg) with
    | .ok pa => s.pages who core p asid r ((pg, pa) :: tab)
    | .wait s => .wait s
    | .bad s => .bad s pg

/-- Translate for an operation of a team. -/
def opPages (s : State) (h : Nat) (o : Op) (ps : List (Kind × Nat)) : Pages :=
  s.pages (.op h) (some o.core) (s.partOf o.core) (((s.gridOf o.tid).map (·.asid)).getD 0) ps.dedup []

/-- Store the bits of the element at an offset. -/
def putEl (s : State) (x : Shape) (loc : Nat → Loc) (o : Int) (v : Nat) : State :=
  let (b, sh) := x.posn o
  if x.width = 4 then
    let old := (s.stored (loc b.toNat)).toNat
    s.setNum (loc b.toNat) 1 (if sh = 0 then old / 16 * 16 + v % 16 else old % 16 + v % 16 * 16)
  else s.setNum (loc b.toNat) (x.width / 8) v

end State

end Sys2Proof.Machine
end

