-- ==== Sys2Proof/Machine/Copy.lean ====
section
/-! DEFINITION. The copy engine: issue (16 R303-R310), assembly (05 R102), start checks (05 R99, 09 R175), the transfer of each form
(05 R106-R115), completion (05 R103). A copy performs all its bytes when it completes. -/

namespace Sys2Proof.Machine

open Sys2Proof

/-! ### Gradient statistics (04 R90) -/

/-- A slot after one element's value. -/
def Stat.put (t : Stat) (v : FVal) : Stat :=
  let n := t.count + 1
  match v with
  | .nan => { t with count := n }
  | .inf _ => { acc := 2 ^ 160 - 1, sat := true, amax := 0x7F800000, count := n }
  | .fin _ m =>
    let a := t.acc + ((m.mul m).mul (Q.pow2 80)).floor.toNat
    let big := decide (2 ^ 160 ≤ a)
    { acc := if big then 2 ^ 160 - 1 else a, sat := t.sat || big,
      amax := if (f32 t.amax).lt (.fin false m) then (rne32 (.fin false m)).1 else t.amax, count := n }

namespace State

/-- A statistics slot of a partition. -/
def stat (s : State) (p n : Nat) : Stat := ((s.part p).stats.get n).getD Stat.zero
def mapStat (s : State) (p n : Nat) (f : Stat → Stat) : State :=
  s.mapPart p fun x => { x with stats := x.stats.set n (f ((x.stats.get n).getD Stat.zero)) }

end State

/-! ### Forms -/

namespace CopyForm

/-- The form names a peer (16 R306). -/
def toPeer : CopyForm → Bool
  | .cprPut | .cprGet => true
  | .cpa _ p | .cpw p => p
  | _ => false

/-- Its counter (08 R163). -/
def cls (f : CopyForm) : Cls := if f.toPeer then .cl else .cp

/-- The form reads the destination element that it combines with (05 R111, 09 R178). -/
def combines : CopyForm → Bool
  | .bkcommit | .cpa _ _ => true
  | _ => false

/-- Codebook decode is allowed (05 R106). -/
def decodes : CopyForm → Bool
  | .cpl | .cpx | .cpm => true
  | _ => false

/-- Spaces of the destination and of the source (16 R306). -/
def dstSpaces : CopyForm → List Nat
  | .cpl | .cpx => [1, 2]
  | .cpm | .cpg => [1]
  | .cprGet => [0, 1, 2]
  | _ => [0]
def srcSpaces : CopyForm → List Nat
  | .cpl | .cpm | .cpg | .cprGet => [0]
  | .cps | .cpx => [1, 2]
  | .cprPut => [0, 1, 2]
  | _ => [1]

/-- The destination is the near side (05 R101). -/
def nearDst (f : CopyForm) (d : Shape) : Bool :=
  match f with
  | .cpl | .cpm | .cpg | .cprGet => true
  | .cpx => d.space == 1
  | _ => false

/-- The counter word and the far device side lie on a peer (16 R304). -/
def peerSide (f : CopyForm) (c : CopyOps) (dst : Bool) : Option Nat :=
  match f with
  | .cprPut => if dst then some c.peer else none
  | .cprGet => if dst then none else some c.peer
  | .cpa _ true => if dst then some c.peer else none
  | .cpw true => some c.peer
  | _ => none

/-- Formats of the two sides (05 R107, R111; 16 R310, R319). A `cpst` from any format other than FP32, a bit pattern among them, is an illegal field
(log 74). -/
def formatsOk (f : CopyForm) (d x : Shape) : Bool :=
  match f with
  | .cpst => x.fmt == 0 && [0, 1, 2, 3, 4].contains d.fmt
  | .bkcommit => x.fmt == 0 && x.space == 1
  | .cpa op _ => d.fmt == x.fmt && (match op with
      | 0 => [0x10, 0x11].contains x.fmt
      | 1 => [0, 0x10, 0x11].contains x.fmt
      | _ => x.fmt == 0)
  | _ => d.fmt == x.fmt

end CopyForm

/-- Codebook decode: the table that the source names (05 R114). -/
def decodeTag (f : CopyForm) (x : Shape) : Option Nat := if f.decodes && x.cbtag != 0 then some (x.cbtag - 1) else none

/-- The conditions of a decode with entry size e (05 R114). -/
def decodeOk (e : Nat) (d x : Shape) : Bool :=
  (x.fmt == 0x15 || x.fmt == 0x20) && e != 0 && 8 * e % d.width == 0 &&
    d.exts == (8 * e / d.width * x.exts.headD 0) :: x.exts.drop 1

/-- The illegal-field conditions of two shapes that obey their maps: formats, ndim, gather geometry, blocks (05 R101, R107, R114,
R415; 16 R308). `e` gives the entry size of a table. A decode is checked by R114 alone (log 87). -/
def sidesOk (f : CopyForm) (e : Nat → Nat) (d x : Shape) : Bool :=
  match decodeTag f x with
  | some t => d.ndim == x.ndim && decodeOk (e t) d x
  | none =>
    f.formatsOk d x &&
      (if f = .cpg then
        x.ndim == 1 && d.ndim == 2 && d.exts.headD 0 == x.exts.headD 0 && decide (1 ≤ d.exts.getD 1 0) && decide (d.exts.getD 1 0 ≤ 96)
       else d.ndim == x.ndim) &&
      (!x.block || (d.zorder == x.zorder && d.transp == x.transp))

/-- The far origin carries blocks onto blocks (05 R415). -/
def originOk (f : CopyForm) (x : Shape) (o : List Int) : Bool :=
  if !x.block || f = .cpg then true
  else if !x.zorder then o.headD 0 % 32 == 0
  else if x.transp then o.headD 0 % 4 == 0 && o.getD 1 0 % 8 == 0
  else o.headD 0 % 8 == 0 && o.getD 1 0 % 4 == 0

/-! ### The copy block (16 R304) -/

structure CopyBlk where
  np     : Nat
  inc    : Nat
  cspace : Nat
  aux    : Nat
  caddr  : Nat
  origin : List Int
  bad    : Bool         -- a reserved field or value
deriving DecidableEq, Repr

/-- The registers of a block. -/
def blkRegs (a : SReg) : List SReg := if a = 0 then [] else (List.range 9).map fun n => a + BitVec.ofNat 7 n

/-- The register number of a block is illegal (16 R303). -/
def blkReg (a : SReg) : Bool := a != 0 && (a.toNat % 2 == 1 || decide (118 < a.toNat))

namespace State

/-- The block as read at issue; without one, np = 1, no counter word, origin zero (16 R303). -/
def copyBlk (s : State) (a : SReg) : CopyBlk :=
  if a = 0 then ⟨1, 0, 0, 0, 0, [0, 0, 0, 0, 0], false⟩
  else
    let w := (s.sreg a).toNat
    let np := fieldAt w 0 6
    let cs := fieldAt w 8 2
    ⟨np, fieldAt w 16 16, cs, (s.sreg (a + 1)).toNat, (s.spair (a + 2)).toNat,
      (List.range 5).map fun n => (s.sreg (a + 4 + BitVec.ofNat 7 n)).toInt,
      np == 0 || decide (32 < np) || fieldAt w 10 6 != 0 || fieldAt w 6 2 != 0 || cs == 3⟩

/-- The counter word of a block is misaligned or beyond its space (16 R304, 05 R112). -/
def ctrBad (s : State) (t : Nat) (k : CopyBlk) : Bool :=
  k.inc != 0 && (k.caddr % 4 != 0 || decide (s.limitOf t k.cspace < k.caddr + 4))

/-- The common operands (05 R101); without an increment no counter word is named. -/
def copyOps (k : CopyBlk) (f : CopyForm) (b : Bsl) : CopyOps :=
  let c : Bool := k.inc != 0
  ⟨f, k.np, b.toNat, k.inc, if c then k.cspace else 0, if c then k.caddr else 0, if f.toPeer then k.aux else 0, [], 0⟩

/-- Team t's entry size of a codebook table. -/
def cbSize (s : State) (t n : Nat) : Nat := ((s.team t).map fun x => (x.cbE.get n).toNat).getD 0

/-! ### Issue (16 R307) -/

/-- The fault of a two-shape copy word at issue, in the order of 12 R226. `more` is the form's own illegal-operand condition. -/
def copyCheck (s : State) (t : Nat) (g : Group) (f : CopyForm) (db sb : ShapeBits) (a : SReg) (b : Bsl) (more : Bool) : Option FaultCode :=
  let d := Shape.of db
  let x := Shape.of sb
  let k := s.copyBlk a
  if !(Shape.ok false db && Shape.ok (f == .cpg) sb && sidesOk f (s.cbSize t) d x) then some .illegalField
  else if blkReg a then some .illegalRegister
  else if !originOk f x k.origin then some .illegalField
  else if f = .cpg && a != 0 && (k.aux % 2 == 1 || decide (32 * g.blocks ≤ k.aux + 1)) then some .illegalRegister
  else if k.bad || s.ctrBad t k || ((f.toPeer || f = .cpg) && a == 0) || !f.dstSpaces.contains d.space ||
      !f.srcSpaces.contains x.space || (f = .cpx && d.space == x.space) || (f = .cpg && k.np != 1) ||
      (k.np != 1 && b.toNat == 31) || (f = .cprPut && k.inc != 0 && k.cspace != 0) ||
      (f.toPeer && !s.isPeer (s.partOf g.core) k.aux) || more then some .illegalOperand
  else none

/-- Assemblies not started that a core holds (05 R102). -/
def asmCount (s : State) (core : Nat) : Nat :=
  ((s.teams.map fun e => (e.2.asms.filter fun a => ((s.ops.get a.op).map (·.core)) == some core).length)).sum

/-- A slice joins its copy (05 R102): the state with the slice counted, or none where it is a fault. -/
def joinCopy (s : State) (t i : Nat) (g : Group) (c : CopyOps) (sl : Slice) : Option State :=
  if c.np ≤ 1 then some (s.newOp t i g sl.glid (some c.form.cls) .ready (.copy c [sl])).2
  else
    match s.team t with
    | none => none
    | some x =>
      let j := (g.asmSeq.get c.bsl).toNat
      let bump (s : State) : State := s.mapGroup t i fun g => { g with asmSeq := g.asmSeq.set c.bsl (g.asmSeq.get c.bsl + 1) }
      match x.asms.find? fun a => a.bs == c.bsl && a.num == j with
      | none =>
        if x.asmDone.contains (c.bsl, j) then none
        else
          let (h, s) := (bump s).newOp t i g sl.glid (some c.form.cls) .waiting (.copy c [sl])
          some (s.mapTeam t fun x => { x with asms := x.asms ++ [⟨c.bsl, j, h⟩] })
      | some a =>
        match s.ops.get a.op with
        | some o =>
          match o.kind with
          | .copy c' sls =>
            if c' != c then none
            else
              let full := sls.length + 1 == c.np
              let s := (bump s).putOp a.op { o with kind := .copy c (sls ++ [sl]), stage := if full && o.stage == .waiting then .ready else o.stage,
                                                     since := if full then s.clk.toNat else o.since }
              let s := s.mapGroup t i fun g => { g with infl := g.infl ++ [⟨c.form.cls, a.op, false⟩] }
              some (if full then s.mapTeam t fun x => { x with asms := x.asms.erase a, asmDone := x.asmDone ++ [(c.bsl, j)] } else s)
          | _ => none
        | none => none

/-- A slice that opens an assembly in a core that holds 64 waits to issue (05 R102). -/
def asmFull (s : State) (t : Nat) (g : Group) (c : CopyOps) : Bool :=
  decide (1 < c.np) && decide (64 ≤ s.asmCount g.core) &&
    ((s.team t).map fun x => !(x.asms.any fun a => a.bs == c.bsl && a.num == (g.asmSeq.get c.bsl).toNat) &&
      !x.asmDone.contains (c.bsl, (g.asmSeq.get c.bsl).toNat)).getD false

/-- Issue a copy word with two shapes. -/
def copyIssue (s : State) (f : CopyForm) (d x : ShReg) (a : SReg) (b : Bsl) (more : Nat → Group → Bool) : Out :=
  s.byGroup fun t i g =>
    if s.held (blkRegs a) || g.blocked false (.sh d.toNat) || g.blocked false (.sh x.toNat) then .next s
    else
      let db := g.sh.get d.toNat
      let sb := g.sh.get x.toNat
      match s.copyCheck t g f db sb a b (more t g) with
      | some c => .next (s.raiseNow c)
      | none =>
        let k := s.copyBlk a
        let c := copyOps k f b
        let vn := k.aux
        let gath := f == .cpg
        if gath && (g.blocked false (.v vn) || g.blocked false (.v (vn + 1))) then .next s
        else match (if gath then g.pendingSym false (s.symX t) [vn, vn + 1] else none) with
        | some y => .next (s.park t i (.sym y))
        | none =>
          if 255 ≤ g.counter f.cls || s.asmFull t g c then .next s
          else
            let rows := (Shape.of db).exts.getD 1 0
            let ad (l : Nat) : Nat := (g.value false (s.symX t) vn l).toNat + 2 ^ 32 * (g.value false (s.symX t) (vn + 1) l).toNat
            let sl : Slice :=
              { idx := i, glid := s.glid t i, pc := g.spc, lword := g.lword, dst := db, src := sb, origin := k.origin,
                lanes := if gath then g.liveMask &&& g.mask false &&& lanesBelow rows else 0,
                addrs := if gath then (List.range 96).map ad else [], seq := s.handles }
            match s.joinCopy t i g c sl with
            | none => .next (s.raiseNow .illegalOperand)
            | some s' => s.readingRegs t i g (if gath then [vn, vn + 1] else []) (.next ((s'.advance 4).settleTeam t))

/-! ### Start -/

/-- Intervals of bytes that the Filler has pinned in an address space (09 R175). -/
def Shape.range (x : Shape) : Option (Int × Int) :=
  (Shape.box x.exts).foldl (fun r c => (x.spans c).foldl (fun r p => match r with
    | none => some (p.1, p.1 + p.2)
    | some (a, b) => some (min a p.1, max b (p.1 + p.2))) r) none

def pins (s : State) (p asid : Nat) : List (Int × Int) :=
  (s.part p).entries.foldl (fun l e =>
    if e.f.asid = asid then l ++ ((Shape.range (Shape.of e.f.a)).toList ++ (Shape.range (Shape.of e.f.g)).toList) else l) []

/-- The span lies in a pinned range. -/
def hits (pins : List (Int × Int)) (p : Int × Nat) : Bool := pins.any fun r => decide (r.1 < p.1 + p.2) && decide (p.1 < r.2)

/-- One element of a transfer: its slice, index in the box, and coordinates on both sides. -/
structure Xfer where
  sl : Slice
  ix : Nat
  sc : List Int
  dc : List Int
  again : Bool          -- its source has been read for another team of a multicast fill, or for another value of its index (05 R108, R114)
deriving DecidableEq, Repr

/-- Destination elements that one codebook index yields. -/
def decodeQ (d x : Shape) : Nat := d.exts.headD 0 / max 1 (x.exts.headD 0)

/-- The elements of a slice, in box order (05 R101): under codebook decode an index m of a near source yields the q far elements that begin
at q m (05 R114). -/
def elemsOf (f : CopyForm) (sl : Slice) : List Xfer :=
  let d := Shape.of sl.dst
  let x := Shape.of sl.src
  let near := f.nearDst d
  let o := (if near then x else d).originOf sl.origin
  let q : Nat := match decodeTag f x with
    | some _ => decodeQ d x
    | none => 1
  (Shape.box (if near then d else x).exts).zipIdx.flatMap fun e =>
    let b := e.1
    if near then [⟨sl, e.2, Shape.shift o ((b.headD 0 / (q : Int)) :: b.drop 1), b, false⟩]
    else (List.range q).map fun (k : Nat) => ⟨sl, e.2, b, Shape.shift o (((q : Int) * b.headD 0 + k) :: b.drop 1), false⟩

/-- Elements of one index follow one another: all but the first find it read. -/
def markAgain : List Int → List Xfer → List Xfer
  | _, [] => []
  | p, u :: r => { u with again := p == u.sc } :: markAgain u.sc r

/-- The elements of a slice that are written (05 R98). -/
def xfersOf (f : CopyForm) (sl : Slice) : List Xfer := markAgain [] ((elemsOf f sl).filter fun u => (Shape.of u.sl.dst).inb u.dc)

/-- Spans read and written by an element. -/
def Xfer.reads (u : Xfer) : List (Int × Nat) := let x := Shape.of u.sl.src; if x.inb u.sc then x.spans u.sc else []
def Xfer.writes (u : Xfer) : List (Int × Nat) := let d := Shape.of u.sl.dst; if d.inb u.dc then d.spans u.dc else []

/-- One of a list of addresses, the spec does not say which (log 21). -/
def oneOf (s : State) (l : List Int) : Int × State :=
  let (n, s) := s.draw
  (l.getD (Config.pick n % l.length) 0, s)

/-- Report a fault of an operation at one of the offending addresses (05 R105). -/
def raiseAt (s : State) (h idx : Nat) (pc : DWord) (lword : Word) (code : FaultCode) (space : Nat) (as : List Int) : State :=
  let (a, s) := s.oneOf as
  s.raiseOp h idx pc lword code { faddr := space * 2 ^ 60 + (a % 2 ^ 60).toNat }

/-- Addresses of spans beyond a limit (05 R99). -/
def outside (lim : Nat) (l : List (Int × Nat)) : List Int :=
  (l.filter fun p => decide (p.1 < 0) || decide ((lim : Int) < p.1 + p.2)).map (·.1)

/-- Where a gather's slice may lie: only its near side is checked at start (05 R109). -/
def gatherWrites (sl : Slice) : List (Int × Nat) :=
  let d := Shape.of sl.dst
  (lanesOf sl.lanes).flatMap fun (l : Nat) => (List.range (d.exts.headD 0)).flatMap fun (e : Nat) => d.spans [(e : Int), (l : Int)]

/-- The pinned ranges of the side that an operation writes: this device's, or those of a peer (09 R175). -/
def pinsAt (s : State) (o : Op) (peer : Option Nat) : List (Int × Int) :=
  match peer with
  | none => s.pins (s.partOf o.core) (((s.gridOf o.tid).map (·.asid)).getD 0)
  | some d => (s.peerPins.filter fun e => e.1 == d).map fun e => ((e.2.1 : Int), (e.2.2 : Int))

/-- The start checks of one slice (05 R99, 09 R175): the fault, the space and the offending addresses. Every element that is in bounds on
its side is checked, whether or not the other side is. -/
def sliceFault (s : State) (o : Op) (c : CopyOps) (sl : Slice) : Option (FaultCode × Nat × List Int) :=
  let d := Shape.of sl.dst
  let x := Shape.of sl.src
  let us := if c.form = .cpg then [] else elemsOf c.form sl
  let ws := if c.form = .cpg then gatherWrites sl else us.flatMap Xfer.writes
  let ro := outside (s.limitOf o.tid x.space) (us.flatMap Xfer.reads)
  let wo := outside (s.limitOf o.tid d.space) ws
  let ps := if d.space = 0 then s.pinsAt o (c.form.peerSide c true) else []
  let hit := (ws.filter (hits ps)).map (·.1)
  if !ro.isEmpty then some (.copyAddressOverflow, x.space, ro)
  else if !wo.isEmpty then some (.copyAddressOverflow, d.space, wo)
  else if !hit.isEmpty then some (.pinnedWrite, d.space, hit)
  else none

/-- The counter word lies in a pinned range, here or at the peer. -/
def ctrPinned (s : State) (o : Op) (c : CopyOps) : Bool :=
  c.inc != 0 && c.cspace == 0 && hits (s.pinsAt o (c.form.peerSide c true)) (c.caddr, 4)

/-- The teams that a multicast fill of team t writes (05 R108): the resident ones of its set. -/
def mcTeams (s : State) (t : Nat) : List Nat :=
  match s.team t with
  | some x => (s.teams.filter fun e => e.2.grid == x.grid && e.2.mcset == x.mcset && x.mcset.isSome).map (·.1)
  | none => []

/-- A team of the set is saved: a fill waits to start (05 R108). -/
def mcAway (s : State) (t : Nat) : Bool :=
  match s.team t with
  | some x => s.saved.any fun y => y.grid == x.grid && y.team.mcset == x.mcset
  | none => false

/-- The operation names codebook table n: `h`'s slices decode with it. -/
def namesTable (o : Op) (t n : Nat) : Bool :=
  o.tid == t && (match o.kind with
    | .copy c sls => sls.any fun sl => decodeTag c.form (Shape.of sl.src) == some n
    | _ => false)

/-- Where a copy stands in issue order: the operations numbered before its last slice issued (05 R114; log 66). -/
def copyOrder (sls : List Slice) : Nat := sls.foldl (fun m sl => max m sl.seq) 0

/-- A cpcb of table n of the team is outstanding, of those numbered below h (05 R114). -/
def cbPending (s : State) (t n h : Nat) : Bool :=
  s.ops.any fun e => decide (e.1 < h) && e.2.tid == t && (match e.2.kind with
    | .cpcb m _ _ => m == n
    | _ => false)

/-- A copy may start: the operations that a cpw follows are over, its set is resident, its codebook is loaded. -/
def copyMayStart (s : State) (o : Op) (c : CopyOps) (sls : List Slice) : Bool :=
  (c.after.all fun k => (s.ops.get k).isNone) && (c.form != .cpm || !s.mcAway o.tid) &&
    sls.all fun sl => match decodeTag c.form (Shape.of sl.src) with
      | some n => !s.cbPending o.tid n (copyOrder sls)
      | none => true

/-- Raise faults of slices of one clock, by ascending group index (22 R348). -/
def bySlice {α : Type} (l : List (Slice × α)) (f : State → Slice → α → State) (s : State) : State :=
  (sortOn (fun e => e.1.idx) l).foldl (fun s e => f s e.1 e.2) s

/-- A copy starts: the checks of every slice; any fault stops it before a byte moves (16 R307). A pinned counter word is reported in the group that
opened the operation (log 89). -/
def copyStart (s : State) (h : Nat) (o : Op) (c : CopyOps) (sls : List Slice) : State :=
  let bad := sls.filterMap fun sl => (s.sliceFault o c sl).map fun x => (sl, x)
  if !bad.isEmpty then
    bySlice bad (fun s sl e => s.raiseAt h sl.idx sl.pc sl.lword e.1 e.2.1 e.2.2) s
  else if s.ctrPinned o c then s.raiseOp h o.idx o.pc o.lword .pinnedWrite { faddr := c.caddr }
  else s.putOp h { o with stage := .moving }

/-! ### Transfer -/

/-- The bits delivered to a destination element (05 R98, R107, R114). -/
def fetchEl (s : State) (o : Op) (f : CopyForm) (u : Xfer) (sl : Nat → Loc) : Nat :=
  let d := Shape.of u.sl.dst
  let x := Shape.of u.sl.src
  let rd (a : Nat) : Byte := s.byteAt (sl a)
  match decodeTag f x with
  | none => x.read rd u.sc
  | some n =>
    if !x.inb u.sc then (if x.nanfill then canonNan d.fmt else 0)
    else
      let org : Int := if f.nearDst d then 0 else u.sl.origin.headD 0
      let k := (u.dc.headD 0 - org).toNat % max 1 (decodeQ d x)
      let e := 16384 * n + 64 * x.getEl rd (x.offset u.sc)
      let cb : Memory := ((s.team o.tid).map (·.cb)).getD []
      if d.width = 4 then (Cells.get cb (e + k / 2)).toNat / (if k % 2 = 0 then 1 else 16) % 16
      else Cells.num cb (e + k * (d.width / 8)) (d.width / 8)

/-- The element written: moved, converted, or combined with the one that is there (05 R107, R111, R113; 09 R178). -/
def newEl (f : CopyForm) (d : Shape) (old v : Nat) : Nat × AFlags :=
  let a : Word := BitVec.ofNat 32 old
  let b : Word := BitVec.ofNat 32 v
  match f with
  | .cpst => match floatFmt d.fmt with
    | some t => t.narrow .rne (f32 b)
    | none => (v, 0)
  | .bkcommit => ((rne32 ((f32 a).add (f32 b)).1).1.toNat, 0)
  | .cpa 0 _ => ((a + b).toNat, 0)
  | .cpa 1 _ => ((if d.fmt = 0 then maxF32 a b else if d.fmt = 0x10 then opMax a b else if a.toNat ≤ b.toNat then b else a).toNat, 0)
  | _ => (v, 0)

/-- The statistics slot that an element of the form updates (05 R113, 09 R178). -/
def statSlot (s : State) (o : Op) (f : CopyForm) (d : Shape) : Option Nat :=
  match f with
  | .cpst => some d.stslot
  | .bkcommit =>
    match (s.gridOf o.tid).bind (·.drain) with
    | some a => ((s.part (s.partOf o.core)).entries.find? fun e => e.acc == a && e.f.last).map fun e => (Shape.of e.f.t).stslot
    | none => none
  | _ => none

/-- An operation's engine reads spans (24 R394). -/
def noteSpans (s : State) (o : Op) (loc : Nat → Loc) (l : List (Int × Nat)) : State :=
  l.foldl (fun s p => s.noteRead (loc p.1.toNat) p.2 o.core (some (o.tid, some o.idx))) s

/-- One element: read, transferred per form, written; its flags. A codebook decode into a block-scaled destination writes no scale byte (log
67). -/
def moveEl (s : State) (o : Op) (f : CopyForm) (u : Xfer) (sl dl : Nat → Loc) : State × AFlags :=
  let d := Shape.of u.sl.dst
  let x := Shape.of u.sl.src
  let s := if u.again then s else s.noteSpans o sl u.reads
  let s := if f.combines then s.noteSpans o dl u.writes else s
  let v := s.fetchEl o f u sl
  let (w, fl) := newEl f d (d.getEl (fun a => s.byteAt (dl a)) (d.offset u.dc)) v
  let sc := x.readScale (fun a => s.byteAt (sl a)) u.sc
  let s := s.putEl d dl (d.offset u.dc) w
  let s := if d.block && (decodeTag f x).isNone then s.setNum (dl (d.scalePosn (d.offset u.dc)).toNat) 1 sc.toNat else s
  (match s.statSlot o f d with
    | some n => s.mapStat (s.partOf o.core) n fun t => t.put (elemValue d.fmt w)
    | none => s, fl)

/-- The nibbles that spans of a side cover. -/
def nibbles (loc : Nat → Loc) (x : Shape) (c : List Int) : List (Loc × Nat) :=
  let (b, sh) := x.posn (x.offset c)
  if x.width = 4 then [(loc b.toNat, sh)]
  else (List.range x.elBytes).flatMap fun i => [(loc (b.toNat + i), 0), (loc (b.toNat + i), 4)]

/-- Some nibble is written twice, or both read and written: then the order of the transfers shows (05 R104). -/
def overlaps (us : List (Xfer × (Nat → Loc) × (Nat → Loc))) : Bool :=
  let w := us.flatMap fun u => nibbles u.2.2 (Shape.of u.1.sl.dst) u.1.dc
  let r := us.flatMap fun u => if (Shape.of u.1.sl.src).inb u.1.sc then nibbles u.2.1 (Shape.of u.1.sl.src) u.1.sc else []
  !(decide w.Nodup) || r.any w.contains

/-- Some order of a list, drawn (log 5): k elements are left to place. -/
def shuffle {α : Type} : Nat → List α → State → List α × State
  | 0, l, s => (l, s)
  | k + 1, l, s =>
    let (n, s) := s.draw
    let i := Config.pick n % l.length
    match l[i]? with
    | some a => let (r, s) := shuffle k (l.eraseIdx i) s; (a :: r, s)
    | none => (l, s)

/-- Move every element, in box order, or in some order where the order shows; the flags by slice. -/
def moveAll (s : State) (o : Op) (f : CopyForm) (us : List (Xfer × (Nat → Loc) × (Nat → Loc))) : State × List (Nat × AFlags) :=
  let (us, s) := if overlaps us then shuffle us.length us s else (us, s)
  us.foldl (fun r u =>
    let (s, fl) := moveEl r.1 o f u.1 u.2.1 u.2.2
    (s, if fl = 0 then r.2 else (u.1.sl.idx, fl) :: r.2)) (s, [])

/-! ### Completion (05 R103, R112) -/

/-- Pages of device memory that spans touch. -/
def spanPages (k : Kind) (l : List (Int × Nat)) : List (Kind × Nat) := (l.map fun p => (k, p.1.toNat / 65536)).dedup

/-- Pages that a slice reads and writes here; a peer's are translated there. -/
def slicePages (c : CopyOps) (sl : Slice) : List (Kind × Nat) :=
  let us := xfersOf c.form sl
  (if (Shape.of sl.src).space = 0 && (c.form.peerSide c false).isNone then spanPages .read (us.flatMap Xfer.reads) else []) ++
  (if (Shape.of sl.dst).space = 0 && (c.form.peerSide c true).isNone then spanPages .write (us.flatMap Xfer.writes) else [])

/-- The page of the counter word. -/
def ctrPages (c : CopyOps) : List (Kind × Nat) :=
  if c.inc != 0 && c.cspace == 0 && (c.form.peerSide c true).isNone then [(.write, c.caddr / 65536)] else []

/-- Add the increment to the counter word (05 R112). -/
def addCounter (s : State) (o : Op) (c : CopyOps) (tab : List (Nat × Nat)) : State :=
  if c.inc = 0 then s
  else
    let l := (s.sideOf o c.cspace (c.form.peerSide c true)).loc tab c.caddr
    let s := s.noteRead l 4 o.core (some (o.tid, some o.idx))
    s.setNum l 4 (((s.wordAt l).toNat + c.inc) % 2 ^ 32)

/-! ### Closes in progress (06 R125) -/

/-- The place of a word of a close, without asking for a walk: none where its page does not translate. -/
def closeLoc (s : State) (o : Op) (v : VAddr) (a : Nat) : Option Loc :=
  if v.space = 0 then
    let asid := ((s.gridOf o.tid).map (·.asid)).getD 0
    match (s.core o.core).tlb.find? fun e => tlbHit e asid .write a with
    | some e => some (.dev (e.pa + (a - e.base)))
    | none => (s.walkTable (s.partOf o.core) asid .write a).map fun e => .dev (e.pa + (a - e.base))
  else some ((s.sideOf o v.space none).loc [] a)

/-- The time of every full queue starts again as a close of it completes (06 R125). -/
def restartFull (s : State) (o : Op) (v : VAddr) (n : Nat) : State :=
  let words := (List.range (n / 4)).map fun k => s.closeLoc o v (v.addr + 4 * k)
  let hs := ((s.oq.filter fun q => words.contains (some q.loc)).map (·.home)).dedup
  hs.foldl (fun s h => match s.oqSince.get (homeKey h) with
    | some _ => { s with oqSince := s.oqSince.set (homeKey h) s.clk.toNat }
    | none => s) s

/-- Every word of the close has been performed and it has left its group's `cp` (06 R125, 02 R56). -/
def closeGone (s : State) (h : Nat) (o : Op) : Bool :=
  match o.kind with
  | .close _ _ [] => !((s.group o.tid o.idx).map fun g => !g.ended && g.infl.any fun x => x.op == h).getD false
  | _ => false

/-- Closes of the team that are over end. -/
def sweepCloses (s : State) (t : Nat) : State :=
  (s.ops.filter fun e => e.2.tid == t && s.closeGone e.1 e.2).foldl (fun s (e : Nat × Op) => match e.2.kind with
    | .close v n _ => let s := s.restartFull e.2 v n; { s with ops := s.ops.del e.1 }
    | _ => s) s

/-- An operation ends: it leaves the counter of every group in the list, and the team settles. -/
def opEnds (s : State) (h tid : Nat) (idxs : List Nat) : State :=
  let s := { s with ops := s.ops.del h }
  ((idxs.foldl (fun s i => s.leaveCounter tid i h) s).sweepCloses tid).settleTeam tid

/-- The groups that supplied a copy's slices. -/
def suppliers (o : Op) (sls : List Slice) : List Nat := if sls.isEmpty then [o.idx] else sls.map (·.idx)

/-- The completion actions of a copy. -/
def copyDone (s : State) (h : Nat) (o : Op) (c : CopyOps) (sls : List Slice) (tab : List (Nat × Nat)) : State :=
  let s := s.addCounter o c tab
  let ts := if c.form = .cpm then s.mcTeams o.tid else [o.tid]
  let s := ts.foldl (fun s t => s.engineArrive t h c.bsl o.idx o.pc o.lword) s
  s.opEnds h o.tid (suppliers o sls)

/-- Spans of device memory that a slice reads and writes, here or at the peer. -/
def devSpans (c : CopyOps) (sl : Slice) (peer : Bool) : List (Int × Nat) :=
  let us := xfersOf c.form sl
  (if (Shape.of sl.src).space = 0 && (c.form.peerSide c false).isSome == peer then us.flatMap Xfer.reads else []) ++
  (if (Shape.of sl.dst).space = 0 && (c.form.peerSide c true).isSome == peer then us.flatMap Xfer.writes else [])

/-- Spans that lie, in part, in a page. -/
def inPage (pg : Nat) (l : List (Int × Nat)) : List Int := (l.filter fun p => p.1.toNat / 65536 == pg).map (·.1)

/-- The counter word of a copy, where it has one: its address on this device or on the peer. -/
def ctrSpan (c : CopyOps) (peer : Bool) : List (Int × Nat) :=
  if c.inc != 0 && c.cspace == 0 && (c.form.peerSide c true).isSome == peer then [((c.caddr : Nat), 4)] else []

/-- Report an unresolved page against every slice that touches it (05 R105). -/
def badPage (s : State) (h : Nat) (o : Op) (c : CopyOps) (sls : List Slice) (peer : Bool) (pg : Nat) : State :=
  let bad := sls.filterMap fun sl =>
    let as := inPage pg (devSpans c sl peer)
    if as.isEmpty then none else some (sl, as)
  if bad.isEmpty then s.raiseOp h o.idx o.pc o.lword .translation { faddr := c.caddr }
  else bySlice bad (fun s sl as => s.raiseAt h sl.idx sl.pc sl.lword .translation 0 as) s

/-- A page that the peer's translation service could not resolve and that the copy touches there (05 R105). -/
def peerPage (s : State) (c : CopyOps) (sls : List Slice) : Option Nat :=
  (s.peerBad.find? fun e => e.1 == c.peer && !(inPage e.2 (sls.flatMap (fun sl => devSpans c sl true) ++ ctrSpan c true)).isEmpty).map (·.2)

/-- Ordered adds of a copy: place, addend, group and element index (05 R111). A peer's queue is the peer's (log 14). -/
def orderedAdds (s : State) (o : Op) (c : CopyOps) (sls : List Slice) (tab : List (Nat × Nat)) : List (Loc × Word × Nat × Nat) :=
  if (c.form.peerSide c true).isSome then []
  else sls.flatMap fun sl =>
    let d := Shape.of sl.dst
    let x := Shape.of sl.src
    let sl' := (s.sideOf o x.space none).loc tab
    (xfersOf c.form sl).map fun u =>
      (((s.sideOf o d.space none).loc tab) (d.posn (d.offset u.dc)).1.toNat,
        BitVec.ofNat 32 (x.read (fun a => s.byteAt (sl' a)) u.sc), sl.idx, u.ix)

/-- An element of an ordered add lies in a range of its peer (06 R125). -/
def peerMeets (c : CopyOps) (sls : List Slice) (rs : List (Nat × Nat)) : Bool :=
  c.form == .cpa 2 true && (sls.flatMap fun sl => (xfersOf c.form sl).flatMap Xfer.writes).any
    (hits (rs.map fun r => ((r.1 : Int), (r.2 : Int))))

/-- The copy waits for room in a full queue of its peer (06 R125; log 16). -/
def peerHeld (s : State) (c : CopyOps) (sls : List Slice) : Bool :=
  peerMeets c sls ((s.peerFull.filter fun e => e.1 == c.peer).map (·.2))

/-- The reads of the k source elements of an ordered add that follow the first n. -/
def noteSources (s : State) (o : Op) (c : CopyOps) (sls : List Slice) (n k : Nat) : State :=
  (((sls.flatMap (xfersOf c.form)).drop n).take k).foldl (fun s u => s.noteSpans o ((s.sideOf o (Shape.of u.sl.src).space none).loc []) u.reads) s

/-- The places that a copy writes beside one another, each with whether an earlier one of the same fill has read the sources (05 R108). -/
def copySides (s : State) (o : Op) (c : CopyOps) (d : Shape) : List (Side × Bool) :=
  if c.form = .cpm then (s.mcTeams o.tid).zipIdx.map fun e => (.tm e.1, decide (0 < e.2))
  else [(s.sideOf o d.space (c.form.peerSide c true), false)]

/-- Of elements to be moved, those that read a source anew: each source element is read once (05 R108). -/
def readOnce (us : List (Xfer × (Nat → Loc) × (Nat → Loc))) : List (Xfer × (Nat → Loc) × (Nat → Loc)) :=
  us.zipIdx.map fun e => ({ e.1.1 with again := (us.take e.2).any fun v => v.1.sl == e.1.1.sl && v.1.sc == e.1.1.sc }, e.1.2)

/-- Every byte of a copy is performed and its completion actions follow. The elements of `cpa.fadd.ord` enter their queues as these have
room, in slice and box order (06 R125; log 22); the whole copy waits while a peer's queue has none. -/
def copyPerform (s : State) (h : Nat) (o : Op) (c : CopyOps) (sls : List Slice) (tab : List (Nat × Nat)) : State :=
  if s.peerHeld c sls then s
  else match c.form with
  | .cpa 2 _ =>
    let adds := (s.orderedAdds o c sls tab).drop c.ent
    let (s, n) := s.enterAdds (s.selfDev (s.partOf o.core)) (((s.team o.tid).map (·.id)).getD 0) adds
    let s := s.noteSources o c sls c.ent n
    if n = adds.length then s.copyDone h o c sls tab
    else s.putOp h { o with kind := .copy { c with ent := c.ent + n } sls }
  | f =>
    let us := sls.flatMap fun sl =>
      let sl' := (s.sideOf o (Shape.of sl.src).space (f.peerSide c false)).loc tab
      (s.copySides o c (Shape.of sl.dst)).flatMap fun e => (xfersOf f sl).map fun u => ({ u with again := e.2 || u.again }, sl', e.1.loc tab)
    let (s, fls) := s.moveAll o f us
    let s := fls.foldl (fun s e => s.mapGroup o.tid e.1 fun g => if g.ended then g else g.setFlags e.2) s
    s.copyDone h o c sls tab

/-! ### Gathers (05 R109, 16 R308) -/

/-- The row shape of a lane. -/
def rowShape (sl : Slice) (l : Nat) : Shape := { Shape.of sl.src with addr := sl.addrs.getD l 0 }
/-- Spans of a lane's row. -/
def rowSpans (sl : Slice) (l : Nat) : List (Int × Nat) :=
  let x := rowShape sl l
  (Shape.box x.exts).flatMap x.spans

/-- A lane's own fault, before translation (05 R109); its address is looked at whether or not its row has elements (log 86). -/
def rowFault (sl : Slice) (l : Nat) : Option FaultCode :=
  let x := rowShape sl l
  if decide (2 ^ 57 ≤ x.addr) || !(outside (2 ^ 57) (rowSpans sl l)).isEmpty then some .copyAddressOverflow
  else if x.addr % x.align != 0 then some .address
  else none

/-- Write a lane's row. -/
def moveRow (s : State) (o : Op) (sl : Slice) (l : Nat) (tab : List (Nat × Nat)) : State :=
  let d := Shape.of sl.dst
  let x := rowShape sl l
  let src := Side.dev.loc tab
  let dst := (s.sideOf o d.space none).loc tab
  (List.range (d.exts.headD 0)).foldl (fun s (e : Nat) =>
    let s := (x.spans [(e : Int)]).foldl (fun s p => s.noteRead (src p.1.toNat) p.2 o.core (some (o.tid, some o.idx))) s
    let rd (a : Nat) : Byte := s.byteAt (src a)
    let c : List Int := [(e : Int), (l : Int)]
    let w := x.read rd [(e : Int)]
    let sc := x.readScale rd [(e : Int)]
    let s := s.putEl d dst (d.offset c) w
    if d.block then s.setNum (dst (d.scalePosn (d.offset c)).toNat) 1 sc.toNat else s) s

/-- The lane faults of one code, in one record. -/
def raiseLanes (s : State) (h : Nat) (sl : Slice) (code : FaultCode) (ls : List Nat) : State :=
  if ls.isEmpty then s
  else
    let (a, s) := s.oneOf (ls.map fun l => ((sl.addrs.getD l 0 : Nat) : Int))
    s.raiseOp h sl.idx sl.pc sl.lword code { faddr := (a % 2 ^ 60).toNat, lanes := maskOf ls, lane := true }

/-- A gather moves: lanes whose pages are all at hand commit; lanes that fault are reported and stay; with none left it is
complete. A lane that waits for a walk holds the gather back. -/
def gather (s : State) (h : Nat) (o : Op) (c : CopyOps) (sl : Slice) : State :=
  let ls := lanesOf sl.lanes
  let good := ls.filter fun l => (rowFault sl l).isNone
  let ask (s : State) (l : Nat) : Pages := s.opPages h o (spanPages .read (rowSpans sl l))
  match s.opPages h o (ctrPages c) with
  | .wait s => s
  | .bad s _ => s.raiseOp h o.idx o.pc o.lword .translation { faddr := c.caddr }
  | .ok ctab =>
    match good.findSome? fun l => (match ask s l with | .wait s' => some s' | _ => none) with
    | some s' => s'
    | none =>
      let (s, done, bad) := good.foldl (fun (r : State × List Nat × List Nat) l =>
        match ask r.1 l with
        | .ok tab => (r.1.moveRow o sl l tab, l :: r.2.1, r.2.2)
        | .wait _ => r
        | .bad s _ => (s, r.2.1, l :: r.2.2)) (s, [], [])
      let left := sl.lanes &&& ~~~(maskOf done)
      let sl := { sl with lanes := left }
      let s := s.putOp h { o with kind := .copy c [sl] }
      if left = 0 then s.copyDone h o c [sl] ctab
      else
        let s := s.raiseLanes h sl .copyAddressOverflow (ls.filter fun l => rowFault sl l == some .copyAddressOverflow)
        let s := s.raiseLanes h sl .address (ls.filter fun l => rowFault sl l == some .address)
        s.raiseLanes h sl .translation bad

/-! ### A copy cut short (05 R105, 22 R414) -/

/-- The sector of a place (06 R118): its first byte. -/
def sectorOf : Loc → Loc
  | .team t o => .team t (o / 32 * 32)
  | .spill t i o => .spill t i (o / 32 * 32)
  | .annex d o => .annex d (o / 32 * 32)
  | .dev a => .dev (a / 32 * 32)
  | .peer d a => .peer d (a / 32 * 32)
  | .curator c o => .curator c (o / 32 * 32)

/-- The pages of a list that translate, with their places. -/
def pagesAtHand (s : State) (o : Op) (ps : List (Kind × Nat)) : List (Nat × Nat) :=
  ps.filterMap fun e => (s.walkTable (s.partOf o.core) (((s.gridOf o.tid).map (·.asid)).getD 0) e.1 (65536 * e.2)).map fun x =>
    (e.2, x.pa + (65536 * e.2 - x.base))

/-- Every page of a list stands in the table. -/
def allAtHand (tab : List (Nat × Nat)) (ps : List (Kind × Nat)) : Bool := ps.all fun e => (tab.lookup e.2).isSome

/-- Device pages of this device that one element touches. -/
def xferPages (c : CopyOps) (u : Xfer) : List (Kind × Nat) :=
  (if (Shape.of u.sl.src).space = 0 && (c.form.peerSide c false).isNone then spanPages .read u.reads else []) ++
  (if (Shape.of u.sl.dst).space = 0 && (c.form.peerSide c true).isNone then spanPages .write u.writes else [])

/-- A copy that is cut short leaves each destination sector old or new, drawn (log 39): a block-scaled destination is one unit, so is a
gather's row. No arrival, count or statistic follows; an ordered add or a `cpw` that is not performed is never performed. -/
def cutCopy (s : State) (o : Op) (c : CopyOps) (sls : List Slice) : State :=
  let n := s.free
  match c.form with
  | .cpa 2 _ | .cpw _ => s
  | .cpg =>
    sls.foldl (fun s sl =>
      (lanesOf sl.lanes).foldl (fun s l =>
        let (k, s) := s.draw
        let ps := spanPages .read (rowSpans sl l)
        let tab := s.pagesAtHand o ps
        if Config.pick k % 2 = 1 && (rowFault sl l).isNone && allAtHand tab ps then s.moveRow o sl l tab else s) s) s
  | f =>
    let tab := s.pagesAtHand o (sls.flatMap (slicePages c)).dedup
    let us := sls.flatMap fun sl =>
      let sl' := (s.sideOf o (Shape.of sl.src).space (f.peerSide c false)).loc tab
      let xs := (xfersOf f sl).filter fun u => allAtHand tab (xferPages c u)
      (s.copySides o c (Shape.of sl.dst)).flatMap fun e => xs.map fun u => (u, sl', e.1.loc tab)
    let unit (u : Xfer × (Nat → Loc) × (Nat → Loc)) : Loc :=
      let d := Shape.of u.1.sl.dst
      if d.block then u.2.2 d.addr else sectorOf (u.2.2 (d.posn (d.offset u.1.dc)).1.toNat)
    let units := (us.map unit).dedup
    let us := us.filter fun u => Config.pick (n + units.idxOf (unit u)) % 2 = 1
    let s' := (({ s with free := n + units.length }).moveAll o f (if f = CopyForm.cpm then readOnce us else us)).1
    { s' with parts := s.parts }

/-! ### Codebooks (05 R114, 16 R310) -/

/-- The bytes of a codebook source, in entry order, as (key, byte). -/
def cbBytes (t : Nat) (x : Shape) (rd : Nat → Byte) : List (Nat × Byte) :=
  (Shape.box x.exts).map fun c => (16384 * t + 64 * (c.getD 1 0).toNat + (c.headD 0).toNat, rd (x.posn (x.offset c)).1.toNat)

/-- A codebook load is performed (05 R114; log 35). -/
def cpcbPerform (s : State) (h : Nat) (o : Op) (n : Nat) (sb : ShapeBits) (bsl : Nat) (tab : List (Nat × Nat)) : State :=
  let x := Shape.of sb
  let loc := (s.sideOf o x.space none).loc tab
  let s := (Shape.box x.exts).foldl (fun s c => s.noteRead (loc (x.posn (x.offset c)).1.toNat) 1 o.core (some (o.tid, some o.idx))) s
  let bs := cbBytes n x fun a => s.byteAt (loc a)
  let s := s.mapTeam o.tid fun t => { t with cb := (t.cb.keep fun k => k / 16384 != n).setAll bs }
  (s.engineArrive o.tid h bsl o.idx o.pc o.lword).opEnds h o.tid [o.idx]

/-- A copy of the team that names the table, issued before operation h, is in flight; an assembly that has not started is not (log 66). -/
def tableInUse (s : State) (t n h : Nat) : Bool :=
  s.ops.any fun e => namesTable e.2 t n && e.2.stage != .waiting && (match e.2.kind with
    | .copy _ sls => decide (copyOrder sls ≤ h)
    | _ => false)

end State

/-! ### The words -/

def execCpl (d x : ShReg) (a : SReg) (b : Bsl) (s : State) : Out := s.copyIssue .cpl d x a b fun _ _ => false
def execCps (d x : ShReg) (a : SReg) (b : Bsl) (s : State) : Out := s.copyIssue .cps d x a b fun _ _ => false
def execCpx (d x : ShReg) (a : SReg) (b : Bsl) (s : State) : Out := s.copyIssue .cpx d x a b fun _ _ => false
def execCpm (d x : ShReg) (a : SReg) (b : Bsl) (s : State) : Out :=
  s.copyIssue .cpm d x a b fun t _ => ((s.team t).bind (·.mcset)).isNone
def execCpg (d x : ShReg) (a : SReg) (b : Bsl) (s : State) : Out := s.copyIssue .cpg d x a b fun _ _ => false
def execCprPut (d x : ShReg) (a : SReg) (b : Bsl) (s : State) : Out := s.copyIssue .cprPut d x a b fun _ _ => false
def execCprGet (d x : ShReg) (a : SReg) (b : Bsl) (s : State) : Out := s.copyIssue .cprGet d x a b fun _ _ => false
def execCpa (d x : ShReg) (a : SReg) (b : Bsl) (peer : Bool) (op : BitVec 2) (s : State) : Out :=
  s.copyIssue (.cpa op.toNat peer) d x a b fun _ _ => false
def execCpst (d x : ShReg) (a : SReg) (b : Bsl) (s : State) : Out := s.copyIssue .cpst d x a b fun _ _ => false

/-- `cpw` (05 R112, 16 R309): the operations of the group that it follows are those outstanding now. -/
def execCpw (a : SReg) (b : Bsl) (peer : Bool) (s : State) : Out :=
  s.byGroup fun t i g =>
    if s.held (blkRegs a) then .next s
    else
      let k := s.copyBlk a
      if blkReg a then .next (s.raiseNow .illegalRegister)
      else if k.bad || s.ctrBad t k || k.inc == 0 || k.np != 1 || (peer && (k.cspace != 0 || !s.isPeer (s.partOf g.core) k.aux)) then
        .next (s.raiseNow .illegalOperand)
      else
        let c := State.copyOps k (.cpw peer) b
        if 255 ≤ g.counter c.form.cls then .next s
        else
          let follows (o : Op) : Bool := State.opBy o t i && (match o.kind with
            | .copy _ _ | .cpcb _ _ _ | .close _ _ _ => true
            | _ => false)
          let c := { c with after := (s.ops.filter fun e => follows e.2).map (·.1) }
          .next ((s.newOp t i g (s.glid t i) (some c.form.cls) .ready (.copy c [])).2.advance 4)

/-- `cpcb` (16 R310): the entry size is recorded now. -/
def execCpcb (x : ShReg) (a : SReg) (b : Bsl) (n : BitVec 2) (s : State) : Out :=
  s.byGroup fun t i g =>
    if s.held [a] || g.blocked false (.sh x.toNat) then .next s
    else
      let sb := g.sh.get x.toNat
      let y := Shape.of sb
      let e := y.exts.headD 0
      if !(Shape.ok false sb && y.fmt == 0x20 && !y.zorder && y.ndim == 2 && y.exts.getD 1 0 == 256 && decide (1 ≤ e) && decide (e ≤ 64)) then
        .next (s.raiseNow .illegalField)
      else if a != 0 && s.sreg a != 1 then .next (s.raiseNow .illegalOperand)
      else if 255 ≤ g.counter .cp then .next s
      else
        let s := (s.newOp t i g (s.glid t i) (some .cp) .ready (.cpcb n.toNat sb b.toNat)).2
        .next ((s.mapTeam t fun z => { z with cbE := z.cbE.set n.toNat (BitVec.ofNat 8 e) }).advance 4)

/-! ### The events -/

/-- COPY_START (16 R307, 05 R108, R114). -/
def execCopyStart (op : Nat) (s : State) : Out :=
  match s.ops.get op with
  | some o =>
    if o.stage != .ready || (s.team o.tid).isNone then .next s
    else match o.kind with
    | .copy c sls => if s.copyMayStart o c sls then .next (s.copyStart op o c sls) else .next s
    | .cpcb n sb _ =>
      if s.tableInUse o.tid n op || s.cbPending o.tid n op then .next s
      else
        let x := Shape.of sb
        let bad := State.outside (s.limitOf o.tid x.space) ((Shape.box x.exts).flatMap x.spans)
        if bad.isEmpty then .next (s.putOp op { o with stage := .moving })
        else .next (s.raiseAt op o.idx o.pc o.lword .copyAddressOverflow x.space bad)
    | _ => .next s
  | none => .next s

/-- COPY_COMPLETE (05 R103): the bytes are performed, then the completion actions. While a page waits for its walk, or the peer
cannot be reached, the copy goes on waiting. -/
def execCopyComplete (op : Nat) (s : State) : Out :=
  match s.ops.get op with
  | some o =>
    if o.stage != .moving || (s.team o.tid).isNone then .next s
    else match o.kind with
    | .copy c sls =>
      if c.form.toPeer && !s.peerUp (s.partOf o.core) c.peer then .next s
      else match s.peerPage c sls with
      | some pg => .next ({ s with peerBad := s.peerBad.erase (c.peer, pg) }.badPage op o c sls true pg)
      | none =>
      match c.form, sls with
      | .cpg, [sl] => .next (s.gather op o c sl)
      | _, _ =>
        match s.opPages op o (sls.flatMap (State.slicePages c) ++ State.ctrPages c) with
        | .ok tab => .next (s.copyPerform op o c sls tab)
        | .wait s => .next s
        | .bad s pg => .next (s.badPage op o c sls false pg)
    | .cpcb n sb bsl =>
      let x := Shape.of sb
      match s.opPages op o (if x.space = 0 then State.spanPages .read ((Shape.box x.exts).flatMap x.spans) else []) with
      | .ok tab => .next (s.cpcbPerform op o n sb bsl tab)
      | .wait s => .next s
      | .bad s pg =>
        .next (s.raiseAt op o.idx o.pc o.lword .translation 0
          ((((Shape.box x.exts).flatMap x.spans).filter fun p => p.1.toNat / 65536 == pg).map (·.1)))
    | _ => .next s
  | none => .next s

/-- `bkcommit` (16 R319, 09 R178): issued in a drain grid, into its entry's target. -/
def execBkcommit (d x : ShReg) (a : SReg) (b : Bsl) (s : State) : Out :=
  s.copyIssue .bkcommit d x a b fun t g =>
    let dst := Shape.of (g.sh.get d.toNat)
    match (s.gridOf t).bind (·.drain) with
    | none => true
    | some acc =>
      match (s.part (s.partOf g.core)).entries.find? fun e => e.acc == acc with
      | none => true
      | some e =>
        let tg := Shape.of e.f.t
        !(dst.space == tg.space && dst.addr == tg.addr && dst.fmt == tg.fmt && dst.layout == tg.layout && dst.ndim == tg.ndim &&
          dst.exts == tg.exts && dst.strides == tg.strides)

end Sys2Proof.Machine
end

