-- ==== Sys2Proof/Machine/Close.lean ====
section
/-! DEFINITION. Closing ordered adds (16 R311, 06 R124) and the exhausted queue (06 R125). -/

namespace Sys2Proof.Machine

open Sys2Proof

/-- `aclose` (16 R311): the sd field names the space. -/
def execAclose (sp : BitVec 2) (a b : SReg) (s : State) : Out :=
  s.byGroup fun t i g =>
    let dev := sp.toNat == 0
    if dev && a.toNat % 2 == 1 then .next (s.raiseNow .illegalRegister)
    else if s.held ((if dev then [a, a + 1] else [a]) ++ [b]) then .next s
    else
      let v := if dev then (s.spair a).toNat else (s.sreg a).toNat
      let n := (s.sreg b).toNat
      if n == 0 || n % 4 != 0 || v % 4 != 0 || (dev && decide (2 ^ 57 < v + n)) then .next (s.raiseNow .illegalOperand)
      else if !dev && decide (s.limitOf t sp.toNat < v + n) then .next (s.raiseNow .address { faddr := State.faddrOf (sp == 2) v })
      else if 255 ≤ g.counter .cp then .next s
      else
        let words := (List.range (n / 4)).map fun k => v + 4 * k
        .next ((s.newOp t i g (s.glid t i) (some .cp) .moving (.close ⟨sp.toNat, v, 0⟩ n words)).2.advance 4)

namespace State

/-- A close in progress whose range holds an address with an entry in the queue (06 R125). -/
def closing (s : State) (h : Home) : Bool :=
  s.ops.any fun e => match e.2.kind with
    | .close v n _ =>
      s.oq.any fun q => q.home == h && (match v.space, q.loc with
        | 1, .team t off => t == e.2.tid && decide (v.addr ≤ off) && decide (off < v.addr + n)
        | 2, .annex _ _ | 0, .dev _ => (List.range (n / 4)).any fun k => s.closeLoc e.2 v (v.addr + 4 * k) == some q.loc
        | _, _ => false)
    | _ => false

/-- One of the words left: the spec fixes no order (16 R311; log 54). -/
def pickWord (s : State) (l : List Nat) : Nat × State :=
  match l with
  | [a] => (a, s)
  | _ => let (n, s) := s.draw; (l.getD (Config.pick n % l.length) 0, s)

/-- Operation h waits because queue `hm` is full when its next ordered add is to enter. -/
def opStalled (s : State) (h : Nat) (o : Op) (hm : Home) : Bool :=
  match o.kind, o.stage with
  | .copy c sls, .moving =>
    (match c.form with
      | .cpa 2 _ => true
      | _ => false) &&
    (match s.opPages h o (sls.flatMap (slicePages c)) with
      | .ok tab => (((s.orderedAdds o c sls tab).drop c.ent).head?.map fun a => s.homeOf a.1 == hm && s.homeFull hm).getD false
      | _ => false)
  | _, _ => false

/-- Team entry and group index, the order in which faults of one clock enter (22 R348). -/
def rankOf (s : State) (t i : Nat) : Nat :=
  match s.team t, s.group t i with
  | some x, some g => 32 * entryOn x g.core + i
  | some x, none => 32 * x.entry + i
  | none, _ => i

/-- The faults of an exhausted queue: (team, group, the slice's operation where it is a copy's). -/
def exhausted (s : State) (h : Home) : List (Nat × Nat × Option (Nat × Slice)) :=
  let gs := (s.groups.filter fun e => e.2.stall == some h).map fun e => (e.1 / 64, e.1 % 64, none)
  let os := (s.ops.filter fun e => s.opStalled e.1 e.2 h).flatMap fun e => match e.2.kind with
    | .copy _ sls => sls.map fun sl => (e.2.tid, sl.idx, some (e.1, sl))
    | _ => []
  sortOn (fun e => s.rankOf e.1 e.2.1) (gs ++ os)

/-- The fault of an exhausted queue in each stalled group (06 R125). -/
def raiseStalled (s : State) (l : List (Nat × Nat × Option (Nat × Slice))) : State :=
  l.foldl (fun s e => match e.2.2 with
    | none => (s.raiseGroup e.1 e.2.1 .orderedQueueExhausted {}).mapGroup e.1 e.2.1 fun g => { g with stall := none }
    | some (op, sl) => s.raiseOp op sl.idx sl.pc sl.lword .orderedQueueExhausted {}) s

/-- A queue of peer d is exhausted: the copies that it holds back report it, the slices of each as at home (06 R125; log 16). -/
def peerExhausted (s : State) (d : Nat) (rs : List (Nat × Nat)) : State :=
  let os := s.ops.flatMap fun e => match e.2.kind, e.2.stage with
    | .copy c sls, .moving =>
      if c.peer == d && peerMeets c sls rs && s.peerHeld c sls then sls.map fun sl => (e.2.tid, sl.idx, some (e.1, sl)) else []
    | _, _ => []
  s.raiseStalled (sortOn (fun e => s.rankOf e.1 e.2.1) os)

end State

/-- ORDERED_CLOSE_STEP (06 R124): one word of a close. A word whose page waits for its walk waits. -/
def execOrderedCloseStep (op : Nat) (s : State) : Out :=
  match s.ops.get op with
  | some o =>
    if o.stage != .moving || (s.team o.tid).isNone then .next s
    else match o.kind with
    | .close _ _ [] => .next ((s.sweepCloses o.tid).settleTeam o.tid)
    | .close v n left =>
      let (a, s) := s.pickWord left
      match s.opPages op o (if v.space = 0 then [(.write, a / 65536)] else []) with
      | .wait s => .next s
      | .bad s _ => .next (s.raiseOp op o.idx o.pc o.lword .translation { faddr := a })
      | .ok tab =>
        let l := (s.sideOf o v.space none).loc tab a
        let s := if s.oq.any fun e => e.loc == l then s.noteRead l 4 o.core (some (o.tid, some o.idx)) else s
        let left := left.erase a
        let s := (s.closeWord l).putOp op { o with kind := .close v n left }
        if left.isEmpty then .next (((s.leaveCounter o.tid o.idx op).sweepCloses o.tid).settleTeam o.tid) else .next s
    | _ => .next s
  | none => .next s

/-- ORDERED_QUEUE_EXHAUSTED (06 R125): 1 ms of the always-on clock, 1,000,000 ticks (03 R67). The time starts again at the fault, and where no group is stalled too (log 69). -/
def execOrderedQueueExhausted (h : Home) (s : State) : Out :=
  match s.oqSince.get (State.homeKey h) with
  | none => .next s
  | some t0 =>
    if s.clk.toNat < t0 + 1000000 || s.closing h then .next s
    else
      let s := s.raiseStalled (s.exhausted h)
      .next { s with oqSince := s.oqSince.set (State.homeKey h) s.clk.toNat }

end Sys2Proof.Machine
end

