-- ==== Sys2Proof/Machine/Collective.lean ====
section
/-! DEFINITION. Collectives (08 R155-R162, 16 R312, R313): issue, the handshake, the fold in rank order, completion and timeout. The
members exchange element bits by box position; of a block-scaled format each carries its block's scale above bit 8. -/

namespace Sys2Proof.Machine

open Sys2Proof

namespace State

/-- P of a peer-set entry, and the device of a rank (25 R409). -/
def setSize (s : State) (p ix : Nat) : Nat := fieldAt (s.cfgW 2 p (0x1000 + 0x400 * ix)).toNat 0 9
def setDev (s : State) (p ix r : Nat) : Nat :=
  let o := 4 + 2 * r
  fieldAt (s.cfgW 2 p (0x1000 + 0x400 * ix + o / 4 * 4)).toNat (8 * (o % 4)) 16

/-- The members of a set by rank. -/
def members (s : State) (p ix : Nat) : List Nat := (List.range (s.setSize p ix)).map (s.setDev p ix)

end State

/-- The reduction applies to the format (08 R158): 0 sum, 1 max, 2 min. -/
def redOk (red fmt : Nat) : Bool :=
  if red = 0 then [0, 1, 2, 3, 4, 6, 0x10].contains fmt else [0, 1, 2, 3, 4, 0x10, 0x11].contains fmt

/-- Collectives by code: 0 all-reduce, 1 reduce-scatter, 2 all-gather, 3 broadcast. -/
def reduces (op : Nat) : Bool := op < 2

/-- The chunk of coordinates along the outermost extent (08 R159). -/
def chunkOf (x : Shape) (P : Nat) (c : List Int) : Nat := (c.getLastD 0).toNat / max 1 (x.exts.getLastD 1 / max 1 P)

/-- Chunks are cut along an extent that P divides. -/
def cutOk (op P : Nat) (x : Shape) : Bool := !(op == 1 || op == 2) || P == 0 || x.exts.getLastD 0 % P == 0

namespace State

/-- Elements of a tile that a collective reads on this member (08 R157, R159). -/
def collReads (op P rank root : Nat) (x : Shape) : List (List Int) :=
  (Shape.box x.exts).filter fun c => if op = 2 then chunkOf x P c == rank else op != 3 || root == rank

/-- Elements of a tile that a collective writes on this member. -/
def collWrites (op P rank : Nat) (x : Shape) : List (List Int) :=
  (Shape.box x.exts).filter fun c => op != 1 || chunkOf x P c == rank

/-- Issue a collective (16 R312, R313; 08 R155-R160). Among the 64 in flight count those of saved teams and those that hold a fault (log 77).
The pins are those that stand now (09 R175; log 88). -/
def collIssue (s : State) (op red : Nat) (sr : Bool) (t : ShReg) (a : SReg) (b : Bsl) : Out :=
  s.byGroup fun tid i g =>
    if s.held (if op = 3 then [a, a + 1] else [a]) || g.blocked false (.sh t.toNat) then .next s
    else
      let p := s.partOf g.core
      let sb := g.sh.get t.toNat
      let x := Shape.of sb
      let w := (s.sreg a).toNat
      let ix := fieldAt w 0 6
      let P := s.setSize p ix
      let ms := s.members p ix
      let root := if op = 3 then (s.sreg (a + 1)).toNat else 0
      let badReg := a.toNat == 0 || decide (126 < a.toNat)
      if !(Shape.ok false sb && (!reduces op || redOk red x.fmt) && (badReg || cutOk op P x)) then .next (s.raiseNow .illegalField)
      else if badReg then .next (s.raiseNow .illegalRegister)
      else if fieldAt w 6 10 != 0 || P == 0 || !ms.contains (s.selfDev p) || !(decide ms.Nodup) || (op == 3 && decide (P ≤ root)) then
        .next (s.raiseNow .illegalOperand)
      else
        let rank := ms.idxOf (s.selfDev p)
        let out := outside (s.limitOf tid x.space) ((Shape.box x.exts).flatMap x.spans)
        let pn := if x.space = 0 then s.pins p (((s.gridOf tid).map (·.asid)).getD 0) else []
        let hit := (((collWrites op P rank x).flatMap x.spans).filter (hits pn)).map (·.1)
        if !out.isEmpty then
          let (ad, s) := s.oneOf out
          .next (s.raiseNow .copyAddressOverflow { faddr := x.space * 2 ^ 60 + (ad % 2 ^ 60).toNat })
        else if !hit.isEmpty then
          let (ad, s) := s.oneOf hit
          .next (s.raiseNow .pinnedWrite { faddr := (ad % 2 ^ 60).toNat })
        else
          let n := (s.ops.filter fun e => s.partOf e.2.core == p && (match e.2.kind with
            | .coll _ => true
            | _ => false)).length
          if 255 ≤ g.counter .cl || 64 ≤ n then .next s
          else
            let seq := (((s.team tid).map fun (y : Team) => y.collSeq.get ix).getD 0).toNat
            let d : CollDesc := ⟨op, red, sr, x.fmt, x.exts, fieldAt w 16 16, root⟩
            let s := (s.newOp tid i g (s.glid tid i) (some .cl) .waiting (.coll ⟨d, ix, seq, rank, P, sb, b.toNat, [], false⟩)).2
            .next ((s.mapTeam tid fun y => { y with collSeq := y.collSeq.set ix (BitVec.ofNat 32 (seq + 1)) }).advance 4)

end State

def execClar (t : ShReg) (a : SReg) (b : Bsl) (sr : Bool) (op : BitVec 2) (s : State) : Out := s.collIssue 0 op.toNat sr t a b
def execClrs (t : ShReg) (a : SReg) (b : Bsl) (sr : Bool) (op : BitVec 2) (s : State) : Out := s.collIssue 1 op.toNat sr t a b
def execClag (t : ShReg) (a : SReg) (b : Bsl) (s : State) : Out := s.collIssue 2 0 false t a b
def execClbc (t : ShReg) (a : SReg) (b : Bsl) (s : State) : Out := s.collIssue 3 0 false t a b

/-! ### The fold (08 R157, R158) -/

/-- The rounding of hop r for element e. -/
def hopMode (cseed : Nat) (d : CollDesc) (r e : Nat) : RMode :=
  if d.sr then .sr (mixer (BitVec.ofNat 64 cseed ^^^ BitVec.ofNat 64 (r * 2 ^ 48) ^^^ BitVec.ofNat 64 (d.step * 2 ^ 32)) (BitVec.ofNat 64 e))
  else .rne

/-- One hop on element bits. -/
def hop (d : CollDesc) (md : RMode) (a b : Nat) : Nat :=
  match floatFmt d.fmt with
  | some f =>
    if d.red = 0 then (f.narrow md ((f.value a).add (f.value b)).1).1
    else
      let u := f.value a
      let v := f.value b
      (f.narrow .rne (if u.isNan || v.isNan then .nan else if d.red = 1 then u.greater v else u.lesser v)).1
  | none =>
    let u : Word := BitVec.ofNat 32 a
    let v : Word := BitVec.ofNat 32 b
    if d.red = 0 then (u + v).toNat
    else if d.fmt = 0x10 then (if d.red = 1 then opMax u v else opMin u v).toNat
    else if d.red = 1 then max u.toNat v.toNat else min u.toNat v.toNat

/-- The fold of one element over the ranks 1 to n, from acc: `val r` is rank r's. -/
def foldEl (cseed : Nat) (d : CollDesc) (e : Nat) (val : Nat → Nat) : Nat → Nat → Nat
  | _, 0 => val 0
  | r, n + 1 => hop d (hopMode cseed d (r + n) e) (foldEl cseed d e val r n) (val (r + n))

/-- The value of a code with its scale byte above bit 8. -/
def blockVal (v : Nat) : FVal :=
  match e8m0 (v / 256 % 256) with
  | none => .nan
  | some q => (FFmt.e4m3.value (v % 256)).mul (.fin false q) |>.1

/-- The fold of one bs8 block: `val r` gives the values of rank r's 32 elements, `es` their box positions; codes and scale. -/
def foldBlock (cseed : Nat) (d : CollDesc) (es : List Nat) (val : Nat → List FVal) : Nat → List FVal × List Nat × Nat
  | 0 => (val 0, [], 0)
  | n + 1 =>
    let (acc, _, _) := foldBlock cseed d es val n
    let (cs, sc, _) := blockWriteBack 0x06 ((acc.zip (val (n + 1))).map fun p => (p.1.add p.2).1) (.inf false)
      (es.map (hopMode cseed d (n + 1))) false
    (cs.map fun c => blockVal (c + 256 * sc), cs, sc)

/-- Box position of coordinates, dimension 0 fastest (08 R157). -/
def boxIx : List Nat → List Int → Nat
  | e :: es, c :: cs => c.toNat + e * boxIx es cs
  | _, _ => 0

namespace State

/-- The tile of this member as it is exchanged. -/
def tileBits (s : State) (x : Shape) (loc : Nat → Loc) : List Nat :=
  let rd (a : Nat) : Byte := s.byteAt (loc a)
  (Shape.box x.exts).map fun c =>
    x.getEl rd (x.offset c) + if x.block then 256 * (rd (x.scalePosn (x.offset c)).toNat).toNat else 0

/-- Write the exchanged bits of one element. -/
def putTile (s : State) (x : Shape) (loc : Nat → Loc) (c : List Int) (v : Nat) : State :=
  let o := x.offset c
  if x.block then (s.putEl x loc o (v % 256)).setNum (loc (x.scalePosn o).toNat) 1 (v / 256) else s.putEl x loc o v

/-- The new bits of the element at c, box position e; `val r e` is rank r's (08 R157, R159). -/
def collEl (cseed : Nat) (c : Coll) (x : Shape) (val : Nat → Nat → Nat) (at' : List Int) (e : Nat) : Nat :=
  match c.desc.op with
  | 2 => val (chunkOf x c.size at') e
  | 3 => val c.desc.root e
  | _ => if c.size ≤ 1 then val 0 e else foldEl cseed c.desc e (fun r => val r e) 1 (c.size - 1)

/-- Perform a collective on this member's tile. -/
def collTile (s : State) (p : Nat) (c : Coll) (loc : Nat → Loc) (val : Nat → Nat → Nat) : State :=
  let x := Shape.of c.tile
  let cseed := s.cfgD 2 p 0x034
  let ws := collWrites c.desc.op c.size c.rank x
  if reduces c.desc.op && x.block && 1 < c.size then
    let heads := ws.filter fun w => ((x.blockAt w).find? ws.contains) == some w
    heads.foldl (fun s w =>
      let b := x.blockAt w
      let es := b.map (boxIx x.exts)
      let vals (r : Nat) : List FVal := b.map fun y => if x.inb y then blockVal (val r (boxIx x.exts y)) else .fin false Q.zero
      let (_, cs, sc) := foldBlock cseed c.desc es vals (c.size - 1)
      (b.zip cs).foldl (fun s y => if ws.contains y.1 then s.putTile x loc y.1 (y.2 + 256 * sc) else s) s) s
  else ws.foldl (fun s w => s.putTile x loc w (collEl cseed c x val w (boxIx x.exts w))) s

/-- The descriptor of rank r that matches a collective: one of those received, where two share the numbers (08 R156; log 37). -/
def matchRecv (s : State) (p id : Nat) (c : Coll) (r : Nat) : List Recv :=
  (s.part p).recv.filter fun v => v.idx == c.idx && v.team == id && v.seq == c.seq && v.rank == r

/-- The ranks other than this member's. -/
def others (c : Coll) : List Nat := (List.range c.size).filter (· != c.rank)

/-- The team linear id of an operation's team. -/
def opTeamId (s : State) (o : Op) : Nat := ((s.team o.tid).map (·.id)).getD 0

/-- Every other member's descriptor has arrived: the handshake is complete (08 R156). -/
def allThere (s : State) (o : Op) (c : Coll) : Bool :=
  (others c).all fun r => !(s.matchRecv (s.partOf o.core) (s.opTeamId o) c r).isEmpty

/-- The collective is past its handshake: what the others sent is held. -/
def handshook (c : Coll) : Bool := decide (c.size ≤ c.got.length + 1)

/-- A collective that ends before its handshake is withdrawn: what has arrived for it, and no mismatch has taken, goes with it (08 R156, 22 R414;
log 37). -/
def withdrawColl (s : State) (o : Op) : State :=
  match o.kind with
  | .coll c =>
    if handshook c || c.spent then s
    else
      let p := s.partOf o.core
      let vs := (others c).filterMap fun r => (s.matchRecv p (s.opTeamId o) c r).head?
      s.mapPart p fun y => { y with recv := vs.foldl (fun l v => l.erase v) y.recv }
  | _ => s

/-- Take one matching descriptor of every other rank; none while one is missing. -/
def takeRecv (id p : Nat) (c : Coll) : List Nat → State → Option (List Recv × State)
  | [], s => some ([], s)
  | r :: rs, s =>
    match s.matchRecv p id c r with
    | [] => none
    | [v] => (takeRecv id p c rs s).map fun e => (v :: e.1, e.2)
    | l =>
      let (n, s) := s.draw
      match l[Config.pick n % l.length]? with
      | some v => (takeRecv id p c rs s).map fun e => (v :: e.1, e.2)
      | none => none

/-- The record of a collective's fault carries its sequence number (22 R348). -/
def collFault (s : State) (h : Nat) (o : Op) (c : Coll) (code : FaultCode) (faddr : Nat) : State :=
  s.raiseOp h o.idx o.pc o.lword code { faddr := faddr, aux := BitVec.ofNat 32 c.seq }

end State

/-- COLLECTIVE_DESCRIPTOR (08 R156): a peer's descriptor and tile arrive. -/
def execCollectiveDescriptor (p idx team seq rank : Nat) (d : CollDesc) (tile : List Nat) (s : State) : Out :=
  .next (s.mapPart p fun x => { x with recv := x.recv ++ [⟨idx, team, seq, rank, d, tile⟩] })

/-- COLLECTIVE_COMPLETE (08 R156-R160). With every member's descriptor there the handshake is complete: a mismatch is a fault, and nothing has
moved. From then on the collective needs only its links (25 R410) and its pages: the tile takes its result, the slot its arrival, and the
group leaves `cl`. -/
def execCollectiveComplete (op : Nat) (s : State) : Out :=
  match s.ops.get op with
  | some o =>
    match o.kind, o.stage with
    | .coll c, .waiting =>
      let p := s.partOf o.core
      if (s.team o.tid).isNone then .next s
      else match State.takeRecv (s.opTeamId o) p c (State.others c) s with
      | none => .next s
      | some (vs, s) =>
        let s := s.mapPart p fun y => { y with recv := vs.foldl (fun l v => l.erase v) y.recv }
        if vs.any fun v => v.desc != c.desc then
          .next ((s.putOp op { o with kind := .coll { c with spent := true } }).collFault op o c .collectiveMismatch 0)
        else .next (s.putOp op { o with stage := .moving, kind := .coll { c with got := vs } })
    | .coll c, .moving =>
      let p := s.partOf o.core
      if (s.team o.tid).isNone || !((State.others c).all fun r => s.peerUp p (s.setDev p c.idx r)) then .next s
      else
        let x := Shape.of c.tile
        let rs := (State.collReads c.desc.op c.size c.rank c.desc.root x).flatMap x.spans
        let ws := (State.collWrites c.desc.op c.size c.rank x).flatMap x.spans
        match s.opPages op o (if x.space = 0 then State.spanPages .read rs ++ State.spanPages .write ws else []) with
        | .wait s => .next s
        | .bad s pg =>
          let (a, s) := s.oneOf (State.inPage pg (rs ++ ws))
          .next (s.collFault op o c .translation (a % 2 ^ 60).toNat)
        | .ok tab =>
          let loc := (s.sideOf o x.space none).loc tab
          let s := s.noteSpans o loc rs
          let own := s.tileBits x loc
          let val (r e : Nat) : Nat :=
            if r = c.rank then own.getD e 0 else ((c.got.find? fun v => v.rank == r).map fun v => v.tile.getD e 0).getD 0
          let s := s.collTile p c loc val
          .next ((s.engineArrive o.tid op c.bsl o.idx o.pc o.lword).opEnds op o.tid [o.idx])
    | _, _ => .next s
  | none => .next s

/-- COLLECTIVE_TIMEOUT (08 R161): ctmo ms (24 R385) after issue or restart, the handshake not complete. -/
def execCollectiveTimeout (op : Nat) (s : State) : Out :=
  match s.ops.get op with
  | some o =>
    match o.kind, o.stage with
    | .coll c, .waiting =>
      let p := s.partOf o.core
      let ms := fieldAt (s.cfgW 2 p 0x03C).toNat 0 16
      if s.allThere o c || (s.team o.tid).isNone || s.clk.toNat < o.since + 1000000 * ms then .next s
      else .next (s.collFault op o c .collectiveTimeout 0)
    | _, _ => .next s
  | none => .next s

end Sys2Proof.Machine
end

