-- ==== Sys2Proof/Machine/Governor.lean ====
section
/-! DEFINITION. Charge records and the issue governor (23 R368-R371). -/

namespace Sys2Proof.Machine

open Sys2Proof

/-- The charge weight of a lane opcode (23 R368). -/
def laneWeight (op : Nat) : Nat :=
  if op ≤ 0x19 || 0xE0 ≤ op then 1
  else if op ≤ 0x49 then 2
  else if op ≤ 0x69 then 3
  else if op ≤ 0x83 then 2
  else if op ≤ 0xA6 then 2
  else if op ≤ 0xC5 then 3
  else 2

/-- The charge weight of a scalar opcode at issue; an mxa is charged while it executes. -/
def scalarWeight (op : Nat) : Nat :=
  if op = 0x68 then 0 else if 0x58 ≤ op && op ≤ 0x75 then 32 else 4

/-- What a word charges at issue: a lane word its weight for each active live lane, any other word its weight. -/
def chargeOf (i : Instr) (active : LaneMask) : Nat :=
  match laneParts i with
  | some (op, _) => laneWeight op.toNat * (lanesOf active).length
  | none => scalarWeight (((encScalar i).getLast?.map fun w => (fOp w).toNat).getD 0)

/-- Add to a 32-bit saturating sum. -/
def satAdd (x : Word) (n : Nat) : Word := if 2 ^ 32 ≤ x.toNat + n then 0xFFFFFFFF else BitVec.ofNat 32 (x.toNat + n)

namespace State

/-- The band of a team (23 R369). -/
def bandOf (s : State) (t : Nat) : Nat := ((s.gridOf t).map (·.prio)).getD 0 / 4

/-- Charge n units to a core's cluster, in a band: the issued sum, the window, what is left of the sub-slot. -/
def charge (s : State) (core band n : Nat) : State :=
  let c := s.cluster (core / 4)
  let w := match c.window with
    | [] => [n]
    | x :: r => (x + n) :: r
  s.putCluster (core / 4) { c with issued := c.issued.set band (satAdd (c.issued.get band) n), window := w, rem := c.rem - n, began := true }

/-- An mxa that has occupied the core's arrays in the first k of the last n clocks: 8 units in each (23 R368), charged but no issue of the
cluster's (R371). -/
def chargeMx (s : State) (core band k n : Nat) : State :=
  let c := s.cluster (core / 4)
  s.putCluster (core / 4) { c with
    issued := c.issued.set band (satAdd (c.issued.get band) (8 * k)), rem := c.rem - 8 * k,
    window := (c.window ++ List.replicate (4 - c.window.length) 0).zipIdx.map
      fun (e : Nat × Nat) => if n - k ≤ e.2 ∧ e.2 < n then e.1 + 8 else e.1 }

/-- The governor holds back a word of that charge (23 R371). -/
def withholds (s : State) (core n : Nat) : Bool :=
  let c := s.cluster (core / 4)
  c.began && decide (max c.rem 0 < n)

/-- Count a withheld charge (23 R369). -/
def withhold (s : State) (core band n : Nat) : State :=
  let c := s.cluster (core / 4)
  s.putCluster (core / 4) { c with withheld := c.withheld.set band (satAdd (c.withheld.get band) n) }

end State

end Sys2Proof.Machine
end

