-- ==== Sys2Proof/Machine/MatrixMath.lean ====
section
/-! DEFINITION. The arithmetic of the matrix arrays: residue channels (04 R80, R81), block-scaled FP4 blocks (04 R82), K-groups
(04 R83, R84), operand pairings (07 R142, 16 R314). -/

namespace Sys2Proof.Machine

open Sys2Proof

/-! ### Pairings -/

/-- How an operation accumulates. -/
inductive MxMode where
  | fp | res | bs4
deriving DecidableEq, Repr

/-- Format codes of A and B, dense K, mode and G of a pairing code. -/
structure Pairing where
  fa   : Nat
  fb   : Nat
  k    : Nat
  mode : MxMode
  g    : Nat
deriving DecidableEq, Repr

def pairing (pc : Nat) : Pairing :=
  match pc with
  | 0 => ⟨3, 3, 256, .fp, 32⟩
  | 1 => ⟨3, 4, 256, .fp, 32⟩
  | 2 => ⟨4, 3, 256, .fp, 32⟩
  | 3 => ⟨4, 4, 256, .fp, 32⟩
  | 4 => ⟨6, 6, 256, .fp, 32⟩
  | 5 => ⟨0x14, 0x14, 256, .res, 1⟩
  | 6 => ⟨0x14, 0x16, 256, .res, 1⟩
  | 7 => ⟨0x16, 0x14, 256, .res, 1⟩
  | 8 => ⟨5, 5, 512, .fp, 64⟩
  | 9 => ⟨7, 7, 512, .bs4, 32⟩
  | 10 => ⟨0x16, 0x16, 512, .res, 1⟩
  | 11 => ⟨1, 1, 128, .fp, 16⟩
  | _ => ⟨2, 2, 128, .fp, 16⟩

/-! ### Residues (04 R80, R81) -/

/-- The three channels, as packed across the two words. -/
structure Residue where
  x1 : Nat
  x2 : Nat
  x3 : Nat
deriving DecidableEq, Repr

namespace Residue
def zero : Residue := ⟨0, 0, 0⟩
/-- Add an exact integer to every channel; channels never exchange carries. -/
def add (r : Residue) (p : Int) : Residue :=
  ⟨(((r.x1 : Int) + p) % 2047).toNat, (((r.x2 : Int) + p) % 2048).toNat, (((r.x3 : Int) + p) % 2049).toNat⟩
/-- The residues of an a0 and an a1 word. -/
def ofWords (a0 a1 : Word) : Residue :=
  ⟨fieldAt a0.toNat 0 11, fieldAt a0.toNat 11 11, fieldAt a0.toNat 22 10 + 1024 * fieldAt a1.toNat 0 2⟩
def word0 (r : Residue) : Word := BitVec.ofNat 32 (r.x1 + 2 ^ 11 * r.x2 + 2 ^ 22 * (r.x3 % 1024))
def word1 (r : Residue) : Word := BitVec.ofNat 32 (r.x3 / 1024)
/-- Reconstruction by the Chinese remainder theorem. -/
def crt (r : Residue) : Int :=
  let m : Nat := 2047 * 2048 * 2049
  let xp := (r.x1 * 4297064448 + r.x2 * 8585738241 + r.x3 * (4192256 * 1025)) % m
  if xp < 4294966272 then xp else (xp : Int) - m
end Residue

/-! ### Accumulation into FP32 -/

/-- acc := RNE(acc + x) (04 R83). -/
def accAdd (acc : Word) (x : FVal) : Word := (rne32 ((f32 acc).add x).1).1

/-- The sum of one K-group of products, none where every product is zero (04 R83, R84). -/
def groupSum (ps : List FVal) : Option FVal :=
  let isInf (s : Bool) (p : FVal) : Bool := p == .inf s
  if ps.any FVal.isNan || (ps.any (isInf true) && ps.any (isInf false)) then some .nan
  else if ps.any (isInf true) then some (.inf true)
  else if ps.any (isInf false) then some (.inf false)
  else
    match (ps.filter fun p => !p.isZero).map fun p => p.toQ.abs.log2 with
    | [] => none
    | e :: es =>
      let q := Q.pow2 (es.foldl max e - 47)
      let n := ps.foldl (fun (n : Int) p => n + (p.toQ.div q).floor) 0
      some (.ofQ (q.mul (Q.ofInt n)))

/-- The j-th of the groups of G of a list. -/
def chunkAt {α : Type} (G : Nat) (l : List α) (j : Nat) : List α := (l.drop (j * G)).take G

/-- Add the K-groups of a list of products, in ascending k. -/
def addGroups (acc : Word) (G : Nat) (ps : List FVal) : Word :=
  (List.range ((ps.length + G - 1) / G)).foldl (fun acc j => match groupSum (chunkAt G ps j) with
    | none => acc
    | some g => accAdd acc g) acc

/-- A sparse column: its groups are counted over logical k; every k that is not named has product zero (07 R145). -/
def addSparse (acc : Word) (G : Nat) (n : Nat) (ps : List (Nat × FVal)) : Word :=
  (List.range ((n + G - 1) / G)).foldl (fun acc j => match groupSum ((ps.filter fun e => e.1 / G == j).map (·.2)) with
    | none => acc
    | some g => accAdd acc g) acc

/-- One block of bs4 against bs4 (04 R82): the 32 products of doubled elements in the residue channels, then both scales. -/
def addBlock4 (acc : Word) (sa sb : Nat) (ps : List (Int × Int)) : Word :=
  if sa = 0xFF || sb = 0xFF then accAdd acc .nan
  else
    let r := ps.foldl (fun r p => r.add (p.1 * p.2)) Residue.zero
    accAdd acc (.ofQ ((Q.ofInt r.crt).mul (Q.pow2 ((sa : Int) + sb - 254 - 2))))

/-- Blocks in ascending k. -/
def addBlocks4 (acc : Word) (sas sbs : List Nat) (a b : List Int) : Word :=
  (List.range sas.length).foldl (fun acc j => addBlock4 acc (sas.getD j 0) (sbs.getD j 0) ((chunkAt 32 a j).zip (chunkAt 32 b j))) acc

/-- Twice the value of an e2m1 code, an integer. -/
def twice4 (code : Nat) : Int := ((FFmt.e2m1.value code).toQ.mul (Q.ofInt 2)).floor

/-! ### B quarters (07 R143-R145, 16 R314) -/

/-- The bits of element (k, n) of a quarter in the registers from vb, of w bits: `rd r l` reads a register in a lane. -/
def bBits (rd : Nat → Nat → Word) (w vb k n : Nat) : Nat :=
  if w = 16 then fieldAt (rd (vb + 2 * (k / 8) + n % 4 / 2) (k % 8 * 12 + n / 4)).toNat (16 * (n % 2)) 16
  else if w = 8 then fieldAt (rd (vb + k / 8) (k % 8 * 12 + n / 4)).toNat (8 * (n % 4)) 8
  else fieldAt (rd (vb + k / 16) (k / 2 % 8 * 12 + n / 4)).toNat (8 * (n % 4) + 4 * (k % 2)) 4

/-- The scale byte of k-block j and column n. -/
def bScale (rd : Nat → Nat → Word) (two : Bool) (vs j n : Nat) : Nat :=
  if two then fieldAt (rd (vs + j / 8) (j % 8 * 12 + n / 4)).toNat (8 * (n % 4)) 8
  else fieldAt (rd vs (j * 12 + n / 4)).toNat (8 * (n % 4)) 8

/-- The position of stored value s of column n (07 R145). -/
def bPos (rd : Nat → Nat → Word) (w vm sel s n : Nat) : Nat :=
  if w = 16 then fieldAt (rd (vm + s / 16) (48 * sel + s / 4 % 4 * 12 + n / 4)).toNat (8 * (n % 4) + 2 * (s % 4)) 2
  else fieldAt (rd (vm + s / 32) (s / 4 % 8 * 12 + n / 4)).toNat (8 * (n % 4) + 2 * (s % 4)) 2

/-- A value with a scale byte. -/
def scaled (code bits scale : Nat) : FVal :=
  match e8m0 scale with
  | none => .nan
  | some q => ((elemValue code bits).mul (.fin false q)).1

/-! ### Checksums (07 R153) -/

/-- The signed integer significand of an element: of an integer format its value, of a float ±(2^m + F) or ±F, zero for NaN and
infinities; scales play no part. -/
def signif (code bits : Nat) : Int :=
  match intFmt code, (floatFmt code).or (blockFmt code) with
  | some (true, w), _ => sextInt bits w
  | some (false, w), _ => (bits % 2 ^ w : Nat)
  | none, some f =>
    let F := fieldAt bits 0 f.mbits
    let m : Int := if fieldAt bits f.mbits f.ebits = 0 then F else 2 ^ f.mbits + F
    match f.value bits with
    | .fin _ _ => if bitAt bits (f.ebits + f.mbits) then -m else m
    | _ => 0
  | none, none => 0

/-- The checksum of one row of A against the 48 columns of a quarter, each a list of logical k and bits. -/
def checksum (p : Pairing) (row : List Nat) (cols : List (List (Nat × Nat))) : Int :=
  (row.zipIdx.foldl (fun t a => t + signif p.fa a.1 *
    ((cols.foldl (fun u c => (c.filter fun e => e.1 == a.2).foldl (fun u e => u + signif p.fb e.2) u) 0) % 255)) 0) % 255

/-- The sum of the significand products that the cells of the row formed. -/
def formed (p : Pairing) (row : List Nat) (cols : List (List (Nat × Nat))) : Int :=
  cols.foldl (fun t c => c.foldl (fun t e => t + signif p.fa (row.getD e.1 0) * signif p.fb e.2) t) 0

/-! ### Accumulator tiles -/

/-- Rebuild the first n keys from k up of a store: f takes the key and the old value. -/
def Cells.rebuild {w : Nat} (f : Nat → BitVec w → BitVec w) : Nat → Nat → Cells w → Cells w
  | _, 0, l => l
  | k, n + 1, [] => let v := f k 0; let r := Cells.rebuild f (k + 1) n []; if v = 0 then r else (k, v) :: r
  | k, n + 1, (a, u) :: l =>
    if a = k then let v := f k u; let r := Cells.rebuild f (k + 1) n l; if v = 0 then r else (k, v) :: r
    else let v := f k 0; let r := Cells.rebuild f (k + 1) n ((a, u) :: l); if v = 0 then r else (k, v) :: r

/-- The same for two stores together. -/
def Cells.rebuild2 {w : Nat} (f : Nat → BitVec w → BitVec w → BitVec w × BitVec w) :
    Nat → Nat → Cells w → Cells w → Cells w × Cells w
  | _, 0, l, m => (l, m)
  | k, n + 1, l, m =>
    let (u, l') := match l with
      | (a, u) :: r => if a = k then (u, r) else (0, l)
      | [] => (0, l)
    let (v, m') := match m with
      | (a, v) :: r => if a = k then (v, r) else (0, m)
      | [] => (0, m)
    let (x, y) := f k u v
    let (rl, rm) := Cells.rebuild2 f (k + 1) n l' m'
    (if x = 0 then rl else (k, x) :: rl, if y = 0 then rm else (k, y) :: rm)

end Sys2Proof.Machine
end

