-- ==== Sys2Proof/Machine/Matrix.lean ====
section
/-! DEFINITION. Matrix operations: issue and accumulators (07 R143-R149, 16 R314-R316), the arrays (07 R148-R151, 04 R80-R84), write-back
(07 R152, 04 R85, R86), batches (07 R150), Audit (07 R153). -/

namespace Sys2Proof.Machine

open Sys2Proof

namespace State

/-- The holder of quarter h on a core: the compute group of that role that has not ended (07 R143). -/
def holder (s : State) (t core h : Nat) : Option Group :=
  (s.groupsOf t).find? fun g => g.core == core && g.kind == 2 && g.role == h && !g.ended
def holders (s : State) (t core : Nat) : List Group := (List.range 4).filterMap (s.holder t core)

/-- The group whose registers the arrays read as quarter h: the holder, which cannot end before they have read, or, of a team that is
killed, the group that held it (07 R151, 22 R414). -/
def quarter (s : State) (t core h : Nat) : Option Group :=
  (s.groupsOf t).find? fun g => g.core == core && g.kind == 2 && g.role == h
def quarters (s : State) (t core : Nat) : List Group := (List.range 4).filterMap (s.quarter t core)

/-! ### Accumulators (07 R147) -/

/-- What team t itself holds of accumulator j of a core: not what a write-back that has issued releases. -/
def ownHold (s : State) (t core j : Nat) : Option Hold :=
  match if j = 0 then (s.core core).hold0 else (s.core core).hold1 with
  | some h => if h.tid = t && h.rel.isNone then some h else none
  | none => none

/-- Accumulator j of a core is held by another team, or reserved to a Filler drain team. -/
def accTaken (s : State) (t core j : Nat) : Bool :=
  (match if j = 0 then (s.core core).hold0 else (s.core core).hold1 with
    | some h => h.tid != t
    | none => false) ||
  s.teams.any fun e => e.1 != t && e.2.reserve && (coresOf e.2).contains core

/-- Set the holder of accumulator j of a core. -/
def setHold (s : State) (core j : Nat) (h : Option Hold) : State :=
  s.mapCore core fun c => if j = 0 then { c with hold0 := h } else { c with hold1 := h }

/-- The accumulators that an operation names. -/
def accsOf (acc : Nat) (res : Bool) : List Nat := if res then [0, 1] else [acc]

/-- The illegal-operand conditions of an mxa on accumulators (07 R147). -/
def accBad (s : State) (t core acc : Nat) (z res : Bool) : Bool :=
  if z then (accsOf acc res).any fun j => match s.ownHold t core j with
    | some h => h.residue != res
    | none => false
  else match s.ownHold t core acc with
    | some h => h.residue != res
    | none => true

/-- A waiting word still waits: its group stands on it. -/
def accWaits (s : State) (e : Nat × DWord × Instr) : Bool :=
  match s.groups.get e.1 with
  | some g => !g.ended && g.spc == e.2.1
  | none => false

/-- Accumulators that a waiting word wants. -/
def accWants (i : Instr) : List Nat :=
  match i with
  | .mxa acc _ _ _ _ _ pc _ _ _ => accsOf acc.toNat ((pairing pc.toNat).mode == .res)
  | _ => []

/-- An earlier waiting word of another group wants one of the accumulators. -/
def accAhead (s : State) (key core : Nat) (js : List Nat) : Bool :=
  ((s.core core).accWait.takeWhile fun e => e.1 != key).any fun e => s.accWaits e && js.any (accWants e.2.2).contains

/-- An mxa.z of a group waits for accumulator j of a core: another team has it, or an earlier waiting word wants it and the group's own
team does not hold it; one that its team holds it restarts at once (log 55), and a Filler drain team, to which the accumulators are
reserved, never waits (07 R147). -/
def accBusy (s : State) (key core j : Nat) : Bool :=
  s.accTaken (key / 64) core j ||
    (!((s.team (key / 64)).map (·.reserve)).getD false && (s.ownHold (key / 64) core j).isNone && s.accAhead key core [j])

/-- Leave a core's list of waiting words. -/
def accLeave (s : State) (key core : Nat) : State :=
  s.mapCore core fun c => { c with accWait := c.accWait.filter fun e => e.1 != key }

/-- Join a core's list of waiting words. -/
def accJoin (s : State) (key core : Nat) (pc : DWord) (i : Instr) : State :=
  s.mapCore core fun c =>
    if c.accWait.any fun e => e.1 == key && e.2.1 == pc then c
    else { c with accWait := (c.accWait.filter fun e => e.1 != key) ++ [(key, pc, i)] }

/-- Room in the queue of every core for one more operation (07 R148, R149). -/
def mxRoom (s : State) (cores : List Nat) : Bool := cores.all fun c => decide ((s.core c).mxq.length < 8)

/-! ### mxa: issue -/

/-- Scale registers of an operation (07 R144, 16 R314). -/
def scaleRegs (pc : Nat) (sp : Bool) (x : Nat) : List Nat :=
  if pc = 9 || (pc = 4 && sp) then [2 * x, 2 * x + 1] else if pc = 4 then [2 * x] else []

/-- First register of the index block. -/
def indexReg (pc : Nat) (x : Nat) (vm : Option (BitVec 6)) : Nat :=
  if pc = 4 then 8 * ((vm.map (·.toNat)).getD 0) else 8 * (x % 64)

/-- Registers of each holder that the operation reads (07 R143-R145). -/
def mxRegs (pc vb x vm : Nat) (sp : Bool) : List Nat :=
  (List.range (if pc = 6 then 16 else 32)).map (vb + ·) ++ scaleRegs pc sp x ++ if sp then (List.range 8).map (vm + ·) else []

/-- The A shape's conditions (07 R146). -/
def aOk (p : Pairing) (k : Nat) (sb : ShapeBits) : Bool :=
  let x := Shape.of sb
  let blk := (blockFmt p.fa).isSome
  Shape.ok false sb && x.fmt == p.fa && x.ndim == 2 && decide (1 ≤ x.exts.getD 1 0) && decide (x.exts.getD 1 0 ≤ 256) &&
    decide (1 ≤ x.exts.headD 0) && decide (x.exts.headD 0 ≤ k) && x.zorder != blk && (!blk || x.strides.headD 0 == 1)

/-- The cores that an operation of a team runs on (07 R149). -/
def mxCores (g : Group) (pair : Bool) : List Nat := if pair then [g.core, g.core + 1] else [g.core]

/-- `.pair` is legal: a paired team, its leader core. -/
def pairOk (x : Team) (g : Group) (pair : Bool) : Bool := !pair || (x.paired && g.core == x.core)

/-- The fault of an mxa at issue that is no execution fault (07 R142-R149, 12 R226). -/
def mxaCheck (s : State) (t : Nat) (x : Team) (g : Group) (acc : Nat) (z pair sp : Bool) (sb : ShapeBits) (pc vbq xx vm : Nat) :
    Option FaultCode :=
  let p := pairing pc
  let res := p.mode == .res
  let cores := mxCores g pair
  let top := ((32 * vbq + 31) :: scaleRegs pc sp xx ++ if sp then [vm + 7] else []).foldl max 0
  let hs := cores.map (s.holders t)
  if (res && acc == 1) || !aOk p (if sp then 2 * p.k else p.k) sb then some .illegalField
  else if decide (10 ≤ vbq) || hs.any (fun l => l.any fun g => decide (32 * g.blocks ≤ top)) then some .illegalRegister
  else if !pairOk x g pair || hs.any (fun l => l.length < 4) || (Shape.of sb).space != 1 ||
      cores.any (fun c => s.accBad t c acc z res) then some .illegalOperand
  else none

/-- A register that the operation reads of its issuer, itself a holder, still waits for a result of an earlier word: that write is to be
used (07 R151). -/
def mxHeld (g : Group) (m : Nat × Nat × Nat × Nat × Bool) : Bool :=
  g.kind == 2 && decide (g.role < 4) && (mxRegs m.1 m.2.1 m.2.2.1 m.2.2.2.1 m.2.2.2.2).any fun r => g.blocked false (.v r)

/-- Issue an mxa (16 R315); an mxa.z that cannot have its accumulator waits in the core's list (07 R147). Whether an accumulator counts as taken
with `.pair` is as the last mxa.z on its core had it (log 76). -/
def mxaIssue (s : State) (i : Instr) (acc : Nat) (z pair sp : Bool) (sel : Nat) (sha : ShReg) (pc vbq xx vm : Nat) (len : Nat) : Out :=
  s.byGroup fun t ix g =>
    match s.team t with
    | none => .fault .noAgent
    | some x =>
      if g.blocked false (.sh sha.toNat) then .next s
      else
        let sb := g.sh.get sha.toNat
        match s.mxaCheck t x g acc z pair sp sb pc vbq xx vm with
        | some c => .next (s.raiseNow c)
        | none =>
          let y := Shape.of sb
          let out := outside x.tmSize ((Shape.box y.exts).flatMap y.spans)
          if !out.isEmpty then
            let (ad, s) := s.oneOf out
            .next (s.raiseNow .copyAddressOverflow { faddr := 2 ^ 60 + (ad % 2 ^ 60).toNat })
          else
            let key := 64 * t + ix
            let res := (pairing pc).mode == .res
            let cores := mxCores g pair
            let js := accsOf acc res
            let waits := z && cores.any fun c => js.any fun j => s.accBusy key c j
            if waits then .next (cores.foldl (fun s c => s.accJoin key c g.spc i) s)
            else if !s.mxRoom cores || mxHeld g (pc, 32 * vbq, xx, vm, sp) then .next s
            else
              let s := cores.foldl (fun s c => s.accLeave key c) s
              let m : Mxa := ⟨acc, z, pair, sp, sel, sb, pc, 32 * vbq, 2 * xx, vm, g.core⟩
              let (h, s) := s.newOp t ix g (s.glid t ix) none .ready (.mxa m)
              let s := if z then cores.foldl (fun s c => js.foldl (fun s j => s.setHold c j (some ⟨t, res, pair, none⟩)) s) s else s
              let s := cores.foldl (fun s c => s.mapCore c fun k => { k with mxq := k.mxq ++ [h] }) s
              .next (s.mapGroup t ix fun g => { g with opens := g.opens ++ [h] }.advance len)

end State

/-- `mxa` (16 R314, R315). With a vm field in a prefix the word is 8 bytes long. -/
def execMxa (acc z pair sp sel : Bool) (sha : ShReg) (pc vbq : BitVec 4) (x : BitVec 8) (vm : Option (BitVec 6)) (s : State) : Out :=
  s.mxaIssue (.mxa acc z pair sp sel sha pc vbq x vm) acc.toNat z pair sp sel.toNat sha pc.toNat vbq.toNat x.toNat
    (if sp then State.indexReg pc.toNat x.toNat vm else 0) (if vm.isSome then 8 else 4)

/-! ### mxwb: issue (07 R152, 16 R316) -/

/-- The destination's conditions that are illegal-field. -/
def wbOk (g : Group) (pair : Bool) (sb : ShapeBits) : Bool :=
  let x := Shape.of sb
  Shape.ok false sb && x.fmt == fmtCode g && x.ndim == 2 && decide (x.exts.getD 1 0 ≤ 256) &&
    decide (x.exts.headD 0 ≤ if pair then 384 else 192)

def execMxwb (d : ShReg) (a : SReg) (b : Bsl) (pair keep acc : Bool) (s : State) : Out :=
  s.byGroup fun t ix g =>
    match s.team t with
    | none => .fault .noAgent
    | some x =>
      let scaled := fmtSmode g == 1
      if s.held (if scaled then [a] else []) || g.blocked false (.sh d.toNat) then .next s
      else
        let sb := g.sh.get d.toNat
        let y := Shape.of sb
        let j := acc.toNat
        let cores := State.mxCores g pair
        let hs := cores.filterMap fun c => s.ownHold t c j
        let resA1 := acc && cores.any fun c => ((s.ownHold t c 1).map (·.residue)).getD false
        if (!scaled && a != 0) || !wbOk g pair sb || resA1 then .next (s.raiseNow .illegalField)
        else if y.space == 0 || !State.pairOk x g pair || hs.length != cores.length then .next (s.raiseNow .illegalOperand)
        else
          let out := State.outside (s.limitOf t y.space) ((Shape.box y.exts).flatMap y.spans)
          if !out.isEmpty then
            let (ad, s) := s.oneOf out
            .next (s.raiseNow .copyAddressOverflow { faddr := y.space * 2 ^ 60 + (ad % 2 ^ 60).toNat })
          else if !s.mxRoom cores then .next s
          else
            let h0 := hs.headD ⟨t, false, false, none⟩
            let w : Mxwb :=
              { acc := j, keep := keep, pair := pair, dst := sb, scale := if scaled then s.sreg a else 0, fmt := g.fmt, clip := g.clip,
                seed := g.seed, cnt := g.wbCnt, bsl := b.toNat, core := g.core, res := h0.residue,
                res2 := (hs.getLastD h0).residue }
            let (h, s) := s.newOp t ix g (s.glid t ix) none .ready (.mxwb w)
            let s := cores.foldl (fun s c => s.mapCore c fun k => { k with mxq := k.mxq ++ [h] }) s
            let rel := if h0.pair then State.coresOf x else cores
            let s := if keep then s else rel.foldl (fun s c => (State.accsOf j (((s.ownHold t c j).map (·.residue)).getD false)).foldl (fun s j =>
              match s.ownHold t c j with
              | some v => s.setHold c j (some { v with rel := some h })
              | none => s) s) s
            .next (s.mapGroup t ix fun g =>
              { g with opens := g.opens ++ [h], wbCnt := if fmtSr g then g.wbCnt + (if pair then 2 else 1) else g.wbCnt }.advance 4)

/-! ### Batches (07 R150, 16 R317) -/

def execMxfence (d : SReg) (s : State) : Out :=
  s.byGroup fun t i g =>
    if s.held [d] || 255 ≤ g.counter .mx then .next s
    else
      let (b, s) := s.closeBatch t i g
      .next ((s.setS d b).advance 4)

/-- Batch b of a group has been closed and has not completed. -/
def State.batchOpen (s : State) (t i : Nat) (b : Word) : Bool :=
  s.ops.any fun e => e.2.tid == t && e.2.idx == i && (match e.2.kind with
    | .batch c _ _ => c == b
    | _ => false)

def execMxwait (a : SReg) (s : State) : Out :=
  s.byGroup fun t i g =>
    if s.held [a] then .next s
    else
      let b := s.sreg a
      let n := (g.batchCnt - b).toNat
      if n = 0 || 2 ^ 31 ≤ n then .next (s.raiseNow .illegalOperand)
      else if s.batchOpen t i b then .next s
      else .next (s.advance 4)

/-! ### The arrays -/

namespace State

/-- A holder's register in a lane as the arrays read it, with every result that has come (07 R151): a lane that is not live reads as zero
(R143). -/
def mxRead (s : State) (t : Nat) (g : Group) (r l : Nat) : Word := if l < g.live then g.value false (s.symX t) r l else 0

/-- The values of A along k for one row: elements, scales delivered with them, fill outside (07 R146, 05 R98). A k beyond ext0 reads as zero
and is multiplied like any other (log 60). -/
def aRow (x : Shape) (rd : Nat → Byte) (k i : Nat) : List Nat :=
  (List.range k).map fun (j : Nat) =>
    let c : List Int := [(j : Int), (i : Int)]
    x.read rd c + if x.block then 256 * (x.readScale rd c).toNat else 0

/-- The operand value of A bits. -/
def aVal (p : Pairing) (v : Nat) : FVal := if p.fa = 6 then scaled 6 (v % 256) (v / 256) else elemValue p.fa v

/-- A column of B: dense, or with the logical k of each stored value (07 R143-R145); each bits, with the scale above bit 8. -/
def bCol (rd : Nat → Nat → Word) (m : Mxa) (n : Nat) : List (Nat × Nat) :=
  let p := pairing m.pc
  let w := (fmtWidth p.fb).getD 8
  let two := m.pc == 9 || m.sp
  let sc (k : Nat) : Nat := if (blockFmt p.fb).isSome then 256 * bScale rd two m.vs (k / 32) n else 0
  if m.sp then
    (List.range (if w = 16 then 128 else 256)).map fun v =>
      let k := 4 * (v / 2) + bPos rd w m.vm m.sel v n
      (k, bBits rd w m.vb v n + sc k)
  else (List.range p.k).map fun k => (k, bBits rd w m.vb k n + sc k)

def bVal (p : Pairing) (v : Nat) : FVal := if p.fb = 6 then scaled 6 (v % 256) (v / 256) else elemValue p.fb v

/-- One FP32 accumulator element after an operation. -/
def mxElem (m : Mxa) (row : List Nat) (col : List (Nat × Nat)) (acc : Word) : Word :=
  let p := pairing m.pc
  match p.mode with
  | .bs4 =>
    let sas := (List.range (p.k / 32)).map fun j => row.getD (32 * j) 0 / 256
    let sbs := (List.range (p.k / 32)).map fun j => (col.getD (32 * j) (0, 0)).2 / 256
    addBlocks4 acc sas sbs (row.map fun v => twice4 (v % 16)) (col.map fun e => twice4 (e.2 % 16))
  | _ =>
    if m.sp then addSparse acc p.g row.length (col.map fun e => (e.1, ((aVal p (row.getD e.1 0)).mul (bVal p e.2)).1))
    else addGroups acc p.g ((row.zip col).map fun e => ((aVal p e.1).mul (bVal p e.2.2)).1)

/-- One residue element after an operation. -/
def mxResidue (m : Mxa) (row : List Nat) (col : List (Nat × Nat)) (r : Residue) : Residue :=
  let p := pairing m.pc
  let ia (v : Nat) : Int := sextInt v ((fmtWidth p.fa).getD 8)
  let ib (v : Nat) : Int := sextInt v ((fmtWidth p.fb).getD 8)
  if m.sp then col.foldl (fun r e => r.add (ia (row.getD e.1 0) * ib e.2)) r
  else (row.zip col).foldl (fun r e => r.add (ia e.1 * ib e.2.2)) r

/-- Row i of A as the arrays read it. -/
def mxRow (s : State) (t : Nat) (m : Mxa) (i : Nat) : List Nat :=
  aRow (Shape.of m.a) (fun a => s.byteAt (.team t a)) (if m.sp then 2 * (pairing m.pc).k else (pairing m.pc).k) i

/-- Column c of B on a core as the arrays read it. -/
def mxCol (s : State) (t core : Nat) (m : Mxa) (c : Nat) : List (Nat × Nat) :=
  bCol (fun r l => match (s.quarters t core)[c / 48]? with
    | some g => s.mxRead t g r l
    | none => 0) m (c % 48)

/-- The arrays of one core execute an operation. -/
def arrayRun (s : State) (t core : Nat) (m : Mxa) : State :=
  let p := pairing m.pc
  let rows := (List.range 256).map (s.mxRow t m)
  let cols := (List.range 192).map (s.mxCol t core m)
  s.mapCore core fun k =>
    if p.mode = .res then
      let (u, v) := Cells.rebuild2 (fun e a b =>
        let r := mxResidue m (rows.getD (e / 192) []) (cols.getD (e % 192) []) (if m.z then Residue.zero else Residue.ofWords a b)
        (r.word0, r.word1)) 0 49152 k.a0 k.a1
      { k with a0 := u, a1 := v }
    else
      let upd (l : Cells 32) : Cells 32 := Cells.rebuild (fun e a =>
        mxElem m (rows.getD (e / 192) []) (cols.getD (e % 192) []) (if m.z then 0 else a)) 0 49152 l
      if m.acc = 0 then { k with a0 := upd k.a0 } else { k with a1 := upd k.a1 }

/-- The cores that an operation in the queues runs on. -/
def opCores (o : Op) : List Nat :=
  match o.kind with
  | .mxa m => if m.pair then [m.core, m.core + 1] else [m.core]
  | .mxwb w => if w.pair then [w.core, w.core + 1] else [w.core]
  | _ => []

/-- The operation stands at the head of every queue that it is in. -/
def mxHead (s : State) (h : Nat) (o : Op) : Bool := (opCores o).all fun c => (s.core c).mxq.head? == some h

/-- It leaves the queues. -/
def mxPop (s : State) (h : Nat) (o : Op) : State :=
  (opCores o).foldl (fun s c => s.mapCore c fun k => { k with mxq := k.mxq.erase h, mxDone := 0 }) s

/-- A register that the operation reads is deferred, and its symbol pending: the read waits (10 R193). -/
def mxPending (s : State) (t core : Nat) (m : Mxa) : Bool :=
  (s.quarters t core).any fun g => (g.pendingSym false (s.symX t) (mxRegs m.pc m.vb (m.vs / 2) m.vm m.sp)).isSome

/-! ### Audit (07 R153) -/

/-- The batch of an operation: the one that holds it, else the group's next (07 R150). -/
def batchNo (s : State) (h : Nat) (o : Op) : Word :=
  match s.ops.find? fun e => e.2.tid == o.tid && e.2.idx == o.idx && (match e.2.kind with
    | .batch _ os _ => os.contains h
    | _ => false) with
  | some e => match e.2.kind with
    | .batch b _ _ => b
    | _ => 0
  | none => ((s.group o.tid o.idx).map (·.batchCnt)).getD 0

/-- A free word (log 24). -/
def freeWord (s : State) : Word × State :=
  let (n, s) := s.draw
  (Config.freeByte (4 * n) ++ Config.freeByte (4 * n + 1) ++ Config.freeByte (4 * n + 2) ++ Config.freeByte (4 * n + 3), s)

/-- Wrong products leave their elements with free words (log 24). -/
def wrongProducts (s : State) (core : Nat) (m : Mxa) (es : List CellErr) : State :=
  es.foldl (fun s x =>
    let e := 192 * x.row + x.col
    let (v, s) := s.freeWord
    if (pairing m.pc).mode = .res then
      let (u, s) := s.freeWord
      s.mapCore core fun k => { k with a0 := k.a0.set e v, a1 := k.a1.set e (u &&& 3) }
    else s.mapCore core fun k => if m.acc = 0 then { k with a0 := k.a0.set e v } else { k with a1 := k.a1.set e v }) s

/-- The array of a quadrant finds a row of which the checksum of some quarter differs from what its cells formed (07 R153). Only a row with a
wrong product can differ. -/
def mismatch (s : State) (t core quad : Nat) (m : Mxa) (es : List CellErr) : Bool :=
  (es.filter fun x => x.row / 64 == quad).any fun x =>
    let q := x.col / 48
    let off := (es.filter fun y => y.row == x.row && y.col / 48 == q).foldl (fun t y => t + y.delta) 0
    let cols := (List.range 48).map fun c => s.mxCol t core m (48 * q + c)
    let row := s.mxRow t m x.row
    (formed (pairing m.pc) row cols + off) % 255 != checksum (pairing m.pc) row cols

/-- A mismatch of a quadrant's array is recorded, and the team halts once the batch has completed (07 R153, 24 R396). -/
def auditMiss (s : State) (core quad h : Nat) (o : Op) : State :=
  let b := s.batchNo h o
  let s := s.machineCheck { source := 5, die := core / 12, core := core, quad := quad, batch := b.toNat,
                            team := ((s.team o.tid).map (·.id)).getD 0xFFFFFFFF, grp := o.idx, halted := true }
  s.mapGroup o.tid o.idx fun g => if g.auditHalt.contains b then g else { g with auditHalt := g.auditHalt ++ [b] }

/-- Audit is on for the n-th mxa of a core: off, every 64th, or every one. -/
def audited (s : State) (core n : Nat) : Bool :=
  let mode := fieldAt (s.cfgW 2 (s.partOf core) 0x030).toNat 0 2
  mode == 2 || (mode == 1 && n % 64 == 0)

/-- The cells of a core's arrays whose product is wrong: the elements suffer whether or not Audit is on; where it is, each quadrant's array
compares its checksums. -/
def audit (s : State) (core h : Nat) (o : Op) (m : Mxa) : State :=
  let n := (s.core core).mxCount + 1
  let s := s.mapCore core fun k => { k with mxCount := n }
  let es := s.cellErrs.filter fun x => x.core == core && decide (x.row < 256) && decide (x.col < 192)
  if es.isEmpty then s
  else
    let s := { s with cellErrs := s.cellErrs.filter fun x => x.core != core }
    let bad := if s.audited core n then (List.range 4).filter fun q => s.mismatch o.tid core q m es else []
    bad.foldl (fun s q => s.auditMiss core q h o) (s.wrongProducts core m es)

/-- Accumulators that an operation writes. -/
def mxaAccs (m : Mxa) : List Nat := accsOf m.acc ((pairing m.pc).mode == .res)

/-- What the arrays of a core read beside answering (24 R394): A, the holders' registers, and, without z, the accumulators; all of whose rows
are written afterwards. -/
def noteMxa (s : State) (t core : Nat) (o : Op) (m : Mxa) : State :=
  let x := Shape.of m.a
  let s := if s.badRows.isEmpty && s.mfailed.isEmpty then s
    else (Shape.box x.exts).foldl (fun s c => s.noteSpans o (fun a => .team t a) (x.spans c)) s
  let s := (s.quarters t core).foldl (fun s g => s.noteRegs t g.idx (mxRegs m.pc m.vb (m.vs / 2) m.vm m.sp)) s
  let mine (e : BadCode) : Bool := (mxaAccs m).contains e.reg
  let s := match (s.core core).badA.find? mine with
    | some e => if m.z then s else s.readBad 1 (15 * 2 ^ 60) core (some (.acc core e.reg e.row)) (some (t, some o.idx))
    | none => s
  let s := s.dropErrs fun r => match r with
    | .acc c j _ => c == core && (mxaAccs m).contains j
    | _ => false
  if (s.core core).badA.isEmpty then s
  else s.mapCore core fun k => { k with badA := k.badA.filter fun e => !mine e }

/-- An mxa finishes on every core that it runs on: accumulators, Audit, then it is over. -/
def mxaPerform (s : State) (h : Nat) (o : Op) (m : Mxa) : State :=
  let cores := opCores o
  let s := cores.foldl (fun s c => (s.arrayRun o.tid c m).noteMxa o.tid c o m) s
  let s := cores.foldl (fun s c => s.audit c h o m) s
  let s := { s.mxPop h o with ops := s.ops.del h }
  (s.batchCheck o.tid o.idx).settleTeam o.tid

/-- A clock count of mxa execution (07 R148): n clocks pass for the operation at the head of a core's queue. -/
def mxClocks (s : State) (core n : Nat) : State :=
  match (s.core core).mxq.head? with
  | none => s
  | some h =>
    match s.ops.get h with
    | none => s
    | some o =>
      match o.kind with
      | .mxa _ =>
        if !s.mxHead h o then s
        else
          let d := (s.core core).mxDone
          let k := min n (256 - d)
          (s.mapCore core fun c => { c with mxDone := d + k }).chargeMx core (s.bandOf o.tid) k n
      | _ => s

/-! ### Write-back (04 R85, R86) -/

/-- The exact value of an accumulator element (04 R81). -/
def accVal (k : Core) (acc : Nat) (res : Bool) (e : Nat) : FVal :=
  if res then .ofQ (Q.ofInt (Residue.ofWords (k.a0.get e) (k.a1.get e)).crt)
  else f32 (if acc = 0 then k.a0.get e else k.a1.get e)

/-- The rounding of destination element (i, c): N is the column count of the destination, of each part of a `.pair` 192 (04 R89, 07 R152). -/
def wbMode (w : Mxwb) (glid i c : Nat) : RMode :=
  let n := if w.pair then 192 else (Shape.of w.dst).exts.headD 0
  if bitAt w.fmt.toNat 10 then
    .sr (mixer (srKey w.seed glid) (BitVec.ofNat 64 (2 ^ 63 + 65536 * (w.cnt.toNat + c / 192) + (i * n + c % 192))))
  else .rne

/-- The value written back at destination (column, row). -/
def wbVal (s : State) (w : Mxwb) (c : List Int) : FVal :=
  let col := (c.headD 0).toNat
  let e := 192 * (c.getD 1 0).toNat + col % 192
  accVal (s.core (w.core + col / 192)) w.acc (if col < 192 then w.res else w.res2) e

def wbModeAt (w : Mxwb) (glid : Nat) (c : List Int) : RMode := wbMode w glid (c.getD 1 0).toNat (c.headD 0).toNat

/-- Write every in-bounds element; the state and the flags. -/
def wbWrite (s : State) (o : Op) (w : Mxwb) : State × AFlags :=
  let x := Shape.of w.dst
  let loc := (s.sideOf o x.space none).loc []
  let clip := f32 w.clip
  let cs := Shape.box x.exts
  if fieldAt w.fmt.toNat 8 2 = 2 then
    let heads := cs.filter fun c => (x.blockAt c).find? x.inb == some c
    heads.foldl (fun (r : State × AFlags) c =>
      let b := x.blockAt c
      let (codes, sc, fl) := blockWriteBack x.fmt (b.map fun y => if x.inb y then s.wbVal w y else .fin false Q.zero) clip
        (b.map fun y => if x.inb y then wbModeAt w o.glid y else .rne) true
      ((b.zip codes).foldl (fun s y =>
        if x.inb y.1 then (s.putEl x loc (x.offset y.1) y.2).setNum (loc (x.scalePosn (x.offset y.1)).toNat) 1 sc else s) r.1,
        r.2 ||| fl)) (s, 0)
  else
    let ts := if fieldAt w.fmt.toNat 8 2 = 1 then some (f32 w.scale) else none
    cs.foldl (fun (r : State × AFlags) c =>
      let (v, fl) := writeBack x.fmt (s.wbVal w c) ts clip (wbModeAt w o.glid c)
      (r.1.putEl x loc (x.offset c) v, r.2 ||| fl)) (s, 0)

/-- The flags of a write-back wait for its batch (14 R272). -/
def noteFlags (s : State) (h : Nat) (o : Op) (fl : AFlags) : State :=
  if s.ops.any fun e => (match e.2.kind with
      | .batch _ os _ => os.contains h
      | _ => false) then
    { s with ops := s.ops.map fun (e : Nat × Op) => match e.2.kind with
      | .batch b os f => if os.contains h then (e.1, { e.2 with kind := .batch b os (f ||| fl) }) else e
      | _ => e }
  else s.mapGroup o.tid o.idx fun g => { g with mxFlags := g.mxFlags ||| fl }

/-- Release what a write-back releases. -/
def wbRelease (s : State) (h : Nat) (x : Team) : State :=
  (coresOf x).foldl (fun s c => [0, 1].foldl (fun s j =>
    match if j = 0 then (s.core c).hold0 else (s.core c).hold1 with
    | some v => if v.rel = some h then s.setHold c j none else s
    | none => s) s) s

/-- What a write-back reads of accumulators that cannot be corrected (24 R394). -/
def noteWb (s : State) (t i : Nat) (w : Mxwb) : State :=
  (if w.pair then [w.core, w.core + 1] else [w.core]).zipIdx.foldl (fun s e =>
    let cs := Shape.box (Shape.of w.dst).exts
    let reads (b : BadCode) : Bool := (accsOf w.acc (if e.2 = 0 then w.res else w.res2)).contains b.reg &&
      cs.any fun c => (c.headD 0).toNat / 192 == e.2 && (192 * (c.getD 1 0).toNat + (c.headD 0).toNat % 192) / 8 == b.row
    match (s.core e.1).badA.find? reads with
    | some b => s.readBad 1 (15 * 2 ^ 60) e.1 (some (.acc e.1 b.reg b.row)) (some (t, some i))
    | none => s) s

/-- A write-back is performed. -/
def mxwbPerform (s : State) (h : Nat) (o : Op) (x : Team) (w : Mxwb) : State :=
  let (s, fl) := (s.noteWb o.tid o.idx w).wbWrite o w
  let s := ((s.noteFlags h o fl).wbRelease h x).mxPop h o
  let s := s.engineArrive o.tid h w.bsl o.idx o.pc o.lword
  let s := { s with ops := s.ops.del h }
  (s.batchCheck o.tid o.idx).settleTeam o.tid

end State

/-- MATRIX_OPERATION_COMPLETE (07 R148): the mxa at the head of a core's queue finishes after its 256 clocks; with `.pair` it heads both
queues. -/
def execMatrixOperationComplete (core : Nat) (s : State) : Out :=
  match (s.core core).mxq.head? with
  | none => .next s
  | some h =>
    match s.ops.get h with
    | none => .next s
    | some o =>
      match o.kind with
      | .mxa m =>
        if !s.mxHead h o || (s.team o.tid).isNone || (State.opCores o).any fun c =>
          decide ((s.core c).mxDone < 256) || s.mxPending o.tid c m then .next s
        else .next (s.mxaPerform h o m)
      | _ => .next s

/-- WRITE_BACK_PERFORMED (16 R316): after every earlier operation of its queues. -/
def execWriteBackPerformed (op : Nat) (s : State) : Out :=
  match s.ops.get op with
  | some o =>
    match o.kind, s.team o.tid with
    | .mxwb w, some x => if s.mxHead op o then .next (s.mxwbPerform op o x w) else .next s
    | _, _ => .next s
  | none => .next s

/-- A granted word has issued: it charges nothing itself, but it is a word that its cluster has issued in the sub-slot (23 R368, R371). -/
def State.grantIssued (s : State) (t i core : Nat) : Out → Out
  | .next u => .next (if ((u.group t i).map (·.moved)).getD false then (u.charge core (s.bandOf t) 0).mapGroup t i fun g => { g with charged := false } else u)
  | o => o

/-- ACCUMULATOR_GRANT (07 R147): the first waiting word of a core's list that may have its accumulator issues. A halted team's does
not. -/
def execAccumulatorGrant (core : Nat) (s : State) : Out :=
  let may (e : Nat × DWord × Instr) : Bool :=
    s.accWaits e && (match s.team (e.1 / 64), e.2.2 with
      | some x, .mxa _ _ pair _ _ _ _ _ _ _ =>
        !x.halted && ((if pair then [core, core + 1] else [core]).all fun c => (State.accWants e.2.2).all fun j => !s.accBusy e.1 c j)
      | _, _ => false)
  match (s.core core).accWait.find? may with
  | some (key, _, .mxa acc z pair sp sel sha pc vbq x vm) =>
    let t := key / 64
    let i := key % 64
    s.grantIssued t i core (execMxa acc z pair sp sel sha pc vbq x vm
      (({ s with cur := some (.group t i) } : State).mapGroup t i fun g => { g with moved := false }))
  | _ => .next s

end Sys2Proof.Machine
end

