-- ==== Sys2Proof/Machine/Waits.lean ====
section
/-! DEFINITION. Waits, fences, barrier slots, the grid barrier, waits on words (13 R259-R265, 08 R165-R168, 02 R56, R57). -/

namespace Sys2Proof.Machine

open Sys2Proof

/-- The class of a code (12 R222). -/
def clsOf (c : Nat) : Cls :=
  match c with
  | 0 => .ld | 1 => .cp | 2 => .mx | 3 => .cl | _ => .pf

/-- `wait.cls n` (02 R56): stalls until the counter is at most n. -/
def execWait (c : BitVec 3) (n : BitVec 8) (s : State) : Out :=
  s.byGroup fun t i g =>
    if n.toNat < g.counter (clsOf c.toNat) then .next s else .next (s.mapGroup t i fun g => g.advance 4)

/-- `yield.cls n, label` (02 R57, 13 R265). -/
def execYield (c : BitVec 3) (n : BitVec 8) (o : BitVec 14) (s : State) : Out :=
  s.byGroup fun t i g =>
    let k := s.target (o.signExtend 32)
    if n.toNat < g.counter (clsOf c.toNat) then .next (s.park t i (.yield (clsOf c.toNat) n.toNat k)) else .next (s.jump k)

/-- `fence.S` (13 R260): every access of the agent has been performed when its instruction issued (log 3), so nothing is left to
wait for. -/
def execFence (_sc : BitVec 3) (s : State) : Out := s.issuing (.next (s.advance 4))

/-! ### Barrier slots (13 R261) -/

namespace State

/-- A slot of the issuing group's team. -/
def slot (s : State) (t n : Nat) : Word := ((s.team t).map fun x => x.bs.get n).getD 0

end State

/-- The slot after `bsinit` with v (13 R261): none where the fault is raised. -/
def bsInit (w : Word) (v : Nat) : Option Word :=
  if 1023 < v then none
  else if v = 0 then some (bsW 0 0 w)
  else if State.bsExpected w = 0 then some (bsW v (State.bsArrived w) w)
  else if State.bsExpected w ≠ v then none
  else some w
where
  /-- The word with new counts and its phase kept. -/
  bsW (e a : Nat) (w : Word) : Word := State.bsWord e a (State.bsPhase w)

def execBsinit (a : SReg) (n : BitVec 4) (s : State) : Out :=
  s.byGroup fun t _ _ =>
    if s.held [a] then .next s
    else match bsInit (s.slot t n.toNat) (s.sreg a).toNat with
    | none => .next (s.raiseNow .illegalOperand)
    | some w => .next ((s.mapTeam t fun x => { x with bs := x.bs.set n.toNat w }).advance 4)

def execBsarr (d : SReg) (n : BitVec 4) (s : State) : Out :=
  s.byGroup fun t _ g =>
    if s.held [d] || !State.landed g then .next s
    else if State.bsExpected (s.slot t n.toNat) = 0 then .next (s.raiseNow .illegalOperand)
    else
      let p := State.bsPhase (s.slot t n.toNat)
      .next (((s.setS d (if p then 1 else 0)).advance 4).slotArrive t n.toNat)

def execBswait (a : SReg) (n : BitVec 4) (s : State) : Out :=
  s.byGroup fun t i _ =>
    if s.held [a] then .next s
    else if (s.sreg a).toNat / 2 ≠ 0 then .next (s.raiseNow .illegalOperand)
    else
      let p := (s.sreg a).getLsbD 0
      if State.bsPhase (s.slot t n.toNat) = p then .next (s.park t i (.slot n.toNat p)) else .next (s.advance 4)

/-- `bsaw` (13 R261): an arrival, then a wait for the phase arrived in to end. -/
def execBsaw (n : BitVec 4) (s : State) : Out :=
  s.byGroup fun t i g =>
    if !State.landed g then .next s
    else if State.bsExpected (s.slot t n.toNat) = 0 then .next (s.raiseNow .illegalOperand)
    else
      let p := State.bsPhase (s.slot t n.toNat)
      let s := s.slotArrive t n.toNat
      if State.bsPhase (s.slot t n.toNat) = p then .next (s.park t i (.slot n.toNat p)) else .next (s.advance 4)

def execBsget (d : SReg) (n : BitVec 4) (s : State) : Out :=
  s.byGroup fun t _ _ => if s.held [d] then .next s else .next ((s.setS d (s.slot t n.toNat)).advance 4)

/-! ### Grid barrier (13 R263) -/

def execGbar (s : State) : Out :=
  s.byGroup fun t i g =>
    match s.gridOf t with
    | none => .next (s.raiseNow .illegalScope)
    | some gr =>
      if !bitAt gr.record.toNat 229 then .next (s.raiseNow .illegalScope)
      else if g.counter .ld ≠ 0 || g.counter .cp ≠ 0 || g.counter .cl ≠ 0 then .next s
      else
        let s := s.mapGroup t i fun g => { g with gbarN := g.gbarN + 1, wait := some (.gbar g.gbarN) }
        .next (s.barrierCheck (((s.team t).map (·.grid)).getD 0))

/-! ### Waits on words (08 R165-R168, 13 R264) -/

namespace State

/-- Watches that a hub holds (08 R167): parked groups, counter symbols, grids that wait on their dependency word. -/
def watches (s : State) (hub : Nat) : Nat :=
  let atHub (a : Nat) : Nat := if s.hubOf a = hub then 1 else 0
  (s.groups.map fun e => match e.2.wait with
    | some (.wadr _ a _ false) | some (.wcnt _ a _ false) => atHub a
    | _ => 0).sum +
  (s.teams.map fun e => (e.2.syms.map fun y => match y.2.src, y.2.met with
    | .counter _ a _ _ _ false, false => atHub a
    | _, _ => 0).sum).sum +
  (s.grids.map fun e => match e.2.depPa, e.2.depMet || e.2.depPoll with
    | some a, false => atHub a
    | _, _ => 0).sum

/-- A watch registered now finds its hub's 4,096 in use: it is polled instead (08 R167). -/
def mustPoll (s : State) (pa : Nat) : Bool := decide (4096 ≤ s.watches (s.hubOf pa))

/-- Issue a wait on the device word at a pair's address: `holds` is its condition, `rec` its wait record. The read and the
registration are one step (08 R166). -/
def waitWord (s : State) (a b : SReg) (holds : Word → Word → Bool) (mk : Nat → Nat → Word → Bool → Wait) : Out :=
  s.byGroup fun t i g =>
    if a.toNat % 2 = 1 then .next (s.raiseNow .illegalRegister)
    else if s.held [a, a + 1, b] then .next s
    else
      let va := (s.spair a).toNat
      if 2 ^ 57 ≤ va || va % 4 ≠ 0 then .next (s.raiseNow .illegalOperand)
      else match s.translateNow t i .read va with
      | .wait s => .next s
      | .bad s => .next (s.raiseNow .translation { faddr := va })
      | .ok pa =>
        if holds (s.wordAt (.dev pa)) (s.sreg b) then .next ((s.advance 4).noteRead (.dev pa) 4 g.core (some (t, some i)))
        else .next ((s.park t i (mk va pa (s.sreg b) (s.mustPoll pa))).noteRead (.dev pa) 4 g.core (some (t, some i)))

end State

def execWcnt (a b : SReg) (s : State) : Out := s.waitWord a b State.cntHolds Wait.wcnt
def execWadr (a b : SReg) (s : State) : Out := s.waitWord a b (fun w v => w != v) Wait.wadr

namespace State

/-- The reads of a polling re-check: device word, core, team and group of each wait and counter symbol that polls (08 R167). -/
def pollReads (s : State) : List (Nat × Nat × Nat × Option Nat) :=
  (s.groups.filterMap fun e => match e.2.wait with
    | some (.wadr _ a _ true) | some (.wcnt _ a _ true) => some (a, e.2.core, e.1 / 64, some (e.1 % 64))
    | _ => none) ++
  s.teams.flatMap fun e => e.2.syms.filterMap fun y => match y.2.src, y.2.met with
    | .counter _ a _ _ _ true, false => some (a, e.2.core, e.1, none)
    | _, _ => none

/-- Dependency words that poll are read; a grid whose condition holds is no longer held (23 R365). -/
def pollGrids (s : State) : State :=
  s.grids.foldl (fun s e => match e.2.depPa with
    | some a =>
      if e.2.depPoll && !e.2.depMet then
        (if fieldAt e.2.record.toNat 512 32 ≤ (s.wordAt (.dev a)).toNat then { s with grids := s.grids.set e.1 { e.2 with depMet := true } } else s).noteHubRead
          (.dev a) 4
      else s
    | none => s) s

end State

/-- POLLING_RECHECK (08 R167): every polling wait is checked at its home; one whose condition holds wakes. Counter symbols and
dependency words that poll see their condition. An uncorrectable read is recorded and halts the waiting team (24 R394). -/
def execPollingRecheck (s : State) : Out :=
  let rs := s.pollReads
  let s := s.groups.foldl (fun s e =>
    match e.2.wait with
    | some (.wadr _ a old true) =>
        if s.wordAt (.dev a) != old then { s with groups := s.groups.set e.1 ({ e.2 with wait := none }.advance 4) } else s
    | some (.wcnt _ a v true) =>
        if State.cntHolds (s.wordAt (.dev a)) v then { s with groups := s.groups.set e.1 ({ e.2 with wait := none }.advance 4) } else s
    | _ => s) s
  let s := s.teams.foldl (fun s e =>
    if e.2.syms.isEmpty then s
    else { s with teams := s.teams.set e.1 { e.2 with syms := e.2.syms.map fun y => match y.2.src with
      | .counter _ a v _ _ true => if State.cntHolds (s.wordAt (.dev a)) v then (y.1, { y.2 with met := true }) else y
      | _ => y } }) s
  .next (rs.foldl (fun s r => s.noteRead (.dev r.1) 4 r.2.1 (some r.2.2)) s).pollGrids

end Sys2Proof.Machine
end

