-- ==== Sys2Proof/Machine/Launch.lean ====
section
/-! DEFINITION. Launch records (01 R23-R28), their acceptance (23 R365, 16 R323), placement (01 R29-R31) and how a group starts
(01 R32). -/

namespace Sys2Proof.Machine

open Sys2Proof

/-! ### The record (01 R23, R24) -/

/-- A role descriptor in use. -/
structure Role where
  kind   : Nat
  count  : Nat
  live   : Nat
  blocks : Nat
deriving DecidableEq, Repr

namespace Rec

def f (r : BitVec 1024) (lo len : Nat) : Nat := fieldAt r.toNat lo len
def entry (r : BitVec 1024) : Nat := f r 0 64
def laneBase (r : BitVec 1024) : Nat := f r 64 64
def args (r : BitVec 1024) : Nat := f r 128 64
def nteams (r : BitVec 1024) : Nat := f r 192 32
def prio (r : BitVec 1024) : Nat := f r 224 5
def coRes (r : BitVec 1024) : Bool := bitAt r.toNat 229
def paired (r : BitVec 1024) : Bool := bitAt r.toNat 230
/-- The multicast set size S. -/
def mcset (r : BitVec 1024) : Nat := f r 231 3 + 1
def spill (r : BitVec 1024) : Bool := bitAt r.toNat 234
def nprof (r : BitVec 1024) : Nat := f r 240 4
def tmSize (r : BitVec 1024) : Nat := f r 244 12
def roleWord (r : BitVec 1024) (i : Nat) : Nat := f r (256 + 32 * i) 32
def seed (r : BitVec 1024) : Nat := f r 384 64
def depAddr (r : BitVec 1024) : Nat := f r 448 64
def depValue (r : BitVec 1024) : Nat := f r 512 32
def doneAddr (r : BitVec 1024) : Nat := f r 576 64

def roleOf (w : Nat) : Role := ⟨fieldAt w 0 2, fieldAt w 2 6, fieldAt w 8 7, fieldAt w 15 4⟩
/-- The roles in use, in order. -/
def roles (r : BitVec 1024) : List Role := ((List.range 3).map fun i => roleOf (roleWord r i)).filter fun x => x.kind != 0

/-- Reserved bits and values, and the alignment bits: code 0x03 (01 R25). -/
def reservedBad (r : BitVec 1024) : Bool :=
  f r 704 320 != 0 || f r 640 32 != 0 || f r 544 32 != 0 || f r 352 32 != 0 || f r 235 5 != 0 || decide (8 < nprof r) ||
    (List.range 3).any (fun i => fieldAt (roleWord r i) 19 13 != 0) ||
    entry r % 4 != 0 || laneBase r % 64 != 0 || depAddr r % 4 != 0 || doneAddr r % 4 != 0

end Rec

/-! ### A team's needs -/

/-- One group of a team as declared: `side` 0 is the leader or the solo team's core, 1 the follower (01 R17). -/
structure GSpec where
  kind   : Nat
  role   : Nat
  live   : Nat
  blocks : Nat
  side   : Nat
deriving DecidableEq, Repr

/-- What every team of a grid declares. -/
structure Spec where
  groups : List GSpec
  paired : Bool
  tm     : Nat          -- 4 KiB units
  nprof  : Nat
  spill  : Bool
  drain  : Bool
deriving DecidableEq, Repr

/-- The groups of roles, in group order (01 R17). -/
def specGroups (paired : Bool) (rs : List Role) : List GSpec :=
  rs.flatMap fun r => (List.range r.count).map fun i =>
    if !paired || r.kind = 3 then ⟨r.kind, if paired then i / 2 else i, r.live, r.blocks, 0⟩
    else ⟨r.kind, i / 2, r.live, r.blocks, i % 2⟩

def Spec.of (r : BitVec 1024) (drain : Bool) : Spec :=
  ⟨specGroups (Rec.paired r) (Rec.roles r), Rec.paired r, Rec.tmSize r, Rec.nprof r, Rec.spill r, drain⟩

/-- What one core gives a team. -/
structure Need where
  slots  : List Nat     -- by quadrant
  blocks : List Nat
  tm     : Nat          -- KiB
  prof   : Nat
  groups : Nat
deriving DecidableEq, Repr

namespace Spec

/-- The groups on one side, in group order. -/
def onSide (x : Spec) (side : Nat) : List GSpec := x.groups.filter (·.side == side)

/-- The needs on one side (01 R19, R31). -/
def need (x : Spec) (side : Nat) : Need :=
  let gs := (x.onSide side).zipIdx
  let quad (q : Nat) := gs.filter fun e => e.2 % 4 == q
  { slots := (List.range 4).map fun q => (quad q).length
    blocks := (List.range 4).map fun q => ((quad q).map fun e => e.1.blocks).sum
    tm := (if x.paired then 2 else 4) * x.tm + if x.spill then 16 * gs.length else 0
    prof := if side = 0 then x.nprof else 0
    groups := gs.length }

/-- Code 0x04: the role set breaks R16 or R24, or nteams its bounds. -/
def rolesBad (r : BitVec 1024) : Bool :=
  let ws := (List.range 3).map (Rec.roleWord r)
  let ks := ws.map fun w => fieldAt w 0 2
  let rs := Rec.roles r
  let gs := specGroups (Rec.paired r) rs
  let side (n : Nat) := (gs.filter fun g => g.side == n).length
  ws.any (fun w => fieldAt w 0 2 == 0 && fieldAt w 0 19 != 0) ||
    (ks.dropWhile (· != 0)).any (· != 0) || !(decide ((rs.map (·.kind)).Pairwise (· < ·))) ||
    rs.any (fun x => x.live == 0 || decide (96 < x.live) || x.blocks == 0 || decide (10 < x.blocks) ||
      (if x.kind = 3 then decide (1 < x.count) else decide (32 < x.count))) ||
    (if Rec.paired r then decide (gs.length < 2) || decide (16 < side 0) || decide (16 < side 1)
     else decide (gs.length < 1) || decide (16 < gs.length)) ||
    Rec.nteams r == 0 || decide (524288 < Rec.nteams r)

/-- A team alone exceeds a core or pair (code 0x05, 01 R19). -/
def tooBig (x : Spec) : Bool :=
  (if x.paired then decide (1536 < x.tm) || x.tm % 2 == 1 else decide (768 < x.tm)) ||
    decide (3072 < (x.need 0).tm) || (x.paired && decide (3072 < (x.need 1).tm))

end Spec

/-! ### Placement (01 R30) -/

namespace State

/-- What a core has in use; `hyp` are teams placed in thought beside (`real`) or without the resident ones. -/
def coreUse (s : State) (real : Bool) (hyp : List (Nat × Need)) (c : Nat) : Nat × Need :=
  let gs := if real then (s.groups.map (·.2)).filter fun g => g.core == c && !g.ended else []
  let ts := if real then s.teams.filter fun e => (coresOf e.2).contains c else []
  let hs := (hyp.filter fun e => e.1 == c).map (·.2)
  let add (f : Need → List Nat) (q : Nat) : Nat := (hs.map fun h => (f h).getD q 0).sum
  (ts.length + hs.length,
   { slots := (List.range 4).map fun q => (gs.filter fun g => g.slot / 8 == q).length + add Need.slots q
     blocks := (List.range 4).map fun q => ((gs.filter fun g => g.slot / 8 == q).map (·.blocks)).sum + add Need.blocks q
     tm := (ts.map fun e => (if e.2.paired then e.2.tmSize / 2 else e.2.tmSize) / 1024 +
        if e.2.spillOn then 16 * ((s.groupsOf e.1).filter fun g => g.core == c).length else 0).sum + (hs.map (·.tm)).sum
     prof := (ts.map fun e => if e.2.core = c then e.2.nprof else 0).sum + (hs.map (·.prof)).sum
     groups := gs.length + (hs.map (·.groups)).sum })

/-- Both accumulators of a core are free (01 R30, 07 R147). -/
def accFree (s : State) (c : Nat) : Bool :=
  (s.core c).hold0.isNone && (s.core c).hold1.isNone && !(s.teams.any fun e => e.2.reserve && (coresOf e.2).contains c)

/-- A core fits one side of a team. A drain team needs both accumulators of the core, beside the drain teams placed before it too (07 R147). -/
def coreFits (s : State) (real : Bool) (hyp : List (Nat × Need)) (drain : Bool) (n : Need) (c : Nat) : Bool :=
  let (e, u) := s.coreUse real hyp c
  s.corePresent c && decide (e < 8) && ((u.slots.zip n.slots).all fun p => decide (p.1 + p.2 ≤ 8)) &&
    ((u.blocks.zip n.blocks).all fun p => decide (p.1 + p.2 ≤ 40)) && decide (u.tm + n.tm ≤ 3072) && decide (u.prof + n.prof ≤ 8) &&
    (!drain || (!(hyp.any fun h => h.1 == c) && (!real || s.accFree c)))

/-- A core, or the pair of a leader core, fits a team. -/
def unitFits (s : State) (real : Bool) (hyp : List (Nat × Need)) (x : Spec) (c : Nat) : Bool :=
  s.coreFits real hyp x.drain (x.need 0) c &&
    (!x.paired || (c % 2 == 0 && s.coreFits real hyp x.drain (x.need 1) (c + 1)))

/-- The cores of a partition. -/
def coresIn (s : State) (p : Nat) : List Nat := (List.range 96).filter fun c => s.dieValid (c / 12) && s.diePart (c / 12) == p

/-- Resident groups of a core, or of both cores of a pair together (log 65). -/
def unitLoad (s : State) (real : Bool) (hyp : List (Nat × Need)) (x : Spec) (c : Nat) : Nat :=
  (s.coreUse real hyp c).2.groups + if x.paired then (s.coreUse real hyp (c + 1)).2.groups else 0

/-- The least by a measure, the first of equals. -/
def argmin (f : Nat → Nat) : List Nat → Option Nat
  | [] => none
  | a :: l => match argmin f l with
    | none => some a
    | some b => if f b < f a then some b else some a

/-- The core, or leader, for one team: the fewest resident groups, then the lowest number (01 R30). -/
def placeOne (s : State) (p : Nat) (real : Bool) (hyp : List (Nat × Need)) (x : Spec) (ok : Nat → Bool) : Option Nat :=
  argmin (s.unitLoad real hyp x)
    ((s.coresIn p).filter fun c => ok c && (!x.paired || (c % 2 == 0 && ok (c + 1))) && s.unitFits real hyp x c)

/-- A team placed in thought. -/
def hypOf (x : Spec) (c : Nat) : List (Nat × Need) := (c, x.need 0) :: if x.paired then [(c + 1, x.need 1)] else []

/-- Place teams one after another. -/
def placeSeq (s : State) (p : Nat) (real : Bool) (ok : Nat → Bool) : List Spec → List (Nat × Need) → Option (List Nat × List (Nat × Need))
  | [], hyp => some ([], hyp)
  | x :: xs, hyp =>
    match s.placeOne p real hyp x ok with
    | none => none
    | some c => (s.placeSeq p real ok xs (hyp ++ hypOf x c)).map fun r => (c :: r.1, r.2)

/-- Place a multicast set on one die (01 R30): the die of the core chosen for its first team among dies that hold it whole. -/
def placeSet (s : State) (p : Nat) (real : Bool) (ok : Nat → Bool) (xs : List Spec) (hyp : List (Nat × Need)) :
    Option (List Nat × List (Nat × Need)) :=
  match xs with
  | [] => some ([], hyp)
  | x :: _ =>
    let holds := (List.range 8).filter fun d => (s.placeSeq p real (fun c => ok c && c / 12 == d) xs hyp).isSome
    match s.placeOne p real hyp x fun c => ok c && holds.contains (c / 12) with
    | none => none
    | some c => s.placeSeq p real (fun e => ok e && e / 12 == c / 12) xs hyp

/-- Place a list of sets in order. -/
def placeAll (s : State) (p : Nat) (real : Bool) (ok : Nat → Bool) : List (List Spec) → List (Nat × Need) → Option (List Nat)
  | [], _ => some []
  | x :: xs, hyp =>
    match (if x.length = 1 then s.placeSeq p real ok x hyp else s.placeSet p real ok x hyp) with
    | none => none
    | some (cs, hyp) => (s.placeAll p real ok xs hyp).map fun r => cs ++ r

/-- The sets of a grid's teams from team n on, S at a time. -/
def setsFrom (x : Spec) (S T n : Nat) : List (List Spec) :=
  (List.range ((T + S - 1) / S)).filterMap fun i => if i * S < n then none else some (List.replicate (min S (T - i * S)) x)

/-- A co-resident grid fits an empty partition (code 0x06): more than 768 teams never do. -/
def coResFits (s : State) (p : Nat) (r : BitVec 1024) (x : Spec) : Bool :=
  Rec.nteams r ≤ 768 && (s.placeAll p false (fun _ => true) (setsFrom x (Rec.mcset r) (Rec.nteams r) 0) []).isSome

/-! ### Checking a record (01 R25) -/

/-- The codes below 0x08 that a record fails, in order; `drain` for a drain record (09 R173). -/
def recordCodes (s : State) (p : Nat) (r : BitVec 1024) (drain : Bool) : List Nat :=
  let x := Spec.of r drain
  let lvl := Rec.prio r
  (if Rec.reservedBad r || (drain && (Rec.depAddr r != 0 || Rec.doneAddr r != 0 || Rec.coRes r)) then [3] else []) ++
  (if Spec.rolesBad r then [4] else []) ++
  (if x.tooBig || (s.placeOne p false [] x fun _ => true).isNone then [5] else []) ++
  (if Rec.coRes r && !s.coResFits p r x then [6] else []) ++
  (if drain then (if lvl != 0 then [7] else [])
   else if lvl < 4 || (28 ≤ lvl && !bitAt (s.cfgW 2 p 0x100).toNat 3) then [7] else [])

/-- What checking answers: a code, or a wait for a walk. -/
inductive Checked where
  | code (c : Nat) (s : State)
  | wait (s : State)

/-- Check a record: the lowest failing code, 0 for none; entry and lane_base must be mapped for code fetch (code 0x08). -/
def checkRecord (s : State) (who : Req) (core : Option Nat) (p asid : Nat) (r : BitVec 1024) (drain : Bool) : Checked :=
  match s.recordCodes p r drain with
  | c :: _ => .code c s
  | [] =>
    if 2 ^ 57 ≤ Rec.entry r || 2 ^ 57 ≤ Rec.laneBase r then .code 8 s
    else match s.translate who core p asid .fetch (Rec.entry r) with
    | .wait s => .wait s
    | .bad s => .code 8 s
    | .ok _ =>
      match s.translate who core p asid .fetch (Rec.laneBase r) with
      | .wait s => .wait s
      | .bad s => .code 8 s
      | .ok _ => .code 0 s

/-! ### Reading records and writing status -/

/-- Pages of the 128 bytes of a record. -/
def recPages (k : Kind) (va : Nat) : List (Kind × Nat) := [(k, va / 65536), (k, (va + 127) / 65536)].dedup

/-- Read a record's 128 bytes. -/
def recordAt (s : State) (l : Nat → Loc) (va : Nat) : BitVec 1024 :=
  BitVec.ofNat 1024 (natOfBytes ((List.range 128).map fun i => s.byteAt (l (va + i))))

/-- Put a status word at byte 84 of a record's device address, where the page is at hand. -/
def putStatus (s : State) (p asid va code : Nat) : Option State :=
  (s.walkTable p asid .write (va + 84)).map fun e => s.setNum (.dev (e.pa + (va + 84 - e.base))) 4 code

/-- Write a status word (01 R23, R25). One whose page is not at hand waits for its walk, behind any that wait for the same record; one that the
service cannot resolve is not written (log 25). -/
def writeStatus (s : State) (p : Nat) (loc : RecLoc) (code : Nat) : State :=
  match loc with
  | .nowhere | .host _ => s
  | .annex d off => s.setNum (.annex d (off + 84)) 4 code
  | .dev asid va =>
    let later (s : State) : State := s.mapPart p fun x => { x with status := x.status ++ [(loc, code)] }
    if (s.part p).status.any fun e => e.1 == loc then later s
    else match s.putStatus p asid va code with
    | some s => s
    | none => match s.translate .hub none p asid .write (va + 84) with
      | .ok pa => s.setNum (.dev pa) 4 code
      | .wait s => later s
      | .bad s => s

/-- The first status word that waits is tried again. -/
def retryStatus (s : State) (p : Nat) : State :=
  match (s.part p).status with
  | [] => s
  | (loc, code) :: _ =>
    let drop (s : State) : State := s.mapPart p fun x => { x with status := x.status.drop 1 }
    match loc with
    | .dev asid va => match s.putStatus p asid va code with
      | some s => drop s
      | none => match s.translate .hub none p asid .write (va + 84) with
        | .ok pa => drop (s.setNum (.dev pa) 4 code)
        | .wait s => s
        | .bad s => drop s
    | _ => drop s

/-- Grids that hold status 0x00 or 0x01 and count toward the limit (23 R365). -/
def heldGrids (s : State) (p : Nat) : Nat := (s.grids.filter fun e => e.2.part == p && e.2.drain.isNone && e.2.handler.isNone).length

/-- A new grid. -/
def addGrid (s : State) (g : Grid) : State :=
  let x := s.part g.part
  let h := s.handles
  let s := s.putPart g.part { x with ages := x.ages + 1 }
  { s with handles := h + 1, grids := s.grids.set h { g with age := x.ages } }

/-- A grid as accepted. -/
def newGrid (p : Nat) (r : BitVec 1024) (loc : RecLoc) (asid awBase awSize prio : Nat) : Grid :=
  { part := p, record := r, loc := loc, age := 0, asid := asid, awBase := awBase, awSize := awSize, prio := prio, nteams := Rec.nteams r,
    next := 0, skipped := [], lastIn := false, waiting := [], retired := 0, depPa := none, depMet := Rec.depAddr r == 0, depPoll := false, drain := none, killed := false, handler := none,
    origins := [], verdicts := [] }

/-- Tell the launcher the code: its register and its operation (16 R323). -/
def tellLauncher (s : State) (x : Posting) (code : Nat) : State :=
  match x.who with
  | none => s
  | some (t, i, h) =>
    let s := { s with ops := s.ops.del h }
    let s := s.mapGroup t i fun g => g.deliver h fun _ _ => Cells.set [] 0 (BitVec.ofNat 32 code)
    s.settleTeam t

/-- The first posting of a partition is dealt with: its code is told, and written where it lies. -/
def finishPosting (s : State) (p : Nat) (x : Posting) (code : Nat) (write : Bool) : State :=
  let s := s.mapPart p fun y => { y with posts := y.posts.drop 1 }
  (if write then s.writeStatus p x.loc code else s).tellLauncher x code

/-- A record that was read is checked and, when nothing fails, its grid enters its level's queue. A dependency word that does not
translate is never met (log 25); one that finds its hub's watches in use is polled (23 R365). -/
def acceptRecord (s : State) (p : Nat) (x : Posting) (r : BitVec 1024) : State :=
  match s.checkRecord (.record p) none p x.asid r false with
  | .wait s => s
  | .code c s =>
    if c != 0 then s.finishPosting p x c true
    else
      let g := newGrid p r x.loc x.asid x.awBase x.awSize (Rec.prio r)
      let dep := Rec.depAddr r
      if dep = 0 then (s.addGrid g).finishPosting p x 0 true
      else if 2 ^ 57 ≤ dep then (s.addGrid g).finishPosting p x 0 true
      else match s.translate (.record p) none p x.asid .read dep with
      | .wait s => s
      | .bad s => (s.addGrid g).finishPosting p x 0 true
      | .ok pa =>
        (s.addGrid { g with depPa := some pa, depMet := decide (Rec.depValue r ≤ (s.wordAt (.dev pa)).toNat),
                            depPoll := s.mustPoll pa }).noteHubRead (.dev pa) 4 |>.finishPosting p x 0 true

end State

/-- The place of a record at a device address: none where R323's first check rejects it. -/
def recLoc (asid v : Nat) : RecLoc := if v % 64 != 0 || decide (2 ^ 57 ≤ v) then .nowhere else .dev asid v

namespace State

/-- Address space, window and place of a posting at its acceptance: of a host's, those that the configuration words give now (23 R386). -/
def hostNow (s : State) (p : Nat) (x : Posting) : Posting :=
  match x.loc with
  | .host va =>
    let w := (s.cfgW 2 p 0x02C).toNat
    let asid := fieldAt (s.cfgW 2 p 0x028).toNat 0 12
    { x with loc := recLoc asid va, asid := asid,
             awBase := fieldAt w 0 11 * 65536, awSize := fieldAt w 16 11 * 65536 }
  | _ => x

/-- The record of a posting is read once (23 R365), checked, and given its status. -/
def readPosting (s : State) (p : Nat) (x : Posting) : State :=
  match x.loc with
  | .nowhere | .host _ => s.finishPosting p x 8 false
  | .annex d off => if 4096 ≤ s.heldGrids p then s else (s.noteHubRead (.annex d off) 128).acceptRecord p x (s.recordAt (.annex d) off)
  | .dev asid va =>
    if 4096 ≤ s.heldGrids p then s
    else match s.pages (.record p) none p asid (recPages .read va) [] with
    | .wait s => s
    | .bad s _ => s.finishPosting p x 8 true
    | .ok tab =>
      let l := Side.dev.loc tab
      ((s.noteHubRead (l va) 64).noteHubRead (l (va + 64)) 64).acceptRecord p x (s.recordAt l va)

end State

/-- RECORD_ACCEPTANCE (23 R365, 16 R323): the oldest waiting record of a partition is accepted or rejected; before it a status word that waits
is tried again. -/
def execRecordAcceptance (p : Nat) (s : State) : Out :=
  let s := s.retryStatus p
  match (s.part p).posts with
  | [] => .next s
  | x :: _ => .next (s.readPosting p (s.hostNow p x))

/-! ### Launchers -/

/-- `launch` (16 R323): the record goes to the distributor; sd receives the code at its acceptance. -/
def execLaunch (d a : SReg) (ax : Bool) (la : BitVec 4) (s : State) : Out :=
  s.byGroup fun t i g =>
    if a.toNat % 2 = 1 then .next (s.raiseNow .illegalRegister)
    else if (s.withRoom d la.toNat).held [d, a, a + 1] then .next s
    else
      match s.gridOf t with
      | none => .fault .noAgent
      | some gr =>
        let v := ((s.withRoom d la.toNat).spair a).toNat
        let loc : RecLoc := if ax then (if v % 64 != 0 || decide (gr.awSize < v + 128) then .nowhere else .annex (g.core / 12) (gr.awBase + v))
          else recLoc gr.asid v
        let (h, s) := s.newOp t i g (s.glid t i) none .moving (.launch ax v)
        let s := s.mapPart gr.part fun p => { p with posts := p.posts ++ [⟨some (t, i, h), false, loc, gr.asid, gr.awBase, gr.awSize⟩] }
        let s := s.mapGroup t i fun g => g.expect false h la.toNat [(.s d.toNat, 1, [])]
        .next (s.advance 4)

/-- A record that the host has posted at an address. -/
def State.hostPost (va : Nat) (agent : Bool) : Posting := ⟨none, agent, .host va, 0, 0, 0⟩

/-- LAUNCH_AGENT_WAKE (01 R27, 23 R380): in hardware mode the hub's agent takes the next posted slot of the host launch area; it takes no
further slot while a record of its own waits. Its count of slots taken runs on when hla or hlalog is written, and it takes one whenever the
posted word differs from the count (log 70). -/
def execLaunchAgentWake (p : Nat) (s : State) : Out :=
  let x := s.part p
  if bitAt (s.cfgW 2 p 0x100).toNat 0 || x.posts.any (·.agent) then .next s
  else
    let hla := s.cfgD 2 p 0x114
    let n := 2 ^ fieldAt (s.cfgW 2 p 0x11C).toNat 0 4
    let va := hla + 128 * n
    let asid := fieldAt (s.cfgW 2 p 0x028).toNat 0 12
    if 2 ^ 57 ≤ va then .next s
    else match s.translate .hub none p asid .read va with
    | .wait s => .next s
    | .bad s => .next s
    | .ok pa =>
      let w : DWord := BitVec.ofNat 64 (s.numAt (.dev pa) 8)
      let s := s.noteHubRead (.dev pa) 8
      if w = x.posted then .next s
      else
        .next (s.putPart p { s.part p with posted := x.posted + 1,
                                           posts := (s.part p).posts ++ [State.hostPost (hla + 128 * (x.posted.toNat % n)) true] })

/-- HOST_LAUNCH_PORT (23 R379, R380): a host write submits the record at an address; none is taken after an error of bring-up (25 R411). -/
def execHostLaunchPort (p addr : Nat) (s : State) : Out :=
  .next (if s.broken then s else s.mapPart p fun x => { x with posts := x.posts ++ [State.hostPost addr false] })

/-! ### How a team starts (01 R32) -/

/-- One of a list of numbers, drawn (log 20). -/
def State.drawFrom (s : State) (l : List Nat) : Nat × State :=
  match l with
  | [a] => (a, s)
  | _ => let (n, s) := s.draw; (l.getD (Config.pick n % l.length) 0, s)

namespace State

/-- Free team entries of a core, free slots of a quadrant. -/
def freeEntries (s : State) (c : Nat) : List Nat :=
  let used := (s.teams.filter fun e => (coresOf e.2).contains c).map fun e => entryOn e.2 c
  (List.range 8).filter fun n => !used.contains n
def freeSlots4 (s : State) (c q : Nat) : List Nat :=
  let used := ((s.groups.map (·.2)).filter fun g => g.core == c && !g.ended).map (·.slot)
  ((List.range 8).map (8 * q + ·)).filter fun n => !used.contains n

end State

/-- A group as it starts. -/
def Group.fresh (idx : Nat) (x : GSpec) (core slot : Nat) (r : BitVec 1024) : Group :=
  let m := lanesBelow x.live
  let s0 : Cells 32 := Cells.setAll [] [(2, BitVec.ofNat 32 (Rec.args r)), (3, BitVec.ofNat 32 (Rec.args r / 2 ^ 32)),
    (125, m.extractLsb' 0 32), (126, m.extractLsb' 32 32), (127, m.extractLsb' 64 32)]
  { idx := idx, kind := x.kind, role := x.role, core := core, slot := slot, live := x.live, blocks := x.blocks, s := s0, v := [], k := [], sh := [],
    fmt := 0, seed := BitVec.ofNat 64 (Rec.seed r), ptol := 0, clip := 0x7F800000, cond := 0, hnd := 0, convCnt := 0, wbCnt := 0, batchCnt := 0,
    opens := [], mxFlags := 0, auditHalt := [], spc := BitVec.ofNat 64 (Rec.entry r), lpc := 0, run := Run.none, rstack := [], rdepth := 0, spill := [],
    pend := [], infl := [], tags := [], scar := [], frame := none, reissue := none, wait := none, skid := 0, skidMax := 0, faulted := false,
    cancel := 0, asmSeq := [], gbarN := 0, stepping := false, ending := false, tailFull := false, ended := false, charged := false,
    moved := false, badV := [], cntAdj := [], stall := none, ctxH := [] }

/-- A team as it starts. -/
def Team.fresh (tid grid id : Nat) (x : Spec) (r : BitVec 1024) (core e1 e2 : Nat) : Team :=
  { grid := grid, id := id, core := core, paired := x.paired, entry := e1, entry2 := e2, ngrp := x.groups.length, order := tid, halted := false,
    killing := false, bs := [], syms := [], profs := (List.range x.nprof).map fun n => (n, Prof.empty), nprof := x.nprof, tm := [],
    tmSize := 4096 * x.tm, spillOn := x.spill, cb := [], cbE := [], asms := [], asmDone := [], collSeq := [],
    mcset := if Rec.mcset r = 1 then none else some (id / Rec.mcset r), reserve := x.drain,
    badP := [], lrec := r, ctxX := [] }

namespace State

/-- Put one group of a new team on its core, in a free slot of its quadrant. -/
def startGroup (s : State) (t core : Nat) (r : BitVec 1024) (idx m : Nat) (x : GSpec) (f : Group → Group) : State :=
  let c := core + x.side
  let (sl, s) := s.drawFrom (s.freeSlots4 c (m % 4))
  s.putGroup t idx (f (Group.fresh idx x c sl r))

/-- The core-local number of a group of a spec (01 R31). -/
def localNo (gs : List GSpec) (idx : Nat) (side : Nat) : Nat := ((gs.take idx).filter fun g => g.side == side).length

/-- Start a team of a grid on a core: `f` sets what a drain or handler group starts with beside. -/
def startTeam (s : State) (grid : Nat) (g : Grid) (id : Nat) (x : Spec) (core : Nat) (f : Nat → Group → Group) : State :=
  let t := s.handles
  let s := { s with handles := t + 1 }
  let (e1, s) := s.drawFrom (s.freeEntries core)
  let (e2, s) := if x.paired then s.drawFrom (s.freeEntries (core + 1)) else (0, s)
  let s := s.putTeam t (Team.fresh t grid id x g.record core e1 e2)
  x.groups.zipIdx.foldl (fun s e => s.startGroup t core g.record e.2 (localNo x.groups e.2 e.1.side) e.1 (f e.2)) s

end State

/-! ### Retirement of a grid (01 R28) -/

namespace State

/-- The grid leaves, and what its level reserved for it. -/
def dropGrid (s : State) (n : Nat) (g : Grid) : State :=
  let s := { s with grids := s.grids.del n }
  s.mapPart g.part fun x => { x with heads := x.heads.filter fun e => e.2.1 != n }

end State

end Sys2Proof.Machine
end

