-- ==== Sys2Proof/Machine/Filler.lean ====
section
/-! DEFINITION. The Filler (09 R170-R184; 16 R318-R320) and the statistics words (16 R321, R322). -/

namespace Sys2Proof.Machine

open Sys2Proof

/-! ### Accession numbers (09 R172) -/

/-- Numbers run from 1 to 2^32 - 1 and start again. -/
def accMod : Nat := 2 ^ 32 - 1
/-- The number after one. -/
def accNext (n : Nat) : Nat := if n = accMod then 1 else n + 1
/-- The highest number assigned so far, when `n` is the next. -/
def accLast (n : Nat) : Nat := if n = 1 then accMod else n - 1
/-- Number a is b or an earlier one. -/
def accLe (a b : Nat) : Bool := decide ((b + accMod - a) % accMod < accMod / 2)

/-! ### Limits and pins (09 R174) -/

/-- Bytes that an operand pins. -/
def pinnedBytes (b : ShapeBits) : Nat := let x := Shape.of b; (x.exts.headD 0 * x.exts.getD 1 0 * x.width + 7) / 8

/-- The target's handle (09 R170). -/
def Filing.handle (f : Filing) : Nat := (Shape.of f.t).addr
/-- Bytes of both operands. -/
def Filing.bytes (f : Filing) : Nat := pinnedBytes f.a + pinnedBytes f.g

namespace State

def pairLimit (s : State) (p : Nat) : Nat := fieldAt (s.cfgW 2 p 0x040).toNat 0 7
def byteLimit (s : State) (p : Nat) : Nat := s.cfgD 2 p 0x044
def fillerPrio (s : State) (p : Nat) : Nat := fieldAt (s.cfgW 2 p 0x040).toNat 8 2
/-- Bytes pinned by entries. -/
def pinnedBy (l : List FEnt) : Nat := (l.map fun e => e.f.bytes).sum

/-- The filing fits beside the entries of a list. -/
def fitsWith (s : State) (p : Nat) (l : List FEnt) (f : Filing) : Bool :=
  decide (l.length + 1 ≤ 64) && decide (l.length + 1 ≤ s.pairLimit p) && decide (pinnedBy l + f.bytes ≤ s.byteLimit p)

/-! ### Levels of drain grids (09 R181, R183) -/

/-- The entries forced for the first parked filing: in accession order, failed ones passed over, until it fits without them. -/
def forcedFrom (s : State) (p : Nat) (f : Filing) : List FEnt → List FEnt → List Nat
  | _, [] => []
  | held, e :: r =>
    if s.fitsWith p held f then []
    else if e.state = FState.failed then forcedFrom s p f held r
    else e.acc :: forcedFrom s p f (held.filter fun x => x.acc != e.acc) r

/-- Accession numbers of the forced entries. -/
def forced (s : State) (p : Nat) : List Nat :=
  match (s.part p).parked with
  | [] => []
  | f :: _ => s.forcedFrom p f (s.part p).entries (s.part p).entries

/-- The fences that wait in a partition: scope, limit, and the level of the team. A saved fence waits on. -/
def fences (s : State) (p : Nat) : List (Option Nat × Nat × Nat) :=
  (s.groups.filterMap fun e => match e.2.wait with
    | some (.bkfence h n) => if s.partOf e.2.core = p then some (h, n, ((s.gridOf (e.1 / 64)).map (·.prio)).getD 0) else none
    | _ => none) ++
  s.saved.flatMap fun x => if x.part = p then x.groups.filterMap fun g => match g.wait with
    | some (.bkfence h n) => some (h, n, ((s.grid x.grid).map (·.prio)).getD 0)
    | _ => none else []

/-- A fence of that scope and limit covers an entry. -/
def covers (h : Option Nat) (n : Nat) (e : FEnt) : Bool := (h.isNone || h == some e.f.handle) && accLe e.acc n

/-- The level of an entry's drain grid where no fence waits. -/
def baseLevel (s : State) (p : Nat) (e : FEnt) : Nat := if (s.forced p).contains e.acc then Nat.max 30 (s.fillerPrio p) else s.fillerPrio p

/-- The level of an entry's drain grid: the highest that a rule gives it (09 R181). -/
def drainLevel (s : State) (p : Nat) (e : FEnt) : Nat :=
  let fs := (s.fences p).filterMap fun x => if covers x.1 x.2.1 e then some x.2.2 else none
  fs.foldl Nat.max (s.baseLevel p e)

/-- Give every drain grid of the partition the level of its entry. -/
def setLevels (s : State) (p : Nat) (f : FEnt → Nat) : State :=
  { s with grids := s.grids.map fun (e : Nat × Grid) =>
      if e.2.part = p then match e.2.drain with
        | some a => match (s.part p).entries.find? fun x => x.acc == a with
          | some x => (e.1, { e.2 with prio := f x })
          | none => e
        | none => e
      else e }

/-- The levels taken n times, each from those before: a drain team that is lifted lifts what its own fence waits on. -/
def levels (p : Nat) : Nat → State → State
  | 0, s => s
  | n + 1, s => levels p n (s.setLevels p (s.drainLevel p))

/-- Every drain grid of the partition runs at the level that now holds for it (09 R181, 23 R365). -/
def relevel (s : State) (p : Nat) : State := levels p ((s.part p).entries.length) (s.setLevels p (s.baseLevel p))

/-! ### Filing and committing -/

/-- Fences that wait for nothing more complete (09 R181). -/
def fenceCheck (s : State) (p : Nat) : State :=
  s.groups.foldl (fun s e => match e.2.wait with
    | some (.bkfence h n) =>
      if s.partOf e.2.core = p && !((s.part p).entries.any (covers h n)) then
        { s with groups := s.groups.set e.1 ({ e.2 with wait := none }.advance 4) } else s
    | _ => s) s

/-- A filing becomes an entry: it takes the next number, which its register receives (09 R172, R176). -/
def completeFiling (s : State) (p : Nat) (f : Filing) : State :=
  let x := s.part p
  let s := s.putPart p { x with entries := x.entries ++ [⟨x.next, f, .filed, 0⟩], next := accNext x.next }
  match s.ops.get f.op with
  | none => s
  | some o =>
    let s := { s with ops := s.ops.del f.op }
    (s.mapGroup o.tid o.idx fun g =>
      (if g.wait == some (.bkfile f.op) then { g with wait := none }.advance 4 else g).deliver f.op fun _ _ => Cells.set [] 0 (BitVec.ofNat 32 x.next)).settleTeam o.tid

/-- The first parked filing completes when it fits (09 R176, R183). -/
def fileParked (s : State) (p : Nat) : State :=
  match (s.part p).parked with
  | [] => s
  | f :: r =>
    if s.fitsWith p (s.part p).entries f then ((s.mapPart p fun x => { x with parked := r }).completeFiling p f).relevel p else s

/-- An entry is committed: it leaves the Filler and releases its pins (09 R171). -/
def commitEntry (s : State) (p acc : Nat) : State :=
  ((s.mapPart p fun x => { x with entries := x.entries.filter fun e => e.acc != acc }).fenceCheck p).relevel p

/-- The state of an entry changes. -/
def markEntry (s : State) (p acc : Nat) (st : FState) (grid : Nat) : State :=
  (s.mapPart p fun x => { x with entries := x.entries.map fun e => if e.acc = acc then { e with state := st, grid := grid } else e }).relevel p

/-! ### bkfile (09 R173, 16 R318) -/

/-- The format of a pinned operand, and the pairing of two (09 R173, 07 R142). -/
def filingFmts (a g : Nat) : Bool :=
  ([3, 4].contains a && [3, 4].contains g) || (a == g && [1, 2, 0x14].contains a)

/-- No illegal-field condition of R173. -/
def filingShapes (ab gb tb : ShapeBits) : Bool :=
  let a := Shape.of ab
  let g := Shape.of gb
  let t := Shape.of tb
  Shape.ok false ab && Shape.ok false gb && Shape.ok false tb && a.space == 0 && g.space == 0 && t.space == 0 && a.zorder && g.zorder &&
    filingFmts a.fmt g.fmt && t.fmt == 0 && !t.zorder && a.ndim == 2 && g.ndim == 2 && t.ndim == 2 &&
    a.exts.getD 1 0 == g.exts.getD 1 0 && t.exts.getD 1 0 == a.exts.headD 0 && t.exts.headD 0 == g.exts.headD 0

/-- Some in-bounds element of a shape lies beyond device memory (05 R99). -/
def beyond (b : ShapeBits) : Bool :=
  match Shape.range (Shape.of b) with
  | some (lo, hi) => decide (lo < 0) || decide ((2 : Int) ^ 57 < hi)
  | none => false

/-- What checking a filing answers: the fault, or the record as read. -/
inductive FileCheck where
  | fault (c : FaultCode) (aux faddr : Nat) (s : State)
  | wait (s : State)
  | ok (r : BitVec 1024) (s : State)

/-- The checks of R173, in the order of 12 R226; the record is read by the issuing group (24 R394). An address condition names the shape's address
(log 90); the limits are used as they stand (log 91). -/
def fileCheck (s : State) (t i : Nat) (g : Group) (ab gb tb : ShapeBits) (r : SReg) : FileCheck :=
  let p := s.partOf g.core
  let asid := ((s.gridOf t).map (·.asid)).getD 0
  let va := (s.spair r).toNat
  if !filingShapes ab gb tb then .fault .illegalField 0 0 s
  else if r.toNat % 2 = 1 || 125 < r.toNat then .fault .illegalRegister 0 0 s
  else if va % 64 ≠ 0 || 2 ^ 57 ≤ va then .fault .illegalOperand 8 0 s
  else match s.pages (.group t i) (some g.core) p asid (State.recPages .read va) [] with
  | .wait s => .wait s
  | .bad s _ => .fault .illegalOperand 8 0 s
  | .ok tab =>
    let l := Side.dev.loc tab
    let rec' := s.recordAt l va
    match s.checkRecord (.group t i) (some g.core) p asid rec' true with
    | .wait s => .wait s
    | .code c s =>
      let s := (s.noteRead (l va) 64 g.core (some (t, some i))).noteRead (l (va + 64)) 64 g.core (some (t, some i))
      if c ≠ 0 then .fault .illegalOperand c 0 s
      else if s.pairLimit p = 0 || s.byteLimit p < pinnedBytes ab + pinnedBytes gb then .fault .illegalOperand 0 0 s
      else if beyond ab || beyond gb || beyond tb then
        .fault .copyAddressOverflow 0 (Shape.of (if beyond ab then ab else if beyond gb then gb else tb)).addr s
      else .ok rec' s

/-- A filing of group g whose checks hold: it files, parks, or its group enters the handler (09 R176, R183), for which it waits until
earlier results for s125-s127 have come (13 R267, 02 R53). -/
def fileNow (s : State) (t i : Nat) (g : Group) (f : Filing) (r : SReg) : State :=
  let p := s.partOf g.core
  let x := s.part p
  let fit := s.fitsWith p x.entries f
  let again := g.reissue == some .filler
  let count := !fit && x.parked.isEmpty && !again
  if count && g.canEnter .filler && ([125, 126, 127].any fun r => g.blocked true (.s r)) then s
  else
    let s := if count then (s.putPart p { x with ovf := x.ovf + 1 }).mapGroup t i fun g => g.setSticky .filler else s
    if count && g.canEnter .filler then (s.drainSfu t i).mapGroup t i fun g => g.enterHandler .filler
    else
      let (h, s) := s.newOp t i g (s.glid t i) none .moving .filing
      let f := { f with op := h, counted := count || again }
      let s := s.mapGroup t i fun g => g.expect false h 0 [(.s (r.toNat + 2), 1, [])]
      if fit && x.parked.isEmpty then ((s.advance 4).completeFiling p f).relevel p
      else ((s.mapPart p fun x => { x with parked := x.parked ++ [f] }).park t i (.bkfile h)).relevel p

end State

/-- `bkfile` (16 R318): the shapes and the record are read whole at issue. -/
def execBkfile (a x : ShReg) (r : SReg) (last : Bool) (tg : ShReg) (s : State) : Out :=
  s.byGroup fun t i g =>
    if s.held [r, r + 1, r + 2] || g.blocked false (.sh a.toNat) || g.blocked false (.sh x.toNat) || g.blocked false (.sh tg.toNat) then .next s
    else
      let ab := g.sh.get a.toNat
      let gb := g.sh.get x.toNat
      let tb := g.sh.get tg.toNat
      match s.fileCheck t i g ab gb tb r with
      | .fault c aux fa s => .next (s.raiseNow c { aux := BitVec.ofNat 32 aux, faddr := fa })
      | .wait s => .next s
      | .ok rc s =>
        let f : Filing :=
          { a := ab, g := gb, t := tb, recAddr := (s.spair r).toNat, record := rc, last := last, team := ((s.team t).map (·.id)).getD 0, idx := i,
            asid := ((s.gridOf t).map (·.asid)).getD 0, awBase := (s.window t).1, awSize := (s.window t).2, op := 0, counted := false }
        .next (s.fileNow t i g f r)

/-- FILING_COMPLETE (09 R176, R183). -/
def execFilingComplete (p : Nat) (s : State) : Out := .next (s.fileParked p)

/-! ### Status and fences (09 R180, R181; 16 R320) -/

/-- Word n of the Filler status (09 R180). -/
def State.fillerWord (s : State) (p n : Nat) : Word :=
  let x := s.part p
  let bytes := State.pinnedBy x.entries
  let w (k : Nat) : Word := BitVec.ofNat 32 k
  match n with
  | 0 | 1 => w x.entries.length
  | 2 => w bytes
  | 3 => w (bytes / 2 ^ 32)
  | 4 => w (s.byteLimit p)
  | 5 => w (s.byteLimit p / 2 ^ 32)
  | 6 => w (s.pairLimit p)
  | 7 => x.ovf
  | 8 => w x.next
  | 9 => w ((x.entries.head?.map (·.acc)).getD 0)
  | 10 => w (s.fillerPrio p + 256 * (x.entries.filter fun e => e.state == .failed).length)
  | _ => 0

def execBkstat (d : SReg) (n : BitVec 11) (s : State) : Out :=
  s.byGroup fun _ _ g =>
    if 12 ≤ n.toNat then .next (s.raiseNow .illegalField)
    else if s.held [d] then .next s
    else .next ((s.setS d (s.fillerWord (s.partOf g.core) n.toNat)).advance 4)

namespace State

/-- A fence issues: with nothing to wait for it is complete, else its group parks and the drain grids are lifted (09 R181). -/
def fenceOn (s : State) (t i : Nat) (g : Group) (h : Option Nat) : State :=
  let p := s.partOf g.core
  let n := accLast (s.part p).next
  if (s.part p).entries.any (covers h n) then (s.park t i (.bkfence h n)).relevel p else s.advance 4

end State

def execBkfence (a : SReg) (s : State) : Out :=
  s.byGroup fun t i g =>
    if a = 0 then .next (s.raiseNow .illegalField)
    else if a.toNat % 2 = 1 then .next (s.raiseNow .illegalRegister)
    else if s.held [a, a + 1] then .next s
    else if 2 ^ 57 ≤ (s.spair a).toNat then .next (s.raiseNow .illegalOperand)
    else .next (s.fenceOn t i g (some (s.spair a).toNat))

def execBkfenceAll (s : State) : Out := s.byGroup fun t i g => .next (s.fenceOn t i g none)

/-! ### Drains (09 R177, R182; 23 R380) -/

namespace State

/-- Launch the drain grid of an entry from its copy of the record, or mark the entry failed (09 R177). -/
def launchDrain (s : State) (p : Nat) (e : FEnt) (wait : State → State) : State :=
  match s.checkRecord .hub none p e.f.asid e.f.record true with
  | .wait s => wait s
  | .code 0 s =>
    let g := newGrid p e.f.record .nowhere e.f.asid e.f.awBase e.f.awSize (s.drainLevel p e)
    let h := s.handles
    let s := s.addGrid { g with drain := some e.acc }
    (s.mapPart p fun x => { x with drains := x.drains + 1 }).markEntry p e.acc .draining h
  | .code _ s => s.markEntry p e.acc .failed 0

/-- The entry is eligible (09 R177). -/
def eligible (l : List FEnt) (e : FEnt) : Bool :=
  e.state == .filed && (l.takeWhile fun x => x.acc != e.acc).all fun x => x.f.handle != e.f.handle

/-- A relaunch of the entry waits for a walk: it is draining, and its grid is still to be added (09 R182). -/
def relaunching (e : FEnt) : Bool := e.state == .draining && e.grid == 0

/-- The drain selector may launch it: in host-assisted mode drel bounds the launches that nothing forces or lifts (23 R380). -/
def released (s : State) (p : Nat) (e : FEnt) : Bool :=
  !bitAt (s.cfgW 2 p 0x100).toNat 2 || decide ((s.part p).drains.toNat < (s.cfgW 2 p 0x110).toNat) || (s.forced p).contains e.acc ||
    (s.fences p).any fun x => covers x.1 x.2.1 e && decide (s.fillerPrio p < x.2.2)

/-- The failed entry that faccn names. -/
def failedEntry (s : State) (p : Nat) : Option FEnt :=
  (s.part p).entries.find? fun e => e.state == .failed && e.acc == (s.cfgW 2 p 0x12C).toNat

end State

/-- DRAIN_LAUNCH (09 R177): the first eligible entry in accession order, or a relaunch that waited for its record's pages. -/
def execDrainLaunch (p : Nat) (s : State) : Out :=
  let l := (s.part p).entries
  match l.find? fun e => State.relaunching e || (State.eligible l e && s.released p e) with
  | some e => .next (s.launchDrain p e id)
  | none => .next s

namespace State

/-- A write of 1 to fact: a new drain grid of the failed entry, which becomes draining (09 R182, 23 R378), also while the record's code
pages wait for a walk; nothing withholds the grid then. -/
def relaunchFailed (s : State) (p : Nat) : State :=
  match s.failedEntry p with
  | some e => s.launchDrain p e fun s => s.markEntry p e.acc .draining 0
  | none => s

/-- A write of 2 to fact: the failed entry is committed. -/
def discardFailed (s : State) (p : Nat) : State :=
  match s.failedEntry p with
  | some e => s.commitEntry p e.acc
  | none => s

/-- A write of 1 to accreset (09 R172, 24 R385). -/
def resetAcc (s : State) (p : Nat) : State :=
  if (s.part p).entries.isEmpty then s.mapPart p fun x => { x with next := 1 } else s

end State

/-- FACT_RELAUNCH, FACT_DISCARD, ACCRESET: the writes of the partition words fact and accreset. -/
def execFactRelaunch (p : Nat) (s : State) : Out := .next (s.relaunchFailed p)
def execFactDiscard (p : Nat) (s : State) : Out := .next (s.discardFailed p)
def execAccreset (p : Nat) (s : State) : Out := .next (s.resetAcc p)

/-! ### Statistics slots (16 R321, R322) -/

/-- The slot image (16 R321). -/
def Stat.image (t : Stat) : Nat :=
  t.acc % 2 ^ 160 + t.amax.toNat * 2 ^ 160 + t.count.toNat * 2 ^ 192 + if t.sat then 2 ^ 256 else 0

def execStget (d a : SReg) (s : State) : Out :=
  s.byGroup fun t i g =>
    if 116 < d.toNat then .next (s.raiseNow .illegalRegister)
    else if s.held (a :: (List.range 9).map fun n => d + BitVec.ofNat 7 n) then .next s
    else if 255 < (s.sreg a).toNat then .next (s.raiseNow .illegalOperand)
    else
      let z := s.stat (s.partOf g.core) (s.sreg a).toNat
      let s := (List.range 9).foldl (fun s n => s.setS (d + BitVec.ofNat 7 n) (BitVec.ofNat 32 (z.image / 2 ^ (32 * n)))) s
      let s := if z.sat then s.mapGroup t i fun g => { g with cond := g.cond ||| 0x200 } else s
      .next (s.advance 4)

def execStclr (a : SReg) (s : State) : Out :=
  s.byGroup fun t i g =>
    if s.held [a] then .next s
    else if 255 < (s.sreg a).toNat then .next (s.raiseNow .illegalOperand)
    else if 255 ≤ g.counter .cp then .next s
    else
      let n := (s.sreg a).toNat
      let (h, s) := s.newOp t i g (s.glid t i) (some .cp) .moving .load
      let s := (s.mapStat (s.partOf g.core) n fun _ => Stat.zero).advance 4
      .next (({ s with ops := s.ops.del h }).leaveCounter t i h)

end Sys2Proof.Machine
end

