-- ==== Sys2Proof/Machine/Context.lean ====
section
/-! DEFINITION. The context image (22 R356), saving and loading a team (22 R354, R355, R357). What the image does not lay out bit by
bit is laid out, or kept beside it, as log 12 says; what a word written without that layout in mind is taken for, log 47. -/

namespace Sys2Proof.Machine

open Sys2Proof

/-! ### Writing and reading stores in an image -/

/-- Put a store's entries, n bytes each, at base + stride × key. -/
def putCells {w : Nat} (m : Memory) (base stride n : Nat) (c : Cells w) : Memory :=
  c.foldl (fun m e => m.setNum (base + stride * e.1) n e.2.toNat) m

/-- Read `count` entries of w bits, n bytes each. -/
def getCells (w : Nat) (m : Memory) (base stride n count : Nat) : Cells w :=
  (List.range count).foldl (fun c k => c.set k (BitVec.ofNat w (m.num (base + stride * k) n))) []

/-- Put 32-bit words one after another. -/
def putWords (m : Memory) (a : Nat) : List Nat → Memory
  | [] => m
  | x :: r => putWords (m.setNum a 4 x) (a + 4) r

/-- n words one after another. -/
def getWords (m : Memory) (a : Nat) (n : Nat) : List Nat := (List.range n).map fun i => m.num (a + 4 * i) 4

def hi32 (x : Nat) : Nat := x / 2 ^ 32 % 2 ^ 32
def lo32 (x : Nat) : Nat := x % 2 ^ 32
/-- Words k and k + 1 of a list as one number. -/
def pairAt (l : List Nat) (k : Nat) : Nat := l.getD k 0 + 2 ^ 32 * l.getD (k + 1) 0
def b2n (b : Bool) : Nat := if b then 1 else 0

/-! ### Wait record and handler frame (log 12) -/

/-- The wait record, 16 words. -/
def waitWords : Option Wait → List Nat
  | none => []
  | some (.slot n p) => [1, n, b2n p]
  | some (.gbar j) => [2, j]
  | some (.wadr va _ old p) => [3, old.toNat, lo32 va, hi32 va, b2n p]
  | some (.wcnt va _ v p) => [4, v.toNat, lo32 va, hi32 va, b2n p]
  | some (.bkfence h n) => [5, n, lo32 (h.getD 0), hi32 (h.getD 0), b2n h.isSome]
  | some (.bkfile h) => [5, 0, lo32 h, hi32 h, 2]
  | some (.sym n) => [7, n]
  | some .sidecar => [8]
  | some .other => []
  | some (.yield c n k) => [9, (match c with | .ld => 0 | .cp => 1 | .mx => 2 | .cl => 3 | .pf => 4), n, lo32 k.toNat, hi32 k.toNat]

/-- The wait that 16 words describe; `xl` translates a watched address. -/
def waitOfWords (l : List Nat) (xl : Nat → Option Nat) : Option Wait :=
  let a := l.getD 1 0
  let va := pairAt l 2
  match l.getD 0 0 with
  | 1 => some (.slot (a % 16) (l.getD 2 0 % 2 == 1))
  | 2 => some (.gbar a)
  | 3 => (xl va).map fun pa => .wadr va pa (BitVec.ofNat 32 a) (l.getD 4 0 == 1)
  | 4 => (xl va).map fun pa => .wcnt va pa (BitVec.ofNat 32 a) (l.getD 4 0 == 1)
  | 5 => some (if l.getD 4 0 = 2 then .bkfile va else .bkfence (if l.getD 4 0 = 1 then some va else none) a)
  | 7 => some (.sym (a % 32))
  | 8 => some .sidecar
  | 9 => some (.yield (clsOf a) (l.getD 2 0) (BitVec.ofNat 64 (pairAt l 3)))
  | _ => none

/-- The wait of a parked group with these words: a record of no kind leaves it parked; of a watched word that does not translate its word
issues again. -/
def waitRead (l : List Nat) (xl : Nat → Option Nat) : Option Wait :=
  match waitOfWords l xl with
  | some w => some w
  | none => if l.getD 0 0 = 3 || l.getD 0 0 = 4 then none else some .other

/-- Run state as a word: words to issue in [6:0], an lxa's in [7]; the bytes of the lx or lxa in [15:8] are the model's (log 12). -/
def runWordOf (r : Run) : Nat := r.n % 128 + (if r.own then 128 else 0) + r.len % 256 * 256
def runOfWord (w cursor : Nat) : Run := ⟨w % 128, BitVec.ofNat 32 cursor, bitAt w 7, fieldAt w 8 8, []⟩

def condCode : Cond → Nat
  | .arith => 0 | .profile => 1 | .filler => 2 | .deferral => 3
def condOfCode : Nat → Cond
  | 0 => .arith | 1 => .profile | 2 => .filler | _ => .deferral

/-- The handler frame, 11 words. -/
def frameWords : Option Frame → List Nat
  | none => []
  | some f => [lo32 f.spc.toNat, hi32 f.spc.toNat, f.lpc.toNat, runWordOf f.run, f.run.cursor.toNat, (f.mask.extractLsb' 0 32).toNat,
      (f.mask.extractLsb' 32 32).toNat, (f.mask.extractLsb' 64 32).toNat, f.fmt.toNat, f.depth, condCode f.cond]

def frameOfWords (l : List Nat) : Frame :=
  { spc := BitVec.ofNat 64 (pairAt l 0), lpc := BitVec.ofNat 32 (l.getD 2 0), run := runOfWord (l.getD 3 0) (l.getD 4 0),
    mask := BitVec.ofNat 96 (l.getD 5 0 + 2 ^ 32 * l.getD 6 0 + 2 ^ 64 * l.getD 7 0), fmt := BitVec.ofNat 32 (l.getD 8 0), depth := l.getD 9 0,
    cond := condOfCode (l.getD 10 0) }

/-! ### The group block (22 R356) -/

namespace Group

/-- Scalar registers after the results of a list. -/
def overS (c : Cells 32) (l : List Pend) : Cells 32 := l.foldl (fun c p => match p.reg with
  | .s r => if r = 0 || p.lanes = 0 then c else c.set r (p.vals.get 0)
  | _ => c) c

/-- Vector registers after the results of a list. -/
def overV (c : Cells 32) (l : List Pend) : Cells 32 := l.foldl (fun c p => match p.reg with
  | .v r => (lanesOf p.lanes).foldl (fun c l => c.set (96 * r + l) (p.vals.get l)) c
  | _ => c) c

/-- Results that have come stand in their registers; the windows hold the prior values. -/
def arrived (g : Group) : List Pend := g.pend.filter fun (p : Pend) => p.here
def newS (g : Group) : Cells 32 := overS g.s g.arrived
def newV (g : Group) : Cells 32 := overV g.v g.arrived

/-- Number of a scalar or vector register. -/
def regNo : RegRef → Nat
  | .s r | .v r | .sh r => r

/-- The result belongs to an open window of the stream that an image holds: it has come, or later writes replaced it. -/
def inOpen (lane : Bool) (p : Pend) : Bool := p.inWin lane && p.win != 0 && (p.here || p.lanes == 0)

/-- The open windows of a stream whose results have come, oldest first: of each window every register, those that later writes replaced
too. -/
def openWins (g : Group) (lane : Bool) : List (List Pend) :=
  ((g.windows lane).map fun w => g.pend.filter fun (p : Pend) => p.win == w && inOpen lane p).filter fun l => !l.isEmpty

/-- First register and number of registers of a window. -/
def winHead (l : List Pend) : Nat × Nat :=
  match l with
  | p :: _ => ((l.map fun (p : Pend) => regNo p.reg).foldl Nat.min (regNo p.reg), l.length)
  | [] => (0, 0)

/-- The windows of a stream with what their registers hold before each: the register, with the results of the older windows. -/
def priorWins (g : Group) (lane : Bool) (put : Cells 32 → List Pend → Cells 32) (c : Cells 32) : List (List Pend × Cells 32) :=
  let ws := g.openWins lane
  ws.zipIdx.map fun e => (e.1, put c (ws.take e.2).flatten)

/-- Words of a scalar window: register, remaining count, prior value. -/
def scalarWin (l : List Pend) (c : Cells 32) : List Nat :=
  match l with
  | p :: _ => [regNo p.reg, p.left, (c.get (regNo p.reg)).toNat]
  | [] => []

/-- A lane window: first register, count, remaining count in its first words, the prior values from byte 64 on. -/
def putLaneWin (m : Memory) (a : Nat) (l : List Pend) (c : Cells 32) : Memory :=
  match l with
  | p :: _ =>
    let (r0, n) := winHead l
    let m := putWords m a [r0, n, p.left]
    (List.range n).foldl (fun m k => putWords m (a + 64 + 384 * k) ((List.range 96).map fun i => (c.get (96 * (r0 + k) + i)).toNat)) m
  | [] => m

/-- The counters of a group, one byte each, in the order of 12 R222. -/
def counterBytes (g : Group) : List Byte := [Cls.ld, .cp, .mx, .cl, .pf].map fun c => BitVec.ofNat 8 (g.counter c)

/-- The group block, at byte b of an image (22 R356). The last word of the wait record is the model's: the grid barriers that the group has
arrived at (log 12). -/
def image (g : Group) (halted : Bool) (m : Memory) (b : Nat) : Memory :=
  let flags := b2n g.wait.isSome + 2 * b2n g.frame.isSome + 4 * b2n halted + 8 * b2n g.faulted
  let sw := g.priorWins false overS g.s
  let lw := g.priorWins true overV g.v
  let m := putWords m b [lo32 g.spc.toNat, hi32 g.spc.toNat, g.lpc.toNat, runWordOf g.run, g.run.cursor.toNat, g.skid, flags, g.rdepth,
    sw.length, lw.length]
  let m := putWords m (b + 0x40) [g.fmt.toNat, lo32 g.seed.toNat, hi32 g.seed.toNat, g.ptol.toNat, g.clip.toNat, g.cond.toNat,
    lo32 g.hnd.toNat, hi32 g.hnd.toNat, lo32 g.convCnt.toNat, hi32 g.convCnt.toNat, lo32 g.wbCnt.toNat, hi32 g.wbCnt.toNat, g.batchCnt.toNat]
  let m := m.setSlice (b + 0x40 + 52) g.counterBytes
  let m := putWords (putWords m (b + 0x80) (waitWords g.wait)) (b + 0xBC) [g.gbarN]
  let m := putWords m (b + 0xC0) (frameWords g.frame)
  let m := putCells m (b + 0x100) 4 4 g.newS
  let m := putCells m (b + 0x300) 16 12 g.k
  let m := putCells m (b + 0x480) 64 64 g.sh
  let m := g.rstack.reverse.zipIdx.foldl (fun m e => m.setSlice (b + 0x880 + 32 * e.2) e.1.bytes) m
  let m := sw.zipIdx.foldl (fun m e => putWords m (b + 0xC80 + 16 * e.2) (scalarWin e.1.1 e.1.2)) m
  let m := putCells m (b + 0xD80) 2 2 g.tags
  let m := (List.range 32).foldl (fun m k => putCells m (b + 0x1000 + 384 * k) 4 4 (Cells.setAll [] ((List.range 96).map fun l => (l, g.scar.get (96 * k + l))))) m
  let m := lw.zipIdx.foldl (fun m e => putLaneWin m (b + 0x4000 + 1600 * e.2) e.1.1 e.1.2) m
  putCells m (b + 0xA400) 4 4 g.newV

/-- Bytes of a group block. -/
def blockSize (g : Group) : Nat := 41984 + 12288 * g.blocks

/-- Window k of a block: its registers, its remaining count, and the prior value of lane l of its register r. -/
def winRegs (m : Memory) (b : Nat) (lane : Bool) (k : Nat) : List Nat :=
  if lane then (List.range (min 4 (m.num (b + 0x4004 + 1600 * k) 4))).map (m.num (b + 0x4000 + 1600 * k) 4 % 512 + ·)
  else [m.num (b + 0xC80 + 16 * k) 4 % 128]
def winLeft (m : Memory) (b : Nat) (lane : Bool) (k : Nat) : Nat := m.num (b + if lane then 0x4008 + 1600 * k else 0xC84 + 16 * k) 4
def winPrior (m : Memory) (b : Nat) (lane : Bool) (k r l : Nat) : Word :=
  BitVec.ofNat 32 (if lane then m.num (b + 0x4040 + 1600 * k + 384 * (r - (winRegs m b lane k).headD 0) + 4 * l) 4 else m.num (b + 0xC88 + 16 * k) 4)

/-- Key of lane l of register r of a stream's windows: scalar registers have one. -/
def winKey (lane : Bool) (r l : Nat) : Nat := if lane then 96 * r + l else r
def winLanes (lane : Bool) : List Nat := List.range (if lane then 96 else 1)

/-- Window k of a block is the group's own open window k: which lanes it writes is known beside the image (log 12). -/
def winKnown (g : Group) (m : Memory) (b : Nat) (lane : Bool) (k : Nat) : Bool :=
  let l := (g.openWins lane).getD k []
  !l.isEmpty && (if lane then (m.num (b + 0x4000 + 1600 * k) 4, m.num (b + 0x4004 + 1600 * k) 4) == winHead l
    else winRegs m b lane k == [(winHead l).1])

/-- An open window of the block writes lane l of register r: one that is known, or any, where a window on r is not known. -/
def winOwns (g : Group) (m : Memory) (b : Nat) (lane : Bool) (n r l : Nat) : Bool :=
  !((List.range n).all fun k => !(winRegs m b lane k).contains r || g.winKnown m b lane k) ||
    (g.openWins lane).any fun w => w.any fun p => regNo p.reg == r && (if lane then p.lanes.getLsbD l else p.lanes != 0)

/-- What lane l of register r holds as window k closes: the prior value of the next window on it, else the register of the image. -/
def winNext (m : Memory) (b : Nat) (lane : Bool) (n : Nat) (img : Cells 32) (k r l : Nat) : Word :=
  match (List.range n).find? fun j => decide (k < j) && (winRegs m b lane j).contains r with
  | some j => winPrior m b lane j r l
  | none => img.get (winKey lane r l)

/-- The result of window k for register r read back: it writes the lanes of `old`, its entry where it is known, and those whose value changes
as it closes. -/
def winPend (g : Group) (m : Memory) (b : Nat) (lane : Bool) (n : Nat) (img : Cells 32) (k r : Nat) (old : Option Pend) : Pend :=
  let diff := (winLanes lane).filter fun l => g.winOwns m b lane n r l && winNext m b lane n img k r l != winPrior m b lane k r l
  let ls := ((old.map (·.lanes)).getD 0) ||| maskOf diff
  { reg := if lane then .v r else .s r, lanes := ls, vals := Cells.setAll [] ((lanesOf ls).map fun l => (l, winNext m b lane n img k r l)),
    op := 0, lane := lane, left := winLeft m b lane k, win := 2 ^ 40 + k, here := true, form := (old.map (·.form)).getD false }

/-- The results of a stream as a block with n windows describes them, in their places among those of `l`. -/
def winPends (g : Group) (m : Memory) (b : Nat) (lane : Bool) (n : Nat) (img : Cells 32) (l : List Pend) : List Pend :=
  let ws := g.openWins lane
  l.filterMap (fun (p : Pend) =>
    if inOpen lane p then
      let k := ws.findIdx fun w => w.any fun q => q.win == p.win
      if decide (k < n) && g.winKnown m b lane k then some (g.winPend m b lane n img k (regNo p.reg) (some p)) else none
    else some p) ++
  ((List.range n).filter fun k => !g.winKnown m b lane k).flatMap fun k =>
    (winRegs m b lane k).map fun r => g.winPend m b lane n img k r none

/-- The registers behind the open windows: of a lane that a window writes the prior value of the oldest window on it. -/
def winBase (g : Group) (m : Memory) (b : Nat) (lane : Bool) (n : Nat) (img : Cells 32) : Cells 32 :=
  (List.range n).reverse.foldl (fun c k => (winRegs m b lane k).foldl (fun c r => (winLanes lane).foldl (fun c l =>
    if g.winOwns m b lane n r l then c.set (winKey lane r l) (winPrior m b lane k r l) else c) c) c) img

/-- The group that a block describes: what the block does not hold is as in g (log 12). -/
def ofImage (g : Group) (m : Memory) (b : Nat) (xl : Nat → Option Nat) : Group :=
  if g.ended then g
  else
    let w := getWords m b 10
    let x := getWords m (b + 0x40) 13
    let flags := w.getD 6 0
    let depth := w.getD 7 0
    let ns := min 16 (w.getD 8 0)
    let nl := min 16 (w.getD 9 0)
    let regS := (getCells 32 m (b + 0x100) 4 4 128).set 0 0
    let regV := getCells 32 m (b + 0xA400) 4 4 (96 * 32 * g.blocks)
    let (sb, vb) := (g.winBase m b false ns regS, g.winBase m b true nl regV)
    let pend := g.winPends m b true nl regV (g.winPends m b false ns regS g.pend)
    let ww := waitWords g.wait
    let wait := if !bitAt flags 0 then none
      else if !ww.isEmpty && getWords m (b + 0x80) ww.length == ww then g.wait else waitRead (getWords m (b + 0x80) 16) xl
    let run := if w.getD 3 0 % 65536 == runWordOf g.run && w.getD 4 0 == g.run.cursor.toNat then g.run else runOfWord (w.getD 3 0) (w.getD 4 0)
    let spc := BitVec.ofNat 64 (pairAt w 0)
    let lpc := BitVec.ofNat 32 (w.getD 2 0)
    let fw := getWords m (b + 0xC0) 11
    let cnt (c : Cls) : Byte := BitVec.ofNat 8 (m.num (b + 0x74 + clsNo c) 1)
    let hw := (List.range (min 32 depth)).map fun k => Reconv.ofNum (m.num (b + 0x880 + 32 * k) 32)
    let here := spc == g.spc && lpc == g.lpc && run == g.run
    let g : Group := { g with cancel := if here then g.cancel else 0, stall := if here then g.stall else none,
                              cntAdj := [Cls.ld, .cp, .mx, .cl, .pf].foldl (fun a c => a.set (clsNo c) (cnt c - BitVec.ofNat 8 (g.infl.filter fun x => x.cls == c).length)) [] }
    let g : Group := { g with spc := spc, lpc := lpc, run := run,
                              skid := w.getD 5 0, rdepth := depth, faulted := bitAt flags 3, wait := wait, rstack := hw.reverse }
    let g : Group := { g with fmt := BitVec.ofNat 32 (x.getD 0 0), seed := BitVec.ofNat 64 (pairAt x 1), ptol := BitVec.ofNat 32 (x.getD 3 0),
                              clip := BitVec.ofNat 32 (x.getD 4 0), cond := BitVec.ofNat 32 (x.getD 5 0), hnd := BitVec.ofNat 64 (pairAt x 6),
                              convCnt := BitVec.ofNat 64 (pairAt x 8), wbCnt := BitVec.ofNat 64 (pairAt x 10), batchCnt := BitVec.ofNat 32 (x.getD 12 0) }
    let g : Group := { g with frame := if bitAt flags 1 then (if fw == frameWords g.frame then g.frame else some (frameOfWords fw)) else none,
                              s := sb.set 0 0, v := vb,
                              k := (List.range 24).foldl (fun c n => c.set n (BitVec.ofNat 96 (m.num (b + 0x300 + 16 * n) 12) &&& g.liveMask)) [],
                              sh := getCells 512 m (b + 0x480) 64 64 16 }
    { g with tags := getCells 11 m (b + 0xD80) 2 2 320, scar := (List.range 32).foldl (fun c k => (List.range 96).foldl (fun c l =>
                c.set (96 * k + l) (BitVec.ofNat 32 (m.num (b + 0x1000 + 384 * k + 4 * l) 4))) c) [],
             pend := pend, gbarN := m.num (b + 0xBC) 4 }

/-- Parts of the block in which bits may mean nothing: its first two rows, wait record, frame, reconvergence entries, windows. -/
def mayHold (off : Nat) : Bool := decide (off < 0x100) || (decide (0x880 ≤ off) && decide (off < 0xD80)) || (decide (0x4000 ≤ off) && decide (off < 0xA400))

/-- The block of a halted team as cwin shows it: a word that has been written where nothing alive took it shows what was written, while the live
word is as it was then (22 R360; log 47). -/
def shown (g : Group) : Memory :=
  g.ctxH.foldl (fun m e => if m.num (4 * e.1) 4 == e.2.1 then m.setNum (4 * e.1) 4 e.2.2 else m) (g.image true [] 0)

/-- The group after cwin has written a word of its block. -/
def putWord (g : Group) (off v : Nat) (xl : Nat → Option Nat) : Group :=
  let g := g.ofImage (g.shown.setNum off 4 v) 0 xl
  let live := (g.image true [] 0).num off 4
  if !mayHold off then
    let l := (off - 0xA400) / 4
    if 0xA400 ≤ off then g.rowsWritten (l / 96) (maskOf [l % 96]) else g
  else { g with ctxH := if live = v then g.ctxH.del (off / 4) else g.ctxH.set (off / 4) (live, v) }

end Group

/-! ### The team block (22 R356) -/

/-- A symbol's 32 bytes (log 12): state, kind, slot, phase with the space; value; counter address; target; whether its condition has
held; value-word address. -/
def symWords : Option Sym → List Nat
  | none => []
  | some y =>
    let st := if y.val.isSome then 2 else 1
    let v := (y.val.getD 0).toNat
    match y.src with
    | .manual => [st, v, 0, 0, 0, b2n y.met, 0, 0]
    | .counter f _ tg va _ p => [st + 256, v, lo32 f, hi32 f, tg.toNat, b2n y.met + 2 * b2n p, lo32 va, hi32 va]
    | .slot n ph ax va => [st + 512 + 65536 * n + 2 ^ 24 * (b2n ph + 2 * b2n ax), v, 0, 0, 0, b2n y.met, va, 0]

/-- The symbol that 8 words describe. -/
def symOfWords (l : List Nat) (xl : Nat → Option Nat) : Option Sym :=
  let w := l.getD 0 0
  let f := pairAt l 2
  let va := pairAt l 6
  let met := bitAt (l.getD 5 0) 0
  let val : Option Word := if w % 256 = 2 then some (BitVec.ofNat 32 (l.getD 1 0)) else none
  if w % 256 = 0 then none
  else match fieldAt w 8 8 with
  | 1 => some ⟨.counter f ((xl f).getD 0) (BitVec.ofNat 32 (l.getD 4 0)) va ((xl va).getD 0) (bitAt (l.getD 5 0) 1), met, val⟩
  | 2 => some ⟨.slot (fieldAt w 16 4) (bitAt w 24) (bitAt w 25) (va % 2 ^ 32), met, val⟩
  | _ => some ⟨.manual, met, val⟩

/-- Profile e of an image: lo, hi, line count, 0, then its lines. -/
def putProf (m : Memory) (a : Nat) (p : Prof) : Memory :=
  p.lines.zipIdx.foldl (fun m e => putWords m (a + 16 + 12 * e.2) [e.1.a.toNat, e.1.b.toNat, e.1.t.toNat])
    (putWords m a [p.lo.toNat, p.hi.toNat, p.lines.length, 0])

def profOf (m : Memory) (a : Nat) : Prof :=
  { lo := BitVec.ofNat 32 (m.num a 4), hi := BitVec.ofNat 32 (m.num (a + 4) 4),
    lines := (List.range (min 512 (m.num (a + 8) 4))).map fun i =>
      ⟨BitVec.ofNat 32 (m.num (a + 16 + 12 * i) 4), BitVec.ofNat 32 (m.num (a + 20 + 12 * i) 4), BitVec.ofNat 16 (m.num (a + 24 + 12 * i) 2)⟩ }

namespace State

/-- What the team holds of its cores: leader a0, a1, follower a0, a1. -/
def teamHolds (s : State) (t : Nat) (x : Team) : List (Option Hold) :=
  let own (h : Option Hold) : Option Hold := h.filter fun v => v.tid == t
  (coresOf x).flatMap fun c => [own (s.core c).hold0, own (s.core c).hold1]

/-- The word of held accumulators (22 R356). -/
def heldWord (hs : List (Option Hold)) : Nat :=
  let any (p : Nat → Bool) : Bool := hs.zipIdx.any fun e => e.1.isSome && p (e.2 % 2)
  b2n (any (· == 0)) + 2 * b2n (any (· == 1)) + 4 * b2n (hs.any fun h => (h.map (·.residue)).getD false) +
    8 * b2n (hs.any fun h => (h.map (·.pair)).getD false)

/-- The accumulators that a word of held accumulators names, of every core of the team (log 12). -/
def holdsOf (t : Nat) (paired : Bool) (w : Nat) : List (Option Hold) :=
  let h (k : Nat) : Option Hold := if bitAt w k then some ⟨t, bitAt w 2, bitAt w 3, none⟩ else none
  [h 0, h 1] ++ if paired then [h 0, h 1] else []

/-- Byte of the image at which team memory begins; spill stacks follow, then the group blocks. -/
def imgTm : Nat := 0xE1000
def imgSpill (x : Team) : Nat := imgTm + x.tmSize
def imgGroups (x : Team) (gs : List Group) : Nat := imgSpill x + if x.spillOn then 16384 * gs.length else 0

/-- Groups in the order of their spill stacks: each core's, the leader's first. -/
def spillOrder (x : Team) (gs : List Group) : List Group := (gs.filter fun g => g.core == x.core) ++ gs.filter fun g => g.core != x.core

/-- First byte of each group's block. -/
def blockOffs (x : Team) (gs : List Group) : List (Group × Nat) :=
  (gs.foldl (fun (r : Nat × List (Group × Nat)) g => (r.1 + g.blockSize, r.2 ++ [(g, r.1)])) (imgGroups x gs, [])).2

/-- Image size in 4 KiB units. -/
def imgUnits (x : Team) (gs : List Group) : Nat := (imgGroups x gs + (gs.map Group.blockSize).sum + 4095) / 4096

/-- A list of n words, zeros at its end. -/
def padTo (n : Nat) (l : List Nat) : List Nat := l.take n ++ List.replicate (n - l.length) 0

/-- The wait-state record of a collective before its handshake (log 12): kind, group, sequence number, then the peer-set index with rank and slot,
P, PC and lane-word index, and the descriptor's other fields; the record after it is its tile shape. -/
def collWords (o : Op) (c : Coll) : List Nat :=
  [1, o.idx, c.seq, c.idx + 2 ^ 8 * c.rank + 2 ^ 16 * c.bsl, c.size, lo32 o.pc.toNat, hi32 o.pc.toNat, o.lword.toNat,
    c.desc.op + 2 ^ 8 * c.desc.red + 2 ^ 16 * b2n c.desc.sr, c.desc.fmt, c.desc.step, c.desc.root]

/-- The wait-state record of a codebook load: kind, group, table, slot, 0, PC and lane-word index; the record after it is its source shape. -/
def cpcbWords (o : Op) (n bsl : Nat) : List Nat := [4, o.idx, n, bsl, 0, lo32 o.pc.toNat, hi32 o.pc.toNat, o.lword.toNat]

/-- The 16 words of a shape. -/
def shapeWords (b : ShapeBits) : List Nat := (List.range 16).map fun i => (b.extractLsb' (32 * i) 32).toNat
def shapeOfWords (l : List Nat) : ShapeBits := BitVec.ofNat 512 (l.foldr (fun w x => w % 2 ^ 32 + 2 ^ 32 * x) 0)

/-- The collective that a record and its shape describe. -/
def collOfRec (w x : List Nat) : Coll :=
  let r := w.getD 3 0
  let d := w.getD 8 0
  { desc := ⟨d % 4, fieldAt d 8 8 % 3, bitAt d 16, w.getD 9 0 % 256, (Shape.of (shapeOfWords x)).exts, w.getD 10 0 % 2 ^ 16, w.getD 11 0⟩,
    idx := r % 64, seq := w.getD 2 0, rank := fieldAt r 8 8, size := w.getD 4 0 % 512, tile := shapeOfWords x, bsl := fieldAt r 16 5, got := [], spent := false }

/-- What waits rather than runs, in the 16 wait-state records (22 R354): operation where it has one, whether it is the shape that follows its
record, and the words. -/
def waitRecs (s : State) (t : Nat) (gs : List Group) : List (Nat × Bool × List Nat) :=
  ((s.ops.flatMap fun e => if e.2.tid == t then match e.2.kind, e.2.stage with
    | .coll c, .waiting => [(e.1, false, collWords e.2 c), (e.1, true, shapeWords c.tile)]
    | .cpcb n x b, .ready => [(e.1, false, cpcbWords e.2 n b), (e.1, true, shapeWords x)]
    | _, _ => [] else []) ++
  gs.filterMap fun g => match g.wait with
    | some (.bkfile h) => some (h, false, [2, g.idx, h % 2 ^ 32])
    | some (.bkfence _ n) => some (0, false, [3, g.idx, n])
    | _ => none).take 16

/-- The live words of part k of the team block: 0-15 the wait-state records, 16-47 the symbols. -/
def liveWords (s : State) (t : Nat) (x : Team) (gs : List Group) (k : Nat) : List Nat :=
  if k < 16 then padTo 16 (((s.waitRecs t gs)[k]?.map (·.2.2)).getD []) else padTo 8 (symWords (x.syms.get (k - 16)))

/-- Byte and length in words of part k. -/
def partAt (k : Nat) : Nat × Nat := if k < 16 then (0x500 + 64 * k, 16) else (0x100 + 32 * (k - 16), 8)

/-- Its words as the block shows them: those written, while the live ones are as they were then (22 R360; log 47). -/
def shownWords (x : Team) (k : Nat) (live : List Nat) : List Nat :=
  match x.ctxX.get k with
  | some (l, w) => if l == live then w else live
  | none => live

/-- The part is in use: a part that is not holds zero in a saved image and is ignored on load (22 R356). -/
def inUse (live : List Nat) : Bool := live.any (· != 0)

/-- The team block without team memory, as cwin shows it or as it is saved. -/
def teamImage (s : State) (t : Nat) (x : Team) (gs : List Group) (cwin : Bool) : Memory :=
  let hs := s.teamHolds t x
  let gr := s.grid x.grid
  let m := putWords [] 0 [1, imgUnits x gs, x.id, (gr.map (·.nteams)).getD 0, (gr.map (·.prio)).getD 0,
    (x.mcset.getD 0xFFFFFFFF), heldWord hs]
  let m := putCells m 28 1 1 x.cbE
  let m := putCells m 0x80 4 4 x.bs
  let m := (List.range 48).foldl (fun m k =>
    let live := s.liveWords t x gs k
    if cwin || inUse live then putWords m (partAt k).1 (shownWords x k live) else m) m
  let m := m.setNum 0x900 128 x.lrec.toNat
  let m := putCells m 0x1000 1 1 x.cb
  let m := (coresOf x).zipIdx.foldl (fun m e =>
    let c := s.core e.1
    let m := if (hs.getD (2 * e.2) none).isSome then putCells m (0x11000 + 393216 * e.2) 4 4 c.a0 else m
    if (hs.getD (2 * e.2 + 1) none).isSome then putCells m (0x11000 + 393216 * e.2 + 196608) 4 4 c.a1 else m) m
  (x.profs.foldl (fun m e => putProf m (0xD1000 + 8192 * e.1) e.2) m)

/-- The whole image (22 R356). -/
def contextImage (s : State) (t : Nat) (x : Team) : Memory :=
  let gs := s.groupsOf t
  let ok (l : Nat → Loc) (k : Nat) : Bool := !s.uncorrectable (l k)
  let m := putCells (s.teamImage t x gs false) imgTm 1 1 (x.tm.keep (ok (.team t)))
  let m := if x.spillOn then (spillOrder x gs).zipIdx.foldl (fun m e =>
      putCells m (imgSpill x + 16384 * e.2) 1 1 (e.1.spill.keep (ok (.spill t e.1.idx)))) m else m
  (blockOffs x gs).foldl (fun m e => if e.1.ended then m else e.1.image x.halted m e.2) m

/-- The translation that a restored watch finds. -/
def watchPa (s : State) (p asid va : Nat) : Option Nat :=
  if 2 ^ 57 ≤ va then none else (s.walkTable p asid .read va).map fun e => e.pa + (va - e.base)

/-- The team that a team block describes, beside what the block does not hold. -/
def teamOfImage (x : Team) (m : Memory) (xl : Nat → Option Nat) : Team :=
  { x with bs := (List.range 16).foldl (fun c n => c.set n (BitVec.ofNat 32 (m.num (0x80 + 4 * n) 4) &&& 0x001FFFFF)) [],
           cbE := getCells 8 m 28 1 1 4,
           cb := getCells 8 m 0x1000 1 1 65536,
           syms := (List.range 32).foldl (fun c n =>
              if getWords m (0x100 + 32 * n) 8 == shownWords x (n + 16) (padTo 8 (symWords (x.syms.get n))) then c
              else match symOfWords (getWords m (0x100 + 32 * n) 8) xl with
                | some y => c.set n y
                | none => c.del n) x.syms,
           profs := x.profs.map fun e => (e.1, profOf m (0xD1000 + 8192 * e.1)),
           lrec := BitVec.ofNat 1024 (m.num 0x900 128) }

/-- A wait-state record has been written with the words w: the collective, the codebook load, or what the fence waits for is as they say. Kind and
group are those of what waits, and a filing's number is the model's own name for its operation: they are only held (log 47). -/
def setWaitRec (s : State) (t : Nat) (e : Nat × Bool × List Nat) (w : List Nat) : State :=
  let placed (o : Op) (k : OpKind) : Op := { o with pc := BitVec.ofNat 64 (pairAt w 5), lword := BitVec.ofNat 32 (w.getD 7 0), kind := k }
  match e.2, s.ops.get e.1 with
  | (false, 3 :: i :: _), _ => s.mapGroup t i fun g => match g.wait with
    | some (.bkfence h _) => { g with wait := some (.bkfence h (w.getD 2 0)) }
    | _ => g
  | (shape, _), some o => match o.kind, shape with
    | .coll c, false => s.putOp e.1 (placed o (.coll (collOfRec w (shapeWords c.tile))))
    | .coll c, true => s.putOp e.1 { o with kind := .coll (collOfRec (collWords o c) w) }
    | .cpcb _ x _, false => s.putOp e.1 (placed o (.cpcb (w.getD 2 0 % 4) x (w.getD 3 0 % 32)))
    | .cpcb n _ b, true => s.putOp e.1 { o with kind := .cpcb n (shapeOfWords w) b }
    | _, _ => s
  | _, none => s

/-- The words of a team block that has been written are held where they differ from the live ones; of a block that is loaded, in the parts in
use. -/
def holdWords (s : State) (t : Nat) (m : Memory) (cwin : Bool) : State :=
  let gs := s.groupsOf t
  s.mapTeam t fun x => { x with ctxX := (List.range 48).foldl (fun c k =>
    let live := s.liveWords t x gs k
    let w := getWords m (partAt k).1 (partAt k).2
    if w == live || !(cwin || inUse live) then c.del k else c.set k (live, w)) x.ctxX }

/-- The wait-state records of a block are taken where they differ from those shown (`x`: the team before the block was written). -/
def takeWaitRecs (s : State) (t : Nat) (x : Team) (m : Memory) (cwin : Bool) : State :=
  ((s.waitRecs t (s.groupsOf t)).zipIdx.foldl (fun s e =>
    let w := getWords m (partAt e.2).1 16
    if w == shownWords x e.2 (padTo 16 e.1.2.2) then s else s.setWaitRec t e.1 w) s).holdWords t m cwin

/-- Collectives and codebook loads that the wait-state records from number k on describe, in f steps: group, PC, lane-word index, what. -/
def recOps (m : Memory) : Nat → Nat → List (Nat × DWord × Word × OpKind)
  | 0, _ => []
  | f + 1, k =>
    let w := getWords m (partAt k).1 16
    let x := getWords m (partAt (k + 1)).1 16
    let op (o : OpKind) : List (Nat × DWord × Word × OpKind) := [(w.getD 1 0, BitVec.ofNat 64 (pairAt w 5), BitVec.ofNat 32 (w.getD 7 0), o)]
    if 15 ≤ k then []
    else if w.headD 0 = 1 then op (.coll (collOfRec w x)) ++ recOps m f (k + 2)
    else if w.headD 0 = 4 then op (.cpcb (w.getD 2 0 % 4) (shapeOfWords x) (w.getD 3 0 % 32)) ++ recOps m f (k + 2)
    else recOps m f (k + 1)

/-- One of them waits again for a team that its image alone describes: its group's counter, as the block has it, counts it (22 R356, R357). -/
def addRecOp (s : State) (t : Nat) (e : Nat × DWord × Word × OpKind) : State :=
  match s.group t e.1 with
  | none => s
  | some g =>
    if g.ended then s
    else
      let (cls, stage) := match e.2.2.2 with
        | .coll _ => (Cls.cl, Stage.waiting)
        | _ => (Cls.cp, Stage.ready)
      let h := s.handles
      let s : State := { s with handles := h + 1, ops := s.ops.set h ⟨t, e.1, s.glid t e.1, g.core, e.2.1, e.2.2.1, some cls, false, stage, none, s.clk.toNat, e.2.2.2⟩ }
      let s := s.putGroup t e.1 { g with infl := g.infl ++ [⟨cls, h, false⟩], cntAdj := g.cntAdj.set (Group.clsNo cls) (g.cntAdj.get (Group.clsNo cls) - 1) }
      match e.2.2.2 with
      | .coll c => s.mapTeam t fun x => { x with collSeq := x.collSeq.set c.idx (if c.seq < (x.collSeq.get c.idx).toNat then x.collSeq.get c.idx
          else BitVec.ofNat 32 (c.seq + 1)) }
      | _ => s

/-- Where the wait-state records of such a team are full, more may have waited than they hold: `cl` and `cp` count the operations that they
describe (log 50). -/
def countRecs (s : State) (t : Nat) (m : Memory) : State :=
  if (getWords m (partAt 15).1 16).all (· == 0) then s
  else (s.groupsOf t).foldl (fun s g => s.putGroup t g.idx { g with cntAdj := (g.cntAdj.set (Group.clsNo .cl) 0).set (Group.clsNo .cp) 0 }) s

/-! ### Quiescence (22 R354, R355) -/

/-- The operation may be saved with its wait state, or does not hold the save back: a collective before its handshake (08 R162), a codebook
load or a multicast fill that waits to start, an assembly that is not complete, a parked filing, a close of which no word is left. A collective that
holds a fault is not saved so (log 78). -/
def savedWith (s : State) (h : Nat) (o : Op) : Bool :=
  match o.kind with
  | .coll c => o.stage == .waiting && !s.allThere o c
  | .filing | .close _ _ [] => true
  | .cpcb n _ _ => o.stage == .ready && (s.tableInUse o.tid n h || s.cbPending o.tid n h)
  | .copy c _ => o.stage == .waiting || (o.stage == .ready && c.form == .cpm && s.mcAway o.tid)
  | _ => false

/-- Teams of the same multicast set, itself among them. -/
def setMates (s : State) (t : Nat) : List Nat :=
  match s.team t with
  | some x => if x.mcset.isNone then [t] else (s.teams.filter fun e => e.2.grid == x.grid && e.2.mcset == x.mcset).map (·.1)
  | none => []

/-- Everything that a save waits for has finished, every fill into a team of the set that has been issued and may start among it (05 R108). -/
def quiet (s : State) (t : Nat) : Bool :=
  (s.ops.all fun e => e.2.tid != t || s.savedWith e.1 e.2) &&
    !(s.ops.any fun e => (s.setMates t).contains e.2.tid && (match e.2.kind with
      | .copy c _ => c.form == .cpm && (e.2.stage == .moving || e.2.stage == .failed || (e.2.stage == .ready && !s.mcAway e.2.tid))
      | _ => false))

/-- The team has an untaken fault record (22 R355). -/
def untaken (s : State) (t : Nat) : Bool :=
  s.cores.any fun c => (c.2.fq.any fun r => r.2.tid == t && !r.2.taken) || c.2.fqWait.any fun r => r.tid == t

/-! ### Save (22 R354) -/

/-- Write an image of n 4 KiB units. -/
def writeImage (s : State) (loc : Nat → Loc) (m : Memory) (n : Nat) : State :=
  (List.range n).foldl (fun s i => s.setBytes (loc (4096 * i)) (m.slice (4096 * i) 4096)) s

/-- Read an image of n units. -/
def readImage (s : State) (loc : Nat → Loc) (n : Nat) : Memory :=
  (List.range (4096 * n)).foldl (fun m i => m.set i (s.byteAt (loc i))) []

/-- Reading rows of an image: one that cannot be corrected is recorded, by a Curator as its own read (24 R394). -/
def noteRows (s : State) (loc : Nat → Loc) (rows : List Nat) (curator : Option Nat) : State :=
  if s.badRows.isEmpty && s.mfailed.isEmpty then s
  else rows.foldl (fun s i => match curator with
    | some c => s.noteRead (loc (32 * i)) 32 c none
    | none => s.noteHubRead (loc (32 * i)) 32) s

/-- Reading an image of n units. -/
def noteImage (s : State) (loc : Nat → Loc) (n : Nat) (curator : Option Nat) : State := s.noteRows loc (List.range (128 * n)) curator

/-- Codewords of the team that a save reads as zero: each records source 0x01 (24 R394, R397). -/
def noteBadRows (s : State) (t : Nat) (x : Team) : State :=
  let mc (s : State) (core a : Nat) (r : Row) : State := s.machineCheck { source := 1, die := core / 12, core := core, faddr := a, team := x.id,
                                                                          quad := s.quadNo (some r) 0, sgrp := s.stripeNo (some r) }
  let none' : Nat := 15 * 2 ^ 60
  let s := s.badRows.foldl (fun s r => if rowOfTeam t (.mem r.row) then
      mc s (((s.stripeOf (.mem r.row)).map (·.core)).getD x.core) (mcAddr r.row) (.mem r.row) else s) s
  let s := (s.groupsOf t).foldl (fun s g => (g.badV.filter BadCode.bad).foldl (fun s b => mc s g.core none' (.vreg t g.idx b.reg b.row)) s) s
  let s := x.badP.foldl (fun s b => mc s x.core none' (.prof t b.reg b.row)) s
  (coresOf x).foldl (fun s c => (s.core c).badA.foldl (fun s b =>
    if (((if b.reg = 0 then (s.core c).hold0 else (s.core c).hold1).map (·.tid)) == some t) then mc s c none' (.acc c b.reg b.row) else s) s) s

/-- A parked filing leaves the hub's line: its word issues again at the restore (log 48). -/
def unfile (s : State) (t : Nat) (g : Group) : State :=
  match g.wait with
  | some (.bkfile h) =>
    let p := s.partOf g.core
    let s := ((({ s with ops := s.ops.del h } : State).mapPart p fun x => { x with parked := x.parked.filter fun f => f.op != h }).relevel p)
    s.mapGroup t g.idx fun g => { g with pend := g.pend.filter fun (q : Pend) => q.op != h }
  | _ => s

/-- What goes before an image is written: the place of a parked filing, closes that are over, operations that have completed (22 R356). -/
def saveReady (s : State) (t : Nat) : State :=
  ((s.groupsOf t).foldl (fun s g => (s.unfile t g).mapGroup t g.idx fun g => { g with infl := g.infl.filter fun x => !x.fin }) s).sweepCloses t

/-- A team leaves its cores, its state kept beside its image: core resources are freed as at retirement (22 R354). -/
def unloadTeam (s : State) (t : Nat) (slot : Option Nat) (resume : Bool) : State :=
  match s.team t with
  | none => s
  | some x =>
    let y : Saved := ⟨t, x.grid, x.id, slot, s.partOf x.core, resume, x.core / 12, x, s.groupsOf t, s.teamHolds t x⟩
    let s := (coresOf x).foldl (fun s c => (s.releaseAcc t c).mapCore c fun k => { k with accWait := k.accWait.filter fun w => w.1 / 64 != t }) s
    ({ s with teams := s.teams.del t, groups := s.groups.filter fun e => e.1 / 64 != t, saved := s.saved ++ [y] } : State).dropErrs (rowOfTeam t)

/-- SAVE of a team whose work is quiet: the image is written, the core's resources are freed. -/
def saveTeam (s : State) (t : Nat) (loc : Nat → Loc) (slot : Option Nat) (resume : Bool) : State :=
  match s.team t with
  | none => s
  | some x =>
    let s := s.saveReady t
    ((s.noteBadRows t x).writeImage loc (s.contextImage t x) (imgUnits x (s.groupsOf t))).unloadTeam t slot resume

/-- MOVE of a team whose work is quiet, through a buffer of the hub, to a core or pair: save, load, resume (23 R382). -/
def moveTeam (s : State) (t : Nat) (load : State → Saved → Memory → State) : State :=
  match s.team t with
  | none => s
  | some x =>
    let s := s.saveReady t
    let m := s.contextImage t x
    let s := (s.noteBadRows t x).unloadTeam t none true
    match s.saved.find? fun y => y.tid == t with
    | some y => load s y m
    | none => s

/-! ### Load (22 R357) -/

/-- What one side of a saved team needs: slots and blocks of the groups that have not ended, in their quadrants (01 R31). -/
def savedNeed (s : State) (y : Saved) (side : Nat) : Need :=
  let r := ((s.grid y.grid).map (·.record)).getD 0
  let n := (Spec.of r y.team.reserve).need side
  let mine := (y.groups.filter fun g => (g.core == y.team.core) == (side == 0)).zipIdx.filter fun e => !e.1.ended
  { n with slots := (List.range 4).map fun q => (mine.filter fun e => e.2 % 4 == q).length,
           blocks := (List.range 4).map fun q => ((mine.filter fun e => e.2 % 4 == q).map fun e => e.1.blocks).sum }

/-- A saved team whose image names other held accumulators in its header holds those. -/
def heldAs (y : Saved) (w : Nat) : Saved := if w = heldWord y.holds then y else { y with holds := holdsOf y.tid y.team.paired w }

/-- A core, or the pair that it leads, has the resources for a saved team (01 R30), beside (`real`) or without the resident teams, and the
teams placed in thought; what it holds of the accumulators must be free there too (log 72). -/
def savedFitsOn (s : State) (real : Bool) (hyp : List (Nat × Need)) (y : Saved) (c : Nat) : Bool :=
  let side (k : Nat) : Bool := s.coreFits real hyp y.team.reserve (s.savedNeed y k) (c + k) &&
    (!real || (((y.holds.getD (2 * k) none).isNone || (s.core (c + k)).hold0.isNone) &&
      ((y.holds.getD (2 * k + 1) none).isNone || (s.core (c + k)).hold1.isNone)))
  side 0 && (!y.team.paired || (c % 2 == 0 && side 1))

/-- The saved team fits now. -/
def savedFits (s : State) (y : Saved) (c : Nat) : Bool := s.savedFitsOn true [] y c

/-- Saved teams fit one after another on cores that `ok` allows, each placed as a team is (01 R30). -/
def savedSeq (s : State) (p : Nat) (real : Bool) (ok : Nat → Bool) : List Saved → List (Nat × Need) → Bool
  | [], _ => true
  | y :: ys, hyp =>
    let load (c : Nat) : Nat := (s.coreUse real hyp c).2.groups + if y.team.paired then (s.coreUse real hyp (c + 1)).2.groups else 0
    match argmin load ((s.coresIn p).filter fun c => ok c && (!y.team.paired || ok (c + 1)) && s.savedFitsOn real hyp y c) with
    | none => false
    | some c => s.savedSeq p real ok ys (hyp ++ (c, s.savedNeed y 0) :: if y.team.paired then [(c + 1, s.savedNeed y 1)] else [])

/-- A restored group on its core, in a free slot of its quadrant. -/
def placeSaved (s : State) (t c m : Nat) (g : Group) : State :=
  if g.ended then s.putGroup t g.idx { g with core := c }
  else
    let (sl, s) := s.drawFrom (s.freeSlots4 c (m % 4))
    s.putGroup t g.idx { g with core := c, slot := sl }

/-- The watches that a restored team brings are registered one after another: until then none of them counts (08 R167, R168). -/
def unwatch (s : State) (t : Nat) : State :=
  let s := s.mapTeam t fun x => { x with syms := x.syms.map fun y => match y.2.src with
    | .counter f fp tg va vp _ => (y.1, { y.2 with src := .counter f fp tg va vp true })
    | _ => y }
  (s.groupsOf t).foldl (fun s g => match g.wait with
    | some (.wadr va pa old _) => s.putGroup t g.idx { g with wait := some (.wadr va pa old true) }
    | some (.wcnt va pa v _) => s.putGroup t g.idx { g with wait := some (.wcnt va pa v true) }
    | _ => s) s

/-- The wait of a restored group runs its step again (08 R168): a filing issues again; a slot or a watched word is looked at, and a word
that does not translate now issues again at the resume. -/
def rewait (s : State) (t : Nat) (p asid : Nat) (g : Group) : State :=
  match g.wait with
  | some (.bkfile _) => s.putGroup t g.idx { g with wait := none, reissue := some .filler }
  | some (.slot n ph) => if bsPhase (s.slot t n) != ph then s.putGroup t g.idx ({ g with wait := none }.advance 4) else s
  | some (.wadr va _ old _) =>
    match s.watchPa p asid va with
    | none => s.putGroup t g.idx { g with wait := none }
    | some pa => (if s.wordAt (.dev pa) != old then s.putGroup t g.idx ({ g with wait := none }.advance 4)
      else s.putGroup t g.idx { g with wait := some (.wadr va pa old (s.mustPoll pa)) }).noteRead (.dev pa) 4 g.core (some (t, some g.idx))
  | some (.wcnt va _ v _) =>
    match s.watchPa p asid va with
    | none => s.putGroup t g.idx { g with wait := none }
    | some pa => (if cntHolds (s.wordAt (.dev pa)) v then s.putGroup t g.idx ({ g with wait := none }.advance 4)
      else s.putGroup t g.idx { g with wait := some (.wcnt va pa v (s.mustPoll pa)) }).noteRead (.dev pa) 4 g.core (some (t, some g.idx))
  | some (.sym n) => if (s.symX t n).isSome then s.putGroup t g.idx { g with wait := none } else s
  | some (.yield _ _ _) => s.putGroup t g.idx (wakeYield g)
  | _ => s

/-- A pending counter symbol of a restored team runs its step again (10 R198); an address that no longer translates keeps its place (log 81). -/
def resym (s : State) (t : Nat) (p asid n : Nat) (y : Sym) : State :=
  match y.src with
  | .counter f fp tg va vp _ =>
    let fp := (s.watchPa p asid f).getD fp
    let vp := (s.watchPa p asid va).getD vp
    let put (met : Bool) : State := s.mapTeam t fun x => { x with syms := x.syms.set n { y with src := .counter f fp tg va vp (!met && s.mustPoll fp), met := met } }
    if y.met || y.val.isSome then put true
    else (put (cntHolds (s.wordAt (.dev fp)) tg)).noteRead (.dev fp) 4 (((s.team t).map (·.core)).getD 0) (some (t, none))
  | _ => s

/-- Accumulators come back with what was held of them. -/
def restoreAcc (s : State) (t c : Nat) (m : Memory) (base : Nat) (h0 h1 : Option Hold) : State :=
  let mine (h : Option Hold) : Option Hold := h.map fun v => { v with tid := t }
  let clean (j : Nat) (k : Core) : Core := { k with badA := k.badA.filter fun b => b.reg != j }
  let s := if h0.isSome then s.mapCore c fun k => clean 0 { k with a0 := getCells 32 m base 4 4 49152, hold0 := mine h0 } else s
  if h1.isSome then s.mapCore c fun k => clean 1 { k with a1 := getCells 32 m (base + 196608) 4 4 49152, hold1 := mine h1 } else s

/-- LOAD of a saved team onto a core or pair: the state of the image, the team left halted (22 R357); a collective's time starts again as it
rejoins (08 R161). -/
def loadTeam (s : State) (y : Saved) (m : Memory) (c : Nat) : State :=
  let new := !(s.saved.any fun z => z.tid == y.tid)
  let y := heldAs y (m.num 24 4)
  let t := y.tid
  let p := s.partOf c
  let asid := ((s.grid y.grid).map (·.asid)).getD 0
  let xl := s.watchPa p asid
  let old := y.team.core
  let coreFor (k : Nat) : Nat := if k = old then c else c + 1
  let (e1, s) := s.drawFrom (s.freeEntries c)
  let (e2, s) := if y.team.paired then s.drawFrom (s.freeEntries (c + 1)) else (0, s)
  let x := teamOfImage y.team m xl
  let offs := blockOffs y.team y.groups
  let tm := getCells 8 m imgTm 1 1 x.tmSize
  let s := s.putTeam t { x with core := c, entry := e1, entry2 := e2, halted := true, tm := tm, badP := [] }
  let spills := spillOrder y.team y.groups
  let gs := offs.map fun e =>
    let g := { e.1.ofImage m e.2 xl with badV := [], ctxH := [], skidMax := 0, stepping := false, stall := none }
    if y.team.spillOn then { g with spill := getCells 8 m (imgSpill y.team + 16384 * spills.findIdx (·.idx == g.idx)) 1 1 16384 } else g
  let num (g : Group) : Nat := (y.groups.filter fun (h : Group) => h.core == g.core && decide (h.idx < g.idx)).length
  let s := gs.foldl (fun s g => s.placeSaved t (coreFor g.core) (num g) g) s
  let s := s.restoreAcc t c m 0x11000 (y.holds.getD 0 none) (y.holds.getD 1 none)
  let s := if y.team.paired then s.restoreAcc t (c + 1) m (0x11000 + 393216) (y.holds.getD 2 none) (y.holds.getD 3 none) else s
  let s : State := { s with saved := s.saved.filter fun z => z.tid != t,
                            ops := s.ops.map fun (e : Nat × Op) => if e.2.tid == t then (e.1, { e.2 with core := coreFor e.2.core, since := (match e.2.kind with
                              | .coll _ => s.clk.toNat
                              | _ => e.2.since) }) else e,
                            trackers := s.trackers.map fun (e : Tracker) => if e.tid == t then { e with core := coreFor e.core } else e }
  let s := if new then ((recOps m 16 0).foldl (fun s e => s.addRecOp t e) s).countRecs t m else s
  let s := (s.takeWaitRecs t y.team m false).unwatch t
  let s := x.syms.foldl (fun s y => s.resym t p asid y.1 y.2) s
  let s := (s.groupsOf t).foldl (fun s g => s.rewait t p asid g) s
  let s := (s.fenceCheck p).barrierCheck y.grid
  s.relevel p

/-- A halted team resumes (22 R361). -/
def resumeTeam (s : State) (t : Nat) : State :=
  (s.groupsOf t).foldl (fun s g => s.putGroup t g.idx { g with skid := 0, skidMax := 0, faulted := false, stepping := false })
    (s.mapTeam t fun x => { x with halted := false })

/-! ### Pre-emption area (23 R367) -/

/-- Byte of slot i of a partition's pre-emption area. -/
def slotAt (s : State) (p i : Nat) : Nat := s.cfgD 2 p 0x108 + 4096 * fieldAt (s.cfgW 2 p 0x124).toNat 0 20 * i

/-- Slots in use, and the lowest free one. -/
def slotsUsed (s : State) (p : Nat) : List Nat := (s.saved.filter fun y => y.part == p).filterMap (·.slot)
def freeSlot (s : State) (p : Nat) : Option Nat :=
  (List.range (fieldAt (s.cfgW 2 p 0x120).toNat 0 13)).find? fun i => !(s.slotsUsed p).contains i

/-- Pre-emption may take a slot only while more than 96 are free. -/
def mayTakeSlot (s : State) (p : Nat) : Bool := decide (96 + (s.slotsUsed p).length < fieldAt (s.cfgW 2 p 0x120).toNat 0 13)

/-- Pages of n 4 KiB units from an address. -/
def unitPages (k : Kind) (a n : Nat) : List (Kind × Nat) := ((List.range n).map fun i => (k, (a + 4096 * i) / 65536)).dedup

/-- The address space in which context images are named: that of host launches (log 26). -/
def imageSpace (s : State) (p : Nat) : Nat := fieldAt (s.cfgW 2 p 0x028).toNat 0 12

/-- Translate a slot of the pre-emption area for an image of n units. -/
def slotPages (s : State) (k : Kind) (p i n : Nat) : Pages :=
  s.pages .hub none p (s.imageSpace p) (unitPages k (s.slotAt p i) n) []

/-- The place of a slot's bytes. -/
def slotLoc (s : State) (p i : Nat) (tab : List (Nat × Nat)) (k : Nat) : Loc := Side.dev.loc tab (s.slotAt p i + k)

/-- Restore a team from its slot: it resumes if it was running (22 R357). -/
def restoreFrom (s : State) (y : Saved) (tab : List (Nat × Nat)) (c : Nat) : State :=
  let l := s.slotLoc y.part (y.slot.getD 0) tab
  let n := imgUnits y.team y.groups
  let m := s.readImage l n
  let s := (s.noteImage l n none).loadTeam y m c
  if y.resume then s.resumeTeam y.tid else s

end State

end Sys2Proof.Machine
end

