-- ==== Sys2Proof/Machine/Admission.lean ====
section
/-! DEFINITION. Admission (01 R29-R32, 23 R365), pre-emption by the distributor (23 R366), retirement of a grid (01 R28, 09 R182). -/

namespace Sys2Proof.Machine

open Sys2Proof

/-! ### What waits for admission -/

/-- A unit that is admitted at once: a saved team, or unstarted teams (one team, a multicast set, a whole co-resident grid). -/
inductive AUnit where
  | restore (y : Saved)
  | fresh (grid : Nat) (ids : List Nat)
deriving DecidableEq, Repr

namespace AUnit
def grid : AUnit → Nat
  | restore y => y.grid
  | fresh g _ => g
/-- Its first team. -/
def first : AUnit → Nat
  | restore y => y.id
  | fresh _ ids => ids.headD 0
end AUnit

namespace State

/-- Teams of the set that begins at id u. -/
def setIds (S T u : Nat) : List Nat := (List.range (min S (T - u))).map (u + ·)

/-- The unstarted units of a grid that are looked at: the sets passed over, the next one, the one after it when the next is its level's
head, and a smaller last set. Sets between are like these. -/
def freshUnits (s : State) (n : Nat) (g : Grid) : List AUnit :=
  let S := Rec.mcset g.record
  let T := g.nteams
  let none' := g.next = 0 && g.skipped.isEmpty && !g.lastIn
  if Rec.coRes g.record then (if none' then [.fresh n (List.range T)] else [])
  else
    let lim := if g.lastIn then T / S * S else T
    let isHead := match (s.part g.part).heads.get g.prio with
      | some h => h.1 == n && h.2.1 == g.next
      | none => false
    let us := g.skipped ++ (if g.next < lim then [g.next] else []) ++ (if isHead && decide (g.next + S < lim) then [g.next + S] else []) ++
      if T % S ≠ 0 && !g.lastIn && decide (g.next ≤ T / S * S) then [T / S * S] else []
    us.dedup.map fun u => .fresh n (setIds S T u)

/-- The units of a grid: saved teams first (01 R29). -/
def unitsOf (s : State) (n : Nat) (g : Grid) : List AUnit :=
  if !g.depMet then []
  else (g.waiting.filterMap fun id => (s.saved.find? fun y => y.grid == n && y.id == id).map AUnit.restore) ++ s.freshUnits n g

/-- The order of grids: level, then age (01 R29). -/
def before (a b : Nat × Grid) : Bool := if a.2.prio != b.2.prio then decide (b.2.prio < a.2.prio) else decide (a.2.age < b.2.age)

def insertGrid (e : Nat × Grid) : List (Nat × Grid) → List (Nat × Grid)
  | [] => [e]
  | x :: r => if before e x then e :: x :: r else x :: insertGrid e r

/-- Every unit that waits in a partition, in the order of admission. -/
def queue (s : State) (p : Nat) : List AUnit :=
  ((s.grids.filter fun e => e.2.part == p).foldr insertGrid []).flatMap fun e => s.unitsOf e.1 e.2

/-! ### Where a unit goes -/

/-- Cores that a grid may use: a handler grid stays on its Curator's die (22 R350). -/
def dieOk (g : Grid) (c : Nat) : Bool := match g.handler with
  | some k => c / 12 == k / 12
  | none => true

/-- Resident teams of the set of a saved team. -/
def matesIn (s : State) (y : Saved) : List Nat := (s.teams.filter fun e => e.2.grid == y.grid && y.team.mcset.isSome && e.2.mcset == y.team.mcset).map fun e => e.2.core
/-- Put a saved team into a list by its team linear id. -/
def insertSaved (y : Saved) : List Saved → List Saved
  | [] => [y]
  | z :: r => if y.id ≤ z.id then y :: z :: r else z :: insertSaved y r

/-- Its saved members, in ascending team linear id. -/
def matesOut (s : State) (y : Saved) : List Saved :=
  (s.saved.filter fun z => z.grid == y.grid && z.team.mcset == y.team.mcset).foldr insertSaved []

/-- A die that a saved team may go to: the one that holds the rest of its set, or one that can hold all that is saved of it, as the dies are
(`real`) or with no team resident (01 R29, R30). -/
def matesOk (s : State) (real : Bool) (y : Saved) (ok : Nat → Bool) (d : Nat) : Bool :=
  if y.team.mcset.isNone then true
  else match s.matesIn y with
  | c :: _ => d == c / 12
  | [] => s.savedSeq y.part real (fun c => ok c && c / 12 == d) (s.matesOut y) []

/-- The cores, or leaders, of a unit's teams on cores that `ok` allows: none where it does not fit. -/
def placeUnit (s : State) (p : Nat) (u : AUnit) (ok : Nat → Bool) : Option (List Nat) :=
  match s.grid u.grid with
  | none => none
  | some g =>
    let x := Spec.of g.record g.drain.isSome
    let ok (c : Nat) : Bool := ok c && dieOk g c
    match u with
    | .restore y =>
      (argmin (s.unitLoad true [] x) ((s.coresIn p).filter fun c => ok c && (!y.team.paired || ok (c + 1)) && s.matesOk true y ok (c / 12) &&
        s.savedFits y c)).map fun c => [c]
    | .fresh _ ids =>
      let S := Rec.mcset g.record
      if Rec.coRes g.record then s.placeAll p true ok (setsFrom x S g.nteams 0) []
      else s.placeAll p true ok [ids.map fun _ => x] []

/-- The cores that a grid's head takes: the core, pair or die with the most free group slots, or those of a co-resident grid in an empty
partition (01 R29). A saved team takes a core or pair, or a die where its whole set is saved and must find one die again. Which are candidates, and that a co-resident grid's cores may be reserved to another head too, is log 63. -/
def reserveFor (s : State) (p : Nat) (u : AUnit) (taken : List Nat) : List Nat :=
  match s.grid u.grid with
  | none => []
  | some g =>
    let x := Spec.of g.record g.drain.isSome
    let free (c : Nat) : Bool := !taken.contains c && dieOk g c
    let used (c : Nat) : Nat := if s.corePresent c then (s.coreUse true [] c).2.groups else 32
    let both (c : Nat) : List Nat := if x.paired then [c, c + 1] else [c]
    let one (fits : Nat → Bool) : List Nat :=
      match argmin (fun c => ((both c).map used).sum) ((s.coresIn p).filter fun c => (both c).all free && fits c) with
      | some c => both c
      | none => []
    let on (d : Nat) : List Nat := (s.coresIn p).filter fun c => c / 12 == d
    let die (fits : Nat → Bool) : List Nat :=
      match argmin (fun d => ((on d).map used).sum) ((List.range 8).filter fun d => !(on d).isEmpty && (on d).all free && fits d) with
      | some d => on d
      | none => []
    match u with
    | .restore y =>
      if y.team.mcset.isSome && (s.matesIn y).isEmpty then die (s.matesOk false y (dieOk g))
      else one fun c => s.savedFitsOn false [] y c && s.matesOk false y (dieOk g) (c / 12)
    | .fresh _ ids =>
      if Rec.coRes g.record then
        (((s.placeAll p false (dieOk g) (setsFrom x (Rec.mcset g.record) g.nteams 0) []).getD []).flatMap both).dedup
      else if Rec.mcset g.record = 1 then one (s.unitFits false [] x)
      else die fun d => (s.placeSeq p false (fun c => c / 12 == d) (ids.map fun _ => x) []).isSome

/-! ### Admitting -/

/-- What a drain group starts with beside (09 R177). -/
def drainStart (e : FEnt) (g : Group) : Group :=
  { g with sh := Cells.setAll g.sh [(0, e.f.a), (1, e.f.g), (2, e.f.t)],
           s := Cells.setAll g.s [(4, BitVec.ofNat 32 e.acc), (5, if e.f.last then 1 else 0)] }

/-- The origin tag of a handler lane, v0 to v7 (22 R350). -/
def originTag (o : Origin) : List Word :=
  let r := o.of
  [r.team, BitVec.ofNat 32 (r.grp.toNat * 256 + o.lane), r.pc.extractLsb' 0 32, r.pc.extractLsb' 32 32, r.faddr.extractLsb' 0 32,
   r.faddr.extractLsb' 32 32, r.code.code.setWidth 32, r.lword]

/-- What the group of handler team id starts with: its packed lanes and their tags (22 R350). -/
def handlerStart (gr : Grid) (id : Nat) (g : Group) : Group :=
  let os := (gr.origins.drop (96 * id)).take 96
  let m := lanesBelow os.length
  let v := os.zipIdx.foldl (fun (v : Cells 32) e => (originTag e.1).zipIdx.foldl (fun (v : Cells 32) w => v.set (96 * w.2 + e.2) w.1) v) []
  { g with live := os.length, v := v,
           s := Cells.setAll g.s [(125, m.extractLsb' 0 32), (126, m.extractLsb' 32 32), (127, m.extractLsb' 64 32)] }

/-- What the groups of team id of a grid start with beside the rule of every group (09 R177, 22 R350). -/
def startWith (s : State) (gr : Grid) (id : Nat) : Nat → Group → Group := fun _ g =>
  match gr.drain, gr.handler with
  | some a, _ => match (s.part gr.part).entries.find? fun e => e.acc == a with
    | some e => drainStart e g
    | none => g
  | none, some _ => handlerStart gr id g
  | none, none => g

/-- The grid's count of what has been admitted. -/
def Grid.admitted (g : Grid) (ids : List Nat) : Grid :=
  let S := Rec.mcset g.record
  let u := ids.headD 0
  if Rec.coRes g.record then { g with next := g.nteams }
  else if g.skipped.contains u then { g with skipped := g.skipped.filter (· != u) }
  else if u = g.next then { g with next := min g.nteams (g.next + S) }
  else if u = g.next + S && decide (u + S ≤ g.nteams) then { g with skipped := g.skipped ++ [g.next], next := g.next + 2 * S }
  else { g with lastIn := true }

/-- A unit that has not been admitted: a saved team that is still saved, the pages of its slot not translated. -/
def stillOut (s : State) : AUnit → Bool
  | .restore y => s.saved.any fun z => z.tid == y.tid
  | .fresh _ _ => false

/-- Admit a unit on its cores. The first team of a grid writes status 0x01 (01 R25). -/
def admitUnit (s : State) (u : AUnit) (cores : List Nat) : State :=
  match s.grid u.grid with
  | none => s
  | some g =>
    match u with
    | .restore y =>
      match s.slotPages .read y.part (y.slot.getD 0) (imgUnits y.team y.groups) with
      | .wait s | .bad s _ => s
      | .ok tab =>
        let s := s.restoreFrom y tab (cores.headD 0)
        match s.grid u.grid with
        | some g => s.putGrid u.grid { g with waiting := g.waiting.erase y.id }
        | none => s
    | .fresh n ids =>
      let begun := g.next ≠ 0 || !g.skipped.isEmpty || g.lastIn
      let x := Spec.of g.record g.drain.isSome
      let s := s.putGrid n (Grid.admitted g ids)
      let s := (ids.zip cores).foldl (fun s e => s.startTeam n g e.1 x e.2 (s.startWith g e.1)) s
      if begun then s else s.writeStatus g.part g.loc 1

/-- Heads that no longer stand: their grid or unit is gone, or its level has changed. -/
def freshHeads (s : State) (p : Nat) : Tab (Nat × Nat × List Nat) :=
  let q := s.queue p
  (s.part p).heads.filter fun e => (((s.grid e.2.1).map (·.prio)) == some e.1) && q.any fun u => u.grid == e.2.1 && u.first == e.2.2.1

/-- Cores reserved for heads. -/
def reservedCores (hs : Tab (Nat × Nat × List Nat)) : List Nat := hs.flatMap fun e => e.2.2.2

/-- A core that takes no team: its die is being swapped out (24 R397). -/
def swapping (s : State) (c : Nat) : Bool := match s.swap with
  | some w => c / 12 == w.die
  | none => false

/-- Go through the queue: the first unit that fits is admitted; one that fits nowhere becomes the head of its level if there is none. A head
for which nothing could be reserved yet asks again. -/
def admitFrom (s : State) (p : Nat) : List AUnit → Option State × State
  | [] => (none, s)
  | u :: r =>
    let hs := (s.part p).heads
    let lvl := ((s.grid u.grid).map (·.prio)).getD 0
    let head := match hs.get lvl with
      | some h => h.1 == u.grid && h.2.1 == u.first
      | none => false
    let mine := match hs.get lvl with
      | some h => if head then h.2.2 else []
      | none => []
    let ok (c : Nat) : Bool := !s.swapping c && if mine.isEmpty then !(reservedCores hs).contains c else mine.contains c
    match s.placeUnit p u ok with
    | some cs =>
      let s' := s.admitUnit u cs
      (some (if head && !s'.stillOut u then s'.mapPart p fun x => { x with heads := x.heads.del lvl } else s'), s)
    | none =>
      let s := if (hs.get lvl).isNone || (head && mine.isEmpty) then
          s.mapPart p fun x => { x with heads := x.heads.set lvl (u.grid, u.first, s.reserveFor p u (reservedCores hs)) } else s
      admitFrom s p r

/-! ### Pre-emption (23 R366) -/

/-- The team may be pre-empted for a head of level lvl. -/
def mayEvict (s : State) (lvl : Nat) (cores : List Nat) (e : Nat × Team) : Bool :=
  let l := ((s.grid e.2.grid).map (·.prio)).getD 0
  decide (l < lvl) && decide (l < 28) && !s.untaken e.1 && !e.2.killing && ((coresOf e.2).any fun c => cores.contains c) &&
    (coresOf e.2).all fun c => bitAt (s.cfgW 0 c 0x018).toNat 0

/-- The youngest grid first, within it the highest team linear id. -/
def younger (s : State) (a b : Nat × Team) : Bool :=
  let age (e : Nat × Team) : Nat := ((s.grid e.2.grid).map (·.age)).getD 0
  if age a != age b then decide (age b < age a) else decide (b.2.id < a.2.id)

def insertVictim (s : State) (e : Nat × Team) : List (Nat × Team) → List (Nat × Team)
  | [] => [e]
  | x :: r => if s.younger e x then e :: x :: r else x :: s.insertVictim e r

/-- The state as it would be without a team. -/
def without (s : State) (t : Nat) : State :=
  match s.team t with
  | none => s
  | some x =>
    let s := (coresOf x).foldl (fun s c => s.releaseAcc t c) s
    { s with teams := s.teams.del t, groups := s.groups.filter fun e => e.1 / 64 != t }

/-- The shortest row of victims after which the unit fits. -/
def victims (s : State) (p : Nat) (u : AUnit) (cores : List Nat) : List (Nat × Team) → Option (List Nat)
  | [] => none
  | e :: r =>
    let s' := s.without e.1
    if (s'.placeUnit p u fun c => !s.swapping c && cores.contains c).isSome then some [e.1] else (victims s' p u cores r).map (e.1 :: ·)

/-- Halt a team, and the set it belongs to, in order to save it, or to move it off a cluster. What runs now, or is to run after an earlier
save of the set, runs again afterwards. -/
def beginEvict (s : State) (p t : Nat) (off : Option Nat) : State :=
  match s.team t with
  | none => s
  | some x =>
    let mates := (s.setMates t).filter (· != t)
    let run := mates.filter fun m => ((s.team m).map fun y => !y.halted).getD false
    let due := (s.part p).evict.any fun v => v.others.contains t
    let s := mates.foldl (fun s m => s.pauseTeam m none) (s.pauseTeam t none)
    s.mapPart p fun y => { y with evict := (y.evict.map fun (v : Evict) => { v with others := v.others.filter (· != t) }) ++ [⟨t, run, !x.halted || due, off⟩] }

/-- The distributor pre-empts for the highest head that waits, where slots may be taken (23 R366, R367); that it does so now is a choice
left open (log 53). -/
def preempt (s : State) (p : Nat) : State :=
  if !(s.part p).evict.isEmpty then s
  else
    let q := s.queue p
    match (s.part p).heads.reverse.findSome? fun e =>
        match q.find? fun u => u.grid == e.2.1 && u.first == e.2.2.1 with
        | some u =>
          let cores := if e.2.2.2.isEmpty then s.coresIn p else e.2.2.2
          s.victims p u cores ((s.teams.filter (s.mayEvict e.1 cores)).foldr s.insertVictim [])
        | none => none with
    | none => s
    | some vs =>
      let (n, s) := s.draw
      let room := decide (96 + (s.slotsUsed p).length + vs.length ≤ fieldAt (s.cfgW 2 p 0x120).toNat 0 13)
      if Config.pick n % 2 = 0 && room then vs.foldl (fun s t => s.beginEvict p t none) s else s

/-- Teams of a set that halted for another's save resume, unless a fault of theirs waits. -/
def resumeOthers (s : State) (l : List Nat) : State := l.foldl (fun s m => if s.untaken m then s else s.resumeTeam m) s

/-- A pre-empted team waits to be admitted again, behind those of its grid that were saved before it (log 64). -/
def requeue (s : State) (x : Team) : State :=
  match s.grid x.grid with
  | some g => s.putGrid x.grid { g with waiting := g.waiting ++ [x.id] }
  | none => s

/-- A save or move is over: the teams that halted for it resume, with the last one of their set (05 R108, 23 R366). -/
def finishEvict (s : State) (p : Nat) (e : Evict) : State :=
  let s := s.mapPart p fun y => { y with evict := y.evict.filter fun z => z.tid != e.tid }
  let set := e.others.flatMap s.setMates
  match (s.part p).evict.find? fun v => set.contains v.tid with
  | some v => s.mapPart p fun y => { y with evict := y.evict.map fun (z : Evict) =>
      if z.tid = v.tid then { z with others := (z.others ++ e.others).filter (· != v.tid) } else z }
  | none => s.resumeOthers e.others

/-- The destination: cores of the die outside the cluster, the coolest cluster first, then the lowest core. -/
def moveTo (s : State) (d cl : Nat) (y : Saved) : Option Nat :=
  let taken := reservedCores (s.part (s.diePart d)).heads
  let both (c : Nat) : List Nat := if y.team.paired then [c, c + 1] else [c]
  argmin (fun c => (s.cluster (c / 4)).temp) (((List.range 12).map (12 * d + ·)).filter fun c =>
    c / 4 != cl && !(both c).any taken.contains && s.savedFits y c)

/-- The saved form that a resident team would have. -/
def asSaved (s : State) (t : Nat) (x : Team) : Saved := ⟨t, x.grid, x.id, none, s.partOf x.core, true, x.core / 12, x, s.groupsOf t, s.teamHolds t x⟩

/-- A team that is to move off a cluster moves, where a core of its die takes it (23 R382). -/
def moveNow (s : State) (p : Nat) (e : Evict) (x : Team) (cl : Nat) : State :=
  let go (s : State) : State := if e.resume then s.resumeTeam e.tid else s
  match s.moveTo (x.core / 12) cl (s.asSaved e.tid x) with
  | none => (go s).finishEvict p e
  | some c => (s.moveTeam e.tid fun s y m => go (s.loadTeam y m c)).finishEvict p e

/-- A team that is to be saved is saved, into the lowest free slot (23 R366, R367; 24 R397), or moved (23 R381), once its work is over. -/
def evictNow (s : State) (p : Nat) (e : Evict) : State :=
  match s.team e.tid with
  | none => s.finishEvict p e
  | some x =>
    if s.untaken e.tid || !s.quiet e.tid || x.killing then s
    else match e.off, s.freeSlot p with
    | some cl, _ => s.moveNow p e x cl
    | none, none => s
    | none, some i =>
      match s.slotPages .write p i (imgUnits x (s.groupsOf e.tid)) with
      | .wait s | .bad s _ => s
      | .ok tab =>
        let s := (s.saveTeam e.tid (s.slotLoc p i tab) (some i) e.resume).finishEvict p e
        let s := s.setCfgW 2 p 0x128 (BitVec.ofNat 32 (s.slotsUsed p).length)
        match s.swap with
        | some w => if w.die = x.core / 12 then { s with swap := some { w with saved := w.saved ++ [e.tid] } } else s.requeue x
        | none => s.requeue x

/-- A resume of a team that is being saved or moved, or whose set is halted for that, takes effect when that is over (22 R354, R361). -/
def askResume (s : State) (t : Nat) : State :=
  let halts (v : Evict) : Bool := v.tid == t || (s.setMates v.tid).contains t
  let mark (v : Evict) : Evict := if v.tid = t then { v with resume := true } else if (halts v) then { v with others := t :: v.others.erase t } else v
  if s.parts.any fun e => e.2.evict.any halts then
    { s with parts := s.parts.map fun (e : Nat × Part) => (e.1, { e.2 with evict := e.2.evict.map mark }) }
  else s.resumeTeam t

end State

/-- TEAM_ADMISSION (01 R29, R30; 23 R366). -/
def execTeamAdmission (p : Nat) (s : State) : Out :=
  let s := s.mapPart p fun x => { x with heads := s.freshHeads p }
  match s.admitFrom p (s.queue p) with
  | (some s, _) => .next (s.setCfgW 2 p 0x128 (BitVec.ofNat 32 (s.slotsUsed p).length))
  | (none, s) => .next (s.preempt p)

/-- PREEMPTION_SAVE (22 R354, R355; 23 R382): a team that the distributor, a swap or a hot spot has halted is saved or moved once its work is
over. -/
def execPreemptionSave (t : Nat) (s : State) : Out :=
  match s.parts.find? fun e => e.2.evict.any fun z => z.tid == t with
  | some (p, x) => match x.evict.find? fun z => z.tid == t with
    | some e => .next (s.evictNow p e)
    | none => .next s
  | none => .next s

namespace State

/-- Every team of the grid has retired, and no verdict of it is due. -/
def gridOver (g : Grid) : Bool := decide (g.nteams ≤ g.retired) && g.origins.isEmpty

/-- The last writes of a grid: its Filler entry, its status; then the grid is gone (01 R28, 09 R182). -/
def finishGrid (s : State) (n : Nat) (g : Grid) : State :=
  let s := (s.writeStatus g.part g.loc 2).dropGrid n g
  match g.drain with
  | some a => if g.killed then s.markEntry g.part a .failed 0 else s.commitEntry g.part a
  | none => s

end State

/-- GRID_RETIREMENT (01 R28): done_addr rises by 1, then the status is written. A done_addr that does not translate is not written
(log 25). -/
def execGridRetirement (n : Nat) (s : State) : Out :=
  match s.grid n with
  | none => .next s
  | some g =>
    if !State.gridOver g then .next s
    else
      let a := Rec.doneAddr g.record
      if a = 0 || 2 ^ 57 ≤ a then .next (s.finishGrid n g)
      else match s.translate .hub none g.part g.asid .write a with
      | .wait s => .next s
      | .bad s => .next (s.finishGrid n g)
      | .ok pa => .next (((s.noteHubRead (.dev pa) 4).setNum (.dev pa) 4 (((s.wordAt (.dev pa)) + 1).toNat)).finishGrid n g)

end Sys2Proof.Machine
end

