-- ==== Sys2Proof/Machine/ConfigWords.lean ====
section
/-! DEFINITION. The configuration words (22 R346, R364; 23 R377-R379; 24 R384, R385, R393, R395, R397, R398; 25 R404, R408, R409,
R411, R413): which exist, what they read as, what writing them does. -/

namespace Sys2Proof.Machine

open Sys2Proof

/-! ### Which words exist -/

/-- Bits of a word that are not reserved; none where the space defines no word. Spaces 4 and 5 are those of a record (25 R412). -/
def wordMask (space off : Nat) : Option Nat :=
  let all : Nat := 0xFFFFFFFF
  if off % 4 ≠ 0 then none
  else match space with
  | 0 => match off with
    | 0x000 => some 0xFFFFFFFC
    | 0x004 | 0x008 | 0x00C | 0x020 | 0x024 | 0x028 | 0x02C | 0x030 => some all
    | 0x010 => some 0xF
    | 0x014 => some 0x7F
    | 0x018 => some 1
    | _ => if 0x1000 ≤ off && off < 0x2000 then some all else none
  | 1 =>
    if off = 0x200 then some 0xFFFF
    else if off = 0x204 then some 0xFFFFFF
    else if 0x210 ≤ off && off < 0x230 then some all
    else if 0x240 ≤ off && off < 0x2A4 then some 0x00FF0FFF
    else if 0x2C0 ≤ off && off < 0x2CC then some 0xFFF
    else if off = 0x2CC then some 0x1F
    else if off = 0x2D0 then some 0xFFF
    else if off = 0x700 then some 0x03FF00FF
    else if off = 0x704 || off = 0x7F0 || (0x800 ≤ off && off < 0xC00) then some all
    else none
  | 2 => match off with
    | 0x000 => some 0xFF
    | 0x00C => some 0x1FFF
    | 0x028 => some 0xFFF
    | 0x02C => some 0x07FF07FF
    | 0x030 => some 3
    | 0x03C => some 0xFFFF
    | 0x040 => some 0x37F
    | 0x04C => some 1
    | 0x100 => some 0x1F
    | 0x104 => some 0xFFF
    | 0x114 => some 0xFFFFFFC0
    | 0x11C => some 0xF
    | 0x120 | 0x128 | 0x200 => some 0x1FFF
    | 0x124 => some 0xFFFFF
    | 0x130 => some 3
    | _ => if off < 0x050 || (0x108 ≤ off && off < 0x134) || (0x1000 ≤ off && off < 0x11000) then some all else none
  | 3 => match off with
    | 0x300 | 0x304 | 0x310 | 0x314 | 0x318 | 0x400 | 0x420 | 0x424 | 0x428 | 0x504 | 0x50C | 0x520 | 0x200020 => some all
    | 0x308 => some 3
    | 0x410 => some 0xFF
    | 0x500 => some 0x1FFFF
    | 0x508 | 0x510 => some 0xFFFF
    | 0x514 => some 3
    | 0x518 => some 0
    | 0x51C => some 0xFFFFFFF0
    | 0x524 => some 0xF
    | _ => if (0x10000 ≤ off && off < 0x120000) || (0x200000 ≤ off && off < 0x200020) || (0x201000 ≤ off && off < 0x20229C) then some all
      else none
  | 4 => if off < 32768 then some all else none
  | 5 => if off < 65536 then some all else none
  | _ => none

/-- Instances of a space (22 R364, 25 R412). -/
def spaceSize : Nat → Nat
  | 0 => 96
  | 3 => 1
  | _ => 8

/-- A word that software may write. -/
def writable (space off : Nat) : Bool :=
  match space with
  | 0 => decide (off ≤ 0x010) || off == 0x018 || (decide (0x020 ≤ off) && decide (off ≤ 0x030))
  | 1 => decide (off < 0x2C0) || off == 0x2D0 || off == 0x700
  | 2 => [0x028, 0x02C, 0x034, 0x038, 0x04C, 0x110, 0x114, 0x118, 0x11C, 0x12C, 0x130].contains off
  | 3 => [0x300, 0x304, 0x410, 0x518, 0x51C, 0x200020].contains off || (decide (0x10000 ≤ off) && decide (off < 0x200020))
  | _ => false

/-- The 512 bits of a fault record (22 R348). -/
def FaultRec.bits (r : FaultRec) : Nat :=
  let b (x k : Nat) : Nat := x * 2 ^ k
  r.clk.toNat + b r.seq.toNat 64 + b r.entry.toNat 112 + b (b2n r.taken) 116 + b (b2n r.lane) 117 + b (b2n r.impr) 118 + b (b2n r.exited) 119 +
    b r.grp.toNat 120 + b r.team.toNat 128 + b r.glid.toNat 160 + b r.code.code.toNat 192 + b (r.op % 65536) 208 + b r.lword.toNat 224 +
    b r.pc.toNat 256 + b r.aux.toNat 320 + b r.lanes.toNat 352 + b r.faddr.toNat 448

namespace State

/-! ### Reading -/

/-- Words that read as what the machine holds elsewhere. -/
def cfgSpecial (s : State) (space inst off : Nat) : Option Word :=
  match space with
  | 0 =>
    if off = 0x014 then some (BitVec.ofNat 32 (fqcnt (s.core inst)))
    else if 0x1000 ≤ off && off < 0x2000 then
      some (((s.core inst).fq.get ((off - 0x1000) / 64)).elim 0 fun r => BitVec.ofNat 32 (r.bits / 2 ^ (8 * ((off - 0x1000) % 64))))
    else none
  | 1 => if off = 0x704 then some (BitVec.ofNat 32 (s.mappedOut.filter fun m => m.1.die == inst).length) else none
  | 2 => if off = 0x04C || off = 0x130 then some 0 else if off = 0x128 then some (BitVec.ofNat 32 (s.slotsUsed inst).length) else none
  | 3 => if off = 0x300 || off = 0x304 then some 0 else none
  | _ => none

/-- The word, for software; none where it does not exist (22 R364). -/
def cfgGet (s : State) (space inst off : Nat) : Option Word :=
  if spaceSize space ≤ inst || 3 < space then none
  else (wordMask space off).map fun _ => (s.cfgSpecial space inst off).getD (s.cfgW space inst off)

/-! ### The spare swap (24 R397) -/

/-- The swap state changes: vector 3 (25 R402). -/
def setSwapState (s : State) (st : Nat) : State := (s.setCfgW 3 0 0x410 (BitVec.ofNat 32 (32 * st))).msix 3

/-- The cores of a die take no more teams, and every team on it halts to be saved; one that was to move off a cluster is saved instead. -/
def startSwap (s : State) (d : Nat) : State :=
  let s := { s with swap := some ⟨d, [], []⟩ }.setSwapState 1
  let p := s.diePart d
  let mine := s.teams.filter fun e => e.2.core / 12 == d
  let s := s.mapPart p fun y => { y with evict := y.evict.map fun (v : Evict) => if mine.any (·.1 == v.tid) then { v with off := none } else v }
  (mine.filter fun e => !(s.part p).evict.any fun z => z.tid == e.1).foldl (fun s e => s.beginEvict p e.1 none) s

/-- A request for a swap, by the device word or by the conservator. -/
def requestSwap (s : State) (d : Nat) : State :=
  let st := fieldAt (s.cfgW 3 0 0x410).toNat 5 3
  if 1 ≤ st && st ≤ 3 then s
  else if 8 ≤ d || !s.dieValid d then s
  else if !s.spare then (if st = 5 then s else s.setSwapState 5)
  else s.startSwap d

/-! ### Writing -/

/-- The thresholds of a die, with one replaced, do not decrease (23 R375). -/
def thresholdsOk (s : State) (d off : Nat) (v : Word) : Bool :=
  let t (k : Nat) : Nat := fieldAt (if 0x240 + 4 * k = off then v else s.cfgW 1 d (0x240 + 4 * k)).toNat 0 12
  (List.range 24).all fun k => decide (t k ≤ t (k + 1))

/-- A band weight as it is stored: +0.0 for a negative value or a NaN (23 R377). -/
def weightStored (v : Word) : Word := if (f32 v).isNan || (v.getLsbD 31 && v != 0x80000000) then 0 else v

/-- A die word (23 R377, 24 R393): what the write leaves there, none where it changes nothing. -/
def dieWrite (s : State) (d off : Nat) (v : Word) : Option Word :=
  if off = 0x204 then (if v = 0 then none else some v)
  else if 0x210 ≤ off && off < 0x230 then some (weightStored v)
  else if 0x240 ≤ off && off < 0x2A4 then (if s.thresholdsOk d off v then some v else none)
  else if off = 0x700 then
    (if fieldAt v.toNat 16 10 = 0 || 1000 < fieldAt v.toNat 16 10 || fieldAt v.toNat 0 8 = 0 then none else some v)
  else some v

/-- A partition word (23 R378, 24 R385). -/
def partWrite (s : State) (p off : Nat) (v : Word) : State :=
  let n := v.toNat
  if off = 0x028 then (if fieldAt (s.cfgW 2 p 0x00C).toNat 0 13 ≤ n then s else s.setCfgW 2 p off v)
  else if off = 0x02C then
    (if fieldAt n 16 11 = 0 || 1024 < fieldAt n 0 11 + fieldAt n 16 11 then s else s.setCfgW 2 p off v)
  else if off = 0x04C then (if v = 1 then s.resetAcc p else s)
  else if off = 0x11C then (if 12 < n then s else s.setCfgW 2 p off v)
  else s.setCfgW 2 p off v

/-- Partitions that hold a die. -/
def partsBuilt (s : State) : List Nat := ((List.range 8).filter s.dieValid).map s.diePart |>.dedup

/-- A record address written to the host launch port (23 R379, R380). To which partition it goes the spec does not say (log 20): one whose
launch agent is host-assisted, where there is one. -/
def portWrite (s : State) (addr : Nat) : State :=
  let l := s.partsBuilt
  let h := l.filter fun p => bitAt (s.cfgW 2 p 0x100).toNat 0
  let (p, s) := s.drawFrom (if h.isEmpty then l else h)
  s.mapPart p fun x => { x with posts := x.posts ++ [State.hostPost addr false] }

/-- A device word (23 R379, 24 R397, 25 R404, R411, R413). -/
def devWrite (s : State) (off : Nat) (v : Word) : State :=
  if off = 0x304 then s.portWrite ((s.cfgW 3 0 0x300).toNat + 2 ^ 32 * v.toNat)
  else if off = 0x410 then (if v.getLsbD 4 then s.requestSwap (fieldAt v.toNat 0 4) else s)
  else if off = 0x200020 then (if v = 1 then s.setCfgW 3 0 off 1 else s)
  else s.setCfgW 3 0 off v

/-- A core or die that is mapped out: no core of it is present (24 R398). -/
def unitOut (s : State) (space inst : Nat) : Bool :=
  match space with
  | 0 => !s.corePresent inst
  | 1 => (List.range 12).all fun k => !s.corePresent (12 * inst + k)
  | _ => false

/-- Write a word that exists (22 R364). -/
def cfgPut (s : State) (space inst off : Nat) (v : Word) : State :=
  if !writable space off || s.unitOut space inst then s
  else
    let m : Word := BitVec.ofNat 32 ((wordMask space off).getD 0)
    -- fact takes 1 and 2 alone, whole (23 R378)
    if space = 2 && off = 0x130 then (if v = 1 then s.relaunchFailed inst else if v = 2 then s.discardFailed inst else s)
    else if space = 2 && off = 0x11C && 12 < (v &&& m).toNat then s
    else match space with
    | 0 => s.setCfgW 0 inst off (v &&& m)
    | 1 => match s.dieWrite inst off (v &&& m) with
      | some w => s.setCfgW 1 inst off w
      | none => s
    | 2 => s.partWrite inst off (v &&& m)
    | _ => s.devWrite off (v &&& m)

end State

/-- SPARE_SWAP_REQUEST (24 R397): a write of device word 0x410. -/
def execSpareSwapRequest (v : Word) (s : State) : Out := .next (if s.broken then s else s.devWrite 0x410 v)

namespace State

/-- A codeword of the annex or of a Curator's memory that cannot be corrected is copied as zero and recorded (24 R394, R397). -/
def copyBad (s : State) (d : Nat) (r : BadRow) : State :=
  let core := match r.row with
    | .curator c _ => c
    | _ => 127
  ((List.range 16).foldl (fun s i => s.setByte (r.row.plus (symByte r.b i)) 0) s).machineCheck
    { source := 1, die := d, core := core, faddr := mcAddr r.row, sgrp := s.stripeNo (some (.mem r.row)) }

/-- Everything on the spare's side of a swap (24 R397): the logical number keeps its annex, words and Curators' memories; faults of the old
die's storage do not come along, but what they have lost is lost. -/
def swapDie (s : State) (d : Nat) : State :=
  let here : Loc → Bool
    | .annex e _ => e == d
    | .curator c _ => c / 12 == d
    | _ => false
  let s := (s.badRows.filter fun r => here r.row).foldl (fun s r => s.copyBad d r) s
  { s with
    spare := false
    swap := none
    mappedOut := s.mappedOut.filter fun m => m.1.die != d
    symErrs := s.symErrs.filter fun e => match e.row with
      | .mem l => !here l
      | .acc c _ _ => c / 12 != d
      | _ => true
    badRows := s.badRows.filter fun r => !here r.row
    cores := s.cores.map fun (e : Nat × Core) => if e.1 / 12 = d then (e.1, { e.2 with badA := [] }) else e
    cellErrs := s.cellErrs.filter fun e => e.core / 12 != d }

/-- Load the swapped teams, each onto its former core, in the order of saving; none where an image waits for its translation. -/
def swapLoad (s : State) : List Nat → Option State × State
  | [] => (some s, s)
  | t :: r =>
    match s.saved.find? fun y => y.tid == t with
    | none => s.swapLoad r
    | some y =>
      match s.slotPages .read y.part (y.slot.getD 0) (imgUnits y.team y.groups) with
      | .wait s | .bad s _ => (none, s)
      | .ok tab => (s.restoreFrom y tab y.team.core).swapLoad r

end State

/-- SPARE_SWAP_COMPLETE (24 R397): with every team of the die saved, the spare takes its number, the teams are loaded and resumed, source 0x08
is recorded. -/
def execSpareSwapComplete (s : State) : Out :=
  match s.swap with
  | none => .next s
  | some w =>
    if s.teams.any fun e => e.2.core / 12 == w.die then .next s
    else
      match ((s.swapDie w.die).setSwapState 2 |>.setSwapState 3).swapLoad w.saved with
      | (none, s') => .next { s with parts := s'.parts }
      | (some s, _) => .next ((s.setSwapState 4).machineCheck { source := 8, die := w.die })

end Sys2Proof.Machine
end

