-- ==== Sys2Proof/Machine/Curator.lean ====
section
/-! DEFINITION. The Curator's own words (22 R358-R364), its trap (22 R347), kill (22 R414), lane-fault service (22 R350, R351). -/

namespace Sys2Proof.Machine

open Sys2Proof

/-! ### Taking a trap and returning (22 R347, R359) -/

namespace State

/-- Causes of a trap on a core: an untaken record; a machine check. -/
def trapCauses (s : State) (c : Nat) : Bool × Bool := (fqcnt (s.core c) != 0, s.cfgW 0 c 0x030 != 0)

/-- The Curator takes a trap at this boundary: te = 1, intrap = 0 and a cause. While a word of its own that has issued waits to complete it is at
no boundary. -/
def trapDue (s : State) (c : Nat) : Bool :=
  let st := s.cfgW 0 c 0x010
  !(s.core c).stopped && !(s.core c).waiting && st.getLsbD 0 && !st.getLsbD 1 && ((s.trapCauses c).1 || (s.trapCauses c).2)

/-- TAKING A TRAP: cepc, the causes, intrap, and the SPC at ctvec. -/
def takeTrap (s : State) (c : Nat) : State :=
  let pc := (s.core c).spc
  let st := s.cfgW 0 c 0x010
  let (q, m) := s.trapCauses c
  let s := s.setCfgW 0 c 0x010 ((st &&& 1) ||| 2 ||| (if q then 4 else 0) ||| (if m then 8 else 0))
  let s := (s.setCfgW 0 c 0x008 (pc.extractLsb' 0 32)).setCfgW 0 c 0x00C (pc.extractLsb' 32 32)
  s.mapCore c fun x => { x with spc := BitVec.ofNat 64 (s.cfgD 0 c 0x000) }

/-- RETURN FROM A TRAP. -/
def leaveTrap (s : State) (c : Nat) : State :=
  let s := s.setCfgW 0 c 0x010 (s.cfgW 0 c 0x010 &&& ~~~2)
  s.mapCore c fun x => { x with spc := BitVec.ofNat 64 (s.cfgD 0 c 0x008) }

/-- A Curator's word has issued: its result, and on. -/
def curatorDone (s : State) (d : SReg) (v : Word) : State := (s.setS d v).advance 4

/-- A fault of the Curator's own (22 R345). -/
def curatorFault (s : State) (c : Nat) : Out := .next (s.raiseCurator c 0)

end State

/-- CURATOR_TRAP (22 R347). -/
def execCuratorTrap (c : Nat) (s : State) : Out := .next (if s.trapDue c then s.takeTrap c else s)

def execEret (s : State) : Out :=
  s.byCurator fun c => if (s.cfgW 0 c 0x010).getLsbD 1 then .next (s.leaveTrap c) else s.curatorFault c

/-- FAULT_RECORD_ENQUEUE (22 R348): the oldest record that waits for a slot enters. -/
def execFaultRecordEnqueue (c : Nat) (s : State) : Out := .next (s.fillQueue c)

/-! ### cfg and tinv (22 R363, R364) -/

namespace State

/-- The word that an address of `cfg` names: space, instance, offset; none where the instance is out of range. -/
def cfgAddr (s : State) (c : Nat) (a : Word) : Option (Nat × Nat × Nat) :=
  let n := a.toNat
  let sp := fieldAt n 28 3
  if sp = 3 then some (3, 0, fieldAt n 0 28)
  else if 3 < sp then none
  else
    let i := fieldAt n 20 8
    let own := match sp with
      | 0 => c
      | 1 => c / 12
      | _ => s.partOf c
    if i = 0 then some (sp, own, fieldAt n 0 20) else if i ≤ spaceSize sp then some (sp, i - 1, fieldAt n 0 20) else none

/-- `cfg` (22 R364): the old value to sd; then, where sa says so, the write. -/
def cfgWord (s : State) (write : Bool) (d a b : SReg) : Out :=
  s.byCurator fun c =>
    match s.cfgAddr c (s.sreg a) with
    | none => s.curatorFault c
    | some (sp, i, off) =>
      match s.cfgGet sp i off with
      | none => s.curatorFault c
      | some v =>
        let x := s.sreg b
        let s := s.curatorDone d v
        .next (if write then s.cfgPut sp i off x else s)

end State

def execCfgRead (d a b : SReg) (s : State) : Out := s.cfgWord false d a b
def execCfgWrite (d a b : SReg) (s : State) : Out := s.cfgWord true d a b

/-- `tinv` (22 R363, 24 R391): this core's cache, and the hubs'. No access is in flight between two moves. -/
def execTinv (a b : SReg) (s : State) : Out :=
  s.byCurator fun c =>
    let m := (s.sreg b).toNat
    if a.toNat % 2 = 1 || m % 4 = 3 || m / 2 ^ 16 ≠ 0 then s.curatorFault c
    else
      let drop := State.tlbDrop (m % 4) (fieldAt m 4 12) (s.spair a).toNat
      .next (({ s.mapCore c fun x => { x with tlb := drop x.tlb } with hubTlb := drop s.hubTlb, hubTlb1 := drop s.hubTlb1 }).advance 4)

/-! ### cwin (22 R360) -/

namespace State

/-- The group in a slot of a core. -/
def inSlot (s : State) (c n : Nat) : Option (Nat × Group) :=
  (s.groups.find? fun e => e.2.core == c && e.2.slot == n && !e.2.ended).map fun e => (e.1 / 64, e.2)

/-- Words of a block that `cwin` may not write. -/
def cwinReadOnly (team : Bool) (off : Nat) : Bool :=
  if team then decide (off < 0x80) || (decide (0x11000 ≤ off) && decide (off < 0xE1000))
  else off == 20 || off == 28 || off == 32 || off == 36 || (decide (0xD80 ≤ off) && decide (off < 0x4000))

/-- The window that an address names: team, group, is the team block, offset; none for what raises the fault. -/
def cwinAt (s : State) (c : Nat) (a : Word) : Option (Nat × Group × Bool × Nat) :=
  let n := a.toNat
  let blk := fieldAt n 24 2
  let off := fieldAt n 0 20
  match s.inSlot c (fieldAt n 26 5) with
  | none => none
  | some (t, g) =>
    if !((s.team t).map (·.halted)).getD false || 1 < blk || fieldAt n 20 4 ≠ 0 || off % 4 ≠ 0 ||
        (if blk = 1 then imgTm else g.blockSize) ≤ off then none
    else some (t, g, blk == 1, off)

/-- The block of the live state. -/
def liveBlock (s : State) (t : Nat) (g : Group) (team : Bool) : Memory :=
  if team then (s.team t).elim [] fun x => s.teamImage t x (s.groupsOf t) true else g.shown

/-- Groups that a changed slot or symbol satisfies are ready. -/
def afterTeamWrite (s : State) (t off : Nat) : State :=
  if 0x80 ≤ off && off < 0xC0 then s.slotFlipped t ((off - 0x80) / 4)
  else if 0x100 ≤ off && off < 0x500 then
    let n := (off - 0x100) / 32
    if (s.symX t n).isSome then
      (s.groupsOf t).foldl (fun s g => if g.wait == some (.sym n) then s.putGroup t g.idx { g with wait := none } else s) s
    else s
  else if 0x500 ≤ off && off < 0x900 then s.fenceCheck (s.partOf (((s.team t).map (·.core)).getD 0))
  else s

/-- Write a word of the live state (log 47). -/
def cwinPut (s : State) (t : Nat) (g : Group) (team : Bool) (off : Nat) (v : Word) : State :=
  let xl := s.watchPa (s.partOf g.core) (((s.gridOf t).map (·.asid)).getD 0)
  if team then (s.team t).elim s fun x =>
    let m := (s.liveBlock t g true).setNum off 4 v.toNat
    ((s.putTeam t (teamOfImage x m xl)).takeWaitRecs t x m true).afterTeamWrite t off
  else (s.putGroup t g.idx (wakeYield (g.putWord off v.toNat xl))).barrierCheck (((s.team t).map (·.grid)).getD 0)

end State

namespace State

/-- The row of a stripe group that a word of a block lies in: of a vector register, a held accumulator or the profile store (24 R392). -/
def cwinRow (s : State) (t : Nat) (g : Group) (team : Bool) (off : Nat) : Option Row :=
  if !team then
    let o := off - 0xA400
    if 0xA400 ≤ off then some (.vreg t g.idx (o / 384) (o % 384 / 32)) else none
  else (s.team t).bind fun x =>
    let a := off - 0x11000
    let p := off - 0xD1000
    if off < 0x11000 then none
    else if off < 0xD1000 then
      if ((s.teamHolds t x).getD (a / 196608) none).isSome then some (.acc (x.core + a / 393216) (a / 196608 % 2) (a % 196608 / 32)) else none
    else if p % 8192 < 16 then none
    else some (.prof t (p / 8192) ((p % 8192 - 16) / 32))

/-- The row cannot be corrected: the Curator's read of it is recorded and raises the machine check (24 R394; 22 R345). -/
def noteCwin (s' s : State) (c t : Nat) (g : Group) (team : Bool) (off : Nat) : State :=
  if s.symErrs.isEmpty then s'
  else match s.cwinRow t g team off with
    | some r => if s.rowBad r false || s.rowBad r true then s'.readBad 1 (15 * 2 ^ 60) c (some r) none else s'
    | none => s'

end State

def execCwinRead (d a b : SReg) (s : State) : Out :=
  s.byCurator fun c =>
    match s.cwinAt c (s.sreg a) with
    | none => s.curatorFault c
    | some (t, g, tm, off) =>
      if (s.sreg a).getLsbD 31 && State.cwinReadOnly tm off then s.curatorFault c
      else
        let x := s.sreg b
        let s' := s.curatorDone d (BitVec.ofNat 32 ((s.liveBlock t g tm).num off 4))
        .next ((if (s.sreg a).getLsbD 31 then s'.cwinPut t g tm off x else s').noteCwin s c t g tm off)

def execCwinWrite (d a b : SReg) (s : State) : Out :=
  s.byCurator fun c =>
    match s.cwinAt c (s.sreg a) with
    | none => s.curatorFault c
    | some (t, g, tm, off) =>
      if State.cwinReadOnly tm off then s.curatorFault c
      else
        let x := s.sreg b
        .next (((s.curatorDone d (BitVec.ofNat 32 ((s.liveBlock t g tm).num off 4))).cwinPut t g tm off x).noteCwin s c t g tm off)

/-! ### gctl (22 R361) -/

namespace State

/-- The team at an entry of a core. -/
def atEntry (s : State) (c e : Nat) : Option (Nat × Team) := s.teams.find? fun x => (coresOf x.2).contains c && entryOn x.2 c == e

/-- An op on a team: an empty entry is a fault. -/
def gctlTeam (s : State) (a : SReg) (k : Nat → Nat → Team → Out) : Out :=
  s.byCurator fun c => match s.atEntry c (fieldAt (s.sreg a).toNat 0 3) with
    | some (t, x) => k c t x
    | none => s.curatorFault c

/-- An op on the operation of a record: an empty slot, or a record of no operation, is a fault. -/
def gctlOp (s : State) (a : SReg) (k : FaultRec → Out) : Out :=
  s.byCurator fun c => match (s.core c).fq.get (fieldAt (s.sreg a).toNat 0 6) with
    | some r => if r.op = 0 then s.curatorFault c else k r
    | none => s.curatorFault c

/-- Where a replayed operation starts again. -/
def replayStage (o : Op) (code : FaultCode) : Stage :=
  match o.kind with
  | .copy c sls => if code = .teamDeadlock && decide (sls.length < c.np) then .waiting else .ready
  | .cpcb _ _ _ => .ready
  | .coll c => if handshook c then .moving else .waiting
  | _ => .moving

/-- Replay (22 R352): the operation runs again, the time of a collective from now on (log 79). -/
def replayOp (s : State) (r : FaultRec) : State :=
  match s.ops.get r.op with
  | some o =>
    let kind : OpKind := match o.kind with
      | .coll c => .coll { c with spent := false }
      | k => k
    if o.stage = Stage.failed then s.putOp r.op { o with stage := replayStage o r.code, since := s.clk.toNat, kind := kind } else s
  | none => s

/-- Groups whose counters an operation holds. -/
def holdersOf (o : Op) : List Nat :=
  match o.kind with
  | .copy _ sls => suppliers o sls
  | _ => [o.idx]

/-- Bytes of an operation may have moved: it has started, or what it failed on was met on the way. The faults of its start leave every byte
(05 R105, 16 R307). -/
def mayHaveMoved (s : State) (h : Nat) (o : Op) : Bool :=
  o.stage == .moving || (o.stage == .failed && s.cores.any fun e => (e.2.fq.map (·.2) ++ e.2.fqWait).any fun r =>
    r.op == h && (r.code == .translation || r.code == .peerUnreachable))

/-- The bytes of an operation that is cut short (05 R105, 22 R414); with a close, the time of the queues that it closed starts again (06 R125). -/
def cutOp (s : State) (h : Nat) (o : Op) : State :=
  match o.kind with
  | .copy c sls => if s.mayHaveMoved h o then s.cutCopy o c sls else s
  | .close v n _ => s.restartFull o v n
  | _ => s

/-- Cancel (05 R105; log 39): the operation ends with no completion action, its counters and its assembly are released. -/
def cancelOp (s : State) (h : Nat) : State :=
  match s.ops.get h with
  | some o => (((s.withdrawColl o).cutOp h o).mapTeam o.tid fun x => { x with asms := x.asms.filter fun a => a.op != h }).opEnds h o.tid (holdersOf o)
  | none => s

/-- The oldest untaken record of a core, by record number. -/
def oldestRec (s : State) (c : Nat) : Option (Nat × FaultRec) :=
  let k := s.core c
  let age (r : FaultRec) : Nat := (k.seq - r.seq).toNat
  (k.fq.filter fun r => !r.2.taken).foldl (fun (m : Option (Nat × FaultRec)) r => match m with
    | none => some r
    | some b => if age b.2 < age r.2 then some r else m) none

/-- A record is taken: the hold of R352 is released, a waiting record may enter. -/
def takeRec (s : State) (c q : Nat) (r : FaultRec) : State :=
  ((s.mapCore c fun k => { k with fq := k.fq.set q { r with taken := true, service := false } }).fillQueue c).settleTaken r.tid

/-! #### Kill (22 R414) -/

/-- A collective is past its handshake: every member's descriptor has arrived, or was taken (08 R156). -/
def pastHandshake (s : State) (o : Op) (c : Coll) : Bool := o.stage == .moving || handshook c || (o.stage == .waiting && s.allThere o c)

/-- The operation of a killed team ends now: copies, atomics, codebook loads, closes, filings, collectives before their handshake. -/
def killEnds (s : State) (o : Op) : Bool :=
  match o.kind with
  | .copy _ _ | .cpcb _ _ _ | .close _ _ _ | .filing => true
  | .coll c => !s.pastHandshake o c
  | _ => o.stage == .failed

/-- What a killed team's operation becomes: that of an ended group; a collective past its handshake that failed runs again, since its peers
depend on it. -/
def killedOp (o : Op) : Op :=
  { o with exited := true, stage := match o.kind with
    | .coll _ => if o.stage = .failed then .moving else o.stage
    | _ => o.stage }

/-- End every group of a team at once. Vector registers that a matrix operation received by the arrays has yet to read stay until then. -/
def endGroups (s : State) (t : Nat) : State :=
  let read := s.ops.any fun e => e.2.tid == t && (match e.2.kind with
    | .mxa _ => true
    | _ => false)
  (s.groupsOf t).foldl (fun s g =>
    if g.ended then s
    else
      let s := s.noteVerdicts t g
      let g := if read then g.closeWindows else { g with v := [], tags := [], scar := [] }
      let g : Group := { g with ended := true, s := [], k := [], sh := [], rstack := [], rdepth := 0, frame := none }
      s.putGroup t g.idx { g with pend := [], infl := [], run := Run.none, spill := [], wait := none, ending := false, tailFull := false, stall := none }) s

/-- KILL: the team halts, its groups end, its records are taken; it retires when nothing of it is in flight. -/
def killTeam (s : State) (t : Nat) : State :=
  match s.team t with
  | none => s
  | some x =>
    let p := s.partOf x.core
    let s := s.haltTeam t none
    let gone := s.ops.filter fun e => e.2.tid == t && s.killEnds e.2
    let hs := gone.map (·.1)
    let s := gone.foldl (fun s e => (s.withdrawColl e.2).cutOp e.1 e.2) s
    let s := (s.endGroups t).mapTeam t fun y => { y with halted := true, killing := true, asms := [] }
    let s : State := { s with ops := (s.ops.filter fun e => !hs.contains e.1).map fun (e : Nat × Op) =>
      if e.2.tid == t then (e.1, killedOp e.2) else e }
    let s := s.mapPart p fun y => { y with parked := y.parked.filter fun f => !hs.contains f.op }
    let s : State := { s with cores := s.cores.map fun (e : Nat × Core) => (e.1, { e.2 with
      fq := e.2.fq.map fun r => if r.2.tid == t then (r.1, { r.2 with taken := true, service := false }) else r,
      fqWait := e.2.fqWait.filter fun r => r.tid != t, accWait := e.2.accWait.filter fun w => w.1 / 64 != t }) }
    let s := (coresOf x).foldl (fun s c => s.fillQueue c) s
    let s := ((s.part p).evict.filter fun z => z.tid == t).foldl (fun s z => s.finishEvict p z) s
    let s := match s.grid x.grid with
      | some g => if g.drain.isSome then s.putGrid x.grid { g with killed := true } else s
      | none => s
    (s.settleTeam t).relevel p

/-! #### Compaction (22 R350) -/

/-- Order of the packed lanes: team linear id, group index, lane, then record number. -/
def laneBefore (a b : (Nat × Nat × Nat × Nat) × Origin) : Bool :=
  let (x, y) := (a.1, b.1)
  if x.1 != y.1 then decide (x.1 < y.1)
  else if x.2.1 != y.2.1 then decide (x.2.1 < y.2.1)
  else if x.2.2.1 != y.2.2.1 then decide (x.2.2.1 < y.2.2.1)
  else decide (x.2.2.2 ≤ y.2.2.2)

def insertLane (a : (Nat × Nat × Nat × Nat) × Origin) : List ((Nat × Nat × Nat × Nat) × Origin) → List ((Nat × Nat × Nat × Nat) × Origin)
  | [] => [a]
  | b :: r => if laneBefore a b then a :: b :: r else b :: insertLane a r

/-- The lanes of named records, packed. -/
def packLanes (rs : List (Nat × FaultRec)) : List Origin :=
  ((rs.flatMap fun e => (lanesOf e.2.lanes).map fun l =>
    ((e.2.team.toNat, e.2.grp.toNat, l, e.2.seq.toNat), (⟨e.1, e.2, l⟩ : Origin))).foldr insertLane []).map (·.2)

/-- The service record with its role and nteams fields replaced; its blocks are those of the record's compute role, else of its
first (log 28). -/
def serviceRecord (r : BitVec 1024) (n : Nat) : BitVec 1024 :=
  let rs := Rec.roles r
  let b := match rs.find? fun x => x.kind == 2 with
    | some x => x.blocks
    | none => (rs.head?.map (·.blocks)).getD 0
  let role := 2 + 4 * 1 + 256 * min 96 n + 32768 * b
  let x := r.toNat
  let put (x lo len v : Nat) : Nat := x - fieldAt x lo len * 2 ^ lo + v * 2 ^ lo
  BitVec.ofNat 1024 (put (put (put (put x 256 32 role) 288 64 0) 192 32 ((n + 95) / 96)) 224 5 31)

/-- What becomes of a compaction: a wait, or the number of handler groups. -/
inductive Packed where
  | wait (s : State)
  | ok (n : Nat) (s : State)

/-- Launch the service grid over packed lanes; a record that cannot be read, or fails a check, launches none. The record lies, and the
grid runs, in the space and window of host launches (log 28). -/
def launchService (s : State) (c : Nat) (os : List Origin) : Packed :=
  let p := s.partOf c
  let h := s.hostNow p (State.hostPost (s.cfgD 0 c 0x020) false)
  match h.loc with
  | .dev asid va =>
    match s.pages (.image c) (some c) p asid (State.recPages .read va) [] with
    | .wait s => .wait s
    | .bad s _ => .ok 0 s
    | .ok tab =>
      let s := s.noteHubRead (Side.dev.loc tab va) 128
      let r := serviceRecord (s.recordAt (Side.dev.loc tab) va) os.length
      match s.checkRecord (.image c) (some c) p asid r false with
      | .wait s => .wait s
      | .code k s =>
        if k ≠ 0 && k ≠ 7 then .ok 0 s
        else
          let dep := Rec.depAddr r
          let pa := if dep = 0 then none else s.watchPa p asid dep
          let met := dep = 0 || (pa.map fun a => decide (Rec.depValue r ≤ (s.wordAt (.dev a)).toNat)).getD false
          let g := newGrid p r .nowhere asid h.awBase h.awSize 31
          let s := pa.elim s fun a => s.noteHubRead (.dev a) 4
          .ok (Rec.nteams r) (s.addGrid
            { g with handler := some c, origins := os, depPa := pa, depMet := met, depPoll := (pa.map s.mustPoll).getD false })
  | _ => .ok 0 s

/-- The records whose slots the mask of core words 0x028 and 0x02C names. -/
def maskedSlots (s : State) (c : Nat) : List Nat := (List.range 64).filter fun q => bitAt (s.cfgD 0 c 0x028) q

end State

def execGctlHalt (d a : SReg) (s : State) : Out := s.gctlTeam a fun _ t _ => .next ((s.haltTeam t none).curatorDone d 1)

def execGctlResume (d a : SReg) (s : State) : Out :=
  s.gctlTeam a fun _ t _ => if s.untaken t then .next (s.curatorDone d 0) else .next ((s.askResume t).curatorDone d 1)

def execGctlReplay (d a : SReg) (s : State) : Out := s.gctlOp a fun r => .next ((s.replayOp r).curatorDone d 1)

def execGctlCancel (d a : SReg) (s : State) : Out := s.gctlOp a fun r => .next ((s.cancelOp r.op).curatorDone d 1)

def execGctlCompact (d _a : SReg) (s : State) : Out :=
  s.byCurator fun c =>
    let rs := (s.maskedSlots c).map fun q => (q, (s.core c).fq.get q)
    if rs.any fun e => match e.2 with
        | some r => !r.lane || r.taken || r.service
        | none => true then s.curatorFault c
    else
      let rs := rs.filterMap fun e => e.2.map fun r => (e.1, r)
      let os := State.packLanes rs
      if os.isEmpty then .next (s.curatorDone d 0)
      else match s.launchService c os with
      | .wait s => .next s
      | .ok n s =>
        let s := if n = 0 then s else s.mapCore c fun k => { k with fq := rs.foldl (fun f e => f.set e.1 { e.2 with service := true }) k.fq }
        .next (s.curatorDone d (BitVec.ofNat 32 n))

def execGctlTake (d _a : SReg) (s : State) : Out :=
  s.byCurator fun c => match s.oldestRec c with
    | some (q, r) => .next ((s.takeRec c q r).curatorDone d (BitVec.ofNat 32 q))
    | none => .next (s.curatorDone d 0xFFFFFFFF)

def execGctlKill (d a : SReg) (s : State) : Out := s.gctlTeam a fun _ t _ => .next ((s.killTeam t).curatorDone d 1)

def execGctlStep (d a : SReg) (s : State) : Out :=
  s.byCurator fun c => match s.inSlot c (fieldAt (s.sreg a).toNat 0 5) with
    | some (t, g) => .next (((s.haltTeam t none).mapGroup t g.idx fun g => { g with stepping := true, faulted := false }).curatorDone d 1)
    | none => s.curatorFault c

/-! ### ctx (22 R354, R357, R362) -/

namespace State

/-- A misaligned image, an odd pair or a reserved control bit is a fault (22 R358, R362; log 27). -/
def ctxBad (s : State) (a b : SReg) : Bool :=
  a.toNat % 2 == 1 || decide ((s.sreg b).toNat / 16 ≠ 0) || decide ((s.spair a).toNat % 4096 ≠ 0)

/-- Translate an image of n units for a Curator: none of an address beyond device memory. -/
def imagePages (s : State) (c : Nat) (k : Kind) (va n : Nat) : Pages :=
  if 2 ^ 57 < va + 4096 * n then .bad s 0
  else s.pages (.image c) (some c) (s.partOf c) (s.imageSpace (s.partOf c)) (unitPages k va n) []

/-- The group block at byte b describes a group that has ended: a save leaves it zero. -/
def blockEnded (s : State) (l : Nat → Loc) (g : Group) (b : Nat) : Bool := (List.range g.blockSize).all fun i => s.byteAt (l (b + i)) == 0

/-- A team of grid n as its image alone describes it: the load places a new one (log 50). -/
def teamFromImage (s : State) (c : Nat) (l : Nat → Loc) (n : Nat) (g : Grid) (rc : BitVec 1024) : Saved :=
  let rd (o : Nat) : Nat := s.numAt (l o) 4
  let x := Spec.of rc g.drain.isSome
  let t := s.handles
  let y : Team := { Team.fresh t n (rd 8) x rc c 0 0 with mcset := if rd 20 = 0xFFFFFFFF then none else some (rd 20) }
  let gs := x.groups.zipIdx.map fun e => Group.fresh e.2 e.1 (c + e.1.side) 0 rc
  ⟨t, n, rd 8, none, s.partOf c, false, c / 12, y, gs, holdsOf t x.paired (rd 24)⟩

/-- The team that an image's header and record describe: a saved one of the Curator's partition, one without a slot before one with a slot,
else a new one of a grid with that record (22 R362; log 50). None where the version, the size or the record fails the check. -/
def imageTeam (s : State) (c : Nat) (l : Nat → Loc) : Option Saved :=
  let rd (o : Nat) : Nat := s.numAt (l o) 4
  let rc := s.recordAt l 0x900
  let p := s.partOf c
  let mine := s.saved.filter fun y => y.part == p && y.id == rd 8 && y.team.lrec == rc && imgUnits y.team y.groups == rd 4
  if rd 0 ≠ 1 then none
  else match (mine.filter fun y => y.slot.isNone) ++ mine with
  | y :: _ => some (heldAs y (rd 24))
  | [] => (s.grids.find? fun e => e.2.part == p && e.2.record == rc && decide (rd 8 < e.2.nteams)).bind fun e =>
      let y := s.teamFromImage c l e.1 e.2 rc
      if imgUnits y.team y.groups = rd 4 then some y else none

/-- Of a team that its image alone describes, the groups whose blocks say so have ended. -/
def withEnded (s : State) (l : Nat → Loc) (y : Saved) : Saved :=
  if s.saved.any fun z => z.tid == y.tid then y
  else { y with groups := (blockOffs y.team y.groups).map fun e => { e.1 with ended := s.blockEnded l e.1 e.2 } }

/-- The team of an image leaves the place that it had: a grid no longer waits to restore it, a new team takes a number. -/
def claimImage (s : State) (y : Saved) : State :=
  if s.saved.any fun z => z.tid == y.tid then
    match y.slot, s.grid y.grid with
    | some _, some g => s.putGrid y.grid { g with waiting := g.waiting.erase y.id }
    | _, _ => s
  else { s with handles := s.handles + 1 }

end State

/-- `ctx` save (22 R362): it completes when the save is done. -/
def execCtxSave (d a b : SReg) (s : State) : Out :=
  s.byCurator fun c =>
    if s.ctxBad a b then s.curatorFault c
    else match s.atEntry c (fieldAt (s.sreg b).toNat 0 3) with
    | none => .next (s.curatorDone d 2)
    | some (t, x) =>
      if c ≠ x.core then .next (s.curatorDone d 6)
      else if s.untaken t then .next (s.curatorDone d 5)
      else
        let s := (s.setMates t).foldl (fun s m => s.pauseTeam m none) s
        if s.untaken t then .next (s.curatorDone d 5)
        else if !s.quiet t then .next s
        else
          let va := (s.spair a).toNat
          match s.imagePages c .write va (State.imgUnits x (s.groupsOf t)) with
          | .wait s => .next s
          | .bad s _ => .next (s.curatorDone d 1)
          | .ok tab => .next ((s.saveTeam t (fun k => Side.dev.loc tab (va + k)) none false).curatorDone d 0)

/-- Rows that the checks of a load read: the header's and the launch record's, then the group blocks of a team that the image alone describes. -/
def ctxHead : List Nat := 0 :: (List.range 4).map (72 + ·)
def State.ctxBlocks (s : State) (y : Saved) (n : Nat) : List Nat :=
  if s.saved.any fun z => z.tid == y.tid then []
  else (List.range (128 * n)).filter fun i => decide (State.imgGroups y.team y.groups / 32 ≤ i)

/-- `ctx` load (22 R357, R362). What it has read is recorded whatever the status (24 R394, 25 R406). A member of a multicast set may come to another
die than the rest of its set (log 85). -/
def execCtxLoad (d a b : SReg) (s : State) : Out :=
  s.byCurator fun c =>
    if s.ctxBad a b then s.curatorFault c
    else
      let va := (s.spair a).toNat
      let l (tab : List (Nat × Nat)) (k : Nat) : Loc := Side.dev.loc tab (va + k)
      match s.imagePages c .read va 1 with
      | .wait s => .next s
      | .bad s _ => .next (s.curatorDone d 1)
      | .ok tab =>
        let ends (s : State) (v : Word) (more : List Nat) : Out := .next ((s.curatorDone d v).noteRows (l tab) (ctxHead ++ more) (some c))
        match s.imageTeam c (l tab) with
        | none => ends s 3 []
        | some y =>
          let n := State.imgUnits y.team y.groups
          if y.team.paired && c % 2 == 1 then ends s 6 []
          else match s.imagePages c .read va n with
          | .wait s => .next s
          | .bad s _ => ends s 1 []
          | .ok all =>
            let y := s.withEnded (l all) y
            if s.swapping c || !s.savedFits y c then .next ((s.curatorDone d 4).noteRows (l all) (ctxHead ++ s.ctxBlocks y n) (some c))
            else .next ((((s.claimImage y).loadTeam y (s.readImage (l all) n) c).curatorDone d 0).noteImage (l all) n (some c))

/-! ### Verdicts (22 R351) -/

namespace State

/-- The verdict of a packed lane: its v8 as its group ended. -/
def verdictOf (g : Grid) (j : Nat) : Word := ((g.verdicts.find? fun e => e.1 == j).map (·.2)).getD 0

/-- Lanes of the record in slot q with number n, with their verdicts. -/
def verdictsFor (g : Grid) (q : Nat) (n : Word) : List (Nat × Word) :=
  (g.origins.zipIdx.filter fun e => e.1.q == q && e.1.of.seq == n).map fun e => (e.1.lane, verdictOf g e.2)

/-- A `cpg` lane that is cancelled counts as committed; with no fail verdict, and no other record of the gather, it is replayed. -/
def verdictGather (s : State) (c : Nat) (r : FaultRec) (cancel : LaneMask) (fail : Bool) : State :=
  match s.ops.get r.op with
  | some o =>
    match o.kind with
    | .copy k [sl] =>
      let others := (s.core c).fq.any fun e => e.2.op == r.op && !e.2.taken && e.2.seq != r.seq
      let stage : Stage := if fail || others then o.stage else .ready
      s.putOp r.op { o with kind := .copy k [{ sl with lanes := sl.lanes &&& ~~~cancel }], stage := stage, since := s.clk.toNat }
    | _ => s
  | none => s

/-- Apply the verdicts of the record in slot q with number n, which is then taken; a fail verdict writes a new record (22 R351; log 49). A slot
that has since come to hold another record, and a record of a team that is killed, are left alone. -/
def applyVerdicts (s : State) (c : Nat) (g : Grid) (q : Nat) (n : Word) : State :=
  match (s.core c).fq.get q with
  | none => s
  | some r =>
    if r.seq ≠ n || ((s.team r.tid).map (·.killing)).getD true then s
    else
      let vs := verdictsFor g q n
      let cancel := maskOf ((vs.filter fun e => e.2 == 1).map (·.1))
      let fail := vs.any fun e => e.2 != 0 && e.2 != 1
      let s := if r.op ≠ 0 then s.verdictGather c r cancel fail
        else s.mapGroup r.tid r.grp.toNat fun g => { g with cancel := g.cancel ||| cancel }
      let s := if fail then s.enqueueRec c { r with lane := false, service := false } else s
      s.takeRec c q r

/-- Every handler group of the grid has ended. -/
def verdictsIn (g : Grid) : Bool := g.next == g.nteams && decide (g.origins.length ≤ g.verdicts.length)

end State

/-- VERDICT_APPLICATION (22 R351). -/
def execVerdictApplication (c : Nat) (s : State) : Out :=
  match s.grids.find? fun e => e.2.handler == some c && !e.2.origins.isEmpty && State.verdictsIn e.2 with
  | none => .next s
  | some (n, g) =>
    let s := (g.origins.map fun e => (e.q, e.of.seq)).dedup.foldl (fun s e => s.applyVerdicts c g e.1 e.2) s
    match s.grid n with
    | some g => .next (s.putGrid n { g with origins := [] })
    | none => .next s

end Sys2Proof.Machine
end

