-- ==== Sys2Proof/Machine/Market.lean ====
section
/-! DEFINITION. The power market (23 R372-R376, R380), the governor's sub-slots (R371) and hot-spot migration (R381, R382). -/

namespace Sys2Proof.Machine

open Sys2Proof

/-! ### Bids (23 R372) -/

/-- Tokens of the package. -/
def tokens : Nat := 3640

/-- A weight as a number that orders like it: weights are not negative and not NaN. -/
def weightKey (w : Word) : Nat := if w = 0x80000000 then 0 else w.toNat

/-- Put a segment into a bid in descending value, merged with one of equal value. -/
def addSeg (l : Nat) (w : Word) : List (Nat × Word) → List (Nat × Word)
  | [] => [(l, w)]
  | x :: r =>
    if weightKey x.2 = weightKey w then (x.1 + l, x.2) :: r
    else if weightKey x.2 < weightKey w then (l, w) :: x :: r
    else x :: addSeg l w r

/-- Cut a bid from its lowest value upward to a total length. -/
def cutBid : List (Nat × Word) → Nat → List (Nat × Word)
  | [], _ => []
  | x :: r, room => if x.1 ≤ room then x :: cutBid r (room - x.1) else if room = 0 then [] else [(room, x.2)]

namespace State

/-- The value in force of a die's market word: a write applies from the next interval (23 R377). -/
def dieForce (s : State) (d off : Nat) : Word := s.cfgW 6 d off

/-- Every market word of a die comes into force. -/
def forceDie (s : State) (d : Nat) : State :=
  (List.range 53).foldl (fun s k => s.setCfgW 6 d (0x200 + 4 * k) (s.cfgW 1 d (0x200 + 4 * k))) s

/-- An active cluster: its die is valid and a core of it is present (23 R373, 24 R398). -/
def clusterActive (s : State) (c : Nat) : Bool := s.dieValid (c / 3) && (List.range 4).any fun k => s.corePresent (4 * c + k)

/-- The floor that a cluster receives. -/
def floorOf (s : State) (c : Nat) : Nat := if s.clusterActive c then fieldAt (s.cfgW 2 (s.diePart (c / 3)) 0x104).toNat 0 12 else 0

/-- A cluster's bid from its closed record. -/
def bidOf (s : State) (c : Nat) : List (Nat × Word) :=
  let k := s.cluster c
  let u := (s.dieForce (c / 3) 0x204).toNat
  if !s.clusterActive c || u = 0 then []
  else
    let segs := (List.range 8).foldl (fun b i =>
      let n := (k.issued.get i).toNat + (k.withheld.get i).toNat
      if n = 0 then b else addSeg ((n + u - 1) / u) (s.dieForce (c / 3) (0x210 + 4 * i)) b) []
    cutBid segs (tokens - s.floorOf c)

/-! ### Clearing (23 R373) -/

/-- A segment of the market: cluster, length, value. -/
abbrev Seg := Nat × Nat × Word

/-- Descending value; equal values in ascending (c - n) mod 24. -/
def segBefore (n : Nat) (a b : Seg) : Bool :=
  if weightKey a.2.2 != weightKey b.2.2 then decide (weightKey b.2.2 < weightKey a.2.2)
  else decide ((a.1 + 24 - n % 24) % 24 ≤ (b.1 + 24 - n % 24) % 24)

def insertSeg (n : Nat) (a : Seg) : List Seg → List Seg
  | [] => [a]
  | b :: r => if segBefore n a b then a :: b :: r else b :: insertSeg n a r

/-- Serve segments in order from a supply: what each cluster wins, and the price. -/
def serve : List Seg → Nat → Cells 32 → Cells 32 × Word
  | [], _, w => (w, 0)
  | x :: r, left, w =>
    let put (n : Nat) : Cells 32 := w.set x.1 (w.get x.1 + BitVec.ofNat 32 n)
    if x.2.1 ≤ left then serve r (left - x.2.1) (put x.2.1) else (put left, x.2.2)

/-- The hub clears interval n: every cluster's tokens, and the price. -/
def clearMarket (s : State) (n : Nat) : State :=
  let cs := List.range 24
  let supply := tokens - (cs.map s.floorOf).sum
  let segs := (cs.flatMap fun c => (s.cluster c).bid.map fun b => (c, b.1, b.2)).foldr (insertSeg n) []
  let (won, price) := serve segs supply []
  let s := cs.foldl (fun s c => let x := s.cluster c; s.putCluster c { x with grant := s.floorOf c + (won.get c).toNat }) s
  { s with price := price, mphase := 1 }

/-- Bytes of a bid on the market page: 8 pairs of length and value (23 R380). -/
def bidBytes (b : List (Nat × Word)) : List Byte :=
  (List.range 8).flatMap fun i => match b[i]? with
    | some x => bytesOfNat 4 x.1 ++ bytesOfNat 4 x.2.toNat
    | none => bytesOfNat 8 0

/-- The market page; its address is taken as a physical one (log 26). -/
def marketPage (s : State) : Nat := s.cfgD 3 0 0x310

/-- Records close, bids are made, a new record starts (23 R372, R376). -/
def closeRecords (s : State) : State :=
  (List.range 24).foldl (fun s c =>
    let x := s.cluster c
    let hot := decide (fieldAt (s.dieForce (c / 3) 0x2D0).toNat 0 12 < x.temp)
    s.putCluster c { x with bid := s.bidOf c, issued := [], withheld := [], hotLast := x.hotAll, hotAll := hot }) s

/-- The interval whose budgets are being formed. -/
def thisInterval (s : State) : Nat := s.interval - 1

end State

/-- MARKET_INTERVAL (23 R372, R376, R380): interval n starts when clk reaches 10,000 n. -/
def execMarketInterval (s : State) : Out :=
  if s.clk.toNat < 10000 * s.interval || s.mphase < 2 then .next s
  else
    let n := s.interval
    let s := (List.range 8).foldl (fun s d => s.forceDie d) s
    let s := { s.closeRecords with interval := n + 1 }
    if (s.cfgW 3 0 0x308).getLsbD 0 then
      .next { s.setBytes (.dev s.marketPage) ((List.range 24).flatMap fun c => State.bidBytes (s.cluster c).bid) with mphase := 0 }
    else .next (s.clearMarket n)

/-- HOST_ALLOCATION_DEADLINE (23 R380): 1.5 µs into the interval. -/
def execHostAllocationDeadline (s : State) : Out :=
  let n := s.thisInterval
  if s.mphase ≠ 0 || s.clk.toNat < 10000 * n + 1500 then .next s
  else
    let at' (k : Nat) : Nat := s.numAt (.dev (s.marketPage + k)) 4
    let counts := (List.range 24).map fun c => at' (0x800 + 4 * c)
    let s := (s.noteHubRead (.dev (s.marketPage + 0x800)) 96).noteHubRead (.dev (s.marketPage + 0xFFC)) 4
    let ok := at' 0xFFC = (n + 1) % 2 ^ 32 && (counts.zipIdx.all fun e => decide (s.floorOf e.2 ≤ e.1)) && decide (counts.sum ≤ tokens)
    if ok then
      .next { counts.zipIdx.foldl (fun s e => let x := s.cluster e.2; s.putCluster e.2 { x with grant := e.1 }) s with mphase := 1 }
    else .next ((s.setCfgW 3 0 0x318 (s.cfgW 3 0 0x318 + 1)).clearMarket n)

/-! ### Budgets and clocks (23 R371, R375, R376) -/

namespace State

/-- The setting for a die's tokens: the highest whose threshold they reach, else 0 (23 R375). -/
def settingFor (s : State) (d tok : Nat) : Nat :=
  (((List.range 25).filter fun k => decide (fieldAt (s.dieForce d (0x240 + 4 * k)).toNat 0 12 ≤ tok)).getLast?).getD 0

/-- Share of sub-slot k of a budget (23 R371). -/
def shareOf (B k : Nat) : Nat := if k < 9 then B / 10 else B - 9 * (B / 10)

/-- A cluster's budget: its tokens in force, at the charge per token of their interval (23 R371, R376). -/
def budgetOf (s : State) (c : Nat) : Nat := (s.cluster c).won * (s.cluster c).unit

/-- A sub-slot begins: its share, less what is owed. -/
def beginSub (s : State) (c k : Nat) : State :=
  let x := s.cluster c
  s.putCluster c { x with sub := k, rem := min x.rem 0 + shareOf (s.budgetOf c) k, began := false }

/-- New budgets of a die; its status words; a falling clock falls. -/
def dieEffect (s : State) (d : Nat) : State :=
  let cs := (List.range 3).map (3 * d + ·)
  let s := cs.foldl (fun s c =>
    let x := s.cluster c
    ((s.putCluster c { x with won := x.grant, unit := (s.dieForce d 0x204).toNat }).beginSub c 0).setCfgW 1 d (0x2C0 + 4 * (c % 3)) (BitVec.ofNat 32 x.grant)) s
  let k := s.settingFor d ((cs.map fun c => (s.cluster c).won).sum)
  let s := s.setCfgW 1 d 0x2CC (BitVec.ofNat 32 k)
  if k < (s.clockSet.get d).toNat then { s with clockSet := s.clockSet.set d (BitVec.ofNat 32 k) } else s

end State

/-- BUDGET_TAKE_EFFECT (23 R376): 2 µs into the interval. -/
def execBudgetTakeEffect (s : State) : Out :=
  let t := 10000 * s.thisInterval + 2000
  if s.mphase ≠ 1 || s.clk.toNat < t then .next s
  else .next { (List.range 8).foldl (fun s d => s.dieEffect d) s with mphase := 2, mstart := t }

/-- CLOCK_RAISE (23 R376): 4 µs into the interval. -/
def execClockRaise (s : State) : Out :=
  if s.mphase ≠ 2 || s.clk.toNat < 10000 * s.thisInterval + 4000 then .next s
  else .next { s with mphase := 3, clockSet := (List.range 8).foldl (fun c d => c.set d (s.cfgW 1 d 0x2CC)) s.clockSet }

/-- GOVERNOR_SUBSLOT (23 R371): the next of the ten sub-slots begins. -/
def execGovernorSubslot (s : State) : Out :=
  let k := (s.cluster 0).sub + 1
  if 9 < k || s.clk.toNat < s.mstart + 1000 * k then .next s
  else .next ((List.range 24).foldl (fun s c => s.beginSub c k) s)

/-! ### Hot-spot migration (23 R381, R382) -/

namespace State

/-- The operation's destination lies in its team's own memory. -/
def intoTeam (o : Op) : Bool :=
  match o.kind with
  | .copy c sls => c.form == .cpm || sls.any fun sl => (Shape.of sl.dst).space == 1
  | .cpcb _ _ _ => true
  | .coll c => (Shape.of c.tile).space == 1
  | _ => false

/-- The operation's destination lies in the memory of team t; of a fill, in that of every team of the set. -/
def intoTeamOf (s : State) (t : Nat) (o : Op) : Bool :=
  intoTeam o && (o.tid == t || (match o.kind with
    | .copy c _ => c.form == .cpm && (s.setMates o.tid).contains t
    | _ => false))

/-- A team that may be moved off a cluster (23 R381). -/
def movable (s : State) (cl : Nat) (e : Nat × Team) : Bool :=
  e.2.core / 4 == cl && (s.groupsOf e.1).all (fun g => g.ended || g.wait.isSome) && !e.2.halted && !e.2.killing && !s.untaken e.1 &&
    !(s.ops.any fun o => s.intoTeamOf e.1 o.2) && decide (((s.grid e.2.grid).map (·.prio)).getD 0 < 28)

/-- The lowest level, then the youngest grid, then the highest team linear id. -/
def moveBefore (s : State) (a b : Nat × Team) : Bool :=
  let l (e : Nat × Team) : Nat := ((s.grid e.2.grid).map (·.prio)).getD 0
  if l a != l b then decide (l a < l b) else s.younger a b

/-- Move one team off a hot cluster, where one may be and fits: the team and its set halt, and it moves once its work and the fills into the
set are over (log 44). -/
def migrate (s : State) (d cl : Nat) : Option State :=
  match (s.teams.filter (s.movable cl)).foldl (fun (m : Option (Nat × Team)) e => match m with
      | none => some e
      | some b => if s.moveBefore e b then some e else m) none with
  | none => none
  | some (t, x) =>
    (s.moveTo d cl (s.asSaved t x)).map fun _ =>
      (s.beginEvict (s.diePart d) t (some cl)).putCluster cl { s.cluster cl with hotLast := false }

end State

/-- HOTSPOT_MIGRATION (23 R381, R382): a die begins to move one team off a cluster that was hot for a whole interval; PREEMPTION_SAVE moves it. -/
def execHotspotMigration (d : Nat) (s : State) : Out :=
  if !s.dieValid d || !bitAt (s.cfgW 2 (s.diePart d) 0x100).toNat 4 then .next s
  else match ((List.range 3).map (3 * d + ·)).findSome? fun cl => if (s.cluster cl).hotLast then s.migrate d cl else none with
  | some s => .next s
  | none => .next s

end Sys2Proof.Machine
end

