-- ==== Sys2Proof/Machine/Links.lean ====
section
/-! DEFINITION. Scrubbing (24 R393), memory and Nalmond links (25 R406, R407, R410), peers' requests (05 R110-R112), walks and their service
(24 R388-R390), the host link (25 R399-R402). -/

namespace Sys2Proof.Machine

open Sys2Proof

/-! ### Scrubbing (24 R393) -/

namespace State

/-- A failed bank of a stripe group is mapped out and recorded; the second of its group may start a swap of the die. -/
def mapBank (s : State) (g : Stripe) (bank : Nat) : State :=
  if s.mappedOut.contains (g, bank) then s
  else
    let second := s.mappedOut.any fun m => m.1 == g
    let s := (s.mapOut g bank).machineCheck
      { source := if second then 2 else 3, die := g.die, core := g.core, quad := g.quad, bank := bank, sgrp := g.grp }
    if second && !(s.cfgW 3 0 0x308).getLsbD 1 then s.requestSwap g.die else s

/-- The decode of a symbol's codeword corrects its bank: one that is not mapped out. -/
def corrects (s : State) (e : SymErr) : Bool :=
  let out := s.banksOut e.row
  !s.rowBad e.row e.b && !out.contains e.bank && (match eccDecode out (s.errsOf e.row e.b) with
    | some f => f e.bank == 0 && errAt (s.errsOf e.row e.b) e.bank != 0
    | none => false)

/-- One pass over a die: every row that decodes is rewritten, so that only what a rewrite leaves stays in error; a bank whose corrected
symbols exceed the threshold, or in which a rewrite leaves an error, is mapped out. No byte that an access reads changes (log 42). -/
def scrub (s : State) (d : Nat) : State :=
  let thr := fieldAt (s.cfgW 1 d 0x700).toNat 0 8
  let s := s.dropStale
  let mine (e : SymErr) : Bool := (s.stripeOf e.row).any fun g => g.die == d
  let found := s.symErrs.filter fun e => mine e && s.corrects e
  let banks := (found.filterMap fun e => (s.stripeOf e.row).map fun g => (g, e.bank)).dedup
  let failed := banks.filter fun b =>
    let es := found.filter fun e => s.stripeOf e.row == some b.1 && e.bank == b.2
    decide (thr < ((es.map fun e => (e.row, e.b)).dedup).length) || es.any (·.hard)
  let s := { s with symErrs := s.symErrs.filter fun e => !mine e || e.hard || s.rowBad e.row e.b }.dropMarks
  failed.foldl (fun s b => s.mapBank b.1 b.2) s

end State

/-- SCRUB_PASS (24 R393). -/
def execScrubPass (d : Nat) (s : State) : Out := .next (s.scrub d)

/-! ### Memory links (25 R406) -/

/-- MEMORY_LINK_FAILURE. The record stands in the log of die 0 (log 29). -/
def execMemoryLinkFailure (i : Nat) (s : State) : Out :=
  if !s.trained.contains i || s.mfailed.contains i then .next s
  else .next ({ s with mfailed := s.mfailed ++ [i] }.machineCheck { source := 7, die := 0, faddr := 15 * 2 ^ 60 + i })

/-! ### Nalmond links (25 R407, R410) -/

namespace State

/-- The status words show the links that are up and their mode (25 R404). -/
def showLinks (s : State) : State :=
  let up (j : Nat) : Bool := ((s.nalmond.get j).map (·.up)).getD false
  let v1 (j : Nat) : Bool := up j && ((s.nalmond.get j).map fun n => !n.v2).getD false
  let bits (f : Nat → Bool) (n : Nat) : Nat := ((List.range n).map fun j => if f j then 2 ^ j else 0).sum
  (s.setCfgW 3 0 0x520 (BitVec.ofNat 32 (bits up 18 + 2 ^ 18 * bits (fun j => v1 (j + 4)) 14))).setCfgW 3 0 0x524 (BitVec.ofNat 32 (bits v1 4))

/-- Change a link that is up. -/
def mapLink (s : State) (j : Nat) (f : Nalmond → Nalmond) : State :=
  match s.nalmond.get j with
  | some n => if n.up then { s with nalmond := s.nalmond.set j (f n) } else s
  | none => s

end State

/-- FLIT_CRC_FAILURE (25 R407): a flit fails its check and is retried from the replay buffer; where 16 retries of it have failed the link
retrains. -/
def execFlitCrcFailure (j : Nat) (s : State) : Out :=
  .next (s.mapLink j fun n => { n with retry := if 16 < n.retry + 1 then 0 else n.retry + 1 })

/-- NALMOND_LANE_LOSS (25 R407). -/
def execNalmondLaneLoss (j : Nat) (s : State) : Out := .next (s.mapLink j fun n => { n with half := true, retry := 0 })

/-- NALMOND_LINK_DOWN (25 R407). -/
def execNalmondLinkDown (j : Nat) (s : State) : Out :=
  if ((s.nalmond.get j).map (·.up)).getD false then
    .next (((s.mapLink j fun n => { n with up := false, since := s.clk.toNat, retry := 0 }).showLinks).machineCheck
      { source := 7, die := 0, faddr := 15 * 2 ^ 60 + 64 + j })
  else .next s

/-- PEER_LINK_RETURN (25 R410). -/
def execPeerLinkReturn (j : Nat) (s : State) : Out :=
  match s.nalmond.get j with
  | some n => .next ({ s with nalmond := s.nalmond.set j { n with up := true, half := false, retry := 0 } }.showLinks)
  | none => .next s

namespace State

/-- The peers whose links an operation needs (25 R410): a collective before its handshake waits by its own rule (08 R161), a copy whose slices
have not all come waits for those (05 R102). -/
def peersOf (s : State) (o : Op) : List Nat :=
  match o.kind with
  | .copy c _ => if c.form.toPeer && o.stage != Stage.waiting then [c.peer] else []
  | .coll c => if o.stage = Stage.waiting then []
    else (s.members (s.partOf o.core) c.idx).filter fun d => d != s.selfDev (s.partOf o.core)
  | _ => []

/-- clk since which every link of a peer has been down; none while one is up. -/
def downSince (s : State) (p d : Nat) : Option Nat :=
  if s.peerUp p d then none
  else some ((s.nalmond.filter fun e => bitAt (s.peerEntry p d) (32 + e.1)).foldl (fun m e => Nat.max m e.2.since) 0)

/-- A peer that an operation has waited for through ctmo. -/
def unreachable (s : State) (o : Op) : Bool :=
  let p := s.partOf o.core
  let ms := fieldAt (s.cfgW 2 p 0x03C).toNat 0 16
  (s.peersOf o).any fun d => match s.downSince p d with
    | some t => decide (Nat.max t o.since + 1000000 * ms ≤ s.clk.toNat)
    | none => false

end State

/-- PEER_UNREACHABLE (25 R410): reported at every slice's group. -/
def execPeerUnreachable (op : Nat) (s : State) : Out :=
  match s.ops.get op with
  | some o =>
    if o.stage = Stage.failed || (s.team o.tid).isNone || !s.unreachable o then .next s
    else match o.kind with
    | .copy _ (sl :: sls) =>
      .next (s.bySlice ((sl :: sls).map fun x => (x, ())) fun s sl _ => s.raiseOp op sl.idx sl.pc sl.lword .peerUnreachable {})
    | .coll c => .next (s.collFault op o c .peerUnreachable 0)
    | _ => .next (s.raiseOp op o.idx o.pc o.lword .peerUnreachable {})
  | none => .next s

/-! ### Requests of peers (05 R110-R112, 24 R388) -/

namespace State

/-- Address and length of a request. -/
def reqSpan : PeerReq → Nat × Nat
  | .write va bs => (va, bs.length)
  | .add va _ | .max va _ _ | .fmax va _ | .fadd va _ _ _ _ _ => (va, 4)

/-- Split a request's bytes where pages end, into at most n parts. -/
def pageParts : Nat → Nat → List Byte → List (Nat × List Byte)
  | 0, _, _ => []
  | n + 1, va, bs =>
    let k := 65536 - va % 65536
    if bs.length ≤ k then [(va, bs)] else (va, bs.take k) :: pageParts n (va + k) (bs.drop k)

/-- Perform a request at its translated place: bytes of one page are stored at once (06 R118). -/
def peerDo (s : State) (tab : List (Nat × Nat)) : PeerReq → State
  | .write va bs => (pageParts (bs.length / 65536 + 2) va bs).foldl (fun s e => s.setBytes (Side.dev.loc tab e.1) e.2) s
  | .add va inc => let l := Side.dev.loc tab va; (s.noteHubRead l 4).setNum l 4 ((s.wordAt l).toNat + inc)
  | .max va sg v =>
    let l := Side.dev.loc tab va
    let w := s.wordAt l
    (s.noteHubRead l 4).setNum l 4 (if sg then opMax w v else if w.toNat ≤ v.toNat then v else w).toNat
  | .fmax va v => let l := Side.dev.loc tab va; (s.noteHubRead l 4).setNum l 4 (maxF32 (s.wordAt l) v).toNat
  | .fadd va v rank team grp el => s.enqueueAdd (Side.dev.loc tab va) v rank team grp el

/-- Try a request of a peer, in partition p and space asid: it is performed, or dropped where its page does not translate or its bytes are
pinned (true); or it waits, for a walk or for room in a queue (false). -/
def peerTry (s : State) (p asid : Nat) (r : PeerReq) : Bool × State :=
  let (va, n) := reqSpan r
  if hits (s.pins p asid) (va, n) then (true, s)
  else match s.pages .hub none p asid ((List.range ((va + n - 1) / 65536 + 1 - va / 65536)).map fun i => (Kind.peerWrite, va / 65536 + i)) [] with
  | .wait s => (false, s)
  | .bad s _ => (true, s)
  | .ok tab => match r with
    | .fadd _ _ _ _ _ _ =>
      let h := s.homeOf (Side.dev.loc tab va)
      if s.homeFull h then (false, s.markFull h) else (true, s.peerDo tab r)
    | _ => (true, s.peerDo tab r)

/-- The add of an arrival counter: it is performed after the bytes that were sent before it (05 R103, R112; 06 R132). -/
def isAdd : PeerReq → Bool
  | .add _ _ => true
  | _ => false

/-- Take a request: one that must wait joins those that wait. -/
def peerOffer (s : State) (q : Nat × Nat × PeerReq) : State :=
  let wait (s : State) : State := { s with peerq := s.peerq ++ [q] }
  if isAdd q.2.2 && s.peerq.any fun e => e.1 == q.1 && e.2.1 == q.2.1 then wait s
  else match s.peerTry q.1 q.2.1 q.2.2 with
  | (true, s) => s
  | (false, s) => wait s

/-- The requests of a partition's peers that wait are tried again, in their order. -/
def peerRetry (s : State) (p : Nat) : State :=
  if s.peerq.isEmpty then s
  else s.peerq.foldl (fun s q => if q.1 = p then s.peerOffer q else { s with peerq := s.peerq ++ [q] }) { s with peerq := [] }

end State

/-- PEER_REQUEST: translated by the hub for a peer's write, checked against pinned ranges (09 R175), performed at its home. While a walk is
awaited, or the queue is full, it waits at the hub (log 16). -/
def execPeerRequest (p asid : Nat) (r : PeerReq) (s : State) : Out :=
  let (va, n) := State.reqSpan r
  if n = 0 || 2 ^ 57 < va + n then .next s else .next (s.peerOffer (p, asid, r))

/-! ### Translation -/

/-- TRANSLATION_WALK (24 R388-R390). Requests of peers that waited for it are tried again. -/
def execTranslationWalk (p : Nat) (s : State) : Out := .next ((s.walkStep p).peerRetry p)

/-- SERVICE_RESPONSE (24 R390). -/
def execServiceResponse (p : Nat) (s : State) : Out := .next ((s.serviceStep p).peerRetry p)

/-! ### The host link (25 R399-R402) -/

/-- The host link's own state is reset (25 R399; log 45). -/
def State.linkReset (s : State) : State := { s with msixMask := 0, msixPend := 0, hostRead := [] }

/-- HOST_LINK_RESET (25 R399): only the link's own state is reset. -/
def execHostLinkReset (s : State) : Out := .next s.linkReset

/-- VECTOR_UNMASK (25 R402): a vector held pending is delivered. -/
def execVectorUnmask (v : Nat) (s : State) : Out :=
  if 4 ≤ v then .next s
  else
    let s' := { s with msixMask := s.msixMask &&& ~~~(1#4 <<< v), msixPend := s.msixPend &&& ~~~(1#4 <<< v) }
    .next (if s.msixPend.getLsbD v then { s' with msixSent := s'.msixSent.set v (s'.msixSent.get v + 1) } else s')

namespace State

/-- Trained capacity in bytes (25 R404, R405). -/
def capacity (s : State) : Nat := s.trained.length * 2 ^ (35 + fieldAt (s.cfgW 3 0 0x514).toNat 0 2)

/-- The configuration word that a BAR0 offset names (25 R400). -/
def barWord (off : Nat) : Option (Nat × Nat × Nat) :=
  if off < 0x1000000 then some (3, 0, off)
  else if off < 0x1800000 then some (1, (off - 0x1000000) / 0x100000, off % 0x100000)
  else if 0x2000000 ≤ off && off < 0x2100000 then some (2, (off - 0x2000000) / 0x20000, off % 0x20000)
  else if 0x4000000 ≤ off && off < 0x4600000 then some (0, (off - 0x4000000) / 0x10000, off % 0x10000)
  else none

/-- The physical address of a BAR2 offset. -/
def bar2 (s : State) (off : Nat) : Nat := s.cfgD 3 0 0x518 + off

end State

/-- HOST_MEMORY_WRITE (25 R400, R401). The record window takes a record before 100 ms, or after an error (25 R411; log 59). Addresses below 2^36 are offsets in BAR2, those from 2^40 on offsets in BAR0 (log 30). -/
def execHostMemoryWrite (addr : Nat) (bytes : List Byte) (s : State) : Out :=
  if !s.hostUp then .next s
  else if 2 ^ 40 ≤ addr then
    match State.barWord (addr - 2 ^ 40) with
    | some (sp, i, off) =>
      let rec' := sp = 3 && 0x10000 ≤ off && off < 0x120000
      if bytes.length ≠ 4 || (s.cfgGet sp i off).isNone || (s.broken && !rec') || (rec' && !s.broken && decide (100000000 ≤ s.clk.toNat)) then .next s
      else .next (s.cfgPut sp i off (BitVec.ofNat 32 (natOfBytes bytes)))
    | none => .next s
  else if 2 ^ 36 ≤ addr || s.broken then .next s
  else
    let pa := s.bar2 addr
    .next (s.setBytes (.dev pa) (bytes.take (s.capacity - pa)))

/-- HOST_MEMORY_READ (25 R400, R401). -/
def execHostMemoryRead (addr len : Nat) (s : State) : Out :=
  if !s.hostUp then .next s
  else if 2 ^ 40 ≤ addr then
    let v : Word := match State.barWord (addr - 2 ^ 40) with
      | some (sp, i, off) => if len = 4 then (s.cfgGet sp i off).getD 0 else 0
      | none => 0
    .next { s with hostRead := bytesOfNat len v.toNat }
  else if 2 ^ 36 ≤ addr || s.broken then .next { s with hostRead := bytesOfNat len 0 }
  else
    let pa := s.bar2 addr
    let n := min len (s.capacity - pa)
    let s := s.noteHubRead (.dev pa) n
    .next { s with hostRead := (s.bytesAt (.dev pa) n) ++ bytesOfNat (len - n) 0 }

end Sys2Proof.Machine
end

