-- ==== Sys2Proof/Machine/Sha3.lean ====
section
/-! DEFINITION. SHA3-512 (00 R7), and the extendable-output functions of the same permutation that ML-DSA-87 is written in: the functions of those
names of FIPS 202, which the spec names and does not print (log 15). -/

namespace Sys2Proof.Machine

open Sys2Proof

namespace Keccak

/-- The 1,600 bits: five planes, by y, of five words, by x. -/
abbrev Planes := List (List DWord)

/-- A list turned so that its element k comes first. -/
def spin {α : Type} (k : Nat) (l : List α) : List α := l.drop k ++ l.take k

/-- Word by word exclusive or. -/
def xors (a b : List DWord) : List DWord := List.zipWith (fun u v => u ^^^ v) a b

/-- Theta: a column takes the parities of its neighbours, the one behind it turned by one bit. -/
def theta (a : Planes) : Planes :=
  let par := a.foldl xors (List.replicate 5 0)
  a.map (xors (xors (spin 4 par) ((spin 1 par).map fun w => w.rotateLeft 1)))

/-- The walk (x, y) to (y, 2 x + 3 y) from (1, 0), n places. Pi moves a word to the next place of the walk. -/
def walk : Nat → Nat → Nat → List (Nat × Nat)
  | 0, _, _ => []
  | n + 1, x, y => (x, y) :: walk n y ((2 * x + 3 * y) % 5)

/-- The walk with its steps: number, place, next place. -/
def steps : List (Nat × (Nat × Nat) × (Nat × Nat)) :=
  let w := walk 25 1 0
  (List.range 24).zip (w.zip w.tail)

/-- Word x of plane y; put one there. -/
def word (a : Planes) (p : Nat × Nat) : DWord := (a.getD p.2 []).getD p.1 0
def putWord (a : Planes) (p : Nat × Nat) (w : DWord) : Planes := a.set p.2 ((a.getD p.2 []).set p.1 w)

/-- Rho and pi: the word at step t of the walk is turned by the t-th triangle number and moves on; word (0, 0) stays. -/
def rhoPi (a : Planes) : Planes :=
  steps.foldl (fun b e => putWord b e.2.2 ((word a e.2.1).rotateLeft ((e.1 + 1) * (e.1 + 2) / 2 % 64))) a

/-- Chi, in each plane: a word changes where the next is 0 and the one after it 1. -/
def chi (a : Planes) : Planes := a.map fun r => xors r (List.zipWith (fun u v => ~~~u &&& v) (spin 1 r) (spin 2 r))

/-- The register of iota's constants, x^8 + x^6 + x^5 + x^4 + 1: its next state. -/
def nextReg (r : Byte) : Byte := (r <<< 1) ^^^ if r.getLsbD 7 then 0x71 else 0

/-- n steps of the register from r: the bits it gave out, and where it stands. -/
def regBits : Nat → Byte → List Bool × Byte
  | 0, r => ([], r)
  | n + 1, r => let (l, q) := regBits n (nextReg r); (r.getLsbD 0 :: l, q)

/-- The constant of a round: seven bits of the register at the places 2^j - 1. -/
def constOf (l : List Bool) : DWord := l.zipIdx.foldl (fun c e => if e.1 then c ||| (1#64 <<< (2 ^ e.2 - 1)) else c) 0

/-- n rounds, the register at r. -/
def rounds : Nat → Byte → Planes → Planes
  | 0, _, a => a
  | n + 1, r, a =>
    let (l, q) := regBits 7 r
    let b := chi (rhoPi (theta a))
    rounds n q (putWord b (0, 0) (word b (0, 0) ^^^ constOf l))

/-- The permutation. -/
def perm (a : Planes) : Planes := rounds 24 1 a

/-- Words from bytes; planes from words. -/
def wordsOf : Nat → List Byte → List DWord
  | 0, _ => []
  | n + 1, l => BitVec.ofNat 64 (natOfBytes (l.take 8)) :: wordsOf n (l.drop 8)
def planesOf (l : List DWord) : Planes := (List.range 5).map fun y => (l.drop (5 * y)).take 5

/-- Absorb n blocks of `rate` bytes. -/
def soak (rate : Nat) : Nat → List Byte → Planes → Planes
  | 0, _, a => a
  | n + 1, l, a => soak rate n (l.drop rate) (perm (planesOf (xors a.flatten (wordsOf 25 (l.take rate)))))

/-- n blocks given out. -/
def wring (rate : Nat) : Nat → Planes → List Byte
  | 0, _ => []
  | n + 1, a => (a.flatten.flatMap fun w => bytesOfNat 8 w.toNat).take rate ++ wring rate n (perm a)

/-- A message with its ending, `tail` its first bits, to a whole number of blocks; the last bit of all is 1. -/
def closed (rate tail : Nat) (l : List Byte) : List Byte :=
  let k := rate - 1 - l.length % rate
  if k = 0 then l ++ [BitVec.ofNat 8 (tail + 128)] else l ++ BitVec.ofNat 8 tail :: (List.replicate (k - 1) 0 ++ [128])

/-- The sponge: n bytes of output for a message. -/
def sponge (rate tail : Nat) (l : List Byte) (n : Nat) : List Byte :=
  let m := closed rate tail l
  (wring rate ((n + rate - 1) / rate) (soak rate (m.length / rate) m (List.replicate 5 (List.replicate 5 0)))).take n

end Keccak

/-- SHAKE128 and SHAKE256: n bytes. -/
def shake128 (l : List Byte) (n : Nat) : List Byte := Keccak.sponge 168 0x1F l n
def shake256 (l : List Byte) (n : Nat) : List Byte := Keccak.sponge 136 0x1F l n

/-- The digest; its first byte is the lowest of the number (00 R10). -/
def sha3_512 (l : List Byte) : BitVec 512 := BitVec.ofNat 512 (natOfBytes (Keccak.sponge 72 0x06 l 64))

end Sys2Proof.Machine
end

