-- ==== Sys2Proof/Machine/MlDsa.lean ====
section
/-! DEFINITION. ML-DSA-87 (00 R7): the signature scheme of that name of FIPS 204, which the spec names and does not print (log 15). A polynomial is
the list of its 256 coefficients, mod q. -/

namespace Sys2Proof.Machine

open Sys2Proof

namespace MlDsa

/-! ### Parameters -/

def q : Nat := 8380417
/-- Rows and columns of the matrix, and the bounds of category 5. -/
def rows : Nat := 8
def cols : Nat := 7
def eta : Nat := 2
def tau : Nat := 60
def gamma1 : Nat := 2 ^ 19
def gamma2 : Nat := (q - 1) / 32
def beta : Nat := tau * eta
def omega : Nat := 75
/-- Bits of t that a public key leaves out. -/
def dropped : Nat := 13
/-- Bytes of a public key, a private key, a signature. -/
def pkLen : Nat := 2592
def skLen : Nat := 4896
def sigLen : Nat := 4627

/-! ### Polynomials mod q -/

abbrev Poly := List Nat

def Poly.zero : Poly := List.replicate 256 0
def add (a b : Poly) : Poly := List.zipWith (fun u v => (u + v) % q) a b
def neg (a : Poly) : Poly := a.map fun u => (q - u) % q
def sub (a b : Poly) : Poly := add a (neg b)
/-- Product of transforms: value by value. -/
def times (a b : Poly) : Poly := List.zipWith (fun u v => u * v % q) a b

/-- x to the power n mod q; `k` counts the bits of n that are left. -/
def powBits (x n : Nat) : Nat → Nat
  | 0 => 1
  | k + 1 => let h := powBits (x * x % q) (n / 2) k; if n % 2 = 1 then x * h % q else h
def zetaPow (n : Nat) : Nat := powBits 1753 n 9

/-- The 8 bits of a number in reverse. -/
def rev8 (n : Nat) : Nat := (List.range 8).foldl (fun r i => 2 * r + n / 2 ^ i % 2) 0

/-- The exponents of the 512th root of unity 1753 at whose powers the transform evaluates. -/
def points : List Nat := (List.range 256).map fun i => 2 * rev8 i + 1

/-- Value of a polynomial at x. -/
def evalAt (a : Poly) (x : Nat) : Nat := a.foldr (fun c r => (c + x * r) % q) 0

/-- The transform: the values at the odd powers of the root, and its inverse: coefficient j is the mean of the values times x^-j. -/
def ntt (a : Poly) : Poly := points.map fun e => evalAt a (zetaPow e)
def intt (a : Poly) : Poly :=
  let inv := points.map fun e => zetaPow (512 - e)
  let rec go : Nat → Poly → Poly
    | 0, _ => []
    | n + 1, l => 8347681 * l.sum % q :: go n (times l inv)
  go 256 a

/-- The representative of least magnitude, and its size. -/
def cent (x : Nat) : Int := if x ≤ q / 2 then x else (x : Int) - q
def size (x : Nat) : Nat := min x (q - x)
/-- The largest size of a coefficient of a vector. -/
def norm (v : List Poly) : Nat := v.foldl (fun m a => a.foldl (fun m x => max m (size x)) m) 0

/-! ### Bits and bytes -/

/-- n fields of w bits from bytes, lowest first. -/
def fields (w n : Nat) (l : List Byte) : List Nat :=
  let x := natOfBytes l
  (List.range n).map fun i => x / 2 ^ (w * i) % 2 ^ w
/-- Bytes of fields of w bits. -/
def packed (w : Nat) (l : List Nat) : List Byte :=
  bytesOfNat (l.length * w / 8) (l.foldr (fun c x => c % 2 ^ w + 2 ^ w * x) 0)

/-- Part i of a list of parts of n bytes. -/
def part (n i : Nat) (l : List Byte) : List Byte := (l.drop (n * i)).take n

/-- A polynomial of signed coefficients that lie from b down, w bits each. -/
def unpack (w b : Nat) (l : List Byte) : Poly := (fields w 256 l).map fun c => (b + q - c % q) % q
def pack (w b : Nat) (a : Poly) : List Byte := packed w (a.map fun x => (b - cent x).toNat)

/-! ### Sampling -/

/-- Every third byte group of a stream that is a number below q: 23 bits of it. -/
def below (l : List Byte) : List Nat :=
  match l with
  | a :: b :: c :: r => let x := a.toNat + 256 * b.toNat + 65536 * (c.toNat % 128); if x < q then x :: below r else below r
  | _ => []

/-- Entry (i, j) of the matrix, as a transform, from its seed. The stream is read to 1,176 bytes, beyond FIPS 204's bound. -/
def entry (seed : List Byte) (i j : Nat) : Poly := (below (shake128 (seed ++ [BitVec.ofNat 8 j, BitVec.ofNat 8 i]) 1176)).take 256

/-- The matrix times a vector of transforms. -/
def applyA (seed : List Byte) (v : List Poly) : List Poly :=
  (List.range rows).map fun i => v.zipIdx.foldl (fun s e => add s (times (entry seed i e.2) e.1)) Poly.zero

/-- The challenge: tau coefficients of 1 or -1. At place i a byte at most i is looked for in the stream. -/
def place : Nat → Nat → Nat → List Byte → Poly → Poly
  | 0, _, _, _, a => a
  | _, _, _, [], a => a
  | f + 1, i, signs, b :: r, a =>
    if 255 < i then a
    else if i < b.toNat then place f i signs r a
    else place f (i + 1) (signs / 2) r ((a.set i (a.getD b.toNat 0)).set b.toNat (if signs % 2 = 1 then q - 1 else 1))

def challenge (c : List Byte) : Poly :=
  let l := shake256 c 544
  place 544 (256 - tau) (natOfBytes (l.take 8)) (l.drop 8) Poly.zero

/-- The mask vector of an attempt. -/
def maskVec (seed : List Byte) (k : Nat) : List Poly :=
  (List.range cols).map fun r => unpack 20 gamma1 (shake256 (seed ++ bytesOfNat 2 (k + r)) 640)

/-! ### High and low bits, hints -/

/-- x = high × 2 gamma2 + low, low of least magnitude; the top value counts as high 0. -/
def split (x : Nat) : Nat × Int :=
  let r := x % (2 * gamma2)
  let low : Int := if r ≤ gamma2 then r else (r : Int) - 2 * gamma2
  if (x : Int) - low = q - 1 then (0, low - 1) else (((x : Int) - low).toNat / (2 * gamma2), low)
def high (x : Nat) : Nat := (split x).1

/-- The high part, corrected by a hint. -/
def useHint (h : Bool) (x : Nat) : Nat :=
  let (u, l) := split x
  if !h then u else if 0 < l then (u + 1) % 16 else (u + 15) % 16

/-- The hint bits as bytes: the places of the ones, row by row, then how many there are up to each row. -/
def hintBytes (h : List (List Bool)) : List Byte :=
  let ones (r : List Bool) : List Nat := (List.range 256).filter fun i => r.getD i false
  let l := h.flatMap ones
  ((l ++ List.replicate (omega - l.length) 0) ++ (List.range rows).map fun i => ((h.take (i + 1)).flatMap ones).length).map (BitVec.ofNat 8)

/-- The places of a row rise strictly. -/
def rising : List Nat → Bool
  | a :: b :: r => decide (a < b) && rising (b :: r)
  | _ => true

/-- The places of the ones, by row; none where the bytes are no hint's. -/
def hintRows (y : List Byte) : Option (List (List Nat)) :=
  let l := y.map (·.toNat)
  let ends := 0 :: l.drop omega
  let rs := (List.range rows).map fun i => (l.take (ends.getD (i + 1) 0)).drop (ends.getD i 0)
  let ok := (List.range rows).all fun i => decide (ends.getD i 0 ≤ ends.getD (i + 1) 0) && decide (ends.getD (i + 1) 0 ≤ omega)
  if ok && rs.all rising && ((l.take omega).drop (ends.getLastD 0)).all (· == 0) then some rs else none

/-! ### Signing and verifying -/

/-- What is signed of a message: the pure scheme with an empty context. -/
def framed (m : List Byte) : List Byte := 0 :: 0 :: m

/-- The commitment's bytes, and the challenge seed. -/
def seedOf (mu : List Byte) (w1 : List (List Nat)) : List Byte := shake256 (mu ++ w1.flatMap (packed 4)) 64

/-- Verify a signature over a message under a public key. -/
def verify (pk m sig : List Byte) : Bool :=
  if pk.length ≠ pkLen || sig.length ≠ sigLen then false
  else match hintRows (sig.drop (64 + 640 * cols)) with
  | none => false
  | some hs =>
    let c := sig.take 64
    let z := (List.range cols).map fun i => unpack 20 gamma1 (part 640 i (sig.drop 64))
    let t := (List.range rows).map fun i => (fields 10 256 (part 320 i (pk.drop 32))).map fun x => x * 2 ^ dropped % q
    let mu := shake256 (shake256 pk 64 ++ framed m) 64
    let ch := ntt (challenge c)
    let az := applyA (pk.take 32) (z.map ntt)
    let w := (List.range rows).map fun i => intt (sub (az.getD i []) (times ch (ntt (t.getD i []))))
    let w1 := (w.zip hs).map fun e => e.1.zipIdx.map fun x => useHint (e.2.contains x.2) x.1
    decide (norm z < gamma1 - beta) && c == seedOf mu w1

/-- The parts of a private key that signing uses. -/
structure Key where
  seed : List Byte
  rand : List Byte
  tr   : List Byte
  s1   : List Poly      -- as transforms
  s2   : List Poly
  t0   : List Poly

def keyOf (sk : List Byte) : Key :=
  let vec (off n w b : Nat) : List Poly := (List.range n).map fun i => ntt (unpack w b (part (32 * w) i (sk.drop off)))
  ⟨sk.take 32, part 32 1 sk, part 64 1 sk, vec 128 cols 3 eta, vec (128 + 96 * cols) rows 3 eta,
    vec (128 + 96 * (cols + rows)) rows dropped (2 ^ (dropped - 1))⟩

/-- One attempt at a signature, none where it is rejected. -/
def attempt (k : Key) (mu seed : List Byte) (n : Nat) : Option (List Byte) :=
  let y := maskVec seed (cols * n)
  let w := (applyA k.seed (y.map ntt)).map intt
  let c := seedOf mu (w.map fun a => a.map high)
  let ch := ntt (challenge c)
  let by' (v : List Poly) : List Poly := v.map fun a => intt (times ch a)
  let z := List.zipWith add y (by' k.s1)
  let r := List.zipWith sub w (by' k.s2)
  let ct := by' k.t0
  let low := r.foldl (fun m a => a.foldl (fun m x => max m (split x).2.natAbs) m) 0
  let h := List.zipWith (fun r u => List.zipWith (fun r u => high r != high ((r + u) % q)) r u) r ct
  if gamma1 - beta ≤ norm z || gamma2 - beta ≤ low || gamma2 ≤ norm ct || omega < (h.map fun a => (a.filter id).length).sum then none
  else some (c ++ z.flatMap (pack 20 gamma1) ++ hintBytes h)

/-- Attempts from number n on, f of them. -/
def attempts (k : Key) (mu seed : List Byte) : Nat → Nat → List Byte
  | 0, _ => List.replicate sigLen 0
  | f + 1, n => match attempt k mu seed n with
    | some s => s
    | none => attempts k mu seed f (n + 1)

/-- Sign a message under a private key with 32 bytes of randomness: at most 814 attempts, FIPS 204's bound. -/
def sign (sk m rnd : List Byte) : List Byte :=
  let k := keyOf sk
  let mu := shake256 (k.tr ++ framed m) 64
  attempts k mu (shake256 (k.rand ++ rnd ++ mu) 64) 814 0

end MlDsa

end Sys2Proof.Machine
end

