-- ==== Sys2Proof/Machine/BringUp.lean ====
section
/-! DEFINITION. Bring-up (25 R411), the configuration record (25 R412), attestation (25 R413), and what the machine takes from outside
(log 16). -/

namespace Sys2Proof.Machine

open Sys2Proof

/-- An ML-DSA-87 signature over the SHA3-512 digest of bytes verifies under a public key (00 R7; log 15). -/
def signedBy (key : BitVec 20736) (l sig : List Byte) : Bool :=
  MlDsa.verify (bytesOfNat MlDsa.pkLen key.toNat) (bytesOfNat 64 (sha3_512 l).toNat) sig

/-- Bytes of a signature. -/
def sigLen : Nat := MlDsa.sigLen

/-! ### The configuration record (25 R412) -/

/-- An entry of a record. -/
structure CfgEntry where
  space : Nat
  inst  : Nat
  off   : Nat
  value : Word
  bad   : Bool           -- a reserved field is nonzero
deriving DecidableEq, Repr

/-- A record as read. -/
structure CfgRecord where
  format  : Nat
  serial  : Nat
  entries : List CfgEntry
  body    : List Byte    -- the bytes that are signed
  sig     : List Byte
  whole   : List Byte    -- the record's bytes
deriving DecidableEq, Repr

/-- The number that 4 bytes at k spell. -/
def word4 (l : List Byte) (k : Nat) : Nat := natOfBytes ((l.drop k).take 4)

/-- Read m entries. -/
def readEntries : Nat → List Byte → List CfgEntry
  | 0, _ => []
  | n + 1, l =>
    let w := word4 l 0
    ⟨fieldAt w 0 4, fieldAt w 4 8, word4 l 4, BitVec.ofNat 32 (word4 l 8), w / 2 ^ 12 != 0 || word4 l 12 != 0⟩ :: readEntries n (l.drop 16)

/-- Read a record; none where its bytes end too early or its entry count is out of range. -/
def readRecord (l : List Byte) : Option CfgRecord :=
  let m := word4 l 4
  if m = 0 || 65536 < m || l.length < 16 + 16 * m + sigLen then none
  else some { format := word4 l 0, serial := natOfBytes ((l.drop 8).take 8), entries := readEntries m (l.drop 16), body := l.take (16 + 16 * m),
              sig := (l.drop (16 + 16 * m)).take sigLen, whole := l.take (16 + 16 * m + sigLen) }

/-- An entry names a word that exists (25 R412). -/
def CfgEntry.ok (e : CfgEntry) : Bool := !e.bad && decide (e.space ≤ 5) && decide (e.inst < spaceSize e.space) && (wordMask e.space e.off).isSome

namespace State

/-- Reset values of words that no entry gives: the collective timeout (24 R385), the Filler priority (09 R174). -/
def setDefaults (s : State) : State := (List.range 8).foldl (fun s p => (s.setCfgW 2 p 0x03C 2000).setCfgW 2 p 0x040 0x200) s

/-- Set the reset value that an entry gives; a band weight that is negative or a NaN is stored as +0.0 (23 R377). -/
def setEntry (s : State) (e : CfgEntry) : State :=
  let v := e.value &&& BitVec.ofNat 32 ((wordMask e.space e.off).getD 0)
  let v := if e.space = 1 && 0x210 ≤ e.off && e.off < 0x230 then weightStored v else v
  if e.space = 5 then s.setCfgW 2 e.inst (0x1000 + e.off) v else s.setCfgW e.space e.inst e.off v

/-- Memory modules that training finds: how many, and the size code of the smallest (25 R404). -/
def found (s : State) : Nat × Nat :=
  let ms := s.modules.filter fun e => decide (e.1 < 48)
  (ms.length, ms.foldl (fun n e => min n e.2.size) 2)

/-- The floors of all partitions over their active clusters (23 R374). -/
def floorsOk (s : State) : Bool := decide (((List.range 24).map s.floorOf).sum ≤ tokens)

/-- The range of a partition's device memory. -/
def partRange (s : State) (p : Nat) : Nat × Nat := (s.cfgD 2 p 0x010, s.cfgD 2 p 0x018)

/-- The words that a record has set satisfy R412; n × S is what training will find. The Filler's limits are not among them (09 R174; log 91). -/
def wordsOk (s : State) : Bool :=
  let ps := List.range 8
  let (n, z) := s.found
  let cap := n * 2 ^ (35 + z)
  s.floorsOk && ((List.range 8).all fun d => s.dieValid d && s.thresholdsOk d 0 0) &&
    ps.all (fun p =>
      let (a, b) := s.partRange p
      decide (b ≤ cap) && ps.all (fun q => q == p || decide (b ≤ (s.partRange q).1) || decide ((s.partRange q).2 ≤ a))) &&
    s.partsBuilt.all (fun p =>
        ((List.range (fieldAt (s.cfgW 2 p 0x200).toNat 0 13)).filter fun d => bitAt (s.peerEntry p d) 2).length == 1 &&
        decide (3049 ≤ fieldAt (s.cfgW 2 p 0x124).toNat 0 20) && decide (97 ≤ fieldAt (s.cfgW 2 p 0x120).toNat 0 13))

/-- Load a record: none where it is rejected. -/
def loadRecord (s : State) (l : List Byte) : Option (CfgRecord × State) :=
  match readRecord l with
  | none => none
  | some r =>
    if r.format ≠ 1 || !signedBy Config.recordKey r.body r.sig || r.entries.any fun e => !e.ok then none
    else
      let s := r.entries.foldl setEntry s.setDefaults
      if s.wordsOk then some (r, s) else none

/-! ### Phases (25 R411) -/

/-- The bring-up phase changes: vector 2. -/
def setPhase (s : State) (k : Nat) : State :=
  (s.setCfgW 3 0 0x500 ((s.cfgW 3 0 0x500 &&& 0xFFFFFF00) ||| BitVec.ofNat 32 k)).msix 2

/-- A phase fails. -/
def setErr (s : State) (k : Nat) : State :=
  s.setCfgW 3 0 0x500 ((s.cfgW 3 0 0x500 &&& 0xFFFF00FF) ||| BitVec.ofNat 32 (256 * k))

/-- Extend the measurement by the digest of bytes (25 R413). -/
def measure (s : State) (l : List Byte) : State :=
  { s with meas := sha3_512 (bytesOfNat 64 s.meas.toNat ++ bytesOfNat 64 (sha3_512 l).toNat) }

/-- Firmware: its payload, and the check of the signature at its end (00 R7; log 84). -/
def payload (l : List Byte) : List Byte := l.take (l.length - sigLen)
def firmwareOk (l : List Byte) : Bool := signedBy Config.tameusKey (payload l) (l.drop (l.length - sigLen))

/-- Load the Curator firmware into each present Curator's private memory; each starts at its first byte (log 8). -/
def loadCurators (s : State) (l : List Byte) : State :=
  ((List.range 96).filter s.corePresent).foldl (fun s c => s.mapCore c fun _ => { Core.fresh with mem := Cells.setSlice [] 0 (l.take (2 ^ 18)) }) s

/-- Memory link training; every row and every module byte is zero (phase 0x05). -/
def trainMemory (s : State) : State :=
  let ms := s.modules.filter fun e => decide (e.1 < 48)
  let links := (ms.map fun e => 2 ^ e.1).sum
  let modeA := ((ms.filter fun e => !e.2.modeB).map fun e => 2 ^ e.1).sum
  let w (x : Nat) : Word := BitVec.ofNat 32 x
  let s := (s.setCfgW 3 0 0x504 (w links)).setCfgW 3 0 0x508 (w (links / 2 ^ 32))
  let s := (s.setCfgW 3 0 0x50C (w modeA)).setCfgW 3 0 0x510 (w (modeA / 2 ^ 32))
  { s.setCfgW 3 0 0x514 (w s.found.2) with dev := [], annex := [], badRows := [], symErrs := s.symErrs.filter (·.hard), mfailed := [] }

/-- Partitions, peer tables and market tables are built; the spare stands by (phase 0x06). -/
def buildTables (s : State) : State :=
  let s := s.partsBuilt.foldl (fun s p => s.putPart p Part.fresh) s
  { (List.range 8).foldl (fun s d => s.forceDie d) s with spare := true }

/-- The link status words as bytes. -/
def linkWords (s : State) : List Byte := (List.range 10).flatMap fun k => bytesOfNat 4 (s.cfgW 3 0 (0x500 + 4 * k)).toNat

/-- Phases 0x04 to 0x08 (25 R411). That UCIe training or the test of the spare fails is an input (log 16). -/
def finishBringUp (s : State) : State :=
  let s := s.setPhase 4
  if s.bringBad.contains 4 || !firmwareOk s.flashCur then s.setErr 4
  else
    let s := ((s.loadCurators (payload s.flashCur)).measure (payload s.flashCur)).setPhase 5
    if s.found.1 = 0 then s.setErr 5
    else
      let s := s.trainMemory.setPhase 6
      if s.bringBad.contains 6 then s.setErr 6
      else
        let s := (s.buildTables.setPhase 7).showLinks.setPhase 8
        let s := s.measure s.linkWords
        s.setCfgW 3 0 0x500 (s.cfgW 3 0 0x500 ||| 0x10000)

/-- The bytes of the record window (25 R411). -/
def windowBytes (s : State) : List Byte := (List.range 278528).flatMap fun k => bytesOfNat 4 (s.cfgW 3 0 (0x10000 + 4 * k)).toNat

/-- The host has written a record. -/
def windowUsed (s : State) : Bool := s.cfg.any fun e => decide (cfgKey 3 0 0x10000 ≤ e.1) && decide (e.1 < cfgKey 3 0 0x120000)

end State

namespace State

/-- Phases 0x01 and 0x02, and the record load begins. -/
def bootHub (s : State) : State :=
  let s := s.setPhase 1
  if !firmwareOk s.flashHub then s.setErr 1 else ((s.measure (payload s.flashHub)).setPhase 2).setPhase 3

/-- What an earlier record has set is dropped, and the measurement, before a new record is taken after an error of a later phase (log 59). -/
def againFrom (s : State) (err : Nat) : State :=
  if err = 0 || err = 3 then s
  else ({ s with cfg := s.cfg.filter fun e => e.1 == cfgKey 3 0 0x500 || (decide (cfgKey 3 0 0x10000 ≤ e.1) && decide (e.1 < cfgKey 3 0 0x120000)),
                 meas := 0 } : State).bootHub

/-- The word of phase and error shows no error. -/
def clearErr (s : State) : State := s.setCfgW 3 0 0x500 (s.cfgW 3 0 0x500 &&& 0xFFFF00FF)

/-- A record is taken: what it sets, and the later phases; a rejected one sets nothing. The window is empty again, for a new one. -/
def takeRecord (s : State) (l : List Byte) : State :=
  let t := { s with cfg := s.cfg.filter fun e => decide (e.1 < cfgKey 3 0 0x10000) || decide (cfgKey 3 0 0x120000 ≤ e.1) }
  match t.loadRecord l with
  | none => t.setErr 3
  | some (r, u) => ({ u with serial := BitVec.ofNat 64 r.serial }.measure r.whole).finishBringUp

end State

/-- BRING_UP (25 R411): power-on runs phases 0x01 and 0x02 and enters the record load. -/
def execBringUp (s : State) : Out := .next (if s.cfgW 3 0 0x500 ≠ 0 then s else s.bootHub)

/-- RECORD_WINDOW_DEADLINE (25 R411): 100 ms after power-on the record is taken, the host's in place of the flash's, and the later phases
run. After an error a new record in the window is taken, bring-up running again as far as that (log 59). -/
def execRecordWindowDeadline (s : State) : Out :=
  let w := s.cfgW 3 0 0x500
  let err := fieldAt w.toNat 8 8
  if (err = 0 && fieldAt w.toNat 0 8 ≠ 3) || s.clk.toNat < 100000000 || (err ≠ 0 && !s.windowUsed) then .next s
  else
    let l := if s.windowUsed then s.windowBytes else s.flashRec
    let s := (s.clearErr).againFrom err
    .next (if s.broken then s else s.takeRecord l)

/-! ### Attestation (25 R413) -/

/-- ATTESTATION_REQUEST: a write of 1 to device word 0x20_0020. -/
def execAttestationRequest (s : State) : Out := .next (if s.broken then s else s.devWrite 0x200020 1)

namespace State

/-- The nonce as written. -/
def nonce (s : State) : List Byte := (List.range 8).flatMap fun k => bytesOfNat 4 (s.cfgW 3 0 (0x200000 + 4 * k)).toNat

/-- The report's fields, and the report: the fields with the device's signature over their digest. -/
def reportFields (s : State) : List Byte :=
  bytesOfNat 64 s.meas.toNat ++ s.nonce ++ bytesOfNat 8 s.serial.toNat ++ bytesOfNat 32 Config.identity.toNat
def report (s : State) : List Byte × State :=
  let (n, s) := s.draw
  (s.reportFields ++ MlDsa.sign (bytesOfNat MlDsa.skLen Config.deviceKey.toNat) (bytesOfNat 64 (sha3_512 s.reportFields).toNat)
    (bytesOfNat 32 (Config.signRandom n).toNat), s)

end State

/-- ATTESTATION_REPORT_READY: the report stands at 0x20_1000, the request word reads 2. -/
def execAttestationReportReady (s : State) : Out :=
  if s.cfgW 3 0 0x200020 ≠ 1 || s.broken then .next s
  else
    let (r, s) := s.report
    let s := (List.range ((r.length + 3) / 4)).foldl (fun s k => s.setCfgW 3 0 (0x201000 + 4 * k) (BitVec.ofNat 32 (word4 r (4 * k)))) s
    .next (s.setCfgW 3 0 0x200020 2)

/-! ### Words that are no instruction, and the world outside -/

/-- An unassigned opcode (12 R225). -/
def execIllegalInstruction (s : State) : Out := s.issuing (.next (s.raiseNow .illegalInstruction))

/-- A prefix whose word it does not prefix (12 R216, R225). -/
def execExtensionPrefix (_h : BitVec 21) (s : State) : Out := s.issuing (.next (s.raiseNow .illegalField))

namespace State

/-- A core is lost: its bit of the device words clears (24 R398). -/
def loseCore (s : State) (c : Nat) : State :=
  let o := 0x420 + 4 * (c / 32)
  s.setCfgW 3 0 o (s.cfgW 3 0 o &&& ~~~(1#32 <<< (c % 32)))

/-- A sensor shows a temperature (23 R381). -/
def sense (s : State) (c temp : Nat) : State :=
  let x := s.cluster c
  let hot := decide (fieldAt (s.dieForce (c / 3) 0x2D0).toNat 0 12 < temp)
  s.putCluster c { x with temp := temp, hotAll := x.hotAll && hot }

/-- Bring-up has trained the Nalmond links: their status words follow them (25 R404). -/
def showNow (s : State) : State := if 7 ≤ fieldAt (s.cfgW 3 0 0x500).toNat 0 8 then s.showLinks else s

/-- What comes from outside (log 16). A phase named as failing fails until it is named again. -/
def take (s : State) : Input → State
  | .module i (some m) => { s with modules := s.modules.set i m }
  | .module i none => { s with modules := s.modules.del i }
  | .nalmond j (some n) => { s with nalmond := s.nalmond.set j n }.showNow
  | .nalmond j none => { s with nalmond := s.nalmond.del j }.showNow
  | .hostLink up => { (if up then s else s.linkReset) with hostUp := up }
  | .flash a b c => { s with flashHub := a, flashRec := b, flashCur := c }
  | .sensor c t => s.sense c t
  | .badRow l b => if s.rowBad (.mem l.row) b then s else s.markBad (.mem l.row) b fun _ => 0
  | .symErr e => s.symErr e
  | .peerBad d va => { s with peerBad := (d, va / 65536) :: s.peerBad.erase (d, va / 65536) }
  | .peerPin d a b on => { s with peerPins := if on then (d, a, b) :: s.peerPins.erase (d, a, b) else s.peerPins.erase (d, a, b) }
  | .peerFull d rs => { s with peerFull := (s.peerFull.filter fun e => e.1 != d) ++ rs.map fun r => (d, r.1, r.2) }
  | .peerExhausted d rs => s.peerExhausted d rs
  | .flitOk j => s.mapLink j fun n => { n with retry := 0 }
  | .bringFail k => { s with bringBad := if s.bringBad.contains k then s.bringBad.erase k else k :: s.bringBad }
  | .coreLost c => s.loseCore c
  | .cellErr e => { s with cellErrs := s.cellErrs ++ [e] }
  | .peerByte d va b => { s with peers := s.peers.set (2 ^ 57 * d + va) b }
  | .mask v => { s with msixMask := s.msixMask ||| (1#4 <<< v) }

end State

end Sys2Proof.Machine
end

