-- ==== Sys2Proof/Machine/ProfileMath.lean ====
section
/-! DEFINITION. Envelope arithmetic (11 R200-R210): every decision on exact rationals, each stored coefficient rounded once. An exact
zero that arises from arithmetic rounds to +0.0 (log 23). -/

namespace Sys2Proof.Machine

open Sys2Proof

/-- A domain end: none stands for the infinity on its side. -/
abbrev PEnd := Option Q

namespace Prof

/-- The void profile (11 R200). -/
def void : Prof := ⟨0x7F800000, 0xFF800000, []⟩

/-- lo > hi. -/
def isVoid (p : Prof) : Bool := (f32 p.hi).lt (f32 p.lo)

end Prof

/-- A finite end as a number, none for an infinity. -/
def endOf (w : Word) : PEnd :=
  match f32 w with
  | .fin s m => some (FVal.fin s m).toQ
  | _ => none

def Line.aq (l : Line) : Q := (f32 l.a).toQ
def Line.bq (l : Line) : Q := (f32 l.b).toQ
/-- a x + b, exact. -/
def Line.eval (l : Line) (x : Q) : Q := (l.aq.mul x).add l.bq

/-- The exact crossing of two lines of ascending slope (11 R201). -/
def cross (l m : Line) : Q := (l.bq.sub m.bq).div (m.aq.sub l.aq)

/-! ### The envelope (11 R201, R202) -/

/-- Put a line into a list of ascending slopes: of parallel lines the larger intercept stays, of equal lines the earlier. -/
def insLine (l : Line) : List Line → List Line
  | [] => [l]
  | m :: r =>
    if l.aq.lt m.aq then l :: m :: r
    else if m.aq.lt l.aq then m :: insLine l r
    else if m.bq.lt l.bq then l :: r else m :: r

/-- Push a line of greater slope onto the pieces found so far, newest first, each with its left end. -/
def pushLine (lo hi : PEnd) (l : Line) : List (Line × PEnd) → List (Line × PEnd)
  | [] => [(l, lo)]
  | (m, x) :: r =>
    let c := cross m l
    let gone := match x with
      | some y => c.le y
      | none => false
    let out := match hi with
      | some h => h.le c
      | none => false
    if gone then pushLine lo hi l r else if out then (m, x) :: r else (l, some c) :: (m, x) :: r

/-- The greatest line at a point: of ties the largest slope, then the earliest (11 R202). -/
def topAt (val : Line → FVal) : List Line → Option Line
  | [] => none
  | l :: r => match topAt val r with
    | none => some l
    | some m =>
      if (val l).lt (val m) then some m
      else if (val m).lt (val l) then some l
      else if l.aq.lt m.aq then some m else some l

/-- The value of a line at a domain end: its limit at an infinity. -/
def limitAt (l : Line) (x : FVal) : FVal :=
  match x with
  | .fin s m => .ofQ (l.eval (FVal.fin s m).toQ)
  | .inf s => if l.aq.isZero then f32 l.b else .inf (s != l.aq.isNeg)
  | .nan => .nan

/-- The lines of the candidates, in candidate order, that make the normal form on [lo, hi] (11 R202); on a single point at an infinity parallel lines
leave the earlier (log 92). -/
def envelope (cs : List Line) (lo hi : Word) : List Line :=
  if (f32 hi).lt (f32 lo) then []
  else if (f32 lo).eq (f32 hi) then (topAt (fun l => limitAt l (f32 lo)) cs).toList
  else
    let sorted := cs.foldl (fun ls l => insLine l ls) []
    ((sorted.foldl (fun st l => pushLine (endOf lo) (endOf hi) l st) []).map (·.1)).reverse

/-! ### Simplification (11 R210) -/

/-- How far line l rises above the envelope of its neighbours: none for +∞. -/
def rise (lo hi : PEnd) (before : Option Line) (l : Line) (after : Option Line) : Option Q :=
  match before, after with
  | some a, some c => let x := cross a c; some ((l.eval x).sub (a.eval x))
  | none, some c => lo.map fun x => (l.eval x).sub (c.eval x)
  | some a, none => hi.map fun x => (l.eval x).sub (a.eval x)
  | none, none => none

/-- One pass in ascending slope; `acc` holds the lines kept so far, newest first. -/
def simpPass (lo hi : PEnd) (tau : FVal) : List Line → List Line → List Line
  | acc, [] => acc.reverse
  | acc, l :: r =>
    match rise lo hi acc.head? l r.head? with
    | some d => if tau.lt (.ofQ d) then simpPass lo hi tau (l :: acc) r else simpPass lo hi tau acc r
    | none => simpPass lo hi tau (l :: acc) r

/-- Simplify lines in normal form under a tolerance. -/
def simplify (ls : List Line) (lo hi : Word) (tau : Word) : List Line := simpPass (endOf lo) (endOf hi) (f32 tau) [] ls

/-! ### How a result is formed (11 R202) -/

/-- A coefficient rounded once; an overflow gives the largest finite value. Its overflow flag is that of 04 R79 (log 93). -/
def coef (v : FVal) : Word × AFlags :=
  let (c, f) := rne32 v
  (if c.setWidth 31 = 0x7F800000 then (if c.getLsbD 31 then 0xFF7FFFFF else 0x7F7FFFFF) else c, f)

/-- A domain end rounded once; the overflow flag only where it overflows to an infinity (11 R202). -/
def endRne (v : FVal) : Word × AFlags :=
  let (c, f) := rne32 v
  (c, if c.setWidth 31 = 0x7F800000 then f else f &&& ~~~flOverflow)

/-- An exact candidate. -/
structure Cand where
  a : FVal
  b : FVal
  t : BitVec 16

/-- A line as a candidate. -/
def Line.cand (l : Line) : Cand := ⟨f32 l.a, f32 l.b, l.t⟩

/-- A result: the profile, none where it has more than 512 lines; and the flags. -/
def formResult (cs : List Cand) (lo hi : FVal) (tau : Word) : Option Prof × AFlags :=
  let rs := cs.map fun c => (coef c.a, coef c.b, c.t)
  let fl := rs.foldl (fun f r => f ||| r.1.2 ||| r.2.1.2) 0
  let (lw, fl1) := endRne lo
  let (hw, fl2) := endRne hi
  let fl := fl ||| fl1 ||| fl2
  if (f32 hw).lt (f32 lw) then (some Prof.void, fl)
  else
    let env := envelope (rs.map fun r => ⟨r.1.1, r.2.1.1, r.2.2⟩) lw hw
    let env := if 512 < env.length then simplify env lw hw tau else env
    (if 512 < env.length then none else some ⟨lw, hw, env⟩, fl)

/-! ### Sources -/

/-- The pieces of a profile: line, left end, right end (11 R205). -/
def pieces (lo hi : PEnd) : List Line → List (Line × PEnd × PEnd)
  | [] => []
  | [l] => [(l, lo, hi)]
  | l :: m :: r => (l, lo, some (cross l m)) :: pieces (some (cross l m)) hi (m :: r)

/-- The larger of two left ends, the smaller of two right ends. -/
def maxLeft : PEnd → PEnd → PEnd
  | none, y => y
  | x, none => x
  | some x, some y => some (x.max y)
def minRight : PEnd → PEnd → PEnd
  | none, y => y
  | x, none => x
  | some x, some y => some (x.min y)

/-- An interval has positive length. -/
def positive : PEnd → PEnd → Bool
  | some x, some y => x.lt y
  | _, _ => true

/-- Tag of a sum (11 R205). -/
def sumTag (tm : Nat) (t u : BitVec 16) : BitVec 16 := if tm = 0 then t else if tm = 1 then u else (t.setWidth 8) ++ (u.setWidth 8)

/-- The lower and upper end of an intersection (11 R203). -/
def lower (f g : Prof) : Word := if (f32 f.lo).lt (f32 g.lo) then g.lo else f.lo
def upper (f g : Prof) : Word := if (f32 g.hi).lt (f32 f.hi) then g.hi else f.hi

def pMax (f g : Prof) (tau : Word) : Option Prof × AFlags :=
  formResult (f.lines.map Line.cand ++ g.lines.map Line.cand) (f32 (lower f g)) (f32 (upper f g)) tau

/-- Sum (11 R205). Pairs of one piece of f come in order; pieces ascend, so the left ends of the overlaps do. At a single point that is
an infinity only the pieces that reach it overlap. Two zeros of minus sign add to one (log 23). -/
def pAdd (tm : Nat) (f g : Prof) (tau : Word) : Option Prof × AFlags :=
  let lo := lower f g
  let hi := upper f g
  let point := (f32 lo).eq (f32 hi)
  let meets (x y : Line × PEnd × PEnd) : Bool :=
    let l := maxLeft (maxLeft x.2.1 y.2.1) (endOf lo)
    let r := minRight (minRight x.2.2 y.2.2) (endOf hi)
    if point then (match f32 lo, l, r with
      | .inf s, _, _ => if s then x.2.1.isNone && y.2.1.isNone else x.2.2.isNone && y.2.2.isNone
      | _, some a, some b => a.le b
      | _, _, _ => true)
    else positive l r
  let cs := (pieces (endOf f.lo) (endOf f.hi) f.lines).flatMap fun x =>
    ((pieces (endOf g.lo) (endOf g.hi) g.lines).filter (meets x)).map fun y =>
      (⟨((f32 x.1.a).add (f32 y.1.a)).1, ((f32 x.1.b).add (f32 y.1.b)).1, sumTag tm x.1.t y.1.t⟩ : Cand)
  formResult (if (f32 hi).lt (f32 lo) then [] else cs) (f32 lo) (f32 hi) tau

/-- The exact conjugate of a profile with lines at slope a: none where it is +∞ (11 R206, R207). -/
def conjAt (lo hi : PEnd) (a : Q) : List Line → Option Line → Option Q
  | [], none => none
  | [], some l => hi.map fun x => (a.mul x).sub (l.eval x)
  | m :: r, before =>
    if a.eq m.aq then some m.bq.neg
    else if a.lt m.aq then
      match before with
      | none => lo.map fun x => (a.mul x).sub (m.eval x)
      | some l => let x := cross l m; some ((a.mul x).sub (l.eval x))
    else conjAt lo hi a r (some m)

/-- −∞ + finite = −∞ (11 R206); of unlike infinities the first stands (log 82). -/
def endSum (x y : Word) : FVal :=
  match f32 x, f32 y with
  | .inf s, _ => .inf s
  | _, .inf s => .inf s
  | a, b => (a.add b).1

/-- Infimal convolution (11 R206). -/
def pInf (f g : Prof) (tau : Word) : Option Prof × AFlags :=
  if f.isVoid || g.isVoid then (some Prof.void, 0)
  else
    let side (p q : Prof) : List Cand := p.lines.filterMap fun l =>
      (conjAt (endOf q.lo) (endOf q.hi) l.aq q.lines none).map fun c => ⟨f32 l.a, .ofQ (l.bq.sub c), l.t⟩
    formResult (if f.lines.isEmpty || g.lines.isEmpty then [] else side f g ++ side g f) (endSum f.lo g.lo) (endSum f.hi g.hi) tau

/-- The vertices of a profile with lines, in ascending x, each with −f there and its tag (11 R207). -/
def vertices (lo hi : PEnd) (ls : List Line) : List Cand :=
  let first := match lo, ls.head? with
    | some x, some l => [(⟨.ofQ x, .ofQ (l.eval x).neg, l.t ^^^ 0x8000⟩ : Cand)]
    | _, _ => []
  let rec mid : List Line → List Cand
    | l :: m :: r => let x := cross l m; ⟨.ofQ x, .ofQ (l.eval x).neg, l.t⟩ :: mid (m :: r)
    | _ => []
  let last := match hi, ls.getLast? with
    | some x, some l => [(⟨.ofQ x, .ofQ (l.eval x).neg, l.t⟩ : Cand)]
    | _, _ => []
  first ++ mid ls ++ last

/-- Conjugate (11 R207). A zero changes its sign (log 23); a domain that is the single point at an infinity has both ends infinite (log 94). -/
def pConj (f : Prof) (tau : Word) : Option Prof × AFlags :=
  if f.isVoid then (some Prof.empty, 0)
  else match f.lines, endOf f.lo, endOf f.hi with
  | [], _, _ => (some Prof.void, 0)
  | [l], none, none => formResult [⟨.fin false Q.zero, (f32 l.b).neg, l.t⟩] (f32 l.a) (f32 l.a) tau
  | l :: r, lo, hi =>
    let m := (l :: r).getLast?.getD l
    formResult (vertices lo hi (l :: r)) (if lo.isNone then f32 l.a else .inf true) (if hi.isNone then f32 m.a else .inf false) tau

def pSimp (f : Prof) (tau : Word) : Option Prof × AFlags :=
  if f.isVoid then (some Prof.void, 0) else formResult ((simplify f.lines f.lo f.hi tau).map Line.cand) (f32 f.lo) (f32 f.hi) tau

/-- Insert lines (11 R204); `bad`: a lane gave a slope or intercept that is not finite. -/
def pIns (e : Prof) (ls : List Line) (bad : Bool) (tau : Word) : Option Prof × AFlags :=
  let (p, f) := formResult (e.lines.map Line.cand ++ ls.map Line.cand) (f32 e.lo) (f32 e.hi) tau
  (p, f ||| flIf bad flInvalid)

/-! ### Reading a profile (11 R200, R208, R209) -/

/-- x lies in the domain. -/
def inDomain (p : Prof) (x : FVal) : Bool := !p.isVoid && !x.lt (f32 p.lo) && !(f32 p.hi).lt x && !x.isNan

/-- The line that is read at x (11 R208): at an infinity the extreme slope, else the greatest, of ties the largest slope. -/
def lineAt (p : Prof) (x : FVal) : Option Line :=
  match x with
  | .inf s => if s then p.lines.head? else p.lines.getLast?
  | x => topAt (fun l => limitAt l x) p.lines

def pEval (p : Prof) (w : Word) : Word × AFlags :=
  let x := f32 w
  if x.isNan then (0x7FC00000, 0)
  else if !inDomain p x then (0x7F800000, 0)
  else match lineAt p x with
  | none => (0xFF800000, 0)
  | some l => match limitAt l x with
    | .inf s => (if s then 0xFF800000 else 0x7F800000, 0)
    | v => rne32 v

def pArg (p : Prof) (w : Word) : Word :=
  let x := f32 w
  if x.isNan || !inDomain p x then 0xFFFF
  else match lineAt p x with
  | none => 0xFFFF
  | some l => l.t.setWidth 32

/-- The four words that pget reads at index i (11 R209). -/
def pGet (p : Prof) (i : Nat) : Word × Word × Word × Word :=
  let n := p.lines.length
  if i = n then (p.lo, p.hi, 0xFFFFFFFE, BitVec.ofNat 32 n)
  else match p.lines[i]? with
  | none => (0, 0, 0xFFFFFFFF, 0)
  | some l => (l.a, l.b, l.t.setWidth 32, match p.lines[i + 1]? with
    | some m => (rne32 (.ofQ (cross l m))).1
    | none => p.hi)

end Sys2Proof.Machine
end

