-- ==== Sys2Proof/Machine/ProfileUnit.lean ====
section
/-! DEFINITION. Profile words and the Profile unit (15 R299, R300; 11 R203-R212). -/

namespace Sys2Proof.Machine

open Sys2Proof

namespace State

/-- The core whose unit a team uses (11 R212). -/
def unitCore (s : State) (t : Nat) (core : Nat) : Nat := ((s.team t).map (·.core)).getD core

/-- A profile register that the team has not declared (12 R221). -/
def badProf (s : State) (t : Nat) (es : List Nat) : Bool := es.any fun e => decide (((s.team t).map (·.nprof)).getD 0 ≤ e)

/-- A profile operation that writes a profile register is synchronous in this state (11 R211): in the handler it proceeds as with the enable at 0
(13 R267). -/
def profSync (g : Group) : Bool := g.canEnter .profile

/-- Issue a profile word on the profile registers `es`: it queues one operation at the unit, which holds 16, and counts on pf.
`dst`: vector registers that the operation will write; `writes`: it writes a profile register. A synchronous one is taken by the unit,
and its group stays on the word until it has completed or raised its condition (11 R211). -/
def profIssue (s : State) (w : LaneWord) (es rd dst : List Nat) (writes : Bool) (chk : LaneIn → Bool) (f : LaneIn → ProfOp) : Out :=
  s.byGroup fun t0 _ _ =>
    s.laneIssue w false rd dst [] (fun _ => if s.badProf t0 es then some .illegalRegister else none) fun t n i =>
      if chk i then .next (s.raiseNow .illegalOperand)
      else if 255 ≤ i.g.counter .pf || 16 ≤ (s.core (s.unitCore t i.g.core)).prq.length then .next s
      else
        let sync := writes && profSync i.g
        let (h, s) := s.newOp t n i.g (s.glid t n) (some .pf) .ready (.prof (f i) i.g.ptol sync)
        let s := s.mapCore (s.unitCore t i.g.core) fun c => { c with prq := c.prq ++ [h] }
        .next (s.mapGroup t n fun g =>
          if sync then { g with moved := true }
          else ((dst.foldl (fun g r => g.keepVal i.x i.eff r) g).expect true h w.la.toNat (dst.map fun r => (.v r, i.eff, []))).laneDone)

end State

def execPclr (w : LaneWord) (s : State) : Out :=
  let a := w.va.toNat
  s.profIssue w [w.vd.toNat] [a] [] true
    (fun i =>
      let lo := f32 (i.rd a 0)
      let hi := f32 (i.rd a 1)
      decide (i.g.live < 2) || lo.isNan || hi.isNan || hi.lt lo || lo == .inf false || hi == .inf true)
    fun i => .clr w.vd.toNat (i.rd a 0) (i.rd a 1)

/-- A finite FP32 word. -/
def finite32 (w : Word) : Bool := match f32 w with
  | .fin _ _ => true
  | _ => false

def execPins (w : LaneWord) (s : State) : Out :=
  s.profIssue w [w.vd.toNat] [w.va.toNat, w.vb.toNat, w.vc.toNat] [] true (fun _ => false) fun i =>
    let ok (l : Nat) : Bool := finite32 (i.rd w.va.toNat l) && finite32 (i.rd w.vb.toNat l)
    .ins w.vd.toNat (((lanesOf i.eff).filter ok).map fun l =>
      ⟨i.rd w.va.toNat l, i.rd w.vb.toNat l, (i.rd w.vc.toNat l).setWidth 16⟩) ((lanesOf i.eff).any fun l => !ok l)

def execPmax (w : LaneWord) (s : State) : Out :=
  s.profIssue w [w.vd.toNat, w.va.toNat, w.vb.toNat] [] [] true (fun _ => false) fun _ => .max w.vd.toNat w.va.toNat w.vb.toNat
def execPadd (w : LaneWord) (s : State) : Out :=
  s.profIssue w [w.vd.toNat, w.va.toNat, w.vb.toNat] [] [] true (fun _ => false) fun _ =>
    .add w.vd.toNat w.va.toNat w.vb.toNat w.mod.toNat
def execPinf (w : LaneWord) (s : State) : Out :=
  s.profIssue w [w.vd.toNat, w.va.toNat, w.vb.toNat] [] [] true (fun _ => false) fun _ => .inf w.vd.toNat w.va.toNat w.vb.toNat
def execPconj (w : LaneWord) (s : State) : Out :=
  s.profIssue w [w.vd.toNat, w.va.toNat] [] [] true (fun _ => false) fun _ => .conj w.vd.toNat w.va.toNat
def execPsimp (w : LaneWord) (s : State) : Out :=
  s.profIssue w [w.vd.toNat, w.va.toNat] [] [] true (fun _ => false) fun _ => .simp w.vd.toNat w.va.toNat

/-- The x values of a query, by lane. -/
def queryXs (i : LaneIn) (r : Nat) : Cells 32 := (lanesOf i.eff).foldl (fun c l => c.set l (i.rd r l)) []

def execPeval (w : LaneWord) (s : State) : Out :=
  s.profIssue w [w.va.toNat] [w.vb.toNat] [w.vd.toNat] false (fun _ => false) fun i => .eval w.va.toNat (queryXs i w.vb.toNat) i.eff
def execParg (w : LaneWord) (s : State) : Out :=
  s.profIssue w [w.va.toNat] [w.vb.toNat] [w.vd.toNat] false (fun _ => false) fun i => .arg w.va.toNat (queryXs i w.vb.toNat) i.eff
def execPget (w : LaneWord) (s : State) : Out :=
  s.profIssue w [w.va.toNat] [] ((List.range 4).map (w.vd.toNat + ·)) false (fun _ => false) fun i => .get w.vd.toNat w.va.toNat w.ext i.eff

/-! ### The unit -/

/-- The profile that an operation writes: register, result, flags; none where it writes none. -/
def profResult (ps : Nat → Prof) (tau : Word) : ProfOp → Option (Nat × Option Prof × AFlags)
  | .clr e lo hi => some (e, some ⟨lo, hi, []⟩, 0)
  | .ins e ls bad => let r := pIns (ps e) ls bad tau; some (e, r.1, r.2)
  | .max d a b => let r := pMax (ps a) (ps b) tau; some (d, r.1, r.2)
  | .add d a b tm => let r := pAdd tm (ps a) (ps b) tau; some (d, r.1, r.2)
  | .inf d a b => let r := pInf (ps a) (ps b) tau; some (d, r.1, r.2)
  | .conj d a => let r := pConj (ps a) tau; some (d, r.1, r.2)
  | .simp d a => let r := pSimp (ps a) tau; some (d, r.1, r.2)
  | _ => none

/-- What a query writes into word j of its destination in lane l, and its flags. -/
def profQuery (ps : Nat → Prof) : ProfOp → Nat → Nat → Word × AFlags
  | .eval e xs _, _, l => pEval (ps e) (xs.get l)
  | .arg e xs _, _, l => (pArg (ps e) (xs.get l), 0)
  | .get _ e imm _, j, l =>
      let r := pGet (ps e) (imm.toNat + l)
      ((match j with
        | 0 => r.1
        | 1 => r.2.1
        | 2 => r.2.2.1
        | _ => r.2.2.2), 0)
  | _, _, _ => (0, 0)

/-- The lanes of a query. -/
def profLanes : ProfOp → LaneMask
  | .eval _ _ m | .arg _ _ m | .get _ _ _ m => m
  | _ => 0

/-- The profile registers that an operation reads. -/
def profReads : ProfOp → List Nat
  | .clr _ _ _ => []
  | .ins e _ _ | .eval e _ _ | .arg e _ _ | .get _ e _ _ => [e]
  | .max _ a b | .add _ a b _ | .inf _ a b => [a, b]
  | .conj _ a | .simp _ a => [a]

namespace State

/-- Write a profile register. A row of its lines that is written whole is correct again; in another row the bytes of a codeword that cannot
be corrected go on reading zero (24 R394). A register's lines stand one after another, 12 bytes each (log 61). -/
def putProf (s : State) (t d : Nat) (q : Prof) : State :=
  let full (e k : Nat) : Bool := e == d && decide (32 * (k + 1) ≤ 12 * q.lines.length)
  (s.mapTeam t fun x =>
    let bad := (x.badP.filter fun r => !full r.reg r.row).map fun r => if r.reg = d then
        { r with was := some ((List.range 16).map fun i => lineByteOf (32 * r.row + symByte r.b i) q) }
      else r
    { x with badP := bad, profs := x.profs.set d ((bad.filter fun r => r.reg == d).foldl (fun q r =>
      (List.range 16).foldl (fun q i => lineByte (fun _ => 0) (32 * r.row + symByte r.b i) q) q) q) }).dropErrs fun r => match r with
    | .prof u e k => u == t && full e k
    | _ => false

/-- A profile operation reads registers `es`: a row that cannot be corrected is recorded, and halts the team (24 R394). -/
def noteProfs (s : State) (t i core : Nat) (es : List Nat) : State :=
  match (s.team t).bind fun x => x.badP.find? fun r => es.contains r.reg with
  | some e => s.readBad 1 (15 * 2 ^ 60) core (some (.prof t e.reg e.row)) (some (t, some i))
  | none => s

/-- Perform one profile operation as one step (11 R212). A synchronous one completes here and its group moves on, or its overflow enters
the handler, with no effect but the sticky bit and the counter (11 R211, 13 R267). -/
def profPerform (s : State) (h : Nat) (o : Op) (p : ProfOp) (tau : Word) (sync : Bool) : State :=
  let ps (e : Nat) : Prof := (((s.team o.tid).bind fun x => x.profs.get e)).getD Prof.empty
  let s := { s with ops := s.ops.del h }
  let done (g : Group) : Group := if sync then g.laneDone else g
  match profResult ps tau p with
  | some (d, some q, fl) =>
    let s := s.putProf o.tid d q
    (s.mapGroup o.tid o.idx fun g => done (g.setFlags fl)).leaveCounter o.tid o.idx h
  | some (_, none, fl) =>
    if sync && ((s.group o.tid o.idx).map fun g => g.canEnter .profile).getD false then
      ((s.mapGroup o.tid o.idx fun g => g.setSticky .profile).leaveCounter o.tid o.idx h |>.drainSfu o.tid o.idx).mapGroup o.tid o.idx
        fun g => g.enterHandler .profile
    else (s.mapGroup o.tid o.idx fun g => done ((g.setFlags fl).setSticky .profile)).leaveCounter o.tid o.idx h
  | none =>
    let m := profLanes p
    let fl := (lanesOf m).foldl (fun f l => f ||| (profQuery ps p 0 l).2) 0
    let s := s.mapGroup o.tid o.idx fun g =>
      let base (r : Nat) : Nat := match p with
        | .get d _ _ _ => d
        | _ => r
      (g.deliver h fun r _ => match r with
        | .v r => (lanesOf m).foldl (fun c l => c.set l (profQuery ps p (r - base r) l).1) []
        | _ => []).setFlags fl
    s.leaveCounter o.tid o.idx h

end State

/-- PROFILE_OPERATION_COMPLETE (11 R212): the unit of a core performs the operation at the head of its queue. -/
def execProfileOperationComplete (core : Nat) (s : State) : Out :=
  match (s.core core).prq with
  | [] => .next s
  | h :: r =>
    let s := s.mapCore core fun c => { c with prq := r }
    match s.ops.get h with
    | some o => match o.kind with
      | .prof p tau sync => .next (((s.noteProfs o.tid o.idx o.core (profReads p)).profPerform h o p tau sync).settleTeam o.tid)
      | _ => .next s
    | none => .next s

end Sys2Proof.Machine
end

