-- ==== Sys2Proof/Machine/SfuMath.lean ====
section
/-! DEFINITION. The special functions, each correctly rounded to nearest even (14 R280): an enclosure of the exact value at growing
precision until both its ends round alike. Fixed-point numbers below are naturals in units of 2^-P. -/

namespace Sys2Proof.Machine

open Sys2Proof

/-! ### Series -/

/-- Σ y^k/k!, each term truncated; the exponential of y in [0, 1). -/
def expSum (P y : Nat) : Nat → Nat → Nat → Nat → Nat
  | 0, _, _, acc => acc
  | n + 1, k, t, acc => let t' := t * y / 2 ^ P / k; expSum P y n (k + 1) t' (acc + t')

/-- Terms that a series takes at precision P. -/
def terms (P : Nat) : Nat := P / 4 + 16

/-- e^y: a lower value. -/
def expFix (P y : Nat) : Nat := expSum P y (terms P) 1 (2 ^ P) (2 ^ P)

/-- Σ 1/(k 2^k), k from 1 to n. -/
def ln2Sum (P : Nat) : Nat → Nat
  | 0 => 0
  | n + 1 => 2 ^ P / ((n + 1) * 2 ^ (n + 1)) + ln2Sum P n

/-- ln 2, from below. -/
def ln2Fix (P : Nat) : Nat := ln2Sum P (P + 8)
/-- How far below at most. -/
def ln2Err (P : Nat) : Nat := P + 16

/-- Σ z^(2k+1)/(2k+1): artanh z. -/
def atanhSum (P z : Nat) : Nat → Nat → Nat → Nat → Nat
  | 0, _, _, acc => acc
  | n + 1, k, t, acc => let t' := t * z / 2 ^ P * z / 2 ^ P; atanhSum P z n (k + 1) t' (acc + t' / (2 * k + 1))

/-- Σ ±1/(x^(2k+1) (2k+1)): arctan(1/x). -/
def atanInv (P x : Nat) : Nat → Nat → Nat → Int → Int
  | 0, _, _, acc => acc
  | n + 1, k, t, acc =>
      let v : Int := (t / (2 * k + 1) : Nat)
      atanInv P x n (k + 1) (t / (x * x)) (if k % 2 == 0 then acc + v else acc - v)

/-- π by Machin's formula. -/
def piFix (P : Nat) : Int := 16 * atanInv P 5 (terms P) 0 (2 ^ P / 5) 0 - 4 * atanInv P 239 (terms P) 0 (2 ^ P / 239) 0
/-- How far off at most. -/
def piErr (P : Nat) : Nat := 20 * terms P + 64

/-- Alternating Taylor series in y²: the term t is divided by k (k+1) each time. -/
def altSum (P y : Nat) : Nat → Nat → Nat → Bool → Int → Int
  | 0, _, _, _, acc => acc
  | n + 1, k, t, ng, acc =>
      let t' := t * y / 2 ^ P * y / 2 ^ P / (k * (k + 1))
      altSum P y n (k + 2) t' (!ng) (if ng then acc - (t' : Int) else acc + (t' : Int))

/-! ### Enclosures -/

/-- The interval a - e to a + e, in units of 2^-P, times 2^n. -/
def encl (P : Nat) (a : Int) (e : Nat) (n : Int) : Q × Q :=
  ((Q.mul ⟨a - e, 2 ^ P⟩ (Q.pow2 n)), (Q.mul ⟨a + e, 2 ^ P⟩ (Q.pow2 n)))

/-- e^y for y ≥ 0. -/
def expEncl (P : Nat) (y : Q) : Q × Q :=
  let l := ln2Fix P
  let yf := (y.mul (Q.pow2 P)).floor.toNat
  let n := yf / l
  let f := yf - n * l
  encl P (expFix P f) (4 * terms P + 8 * (n * ln2Err P + 2)) n

/-- 2^a. -/
def exp2Encl (P : Nat) (a : Q) : Q × Q :=
  let n := a.floor
  let r := a.sub (Q.ofInt n)
  let y := (r.mul (Q.ofInt (ln2Fix P : Nat))).floor.toNat
  encl P (expFix P y) (4 * terms P + 8 * (ln2Err P + 2)) n

/-- |log2 a| for a > 0, as the integer part and the signed rest: the value is e + the interval. -/
def log2Encl (P : Nat) (a : Q) : Q × Q :=
  let e0 := a.log2
  let m0 := a.mul (Q.pow2 (-e0))
  let big := Q.lt ⟨3, 2⟩ m0
  let e := if big then e0 + 1 else e0
  let m := if big then m0.mul ⟨1, 2⟩ else m0
  let d := m.sub (Q.ofInt 1)
  let z := ((d.abs.div (m.add (Q.ofInt 1))).mul (Q.pow2 P)).floor.toNat
  let s := atanhSum P z (terms P) 1 z z
  let l := ln2Fix P
  let lo : Q := ⟨2 * s, l + ln2Err P⟩
  let hi : Q := ⟨2 * (s + 4 * terms P + 8), l⟩
  if d.isNeg then ((Q.ofInt e).sub hi, (Q.ofInt e).sub lo) else ((Q.ofInt e).add lo, (Q.ofInt e).add hi)

/-- sin(π r) for r in (0, 1/4]. -/
def sinEncl (P0 : Nat) (r : Q) : Q × Q :=
  let P := P0 + (-r.log2).toNat
  let y := (r.mul (Q.ofInt (piFix P))).floor.toNat
  encl P (altSum P y (terms P) 2 y true y) (piErr P + 4 * terms P + 8) 0

/-- cos(π r) for r in (0, 1/4]. -/
def cosEncl (P : Nat) (r : Q) : Q × Q :=
  let y := (r.mul (Q.ofInt (piFix P))).floor.toNat
  encl P (altSum P y (terms P) 1 (2 ^ P) true (2 ^ P)) (piErr P + 4 * terms P + 8) 0

/-- tanh a for a > 0: (e^2a - 1) / (e^2a + 1). -/
def tanhEncl (P0 : Nat) (a : Q) : Q × Q :=
  let P := P0 + 2 * (-a.log2).toNat
  let (lo, hi) := expEncl P (a.mul (Q.ofInt 2))
  let f (w : Q) : Q := (w.sub (Q.ofInt 1)).div (w.add (Q.ofInt 1))
  (f lo, f hi)

/-- 1 / (1 + e^x). -/
def sigmEncl (P : Nat) (x : Q) : Q × Q :=
  let (lo, hi) := expEncl P x.abs
  let f (w : Q) : Q := if x.isNeg then w.div (w.add (Q.ofInt 1)) else (Q.ofInt 1).div (w.add (Q.ofInt 1))
  if x.isNeg then (f lo, f hi) else (f hi, f lo)

/-! ### Rounding an enclosed value -/

/-- The code and flags of a value that is no number of the format, strictly inside an interval of positive ends: none while its
ends round to different codes. -/
def roundIn (neg : Bool) (e : Q × Q) : Option (Nat × AFlags) :=
  if e.1.isNeg || e.1.isZero then none
  else
    let (c, f) := FFmt.fp32.narrow .rne (.fin neg e.1)
    let (c', f') := FFmt.fp32.narrow .rne (.fin neg e.2)
    let fl (g : AFlags) : AFlags := g ||| flInexact ||| flIf (c % 2 ^ 31 < 2 ^ 23) flUnderflow
    if c = c' && fl f = fl f' then some (c, fl f) else none

/-- Try growing precisions. -/
def roundGrow (neg : Bool) (f : Nat → Q × Q) : List Nat → Nat × AFlags
  | [] => FFmt.fp32.narrow .rne (.fin neg (f 1024).1)
  | p :: r => match roundIn neg (f p) with
    | some x => x
    | none => roundGrow neg f r

def precisions : List Nat := [96, 192, 384, 768]

/-- An irrational result. -/
def sfuIrr (neg : Bool) (f : Nat → Q × Q) : Nat × AFlags := roundGrow neg f precisions

/-- An exact result. -/
def sfuExact (v : FVal) (f : AFlags := 0) : Nat × AFlags :=
  let (c, g) := FFmt.fp32.narrow .rne v
  (c, g ||| f)

def sfuNan (f : AFlags) : Nat × AFlags := (0x7FC00000, f)

/-! ### Square roots -/

/-- floor(sqrt n), bit by bit from bit b down. -/
def isqrt (n : Nat) : Nat → Nat → Nat
  | 0, r => r
  | b + 1, r => isqrt n b (if (r + 2 ^ b) * (r + 2 ^ b) ≤ n then r + 2 ^ b else r)

/-- The square root of m > 0: exact, or a value strictly between the same two neighbours of 64 bits. -/
def sqrtQ (m : Q) : Q :=
  let k := (64 - m.log2 / 2).toNat
  let t : Q := m.mul (Q.pow2 (2 * k))
  let n := t.floor.toNat
  let r := isqrt n 80 0
  if t.isInt && r * r == n then ⟨r, 2 ^ k⟩ else ⟨2 * r + 1, 2 ^ (k + 1)⟩

/-! ### The functions -/

def sfuRcp : FVal → Nat × AFlags := fun a => let (v, f) := (FVal.fin false (Q.ofInt 1)).div a; sfuExact v f

def sfuRsqrt : FVal → Nat × AFlags
  | .nan => sfuNan 0
  | .inf s => if s then sfuNan flInvalid else sfuExact (.fin false Q.zero)
  | .fin s m => if m.isZero then sfuExact (.inf s) flDivZero else if s then sfuNan flInvalid
      else sfuExact (.fin false (sqrtQ ((Q.ofInt 1).div m)))

def sfuSqrt : FVal → Nat × AFlags
  | .nan => sfuNan 0
  | .inf s => if s then sfuNan flInvalid else sfuExact (.inf false)
  | .fin s m => if m.isZero then sfuExact (.fin s m) else if s then sfuNan flInvalid else sfuExact (.fin false (sqrtQ m))

def sfuExp2 : FVal → Nat × AFlags
  | .nan => sfuNan 0
  | .inf s => if s then sfuExact (.fin false Q.zero) else sfuExact (.inf false)
  | .fin s m =>
      let a := (FVal.fin s m).toQ
      if Q.le (Q.ofInt 200) a then sfuExact (.fin false (Q.pow2 200))
      else if a.le (Q.ofInt (-200)) then sfuExact (.fin false (Q.pow2 (-200)))
      else if a.isInt then sfuExact (.fin false (Q.pow2 a.floor))
      else sfuIrr false fun P => exp2Encl P a

def sfuLog2 : FVal → Nat × AFlags
  | .nan => sfuNan 0
  | .inf s => if s then sfuNan flInvalid else sfuExact (.inf false)
  | .fin s m =>
      if m.isZero then sfuExact (.inf true) flDivZero
      else if s then sfuNan flInvalid
      else if (Q.pow2 m.log2).eq m then sfuExact (.ofQ (Q.ofInt m.log2))
      else
        let neg := m.lt (Q.ofInt 1)
        sfuIrr neg fun P => let (lo, hi) := log2Encl P m; if neg then (hi.neg, lo.neg) else (lo, hi)

/-- |a| mod 2. -/
def mod2 (m : Q) : Q := m.sub (Q.ofInt (2 * (m.mul ⟨1, 2⟩).floor))

/-- ±sin(π r) for r in [0, 1]. -/
def sinHalf (neg : Bool) (r : Q) : Nat × AFlags :=
  let r := if Q.lt ⟨1, 2⟩ r then (Q.ofInt 1).sub r else r
  if r.isZero then sfuExact (.fin neg Q.zero)
  else if r.eq ⟨1, 2⟩ then sfuExact (.fin neg (Q.ofInt 1))
  else if Q.lt ⟨1, 4⟩ r then sfuIrr neg fun P => cosEncl P ((Q.mk 1 2).sub r)
  else sfuIrr neg fun P => sinEncl P r

def sfuSin : FVal → Nat × AFlags
  | .nan => sfuNan 0
  | .inf _ => sfuNan flInvalid
  | .fin s m =>
      if m.isZero then sfuExact (.fin s m)
      else if m.isInt then sfuExact (.fin s Q.zero)
      else
        let r := mod2 m
        if Q.le (Q.ofInt 1) r then sinHalf (!s) (r.sub (Q.ofInt 1)) else sinHalf s r

def sfuCos : FVal → Nat × AFlags
  | .nan => sfuNan 0
  | .inf _ => sfuNan flInvalid
  | .fin _ m =>
      let r := mod2 m
      let r := if Q.lt (Q.ofInt 1) r then (Q.ofInt 2).sub r else r
      let neg := Q.lt ⟨1, 2⟩ r
      let r := if neg then (Q.ofInt 1).sub r else r
      if r.eq ⟨1, 2⟩ then sfuExact (.fin false Q.zero)
      else if r.isZero then sfuExact (.fin neg (Q.ofInt 1))
      else if Q.lt ⟨1, 4⟩ r then sfuIrr neg fun P => sinEncl P ((Q.mk 1 2).sub r)
      else sfuIrr neg fun P => cosEncl P r

def sfuTanh : FVal → Nat × AFlags
  | .nan => sfuNan 0
  | .inf s => sfuExact (.fin s (Q.ofInt 1))
  | .fin s m =>
      if m.isZero then sfuExact (.fin s m)
      else if Q.lt (Q.ofInt 40) m then sfuExact (.fin s ((Q.ofInt 1).sub (Q.pow2 (-40))))
      else sfuIrr s fun P => tanhEncl P m

def sfuSigm : FVal → Nat × AFlags
  | .nan => sfuNan 0
  | .inf s => sfuExact (.fin false (if s then Q.zero else Q.ofInt 1))
  | .fin s m =>
      if m.isZero then sfuExact (.fin false ⟨1, 2⟩)
      else if Q.lt (Q.ofInt 200) m then sfuExact (.fin false (if s then Q.pow2 (-200) else (Q.ofInt 1).sub (Q.pow2 (-40))))
      else sfuIrr false fun P => sigmEncl P (FVal.fin (!s) m).toQ

def sfuDiv (a b : FVal) : Nat × AFlags := let (v, f) := a.div b; sfuExact v f

end Sys2Proof.Machine
end

