-- ==== Sys2Proof/Machine/Sfu.lean ====
section
/-! DEFINITION. SFU words: issue into the quadrant's queue, and the write of their results (14 R280-R282). The results are computed from
the operands at issue. -/

namespace Sys2Proof.Machine

open Sys2Proof

namespace State

/-- The quadrant of a group on the device. -/
def quadOf (g : Group) : Nat := 4 * g.core + g.slot / 8

/-- Beats in a quadrant's SFU queue (14 R281). -/
def sfuLoad (s : State) (q : Nat) : Nat :=
  (s.ops.map fun e => match e.2.kind with
    | .sfu _ quad n _ => if quad = q then n else 0
    | _ => 0).sum

/-- Issue an SFU word whose result in a lane is f. While the arithmetic handler can be entered for it, its group stays on the word until
that is decided (14 R282). -/
def sfuIssue (s : State) (w : LaneWord) (rd ss : List Nat) (f : LaneIn → Nat → Nat × AFlags) : Out :=
  s.laneIssue w false rd [w.vd.toNat] ss (fun _ => none) fun t n i =>
    let beats := (i.g.live + 31) / 32
    if 12 < s.sfuLoad (quadOf i.g) + beats then .next s
    else
      let vals : Cells 32 := (lanesOf i.eff).foldl (fun c l => c.set l (BitVec.ofNat 32 (f i l).1)) []
      let flags := (lanesOf i.eff).foldl (fun a l => a ||| (f i l).2) 0
      let hold := if i.g.canEnter .arith && i.g.reissue != some .arith then some ⟨w.vd.toNat, w.la.toNat, i.eff, vals⟩ else none
      let (h, s) := s.newOp t n i.g (s.glid t n) none .moving (.sfu flags (quadOf i.g) beats hold)
      .next (s.mapGroup t n fun g =>
        if hold.isSome then { g with moved := true }
        else ((g.keepVal i.x i.eff w.vd.toNat).expect true h w.la.toNat [(.v w.vd.toNat, i.eff, vals)]).laneDone)

/-- A unary SFU word. -/
def sfuUn (s : State) (w : LaneWord) (f : FVal → Nat × AFlags) : Out :=
  s.sfuIssue w [w.va.toNat] [] fun i l => f (f32 (i.rd w.va.toNat l))

end State

def execVrcp (w : LaneWord) (s : State) : Out := s.sfuUn w sfuRcp
def execVrsqrt (w : LaneWord) (s : State) : Out := s.sfuUn w sfuRsqrt
def execVsqrt (w : LaneWord) (s : State) : Out := s.sfuUn w sfuSqrt
def execVexp2 (w : LaneWord) (s : State) : Out := s.sfuUn w sfuExp2
def execVlog2 (w : LaneWord) (s : State) : Out := s.sfuUn w sfuLog2
def execVsin (w : LaneWord) (s : State) : Out := s.sfuUn w sfuSin
def execVcos (w : LaneWord) (s : State) : Out := s.sfuUn w sfuCos
def execVtanh (w : LaneWord) (s : State) : Out := s.sfuUn w sfuTanh
def execVsigm (w : LaneWord) (s : State) : Out := s.sfuUn w sfuSigm
def execVdiv (w : LaneWord) (s : State) : Out :=
  s.sfuIssue w (w.va.toNat :: Group.bReg w) (Group.bScalar w) fun i l => sfuDiv (f32 (i.rd w.va.toNat l)) (f32 (i.b l))

/-- SFU_RESULT_WRITE (14 R281, R282): the oldest SFU word in flight of its group writes its results. -/
def execSfuResultWrite (op : Nat) (s : State) : Out :=
  match s.ops.get op with
  | some o => if (s.sfuOps o.tid o.idx).head? = some op then .next ((s.sfuWrite op).settleTaken o.tid) else .next s
  | none => .next s

end Sys2Proof.Machine
end

