-- ==== Sys2Proof/Machine/Symbols.lean ====
section
/-! DEFINITION. Symbol words (15 R301, R302; 10 R185, R186, R195, R196) and symbol resolution. -/

namespace Sys2Proof.Machine

open Sys2Proof

namespace State

/-- Resolve a symbol: one event for the team; groups parked on it are ready (10 R186). -/
def resolveSym (s : State) (t n : Nat) (x : Word) : State :=
  let s := s.mapTeam t fun v => { v with syms := match v.syms.get n with
    | some y => v.syms.set n { y with val := some x }
    | none => v.syms }
  (s.groupsOf t).foldl (fun s g => if g.wait == some (.sym n) then s.putGroup t g.idx { g with wait := none } else s) s

/-- Bind a symbol. -/
def bindSym (s : State) (t n : Nat) (src : SymSrc) (met : Bool) : State :=
  s.mapTeam t fun v => { v with syms := v.syms.set n ⟨src, met, none⟩ }

/-- The symbol is free. -/
def symFree (s : State) (t n : Nat) : Bool := (((s.team t).bind fun v => v.syms.get n)).isNone

/-- A symbol word: register-number checks, then the operand check, then interlocks (12 R226). -/
def symWord (s : State) (bad : Bool) (vs ss : List Nat) (chk : Nat → Group → Bool) (k : Nat → Nat → Group → Out) : Out :=
  s.byGroup fun t n g =>
    if bad || g.badReg vs then .next (s.raiseNow .illegalRegister)
    else if g.laneBlocked vs ss then .next s
    else if chk t g then .next (s.raiseNow .illegalOperand)
    else k t n g

/-- A scalar pair named by lane-word fields. -/
def lanePair (g : Group) (r : Nat) : Nat := (g.readS true r).toNat + 2 ^ 32 * (g.readS true (r + 1)).toNat

/-- A lane-word field that names no scalar register, or an odd base of a pair (15 R301). -/
def badS (r : Nat) : Bool := decide (127 < r)
def badPair (r : Nat) : Bool := decide (127 < r) || r % 2 == 1

/-- The symbol number is out of range (12 R221). -/
def badSym (v : VReg) : Bool := decide (31 < v.toNat)

end State

def execVlate (w : LaneWord) (s : State) : Out :=
  s.symWord (State.badSym w.va) [w.vd.toNat] [] (fun t _ => s.symFree t w.va.toNat) fun t n g =>
    let x := s.symX t
    s.writeForm t n ⟨g, g.effect w, x, g.value true x, fun _ => 0⟩ w.vd.toNat w.va.toNat fun _ => (0x3F800000, 0x80000000)

/-- `vres` (10 R195): a deferred register takes its values in every live lane, a write that replaces a result on its way (02 R53); a
concrete register is as it was. -/
def execVres (w : LaneWord) (s : State) : Out :=
  s.laneIssue w true [w.vd.toNat] [] [] (fun _ => none) fun t n i =>
    let d := w.vd.toNat
    .next (s.putGroup t n (if i.g.deferred d then i.g.writeVal true i.x d i.g.liveMask (i.rd d) else i.g).laneDone)

def execSybindManual (w : LaneWord) (s : State) : Out :=
  s.symWord (State.badSym w.vd) [] [] (fun t _ => !s.symFree t w.vd.toNat) fun t n _ =>
    .next ((s.bindSym t w.vd.toNat .manual false).mapGroup t n Group.laneDone)

def execSybindCnt (w : LaneWord) (s : State) : Out :=
  let a := w.va.toNat
  let b := w.vb.toNat
  let c := w.vc.toNat
  let bad (v : Nat) : Bool := decide (2 ^ 57 ≤ v) || v % 4 != 0
  s.symWord (State.badSym w.vd || State.badPair a || State.badS b || State.badPair c) [] [a, a + 1, b, c, c + 1]
    (fun t g => !s.symFree t w.vd.toNat || bad (State.lanePair g a) || bad (State.lanePair g c)) fun t n g =>
      let f := State.lanePair g a
      let v := State.lanePair g c
      match s.translateNow t n .read f with
      | .wait s => .next s
      | .bad s => .next (s.raiseNow .translation { faddr := f })
      | .ok fpa =>
        match s.translateNow t n .read v with
        | .wait s => .next s
        | .bad s => .next (s.raiseNow .translation { faddr := v })
        | .ok vpa =>
          let target := g.readS true b
          let holds := State.cntHolds (s.wordAt (.dev fpa)) target
          let s' := s.bindSym t w.vd.toNat (.counter f fpa target v vpa (!holds && s.mustPoll fpa)) holds
          let s' := if holds then s'.resolveSym t w.vd.toNat (s.wordAt (.dev vpa)) else s'
          let s' := (s'.mapGroup t n Group.laneDone).noteRead (.dev fpa) 4 g.core (some (t, some n))
          .next (if holds then s'.noteRead (.dev vpa) 4 g.core (some (t, some n)) else s')

def execSybindSlot (w : LaneWord) (s : State) : Out :=
  let a := w.va.toNat
  let ax := bitAt w.mod.toNat 2
  s.symWord (State.badSym w.vd || State.badS a) [] [a] (fun t _ => !s.symFree t w.vd.toNat) fun t n g =>
    let off := (g.readS true a).toNat
    if s.badAddr ax off 4 4 then .next (s.raiseNow .address { faddr := State.faddrOf ax off })
    else
      let m := w.vb.toNat
      .next ((s.bindSym t w.vd.toNat (.slot m (State.bsPhase (s.slot t m)) ax off) false).mapGroup t n Group.laneDone)

def execSyset (w : LaneWord) (s : State) : Out :=
  s.symWord (State.badSym w.vd || State.badS w.va.toNat) [] [w.va.toNat]
    (fun t _ => match (s.team t).bind fun v => v.syms.get w.vd.toNat with
      | some y => y.src != .manual || y.val.isSome
      | none => true) fun t n g =>
        .next ((s.resolveSym t w.vd.toNat (g.readS true w.va.toNat)).mapGroup t n Group.laneDone)

namespace State

/-- Every deferred register of a group over symbol n becomes concrete (10 R196). -/
def dropSym (x : Nat → Option Word) (n : Nat) (g : Group) : Group :=
  (List.range (32 * g.blocks)).foldl (fun g r => if g.deferred r && g.tagSym r == n then g.concrete x r else g) g

/-- Release a symbol: one step for the team (10 R196). -/
def releaseSym (s : State) (t n : Nat) : State :=
  let x := s.symX t
  let s := (s.groupsOf t).foldl (fun s g =>
    s.putGroup t g.idx { (dropSym x n g) with wait := if g.wait = some .sidecar then none else g.wait }) s
  s.mapTeam t fun v => { v with syms := v.syms.del n }

/-- Its dependants' registers are read: each group's read of a row that cannot be corrected is recorded (24 R394). -/
def noteDeps (s : State) (t n : Nat) : State :=
  if s.symErrs.isEmpty then s
  else (s.groupsOf t).foldl (fun s g => s.noteRegs t g.idx ((List.range (32 * g.blocks)).filter fun r => g.deferred r && g.tagSym r == n)) s

end State

def execSyrel (w : LaneWord) (s : State) : Out :=
  s.symWord (State.badSym w.vd) [] [] (fun t _ => s.symFree t w.vd.toNat) fun t n _ =>
    if (s.symX t w.vd.toNat).isNone then .next (s.park t n (.sym w.vd.toNat))
    else .next (((s.noteDeps t w.vd.toNat).releaseSym t w.vd.toNat).mapGroup t n Group.laneDone)

/-- SYMBOL_RESOLUTION (10 R185): the source's condition has held; the value word is read and the symbol resolves. -/
def execSymbolResolution (team sym : Nat) (s : State) : Out :=
  match s.team team with
  | none => .next s
  | some v =>
    match v.syms.get sym with
    | none => .next s
    | some y =>
      if !y.met || y.val.isSome then .next s
      else match y.src with
      | .manual => .next s
      | .counter _ _ _ _ vpa _ => .next ((s.resolveSym team sym (s.wordAt (.dev vpa))).noteRead (.dev vpa) 4 v.core (some (team, none)))
      | .slot _ _ ax off =>
        let l : Loc := if ax then .annex (v.core / 12) ((s.window team).1 + off) else .team team off
        .next ((s.resolveSym team sym (s.wordAt l)).noteRead l 4 v.core (some (team, none)))

end Sys2Proof.Machine
end

