-- ==== Sys2Proof/Machine/Dispatch.lean ====
section
/-! DEFINITION. The meaning of every instruction and event: one arm per constructor of Instr, each a direct call of its meaning. -/

namespace Sys2Proof.Machine

open Sys2Proof

def exec (i : Instr) (s : State) : Host.Outcome State Fault Refusal :=
  match i with
  | .br off => Sys2Proof.Machine.execBr off s
  | .jal d imm => Sys2Proof.Machine.execJal d imm s
  | .jr a => Sys2Proof.Machine.execJr a s
  | .beq d a imm => Sys2Proof.Machine.execBeq d a imm s
  | .bne d a imm => Sys2Proof.Machine.execBne d a imm s
  | .blt d a imm => Sys2Proof.Machine.execBlt d a imm s
  | .bge d a imm => Sys2Proof.Machine.execBge d a imm s
  | .trap c => Sys2Proof.Machine.execTrap c s
  | .brk c => Sys2Proof.Machine.execBrk c s
  | .hsetLabel imm => Sys2Proof.Machine.execHsetLabel imm s
  | .hsetRegister a pfx => Sys2Proof.Machine.execHsetRegister a pfx s
  | .lpc a imm => Sys2Proof.Machine.execLpc a imm s
  | .add d a b => Sys2Proof.Machine.execAdd d a b s
  | .sub d a b => Sys2Proof.Machine.execSub d a b s
  | .mul d a b => Sys2Proof.Machine.execMul d a b s
  | .mulh d a b => Sys2Proof.Machine.execMulh d a b s
  | .mulhu d a b => Sys2Proof.Machine.execMulhu d a b s
  | .and d a b => Sys2Proof.Machine.execAnd d a b s
  | .or d a b => Sys2Proof.Machine.execOr d a b s
  | .xor d a b => Sys2Proof.Machine.execXor d a b s
  | .shl d a b => Sys2Proof.Machine.execShl d a b s
  | .shr d a b => Sys2Proof.Machine.execShr d a b s
  | .sra d a b => Sys2Proof.Machine.execSra d a b s
  | .slt d a b => Sys2Proof.Machine.execSlt d a b s
  | .sltu d a b => Sys2Proof.Machine.execSltu d a b s
  | .min d a b => Sys2Proof.Machine.execMin d a b s
  | .max d a b => Sys2Proof.Machine.execMax d a b s
  | .popc d a => Sys2Proof.Machine.execPopc d a s
  | .addi d a imm => Sys2Proof.Machine.execAddi d a imm s
  | .andi d a imm => Sys2Proof.Machine.execAndi d a imm s
  | .ori d a imm => Sys2Proof.Machine.execOri d a imm s
  | .xori d a imm => Sys2Proof.Machine.execXori d a imm s
  | .shli d a n => Sys2Proof.Machine.execShli d a n s
  | .shri d a n => Sys2Proof.Machine.execShri d a n s
  | .srai d a n => Sys2Proof.Machine.execSrai d a n s
  | .slti d a imm => Sys2Proof.Machine.execSlti d a imm s
  | .sltui d a imm => Sys2Proof.Machine.execSltui d a imm s
  | .add64 d a b => Sys2Proof.Machine.execAdd64 d a b s
  | .sub64 d a b => Sys2Proof.Machine.execSub64 d a b s
  | .shl64 d a b => Sys2Proof.Machine.execShl64 d a b s
  | .shr64 d a b => Sys2Proof.Machine.execShr64 d a b s
  | .addi64 d a imm => Sys2Proof.Machine.execAddi64 d a imm s
  | .mul64 d a b => Sys2Proof.Machine.execMul64 d a b s
  | .sltu64 d a b => Sys2Proof.Machine.execSltu64 d a b s
  | .sldTeamMemory d a imm => Sys2Proof.Machine.execSldTeamMemory d a imm s
  | .sldAnnex d a imm => Sys2Proof.Machine.execSldAnnex d a imm s
  | .sstTeamMemory d a imm => Sys2Proof.Machine.execSstTeamMemory d a imm s
  | .sstAnnex d a imm => Sys2Proof.Machine.execSstAnnex d a imm s
  | .sldAcq d a ax sc la => Sys2Proof.Machine.execSldAcq d a ax sc la s
  | .sstRel d a ax sc => Sys2Proof.Machine.execSstRel d a ax sc s
  | .mpush n => Sys2Proof.Machine.execMpush n s
  | .kget d w n => Sys2Proof.Machine.execKget d w n s
  | .kset a w n => Sys2Proof.Machine.execKset a w n s
  | .movvs d a v => Sys2Proof.Machine.execMovvs d a v s
  | .sget d imm => Sys2Proof.Machine.execSget d imm s
  | .sset a imm => Sys2Proof.Machine.execSset a imm s
  | .elect d a => Sys2Proof.Machine.execElect d a s
  | .shld ax n a imm => Sys2Proof.Machine.execShld ax n a imm s
  | .shset n a f => Sys2Proof.Machine.execShset n a f s
  | .movsv d a v => Sys2Proof.Machine.execMovsv d a v s
  | .wait c n => Sys2Proof.Machine.execWait c n s
  | .yield c n o => Sys2Proof.Machine.execYield c n o s
  | .fence sc => Sys2Proof.Machine.execFence sc s
  | .bsinit a n => Sys2Proof.Machine.execBsinit a n s
  | .bsarr d n => Sys2Proof.Machine.execBsarr d n s
  | .bswait a n => Sys2Proof.Machine.execBswait a n s
  | .bsaw n => Sys2Proof.Machine.execBsaw n s
  | .wcnt a b => Sys2Proof.Machine.execWcnt a b s
  | .wadr a b => Sys2Proof.Machine.execWadr a b s
  | .bsget d n => Sys2Proof.Machine.execBsget d n s
  | .cpl d x_ a b => Sys2Proof.Machine.execCpl d x_ a b s
  | .cps d x_ a b => Sys2Proof.Machine.execCps d x_ a b s
  | .cpx d x_ a b => Sys2Proof.Machine.execCpx d x_ a b s
  | .cpm d x_ a b => Sys2Proof.Machine.execCpm d x_ a b s
  | .cpg d x_ a b => Sys2Proof.Machine.execCpg d x_ a b s
  | .cprPut d x_ a b => Sys2Proof.Machine.execCprPut d x_ a b s
  | .cprGet d x_ a b => Sys2Proof.Machine.execCprGet d x_ a b s
  | .cpa d x_ a b peer op => Sys2Proof.Machine.execCpa d x_ a b peer op s
  | .cpw a b peer => Sys2Proof.Machine.execCpw a b peer s
  | .cpst d x_ a b => Sys2Proof.Machine.execCpst d x_ a b s
  | .cpcb x_ a b t => Sys2Proof.Machine.execCpcb x_ a b t s
  | .aclose sp a b => Sys2Proof.Machine.execAclose sp a b s
  | .clar t a b sr op => Sys2Proof.Machine.execClar t a b sr op s
  | .clrs t a b sr op => Sys2Proof.Machine.execClrs t a b sr op s
  | .clag t a b => Sys2Proof.Machine.execClag t a b s
  | .clbc t a b => Sys2Proof.Machine.execClbc t a b s
  | .launch d a ax la => Sys2Proof.Machine.execLaunch d a ax la s
  | .mxa acc z pair sp sel sha pc vbq x vm => Sys2Proof.Machine.execMxa acc z pair sp sel sha pc vbq x vm s
  | .mxwb d a b pair keep acc => Sys2Proof.Machine.execMxwb d a b pair keep acc s
  | .mxfence d => Sys2Proof.Machine.execMxfence d s
  | .mxwait a => Sys2Proof.Machine.execMxwait a s
  | .bkfile shA shG r last shT => Sys2Proof.Machine.execBkfile shA shG r last shT s
  | .bkcommit d x_ a b => Sys2Proof.Machine.execBkcommit d x_ a b s
  | .bkstat d n => Sys2Proof.Machine.execBkstat d n s
  | .bkfence a => Sys2Proof.Machine.execBkfence a s
  | .stget d a => Sys2Proof.Machine.execStget d a s
  | .stclr a => Sys2Proof.Machine.execStclr a s
  | .cwinRead d a b => Sys2Proof.Machine.execCwinRead d a b s
  | .cwinWrite d a b => Sys2Proof.Machine.execCwinWrite d a b s
  | .gctlHalt d a => Sys2Proof.Machine.execGctlHalt d a s
  | .gctlResume d a => Sys2Proof.Machine.execGctlResume d a s
  | .gctlReplay d a => Sys2Proof.Machine.execGctlReplay d a s
  | .gctlCancel d a => Sys2Proof.Machine.execGctlCancel d a s
  | .gctlCompact d a => Sys2Proof.Machine.execGctlCompact d a s
  | .gctlTake d a => Sys2Proof.Machine.execGctlTake d a s
  | .gctlKill d a => Sys2Proof.Machine.execGctlKill d a s
  | .gctlStep d a => Sys2Proof.Machine.execGctlStep d a s
  | .ctxSave d a b => Sys2Proof.Machine.execCtxSave d a b s
  | .ctxLoad d a b => Sys2Proof.Machine.execCtxLoad d a b s
  | .tinv a b => Sys2Proof.Machine.execTinv a b s
  | .cfgRead d a b => Sys2Proof.Machine.execCfgRead d a b s
  | .cfgWrite d a b => Sys2Proof.Machine.execCfgWrite d a b s
  | .lx n => Sys2Proof.Machine.execLx n s
  | .lxa n a imm => Sys2Proof.Machine.execLxa n a imm s
  | .extensionPrefix h => Sys2Proof.Machine.execExtensionPrefix h s
  | .vaddInt w => Sys2Proof.Machine.execVaddInt w s
  | .vsubInt w => Sys2Proof.Machine.execVsubInt w s
  | .vmulInt w => Sys2Proof.Machine.execVmulInt w s
  | .vmulh w => Sys2Proof.Machine.execVmulh w s
  | .vmad w => Sys2Proof.Machine.execVmad w s
  | .vabsInt w => Sys2Proof.Machine.execVabsInt w s
  | .vnegInt w => Sys2Proof.Machine.execVnegInt w s
  | .vminInt w => Sys2Proof.Machine.execVminInt w s
  | .vmaxInt w => Sys2Proof.Machine.execVmaxInt w s
  | .vadds w => Sys2Proof.Machine.execVadds w s
  | .vsubs w => Sys2Proof.Machine.execVsubs w s
  | .vand w => Sys2Proof.Machine.execVand w s
  | .vor w => Sys2Proof.Machine.execVor w s
  | .vxor w => Sys2Proof.Machine.execVxor w s
  | .vnot w => Sys2Proof.Machine.execVnot w s
  | .vshl w => Sys2Proof.Machine.execVshl w s
  | .vshr w => Sys2Proof.Machine.execVshr w s
  | .vsra w => Sys2Proof.Machine.execVsra w s
  | .vpopc w => Sys2Proof.Machine.execVpopc w s
  | .vclz w => Sys2Proof.Machine.execVclz w s
  | .vbfx w => Sys2Proof.Machine.execVbfx w s
  | .vbfi w => Sys2Proof.Machine.execVbfi w s
  | .vmov w => Sys2Proof.Machine.execVmov w s
  | .vsel w => Sys2Proof.Machine.execVsel w s
  | .vcmpInt w => Sys2Proof.Machine.execVcmpInt w s
  | .vaddFp w => Sys2Proof.Machine.execVaddFp w s
  | .vsubFp w => Sys2Proof.Machine.execVsubFp w s
  | .vmulFp w => Sys2Proof.Machine.execVmulFp w s
  | .vfma w => Sys2Proof.Machine.execVfma w s
  | .vnegFp w => Sys2Proof.Machine.execVnegFp w s
  | .vabsFp w => Sys2Proof.Machine.execVabsFp w s
  | .vminFp w => Sys2Proof.Machine.execVminFp w s
  | .vmaxFp w => Sys2Proof.Machine.execVmaxFp w s
  | .vcmpFp w => Sys2Proof.Machine.execVcmpFp w s
  | .vrnd w => Sys2Proof.Machine.execVrnd w s
  | .vrcp w => Sys2Proof.Machine.execVrcp w s
  | .vrsqrt w => Sys2Proof.Machine.execVrsqrt w s
  | .vsqrt w => Sys2Proof.Machine.execVsqrt w s
  | .vexp2 w => Sys2Proof.Machine.execVexp2 w s
  | .vlog2 w => Sys2Proof.Machine.execVlog2 w s
  | .vsin w => Sys2Proof.Machine.execVsin w s
  | .vcos w => Sys2Proof.Machine.execVcos w s
  | .vtanh w => Sys2Proof.Machine.execVtanh w s
  | .vsigm w => Sys2Proof.Machine.execVsigm w s
  | .vdiv w => Sys2Proof.Machine.execVdiv w s
  | .vcvt w => Sys2Proof.Machine.execVcvt w s
  | .vpack w => Sys2Proof.Machine.execVpack w s
  | .vunpk w => Sys2Proof.Machine.execVunpk w s
  | .vbscale w => Sys2Proof.Machine.execVbscale w s
  | .vperm w => Sys2Proof.Machine.execVperm w s
  | .vshx w => Sys2Proof.Machine.execVshx w s
  | .vup w => Sys2Proof.Machine.execVup w s
  | .vdn w => Sys2Proof.Machine.execVdn w s
  | .vbcast w => Sys2Proof.Machine.execVbcast w s
  | .vred w => Sys2Proof.Machine.execVred w s
  | .vscan w => Sys2Proof.Machine.execVscan w s
  | .vld w => Sys2Proof.Machine.execVld w s
  | .vst w => Sys2Proof.Machine.execVst w s
  | .vatom w => Sys2Proof.Machine.execVatom w s
  | .vfatomAddOrd w => Sys2Proof.Machine.execVfatomAddOrd w s
  | .vfatomMax w => Sys2Proof.Machine.execVfatomMax w s
  | .vspill w => Sys2Proof.Machine.execVspill w s
  | .vfill w => Sys2Proof.Machine.execVfill w s
  | .pclr w => Sys2Proof.Machine.execPclr w s
  | .pins w => Sys2Proof.Machine.execPins w s
  | .pmax w => Sys2Proof.Machine.execPmax w s
  | .padd w => Sys2Proof.Machine.execPadd w s
  | .pinf w => Sys2Proof.Machine.execPinf w s
  | .pconj w => Sys2Proof.Machine.execPconj w s
  | .psimp w => Sys2Proof.Machine.execPsimp w s
  | .peval w => Sys2Proof.Machine.execPeval w s
  | .parg w => Sys2Proof.Machine.execParg w s
  | .pget w => Sys2Proof.Machine.execPget w s
  | .vlate w => Sys2Proof.Machine.execVlate w s
  | .vres w => Sys2Proof.Machine.execVres w s
  | .sybindManual w => Sys2Proof.Machine.execSybindManual w s
  | .sybindCnt w => Sys2Proof.Machine.execSybindCnt w s
  | .sybindSlot w => Sys2Proof.Machine.execSybindSlot w s
  | .syset w => Sys2Proof.Machine.execSyset w s
  | .syrel w => Sys2Proof.Machine.execSyrel w s
  | .vkand w => Sys2Proof.Machine.execVkand w s
  | .vkor w => Sys2Proof.Machine.execVkor w s
  | .vkxor w => Sys2Proof.Machine.execVkxor w s
  | .vkandn w => Sys2Proof.Machine.execVkandn w s
  | .vknot w => Sys2Proof.Machine.execVknot w s
  | .vkset w => Sys2Proof.Machine.execVkset w s
  | .vksetC w => Sys2Proof.Machine.execVksetC w s
  | .laneLoadComplete op => Sys2Proof.Machine.execLaneLoadComplete op s
  | .sfuResultWrite op => Sys2Proof.Machine.execSfuResultWrite op s
  | .copyStart op => Sys2Proof.Machine.execCopyStart op s
  | .copyComplete op => Sys2Proof.Machine.execCopyComplete op s
  | .orderedCloseStep op => Sys2Proof.Machine.execOrderedCloseStep op s
  | .orderedQueueExhausted h => Sys2Proof.Machine.execOrderedQueueExhausted h s
  | .accumulatorGrant core => Sys2Proof.Machine.execAccumulatorGrant core s
  | .matrixOperationComplete core => Sys2Proof.Machine.execMatrixOperationComplete core s
  | .writeBackPerformed op => Sys2Proof.Machine.execWriteBackPerformed op s
  | .profileOperationComplete core => Sys2Proof.Machine.execProfileOperationComplete core s
  | .collectiveDescriptor part idx team seq rank d tile => Sys2Proof.Machine.execCollectiveDescriptor part idx team seq rank d tile s
  | .collectiveComplete op => Sys2Proof.Machine.execCollectiveComplete op s
  | .collectiveTimeout op => Sys2Proof.Machine.execCollectiveTimeout op s
  | .symbolResolution team sym => Sys2Proof.Machine.execSymbolResolution team sym s
  | .filingComplete p => Sys2Proof.Machine.execFilingComplete p s
  | .drainLaunch p => Sys2Proof.Machine.execDrainLaunch p s
  | .factRelaunch p => Sys2Proof.Machine.execFactRelaunch p s
  | .factDiscard p => Sys2Proof.Machine.execFactDiscard p s
  | .accreset p => Sys2Proof.Machine.execAccreset p s
  | .recordAcceptance p => Sys2Proof.Machine.execRecordAcceptance p s
  | .launchAgentWake p => Sys2Proof.Machine.execLaunchAgentWake p s
  | .hostLaunchPort p addr => Sys2Proof.Machine.execHostLaunchPort p addr s
  | .teamAdmission p => Sys2Proof.Machine.execTeamAdmission p s
  | .preemptionSave team => Sys2Proof.Machine.execPreemptionSave team s
  | .gridRetirement grid => Sys2Proof.Machine.execGridRetirement grid s
  | .faultRecordEnqueue core => Sys2Proof.Machine.execFaultRecordEnqueue core s
  | .curatorTrap core => Sys2Proof.Machine.execCuratorTrap core s
  | .verdictApplication core => Sys2Proof.Machine.execVerdictApplication core s
  | .hotspotMigration die => Sys2Proof.Machine.execHotspotMigration die s
  | .translationWalk p => Sys2Proof.Machine.execTranslationWalk p s
  | .serviceResponse p => Sys2Proof.Machine.execServiceResponse p s
  | .scrubPass die => Sys2Proof.Machine.execScrubPass die s
  | .spareSwapRequest v => Sys2Proof.Machine.execSpareSwapRequest v s
  | .hostMemoryWrite addr bytes => Sys2Proof.Machine.execHostMemoryWrite addr bytes s
  | .hostMemoryRead addr len => Sys2Proof.Machine.execHostMemoryRead addr len s
  | .peerRequest p asid r => Sys2Proof.Machine.execPeerRequest p asid r s
  | .memoryLinkFailure imm => Sys2Proof.Machine.execMemoryLinkFailure imm s
  | .nalmondLinkDown j => Sys2Proof.Machine.execNalmondLinkDown j s
  | .peerUnreachable op => Sys2Proof.Machine.execPeerUnreachable op s
  | .flitCrcFailure j => Sys2Proof.Machine.execFlitCrcFailure j s
  | .nalmondLaneLoss j => Sys2Proof.Machine.execNalmondLaneLoss j s
  | .peerLinkReturn j => Sys2Proof.Machine.execPeerLinkReturn j s
  | .vectorUnmask v => Sys2Proof.Machine.execVectorUnmask v s
  | .exit => Sys2Proof.Machine.execExit s
  | .tail => Sys2Proof.Machine.execTail s
  | .hret => Sys2Proof.Machine.execHret s
  | .melse => Sys2Proof.Machine.execMelse s
  | .mpop => Sys2Proof.Machine.execMpop s
  | .gbar => Sys2Proof.Machine.execGbar s
  | .bkfenceAll => Sys2Proof.Machine.execBkfenceAll s
  | .eret => Sys2Proof.Machine.execEret s
  | .pollingRecheck => Sys2Proof.Machine.execPollingRecheck s
  | .marketInterval => Sys2Proof.Machine.execMarketInterval s
  | .budgetTakeEffect => Sys2Proof.Machine.execBudgetTakeEffect s
  | .clockRaise => Sys2Proof.Machine.execClockRaise s
  | .governorSubslot => Sys2Proof.Machine.execGovernorSubslot s
  | .hostAllocationDeadline => Sys2Proof.Machine.execHostAllocationDeadline s
  | .spareSwapComplete => Sys2Proof.Machine.execSpareSwapComplete s
  | .hostLinkReset => Sys2Proof.Machine.execHostLinkReset s
  | .bringUp => Sys2Proof.Machine.execBringUp s
  | .recordWindowDeadline => Sys2Proof.Machine.execRecordWindowDeadline s
  | .attestationRequest => Sys2Proof.Machine.execAttestationRequest s
  | .attestationReportReady => Sys2Proof.Machine.execAttestationReportReady s
  | .illegalInstruction => Sys2Proof.Machine.execIllegalInstruction s

end Sys2Proof.Machine
end

