-- ==== Sys2Proof/Machine/Fetch.lean ====
section
/-! DEFINITION. Issuing one instruction of an agent: which group may issue (01 R33, 22 R349, R361), fetching its word (02 R41-R44),
decoding it (12 R225-R227), running it, and what issuing adds: charges (23 R368-R371), the skid count (22 R349). -/

namespace Sys2Proof.Machine

open Sys2Proof

namespace State

/-- One word of a Curator's code, in its private memory (22 R345). -/
def curatorWord (s : State) (c : Nat) (a : Nat) : Option Word :=
  if 2 ^ 18 < a + 4 then none else some (s.wordAt (.curator c a))

/-- cwin, ctx and cfg name their row of the table in a register: writing where bit 31 of sa is set, loading where bit 3 of sb is
(22 R360, R362, R364). -/
def resolve (s : State) (i : Instr) : Instr :=
  match i with
  | .cwinRead d a b => if (s.sreg a).getLsbD 31 then .cwinWrite d a b else i
  | .cfgRead d a b => if (s.sreg a).getLsbD 31 then .cfgWrite d a b else i
  | .ctxSave d a b => if (s.sreg b).getLsbD 3 then .ctxLoad d a b else i
  | i => i

/-- The opcodes that only the Curator runs (12 R228). -/
def privilegedOp (op : Nat) : Bool := decide (0x76 ≤ op) && decide (op ≤ 0x7B)

/-- The fault of bits that are no instruction, in a group (12 R225, R226). -/
def rejectFault : Reject → FaultCode
  | .truncated => .instructionFetch
  | .illegalField op => if privilegedOp op then .privilegedInstruction else .illegalField

/-- Bits that are no instruction. A lane word's opcode is not privileged: `lane` says which file it came from. -/
def refuse (s : State) (lane : Bool) (r : Reject) : Out :=
  .next (s.raiseNow (if lane then .illegalField else rejectFault r))

/-- The active live lanes of the issuing group, for the charge of a lane word. -/
def activeNow (s : State) : LaneMask :=
  match s.self with
  | some (_, _, g) => g.liveMask &&& g.mask true
  | none => 0

/-- Run a decoded word. -/
def runWord (s : State) (i : Instr) : Out := exec (s.resolve i) s

/-- The group has issued the word that it was given. -/
def issued (g : Group) : Bool :=
  g.moved || g.ended || (match g.wait with
    | some (.sym _) | some .sidecar | none => false
    | some _ => true)

/-- What issuing adds once the word has issued: its charge, the skid count of a halted team's group, whose SFU words then drain,
and whose skid ends where the word parks it, since a wait satisfied during the halt issues nothing before the resume (22 R349);
a single step is over. A word that the governor withholds has not issued: it is counted once (23 R369, R371). -/
def afterIssue (s0 : State) (t i : Nat) (core band n : Nat) : Out → Out
  | .next s1 =>
    let held : State := if ((s0.group t i).map (·.charged)).getD false then s0
      else (s0.withhold core band n).mapGroup t i fun g => { g with charged := true }
    match s1.group t i with
    | some g =>
      if issued g then
        if s0.withholds core n then .next held
        else
          let s := s1.charge core band n
          let halted := ((s0.team t).map (·.halted)).getD false
          let s := s.mapGroup t i fun g => { g with
            charged := false, stepping := false, skid := if halted && !g.stepping then g.skid + 1 else g.skid,
            skidMax := if halted && g.wait.isSome then 0 else g.skidMax }
          .next (if halted then s.drainSfu t i else s)
      else .next (s1.mapGroup t i fun g => { g with
        stepping := g.stepping && !g.faulted, skidMax := if g.wait.isSome && ((s0.team t).map (·.halted)).getD false then 0 else g.skidMax })
    | none => .next (if s0.withholds core n then held else s1.charge core band n)
  | o => o

/-- The group may be given a word (01 R33, 22 R349, R361). -/
def mayIssue (s : State) (t i : Nat) (g : Group) : Bool :=
  !g.ended && g.wait.isNone && !s.syncWait t i &&
    (match s.team t with
      | some x => !x.halted || g.stepping || decide (g.skid < g.skidMax)
      | none => false)

/-- Decode and run the scalar words at the SPC of group g. -/
def issueScalar (s : State) (t i : Nat) (g : Group) : Out :=
  match s.fetchWord t i g.spc.toNat with
  | .wait s => .next s
  | .bad s => .next (s.raiseNow .instructionFetch)
  | .ok w s =>
    let run (s : State) (next : Option Word) : Out :=
      match decodeScalar w next with
      | .error r => s.refuse false r
      | .ok (ins, _) => s.afterIssue t i g.core (s.bandOf t) (chargeOf (s.resolve ins) s.activeNow) (s.runWord ins)
    if fOp w = 0x7F then
      match s.fetchWord t i (g.spc.toNat + 4) with
      | .wait s => .next s
      | .bad s => run s none
      | .ok w2 s => run s (some w2)
    else run s none

/-- Decode and run the lane word at the cursor of group g, of which the run has the code; a run that was set otherwise (a context load, a
Curator) fetches it now, every word of it (02 R43). -/
def issueLane (s : State) (t i : Nat) (g : Group) : Out :=
  let run (s : State) (g : Group) : Out :=
    match decodeLane (laneOfWords (g.run.code.getD 0 0) (g.run.code.getD 1 0) (g.run.code.getD 2 0)) with
    | .error r => s.refuse true r
    | .ok ins => s.afterIssue t i g.core (s.bandOf t) (chargeOf ins s.activeNow) (s.runWord ins)
  if g.run.code.isEmpty then
    match s.fetchRun t i g.run.n g.run.cursor with
    | .wait s => .next s
    | .bad s => .next (s.raiseNow .instructionFetch)
    | .ok ws s =>
      let g := { g with moved := false, run := { g.run with code := ws } }
      run (s.putGroup t i g) g
  else run s g

/-- One issue of a group. -/
def issueGroup (s : State) (t i : Nat) : Out :=
  match s.group t i with
  | none => .next s
  | some g =>
    if s.mayIssue t i g then
      let s := s.putGroup t i { g with moved := false }
      if g.run.n = 0 then s.issueScalar t i g else s.issueLane t i g
    else .next s

/-- A Curator's word that may wait to complete: a save or a load, a compaction (22 R361, R362). -/
def curatorWaits : Instr → Bool
  | .ctxSave _ _ _ | .ctxLoad _ _ _ | .gctlCompact _ _ => true
  | _ => false

/-- What issuing a Curator's word adds: its charge, once, as it issues (23 R368, R369); a word that faults has not issued. -/
def afterCurator (s0 s1 : State) (c band n : Nat) (i : Instr) : State :=
  let waits := curatorWaits i && (s1.core c).spc == (s0.core c).spc && !(s1.core c).stopped
  let s := if (s0.core c).waiting || (s1.core c).stopped then s1 else s1.charge c band n
  s.mapCore c fun x => { x with charged := false, waiting := waits }

/-- One issue of a Curator: at the boundary it takes a trap that is due (22 R347), else it runs its next word. -/
def issueCurator (s : State) (c : Nat) : Out :=
  if (s.core c).stopped then .next s
  else if s.trapDue c then .next (s.takeTrap c)
  else
    let a := (s.core c).spc.toNat
    match s.curatorWord c a with
    | none => .next (s.raiseNow .instructionFetch)
    | some w =>
      let s := s.noteRead (.curator c a) 4 c none
      match decodeScalar w (s.curatorWord c (a + 4)) with
      | .error _ => .next (s.raiseNow .illegalField)
      | .ok (ins, _) =>
        let n := chargeOf (s.resolve ins) 0
        let b := Config.curatorBand % 8
        if !(s.core c).waiting && s.withholds c n then
          .next (if (s.core c).charged then s else (s.withhold c b n).mapCore c fun x => { x with charged := true })
        else match s.runWord ins with
        | .next s1 => .next (s.afterCurator s1 c b n ins)
        | o => o

/-- An agent issues. -/
def issue (s : State) (a : Agent) : Out :=
  let s := { s with cur := some a }
  match a with
  | .group t i => s.issueGroup t i
  | .curator c => s.issueCurator c

end State

end Sys2Proof.Machine
end

