-- ==== Sys2Proof/Machine/Agenda.lean ====
section
/-! DEFINITION. One move of the machine (log 1). -/

namespace Sys2Proof.Machine

open Sys2Proof

namespace State

/-- Time passes: n cycles of clk (03 R67); charges older than four clocks leave the window, what the arrays are charged in these clocks enters
it (23 R368, R369). -/
def passTime (s : State) (n : Nat) : State :=
  let s : State := { s with clk := s.clk + BitVec.ofNat 64 n,
                            clusters := s.clusters.map fun e => (e.1, { e.2 with window := (List.replicate n 0 ++ e.2.window).take 4 }) }
  s.cores.foldl (fun s e => s.mxClocks e.1 n) s

/-- Events that may befall an operation. -/
def opEvents (h : Nat) : List Instr :=
  [.laneLoadComplete h, .sfuResultWrite h, .copyStart h, .copyComplete h, .orderedCloseStep h, .writeBackPerformed h, .collectiveComplete h,
    .collectiveTimeout h, .peerUnreachable h]

/-- Events of a core. -/
def coreEvents (c : Nat) : List Instr :=
  [.accumulatorGrant c, .matrixOperationComplete c, .profileOperationComplete c, .faultRecordEnqueue c, .curatorTrap c, .verdictApplication c]

/-- Events of a partition. -/
def partEvents (p : Nat) (x : Part) : List Instr :=
  [.filingComplete p, .drainLaunch p, .recordAcceptance p, .launchAgentWake p, .teamAdmission p, .translationWalk p, .serviceResponse p] ++
    x.evict.map fun e => .preemptionSave e.tid

/-- Events of the device. -/
def deviceEvents : List Instr :=
  [.pollingRecheck, .marketInterval, .hostAllocationDeadline, .budgetTakeEffect, .clockRaise, .governorSubslot, .spareSwapComplete,
    .recordWindowDeadline, .attestationReportReady]

/-- The home of a queue's key. -/
def keyHome (k : Nat) : Home := if k < 96 then .core k else if k < 104 then .annex (k - 96) else .hub (k - 104)

/-- Every event that the machine drives itself. One whose condition does not hold changes nothing. -/
def ownEvents (s : State) : List Instr :=
  deviceEvents ++ (s.ops.flatMap fun e => opEvents e.1) ++ (s.cores.flatMap fun e => coreEvents e.1) ++ (s.parts.flatMap fun e => partEvents e.1 e.2) ++
    (s.grids.map fun e => .gridRetirement e.1) ++ (s.oqSince.map fun e => .orderedQueueExhausted (keyHome e.1)) ++
    (s.teams.flatMap fun e => e.2.syms.map fun y => .symbolResolution e.1 y.1) ++
    ((List.range 8).flatMap fun d => [.scrubPass d, .hotspotMigration d])

/-- The moves that the machine may make of itself. What comes from outside it stands in the agenda (log 1, 16). -/
def candidates (s : State) : List Move :=
  .tick 1 :: (s.groups.map fun e => Move.issue (.group (e.1 / 64) (e.1 % 64))) ++ (s.cores.map fun e => Move.issue (.curator e.1)) ++
    s.ownEvents.map Move.event

/-- Make one move: an operation of its own, of whose writes no row holds any yet (24 R394). -/
def act (s : State) (m : Move) : Out :=
  let s := s.openRows
  match m with
  | .issue a => s.issue a
  | .event i => exec i { s with cur := none }
  | .tick n => .next (s.passTime n)
  | .input x => .next (s.take x)

/-- The move of this step: the head of the agenda, or, with none, one that a free value picks. -/
def nextMove (s : State) : Move × State :=
  match s.agenda with
  | m :: r => (m, { s with agenda := r })
  | [] =>
    let (n, s') := s.draw
    ((s.candidates[Config.pick n % s.candidates.length]?).getD (.tick 1), s')

end State

end Sys2Proof.Machine
end

