-- ==== Sys2Proof/Machine/Step.lean ====
section
/-! DEFINITION. One step of the machine, and a word placed where the next step fetches it (log 2). -/

namespace Sys2Proof.Machine

open Sys2Proof

def step (s : State) : Host.Outcome State Fault Refusal :=
  (s.nextMove.2).act s.nextMove.1

namespace State

/-- The launch record of a grid of one team: one compute group of 96 lanes and 10 blocks, 64 KiB of team memory, 8 profile registers,
entry 0x10000 and lane words from 0x11000 (01 R23, R24). -/
def bootRecord : BitVec 1024 :=
  BitVec.ofNat 1024 (0x10000 + 0x11000 * 2 ^ 64 + 1 * 2 ^ 192 + 4 * 2 ^ 224 + 1 * 2 ^ 234 + 8 * 2 ^ 240 + 16 * 2 ^ 244 +
    (2 + 1 * 2 ^ 2 + 96 * 2 ^ 8 + 10 * 2 ^ 15) * 2 ^ 256)

/-- Its grid, admitted. -/
def bootGrid : Grid :=
  { part := 0, record := bootRecord, loc := .nowhere, age := 0, asid := 0, awBase := 0, awSize := 0, prio := 4, nteams := 1, next := 1,
    skipped := [], lastIn := false, waiting := [], retired := 0, depPa := none, depMet := true, depPoll := false, drain := none, killed := false, handler := none,
    origins := [], verdicts := [] }

/-- A page of code, as core 0 holds its translation. -/
def bootPage : Tlb := ⟨0, 0x10000, 0x10000, 0x10000, true, false⟩

/-- The word's bits as bytes, zeros above them up to the longest instruction. -/
def bootBytes (nbits w : Nat) : List Byte := bytesOfNat 12 (w % 2 ^ nbits)

/-- The word stands where group 0 of team 0 fetches: its team is resident on core 0 and runs, at a scalar word or at a lane word. -/
def withGroup (s : State) (lane : Bool) (b : List Byte) : State :=
  let x := Spec.of bootRecord false
  let g := Group.fresh 0 ⟨2, 0, 96, 10, 0⟩ 0 0 bootRecord
  let g := if lane then { g with run := ⟨1, 0, false, 4, []⟩ } else g
  let s := { s with dev := s.dev.setSlice (if lane then 0x11000 else 0x10000) b,
                    teams := s.teams.set 0 (Team.fresh 0 0 0 x bootRecord 0 0 0), grids := s.grids.set 0 bootGrid }
  let s := s.mapCore 0 fun c => { c with tlb := [bootPage] }
  { s.putGroup 0 0 g with agenda := [.issue (.group 0 0)] }

/-- The word stands where core 0's Curator fetches, which runs with its traps disabled. -/
def withCurator (s : State) (b : List Byte) : State :=
  let s := s.setCfgW 0 0 0x010 (s.cfgW 0 0 0x010 &&& ~~~1)
  { s.mapCore 0 (fun c => { c with stopped := false, spc := 0, mem := c.mem.setSlice 0 b }) with agenda := [.issue (.curator 0)] }

/-- The instruction placed so that the next step runs it: a privileged word in a Curator, another in a group; no earlier word of the
sub-slot holds it back. -/
def withFetchWord (s : State) (nbits w : Nat) : State :=
  let b := bootBytes nbits w
  let s := s.putCluster 0 { s.cluster 0 with began := false }
  if nbits > 64 then s.withGroup true b
  else if privilegedOp (w / 2 ^ 25 % 2 ^ 7) then s.withCurator b
  else s.withGroup false b

end State

end Sys2Proof.Machine
end

