-- ==== Sys2Proof/Safety.lean ====
section
/-! DEFINITION. What claims are stated in: runs that do not stop, which agent issues, canonical stores, and what an instruction
leaves alone. -/

namespace Sys2Proof.Machine

open Sys2Proof

namespace State

/-- n moves from s end in a state: none of them stops the machine. -/
def Runs (s : State) (n : Nat) : Prop := ∃ t, Host.Core.run Sys2Proof.core n s = .next t

/-- Group i of team t is the agent that issues. -/
structure Issuer (s : State) (t i : Nat) (g : Group) : Prop where
  cur : s.cur = some (.group t i)
  here : s.group t i = some g

/-- The Curator of core c is the agent that issues. -/
def Curates (s : State) (c : Nat) : Prop := s.cur = some (.curator c)

/-- The stores of the device are canonical: device memory, the annex, the peers' memory, the configuration words. -/
def StoresWf (s : State) : Prop := s.dev.wf = true ∧ s.annex.wf = true ∧ s.peers.wf = true ∧ s.cfg.wf = true

/-- The stores of a group are canonical, and its live lanes lie among its 96 (02 R45). -/
def GroupWf (g : Group) : Prop :=
  g.live ≤ 96 ∧ g.s.wf = true ∧ g.v.wf = true ∧ g.k.wf = true ∧ g.sh.wf = true ∧ g.spill.wf = true ∧ g.tags.wf = true ∧ g.scar.wf = true ∧
    Tab.wf g.ctxH = true

/-- The tables of the machine are canonical, and so are the stores of what stands in them; a group's key ends in its index; a grid's record has
passed the checks of its roles (01 R16, R24, R25). -/
structure TablesWf (s : State) : Prop where
  groups : Tab.wf s.groups = true
  teams : Tab.wf s.teams = true
  grids : Tab.wf s.grids = true
  ops : Tab.wf s.ops = true
  cores : Tab.wf s.cores = true
  parts : Tab.wf s.parts = true
  group : ∀ k g, s.groups.get k = some g → g.idx = k % 64 ∧ GroupWf g
  team : ∀ t x, s.teams.get t = some x → x.tm.wf = true ∧ x.cb.wf = true
  core : ∀ c x, s.cores.get c = some x → x.s.wf = true ∧ x.mem.wf = true ∧ x.a0.wf = true ∧ x.a1.wf = true
  grid : ∀ n g, s.grids.get n = some g → Spec.rolesBad g.record = false
  saved : ∀ y ∈ s.saved, ∀ g ∈ y.groups, g.idx < 64 ∧ GroupWf g

/-- The storage that an access meets is sound: no row of memory is uncorrectable or has a symbol in error, no memory link has failed
(24 R392, R394, 25 R406). -/
def Sound (s : State) : Prop := s.badRows = [] ∧ s.mfailed = [] ∧ s.symErrs = []

/-- Nothing but the groups differs. -/
def SameButGroups (s t : State) : Prop := t = { s with groups := t.groups }

/-- Every group but (t, i) is as it was. -/
def OthersSame (s s' : State) (t i : Nat) : Prop := ∀ k, k ≠ 64 * t + i → s'.groups.get k = s.groups.get k

/-- Every byte of memory, of every space, reads as it did. -/
def MemorySame (s s' : State) : Prop := ∀ l : Loc, s'.byteAt l = s.byteAt l

end State

namespace Group

/-- No long-latency result is on its way. -/
def Idle (g : Group) : Prop := g.pend = []

/-- The group differs from g in scalar registers of the list, in where it stands, and in the marks of an issue only. -/
def SameBut (g g' : Group) (rs : List Nat) : Prop :=
  (∀ r, r ∉ rs → g'.s.get r = g.s.get r) ∧
    g' = { g with s := g'.s, spc := g'.spc, reissue := g'.reissue, moved := g'.moved, stall := g'.stall }

end Group

/-! ### Numbers -/

/-- The rational number. -/
def Q.val (q : Q) : ℚ := (q.num : ℚ) / q.den

/-- The number of a finite value, with its sign. -/
def FVal.num (v : FVal) : ℚ := v.toQ.val

/-- The number of a code of a format. -/
def FFmt.num (f : FFmt) (c : Nat) : ℚ := (f.value c).num

/-- An FP32 word is a NaN (04 R74, R75). -/
def nanWord (w : Word) : Prop := 0x7F800000 < w.toNat % 2 ^ 31

/-- FP32 words that are no NaN stand in the order of their numbers as these keys do: both zeros have key 0 (04 R74). -/
def wordKey (w : Word) : Int := if w.toNat < 2 ^ 31 then w.toNat else 2 ^ 31 - w.toNat

/-- The same with -0 below +0 (14 R277). -/
def zeroKey (w : Word) : Int := if w.toNat < 2 ^ 31 then w.toNat else 2 ^ 31 - 1 - w.toNat

/-- The line at x (11 R200). -/
def Line.at (l : Line) (x : ℚ) : ℚ := (f32 l.a).num * x + (f32 l.b).num

/-- Its slope and intercept are finite. -/
def Line.finite (l : Line) : Prop := finite32 l.a = true ∧ finite32 l.b = true

/-- x lies between two domain ends; an infinite end bounds nothing (11 R200). -/
def between (lo hi : Word) (x : ℚ) : Prop := (finite32 lo = true → (f32 lo).num ≤ x) ∧ (finite32 hi = true → x ≤ (f32 hi).num)

/-- A place that is there: an annex has 64 MiB, a peer's space 57 bits of address, a team 64 group indexes. -/
def Loc.Real : Loc → Prop
  | .annex _ o => o < 2 ^ 26
  | .peer _ a => a < 2 ^ 57
  | .spill _ i _ => i < 64
  | _ => True

/-! ### The arrays -/

/-- v is accumulator u after one K-group of products (04 R83, R84): a NaN, or infinities of both signs, give the canonical NaN, an infinity itself; where
every product is zero nothing is added; else each product is cut down to a multiple of 2^(emax - 47), emax being the exponent of the largest, and their exact
sum is added with one rounding. -/
def kGroup (ps : List FVal) (u v : Word) : Prop :=
  (FVal.nan ∈ ps ∨ (FVal.inf true ∈ ps ∧ FVal.inf false ∈ ps) → v = 0x7FC00000) ∧
  (∀ sg, FVal.nan ∉ ps → FVal.inf sg ∈ ps → FVal.inf (!sg) ∉ ps → v = (rne32 ((f32 u).add (.inf sg)).1).1) ∧
  (FVal.nan ∉ ps → (∀ sg, FVal.inf sg ∉ ps) → ((∀ p ∈ ps, p.num = 0) → v = u) ∧
    ((∃ p ∈ ps, p.num ≠ 0) → ∃ e : Int, (∃ p ∈ ps, (2 : ℚ) ^ e ≤ |p.num|) ∧ (∀ p ∈ ps, |p.num| < (2 : ℚ) ^ (e + 1)) ∧
      ∃ q : Q, 0 < q.den ∧ q.val = (ps.map fun p => (⌊p.num / (2 : ℚ) ^ (e - 47)⌋ : ℚ) * (2 : ℚ) ^ (e - 47)).sum ∧ v = (rne32 ((f32 u).add (.ofQ q)).1).1))

/-! ### Copies -/

/-- A shape register that lays out a row: n elements of a format, one after the other from address a of a space, without a codebook. -/
def IsRow (b : ShapeBits) (sp f a n : Nat) : Prop :=
  let x := Shape.of b
  x.space = sp ∧ x.fmt = f ∧ x.addr = a ∧ x.ndim = 1 ∧ x.exts = [n] ∧ x.strides = [1] ∧ x.layout = 0 ∧ x.cbtag = 0

/-- l gives the place of each of the n bytes from address a of a space, for operation h: in device memory they lie in one page, whose
translation is at hand; `peer` where the device side is a peer's. -/
def State.Placed (s : State) (h : Nat) (o : Op) (kind : Kind) (sp a n : Nat) (peer : Option Nat) (l : Nat → Loc) : Prop :=
  (sp = 1 ∧ ∀ b, l b = .team o.tid b) ∨ (sp = 2 ∧ ∀ b, l b = .annex (o.core / 12) ((s.window o.tid).1 + b)) ∨
    (∃ d, sp = 0 ∧ peer = some d ∧ ∀ b, l b = .peer d b) ∨
    ∃ pa, sp = 0 ∧ peer = none ∧ a % 65536 + n ≤ 65536 ∧ (∀ b, l b = .dev (pa + b % 65536)) ∧
      s.translate (.op h) (some o.core) (s.partOf o.core) (((s.gridOf o.tid).map (·.asid)).getD 0) kind (65536 * (a / 65536)) = .ok pa

/-- Operation h stands where its completion is performed: it moves, its team's group i runs, and nothing of the team is killed or assembled. -/
structure State.Completes (s : State) (h i : Nat) (o : Op) (x : Team) (g : Group) : Prop where
  sound : s.Sound
  owf : Tab.wf s.ops = true
  gwf : Tab.wf s.groups = true
  keys : ∀ k e, s.groups.get k = some e → e.idx = k % 64
  op : s.ops.get h = some o
  moving : o.stage = .moving
  team : s.team o.tid = some x
  alive : x.killing = false
  whole : x.asms = []
  twf : x.tm.wf = true
  lt : i < 64
  idx : g.idx = i
  group : s.group o.tid i = some g
  runs : g.ended = false
  awake : g.wait = none

/-! ### Lane words -/

namespace Group

/-- Lane l is one in which the word takes effect: live, in the mask, under the guard, not cancelled (02 R47, 22 R351). -/
def acts (g : Group) (w : LaneWord) (l : Nat) : Bool :=
  decide (l < g.live) && (g.mask true).getLsbD l && (w.pred.toNat == 31 || (g.k.get w.pred.toNat).getLsbD l != w.neg) && !g.cancel.getLsbD l

/-- Lane l of a register. -/
def lane (g : Group) (r : VReg) (l : Nat) : Word := g.v.get (96 * r.toNat + l)

/-- Operand b of a lane: a register, the immediate, or a scalar in every lane (12 R220). -/
def operandB (g : Group) (w : LaneWord) (l : Nat) : Word :=
  if w.bsrc = 1 then w.ext else if w.bsrc = 2 then g.readS true (w.ext.toNat % 128) else g.lane w.vb l

/-- g' is g with the lanes in which w acts of the registers ds taken from f, and with cond c: nothing else differs. -/
def LaneWrote (g g' : Group) (w : LaneWord) (ds : List Nat) (f : Nat → Nat → Word) (c : Word) : Prop :=
  g' = { g with v := g'.v, cond := c } ∧
    ∀ r l, l < 96 → g'.v.get (96 * r + l) = if r ∈ ds ∧ g.acts w l = true then f r l else g.v.get (96 * r + l)

/-- g' is g with predicate n taken from f in the lanes in which w acts, and with cond c. -/
def PredWrote (g g' : Group) (w : LaneWord) (n : Nat) (f : Nat → Bool) (c : Word) : Prop :=
  g' = { g with k := g'.k, cond := c } ∧
    ∀ m l, l < 96 → (g'.k.get m).getLsbD l = if m = n ∧ g.acts w l = true then f l else (g.k.get m).getLsbD l

/-- cond after flags f: each is set and stays set; one that was not set before also sets the sticky bit of the arithmetic condition. -/
def condAfter (g : Group) (f : AFlags) : Word := (g.cond ||| f.setWidth 32) ||| (if g.newFlags f then 0x20 else 0)

/-- fl holds exactly the flags that some lane in which w acts raises: F gives those of a lane. -/
def FlagsOf (g : Group) (w : LaneWord) (fl : AFlags) (F : Nat → AFlags) : Prop :=
  ∀ b, fl.getLsbD b = true ↔ ∃ l, l < 96 ∧ g.acts w l = true ∧ (F l).getLsbD b = true

end Group

/-- A lane word may issue and has plain operands: the group issues, no result is on its way, the registers are in the budget, none is
deferred or has a row that is uncorrectable, and no flag can enter the handler. -/
structure State.LaneReady (s : State) (t i : Nat) (g : Group) (rs : List Nat) : Prop where
  issuer : s.Issuer t i g
  idle : g.Idle
  budget : ∀ r ∈ rs, r < 32 * g.blocks
  plain : ∀ r, g.deferred r = false
  sound : g.badV = []
  vwf : g.v.wf = true
  kwf : g.k.wf = true
  live : g.live ≤ 96
  calm : g.canEnter .arith = false ∨ g.reissue = some .arith

/-- Element e of a lane's word, of n bits. -/
def elOf (n : Nat) (x : Word) (e : Nat) : Nat := x.toNat / 2 ^ (n * e) % 2 ^ n

/-- The truth of a condition code (14 R276): eq, ne, lt, le, gt, ge; 6 and 7 are the float codes. -/
def ccHolds (cc : Nat) (lt eq : Prop) : Prop :=
  (cc = 0 ∧ eq) ∨ (cc = 1 ∧ ¬eq) ∨ (cc = 2 ∧ lt) ∨ (cc = 3 ∧ (lt ∨ eq)) ∨ (cc = 4 ∧ ¬(lt ∨ eq)) ∨ (cc = 5 ∧ ¬lt) ∨ 7 ≤ cc

/-- First bit and width of the field of a code of shset (13 R258). -/
def shField (f : Nat) : Nat × Nat :=
  if f = 0 then (0, 64) else if f = 1 then (64, 8) else if f = 2 then (72, 16) else if f = 3 then (88, 8)
  else if f ≤ 8 then (96 + 32 * (f - 4), 32) else if f ≤ 13 then (256 + 48 * (f - 9), 48)
  else if f = 14 then (496, 8) else if f = 15 then (504, 4) else (0, 0)

end Sys2Proof.Machine

namespace Sys2Proof

/-- The row of the table that a word of the instruction decodes to: cwin, ctx and cfg have one word for their two rows, which a
register tells apart when the word issues (22 R360, R362, R364); every other word has one row. -/
def Instr.canon : Instr → Instr
  | .cwinWrite d a b => .cwinRead d a b
  | .ctxLoad d a b => .ctxSave d a b
  | .cfgWrite d a b => .cfgRead d a b
  | i => i

end Sys2Proof
end

