-- ==== Sys2Proof/Certificates/Slice0/Obligations.lean ====
section
/-! DEFINITION. The statements for the provers. Each docstring names the rules of the spec that it formalises; where a statement rests on a
choice of the model it names the log entry. -/

open Sys2Proof Sys2Proof.Machine

/-- A group or Curator that waits for no register runs a register word of R247: an S3 word with L = 0, its opcode from 0x10 to 0x1F; sd takes
the result of the table, the SPC moves on by 4. -/
def Obligations.ScalarRegisterWordsComplete : Prop :=
  ∀ (s : State) (d a b : SReg), s.present = true → s.held [d, a, b] = false →
    let x := s.sreg a
    let y := s.sreg b
    let put (v : Word) : Out := .next ((s.setS d v).advance 4)
    (∀ p ∈ ([(0x10, .add d a b, BitVec.ofNat 32 (x.toNat + y.toNat)),
        (0x11, .sub d a b, BitVec.ofInt 32 (x.toInt - y.toInt)),
        (0x12, .mul d a b, BitVec.ofNat 32 (x.toNat * y.toNat)),
        (0x13, .mulh d a b, BitVec.ofInt 32 (x.toInt * y.toInt / 2 ^ 32)),
        (0x14, .mulhu d a b, BitVec.ofNat 32 (x.toNat * y.toNat / 2 ^ 32)),
        (0x15, .and d a b, x &&& y), (0x16, .or d a b, x ||| y), (0x17, .xor d a b, x ^^^ y),
        (0x18, .shl d a b, if y.toNat < 32 then BitVec.ofNat 32 (x.toNat * 2 ^ y.toNat) else 0),
        (0x19, .shr d a b, if y.toNat < 32 then BitVec.ofNat 32 (x.toNat / 2 ^ y.toNat) else 0),
        (0x1A, .sra d a b, BitVec.ofInt 32 (x.toInt / 2 ^ min y.toNat 31)),
        (0x1B, .slt d a b, if x.toInt < y.toInt then 1 else 0),
        (0x1C, .sltu d a b, if x.toNat < y.toNat then 1 else 0),
        (0x1D, .min d a b, if x.toInt < y.toInt then x else y),
        (0x1E, .max d a b, if x.toInt < y.toInt then y else x)] : List (BitVec 7 × Instr × Word)),
      encScalar p.2.1 = [encS3 p.1 d a b 0] ∧ exec p.2.1 s = put p.2.2) ∧
    encScalar (.popc d a) = [encS3 0x1F d a 0 0] ∧
    exec (.popc d a) s = put (BitVec.ofNat 32 ((List.range 32).countP fun k => x.getLsbD k))

/-- The words with an immediate of R248 complete: the SPC moves past the word, and past its prefix where it has one. -/
def Obligations.ScalarImmediateWordsComplete : Prop :=
  ∀ (s : State) (d a : SReg) (i : Imm) (n : BitVec 5), s.present = true → s.held [d, a] = false →
    let x := s.sreg a
    let on (v : Word) : Out := .next ((s.setS d v).advance (if i.pfx then 8 else 4))
    let put (v : Word) : Out := .next ((s.setS d v).advance 4)
    exec (.addi d a i) s = on (BitVec.ofNat 32 (x.toNat + i.val.toNat)) ∧
    exec (.andi d a i) s = on (x &&& i.val) ∧
    exec (.ori d a i) s = on (x ||| i.val) ∧
    exec (.xori d a i) s = on (x ^^^ i.val) ∧
    exec (.shli d a n) s = put (BitVec.ofNat 32 (x.toNat * 2 ^ n.toNat)) ∧
    exec (.shri d a n) s = put (BitVec.ofNat 32 (x.toNat / 2 ^ n.toNat)) ∧
    exec (.srai d a n) s = put (BitVec.ofInt 32 (x.toInt / 2 ^ n.toNat)) ∧
    exec (.slti d a i) s = on (if x.toInt < i.val.toInt then 1 else 0) ∧
    exec (.sltui d a i) s = on (if x.toNat < i.val.toNat then 1 else 0)

/-- The pair forms of R249: where every operand written as a pair names an even register, the effect of the table; a pair operand that names an odd
register takes the illegal-register fault and nothing else happens (03 R59). -/
def Obligations.ScalarPairWordsComplete : Prop :=
  ∀ (s : State) (d a b : SReg) (i : Imm), s.present = true →
    let x := s.spair a
    let y := s.spair b
    let n := (s.sreg b).toNat
    let put (v : DWord) : Out := .next ((s.setPair d v).advance 4)
    let trap : Out := .next (s.raiseNow .illegalRegister)
    (∀ p ∈ ([(0x29, .add64 d a b, BitVec.ofNat 64 (x.toNat + y.toNat)), (0x2A, .sub64 d a b, BitVec.ofInt 64 (x.toInt - y.toInt)),
        (0x2E, .mul64 d a b, BitVec.ofNat 64 (x.toNat * y.toNat))] : List (BitVec 7 × Instr × DWord)),
      encScalar p.2.1 = [encS3 p.1 d a b 0] ∧
      (d.toNat % 2 = 0 → a.toNat % 2 = 0 → b.toNat % 2 = 0 → s.held [d, d + 1, a, a + 1, b, b + 1] = false → exec p.2.1 s = put p.2.2) ∧
      (d.toNat % 2 = 1 ∨ a.toNat % 2 = 1 ∨ b.toNat % 2 = 1 → exec p.2.1 s = trap)) ∧
    (∀ p ∈ ([(0x2B, .shl64 d a b, if n < 64 then BitVec.ofNat 64 (x.toNat * 2 ^ n) else 0),
        (0x2C, .shr64 d a b, if n < 64 then BitVec.ofNat 64 (x.toNat / 2 ^ n) else 0)] : List (BitVec 7 × Instr × DWord)),
      encScalar p.2.1 = [encS3 p.1 d a b 0] ∧
      (d.toNat % 2 = 0 → a.toNat % 2 = 0 → s.held [d, d + 1, a, a + 1, b] = false → exec p.2.1 s = put p.2.2) ∧
      (d.toNat % 2 = 1 ∨ a.toNat % 2 = 1 → exec p.2.1 s = trap)) ∧
    encScalar (.addi64 d a i) = encImm i (encSI 0x2D d a i.low) ∧
    (d.toNat % 2 = 0 → a.toNat % 2 = 0 → s.held [d, d + 1, a, a + 1] = false →
      exec (.addi64 d a i) s = .next ((s.setPair d (BitVec.ofInt 64 (x.toInt + i.val.toInt))).advance (if i.pfx then 8 else 4))) ∧
    (d.toNat % 2 = 1 ∨ a.toNat % 2 = 1 → exec (.addi64 d a i) s = trap) ∧
    encScalar (.sltu64 d a b) = [encS3 0x2F d a b 0] ∧
    (a.toNat % 2 = 0 → b.toNat % 2 = 0 → s.held [d, a, a + 1, b, b + 1] = false →
      exec (.sltu64 d a b) s = .next ((s.setS d (if x.toNat < y.toNat then 1 else 0)).advance 4)) ∧
    (a.toNat % 2 = 1 ∨ b.toNat % 2 = 1 → exec (.sltu64 d a b) s = trap)

/-- What a scalar result does: a group with no result on its way whose word writes v to sd and moves on. s0 stays zero, every other
register, and everything of the machine but this group's registers, SPC and issue marks, is as it was (03 R59, 13 R242).

The same for a pair: the even register takes the low half; based on s0 it writes s1 only (03 R59, 13 R242).

A Curator's registers: sd takes the result, s0 stays zero, its SPC moves on; no other core, group or byte of memory changes (22 R345).

A Curator's pair: the even register takes the low half; based on s0 it writes s1 only (03 R59, 13 R242, 22 R345). -/
def Obligations.ScalarResultsWriteTheirRegisters : Prop :=
  (∀ (s : State) (t i : Nat) (g : Group) (d : SReg) (v : Word) (len : Nat), s.Issuer t i g → g.Idle → g.s.wf = true →
     ∃ g', ((s.setS d v).advance len).group t i = some g' ∧
       (∀ r, g'.readS false r = if r = 0 then 0 else if r = d.toNat then v else g.readS false r) ∧
       g'.spc = g.spc + BitVec.ofNat 64 len ∧ g.SameBut g' [d.toNat] ∧
       s.SameButGroups ((s.setS d v).advance len) ∧ s.OthersSame ((s.setS d v).advance len) t i ∧
       s.MemorySame ((s.setS d v).advance len)) ∧
  (∀ (s : State) (t i : Nat) (g : Group) (d : SReg) (v : DWord) (len : Nat), s.Issuer t i g → g.Idle → g.s.wf = true → d.toNat % 2 = 0 →
     ∃ g', ((s.setPair d v).advance len).group t i = some g' ∧
       (∀ r, g'.readS false r = if r = 0 then 0 else if r = d.toNat then v.setWidth 32 else if r = d.toNat + 1 then BitVec.ofNat 32 (v.toNat / 2 ^ 32)
         else g.readS false r) ∧
       g'.spc = g.spc + BitVec.ofNat 64 len ∧ g.SameBut g' [d.toNat, d.toNat + 1] ∧
       s.SameButGroups ((s.setPair d v).advance len) ∧ s.OthersSame ((s.setPair d v).advance len) t i ∧
       s.MemorySame ((s.setPair d v).advance len)) ∧
  (∀ (s : State) (c : Nat) (d : SReg) (v : Word) (len : Nat), s.Curates c → (s.core c).s.wf = true →
     let s' := (s.setS d v).advance len
     (∀ r : SReg, s'.sreg r = if r = 0 then 0 else if r = d then v else s.sreg r) ∧
       s'.core c = { s.core c with s := (s'.core c).s, spc := (s.core c).spc + BitVec.ofNat 64 len } ∧
       s' = { s with cores := s'.cores } ∧ (∀ e, e ≠ c → s'.core e = s.core e) ∧ s.MemorySame s') ∧
  (∀ (s : State) (c : Nat) (d : SReg) (v : DWord) (len : Nat), s.Curates c → (s.core c).s.wf = true → d.toNat % 2 = 0 →
     let s' := (s.setPair d v).advance len
     (∀ r : SReg, s'.sreg r = if r = 0 then 0 else if r = d then v.setWidth 32 else if r = d + 1 then BitVec.ofNat 32 (v.toNat / 2 ^ 32) else s.sreg r) ∧
       s'.core c = { s.core c with s := (s'.core c).s, spc := (s.core c).spc + BitVec.ofNat 64 len } ∧
       s' = { s with cores := s'.cores } ∧ (∀ e, e ≠ c → s'.core e = s.core e) ∧ s.MemorySame s')

/-- The branches and jumps complete. The target is 4 × offset bytes from the instruction; a branch not taken moves on; an odd pair takes the
illegal-register fault. -/
def Obligations.BranchesComplete : Prop :=
  ∀ (s : State) (d a : SReg) (i : Imm) (off : BitVec 25), s.present = true → s.held [d, a] = false →
    let trap : Out := .next (s.raiseNow .illegalRegister)
    let goal (o : Int) : DWord := s.spc + BitVec.ofInt 64 (4 * o)
    let on : State := s.advance (if i.pfx then 8 else 4)
    let either (c : Prop) [Decidable c] : Out := .next (if c then s.jump (goal i.val.toInt) else on)
    exec (.br off) s = .next (s.jump (goal off.toInt)) ∧
    exec (.beq d a i) s = either (s.sreg d = s.sreg a) ∧
    exec (.bne d a i) s = either (s.sreg d ≠ s.sreg a) ∧
    exec (.blt d a i) s = either ((s.sreg d).toInt < (s.sreg a).toInt) ∧
    exec (.bge d a i) s = either ((s.sreg a).toInt ≤ (s.sreg d).toInt) ∧
    (d.toNat % 2 = 0 → s.held [d, d + 1] = false →
      exec (.jal d i) s = .next ((if d = 0 then s else s.setPair d (s.spc + if i.pfx then 8 else 4)).jump (goal i.val.toInt))) ∧
    (a.toNat % 2 = 0 → s.held [a, a + 1] = false →
      exec (.jr a) s = .next (if (s.spair a).toNat % 4 = 0 then s.jump (s.spair a) else s.raiseNow .illegalOperand)) ∧
    (d.toNat % 2 = 1 → exec (.jal d i) s = trap) ∧ (a.toNat % 2 = 1 → exec (.jr a) s = trap)

/-- lpc, lx and lxa complete: a run starts where every word of it is mapped for a code fetch, and carries the three words of code of each lane word,
fetched before any of them issues (02 R42, R43).

That the run holds the words that stand in memory when lx or lxa issues is the model's choice (log 51). -/
def Obligations.LaneRunsStart : Prop :=
  ∀ (s : State) (t i : Nat) (g : Group) (a : SReg) (im : Imm) (n : BitVec 11) (m : BitVec 7) (code : List Word), s.Issuer t i g → s.held [a] = false →
    s.Sound →
    let codeOf (x : Word) (k : Nat) : Prop := code.length = 3 * k ∧ ∀ j, j < k → ∀ q, q < 3 →
      s.laneAddr t (x + BitVec.ofNat 32 j) q < 2 ^ 57 ∧ ∃ pa, s.translateNow t i .fetch (s.laneAddr t (x + BitVec.ofNat 32 j) q) = .ok pa ∧
        code[3 * j + q]? = some (s.wordAt (.dev pa))
    let start (r : Run) : Out := .next (s.putGroup t i (({ g with run := r, reissue := none } : Group).tick false))
    exec (.lpc a im) s = .next ((s.putGroup t i { g with lpc := s.sreg a + im.val }).advance (if im.pfx then 8 else 4)) ∧
    (codeOf g.lpc n.toNat → exec (.lx n) s = start ⟨n.toNat, g.lpc, false, 4, code⟩) ∧
    (codeOf (s.sreg a + im.val) (m.toNat + 1) → exec (.lxa m a im) s = start ⟨m.toNat + 1, s.sreg a + im.val, true, if im.pfx then 8 else 4, code⟩)

/-- mpush, melse and mpop complete: the mask, fmt and the stack as 02 R48 gives them. At the depth limit, or on an empty stack, they fault and
change nothing else (02 R49). Beyond 32 entries a push writes a row of the spill area, and a pop takes the entry that the area reads back (02 R49, R50;
24 R394).

A pop undoes a push at every depth, through the area in the spill stack beyond 32 entries: the stack, and the mask and fmt that the
next pop restores, are those before the push (02 R48-R50). -/
def Obligations.ReconvergenceWordsComplete : Prop :=
  (∀ (s : State) (t i : Nat) (g : Group) (x : Team) (n : BitVec 5), s.Issuer t i g → s.team t = some x → g.Idle → g.s.wf = true →
     let k := g.k.get n.toNat
     let m := g.mask false
     let area (p : Nat) : Loc := .spill t i (14336 + 32 * p)
     (g.rdepth < (if x.spillOn then 96 else 32) → ∃ g', exec (.mpush n) s = .next (if g.rstack.length < 32 then s.putGroup t i g'
         else (s.putGroup t i g').freshRows (area (g.rdepth - 32)) 32) ∧ g'.mask false = m &&& k ∧ g'.fmt = g.fmt ∧
       g'.rdepth = g.rdepth + 1 ∧ g'.rstack.head? = some ⟨m, k, g.fmt⟩ ∧ g'.spc = g.spc + 4 ∧
       (∀ r, r < 125 → g'.readS false r = g.readS false r)) ∧
     ((if x.spillOn then 96 else 32) ≤ g.rdepth → exec (.mpush n) s = .next (s.raiseNow .reconvOverflow)) ∧
     (∀ e r, g.rstack = e :: r → ∃ g', exec .melse s = .next (s.putGroup t i g') ∧ g'.mask false = e.mask &&& ~~~e.els ∧ g'.fmt = e.fmt ∧
       g'.rstack = g.rstack ∧ g'.rdepth = g.rdepth ∧ g'.spc = g.spc + 4 ∧ (∀ q, q < 125 → g'.readS false q = g.readS false q)) ∧
     (∀ e r, g.rstack = e :: r → ∃ g', exec .mpop s = .next (if g.rdepth ≤ 32 then s.putGroup t i g'
         else (s.putGroup t i g').noteRead (area (g.rdepth - 33)) 32 g.core (some (t, some i))) ∧ g'.mask false = e.mask ∧ g'.fmt = e.fmt ∧
       (g.rdepth ≤ 32 → g'.rstack = r) ∧
       (32 < g.rdepth → ∃ o, g'.rstack = r ++ [o] ∧ let y := s.numAt (area (g.rdepth - 33)) 32
         o.mask = BitVec.ofNat 96 y ∧ o.els = BitVec.ofNat 96 (y / 2 ^ 96) ∧ o.fmt = BitVec.ofNat 32 (y / 2 ^ 192)) ∧
       g'.rdepth = g.rdepth - 1 ∧ g'.spc = g.spc + 4 ∧ (∀ q, q < 125 → g'.readS false q = g.readS false q)) ∧
     (g.rstack = [] → exec .melse s = .next (s.raiseNow .reconvUnderflow) ∧ exec .mpop s = .next (s.raiseNow .reconvUnderflow))) ∧
  (∀ (g : Group) (e : Reconv), g.spill.wf = true → g.rstack.length = min g.rdepth 32 →
     (g.pushReconv e).popReconv.rstack = g.rstack ∧ (g.pushReconv e).popReconv.rdepth = g.rdepth ∧ (g.pushReconv e).rstack.head? = some e ∧
       (g.pushReconv e).rstack.length = min (g.pushReconv e).rdepth 32 ∧
       ∀ a, a < 14336 → (g.pushReconv e).spill.get a = g.spill.get a)

/-- kget, kset, movvs, movsv and elect complete; a lane index of 96 or more, a register beyond the budget and a selection word with a bit above 3 fault
(13 R253, R254, R256; 03 R61). -/
def Obligations.PredicateMoveWordsComplete : Prop :=
  ∀ (s : State) (t i : Nat) (g : Group) (d a : SReg) (w : BitVec 2) (n : BitVec 5) (v : VReg), s.Issuer t i g → g.Idle → g.k.wf = true →
    exec (.kget d w n) s = .next ((s.setS d (BitVec.ofNat 32 ((g.k.get n.toNat).toNat / 2 ^ (32 * w.toNat)))).advance 4) ∧
    (w.toNat < 3 → ∃ g', exec (.kset a w n) s = .next ((s.putGroup t i g').advance 4) ∧
      (∀ l, l < 96 → (g'.k.get n.toNat).getLsbD l =
        (decide (l < g.live) && if l / 32 = w.toNat then (s.sreg a).getLsbD (l % 32) else (g.k.get n.toNat).getLsbD l)) ∧
      (∀ k, k ≠ n.toNat → g'.k.get k = g.k.get k) ∧ g' = { g with k := g'.k }) ∧
    (v.toNat < 32 * g.blocks → (s.sreg a).toNat < 96 → g.deferred v.toNat = false → g.badV = [] →
      exec (.movvs d a v) s =
        .next ((s.setS d (if (s.sreg a).toNat < g.live then g.v.get (96 * v.toNat + (s.sreg a).toNat) else 0)).advance 4) ∧
      ((s.sreg a).toNat < g.live → exec (.movsv d a v) s =
        .next (s.putGroup t i (({ g with v := g.v.set (96 * v.toNat + (s.sreg a).toNat) (s.sreg d) } : Group).advance 4))) ∧
      (g.live ≤ (s.sreg a).toNat → exec (.movsv d a v) s = .next (s.putGroup t i (g.advance 4)))) ∧
    (v.toNat < 32 * g.blocks → 96 ≤ (s.sreg a).toNat → ∀ ins ∈ [Instr.movvs d a v, .movsv d a v], exec ins s = .next (s.raiseNow .illegalOperand)) ∧
    (32 * g.blocks ≤ v.toNat → ∀ ins ∈ [Instr.movvs d a v, .movsv d a v], exec ins s = .next (s.raiseNow .illegalRegister)) ∧
    (16 ≤ (s.sreg a).toNat → exec (.elect d a) s = .next (s.raiseNow .illegalOperand)) ∧
    ((s.sreg a).toNat < 16 →
      let kindOf (x : Group) : Bool := decide (1 ≤ x.kind) && decide (x.kind ≤ 3) && (s.sreg a).getLsbD x.kind
      let cand := (s.groupsOf t).filter fun x => kindOf x && (!(s.sreg a).getLsbD 0 || x.core == g.core)
      exec (.elect d a) s = .next ((s.setS d (if (cand.head?.map (·.idx)) = some i then 1 else 0)).advance 4))

/-- sget completes: the specials of 03 R67 as the group reads them, the wide ones through an even pair; a pair that names an odd register takes the
illegal-register fault (03 R59).

sset completes for each writable special where its value is one that the special takes; writing seed zeroes the conversion and
write-back counts; a value that it does not take, a read-only special, and an odd register for seed's pair fault (03 R59, R67-R69, 04 R89). -/
def Obligations.SpecialRegistersReadAndWrite : Prop :=
  (∀ (s : State) (t i : Nat) (g : Group) (x : Team) (gr : Grid) (d : SReg), s.Issuer t i g → g.Idle → s.team t = some x → s.gridOf t = some gr →
     s.sfuOps t i = [] →
     let one (k v : Nat) : Prop := exec (.sget d (BitVec.ofNat 11 k)) s = .next ((s.setS d (BitVec.ofNat 32 v)).advance 4)
     let two (k : Nat) (v : DWord) : Prop := (d.toNat % 2 = 0 → exec (.sget d (BitVec.ofNat 11 k)) s = .next ((s.setPair d v).advance 4)) ∧
       (d.toNat % 2 = 1 → exec (.sget d (BitVec.ofNat 11 k)) s = .next (s.raiseNow .illegalRegister))
     one 0 g.idx ∧ one 1 x.id ∧ one 2 (32 * x.id + g.idx) ∧ one 3 (g.kind % 4 + 4 * g.role) ∧ one 4 g.live ∧ one 5 x.ngrp ∧ one 6 gr.nteams ∧
       one 7 (g.core / 12) ∧ one 8 g.core ∧ one 9 (g.core % 12 / 2) ∧ one 10 (g.slot / 8) ∧ one 12 g.fmt.toNat ∧ one 14 g.ptol.toNat ∧
       one 15 g.clip.toNat ∧ one 16 g.cond.toNat ∧ two 11 s.clk ∧ two 13 g.seed ∧ two 17 g.hnd) ∧
  (∀ (s : State) (t i : Nat) (g : Group) (a : SReg), s.Issuer t i g → g.Idle →
     let v := s.sreg a
     let put (g' : Group) : Out := .next ((s.putGroup t i g').advance 4)
     (fmtOk v = true → exec (.sset a 12) s = put { g with fmt := v }) ∧
     (fmtOk v = false → exec (.sset a 12) s = .next (s.raiseNow .illegalField)) ∧
     (a.toNat % 2 = 0 → exec (.sset a 13) s = put { g with seed := s.spair a, convCnt := 0, wbCnt := 0 }) ∧
     (nonNegative v = true → exec (.sset a 14) s = put { g with ptol := v } ∧ exec (.sset a 15) s = put { g with clip := v }) ∧
     (nonNegative v = false → exec (.sset a 14) s = .next (s.raiseNow .illegalOperand) ∧ exec (.sset a 15) s = .next (s.raiseNow .illegalOperand)) ∧
     (a.toNat % 2 = 1 → exec (.sset a 13) s = .next (s.raiseNow .illegalRegister)) ∧
     (v.toNat < 2 ^ 14 → exec (.sset a 16) s = put { g with cond := v }) ∧
     (2 ^ 14 ≤ v.toNat → exec (.sset a 16) s = .next (s.raiseNow .illegalField)) ∧
     (∀ k, k < 11 ∨ (k = 11 ∨ k = 17) ∧ a.toNat % 2 = 0 → exec (.sset a (BitVec.ofNat 11 k)) s = .next (s.raiseNow .illegalOperand)))

/-- hset (13 R266): with sa = s0 hnd takes the address 4 × off bytes from the word, else it takes the pair sa:sa+1; an address that is no multiple of 4, an odd
sa, and at sa ≠ s0 a nonzero immediate, take their faults. -/
def Obligations.HandlerAddressIsSet : Prop :=
  ∀ (s : State) (t i : Nat) (g : Group) (a : SReg) (im : Imm) (p : Bool), s.Issuer t i g → g.Idle →
    let put (v : DWord) (len : Nat) : Out := .next ((s.putGroup t i { g with hnd := v }).advance len)
    let goal := g.spc + BitVec.ofInt 64 (4 * im.val.toInt)
    encScalar (.hsetLabel im) = encImm im (encSI 0x0C 0 0 im.low) ∧
    (goal.toNat % 4 = 0 → exec (.hsetLabel im) s = put goal (if im.pfx then 8 else 4)) ∧
    (goal.toNat % 4 ≠ 0 → exec (.hsetLabel im) s = .next (s.raiseNow .illegalOperand)) ∧
    encScalar (.hsetRegister a p) = encImm ⟨0, p⟩ (encSI 0x0C 0 a 0) ∧
    (a.toNat % 2 = 0 → (s.spair a).toNat % 4 = 0 → exec (.hsetRegister a p) s = put (s.spair a) (if p then 8 else 4)) ∧
    (a.toNat % 2 = 0 → (s.spair a).toNat % 4 ≠ 0 → exec (.hsetRegister a p) s = .next (s.raiseNow .illegalOperand)) ∧
    (a.toNat % 2 = 1 → exec (.hsetRegister a p) s = .next (s.raiseNow .illegalRegister)) ∧
    ∀ (w : Word) (next : Option Word), fOp w = 0x0C → fA w ≠ 0 → fI w ≠ 0 →
      decodeScalar w next = .error (.illegalField 0x0C) ∧ s.refuse false (.illegalField 0x0C) = .next (s.raiseNow .illegalField)

/-- hret completes where the group is in its handler at the frame's stack depth: mask, fmt, LPC, run state and SPC are the frame's, the
handler is left, every other register stays (13 R268). Outside a handler, or at another depth, it faults.

Entering a handler and returning at once leaves the mask, fmt, LPC, run state and SPC as they stood at the word (13 R267, R268), and a
group in its handler enters it for nothing more (03 R69). -/
def Obligations.HandlerReturnRestoresFrame : Prop :=
  (∀ (s : State) (t i : Nat) (g : Group), s.Issuer t i g → g.Idle → g.s.wf = true →
     (∀ f, g.frame = some f → g.rdepth = f.depth → ∃ g', exec .hret s = .next (s.putGroup t i g') ∧ g'.mask false = f.mask ∧ g'.fmt = f.fmt ∧
       g'.lpc = f.lpc ∧ g'.run = f.run ∧ g'.spc = f.spc ∧ g'.frame = none ∧ (∀ r, r < 125 → g'.readS false r = g.readS false r) ∧
       g'.v = g.v ∧ g'.k = g.k ∧ g'.cond = g.cond ∧ g'.rstack = g.rstack) ∧
     (∀ f, g.frame = some f → g.rdepth ≠ f.depth → exec .hret s = .next (s.raiseNow .illegalOperand)) ∧
     (g.frame = none → exec .hret s = .next (s.raiseNow .illegalOperand))) ∧
  (∀ (g : Group) (c : Cond), g.Idle → g.s.wf = true →
     let h := g.enterHandler c
     h.spc = g.hnd ∧ h.run.n = 0 ∧ h.mask false = g.mask false ∧ h.fmt = g.fmt ∧ (∀ c', h.canEnter c' = false) ∧
       ∃ f, h.frame = some f ∧ f.cond = c ∧ (h.leaveHandler f).spc = g.spc ∧ (h.leaveHandler f).lpc = g.lpc ∧ (h.leaveHandler f).run = g.run ∧
         (h.leaveHandler f).mask false = g.mask false ∧ (h.leaveHandler f).fmt = g.fmt ∧ (h.leaveHandler f).frame = none)

/-- trap and brk take their fault: a record with the code and the SPC of the word stands in the core's queue or waits for it, the team is
halted, the group's fault is pending, its SPC is on the next word, its registers are as they were (13 R245, 22 R348, R349). -/
def Obligations.TrapWordsTakeTheirFault : Prop :=
  ∀ (s : State) (t i : Nat) (g : Group) (x : Team) (c : BitVec 16), s.Issuer t i g → s.team t = some x → g.Idle → g.idx = i → i < 64 →
    s.sfuOps t i = [] →
    ∀ p ∈ [(Instr.trap c, FaultCode.userTrap), (Instr.brk c, FaultCode.breakpoint)], ∃ s' g' r, exec p.1 s = .next s' ∧
      s'.group t i = some g' ∧ (∃ x', s'.team t = some x' ∧ x'.halted = true) ∧
      ((∃ q, (s'.core g.core).fq.get q = some r) ∨ r ∈ (s'.core g.core).fqWait) ∧
      r.code = p.2 ∧ r.aux = c.setWidth 32 ∧ r.pc = g.spc ∧ r.lword = g.lword ∧ r.glid = BitVec.ofNat 32 (32 * x.id + i) ∧ r.team = BitVec.ofNat 32 x.id ∧
      r.taken = false ∧ r.impr = false ∧ r.seq = (s.core g.core).seq ∧ r.clk = s.clk ∧
      g'.faulted = true ∧ g'.spc = g.spc + 4 ∧ g'.s = g.s ∧ g'.v = g.v ∧ g'.k = g.k ∧ g'.sh = g.sh ∧ g'.cond = g.cond ∧
      s'.dev = s.dev ∧ s'.annex = s.annex

/-- The scalar loads complete: at an aligned address inside the space the word is read, counted on ld, and on its way to sd; the SPC moves
on. With L = 0 no instruction of the group sees sd before it has come (02 R53, R55).

The data of a load reaches its registers where it comes and its window is over: a scalar register, up to four vector registers in the lanes of the
load (vld, vfill, vatom, vfatom.max), or a shape register, word k at bits 32k (shld); in a window that is still open it waits there. Every other register
is as it was, the load leaves ld (02 R52-R55, 13 R257, 15 R294).

That a load reads memory when its word issues is the model's choice (log 3). -/
def Obligations.ScalarLoadsComplete : Prop :=
  (∀ (s : State) (t i : Nat) (g : Group) (d a : SReg) (im : Imm) (la sc : Nat) (ax : Bool), s.Issuer t i g → s.Sound → g.Idle →
     g.counter .ld < 255 → la < 16 →
     let fits (x : Nat) : Prop := x % 4 = 0 ∧ x + 4 ≤ s.limit ax
     let loads (ins : Instr) (x : Nat) (L len : Nat) : Prop := ∃ s' g', exec ins s = .next s' ∧ s'.group t i = some g' ∧
       g'.spc = g.spc + BitVec.ofNat 64 len ∧ g'.s = g.s ∧ g'.counter .ld = g.counter .ld + 1 ∧
       g'.pend = (if d.toNat = 0 then [] else [⟨.s d.toNat, 1, Cells.set [] 0 (s.wordAt (s.placeNow ax x)), s.handles, false, L, if L = 0 then 0 else s.handles, false, false⟩]) ∧
       (∃ o, s'.ops.get s.handles = some o ∧ o.kind = .load ∧ o.tid = t ∧ o.idx = i) ∧ s.MemorySame s'
     let off := (s.sreg a + im.val).toNat
     (ax = false → fits off → loads (.sldTeamMemory d a im) off 0 (if im.pfx then 8 else 4)) ∧
     (ax = true → fits off → loads (.sldAnnex d a im) off 0 (if im.pfx then 8 else 4)) ∧
     (fits (s.sreg a).toNat → loads (.sldAcq d a ax (BitVec.ofNat 2 sc) (BitVec.ofNat 4 la)) (s.sreg a).toNat la 4)) ∧
  (∀ (s : State) (t i h : Nat) (g : Group) (x : Team) (o : Op), Tab.wf s.ops = true → s.ops.get h = some o → o.kind = .load → o.tid = t → o.idx = i →
     Tab.wf s.groups = true → s.group t i = some g → g.idx = i → i < 64 → s.team t = some x → x.killing = false → x.asms = [] → g.ended = false → g.wait = none →
     g.infl = [⟨.ld, h, false⟩] → g.cntAdj = [] →
     let ends (f : Group → Prop) : Prop := ∃ s' g', exec (.laneLoadComplete h) s = .next s' ∧ s'.group t i = some g' ∧ g'.counter .ld = 0 ∧ s'.ops.get h = none ∧
       s.MemorySame s' ∧ f g'
     (∀ r v, g.s.wf = true → r ≠ 0 → g.pend = [⟨.s r, 1, Cells.set [] 0 v, h, false, 0, 0, false, false⟩] → ends fun g' => g'.pend = [] ∧ g'.readS false r = v ∧
       (∀ q, q ≠ r → g'.readS false q = g.readS false q) ∧ g'.v = g.v ∧ g'.k = g.k ∧ g'.sh = g.sh) ∧
     (∀ (n r : Nat) (m : LaneMask) (vals : Nat → Cells 32), g.v.wf = true → g.badV = [] → (∀ q, g.deferred q = false) →
       g.pend = (List.range n).map (fun j => ⟨.v (r + j), m, vals j, h, true, 0, 0, false, false⟩) → ends fun g' => g'.pend = [] ∧
         (∀ q l, l < 96 → g'.v.get (96 * q + l) = if r ≤ q ∧ q < r + n ∧ m.getLsbD l = true then (vals (q - r)).get l else g.v.get (96 * q + l)) ∧
         g'.s = g.s ∧ g'.k = g.k ∧ g'.sh = g.sh) ∧
     (∀ (n r left win : Nat) (m : LaneMask) (vals : Nat → Cells 32), 0 < left →
       g.pend = (List.range n).map (fun j => ⟨.v (r + j), m, vals j, h, true, left, win, false, false⟩) → ends fun g' => g'.v = g.v ∧ g'.s = g.s ∧
         g'.pend = (List.range n).map fun j => ⟨.v (r + j), m, vals j, h, true, left, win, true, false⟩) ∧
     (∀ n vals, g.sh.wf = true → g.pend = [⟨.sh n, 1, vals, h, false, 0, 0, false, false⟩] → ends fun g' => g'.pend = [] ∧
       (∀ k, k < 16 → (g'.sh.get n).extractLsb' (32 * k) 32 = vals.get k) ∧ (∀ q, q ≠ n → g'.sh.get q = g.sh.get q) ∧ g'.s = g.s ∧ g'.v = g.v ∧ g'.k = g.k))

/-- The scalar stores complete: the four bytes of sd at the address, the SPC moved on (13 R250, R251).

A misaligned or overrunning scalar access takes the address fault and does nothing else; faddr names the space and the offset
(13 R250, 22 R348).

That a store is performed when its word issues is the model's choice (log 3). -/
def Obligations.ScalarStoresComplete : Prop :=
  (∀ (s : State) (d a : SReg) (im : Imm) (sc : BitVec 2) (ax : Bool), s.present = true → s.held [d, a] = false →
     let fits (b : Bool) (x : Nat) : Prop := x % 4 = 0 ∧ x + 4 ≤ s.limit b
     let store (b : Bool) (x len : Nat) : Out := .next ((s.setNum (s.placeNow b x) 4 (s.sreg d).toNat).advance len)
     let off := (s.sreg a + im.val).toNat
     (fits false off → exec (.sstTeamMemory d a im) s = store false off (if im.pfx then 8 else 4)) ∧
     (fits true off → exec (.sstAnnex d a im) s = store true off (if im.pfx then 8 else 4)) ∧
     (fits ax (s.sreg a).toNat → exec (.sstRel d a ax sc) s = store ax (s.sreg a).toNat 4)) ∧
  (∀ (s : State) (d a : SReg) (im : Imm) (sc : BitVec 2) (la : BitVec 4) (ax : Bool), s.present = true → s.held [d, a] = false →
     let bad (b : Bool) (x : Nat) : Prop := x % 4 ≠ 0 ∨ s.limit b < x + 4
     let trap (b : Bool) (x : Nat) : Out := .next (s.raiseNow .address { faddr := (if b then 2 else 1) * 2 ^ 60 + x })
     let off := (s.sreg a + im.val).toNat
     (bad false off → exec (.sldTeamMemory d a im) s = trap false off ∧ exec (.sstTeamMemory d a im) s = trap false off) ∧
     (bad true off → exec (.sldAnnex d a im) s = trap true off ∧ exec (.sstAnnex d a im) s = trap true off) ∧
     (bad ax (s.sreg a).toNat → exec (.sldAcq d a ax sc la) s = trap ax (s.sreg a).toNat ∧ exec (.sstRel d a ax sc) s = trap ax (s.sreg a).toNat))

/-- A store's bytes: inside, memory reads as stored, lowest byte first; every other byte of every space reads as before. It holds of the plain bytes, of a
store at its home with what follows it there, and of a number (00 R10, 06 R117). -/
def Obligations.StoreWritesItsBytesOnly : Prop :=
  ∀ (s : State) (l : Loc) (n x : Nat) (bs : List Byte), s.StoresWf → s.Sound → Tab.wf s.groups = true → Tab.wf s.teams = true →
    let fits (n : Nat) : Prop := match l with
      | .team t _ => ∃ y, s.team t = some y ∧ y.tm.wf = true
      | .spill t i _ => ∃ g, s.group t i = some g ∧ g.spill.wf = true ∧ i < 64
      | .annex _ o => o + n ≤ 2 ^ 26
      | .peer _ a => a + n ≤ 2 ^ 57
      | .curator c _ => (s.core c).mem.wf = true
      | .dev _ => True
    let writes (s' : State) (n : Nat) (b : Nat → Byte) : Prop := (∀ k, k < n → s'.byteAt (l.plus k) = b k) ∧
      ∀ m : Loc, m.Real → (∀ k, k < n → m ≠ l.plus k) → s'.byteAt m = s.byteAt m
    (fits bs.length → writes (s.setBytesRaw l bs) bs.length (fun k => bs.getD k 0) ∧ writes (s.setBytes l bs) bs.length (fun k => bs.getD k 0)) ∧
    (fits n → writes (s.setNum l n x) n fun k => BitVec.ofNat 8 (x / 256 ^ k))

/-- shld completes at a 64-byte aligned address inside its space: 64 bytes are on their way to the shape register, byte i at bits 8i; at any other address it
takes the address fault, faddr naming the space and the offset (13 R257, 22 R348).

shset completes: the bits of its field are those of the source, every other bit of the shape register is as it was; .clear makes all
512 zero. A value that its field does not take raises the illegal-operand fault, and an odd register for a pair field the illegal-register fault
(13 R258, 03 R59).

That shld reads memory when it issues is the model's choice (log 3). -/
def Obligations.ShapeWordsComplete : Prop :=
  (∀ (s : State) (t i : Nat) (g : Group) (ax : Bool) (n : ShReg) (a : SReg) (im : Imm), s.Issuer t i g → s.Sound → g.Idle → g.counter .ld < 255 →
     let x := (s.sreg a + im.val).toNat
     (x % 64 ≠ 0 ∨ s.limit ax < x + 64 → exec (.shld ax n a im) s = .next (s.raiseNow .address { faddr := (if ax then 2 else 1) * 2 ^ 60 + x })) ∧
     (x % 64 = 0 → x + 64 ≤ s.limit ax → ∃ s' g' vals, exec (.shld ax n a im) s = .next s' ∧ s'.group t i = some g' ∧ g'.spc = g.spc + BitVec.ofNat 64 (if im.pfx then 8 else 4) ∧
       g'.counter .ld = g.counter .ld + 1 ∧ g'.pend = [⟨.sh n.toNat, 1, vals, s.handles, false, 0, 0, false, false⟩] ∧
       (∀ k, k < 16 → vals.get k = s.wordAt ((s.placeNow ax x).plus (4 * k))) ∧ g'.sh = g.sh ∧ s.MemorySame s')) ∧
  (∀ (s : State) (t i : Nat) (g : Group) (n : ShReg) (a : SReg) (f : BitVec 7), s.Issuer t i g → g.Idle → g.sh.wf = true →
     let pair : Bool := f.toNat = 0 || (9 ≤ f.toNat && f.toNat ≤ 13)
     let v : DWord := if pair then s.spair a else (s.sreg a).setWidth 64
     let takes : Prop := if 9 ≤ f.toNat ∧ f.toNat ≤ 13 then -(2 : Int) ^ 47 ≤ v.toInt ∧ v.toInt < 2 ^ 47
         else if f.toNat = 3 then v.toNat < 16 else v.toNat < 2 ^ (shField f.toNat).2
     (pair = true → a.toNat % 2 = 1 → exec (.shset n a f) s = .next (s.raiseNow .illegalRegister)) ∧
     ((pair = true → a.toNat % 2 = 0) →
       (f.toNat < 16 → takes → ∃ g', exec (.shset n a f) s = .next (s.putGroup t i g') ∧ g'.spc = g.spc + 4 ∧
         (∀ j, j < 512 → (g'.sh.get n.toNat).getLsbD j =
           if (shField f.toNat).1 ≤ j ∧ j < (shField f.toNat).1 + (shField f.toNat).2 then v.getLsbD (j - (shField f.toNat).1)
           else (g.sh.get n.toNat).getLsbD j) ∧
         (∀ m, m ≠ n.toNat → g'.sh.get m = g.sh.get m) ∧ g'.s = g.s) ∧
       (f.toNat < 16 → ¬takes → exec (.shset n a f) s = .next (s.raiseNow .illegalOperand)) ∧
       (f.toNat = 16 → ∃ g', exec (.shset n a f) s = .next (s.putGroup t i g') ∧ g'.spc = g.spc + 4 ∧ g'.sh.get n.toNat = 0 ∧
         ∀ m, m ≠ n.toNat → g'.sh.get m = g.sh.get m)))

/-- wait completes at once where its counter is at most n; yield continues at its label, or parks with its record; fence has nothing left
to wait for (log 3).

The counter that falls to n wakes a parked yield at its label, with every register as it was (02 R57). -/
def Obligations.CounterWaitsComplete : Prop :=
  (∀ (s : State) (t i : Nat) (g : Group) (c : BitVec 3) (n : BitVec 8) (o : BitVec 14), s.Issuer t i g → c.toNat < 5 →
     let cls : Cls := ([Cls.ld, .cp, .mx, .cl, .pf][c.toNat]?).getD .ld
     let goal : DWord := g.spc + BitVec.ofInt 64 (4 * o.toInt)
     (g.counter cls ≤ n.toNat → exec (.wait c n) s = .next (s.putGroup t i (g.advance 4)) ∧ exec (.yield c n o) s = .next (s.jump goal)) ∧
     (n.toNat < g.counter cls → exec (.wait c n) s = .next s ∧ exec (.yield c n o) s = .next (s.park t i (.yield cls n.toNat goal))) ∧
     ∀ sc, exec (.fence sc) s = .next (s.advance 4)) ∧
  (∀ (g : Group) (c : Cls) (n h : Nat) (k : DWord), g.Idle → g.wait = some (.yield c n k) →
     let g' := State.wakeYield (g.opDone h)
     (g'.counter c ≤ n → g'.wait = none ∧ g'.spc = k) ∧ (n < g'.counter c → g'.wait = g.wait ∧ g'.spc = g.spc) ∧
       g'.s = g.s ∧ g'.v = g.v ∧ g'.lpc = g.lpc ∧ g'.run = g.run)

/-- The barrier-slot words complete (13 R261).

A slot of e members that no one has arrived on: k arrivals leave it in its phase with k arrived, the e-th flips the phase and leaves
none, and e stays (03 R64).

An arrival on a slot of a team: the slot takes its next word; where that has the other phase every group of the team that is parked on the old phase
is ready, past its word, and every slot symbol that waits for it has its condition met; nothing else of a group changes (03 R64, 10 R185). -/
def Obligations.BarrierSlotWordsComplete : Prop :=
  (∀ (s : State) (t i : Nat) (g : Group) (x : Team) (a d : SReg) (n : BitVec 4), s.Issuer t i g → g.Idle → s.team t = some x →
     let w := x.bs.get n.toNat
     let put (w' : Word) : Out := .next ((s.putTeam t { x with bs := x.bs.set n.toNat w' }).advance 4)
     let v := (s.sreg a).toNat
     let p := State.bsPhase w
     (1 ≤ v → v ≤ 1023 → State.bsExpected w = 0 → exec (.bsinit a n) s = put (State.bsWord v (State.bsArrived w) p)) ∧
     (1 ≤ v → v ≤ 1023 → State.bsExpected w = v → exec (.bsinit a n) s = put w) ∧
     (v = 0 → exec (.bsinit a n) s = put (State.bsWord 0 0 p)) ∧
     (1023 < v ∨ (1 ≤ v ∧ State.bsExpected w ≠ 0 ∧ State.bsExpected w ≠ v) → exec (.bsinit a n) s = .next (s.raiseNow .illegalOperand)) ∧
     (State.bsExpected w ≠ 0 → exec (.bsarr d n) s = .next (((s.setS d (if p then 1 else 0)).advance 4).slotArrive t n.toNat)) ∧
     (v ≤ 1 → (s.sreg a).getLsbD 0 ≠ p → exec (.bswait a n) s = .next (s.advance 4)) ∧
     (v ≤ 1 → (s.sreg a).getLsbD 0 = p → exec (.bswait a n) s = .next (s.park t i (.slot n.toNat p))) ∧
     (State.bsExpected w ≠ 0 → State.bsArrived w + 1 = State.bsExpected w → x.bs.wf = true →
       exec (.bsaw n) s = .next ((s.slotArrive t n.toNat).advance 4)) ∧
     (State.bsExpected w ≠ 0 → State.bsArrived w + 1 < State.bsExpected w → x.bs.wf = true →
       exec (.bsaw n) s = .next ((s.slotArrive t n.toNat).park t i (.slot n.toNat p))) ∧
     exec (.bsget d n) s = .next ((s.setS d w).advance 4)) ∧
  (∀ (w : Word) (e k : Nat), State.bsExpected w = e → State.bsArrived w = 0 → 1 ≤ e → k ≤ e →
     let w' := Nat.iterate State.bsArrive k w
     State.bsExpected w' = e ∧ State.bsArrived w' = (if k = e then 0 else k) ∧ State.bsPhase w' = (if k = e then !State.bsPhase w else State.bsPhase w)) ∧
  (∀ (s : State) (t n : Nat) (x : Team), s.team t = some x → x.bs.wf = true → Tab.wf s.groups = true →
     (∀ i h, i < 64 → s.group t i = some h → h.idx = i) →
     let w := x.bs.get n
     let e := State.bsExpected w
     let p := State.bsPhase w
     let w' := State.bsArrive w
     let s' := s.slotArrive t n
     (State.bsArrived w + 1 < e → State.bsExpected w' = e ∧ State.bsArrived w' = State.bsArrived w + 1 ∧ State.bsPhase w' = p) ∧
     (State.bsArrived w + 1 = e → State.bsExpected w' = e ∧ State.bsArrived w' = 0 ∧ State.bsPhase w' = !p) ∧
     (∃ x', s'.team t = some x' ∧ x' = { x with bs := x.bs.set n w', syms := x'.syms } ∧ ∀ m y, x.syms.get m = some y →
       x'.syms.get m = some { y with met := y.met || (State.bsPhase w' != p && match y.src with
         | .slot k q _ _ => k == n && q == p
         | _ => false) }) ∧
     ∀ i h, i < 64 → s.group t i = some h → s'.group t i =
       some (if State.bsPhase w' ≠ p ∧ h.wait = some (.slot n p) then ({ h with wait := none } : Group).advance 4 else h))

/-- gbar in a co-resident grid, its counters at zero: the group arrives at its next barrier; it goes on where every group of the grid has
arrived there or has ended, else it waits (13 R263). Elsewhere it takes the illegal-scope fault (01 R21).

wcnt and wadr complete at an aligned local address whose word satisfies their condition; else the group parks with the wait record
(08 R165, R166).

A polling wait whose condition holds is ready past its word; one whose condition does not hold waits on; a grid whose
dependency word is polled is held until that reaches its value (08 R167, 23 R365).

A grid's barrier lets a group go exactly where every group of the grid has arrived at the barrier that it waits at, or has ended, those of saved teams
among them (13 R263); no other group changes.

That the watched word is read when the word issues is the model's choice (log 3). -/
def Obligations.GridAndWordWaitsComplete : Prop :=
  (∀ (s : State) (t i : Nat) (g : Group) (x : Team) (gr : Grid), s.Issuer t i g → s.team t = some x → s.grid x.grid = some gr →
     (gr.record.getLsbD 229 = false → exec .gbar s = .next (s.raiseNow .illegalScope)) ∧
     (gr.record.getLsbD 229 = true → g.counter .ld = 0 → g.counter .cp = 0 → g.counter .cl = 0 →
       exec .gbar s = .next ((s.putGroup t i { g with gbarN := g.gbarN + 1, wait := some (.gbar g.gbarN) }).barrierCheck x.grid))) ∧
  (∀ (s : State) (t i : Nat) (g : Group) (a b : SReg) (pa : Nat), s.Issuer t i g → g.Idle → s.Sound → a.toNat % 2 = 0 →
     let va := (s.spair a).toNat
     let w := s.wordAt (.dev pa)
     va < 2 ^ 57 → va % 4 = 0 → s.translateNow t i .read va = .ok pa →
     ((w - s.sreg b).toNat < 2 ^ 31 → exec (.wcnt a b) s = .next (s.advance 4)) ∧
     (2 ^ 31 ≤ (w - s.sreg b).toNat → ∃ p, exec (.wcnt a b) s = .next (s.park t i (.wcnt va pa (s.sreg b) p))) ∧
     (w ≠ s.sreg b → exec (.wadr a b) s = .next (s.advance 4)) ∧
     (w = s.sreg b → ∃ p, exec (.wadr a b) s = .next (s.park t i (.wadr va pa (s.sreg b) p)))) ∧
  (∀ (s : State) (k a : Nat) (va : Nat) (v : Word) (g : Group), s.Sound → Tab.wf s.groups = true → Tab.wf s.teams = true → s.groups.get k = some g → g.Idle →
     ∃ s', exec .pollingRecheck s = .next s' ∧ s.MemorySame s' ∧
       (∀ n gr b, Tab.wf s.grids = true → s.grid n = some gr → gr.depPa = some b → gr.depPoll = true → gr.depMet = false →
         s'.grid n = some { gr with depMet := decide (Rec.depValue gr.record ≤ (s.wordAt (.dev b)).toNat) }) ∧
       (g.wait = some (.wcnt va a v true) → ∃ g', s'.groups.get k = some g' ∧ g'.s = g.s ∧
         (g'.wait = none ∧ g'.spc = g.spc + 4 ↔ (s.wordAt (.dev a) - v).toNat < 2 ^ 31) ∧ (2 ^ 31 ≤ (s.wordAt (.dev a) - v).toNat → g' = g)) ∧
       (g.wait = some (.wadr va a v true) → ∃ g', s'.groups.get k = some g' ∧ g'.s = g.s ∧
         (g'.wait = none ∧ g'.spc = g.spc + 4 ↔ s.wordAt (.dev a) ≠ v) ∧ (s.wordAt (.dev a) = v → g' = g))) ∧
  (∀ (s : State) (gr : Nat), Tab.wf s.groups = true →
     let met (j : Nat) : Prop := (∀ t x, s.teams.get t = some x → x.grid = gr → ∀ h ∈ s.groupsOf t, h.ended = true ∨ j < h.gbarN) ∧
       ∀ y ∈ s.saved, y.grid = gr → ∀ h ∈ y.groups, h.ended = true ∨ j < h.gbarN
     let s' := s.barrierCheck gr
     s' = { s with groups := s'.groups } ∧ (Tab.wf s.teams = true → ∀ t i h, i < 64 → s.group t i = some h →
       let goes : Prop := ∃ j, h.wait = some (.gbar j) ∧ (s.team t).map (·.grid) = some gr ∧ met j
       (goes → s'.group t i = some (({ h with wait := none } : Group).advance 4)) ∧ (¬goes → s'.group t i = some h)))

/-- The integer lane words complete without a flag: in each lane in which the word acts, element by element, the result of its entry; every
other lane and register is as it was. -/
def Obligations.LaneIntegerWordsComplete : Prop :=
  ∀ (s : State) (t i : Nat) (g : Group) (w : LaneWord), s.LaneReady t i g [w.vd.toNat, w.va.toNat, w.vb.toNat, w.vc.toNat] →
    let n := tyWidth w.ty.toNat
    let sx (a : Nat) : Int := if tySigned w.ty.toNat && decide (2 ^ (n - 1) ≤ a) then (a : Int) - 2 ^ n else a
    let wrap (x : Int) : Nat := (x % 2 ^ n).toNat
    let low (b : Nat) : Nat := min (b / 256 % 256) (32 - b % 256)
    let empty (b : Nat) : Bool := 32 ≤ b % 256 || b / 256 % 256 = 0
    ∀ p ∈ ([(.vaddInt w, fun a b _ => (a + b) % 2 ^ n), (.vsubInt w, fun a b _ => (a + (2 ^ n - b)) % 2 ^ n), (.vmulInt w, fun a b _ => a * b % 2 ^ n),
        (.vmulh w, fun a b _ => wrap (sx a * sx b / 2 ^ n)), (.vmad w, fun a b c => (a * b + c) % 2 ^ n),
        (.vabsInt w, fun a _ _ => wrap (sx a).natAbs), (.vnegInt w, fun a _ _ => (2 ^ n - a) % 2 ^ n),
        (.vminInt w, fun a b _ => if sx a ≤ sx b then a else b), (.vmaxInt w, fun a b _ => if sx a ≤ sx b then b else a),
        (.vand w, fun a b _ => a &&& b), (.vor w, fun a b _ => a ||| b), (.vxor w, fun a b _ => a ^^^ b), (.vnot w, fun a _ _ => 2 ^ n - 1 - a),
        (.vshl w, fun a b _ => if b < n then a * 2 ^ b % 2 ^ n else 0), (.vshr w, fun a b _ => if b < n then a / 2 ^ b else 0),
        (.vsra w, fun a b _ => wrap ((if 2 ^ (n - 1) ≤ a then (a : Int) - 2 ^ n else a) / 2 ^ min b (n - 1))),
        (.vpopc w, fun a _ _ => (List.range n).countP fun k => a.testBit k), (.vclz w, fun a _ _ => n - Nat.size a),
        (.vbfx w, fun a b _ => if n = 32 then (if empty b then 0 else
            let f := a / 2 ^ (b % 256) % 2 ^ low b
            if tySigned w.ty.toNat && decide (2 ^ (low b - 1) ≤ f) then f + 2 ^ 32 - 2 ^ low b else f) else bfx (tySigned w.ty.toNat) a b % 2 ^ n),
        (.vbfi w, fun a b c => if n = 32 then (if empty b then a else
            a / 2 ^ (b % 256 + low b) * 2 ^ (b % 256 + low b) + c % 2 ^ low b * 2 ^ (b % 256) + a % 2 ^ (b % 256)) else bfi a b c % 2 ^ n)]
        : List (Instr × (Nat → Nat → Nat → Nat))),
      ∃ g' f, exec p.1 s = .next (s.putGroup t i g'.laneDone) ∧ g.LaneWrote g' w [w.vd.toNat] (fun _ => f) g.cond ∧
        ∀ l e, l < 96 → g.acts w l = true → e < 32 / n →
          elOf n (f l) e = p.2 (elOf n (g.lane w.va l) e) (elOf n (g.operandB w l) e) (elOf n (g.lane w.vc l) e)

/-- The saturating words complete: the exact sum or difference, kept within the type's range; the invalid flag is raised exactly where
some element leaves it (14 R273, 04 R77). -/
def Obligations.LaneSaturatingWordsComplete : Prop :=
  ∀ (s : State) (t i : Nat) (g : Group) (w : LaneWord), s.LaneReady t i g [w.vd.toNat, w.va.toNat, w.vb.toNat] →
    let n := tyWidth w.ty.toNat
    let sg := tySigned w.ty.toNat
    let sx (a : Nat) : Int := if sg && decide (2 ^ (n - 1) ≤ a) then (a : Int) - 2 ^ n else a
    let lo : Int := if sg then -(2 ^ (n - 1)) else 0
    let hi : Int := if sg then 2 ^ (n - 1) - 1 else 2 ^ n - 1
    ∀ p ∈ ([(.vadds w, fun a b => a + b), (.vsubs w, fun a b => a - b)] : List (Instr × (Int → Int → Int))),
      let x (l e : Nat) : Int := p.2 (sx (elOf n (g.lane w.va l) e)) (sx (elOf n (g.operandB w l) e))
      ∃ g' f fl, exec p.1 s = .next (s.putGroup t i g'.laneDone) ∧ g.LaneWrote g' w [w.vd.toNat] (fun _ => f) (g.condAfter fl) ∧
        (∀ l e, l < 96 → g.acts w l = true → e < 32 / n → elOf n (f l) e = (max lo (min hi (x l e)) % 2 ^ n).toNat) ∧
        (fl = flInvalid ∨ fl = 0) ∧
        (fl = flInvalid ↔ ∃ l e, l < 96 ∧ g.acts w l = true ∧ e < 32 / n ∧ (x l e < lo ∨ hi < x l e))

/-- vmov and vsel complete on concrete operands; .b64 and .b128 move two or four registers (14 R275).

The comparisons and the predicate words complete: the predicate takes the truth in the lanes in which the word acts.

A float comparison (14 R278): words that are no NaN compare as their numbers, -0 equal to +0; with a NaN only ne and un hold, and lt, le, gt and ge
raise invalid. -/
def Obligations.LaneMovesAndPredicatesComplete : Prop :=
  (∀ (s : State) (t i : Nat) (g : Group) (w : LaneWord), let n := tyRegs w.ty.toNat
     s.LaneReady t i g ((List.range n).flatMap fun k => [w.vd.toNat + k, w.vb.toNat + k]) →
     (w.vd.toNat % n = 0 → (w.bsrc = 0 → w.vb.toNat % n = 0) → (n ≠ 1 → w.bsrc = 0) →
       ∃ g', exec (.vmov w) s = .next (s.putGroup t i g'.laneDone) ∧ g.LaneWrote g' w ((List.range n).map (w.vd.toNat + ·))
         (fun r l => if n = 1 then g.operandB w l else g.v.get (96 * (w.vb.toNat + (r - w.vd.toNat)) + l)) g.cond) ∧
     (w.va.toNat < 32 * g.blocks →
       ∃ g', exec (.vsel w) s = .next (s.putGroup t i g'.laneDone) ∧ g.LaneWrote g' w [w.vd.toNat]
         (fun _ l => if (g.k.get w.vc.toNat).getLsbD l then g.lane w.va l else g.operandB w l) g.cond)) ∧
  (∀ (s : State) (t i : Nat) (g : Group) (w : LaneWord), s.LaneReady t i g [w.va.toNat, w.vb.toNat] →
     let n := tyWidth w.ty.toNat
     let sx (a : Word) : Int := if tySigned w.ty.toNat && decide (2 ^ (n - 1) ≤ a.toNat) then (a.toNat : Int) - 2 ^ n else a.toNat
     let ka (l : Nat) : Bool := (g.k.get w.va.toNat).getLsbD l
     let kb (l : Nat) : Bool := (g.k.get w.vb.toNat).getLsbD l
     (n = 32 → ∃ g' f, exec (.vcmpInt w) s = .next (s.putGroup t i g'.laneDone) ∧ g.PredWrote g' w w.vd.toNat f g.cond ∧
       ∀ l, l < 96 → (f l = true ↔ ccHolds w.m4 (sx (g.lane w.va l) < sx (g.operandB w l)) (sx (g.lane w.va l) = sx (g.operandB w l)))) ∧
     (∃ g' fl, exec (.vcmpFp w) s = .next (s.putGroup t i g'.laneDone) ∧ g.FlagsOf w fl (fun l => (cmpF w.m4 (g.lane w.va l) (g.operandB w l)).2) ∧
       g.PredWrote g' w w.vd.toNat (fun l => (cmpF w.m4 (g.lane w.va l) (g.operandB w l)).1) (g.condAfter fl)) ∧
     ∀ p ∈ ([(.vkand w, fun l => ka l && kb l), (.vkor w, fun l => ka l || kb l), (.vkxor w, fun l => ka l != kb l),
         (.vkandn w, fun l => ka l && !kb l), (.vknot w, fun l => !ka l), (.vkset w, fun l => (g.lane w.va l).getLsbD (w.mod.toNat % 32)),
         (.vksetC w, fun _ => w.mod.toNat % 2 == 1)] : List (Instr × (Nat → Bool))),
       ∃ g', exec p.1 s = .next (s.putGroup t i g'.laneDone) ∧ g.PredWrote g' w w.vd.toNat p.2 g.cond) ∧
  (∀ (cc : Nat) (a b : Word), cc < 8 →
     (nanWord a ∨ nanWord b → ((cmpF cc a b).1 = true ↔ cc = 1 ∨ cc = 6) ∧ (cmpF cc a b).2 = if 2 ≤ cc ∧ cc ≤ 5 then flInvalid else 0) ∧
     (¬nanWord a → ¬nanWord b → ((cmpF cc a b).1 = true ↔ ccHolds cc (wordKey a < wordKey b) (wordKey a = wordKey b)) ∧ (cmpF cc a b).2 = 0))

/-- The float lane words complete: the exact result of the operands' values, rounded once to nearest even in the type's format, and the
flags of every element that the word computes.

The sign words and vrnd complete without a flag: vneg inverts the sign bit, vabs clears it, every other bit kept, even of a NaN; vrnd rounds to
an integral value of the format (14 R277, R279).

Rounding to nearest even in a format (04 R78, R79): the code is a nearest one, of two equally near the even one; a magnitude that rounds above the
largest finite value gives infinity, or that value where the format has none; overflow, inexact and underflow are raised exactly as R79 says; infinities and
NaN give their codes (that an infinity into a format with infinities raises no flag: log 57).

vrnd (14 R279): each mode gives the integer that it names, with the sign of the operand; infinities stay, a NaN gives the canonical one.

What the float words round is exact, with the IEEE specials (14 R277): a NaN operand gives a NaN without a flag, infinities of unlike signs in a sum and
an infinity times zero a NaN that is invalid, whatever is added; a sum is the sum of the numbers, and negative zero only where both are; a product is that of
the numbers, under the sign of their signs. The lesser and the greater are those by value, +0 above -0.

That an infinity converted into a format with infinities raises no flag is the model's reading (log 57). -/
def Obligations.LaneFloatWordsComplete : Prop :=
  (∀ (s : State) (t i : Nat) (g : Group) (w : LaneWord), s.LaneReady t i g [w.vd.toNat, w.va.toNat, w.vb.toNat, w.vc.toNat] →
     let n := tyWidth w.ty.toNat
     let F := tyFmt w.ty.toNat
     let v (x : Word) (e : Nat) : FVal := F.value (elOf n x e)
     ∀ p ∈ ([(.vaddFp w, fun a b _ => a.add b), (.vsubFp w, fun a b _ => a.add b.neg), (.vmulFp w, fun a b _ => a.mul b),
         (.vfma w, fun a b c => a.fma b c),
         (.vminFp w, fun a b _ => (if a.isNan || b.isNan then .nan else a.lesser b, false)),
         (.vmaxFp w, fun a b _ => (if a.isNan || b.isNan then .nan else a.greater b, false))] : List (Instr × (FVal → FVal → FVal → FVal × Bool))),
       let r (l e : Nat) : FVal × Bool := p.2 (v (g.lane w.va l) e) (v (g.operandB w l) e) (v (g.lane w.vc l) e)
       ∃ g' f fl, exec p.1 s = .next (s.putGroup t i g'.laneDone) ∧ g.LaneWrote g' w [w.vd.toNat] (fun _ => f) (g.condAfter fl) ∧
         (∀ l e, l < 96 → g.acts w l = true → e < 32 / n → elOf n (f l) e = (F.narrow .rne (r l e).1).1 % 2 ^ n) ∧
         ∀ b, fl.getLsbD b = true ↔ ∃ l e, l < 96 ∧ g.acts w l = true ∧ e < 32 / n ∧
           ((F.narrow .rne (r l e).1).2 ||| flIf (r l e).2 flInvalid).getLsbD b = true) ∧
  (∀ (s : State) (t i : Nat) (g : Group) (w : LaneWord), s.LaneReady t i g [w.vd.toNat, w.va.toNat] →
     let n := tyWidth w.ty.toNat
     ∀ p ∈ ([(.vnegFp w, fun a => (a + 2 ^ (n - 1)) % 2 ^ n), (.vabsFp w, fun a => a % 2 ^ (n - 1)), (.vrnd w, fun a => rndEl w.ty.toNat w.m4 a % 2 ^ n)]
         : List (Instr × (Nat → Nat))),
       ∃ g' f, exec p.1 s = .next (s.putGroup t i g'.laneDone) ∧ g.LaneWrote g' w [w.vd.toNat] (fun _ => f) g.cond ∧
         ∀ l e, l < 96 → g.acts w l = true → e < 32 / n → elOf n (f l) e = p.2 (elOf n (g.lane w.va l) e)) ∧
  ((∀ F ∈ [FFmt.fp32, .bf16, .fp16, .e4m3, .e5m2, .e2m1], ∀ (sg : Bool) (m : Q), 0 ≤ m.num → 0 < m.den →
     let x : ℚ := m.val
     let top : ℚ := F.num F.maxCode
     let sign : Nat := if sg then 2 ^ (F.ebits + F.mbits) else 0
     ∃ c, F.narrow .rne (.fin sg m) = (sign + c, flIf (decide (top < x)) flOverflow ||| flIf (decide (F.maxCode < c ∨ F.num c ≠ x)) flInexact |||
         flIf (decide (c < 2 ^ F.mbits ∧ F.num c ≠ x)) flUnderflow) ∧
       (c ≤ F.maxCode → ∀ k, k ≤ F.maxCode → |F.num c - x| ≤ |F.num k - x| ∧ (|F.num c - x| = |F.num k - x| → k = c ∨ c % 2 = 0)) ∧
       (F.maxCode < c → c = F.infCode) ∧
       (F.maxCode < c ↔ F.hasInf = true ∧ top * (2 ^ (F.mbits + 2) - 1) ≤ x * (2 * (2 ^ (F.mbits + 1) - 1)))) ∧
   (∀ md sg, FFmt.fp32.narrow md (.inf sg) = (if sg then 0xFF800000 else 0x7F800000, 0) ∧ FFmt.bf16.narrow md (.inf sg) = (if sg then 0xFF80 else 0x7F80, 0) ∧
     FFmt.fp16.narrow md (.inf sg) = (if sg then 0xFC00 else 0x7C00, 0) ∧ FFmt.e5m2.narrow md (.inf sg) = (if sg then 0xFC else 0x7C, 0) ∧
     FFmt.e4m3.narrow md (.inf sg) = (if sg then 0xFE else 0x7E, flOverflow ||| flInexact) ∧
     FFmt.e2m1.narrow md (.inf sg) = (if sg then 0xF else 0x7, flOverflow ||| flInexact)) ∧
   (∀ md, FFmt.fp32.narrow md .nan = (0x7FC00000, 0) ∧ FFmt.bf16.narrow md .nan = (0x7FC0, 0) ∧ FFmt.fp16.narrow md .nan = (0x7E00, 0) ∧
     FFmt.e4m3.narrow md .nan = (0x7F, 0) ∧ FFmt.e5m2.narrow md .nan = (0x7E, 0) ∧ FFmt.e2m1.narrow md .nan = (0, flInvalid)) ∧
   FFmt.fp16.num FFmt.fp16.maxCode = 65504 ∧ FFmt.e4m3.num FFmt.e4m3.maxCode = 448 ∧ FFmt.e5m2.num FFmt.e5m2.maxCode = 57344 ∧
   FFmt.e2m1.num FFmt.e2m1.maxCode = 6 ∧ FFmt.fp32.num FFmt.fp32.maxCode = (2 ^ 24 - 1) * 2 ^ 104 ∧ FFmt.bf16.num FFmt.bf16.maxCode = (2 ^ 8 - 1) * 2 ^ 120) ∧
  (∀ (ty mode a : Nat), ty < 3 → mode < 5 → a < 2 ^ tyWidth ty →
     let F := tyFmt ty
     (F.value a = .nan → rndEl ty mode a = F.nanCode) ∧ (∀ sg, F.value a = .inf sg → rndEl ty mode a = a) ∧
     (∀ sg m, F.value a = .fin sg m → ∃ (z : Nat) (m' : Q), F.value (rndEl ty mode a) = .fin sg m' ∧ m'.val = z ∧
       let down : Prop := z ≤ m.val ∧ m.val < z + 1
       let up : Prop := m.val ≤ z ∧ (z : ℚ) < m.val + 1
       (mode = 0 → |(z : ℚ) - m.val| ≤ 1 / 2 ∧ (|(z : ℚ) - m.val| = 1 / 2 → z % 2 = 0)) ∧ (mode = 1 → down) ∧
       (mode = 2 → if sg then up else down) ∧ (mode = 3 → if sg then down else up) ∧
       (mode = 4 → |(z : ℚ) - m.val| ≤ 1 / 2 ∧ (|(z : ℚ) - m.val| = 1 / 2 → m.val < z)))) ∧
  ((∀ a : FVal, FVal.nan.add a = (.nan, false) ∧ a.add .nan = (.nan, false) ∧ FVal.nan.mul a = (.nan, false) ∧ a.mul .nan = (.nan, false)) ∧
   (∀ s t : Bool, (FVal.inf s).add (.inf t) = (if s = t then (.inf s, false) else (.nan, true)) ∧ (FVal.inf s).mul (.inf t) = (.inf (s != t), false)) ∧
   (∀ (s t : Bool) (m n : Q), 0 ≤ m.num → 0 < m.den → 0 ≤ n.num → 0 < n.den →
     let a : FVal := .fin s m
     let b : FVal := .fin t n
     (FVal.inf t).add a = (.inf t, false) ∧ a.add (.inf t) = (.inf t, false) ∧
     (let r : FVal × Bool := if m.num = 0 then (.nan, true) else (.inf (s != t), false)
      (FVal.inf t).mul a = r ∧ a.mul (.inf t) = r) ∧
     (∃ u q, a.add b = (.fin u q, false) ∧ 0 ≤ q.num ∧ 0 < q.den ∧ (FVal.fin u q).num = a.num + b.num ∧
       (q.num = 0 → u = (s && t && decide (m.num = 0) && decide (n.num = 0)))) ∧
     (∃ q, a.mul b = (.fin (s != t) q, false) ∧ 0 ≤ q.num ∧ 0 < q.den ∧ q.val = m.val * n.val) ∧
     (a.lt b = true ↔ a.num < b.num)) ∧
   (∀ (s t : Bool) (m : Q), (FVal.inf s).lt (.inf t) = (s && !t) ∧ (FVal.inf s).lt (.fin t m) = s ∧ (FVal.fin t m).lt (.inf s) = !s) ∧
   (∀ a b c : FVal, (a.isNan = true ∨ b.isNan = true → a.fma b c = (.nan, false)) ∧
     (a.isNan = false → b.isNan = false → a.fma b c = if (a.mul b).2 then (.nan, true) else (a.mul b).1.add c)) ∧
   ∀ a b : FVal, (a.lt b = true → a.lesser b = a ∧ a.greater b = b) ∧ (a.lt b = false → b.lt a = true → a.lesser b = b ∧ a.greater b = a) ∧
     (a.lt b = false → b.lt a = false → a.lesser b = (if a.sign then a else b) ∧ a.greater b = if a.sign then b else a))

/-- A flag that would be new enters the handler, where it is enabled. Of every lane word that computes flags: it is told by what the same word does with the
arithmetic condition disabled; where that newly sets a flag, the flags are set, no result is written and no conversion counted, and the frame holds where the word
stands (14 R272, 13 R267). A vadd.f32 shows the flags themselves.

An SFU word while the arithmetic handler can be entered: the group stays on the word, its operation holds the results. When it ends, a flag that is new
enters the handler with no result written; otherwise results and flags are written together and the group moves on (14 R282, R272; 13 R267). -/
def Obligations.NewFlagEntersHandler : Prop :=
  (∀ (s : State) (t i : Nat) (g : Group) (w : LaneWord), s.Issuer t i g → g.Idle → (∀ r, g.deferred r = false) → g.badV = [] →
     s.sfuOps t i = [] → g.reissue = none → g.cond &&& 0x400 ≠ 0 → g.hnd ≠ 0 → g.frame = none →
     let off : Group := { g with cond := g.cond &&& 0xFFFFFBFF }
     let entered (g' : Group) : Prop := g'.v = g.v ∧ g'.k = g.k ∧ g'.s = g.s ∧ g'.convCnt = g.convCnt ∧ g'.spc = g.hnd ∧ g'.run.n = 0 ∧
       g'.frame = some ⟨g.spc, g.lpc, g.run, g.mask false, g.fmt, g.rdepth, .arith⟩
     (∀ ins ∈ [Instr.vadds w, .vsubs w, .vaddFp w, .vsubFp w, .vmulFp w, .vfma w, .vminFp w, .vmaxFp w, .vcmpFp w, .vcvt w, .vpack w, .vunpk w, .vbscale w, .vred w,
         .vscan w], ∀ g1, exec ins (s.putGroup t i off) = .next ((s.putGroup t i off).putGroup t i g1) → (g1.cond ^^^ g.cond) &&& 0x1F ≠ 0 →
       ∃ g', exec ins s = .next (s.putGroup t i g') ∧ g'.cond = g1.cond ||| 0x400 ∧ entered g') ∧
     (w.ty = 0 → (∀ r ∈ [w.vd.toNat, w.va.toNat, w.vb.toNat], r < 32 * g.blocks) →
       ∀ fl, g.FlagsOf w fl (fun l => (let r := (f32 (g.lane w.va l)).add (f32 (g.operandB w l)); (FFmt.fp32.narrow .rne r.1).2 ||| flIf r.2 flInvalid)) →
         g.newFlags fl = true → ∃ g', exec (.vaddFp w) s = .next (s.putGroup t i g') ∧ g'.cond = g.condAfter fl ∧ entered g')) ∧
  ((∀ (s : State) (t i : Nat) (g : Group) (w : LaneWord), s.Issuer t i g → g.Idle → (∀ r, g.deferred r = false) → g.badV = [] →
     (∀ r ∈ [w.vd.toNat, w.va.toNat, w.vb.toNat], r < 32 * g.blocks) → g.cond &&& 0x400 ≠ 0 → g.hnd ≠ 0 → g.frame = none → g.reissue ≠ some .arith →
     s.sfuLoad (State.quadOf g) + (g.live + 31) / 32 ≤ 12 →
     ∀ p ∈ ([(.vrcp w, fun a _ => sfuRcp a), (.vrsqrt w, fun a _ => sfuRsqrt a), (.vsqrt w, fun a _ => sfuSqrt a), (.vexp2 w, fun a _ => sfuExp2 a),
         (.vlog2 w, fun a _ => sfuLog2 a), (.vsin w, fun a _ => sfuSin a), (.vcos w, fun a _ => sfuCos a), (.vtanh w, fun a _ => sfuTanh a),
         (.vsigm w, fun a _ => sfuSigm a), (.vdiv w, sfuDiv)] : List (Instr × (FVal → FVal → Nat × AFlags))),
       let r (l : Nat) : Nat × AFlags := p.2 (f32 (g.lane w.va l)) (f32 (g.operandB w l))
       ∃ s' o fl m vals, exec p.1 s = .next s' ∧ s'.group t i = some { g with moved := true } ∧ s'.ops.get s.handles = some o ∧ o.tid = t ∧ o.idx = i ∧
         o.kind = .sfu fl (State.quadOf g) ((g.live + 31) / 32) (some ⟨w.vd.toNat, w.la.toNat, m, vals⟩) ∧ g.FlagsOf w fl (fun l => (r l).2) ∧
         (∀ l, l < 96 → m.getLsbD l = g.acts w l) ∧ (∀ l, l < 96 → g.acts w l = true → vals.get l = BitVec.ofNat 32 (r l).1)) ∧
   ∀ (s : State) (t i h : Nat) (g : Group) (x : Team) (o : Op) (fl : AFlags) (q n r la : Nat) (m : LaneMask) (vals : Cells 32), Tab.wf s.ops = true → Tab.wf s.groups = true →
     s.ops.get h = some o → o.kind = .sfu fl q n (some ⟨r, la, m, vals⟩) → o.tid = t → o.idx = i → (s.sfuOps t i).head? = some h → s.group t i = some g → s.team t = some x →
     i < 64 → x.killing = false → x.asms = [] → g.ended = false → g.wait = none → g.Idle → g.v.wf = true → (∀ k, g.deferred k = false) → g.badV = [] → m ≠ 0 →
     g.cond &&& 0x400 ≠ 0 → g.hnd ≠ 0 → g.frame = none → ∃ s' g', exec (.sfuResultWrite h) s = .next s' ∧ s'.group t i = some g' ∧ s'.ops.get h = none ∧ s.MemorySame s' ∧
       g'.cond = g.condAfter fl ∧ g'.s = g.s ∧
       (g.newFlags fl = true → g'.v = g.v ∧ g'.spc = g.hnd ∧ g'.run.n = 0 ∧ g'.frame = some ⟨g.spc, g.lpc, g.run, g.mask false, g.fmt, g.rdepth, .arith⟩) ∧
       (g.newFlags fl = false → g'.run = g.laneDone.run ∧ g'.spc = g.laneDone.spc ∧ g'.frame = none ∧
         (la = 0 → g'.pend = [] ∧ ∀ k l, l < 96 → g'.v.get (96 * k + l) = if k = r ∧ m.getLsbD l = true then vals.get l else g.v.get (96 * k + l)) ∧
         (0 < la → g'.v = g.v ∧ g'.pend = [⟨.v r, m, vals, h, true, la, h, true, false⟩])))

/-- An SFU word issues where its quadrant's queue has room: an operation is recorded with the results and flags of its lanes, and vd waits for
it in the lanes in which the word acts; nothing else of the group's registers changes (14 R280-R282).

An SFU word's results are written: its registers' lanes and its flags (14 R281, R282).

The special functions (14 R280): reciprocal and quotient are the exact quotient rounded once; the square root and its reciprocal are nearest to the real
number; the special cases and the exact results of the table; and results of the other functions at points where they are known.

That results are computed at issue is the model's reading (log 31). -/
def Obligations.SpecialFunctionWordsComplete : Prop :=
  (∀ (s : State) (t i : Nat) (g : Group) (w : LaneWord), s.LaneReady t i g [w.vd.toNat, w.va.toNat, w.vb.toNat] →
     s.sfuLoad (State.quadOf g) + (g.live + 31) / 32 ≤ 12 →
     ∀ p ∈ ([(.vrcp w, fun a _ => sfuRcp a), (.vrsqrt w, fun a _ => sfuRsqrt a), (.vsqrt w, fun a _ => sfuSqrt a), (.vexp2 w, fun a _ => sfuExp2 a),
         (.vlog2 w, fun a _ => sfuLog2 a), (.vsin w, fun a _ => sfuSin a), (.vcos w, fun a _ => sfuCos a), (.vtanh w, fun a _ => sfuTanh a),
         (.vsigm w, fun a _ => sfuSigm a), (.vdiv w, sfuDiv)] : List (Instr × (FVal → FVal → Nat × AFlags))),
       let r (l : Nat) : Nat × AFlags := p.2 (f32 (g.lane w.va l)) (f32 (g.operandB w l))
       ∃ s' g' o fl m vals, exec p.1 s = .next s' ∧ s'.group t i = some g' ∧ g'.v = g.v ∧ g'.s = g.s ∧ g'.cond = g.cond ∧
         s'.ops.get s.handles = some o ∧ o.kind = .sfu fl (State.quadOf g) ((g.live + 31) / 32) none ∧ o.tid = t ∧ o.idx = i ∧
         g.FlagsOf w fl (fun l => (r l).2) ∧
         g'.pend = (if m = 0 then [] else [⟨.v w.vd.toNat, m, vals, s.handles, true, w.la.toNat, if w.la.toNat = 0 then 0 else s.handles, false, false⟩]) ∧
         (∀ l, l < 96 → m.getLsbD l = g.acts w l) ∧ (∀ l, l < 96 → g.acts w l = true → vals.get l = BitVec.ofNat 32 (r l).1)) ∧
  (∀ (s : State) (t i h : Nat) (g : Group) (x : Team) (o : Op) (fl : AFlags) (q n r : Nat) (m : LaneMask) (vals : Cells 32), Tab.wf s.ops = true →
     Tab.wf s.groups = true → s.ops.get h = some o → o.kind = .sfu fl q n none → o.tid = t → o.idx = i → (s.sfuOps t i).head? = some h → s.group t i = some g → s.team t = some x →
     i < 64 → x.killing = false → x.asms = [] → g.ended = false → g.wait = none → g.v.wf = true → (∀ r, g.deferred r = false) → g.badV = [] →
     g.pend = [⟨.v r, m, vals, h, true, 0, 0, false, false⟩] →
     ∃ s' g', exec (.sfuResultWrite h) s = .next s' ∧ s'.group t i = some g' ∧ g'.pend = [] ∧ g'.cond = g.condAfter fl ∧
       ∀ k l, l < 96 → g'.v.get (96 * k + l) = if k = r ∧ m.getLsbD l = true then vals.get l else g.v.get (96 * k + l)) ∧
  (let N : Nat → ℝ := fun c => (FFmt.fp32.num c : ℝ)
   let near (c : Nat) (x : ℝ) : Prop := c ≤ FFmt.fp32.maxCode ∧ ∀ k, k ≤ FFmt.fp32.maxCode → |N c - x| ≤ |N k - x|
   (∀ s m t n, 0 < m.den → 0 < n.den → 0 ≤ m.num → 0 < n.num → ∃ q : Q, 0 < q.den ∧ q.val = m.val / n.val ∧
     sfuDiv (.fin s m) (.fin t n) = FFmt.fp32.narrow .rne (.fin (s != t) q)) ∧
   (∀ v, sfuRcp v = sfuDiv (.fin false (Q.ofInt 1)) v) ∧
   (∀ (a : Word) m, f32 a = .fin false m → 0 < m.num →
     near (sfuSqrt (f32 a)).1 (Real.sqrt (m.val : ℝ)) ∧ near (sfuRsqrt (f32 a)).1 (1 / Real.sqrt (m.val : ℝ)) ∧
     (sfuSqrt (f32 a)).2 = flIf (decide (FFmt.fp32.num (sfuSqrt (f32 a)).1 ^ 2 ≠ m.val)) flInexact ∧
     (sfuRsqrt (f32 a)).2 = flIf (decide (FFmt.fp32.num (sfuRsqrt (f32 a)).1 ^ 2 * m.val ≠ 1)) flInexact) ∧
   (∀ f ∈ [sfuRcp, sfuRsqrt, sfuSqrt, sfuExp2, sfuLog2, sfuSin, sfuCos, sfuTanh, sfuSigm], f .nan = (0x7FC00000, 0)) ∧
   (∀ v, sfuDiv .nan v = (0x7FC00000, 0) ∧ sfuDiv v .nan = (0x7FC00000, 0)) ∧
   (∀ m, 0 < m.num → sfuRsqrt (.fin true m) = (0x7FC00000, flInvalid) ∧ sfuSqrt (.fin true m) = (0x7FC00000, flInvalid) ∧
     sfuLog2 (.fin true m) = (0x7FC00000, flInvalid)) ∧
   (∀ m, 0 ≤ m.num → 0 < m.den →
     (∀ f ∈ [sfuSin, sfuTanh], f (.fin true m) = (((f (.fin false m)).1 + 2 ^ 31) % 2 ^ 32, (f (.fin false m)).2)) ∧ sfuCos (.fin true m) = sfuCos (.fin false m) ∧
     (∀ n : Int, -149 ≤ n → n ≤ 127 → m.val = (2 : ℚ) ^ n → sfuLog2 (.fin false m) = FFmt.fp32.narrow .rne (.ofQ (Q.ofInt n))) ∧
     (∀ (sg : Bool) (n : Int), -149 ≤ n → n ≤ 127 → (FVal.fin sg m).num = n → FFmt.fp32.num (sfuExp2 (.fin sg m)).1 = (2 : ℚ) ^ n ∧ (sfuExp2 (.fin sg m)).2 = 0) ∧
     (∀ k : Nat, m.val = k → (0 < k → sfuSin (.fin false m) = (0, 0)) ∧ sfuCos (.fin false m) = (if k % 2 = 0 then 0x3F800000 else 0xBF800000, 0)) ∧
     (∀ k : Nat, m.val = k + 1 / 2 → sfuSin (.fin false m) = (if k % 2 = 0 then 0x3F800000 else 0xBF800000, 0) ∧ sfuCos (.fin false m) = (0, 0))) ∧
   (∀ p ∈ ([(sfuRcp, 0, 0x7F800000, flDivZero), (sfuRcp, 0x80000000, 0xFF800000, flDivZero), (sfuRcp, 0x7F800000, 0, 0), (sfuRcp, 0xFF800000, 0x80000000, 0),
       (sfuRsqrt, 0, 0x7F800000, flDivZero), (sfuRsqrt, 0x80000000, 0xFF800000, flDivZero), (sfuRsqrt, 0x7F800000, 0, 0),
       (sfuRsqrt, 0xFF800000, 0x7FC00000, flInvalid), (sfuSqrt, 0, 0, 0), (sfuSqrt, 0x80000000, 0x80000000, 0), (sfuSqrt, 0x7F800000, 0x7F800000, 0),
       (sfuSqrt, 0xFF800000, 0x7FC00000, flInvalid), (sfuExp2, 0, 0x3F800000, 0), (sfuExp2, 0x80000000, 0x3F800000, 0), (sfuExp2, 0x7F800000, 0x7F800000, 0),
       (sfuExp2, 0xFF800000, 0, 0), (sfuLog2, 0, 0xFF800000, flDivZero), (sfuLog2, 0x80000000, 0xFF800000, flDivZero), (sfuLog2, 0x7F800000, 0x7F800000, 0),
       (sfuLog2, 0xFF800000, 0x7FC00000, flInvalid), (sfuSin, 0x7F800000, 0x7FC00000, flInvalid), (sfuSin, 0xFF800000, 0x7FC00000, flInvalid),
       (sfuCos, 0x7F800000, 0x7FC00000, flInvalid), (sfuCos, 0xFF800000, 0x7FC00000, flInvalid), (sfuTanh, 0x7F800000, 0x3F800000, 0),
       (sfuTanh, 0xFF800000, 0xBF800000, 0), (sfuSigm, 0, 0x3F000000, 0), (sfuSigm, 0x80000000, 0x3F000000, 0), (sfuSigm, 0x7F800000, 0x3F800000, 0),
       (sfuSigm, 0xFF800000, 0, 0), (sfuExp2, 0x3F000000, 0x3FB504F3, flInexact), (sfuExp2, 0x3DCCCCCD, 0x3F892FDF, flInexact),
       (sfuLog2, 0x40400000, 0x3FCAE00D, flInexact), (sfuLog2, 0x3E99999A, 0xBFDE54E3, flInexact), (sfuSin, 0x3DCCCCCD, 0x3E9E377A, flInexact),
       (sfuSin, 0x3FA66666, 0xBF4F1BBB, flInexact), (sfuCos, 0x3DCCCCCD, 0x3F737871, flInexact), (sfuCos, 0x3F333333, 0xBF167918, flInexact),
       (sfuTanh, 0x3F000000, 0x3EEC9A9F, flInexact), (sfuTanh, 0xC0000000, 0xBF76CA83, flInexact), (sfuSigm, 0x3F800000, 0x3F3B26A8, flInexact),
       (sfuSigm, 0xC0000000, 0x3DF420A9, flInexact)] : List ((FVal → Nat × AFlags) × Word × Nat × AFlags)), p.1 (f32 p.2.1) = p.2.2))

/-- The conversion words complete: results, flags, and the conversion count where rounding is stochastic (14 R283-R286, 04 R88, R89).

vbscale completes where fmt is block-scaled: the elements of every block in vd, its scales in the registers after it (14 R286).

Stochastic rounding (04 R87): a value of the format stays; below the smallest subnormal the random value decides between it and zero; else the
random part of an ulp is added and the sum truncated to the format, never beyond its largest finite value.

A number to an integer type (04 R77, R79, R87; 14 R283): one rounding on the grid of 1, then saturation; NaN gives 0; invalid, inexact and underflow
are raised exactly as R79 says. vcvt's other pairs round the integer to FP32 or saturate it.

Write-back (04 R85): the exact product with the scale, clipped to the clip value and the format's largest, rounded once; the overflow flag is judged
before the clip. An integer destination saturates what the user's clip leaves (that the clip sets no invalid flag: log 58).

Write-back of a block (04 R86): the scale is the power of two that R86 gives for the largest clipped value, clamped; each element is its clipped value over the
scale, cut at the format's largest, rounded once; a NaN makes the scale 0xFF and every element 0. Overflow
is judged on the value before any clip (04 R79), against the element format's largest value at the block's scale (log 73).

How element j of a lane rounds (04 R87-R89): to nearest even, or stochastically with the number that the mixer gives for the group's key, its seed with
the group's linear id at bit 40, and the lane's own number among the group's conversions.

That invalid is judged after the user's clip is the model's reading (log 58); what the overflow flag of a block compares with is its choice (log 73). -/
def Obligations.ConversionWordsComplete : Prop :=
  (∀ (s : State) (t i : Nat) (g : Group) (w : LaneWord), let n := packN g
     s.LaneReady t i g (w.vb.toNat :: (regsFrom w.va.toNat 8 ++ regsFrom w.vd.toNat 8)) → n ≤ 8 →
     let bump (e : Nat) (g' : Group) : Group := if bitAt g.fmt.toNat 10 then { g' with convCnt := g.convCnt + BitVec.ofNat 64 e } else g'
     let ends (ins : Instr) (ds : List Nat) (e : Nat) (f : Nat → Nat → Word) (F : Nat → AFlags) : Prop :=
       ∃ g' fl, exec ins s = .next (s.putGroup t i (bump e g').laneDone) ∧ g.LaneWrote g' w ds f (g.condAfter fl) ∧ g.FlagsOf w fl F
     let one (l j : Nat) : Nat × AFlags := writeBack (fmtCode g) (f32 (g.v.get (96 * (w.va.toNat + j) + l)))
       (if w.m4 = 1 then some (f32 (g.operandB w l)) else none) (f32 g.clip) (laneMode s t g j l)
     let un (l j : Nat) : Nat × AFlags :=
       let x := elOf (32 / n) (g.lane w.va l) j
       let p := (elemValue (fmtCode g) x).mul (f32 (g.operandB w l))
       if w.ty = 3 then (intBits 32 (sextInt x (32 / n)), 0)
       else if w.m4 = 1 then ((FFmt.fp32.narrow .rne p.1).1, (FFmt.fp32.narrow .rne p.1).2 ||| flIf p.2 flInvalid)
       else FFmt.fp32.narrow .rne (elemValue (fmtCode g) x)
     ends (.vcvt w) [w.vd.toNat] (if w.ty.toNat = 0 || w.m4 = 0 then 1 else 0)
       (fun _ l => BitVec.ofNat 32 (cvtEl w.ty.toNat w.m4 (laneMode s t g 0 l) (g.lane w.va l).toNat).1)
       (fun l => (cvtEl w.ty.toNat w.m4 (laneMode s t g 0 l) (g.lane w.va l).toNat).2) ∧
     (fmtSmode g = (if w.m4 = 1 then 1 else 0) →
       ends (.vpack w) [w.vd.toNat] n (fun _ l => packElems (32 / n) ((List.range n).map fun j => (one l j).1))
         (fun l => (List.range n).foldl (fun a j => a ||| (one l j).2) 0) ∧
       ((w.ty = 3 → fmtCode g = 0x14 ∨ fmtCode g = 0x16) → ends (.vunpk w) (regsFrom w.vd.toNat n) 0
         (fun r l => BitVec.ofNat 32 (un l (r - w.vd.toNat)).1) (fun l => (List.range n).foldl (fun a j => a ||| (un l j).2) 0)))) ∧
  (∀ (s : State) (t i : Nat) (g : Group) (w : LaneWord), s.LaneReady t i g (regsFrom w.va.toNat 8 ++ regsFrom w.vd.toNat 3) → fmtSmode g = 2 →
     let c := fmtCode g
     let bits := if c = 6 then 8 else 4
     let n := 32 / bits
     let blk (j b : Nat) : List Nat × Nat × AFlags :=
       blockWriteBack c ((regsFrom (32 * b) 32).map fun l => if g.acts w l then f32 (g.v.get (96 * (w.va.toNat + j) + l)) else .fin false Q.zero)
         (f32 g.clip) ((regsFrom (32 * b) 32).map fun l => laneMode s t g j l) false
     ∃ g' fl, exec (.vbscale w) s = .next (s.putGroup t i
         (if bitAt g.fmt.toNat 10 then { g' with convCnt := g.convCnt + BitVec.ofNat 64 n } else g').laneDone) ∧
       g.LaneWrote g' w (regsFrom w.vd.toNat (1 + n / 4)) (fun r l =>
         if r = w.vd.toNat then packElems bits ((List.range n).map fun j => (blk j (l / 32)).1.getD (l % 32) 0)
         else packElems 8 ((List.range 4).map fun k => (blk (4 * (r - w.vd.toNat - 1) + k) (l / 32)).2.1)) (g.condAfter fl) ∧
       ∀ k, fl.getLsbD k = true ↔ ∃ j b l, j < n ∧ b < 3 ∧ l < 96 ∧ l / 32 = b ∧ g.acts w l = true ∧ (blk j b).2.2.getLsbD k = true) ∧
  (∀ F ∈ [FFmt.fp32, .bf16, .fp16, .e4m3, .e5m2, .e2m1], ∀ (sg : Bool) (m : Q) (rnd : Nat), 0 < m.num → 0 < m.den → rnd < 2 ^ 32 →
     let x : ℚ := m.val
     ∃ c, (F.narrow (.sr rnd) (.fin sg m)).1 = (if sg then 2 ^ (F.ebits + F.mbits) else 0) + c ∧ c ≤ F.maxCode ∧
       (∀ k, k ≤ F.maxCode → F.num k = x → c = k) ∧
       ((∀ k, k ≤ F.maxCode → F.num k ≠ x) → x < F.num 1 → c = if (rnd : Int) < ⌊x * 2 ^ 32 / F.num 1⌋ then 1 else 0) ∧
       ((∀ k, k ≤ F.maxCode → F.num k ≠ x) → F.num 1 ≤ x → ∀ e : Int, ((2 : ℚ) ^ e ≤ x ∧ x < (2 : ℚ) ^ (e + 1) ∧ F.emin ≤ e) ∨ (e = F.emin ∧ x < (2 : ℚ) ^ F.emin) →
         ∀ k, k ≤ F.maxCode → (F.num k ≤ x + (rnd : ℚ) / 2 ^ 32 * (2 : ℚ) ^ (e - F.mbits) ↔ k ≤ c))) ∧
  ((∀ (sgn : Bool) (w : Nat) (md : RMode) (sg : Bool) (m : Q), 0 < w → w ≤ 32 → 0 ≤ m.num → 0 < m.den → (∀ rnd, md = .sr rnd → rnd < 2 ^ 32) →
     let x : ℚ := m.val
     let lo : Int := if sgn then -(2 ^ (w - 1)) else 0
     let hi : Int := if sgn then 2 ^ (w - 1) - 1 else 2 ^ w - 1
     ∃ z : Nat, let y : Int := if sg then -(z : Int) else z
       toInt sgn w md (.fin sg m) = ((max lo (min hi y) % 2 ^ w).toNat, flIf (decide (y < lo ∨ hi < y)) flInvalid ||| flIf (decide (m.num % m.den ≠ 0)) flInexact |||
         flIf (decide (z = 0 ∧ m.num ≠ 0)) flUnderflow) ∧
       (md = .rne → |(z : ℚ) - x| ≤ 1 / 2 ∧ (|(z : ℚ) - x| = 1 / 2 → z % 2 = 0)) ∧
       (∀ rnd, md = .sr rnd → (∀ n : Nat, (n : ℚ) = x → z = n) ∧
         ((∀ n : Nat, (n : ℚ) ≠ x) → (x < 1 → z = if (rnd : Int) < ⌊x * 2 ^ 32⌋ then 1 else 0) ∧ (1 ≤ x → (z : Int) = ⌊x + (rnd : ℚ) / 2 ^ 32⌋)))) ∧
   (∀ sgn w md, toInt sgn w md .nan = (0, flInvalid)) ∧
   (∀ md a, toInt true 32 md (.inf a) = (if a then 0x80000000 else 0x7FFFFFFF, flInvalid) ∧ toInt false 32 md (.inf a) = (if a then 0 else 0xFFFFFFFF, flInvalid)) ∧
   (∀ md (a : Word), cvtEl 3 0 md a.toNat = toInt true 32 md (f32 a) ∧ cvtEl 4 0 md a.toNat = toInt false 32 md (f32 a) ∧
     cvtEl 0 3 md a.toNat = FFmt.fp32.narrow md (.ofQ (Q.ofInt a.toInt)) ∧ cvtEl 0 4 md a.toNat = FFmt.fp32.narrow md (.ofQ (Q.ofInt a.toNat)) ∧
     cvtEl 3 4 md a.toNat = (if a.toNat < 2 ^ 31 then (a.toNat, 0) else (0x7FFFFFFF, flInvalid)) ∧
     cvtEl 4 3 md a.toNat = (if a.toNat < 2 ^ 31 then (a.toNat, 0) else (0, flInvalid)))) ∧
  (∀ (code : Nat) (sv st : Bool) (v t : Q) (clip : FVal) (md : RMode), 0 ≤ v.num → 0 ≤ t.num → 0 < v.den → 0 < t.den → (∀ c, clip = .fin false c → 0 ≤ c.num ∧ 0 < c.den) →
     let cut (x : ℚ) : ℚ := match clip with
       | .fin _ c => min x c.val
       | _ => x
     let p : ℚ := v.val * t.val
     (∀ F, floatFmt code = some F → clip = .inf false ∨ (∃ c, clip = .fin false c) →
       (∃ q : Q, 0 ≤ q.num ∧ 0 < q.den ∧ q.val = min p (cut (F.num F.maxCode)) ∧
         writeBack code (.fin sv v) (some (.fin st t)) clip md =
           ((F.narrow md (.fin (sv != st) q)).1, (F.narrow md (.fin (sv != st) q)).2 ||| flIf (decide (F.num F.maxCode < p)) flOverflow)) ∧
       (∃ q : Q, 0 ≤ q.num ∧ 0 < q.den ∧ q.val = min v.val (cut (F.num F.maxCode)) ∧
         writeBack code (.fin sv v) none clip md = ((F.narrow md (.fin sv q)).1, (F.narrow md (.fin sv q)).2 ||| flIf (decide (F.num F.maxCode < v.val)) flOverflow)) ∧
       (∃ q : Q, 0 ≤ q.num ∧ 0 < q.den ∧ q.val = cut (F.num F.maxCode) ∧
         writeBack code (.inf sv) none clip md = ((F.narrow md (.fin sv q)).1, (F.narrow md (.fin sv q)).2 ||| flOverflow)) ∧
       writeBack code .nan none clip md = (F.nanCode, flIf (!F.hasNan) flInvalid)) ∧
     (∀ c ∈ [(0x14, 8), (0x16, 4)], code = c.1 → clip = .inf false ∨ (∃ k, clip = .fin false k) →
       (let b : Nat := if sv then 2 ^ (c.2 - 1) else 2 ^ (c.2 - 1) - 1
       ∃ q : Q, 0 ≤ q.num ∧ 0 < q.den ∧ q.val = min v.val (cut b) ∧
         writeBack code (.fin sv v) none clip md =
           ((toInt true c.2 md (.fin sv q)).1, (toInt true c.2 md (.fin sv q)).2 ||| flIf (decide ((b : ℚ) < cut v.val)) flInvalid)) ∧
       (let b : Nat := if sv then 2 ^ (c.2 - 1) else 2 ^ (c.2 - 1) - 1
       ∃ q : Q, 0 ≤ q.num ∧ 0 < q.den ∧ q.val = cut b ∧
         writeBack code (.inf sv) none clip md = ((toInt true c.2 md (.fin sv q)).1, (toInt true c.2 md (.fin sv q)).2 |||
           flIf (match clip with
             | .fin _ k => decide ((b : ℚ) < k.val)
             | _ => true) flInvalid)) ∧
       writeBack code .nan none clip md = (0, flInvalid))) ∧
  (∀ (code : Nat) (vs : List FVal) (clip : FVal) (mds : List RMode) (fl : Bool), code = 6 ∨ code = 7 → mds.length = vs.length → clip = .inf false ∨ (∃ c, clip = .fin false c ∧ 0 ≤ c.num ∧ 0 < c.den) →
     let F : FFmt := if code = 6 then .e4m3 else .e2m1
     let cut (x : ℚ) : ℚ := match clip with
       | .fin _ c => min x c.val
       | _ => x
     let r := blockWriteBack code vs clip mds fl
     (FVal.nan ∈ vs → r = (vs.map fun _ => 0, 0xFF, 0)) ∧
     ((∀ v ∈ vs, ∃ s m, v = .fin s m ∧ 0 ≤ m.num ∧ 0 < m.den) → ∃ (a : ℚ) (e : Int), r.2.1 = (e + 127).toNat ∧
       (r.2.2.getLsbD 2 = true ↔ fl = true ∧ ∃ s m, FVal.fin s m ∈ vs ∧ F.num F.maxCode < m.val * (2 : ℚ) ^ (-e)) ∧
       (∀ s m, FVal.fin s m ∈ vs → cut m.val ≤ a) ∧ (a = 0 ∨ ∃ s m, FVal.fin s m ∈ vs ∧ cut m.val = a) ∧ (a = 0 → e = 0) ∧
       (a ≠ 0 → ∃ l : Int, (2 : ℚ) ^ l ≤ a ∧ a < (2 : ℚ) ^ (l + 1) ∧ e = max (-127) (min 127 (l - if code = 6 then 8 else 2))) ∧
       ∀ (i : Nat) (s : Bool) (m : Q) (md : RMode), vs[i]? = some (FVal.fin s m) → mds[i]? = some md → ∃ q : Q, 0 ≤ q.num ∧ 0 < q.den ∧ q.val = min (cut m.val * (2 : ℚ) ^ (-e)) (F.num F.maxCode) ∧
         r.1[i]? = some (F.narrow md (.fin s q)).1)) ∧
  (∀ (s : State) (t j l : Nat) (g : Group) (x : Team), s.team t = some x →
     (g.fmt.getLsbD 10 = false → laneMode s t g j l = .rne) ∧
     (g.fmt.getLsbD 10 = true → laneMode s t g j l =
       .sr (mixer (g.seed ^^^ BitVec.ofNat 64 (2 ^ 40 * (32 * x.id + g.idx))) (96 * (g.convCnt + BitVec.ofNat 64 j) + BitVec.ofNat 64 l))))

/-- The cross-lane words complete where their fields are those of their entry: each lane takes the word of its source lane, a lane that is not live reading as zero (15 R290, R291).

vred and vscan complete: each lane takes the reduction of the lanes of its segment in which the word acts, in a scan up to itself
(15 R292).

The reductions (15 R292): a sum modulo 2^32, or the exact sum of the floats rounded once; the least, the greatest, with -0 below +0 and any NaN giving
the canonical one; and, or and exclusive or bit by bit. -/
def Obligations.CrossLaneWordsComplete : Prop :=
  (∀ (s : State) (t i : Nat) (g : Group) (w : LaneWord), s.LaneReady t i g [w.vd.toNat, w.va.toNat, w.vb.toNat] →
     let n := w.ext.toNat
     ∀ p ∈ ([(.vperm w, fun l => (g.lane w.vb l).toNat), (.vshx w, fun l => l ^^^ n),
         (.vup w, fun l => if n ≤ l then l - n else if w.mod = 1 then l + 96 - n else 96),
         (.vdn w, fun l => if w.mod = 1 then (l + n) % 96 else l + n),
         (.vbcast w, fun _ => if w.mod = 1 then (g.readS true n).toNat else n)] : List (Instr × (Nat → Nat))),
       p.1.wf = true → ∃ g', exec p.1 s = .next (s.putGroup t i g'.laneDone) ∧
         g.LaneWrote g' w [w.vd.toNat] (fun _ l => if p.2 l < g.live then g.v.get (96 * w.va.toNat + p.2 l) else 0) g.cond) ∧
  (∀ (s : State) (t i : Nat) (g : Group) (w : LaneWord), s.LaneReady t i g [w.vd.toNat, w.va.toNat] →
     let sg := segOf (w.mod.toNat / 8)
     let r (scan : Bool) (l : Nat) : Word × AFlags := reduceWords (w.mod.toNat % 8) w.ty.toNat
       (((List.range 96).filter fun j => g.acts w j && j / sg == l / sg && (!scan || decide (j ≤ l))).map (g.lane w.va))
     ∀ p ∈ [(Instr.vred w, false), (Instr.vscan w, true)], ∃ g' fl, exec p.1 s = .next (s.putGroup t i g'.laneDone) ∧
       g.LaneWrote g' w [w.vd.toNat] (fun _ l => (r p.2 l).1) (g.condAfter fl) ∧ g.FlagsOf w fl (fun l => (r p.2 l).2)) ∧
  (∀ (ty : Nat) (xs : List Word), xs ≠ [] →
     let r (op : Nat) : Word × AFlags := reduceWords op ty xs
     (ty ≠ 0 → r 0 = (BitVec.ofNat 32 (xs.map BitVec.toNat).sum, 0)) ∧
     (ty = 3 → (r 1).1 ∈ xs ∧ (r 2).1 ∈ xs ∧ ∀ x ∈ xs, (r 1).1.toInt ≤ x.toInt ∧ x.toInt ≤ (r 2).1.toInt) ∧
     (ty = 4 → (r 1).1 ∈ xs ∧ (r 2).1 ∈ xs ∧ ∀ x ∈ xs, (r 1).1.toNat ≤ x.toNat ∧ x.toNat ≤ (r 2).1.toNat) ∧
     (r 1).2 = 0 ∧ (r 2).2 = 0 ∧
     (∀ k, k < 32 → ((r 3).1.getLsbD k = true ↔ ∀ x ∈ xs, x.getLsbD k = true) ∧ ((r 4).1.getLsbD k = true ↔ ∃ x ∈ xs, x.getLsbD k = true) ∧
       ((r 5).1.getLsbD k = true ↔ (xs.countP fun x => x.getLsbD k) % 2 = 1)) ∧
     (ty = 0 →
       ((∃ x ∈ xs, nanWord x) → r 0 = (0x7FC00000, 0) ∧ r 1 = (0x7FC00000, 0) ∧ r 2 = (0x7FC00000, 0)) ∧
       ((∀ x ∈ xs, ¬nanWord x) →
         ((r 1).1 ∈ xs ∧ (r 2).1 ∈ xs ∧ ∀ x ∈ xs, zeroKey (r 1).1 ≤ zeroKey x ∧ zeroKey x ≤ zeroKey (r 2).1) ∧
         (0x7F800000 ∈ xs → 0xFF800000 ∈ xs → r 0 = (0x7FC00000, flInvalid)) ∧
         (0x7F800000 ∈ xs → 0xFF800000 ∉ xs → r 0 = (0x7F800000, 0)) ∧ (0x7F800000 ∉ xs → 0xFF800000 ∈ xs → r 0 = (0xFF800000, 0))) ∧
       ((∀ x ∈ xs, finite32 x = true) → ∃ q : Q, 0 < q.den ∧ q.val = (xs.map fun x => (f32 x).num).sum ∧ (q.num ≠ 0 → r 0 = rne32 (.ofQ q)) ∧
         (q.num = 0 → r 0 = (if ∀ x ∈ xs, x = 0x80000000 then 0x80000000 else 0, 0)))))

/-- The lane memory words that load complete where every address that they form is aligned and inside its space: the values read are on their
way to the registers of vd, the word counts on ld, and no byte of memory changes (15 R293, R294, R297).

What a load of the bytes x writes into register j of its span, by its type: zero-extended, sign-extended, or word by word from the low one (15 R294).

That memory is read when the word issues is the model's choice (log 3). -/
def Obligations.LaneLoadsComplete : Prop :=
  (∀ (s : State) (t i : Nat) (g : Group) (x : Team) (w : LaneWord), let n := tyRegs w.ty.toNat
     s.LaneReady t i g (w.va.toNat :: regSpan w.ty.toNat w.vd.toNat) → s.Sound → s.team t = some x → g.counter .ld < 255 → w.vd.toNat % n = 0 →
     let ad (l : Nat) : Int := (g.readS true (memBase w)).toNat + memDisp w + if memIdx w then (g.lane w.va l).toInt else 0
     let wb := accBytes w.ty.toNat
     let sp : Int := (g.readS true (memBase w)).toNat + memDisp w
     let loads (ins : Instr) (act : Nat → Bool) (val : Nat → Nat → Word) : Prop := ∃ (s' : State) (g' : Group) (m : LaneMask) (vals : Nat → Cells 32), exec ins s = .next s' ∧ s'.group t i = some g' ∧
       g'.v = g.v ∧ g'.s = g.s ∧ g'.counter .ld = g.counter .ld + 1 ∧ (∀ l, l < 96 → m.getLsbD l = act l) ∧
       g'.pend = (if m = 0 then [] else (List.range n).map fun j => ⟨.v (w.vd.toNat + j), m, vals j, s.handles, true, w.la.toNat, if w.la.toNat = 0 then 0 else s.handles, false, false⟩) ∧
       (∀ j l, j < n → l < 96 → act l = true → (vals j).get l = val j l) ∧ (∃ o, s'.ops.get s.handles = some o ∧ o.kind = .load) ∧ s.MemorySame s'
     ((∀ l, l < 96 → g.acts w l = true → 0 ≤ ad l ∧ ad l + wb ≤ s.limit (memAx w) ∧ ad l % wb = 0) →
       loads (.vld w) (g.acts w) fun j l => loadWord w.ty.toNat (s.numAt (s.placeNow (memAx w) (ad l).toNat) wb) j) ∧
     (x.spillOn = true → 0 ≤ sp → sp % 32 = 0 → sp + 384 * n ≤ 14336 →
       loads (.vfill w) (fun l => decide (l < g.live) && !g.cancel.getLsbD l) fun j l => s.wordAt (.spill t i (sp.toNat + 384 * j + 4 * l)))) ∧
  (∀ x j : Nat,
     (∀ p ∈ [(7, 8), (5, 16)], accBytes p.1 = p.2 / 8 ∧ tyRegs p.1 = 1 ∧
       (x < 2 ^ p.2 → loadWord p.1 x 0 = BitVec.ofInt 32 (if x < 2 ^ (p.2 - 1) then (x : Int) else (x : Int) - 2 ^ p.2))) ∧
     (∀ p ∈ [(8, 8), (6, 16), (12, 32)], accBytes p.1 = p.2 / 8 ∧ tyRegs p.1 = 1 ∧ (x < 2 ^ p.2 → (loadWord p.1 x 0).toNat = x)) ∧
     ∀ p ∈ [(13, 2), (14, 4)], accBytes p.1 = 4 * p.2 ∧ tyRegs p.1 = p.2 ∧ (x < 2 ^ (32 * p.2) → j < p.2 → (loadWord p.1 x j).toNat = x / 2 ^ (32 * j) % 2 ^ 32))

/-- The lane memory words that store complete under the same conditions: lane by lane, each stores its bytes at its address (15 R293, R294,
R297).

A lane address that is misaligned or outside its space: no lane accesses memory, the record is a lane fault, names the failing lanes and the
address of one of them, for every width and every word that forms addresses; the spill words fault in every live lane
(15 R293, R297, 22 R348, R350; which lane's address: log 21).

The bytes that a store of a type lays down: byte k of the access is byte k mod 4 of word k / 4 of the registers (15 R294).

That memory is written when the word issues is the model's choice (log 3). -/
def Obligations.LaneStoresComplete : Prop :=
  (∀ (s : State) (t i : Nat) (g : Group) (x : Team) (w : LaneWord), let n := tyRegs w.ty.toNat
     s.LaneReady t i g (w.va.toNat :: regSpan w.ty.toNat w.vb.toNat) → s.team t = some x → w.vb.toNat % n = 0 →
     let ad (l : Nat) : Int := (g.readS true (memBase w)).toNat + memDisp w + if memIdx w then (g.lane w.va l).toInt else 0
     let wb := accBytes w.ty.toNat
     let sp : Int := (g.readS true (memBase w)).toNat + memDisp w
     let done (s' : State) : Out := .next (s'.mapGroup t i Group.laneDone)
     let word (j l : Nat) : Word := g.v.get (96 * (w.vb.toNat + j) + l)
     ((∀ l, l < 96 → g.acts w l = true → 0 ≤ ad l ∧ ad l + wb ≤ s.limit (memAx w) ∧ ad l % wb = 0) →
       exec (.vst w) s = done (((List.range 96).filter (g.acts w)).foldl
         (fun s' l => s'.setNum (s.placeNow (memAx w) (ad l).toNat) wb (storeNum w.ty.toNat fun j => word j l)) s)) ∧
     (x.spillOn = true → 0 ≤ sp → sp % 32 = 0 → sp + 384 * n ≤ 14336 →
       exec (.vspill w) s = done (((List.range 96).filter fun l => decide (l < g.live) && !g.cancel.getLsbD l).foldl
         (fun s' l => (List.range n).foldl (fun s' j => s'.setNum (.spill t i (sp.toNat + 384 * j + 4 * l)) 4 (word j l).toNat) s') s))) ∧
  (∀ (s : State) (t i : Nat) (g : Group) (x : Team) (w : LaneWord), let n := tyRegs w.ty.toNat
     s.LaneReady t i g (w.va.toNat :: regSpan w.ty.toNat w.vb.toNat ++ regSpan w.ty.toNat w.vd.toNat) → s.team t = some x →
     let ad (l : Nat) : Int := (g.readS true (memBase w)).toNat + memDisp w + if memIdx w then (g.lane w.va l).toInt else 0
     let wb := accBytes w.ty.toNat
     let sp : Int := (g.readS true (memBase w)).toNat + memDisp w
     let bad (l : Nat) : Bool := g.acts w l && (decide (ad l < 0) || decide ((s.limit (memAx w) : Int) < ad l + wb) || ad l % wb != 0)
     let all (l : Nat) : Bool := decide (l < g.live) && !g.cancel.getLsbD l
     let traps (ins : Instr) (b : Nat → Bool) (space : Nat) (at' : Nat → Int) : Prop := ∃ (s0 : State) (l : Nat) (m : LaneMask),
       let d : State.Detail := { faddr := space * 2 ^ 60 + (at' l % 2 ^ 60).toNat, lanes := m, lane := true }
       exec ins s = .next (s0.raiseNow .address d) ∧ s0 = { s with free := s0.free } ∧ l < 96 ∧ b l = true ∧ (∀ l, l < 96 → m.getLsbD l = b l) ∧
         s0.MemorySame (s0.raiseNow .address d)
     ((∃ l, l < 96 ∧ bad l = true) →
       (w.vb.toNat % n = 0 → traps (.vst w) bad (if memAx w then 2 else 1) ad) ∧ (w.vd.toNat % n = 0 → traps (.vld w) bad (if memAx w then 2 else 1) ad) ∧
       (n = 1 → ∀ ins ∈ [Instr.vatom w, .vfatomMax w, .vfatomAddOrd w], traps ins bad (if memAx w then 2 else 1) ad)) ∧
     (x.spillOn = true → (∃ l, l < 96 ∧ all l = true) → (sp < 0 ∨ sp % 32 ≠ 0 ∨ 14336 < sp + 384 * n) →
       (w.vb.toNat % n = 0 → traps (.vspill w) all 4 fun _ => sp) ∧ (w.vd.toNat % n = 0 → traps (.vfill w) all 4 fun _ => sp))) ∧
  (∀ (rd : Nat → Word) (k : Nat), ∀ p ∈ [(10, 1), (11, 2), (12, 4), (13, 8), (14, 16)], accBytes p.1 = p.2 ∧
     (k < p.2 → storeNum p.1 rd / 256 ^ k % 256 = (rd (k / 4)).toNat / 256 ^ (k % 4) % 256))

/-- The lane atomics complete: lane by lane the new word is stored, and the old words are on their way to vd (15 R295, R296).

The steps of the lane atomics (15 R295, R296): a lane reads the word at its place, stores what f makes of it and answers the word read; the next lane
follows. The larger of two FP32 words is the canonical NaN where one is a NaN, +0 above -0, else the one of greater value.

That the lanes act when the word issues is the model's choice (log 3). -/
def Obligations.LaneAtomicsComplete : Prop :=
  (∀ (s : State) (t i : Nat) (g : Group) (w : LaneWord), s.LaneReady t i g [w.va.toNat, w.vb.toNat, w.vd.toNat] → s.Sound → g.counter .ld < 255 →
     accBytes w.ty.toNat = 4 →
     let ad (l : Nat) : Int := (g.readS true (memBase w)).toNat + memDisp w + if memIdx w then (g.lane w.va l).toInt else 0
     (∀ l, l < 96 → g.acts w l = true → 0 ≤ ad l ∧ ad l + 4 ≤ s.limit (memAx w) ∧ ad l % 4 = 0) →
     let c := w.vc.toNat
     let less (a b : Word) : Prop := if w.ty.toNat = 3 then a.toInt < b.toInt else a.toNat < b.toNat
     ∀ p ∈ [(Instr.vatom w, true), (Instr.vfatomMax w, false)], ∃ (f : Nat → Word → Word) (s' : State) (g' : Group) (m : LaneMask),
       (∀ l d, p.2 = true → let b := g.lane w.vb l
         (c = 0 → f l d = d + b) ∧ (c = 1 → (less d b ∨ d = b → f l d = d) ∧ (less b d → f l d = b)) ∧ (c = 2 → (less d b → f l d = b) ∧ (less b d ∨ d = b → f l d = d)) ∧
         (c = 3 → f l d = d &&& b) ∧ (c = 4 → f l d = d ||| b) ∧ (c = 5 → f l d = d ^^^ b) ∧ (c = 6 → f l d = b) ∧
         (c = 7 → f l d = if d = g.lane w.vd l then b else d)) ∧
       (∀ l d, p.2 = false → f l d = maxF32 d (g.lane w.vb l)) ∧
       let r := State.atomLanes (fun l => s.placeNow (memAx w) (ad l).toNat) f ((List.range 96).filter (g.acts w)) s []
       exec p.1 s = .next s' ∧ s'.group t i = some g' ∧ g'.counter .ld = g.counter .ld + 1 ∧ (∀ l, l < 96 → m.getLsbD l = g.acts w l) ∧
         g'.pend = (if m = 0 then [] else [⟨.v w.vd.toNat, m, r.2, s.handles, true, w.la.toNat, if w.la.toNat = 0 then 0 else s.handles, false, false⟩]) ∧
         s'.dev = r.1.dev ∧ s'.annex = r.1.annex ∧ s'.teams = r.1.teams) ∧
  ((∀ (loc : Nat → Loc) (f : Nat → Word → Word) (l : Nat) (r : List Nat) (s : State) (c : Cells 32),
     State.atomLanes loc f [] s c = (s, c) ∧
     (let d := s.wordAt (loc l)
      State.atomLanes loc f (l :: r) s c = State.atomLanes loc f r (s.setNum (loc l) 4 (f l d).toNat) (c.set l d))) ∧
   ∀ a b : Word, (nanWord a ∨ nanWord b → maxF32 a b = 0x7FC00000) ∧
     (¬nanWord a → ¬nanWord b → maxF32 a b = if zeroKey a < zeroKey b then b else a))

/-- vfatom.add.ord (15 R296, 06 R123, R125): where its homes have room for its adds each acting lane's add stands in its home's queue with its key, in
lane order; memory is as it was until a close. A word whose first acting lane finds its queue full waits, and the queue's 1 ms runs.

A close applies the entries of a word in key order, rounding at each add; a queue that one group has found full for 1 ms takes the fault at
that group (06 R124, R125).

That adds enter in lane order as far as there is room, and the rest wait, that the 1 ms starts again at the fault, and that the number of an add counts the adds of its key whatever their grid, are the model's choices (log 22, log 69, log 68). -/
def Obligations.OrderedAddsAreQueuedAndOrdered : Prop :=
  (∀ (s : State) (t i : Nat) (g : Group) (x : Team) (w : LaneWord), s.LaneReady t i g [w.va.toNat, w.vb.toNat] → s.team t = some x → accBytes w.ty.toNat = 4 →
     tyRegs w.ty.toNat = 1 →
     let ad (l : Nat) : Int := (g.readS true (memBase w)).toNat + memDisp w + if memIdx w then (g.lane w.va l).toInt else 0
     (∀ l, l < 96 → g.acts w l = true → 0 ≤ ad l ∧ ad l + 4 ≤ s.limit (memAx w) ∧ ad l % 4 = 0) →
     let loc (l : Nat) : Loc := s.placeNow (memAx w) (ad l).toNat
     let acting := (List.range 96).filter (g.acts w)
     let rank := s.selfDev (s.partOf g.core)
     ((∀ l ∈ acting, s.homeUsed (s.homeOf (loc l)) + (acting.filter fun k => s.homeOf (loc k) == s.homeOf (loc l)).length ≤ State.homeCap (s.homeOf (loc l))) →
       ∃ s' g', exec (.vfatomAddOrd w) s = .next s' ∧ s'.group t i = some g' ∧ g' = g.laneDone ∧ s'.oq.take s.oq.length = s.oq ∧
         s'.oq.drop s.oq.length = acting.map (fun l => (⟨s.homeOf (loc l), loc l, g.lane w.vb l, rank, x.id, i, l, (s.oq.filter fun e =>
           e.loc == loc l && e.rank == rank && e.team == x.id && e.grp == i && e.elem == l).length⟩ : QEnt)) ∧ s.MemorySame s') ∧
     (∀ l r, acting = l :: r → State.homeCap (s.homeOf (loc l)) ≤ s.homeUsed (s.homeOf (loc l)) →
       ∃ s' g' since, exec (.vfatomAddOrd w) s = .next s' ∧ s'.group t i = some g' ∧ g' = { g with stall := some (s.homeOf (loc l)) } ∧ s'.oq = s.oq ∧
         s'.oqSince.get (State.homeKey (s.homeOf (loc l))) = some since ∧
         (s.oqSince.get (State.homeKey (s.homeOf (loc l))) = none → since = s.clk.toNat) ∧ s.MemorySame s')) ∧
  ((∀ (w : Word) (a b : QEnt), State.keyLt a b = true → State.keyLt b a = false →
     State.closeSum w [a, b] = State.closeSum w [b, a] ∧
       State.closeSum w [a, b] = (rne32 ((f32 (rne32 ((f32 w).add (f32 a.x)).1).1).add (f32 b.x)).1).1) ∧
   (∀ a b : QEnt, State.keyLt a b = true ↔ a.rank < b.rank ∨ (a.rank = b.rank ∧ (a.team < b.team ∨ (a.team = b.team ∧ (a.grp < b.grp ∨
     (a.grp = b.grp ∧ (a.elem < b.elem ∨ (a.elem = b.elem ∧ a.seq < b.seq)))))))) ∧
   ∀ (s : State) (hm : Home) (t0 t i : Nat) (g : Group), s.oqSince.get (State.homeKey hm) = some t0 → t0 + 1000000 ≤ s.clk.toNat → s.closing hm = false → i < 64 →
     s.groups.filter (fun e => e.2.stall == some hm) = [(64 * t + i, g)] → s.ops.filter (fun e => s.opStalled e.1 e.2 hm) = [] →
     let s1 := (s.raiseGroup t i .orderedQueueExhausted {}).mapGroup t i fun g => { g with stall := none }
     exec (.orderedQueueExhausted hm) s = .next { s1 with oqSince := s1.oqSince.set (State.homeKey hm) s1.clk.toNat })

/-- The profile words complete where the registers are declared, the unit's queue of 16 and the pf counter have room: one operation is queued,
with the ptol of its issue (11 R211, R212). -/
def Obligations.ProfileWordsComplete : Prop :=
  ∀ (s : State) (t i : Nat) (g : Group) (x : Team) (w : LaneWord), s.LaneReady t i g [] → s.team t = some x → g.counter .pf < 255 →
    (s.core x.core).prq.length < 16 →
    let queued (ins : Instr) (p : ProfOp) : Prop := ∃ (s' : State) (g' : Group) (o : Op), exec ins s = .next s' ∧ s'.group t i = some g' ∧
      g'.counter .pf = g.counter .pf + 1 ∧ (s'.core x.core).prq = (s.core x.core).prq ++ [s.handles] ∧ s'.ops.get s.handles = some o ∧
      o.kind = .prof p g.ptol false ∧ o.tid = t ∧ o.idx = i ∧ g'.v = g.v ∧ g'.s = g.s ∧ g'.cond = g.cond ∧ s.MemorySame s'
    let B (rs : List Nat) : Prop := ∀ r ∈ rs, r < 32 * g.blocks
    let D (es : List Nat) : Prop := ∀ e ∈ es, e < x.nprof
    let lo := f32 (g.lane w.va 0)
    let hi := f32 (g.lane w.va 1)
    let acting := (List.range 96).filter (g.acts w)
    let ok (l : Nat) : Bool := finite32 (g.lane w.va l) && finite32 (g.lane w.vb l)
    (D [w.vd.toNat] → (g.cond &&& 0x800 = 0 ∨ g.hnd = 0 ∨ g.frame ≠ none) →
      (B [w.va.toNat] → 2 ≤ g.live → lo.isNan = false → hi.isNan = false → hi.lt lo = false → lo ≠ .inf false → hi ≠ .inf true →
        queued (.pclr w) (.clr w.vd.toNat (g.lane w.va 0) (g.lane w.va 1))) ∧
      (B [w.va.toNat, w.vb.toNat, w.vc.toNat] → queued (.pins w)
        (.ins w.vd.toNat ((acting.filter ok).map fun l => ⟨g.lane w.va l, g.lane w.vb l, (g.lane w.vc l).setWidth 16⟩) (acting.any fun l => !ok l))) ∧
      (D [w.va.toNat] → queued (.pconj w) (.conj w.vd.toNat w.va.toNat) ∧ queued (.psimp w) (.simp w.vd.toNat w.va.toNat)) ∧
      (D [w.va.toNat, w.vb.toNat] → queued (.pmax w) (.max w.vd.toNat w.va.toNat w.vb.toNat) ∧
        queued (.padd w) (.add w.vd.toNat w.va.toNat w.vb.toNat w.mod.toNat) ∧ queued (.pinf w) (.inf w.vd.toNat w.va.toNat w.vb.toNat))) ∧
    (D [w.va.toNat] → ∃ (xs : Cells 32) (m : LaneMask), (∀ l, l < 96 → m.getLsbD l = g.acts w l ∧ (g.acts w l = true → xs.get l = g.lane w.vb l)) ∧
      (B [w.vb.toNat, w.vd.toNat] → queued (.peval w) (.eval w.va.toNat xs m) ∧ queued (.parg w) (.arg w.va.toNat xs m)) ∧
      (B [w.vd.toNat, w.vd.toNat + 1, w.vd.toNat + 2, w.vd.toNat + 3] → queued (.pget w) (.get w.vd.toNat w.va.toNat w.ext m)))

/-- The unit performs the operation at the head of its queue as one step: the profile register takes the result, the flags reach cond, the operation
leaves the queue; pclr gives the empty profile on its domain (11 R203, R212).

The profiles that the operations leave (11 R203-R207, R210): the lines of a maximum, or after an insert, are candidates and reach every candidate
everywhere in the domain; the sum, the infimal convolution, the conjugate and the simplification of profiles of one or two lines are spelled out.

What the queries answer (11 R208, R209): the value of the greatest line, rounded once, and its tag, of equal lines that of the larger slope; +∞ and 0xFFFF
outside the domain, -∞ and 0xFFFF where there is no line; at an infinity the limit of the extreme line; pget reads the lines one by one.

The sign of a zero that the unit computes is the model's choice (log 23). -/
def Obligations.ProfileOperationIsPerformed : Prop :=
  (∀ (s : State) (t i c h : Nat) (g : Group) (x : Team) (o : Op) (r : List Nat) (p : ProfOp) (tau : Word),
     (s.core c).prq = h :: r → s.ops.get h = some o → o.kind = .prof p tau false → o.tid = t → o.idx = i → s.group t i = some g → s.team t = some x →
     Tab.wf s.groups = true → i < 64 → x.killing = false → x.asms = [] → x.badP = [] → g.ended = false → g.wait = none →
     let ps (e : Nat) : Prof := (x.profs.get e).getD Prof.empty
     (∀ d q fl, g.Idle → profResult ps tau p = some (d, some q, fl) →
       ∃ s' x' g', exec (.profileOperationComplete c) s = .next s' ∧ (s'.core c).prq = r ∧ s'.team t = some x' ∧ x'.profs.get d = some q ∧
         (∀ e, e ≠ d → x'.profs.get e = x.profs.get e) ∧ s'.group t i = some g' ∧ g'.cond = g.condAfter fl ∧ g'.v = g.v ∧
         (∀ e lo hi, p = .clr e lo hi → d = e ∧ q = ⟨lo, hi, []⟩)) ∧
     (∀ d fl, g.Idle → profResult ps tau p = some (d, none, fl) →
       ∃ s' g', exec (.profileOperationComplete c) s = .next s' ∧ (∃ x', s'.team t = some x' ∧ x'.profs = x.profs) ∧ s'.group t i = some g' ∧
         g'.cond = g.condAfter fl ||| 0x40 ∧ g'.v = g.v) ∧
     (∀ e xs m k vals, p = .eval e xs m ∨ p = .arg e xs m → g.v.wf = true → (∀ r, g.deferred r = false) → g.badV = [] →
       g.pend = [⟨.v k, m, vals, h, true, 0, 0, false, false⟩] →
       ∃ s' g', exec (.profileOperationComplete c) s = .next s' ∧ s'.group t i = some g' ∧ g'.pend = [] ∧
         ∀ q l, l < 96 → g'.v.get (96 * q + l) = if q = k ∧ m.getLsbD l = true then (profQuery ps p 0 l).1 else g.v.get (96 * q + l))) ∧
  (∀ (ps : Nat → Prof) (tau : Word) (d a b : Nat), let f := ps a
     let g := ps b
     let plain (p : Prof) : Prop := (∀ l ∈ p.lines, l.finite) ∧ ¬nanWord p.lo ∧ ¬nanWord p.hi ∧ p.lo ≠ 0x7F800000 ∧ p.hi ≠ 0xFF800000
     let num (w : Word) : ℚ := (f32 w).num
     let reaches (p : Prof) (cs : List Line) : Prop := (∀ l ∈ p.lines, l ∈ cs) ∧ ∀ x, between p.lo p.hi x → ∀ l ∈ cs, ∃ m ∈ p.lines, l.at x ≤ m.at x
     let lo := if wordKey f.lo < wordKey g.lo then g.lo else f.lo
     let hi := if wordKey g.hi < wordKey f.hi then g.hi else f.hi
     (plain f → plain g →
       (wordKey hi < wordKey lo → profResult ps tau (.max d a b) = some (d, some ⟨0x7F800000, 0xFF800000, []⟩, 0)) ∧
       (wordKey lo ≤ wordKey hi → f.lines.length + g.lines.length ≤ 512 →
         ∃ p, profResult ps tau (.max d a b) = some (d, some p, 0) ∧ p.lo = lo ∧ p.hi = hi ∧ reaches p (f.lines ++ g.lines)) ∧
       (∀ ls bad, (∀ l ∈ ls, l.finite) → wordKey f.lo ≤ wordKey f.hi → f.lines.length + ls.length ≤ 512 →
         ∃ p, profResult ps tau (.ins a ls bad) = some (a, some p, flIf bad flInvalid) ∧ p.lo = f.lo ∧ p.hi = f.hi ∧ reaches p (f.lines ++ ls)) ∧
       (∀ l m tm, f.lines = [l] → g.lines = [m] → wordKey lo ≤ wordKey hi →
         let ra := rne32 ((f32 l.a).add (f32 m.a)).1
         let rb := rne32 ((f32 l.b).add (f32 m.b)).1
         finite32 ra.1 = true → finite32 rb.1 = true → profResult ps tau (.add d a b tm) = some (d, some ⟨lo, hi, [⟨ra.1, rb.1,
           if tm = 0 then l.t else if tm = 1 then m.t else BitVec.ofNat 16 (l.t.toNat % 256 * 256 + m.t.toNat % 256)⟩]⟩, ra.2 ||| rb.2)) ∧
       (∀ l m, f = ⟨0xFF800000, 0x7F800000, [l]⟩ → g.lines = [m] → finite32 g.lo = true → finite32 g.hi = true → wordKey g.lo ≤ wordKey g.hi →
         ∃ v : Q, 0 < v.den ∧ v.val = num l.b + num m.b + (if num l.a < num m.a then (num m.a - num l.a) * num g.lo else (num m.a - num l.a) * num g.hi) ∧
           (finite32 (rne32 (.ofQ v)).1 = true →
             profResult ps tau (.inf d a b) = some (d, some ⟨0xFF800000, 0x7F800000, [⟨l.a, (rne32 (.ofQ v)).1, l.t⟩]⟩, (rne32 (.ofQ v)).2)))) ∧
     (wordKey f.hi < wordKey f.lo → ¬nanWord f.lo → ¬nanWord f.hi →
       profResult ps tau (.conj d a) = some (d, some ⟨0xFF800000, 0x7F800000, []⟩, 0) ∧ profResult ps tau (.simp d a) = some (d, some ⟨0x7F800000, 0xFF800000, []⟩, 0)) ∧
     (plain f → wordKey f.lo ≤ wordKey f.hi →
       (f.lines = [] → profResult ps tau (.conj d a) = some (d, some ⟨0x7F800000, 0xFF800000, []⟩, 0)) ∧
       (∀ l, f.lines = [l] → f.lo = 0xFF800000 → f.hi = 0x7F800000 →
         profResult ps tau (.conj d a) = some (d, some ⟨l.a, l.a, [⟨0, l.b ^^^ 0x80000000, l.t⟩]⟩, 0)) ∧
       (∀ l, f.lines = [l] → finite32 f.lo = true → finite32 f.hi = true → wordKey f.lo < wordKey f.hi → f.lo ≠ 0x80000000 → f.hi ≠ 0x80000000 →
         ∃ u v : Q, 0 < u.den ∧ 0 < v.den ∧ u.val = -(l.at (num f.lo)) ∧ v.val = -(l.at (num f.hi)) ∧
           (finite32 (rne32 (.ofQ u)).1 = true → finite32 (rne32 (.ofQ v)).1 = true → profResult ps tau (.conj d a) = some (d,
             some ⟨0xFF800000, 0x7F800000, [⟨f.lo, (rne32 (.ofQ u)).1, l.t ^^^ 0x8000⟩, ⟨f.hi, (rne32 (.ofQ v)).1, l.t⟩]⟩, (rne32 (.ofQ u)).2 ||| (rne32 (.ofQ v)).2))) ∧
       (∀ l, f.lines = [l] → profResult ps tau (.simp d a) = some (d, some f, 0)) ∧
       (∀ l m, f.lines = [l, m] → num l.a < num m.a → finite32 f.lo = true → finite32 f.hi = true → wordKey f.lo < wordKey f.hi → finite32 tau = true →
         0 ≤ num tau → profResult ps tau (.simp d a) = some (d, some ⟨f.lo, f.hi, if l.at (num f.lo) - m.at (num f.lo) ≤ num tau then [m]
           else if m.at (num f.hi) - l.at (num f.hi) ≤ num tau then [l] else [l, m]⟩, 0)))) ∧
  (∀ (ps : Nat → Prof) (e l : Nat) (xs : Cells 32) (m : LaneMask), let f := ps e
     let w := xs.get l
     let ev := profQuery ps (.eval e xs m) 0 l
     let tg := profQuery ps (.arg e xs m) 0 l
     let num (w : Word) : ℚ := (f32 w).num
     (∀ k ∈ f.lines, k.finite) → ¬nanWord f.lo → ¬nanWord f.hi →
     (nanWord w → ev = (0x7FC00000, 0) ∧ tg = (0xFFFF, 0)) ∧
     (¬nanWord w → wordKey w < wordKey f.lo ∨ wordKey f.hi < wordKey w → ev = (0x7F800000, 0) ∧ tg = (0xFFFF, 0)) ∧
     (¬nanWord w → wordKey f.lo ≤ wordKey w → wordKey w ≤ wordKey f.hi →
       (f.lines = [] → ev = (0xFF800000, 0) ∧ tg = (0xFFFF, 0)) ∧
       (f.lines ≠ [] → finite32 w = true → ∃ k ∈ f.lines, ∃ v : Q, 0 < v.den ∧ v.val = k.at (num w) ∧ ev = rne32 (.ofQ v) ∧ tg = (k.t.setWidth 32, 0) ∧
         ∀ j ∈ f.lines, j.at (num w) ≤ k.at (num w) ∧ (j.at (num w) = k.at (num w) → num j.a ≤ num k.a)) ∧
       (∀ k, w = 0x7F800000 → f.lines.getLast? = some k → ev = (if num k.a = 0 then k.b else if num k.a < 0 then 0xFF800000 else 0x7F800000, 0) ∧ tg = (k.t.setWidth 32, 0)) ∧
       (∀ k, w = 0xFF800000 → f.lines.head? = some k → ev = (if num k.a = 0 then k.b else if num k.a < 0 then 0x7F800000 else 0xFF800000, 0) ∧ tg = (k.t.setWidth 32, 0))) ∧
     (∀ d imm, let i := BitVec.toNat (imm : Word) + l
       let n := f.lines.length
       let got (j : Nat) : Word := (profQuery ps (.get d e imm m) j l).1
       (∀ k, f.lines[i]? = some k → got 0 = k.a ∧ got 1 = k.b ∧ got 2 = k.t.setWidth 32 ∧ (i + 1 = n → got 3 = f.hi) ∧
         ∀ k', f.lines[i + 1]? = some k' → num k.a < num k'.a → ∃ v : Q, 0 < v.den ∧ v.val * (num k'.a - num k.a) = num k.b - num k'.b ∧ got 3 = (rne32 (.ofQ v)).1) ∧
       (i = n → got 0 = f.lo ∧ got 1 = f.hi ∧ got 2 = 0xFFFFFFFE ∧ got 3 = BitVec.ofNat 32 n) ∧
       (n < i → got 0 = 0 ∧ got 1 = 0 ∧ got 2 = 0xFFFFFFFF ∧ got 3 = 0)))

/-- The value of a form (10 R188).

vres (10 R195): on a deferred register whose symbol is resolved, every live lane takes the value of its form, whatever the mask and the guard,
and the slot is free; while the symbol is pending the group parks; on a concrete register it only moves on. -/
def Obligations.ResolveWordCompletes : Prop :=
  (∀ (sc x o : Word),
     (sc = 0 ∨ sc = 0x80000000 → formVal sc x o = o) ∧
     (¬(sc = 0 ∨ sc = 0x80000000) → ((f32 x).isNan = true ∨ (f32 o).isNan = true) → formVal sc x o = 0x7FC00000) ∧
     (¬(sc = 0 ∨ sc = 0x80000000) → (f32 x).isNan = false → (f32 o).isNan = false →
       formVal sc x o = (rne32 ((f32 sc).fma (f32 x) (f32 o)).1).1)) ∧
  (∀ (s : State) (t i : Nat) (g : Group) (w : LaneWord), s.Issuer t i g → g.Idle → w.vd.toNat < 32 * g.blocks → g.v.wf = true → g.tags.wf = true → g.scar.wf = true →
     g.cancel = 0 → g.badV = [] → 0 < g.live → g.live ≤ 96 →
     let r := w.vd.toNat
     (∀ v, g.deferred r = true → s.symX t (g.tagSym r) = some v → ∃ g' : Group, exec (.vres w) s = .next (s.putGroup t i g'.laneDone) ∧ g'.deferred r = false ∧
       (∀ l, l < 96 → g'.v.get (96 * r + l) = if l < g.live then formVal (g.scar.get (96 * g.tagSlot r + l)) v (g.v.get (96 * r + l)) else g.v.get (96 * r + l)) ∧
       (∀ q l, q ≠ r → l < 96 → g'.v.get (96 * q + l) = g.v.get (96 * q + l)) ∧ (∀ q, q ≠ r → g'.tags.get q = g.tags.get q) ∧
       (∀ l, l < 96 → g'.scar.get (96 * g.tagSlot r + l) = 0) ∧ g'.s = g.s ∧ g'.k = g.k ∧ g'.sh = g.sh ∧ g'.cond = g.cond) ∧
     (g.deferred r = true → s.symX t (g.tagSym r) = none → exec (.vres w) s = .next (s.park t i (.sym (g.tagSym r)))) ∧
     (g.deferred r = false → exec (.vres w) s = .next (s.putGroup t i g.laneDone)))

/-- vlate completes on a symbol that is not free with a sidecar slot free: in the lanes in which it acts vd is the form (1.0, -0.0) over the symbol; a
lane in which it does not keeps its value (10 R189, R192). Where it acts in no lane it changes nothing.

The symbol words complete: a free symbol is bound to its source; a manual one is set; a resolved one is released (15 R301, 10 R185, R196).

The transforms (10 R190-R194): a float word with a deferred source writes, in each lane in which it acts, the form of the table over the symbol of its
sources, and raises no flag; another live lane keeps its content, as a form where vd was one and else as a value. Where two symbols meet the lower one's
operand is a value: the word parks while that symbol is pending. Any other reader of a form parks while its symbol is pending and reads its value once it is
resolved, and makes vd concrete. With no slot free the deferral bit is set and the group parks.

What a release does (10 R196): in every group of the team each register that depends on the symbol becomes concrete, in every live lane the value of its
form, and its slot is free; every other register and form is as it was; a group that waits for a sidecar slot is ready; the symbol is free. -/
def Obligations.SymbolWordsComplete : Prop :=
  (∀ (s : State) (t i : Nat) (g : Group) (w : LaneWord), s.LaneReady t i g [w.vd.toNat] → w.va.toNat < 32 → s.symFree t w.va.toNat = false →
     ((∀ l, g.acts w l = false) → exec (.vlate w) s = .next (s.putGroup t i g.laneDone)) ∧
     ((∃ l, g.acts w l = true) → g.freeSlots ≠ [] → g.tags.wf = true → g.scar.wf = true →
     ∃ s' g', exec (.vlate w) s = .next s' ∧ s'.group t i = some g' ∧ g'.deferred w.vd.toNat = true ∧ g'.tagSym w.vd.toNat = w.va.toNat ∧
       g'.tagSlot w.vd.toNat ∈ g.freeSlots ∧ ∀ l, l < g.live →
         (g.acts w l = true → g'.scale true w.vd.toNat l = 0x3F800000 ∧ g'.v.get (96 * w.vd.toNat + l) = 0x80000000) ∧
         (g.acts w l = false → g'.scale true w.vd.toNat l = 0 ∧ g'.v.get (96 * w.vd.toNat + l) = g.lane w.vd l))) ∧
  (∀ (s : State) (t i : Nat) (g : Group) (x : Team) (w : LaneWord), s.Issuer t i g → g.Idle → s.Sound → s.team t = some x → w.vd.toNat < 32 →
     let n := w.vd.toNat
     let done (s' : State) : Out := .next (s'.mapGroup t i Group.laneDone)
     let put (y : Sym) : State := s.putTeam t { x with syms := x.syms.set n y }
     let reg (r : Nat) : Word := g.readS true r
     let f := State.lanePair g w.va.toNat
     let v := State.lanePair g w.vc.toNat
     (x.syms.get n = none →
       exec (.sybindManual w) s = done (put ⟨.manual, false, none⟩) ∧
       (∀ fpa vpa, w.va.toNat < 128 → w.va.toNat % 2 = 0 → w.vb.toNat < 128 → w.vc.toNat < 128 → w.vc.toNat % 2 = 0 → f < 2 ^ 57 → f % 4 = 0 → v < 2 ^ 57 → v % 4 = 0 →
         s.translateNow t i .read f = .ok fpa → s.translateNow t i .read v = .ok vpa → State.cntHolds (s.wordAt (.dev fpa)) (reg w.vb.toNat) = false →
         ∃ p, exec (.sybindCnt w) s = done (put ⟨.counter f fpa (reg w.vb.toNat) v vpa p, false, none⟩)) ∧
       (w.va.toNat < 128 → (reg w.va.toNat).toNat % 4 = 0 → (reg w.va.toNat).toNat + 4 ≤ s.limit (w.mod.getLsbD 2) →
         exec (.sybindSlot w) s = done (put ⟨.slot w.vb.toNat (State.bsPhase (x.bs.get w.vb.toNat)) (w.mod.getLsbD 2) (reg w.va.toNat).toNat, false, none⟩))) ∧
     (∀ b, x.syms.get n = some ⟨.manual, b, none⟩ → w.va.toNat < 128 → exec (.syset w) s = done (s.resolveSym t n (reg w.va.toNat))) ∧
     (∀ src b val, x.syms.get n = some ⟨src, b, some val⟩ → exec (.syrel w) s = done (s.releaseSym t n)) ∧
     (∀ src b, x.syms.get n = some ⟨src, b, none⟩ → exec (.syrel w) s = .next (s.park t i (.sym n)))) ∧
  (∀ (s : State) (t i y : Nat) (g : Group) (w : LaneWord), s.Issuer t i g → g.Idle → g.badV = [] → w.ty = 0 → g.live ≤ 96 →
     g.v.wf = true → g.tags.wf = true → g.scar.wf = true → (∀ r ∈ [w.vd.toNat, w.va.toNat, w.vb.toNat, w.vc.toNat], r < 32 * g.blocks) → (∃ l, g.acts w l = true) →
     let form (r : Nat) (l : Nat) : Word × Word := (g.scar.get (96 * g.tagSlot r + l), g.v.get (96 * r + l))
     let A : Bool := g.deferred w.va.toNat
     let B : Bool := w.bsrc == 0 && g.deferred w.vb.toNat
     let C : Bool := g.deferred w.vc.toNat
     let D : Bool := g.deferred w.vd.toNat
     let a (l : Nat) := form w.va.toNat l
     let b (l : Nat) : Word × Word := ((form w.vb.toNat l).1, g.operandB w l)
     let c (l : Nat) := form w.vc.toNat l
     let add (x y : Word) : Word := (rne32 ((f32 x).add (f32 y)).1).1
     let sub (x y : Word) : Word := (rne32 ((f32 x).add (f32 y).neg).1).1
     let mul (x y : Word) : Word := (rne32 ((f32 x).mul (f32 y)).1).1
     let fma (x y z : Word) : Word := (rne32 ((f32 x).fma (f32 y) (f32 z)).1).1
     let neg (x : Word) : Word := x ^^^ 0x80000000
     let leaves (ins : Instr) (z : Nat) (f : Nat → Word × Word) : Prop := ∃ s' g', exec ins s = .next s' ∧ s'.group t i = some g' ∧
       g'.deferred w.vd.toNat = true ∧ g'.tagSym w.vd.toNat = z ∧ (if D then g'.tagSlot w.vd.toNat = g.tagSlot w.vd.toNat else g'.tagSlot w.vd.toNat ∈ g.freeSlots) ∧
       g'.cond = g.cond ∧ (∀ r, r ≠ w.vd.toNat → g'.tags.get r = g.tags.get r ∧ ∀ l, l < 96 → g'.v.get (96 * r + l) = g.v.get (96 * r + l)) ∧
       ∀ l, l < g.live → (g'.scale true w.vd.toNat l, g'.v.get (96 * w.vd.toNat + l)) =
         if g.acts w l then f l else (if D then (form w.vd.toNat l).1 else 0, g.lane w.vd l)
     ((∀ r ∈ [w.vd.toNat, w.va.toNat, w.vb.toNat, w.vc.toNat], g.deferred r = true → g.tagSym r = y) → D = true ∨ g.freeSlots ≠ [] →
       ∀ p ∈ ([(.vmov w, B, b), (.vnegFp w, A, fun l => (neg (a l).1, neg (a l).2)),
         (.vaddFp w, A && !B, fun l => ((a l).1, add (a l).2 (b l).2)), (.vaddFp w, !A && B, fun l => ((b l).1, add (a l).2 (b l).2)),
         (.vaddFp w, A && B, fun l => (add (a l).1 (b l).1, add (a l).2 (b l).2)),
         (.vsubFp w, A && !B, fun l => ((a l).1, sub (a l).2 (b l).2)), (.vsubFp w, !A && B, fun l => (neg (b l).1, sub (a l).2 (b l).2)),
         (.vsubFp w, A && B, fun l => (sub (a l).1 (b l).1, sub (a l).2 (b l).2)),
         (.vmulFp w, A && !B, fun l => (mul (b l).2 (a l).1, mul (b l).2 (a l).2)), (.vmulFp w, !A && B, fun l => (mul (a l).2 (b l).1, mul (a l).2 (b l).2)),
         (.vfma w, A && !B && !C, fun l => (mul (b l).2 (a l).1, fma (b l).2 (a l).2 (c l).2)),
         (.vfma w, !A && B && !C, fun l => (mul (a l).2 (b l).1, fma (a l).2 (b l).2 (c l).2)),
         (.vfma w, A && !B && C, fun l => (fma (b l).2 (a l).1 (c l).1, fma (b l).2 (a l).2 (c l).2)),
         (.vfma w, !A && B && C, fun l => (fma (a l).2 (b l).1 (c l).1, fma (a l).2 (b l).2 (c l).2)),
         (.vfma w, !A && !B && C, fun l => ((c l).1, fma (a l).2 (b l).2 (c l).2)),
         (.vsel w, A || B, fun l => if (g.k.get w.vc.toNat).getLsbD l then (if A then (a l).1 else 0, (a l).2) else (if B then (b l).1 else 0, (b l).2))]
         : List (Instr × Bool × (Nat → Word × Word))), p.2.1 = true → leaves p.1 y p.2.2) ∧
     (A = true → B = true → D = false → g.freeSlots ≠ [] → g.tagSym w.va.toNat < g.tagSym w.vb.toNat →
       (s.symX t (g.tagSym w.va.toNat) = none → exec (.vaddFp w) s = .next (s.park t i (.sym (g.tagSym w.va.toNat)))) ∧
       ∀ X, s.symX t (g.tagSym w.va.toNat) = some X →
         leaves (.vaddFp w) (g.tagSym w.vb.toNat) fun l => ((b l).1, add (formVal (a l).1 X (a l).2) (b l).2)) ∧
     (A = true → B = false → D = false → s.symX t (g.tagSym w.va.toNat) = none →
       ∀ ins ∈ [Instr.vabsFp w, .vmaxFp w, .vminFp w, .vrcp w, .vred w], exec ins s = .next (s.park t i (.sym (g.tagSym w.va.toNat)))) ∧
     (∀ X, A = true → (D = true → g.tagSym w.vd.toNat = g.tagSym w.va.toNat) → s.symX t (g.tagSym w.va.toNat) = some X →
       ∃ g' : Group, exec (.vabsFp w) s = .next (s.putGroup t i g'.laneDone) ∧ g'.deferred w.vd.toNat = false ∧ g'.cond = g.cond ∧
         ∀ l, l < g.live → g'.v.get (96 * w.vd.toNat + l) = if g.acts w l then BitVec.ofNat 32 ((formVal (a l).1 X (a l).2).toNat % 2 ^ 31)
           else if D then formVal (form w.vd.toNat l).1 X (form w.vd.toNat l).2 else g.lane w.vd l) ∧
     (A = true → B = false → D = false → g.freeSlots = [] → (g.canEnter .deferral = false) →
       exec (.vaddFp w) s = .next ((s.putGroup t i { g with cond := g.cond ||| 0x100 }).park t i .sidecar))) ∧
  (∀ (s : State) (t n : Nat) (x : Team) (X : Word), s.team t = some x → s.symX t n = some X → Tab.wf s.groups = true →
     (∀ i h, i < 64 → s.group t i = some h → h.idx = i) →
     let s' := s.releaseSym t n
     s'.team t = some { x with syms := x.syms.del n } ∧
     ∀ i h, i < 64 → s.group t i = some h → h.v.wf = true → h.tags.wf = true → h.scar.wf = true → h.badV = [] → h.live ≤ 96 →
       (∀ q r, h.deferred q = true → h.deferred r = true → h.tagSlot q = h.tagSlot r → q = r) →
       ∃ h', s'.group t i = some h' ∧ h' = { h with v := h'.v, tags := h'.tags, scar := h'.scar, wait := if h.wait = some .sidecar then none else h.wait } ∧
         ∀ r, r < 32 * h.blocks →
           let form (l : Nat) : Nat := 96 * h.tagSlot r + l
           (h.deferred r = true → h.tagSym r = n → h'.deferred r = false ∧ ∀ l, l < 96 → h'.scar.get (form l) = 0 ∧
             h'.v.get (96 * r + l) = if l < h.live then formVal (h.scar.get (form l)) X (h.v.get (96 * r + l)) else h.v.get (96 * r + l)) ∧
           (h.deferred r = false ∨ h.tagSym r ≠ n → h'.tags.get r = h.tags.get r ∧ ∀ l, l < 96 → h'.v.get (96 * r + l) = h.v.get (96 * r + l) ∧
             (h.deferred r = true → h'.scar.get (form l) = h.scar.get (form l))))

/-- Resolution is one event for the team: the symbol reads as its value, every group parked on it is ready, no other symbol changes (10 R186); the
event SYMBOL_RESOLUTION gives a counter symbol whose condition has held its value word (10 R185). -/
def Obligations.SymbolResolvesForWholeTeam : Prop :=
  ∀ (s : State) (t n : Nat) (x : Team) (y : Sym) (v : Word), s.team t = some x → x.syms.get n = some y →
    Tab.wf s.groups = true → (∀ k g, s.groups.get k = some g → k / 64 = t → g.idx = k % 64) →
    let s' := s.resolveSym t n v
    s'.symX t n = some v ∧ (∀ m, m ≠ n → s'.symX t m = s.symX t m) ∧
      (∀ i g, i < 64 → s.group t i = some g → ∃ g', s'.group t i = some g' ∧ g' = { g with wait := if g.wait = some (.sym n) then none else g.wait }) ∧
      (∀ f fpa tg va vpa p, s.Sound → y = ⟨.counter f fpa tg va vpa p, true, none⟩ →
        exec (.symbolResolution t n) s = .next (s.resolveSym t n (s.wordAt (.dev vpa))))

/-- exit and tail complete where no operation of the group is outstanding: the group has ended, its registers are gone; with another group of
the team still running the team stays; as the last of its team it retires it, which the grid counts (01 R34, R35). -/
def Obligations.GroupsEnd : Prop :=
  ∀ (s : State) (t i : Nat) (g : Group) (x : Team) (gr : Grid), s.Issuer t i g → s.team t = some x → s.grid x.grid = some gr → gr.handler = none →
    i < 64 → g.idx = i → g.Idle → g.opens = [] → s.opsBy t i = [] → s.heldByMxa t g = false → x.killing = false → x.asms = [] →
    ∀ ins ∈ [Instr.exit, Instr.tail], ∃ s', exec ins s = .next s' ∧ s'.dev = s.dev ∧ s'.annex = s.annex ∧
      (∀ j h, j < 64 → j ≠ i → s.group t j = some h → h.ended = false → h.wait = none → Tab.wf s.groups = true →
        ∃ g', s'.group t i = some g' ∧ g'.ended = true ∧ g'.s = [] ∧ g'.v = [] ∧ g'.k = [] ∧ g'.sh = [] ∧ g'.spill = [] ∧ s'.group t j = some h ∧
          ∃ x', s'.team t = some x') ∧
      (s.groupsOf t = [g] → (∀ e ∈ s.trackers, e.tid ≠ t) → Tab.wf s.groups = true → Tab.wf s.teams = true →
        s'.group t i = none ∧ s'.team t = none ∧ s'.grid x.grid = some { gr with retired := gr.retired + 1 })

/-- The copy words of one slice complete: shapes that obey their maps, of one format and rank, in the spaces of the form, without a block or with
one that names no counter word: one operation that holds the slice stands ready, counted on its class; nothing else of the group and no memory
changes until the copy runs (16 R303-R308, 05 R101).

cpg, cpw, cpcb and aclose complete: each leaves one operation and moves on (16 R308-R311). -/
def Obligations.CopyWordsComplete : Prop :=
  (∀ (s : State) (t i : Nat) (g : Group) (x : Team) (d sh : ShReg) (a : SReg) (b : Bsl), s.Issuer t i g → g.Idle → s.team t = some x → i < 64 →
     x.killing = false → x.asms = [] → g.ended = false → g.wait = none → g.idx = i → Tab.wf s.groups = true →
     let db := g.sh.get d.toNat
     let sb := g.sh.get sh.toNat
     let D := Shape.of db
     let S := Shape.of sb
     Shape.ok false db = true → Shape.ok false sb = true → D.cbtag = 0 → S.cbtag = 0 → D.block = false → S.block = false → D.ndim = S.ndim →
     (a = 0 ∨ (a.toNat % 2 = 0 ∧ a.toNat ≤ 118 ∧ s.sreg a = 1)) →
     let org : List Int := if a = 0 then [0, 0, 0, 0, 0] else (List.range 5).map fun n => (s.sreg (a + 4 + BitVec.ofNat 7 n)).toInt
     let dev : Nat := (s.sreg (a + 1)).toNat
     let copies (ins : Instr) (f : CopyForm) (c : Cls) : Prop := g.counter c < 255 → ∃ s' g' o, exec ins s = .next s' ∧ s'.group t i = some g' ∧
       g'.spc = g.spc + 4 ∧ g'.counter c = g.counter c + 1 ∧ g'.s = g.s ∧ g'.v = g.v ∧ g'.sh = g.sh ∧ s'.ops.get s.handles = some o ∧ o.tid = t ∧ o.idx = i ∧
       o.stage = .ready ∧ (∃ ops sl, o.kind = .copy ops [sl] ∧ ops.form = f ∧ ops.np = 1 ∧ ops.inc = 0 ∧ ops.bsl = b.toNat ∧
         (f.toPeer = true → ops.peer = dev) ∧ sl.dst = db ∧ sl.src = sb ∧ sl.origin = org ∧ sl.idx = i ∧ sl.pc = g.spc) ∧ s.MemorySame s'
     let peer : Prop := a ≠ 0 ∧ s.isPeer (s.partOf g.core) dev = true
     (D.fmt = S.fmt →
       (D.space ≠ 0 → S.space = 0 → copies (.cpl d sh a b) .cpl .cp) ∧
       (D.space = 0 → S.space ≠ 0 → copies (.cps d sh a b) .cps .cp) ∧
       (D.space ≠ 0 → S.space ≠ 0 → D.space ≠ S.space → copies (.cpx d sh a b) .cpx .cp) ∧
       (D.space = 1 → S.space = 0 → x.mcset ≠ none → copies (.cpm d sh a b) .cpm .cp) ∧
       (D.space = 0 → peer → copies (.cprPut d sh a b) .cprPut .cl) ∧
       (S.space = 0 → peer → copies (.cprGet d sh a b) .cprGet .cl) ∧
       (∀ op : BitVec 2, D.space = 0 → S.space = 1 →
         ((op = 0 ∧ D.fmt ∈ [0x10, 0x11]) ∨ (op = 1 ∧ D.fmt ∈ [0, 0x10, 0x11]) ∨ (op = 2 ∧ D.fmt = 0)) →
         copies (.cpa d sh a b false op) (.cpa op.toNat false) .cp ∧ (peer → copies (.cpa d sh a b true op) (.cpa op.toNat true) .cl))) ∧
     (D.space = 0 → S.space = 1 → S.fmt = 0 → D.fmt ≤ 4 → copies (.cpst d sh a b) .cpst .cp) ∧
     (∀ gr acc e, s.gridOf t = some gr → gr.drain = some acc → (s.part (s.partOf g.core)).entries.find? (fun y => y.acc == acc) = some e → e.f.t = db →
       D.space = 0 → S.space = 1 → S.fmt = 0 → D.fmt = 0 → copies (.bkcommit d sh a b) .bkcommit .cp)) ∧
  (∀ (s : State) (t i : Nat) (g : Group) (x : Team) (d sh : ShReg) (a c : SReg) (b : Bsl) (n sp : BitVec 2), s.Issuer t i g → g.Idle → s.team t = some x →
     i < 64 → x.killing = false → x.asms = [] → g.ended = false → g.wait = none → g.idx = i → Tab.wf s.groups = true →
     (∀ r, g.deferred r = false) → g.badV = [] →
     g.counter .cp < 255 → a.toNat % 2 = 0 → 2 ≤ a.toNat → a.toNat ≤ 118 →
     let D := Shape.of (g.sh.get d.toNat)
     let S := Shape.of (g.sh.get sh.toNat)
     let ends (ins : Instr) (st : Stage) (k : OpKind) : Prop := ∃ s' g' o, exec ins s = .next s' ∧ s'.group t i = some g' ∧ g'.spc = g.spc + 4 ∧
       g'.counter .cp = g.counter .cp + 1 ∧ g'.s = g.s ∧ s'.ops.get s.handles = some o ∧ o.stage = st ∧ o.kind = k ∧ s.MemorySame s'
     let vn := (s.sreg (a + 1)).toNat
     let org : List Int := (List.range 5).map fun k => (s.sreg (a + 4 + BitVec.ofNat 7 k)).toInt
     (Shape.ok false (g.sh.get d.toNat) = true → Shape.ok true (g.sh.get sh.toNat) = true → D.block = false → D.fmt = S.fmt → S.cbtag = 0 → D.space = 1 →
       S.space = 0 → S.ndim = 1 → D.ndim = 2 → D.exts.headD 0 = S.exts.headD 0 → 1 ≤ D.exts.getD 1 0 → D.exts.getD 1 0 ≤ 96 → s.sreg a = 1 →
       vn % 2 = 0 → vn + 1 < 32 * g.blocks →
       ends (.cpg d sh a b) .ready (.copy ⟨.cpg, 1, b.toNat, 0, 0, 0, 0, [], 0⟩ [⟨i, s.glid t i, g.spc, g.lword, g.sh.get d.toNat, g.sh.get sh.toNat, org,
         g.liveMask &&& g.mask false &&& lanesBelow (D.exts.getD 1 0),
         (List.range 96).map fun l => (g.v.get (96 * vn + l)).toNat + 2 ^ 32 * (g.v.get (96 * (vn + 1) + l)).toNat, s.handles⟩])) ∧
     (∀ inc : Nat, 0 < inc → inc < 2 ^ 16 → s.sreg a = BitVec.ofNat 32 (1 + 65536 * inc) → (s.spair (a + 2)).toNat % 4 = 0 → (s.spair (a + 2)).toNat + 4 ≤ 2 ^ 57 →
       ∃ after, ends (.cpw a b false) .ready (.copy ⟨.cpw false, 1, b.toNat, inc, 0, (s.spair (a + 2)).toNat, 0, after, 0⟩ []) ∧
         ∀ h o, s.ops.get h = some o → Tab.wf s.ops = true → (h ∈ after ↔ o.tid = t ∧ State.opBy o t i = true ∧
           ((∃ k l, o.kind = .copy k l) ∨ (∃ k l m, o.kind = .cpcb k l m) ∨ ∃ k l m, o.kind = .close k l m))) ∧
     (Shape.ok false (g.sh.get sh.toNat) = true → S.fmt = 0x20 → S.zorder = false → S.ndim = 2 → S.exts.getD 1 0 = 256 → 1 ≤ S.exts.headD 0 → S.exts.headD 0 ≤ 64 →
       ends (.cpcb sh 0 b n) .ready (.cpcb n.toNat (g.sh.get sh.toNat) b.toNat)) ∧
     (let v := if sp = 0 then (s.spair a).toNat else (s.sreg a).toNat
      let len := (s.sreg c).toNat
      0 < len → len % 4 = 0 → v % 4 = 0 → sp.toNat < 3 → v + len ≤ s.limitOf t sp.toNat →
       ends (.aclose sp a c) .moving (.close ⟨sp.toNat, v, 0⟩ len ((List.range (len / 4)).map fun k => v + 4 * k))))

/-- launch completes: the record's place is posted at the partition, sd waits for the code, the SPC moves on (16 R323).

A record that waits is read, checked and answered: the lowest code that it fails at its status word, or 0 there and its grid in the queue. A host
write posts one, whose address space and annex window are those that the configuration words give at its acceptance (23 R365, R379, 24 R386; 01 R25, R27).

That the launch agent takes a slot whenever the posted word differs from its count, also below it, is the model's choice (log 70). -/
def Obligations.LaunchesAreAccepted : Prop :=
  (∀ (s : State) (t i : Nat) (g : Group) (gr : Grid) (d a : SReg) (ax : Bool) (la : BitVec 4), s.Issuer t i g → s.gridOf t = some gr → g.Idle →
     a.toNat % 2 = 0 →
     let v := (s.spair a).toNat
     let loc : RecLoc := if ax then (if v % 64 = 0 ∧ v + 128 ≤ gr.awSize then .annex (g.core / 12) (gr.awBase + v) else .nowhere)
       else if v % 64 = 0 ∧ v < 2 ^ 57 then .dev gr.asid v else .nowhere
     ∃ s' g' o, exec (.launch d a ax la) s = .next s' ∧ s'.group t i = some g' ∧ g'.spc = g.spc + 4 ∧ g'.s = g.s ∧
       g'.pend = (if d.toNat = 0 then [] else [⟨.s d.toNat, 1, [], s.handles, false, la.toNat, if la.toNat = 0 then 0 else s.handles, false, false⟩]) ∧
       s'.ops.get s.handles = some o ∧ o.kind = .launch ax v ∧
       (s'.part gr.part).posts = (s.part gr.part).posts ++ [⟨some (t, i, s.handles), false, loc, gr.asid, gr.awBase, gr.awSize⟩] ∧ s.MemorySame s') ∧
  (∀ (s : State) (p : Nat),
     (∀ (x : Posting) (r : List Posting) (d off : Nat), s.Sound → s.annex.wf = true → (s.part p).status = [] → (s.part p).posts = x :: r → x.who = none → x.loc = .annex d off → s.heldGrids p < 4096 →
       let rc := s.recordAt (.annex d) off
       (∀ c l, s.recordCodes p rc false = c :: l → 0 < c → c < 256 → ∃ s', exec (.recordAcceptance p) s = .next s' ∧ (s'.part p).posts = r ∧ s'.grids = s.grids ∧
         s'.wordAt (.annex d (off + 84)) = BitVec.ofNat 32 c) ∧
       (∀ pa pb, s.recordCodes p rc false = [] → Rec.depAddr rc = 0 → Rec.entry rc < 2 ^ 57 → Rec.laneBase rc < 2 ^ 57 →
         s.translate (.record p) none p x.asid .fetch (Rec.entry rc) = .ok pa → s.translate (.record p) none p x.asid .fetch (Rec.laneBase rc) = .ok pb →
         ∃ s' gr, exec (.recordAcceptance p) s = .next s' ∧ (s'.part p).posts = r ∧ s'.grid s.handles = some gr ∧ gr.record = rc ∧ gr.part = p ∧
           gr.nteams = Rec.nteams rc ∧ gr.prio = Rec.prio rc ∧ gr.depMet = true ∧ gr.age = (s.part p).ages ∧ s'.wordAt (.annex d (off + 84)) = 0)) ∧
     (∀ addr, s.broken = false →
       exec (.hostLaunchPort p addr) s = .next (s.putPart p { s.part p with posts := (s.part p).posts ++ [State.hostPost addr false] })) ∧
     (∀ (x : Posting) (r : List Posting) (va pr pa pb : Nat), s.Sound → (s.part p).status = [] → (s.part p).posts = x :: r → x.who = none → x.loc = .host va →
       s.heldGrids p < 4096 → va % 128 = 0 → va < 2 ^ 57 →
       let asid := (s.cfgW 2 p 0x028).toNat % 4096
       let w := (s.cfgW 2 p 0x02C).toNat
       let rc := s.recordAt (fun a => .dev (pr + a % 65536)) va
       s.recordCodes p rc false = [] → Rec.depAddr rc = 0 → Rec.entry rc < 2 ^ 57 → Rec.laneBase rc < 2 ^ 57 →
       s.translate (.record p) none p asid .read (65536 * (va / 65536)) = .ok pr → s.translate (.record p) none p asid .fetch (Rec.entry rc) = .ok pa →
       s.translate (.record p) none p asid .fetch (Rec.laneBase rc) = .ok pb →
       ∃ s' gr, exec (.recordAcceptance p) s = .next s' ∧ (s'.part p).posts = r ∧ s'.grid s.handles = some gr ∧ gr.record = rc ∧ gr.part = p ∧ gr.asid = asid ∧
         gr.awBase = 65536 * (w % 2048) ∧ gr.awSize = 65536 * (w / 65536 % 2048)) ∧
     (∀ pa : Nat, s.Sound → let va := s.cfgD 2 p 0x114 + 128 * 2 ^ fieldAt (s.cfgW 2 p 0x11C).toNat 0 4
       bitAt (s.cfgW 2 p 0x100).toNat 0 = false → (∀ y ∈ (s.part p).posts, y.agent = false) → va < 2 ^ 57 →
       s.translate .hub none p (fieldAt (s.cfgW 2 p 0x028).toNat 0 12) .read va = .ok pa → BitVec.ofNat 64 (s.numAt (.dev pa) 8) ≠ (s.part p).posted →
       exec (.launchAgentWake p) s = .next (s.putPart p
         { s.part p with posted := (s.part p).posted + 1,
                         posts := (s.part p).posts ++ [State.hostPost (s.cfgD 2 p 0x114 + 128 * ((s.part p).posted.toNat % 2 ^ fieldAt (s.cfgW 2 p 0x11C).toNat 0 4)) true] })))

/-- A copy starts where every check of its slices holds; where its one slice fails one at one address it takes that fault and moves nothing
(05 R99, 16 R307).

Copies of a team whose group i runs, with nothing of it being killed or assembled. A cpl of a row of FP32 elements inside one page leaves at its destination
the words of its source and changes no other byte; a cpw without a block adds inc to its counter word; a close step gives its word the sum of its entries in key
order and takes them from the queue (05 R99, R112, 16 R307, 06 R124).

A copy of a row leaves at each element of its destination: what its source holds (cpl, cps, cpx, cpr and, in every team of the set, cpm); the sum,
the maximum or the queued add (cpa); the source converted to the destination's format (cpst); the rounded sum (bkcommit). The statistics slot of
cpst and bkcommit takes each element written; no other byte changes (05 R107-R113, 09 R178).

A statistics slot that takes an element counts it; a finite value adds the square, in units of 2^-80 and truncated, up to the largest sum, and its magnitude
enters the maximum; an infinity saturates both; a NaN is only counted (04 R90).

A gather leaves in row l of its destination the row at lane l's address, for every lane that it names; a codebook load leaves in its table the bytes of its
source (05 R109, R114).

That a copy moves its bytes in one step at its completion, that a codebook load replaces its table whole at completion and leaves zeros beyond its entries, and that the number of an ordered add counts the adds of its key whatever their grid, are the model's choices (log 4, log 35, log 68). -/
def Obligations.CopiesArePerformed : Prop :=
  (∀ (s : State) (h : Nat) (o : Op) (x : Team) (c : CopyOps) (sl : Slice), s.ops.get h = some o → o.stage = .ready → s.team o.tid = some x → c.after = [] →
     c.form ≠ .cpm → decodeTag c.form (Shape.of sl.src) = none → o.kind = .copy c [sl] →
     (s.sliceFault o c sl = none → c.inc = 0 → exec (.copyStart h) s = .next (s.putOp h { o with stage := .moving })) ∧
     (∀ code sp a, s.sliceFault o c sl = some (code, sp, [a]) →
       ∃ s0 : State, s0 = { s with free := s0.free } ∧
         exec (.copyStart h) s = .next (s0.raiseOp h sl.idx sl.pc sl.lword code { faddr := sp * 2 ^ 60 + (a % 2 ^ 60).toNat }))) ∧
  (∀ (s : State) (h i : Nat) (o : Op) (x : Team) (g : Group), s.Completes h i o x g →
     (∀ (sl : Slice) (after : List Nat) (da sa n pa : Nat), o.kind = .copy ⟨.cpl, 1, 31, 0, 0, 0, 0, after, 0⟩ [sl] → n ≤ 16384 → sl.origin = [0, 0, 0, 0, 0] →
       (let D := Shape.of sl.dst; D.space = 1 ∧ D.addr = da ∧ D.fmt = 0 ∧ D.layout = 0 ∧ D.ndim = 1 ∧ D.exts = [n] ∧ D.strides = [1]) →
       (let S := Shape.of sl.src; S.space = 0 ∧ S.addr = sa ∧ S.fmt = 0 ∧ S.layout = 0 ∧ S.ndim = 1 ∧ S.exts = [n] ∧ S.strides = [1] ∧ S.cbtag = 0) →
       sa % 65536 + 4 * n ≤ 65536 →
       s.translate (.op h) (some o.core) (s.partOf o.core) (((s.gridOf o.tid).map (·.asid)).getD 0) .read (65536 * (sa / 65536)) = .ok pa →
       ∃ s', exec (.copyComplete h) s = .next s' ∧ s'.ops.get h = none ∧ s'.dev = s.dev ∧ s'.annex = s.annex ∧
         (∀ k, k < n → s'.wordAt (.team o.tid (da + 4 * k)) = s.wordAt (.dev (pa + (sa + 4 * k) % 65536))) ∧
         ∀ b, b < da ∨ da + 4 * n ≤ b → s'.byteAt (.team o.tid b) = s.byteAt (.team o.tid b)) ∧
     (∀ (after : List Nat) (inc ca : Nat), o.kind = .copy ⟨.cpw false, 1, 31, inc, 1, ca, 0, after, 0⟩ [] →
       ∃ s', exec (.copyComplete h) s = .next s' ∧ s'.ops.get h = none ∧ s'.dev = s.dev ∧ s'.annex = s.annex ∧
         s'.wordAt (.team o.tid ca) = s.wordAt (.team o.tid ca) + BitVec.ofNat 32 inc ∧
         ∀ b, b < ca ∨ ca + 4 ≤ b → s'.byteAt (.team o.tid b) = s.byteAt (.team o.tid b)) ∧
     (∀ v n a, o.kind = .close ⟨1, v, 0⟩ n [a] →
       ∃ s', exec (.orderedCloseStep h) s = .next s' ∧ (o.idx = i → (∀ y ∈ g.infl, y.cls = .cp → y.op = h) → s'.ops.get h = none) ∧
         s'.oq = s.oq.filter (fun e => e.loc != .team o.tid a) ∧
         s'.wordAt (.team o.tid a) = State.closeSum (s.wordAt (.team o.tid a)) (s.oq.filter fun e => e.loc == .team o.tid a) ∧
         ∀ b, b < a ∨ a + 4 ≤ b → s'.byteAt (.team o.tid b) = s.byteAt (.team o.tid b))) ∧
  (∀ (s : State) (h i : Nat) (o : Op) (x : Team) (g : Group) (c : CopyOps) (sl : Slice) (n w sp dp sf df sa da : Nat) (S D : Nat → Loc),
     s.Completes h i o x g → o.kind = .copy c [sl] → c.bsl = 31 → c.inc = 0 → sl.origin = [0, 0, 0, 0, 0] → n ≤ 16384 → sf ∈ [0, 0x10, 0x11] →
     IsRow sl.src sp sf sa n → IsRow sl.dst dp df da n → (Shape.of sl.dst).width = 8 * w → 0 < w → s.peerBad = [] →
     s.dev.wf = true → s.annex.wf = true → s.peers.wf = true → (c.form.toPeer = true → s.peerUp (s.partOf o.core) c.peer = true) →
     s.Placed h o .read sp sa (4 * n) (c.form.peerSide c false) S → (∀ j, j < 4 * n → (S (sa + j)).Real) →
     let v (k : Nat) : Word := s.wordAt (S (sa + 4 * k))
     (s.Placed h o .write dp da (w * n) (c.form.peerSide c true) D → (∀ k, k < w * n → (D (da + k)).Real) → (∀ j k, j < 4 * n → k < w * n → S (sa + j) ≠ D (da + k)) →
       (∀ q, c.form ≠ .cpa 2 q) → c.form ≠ .cpm → c.form ≠ .cpg → (∀ q, c.form ≠ .cpw q) →
       ∃ s', exec (.copyComplete h) s = .next s' ∧ s'.ops.get h = none ∧
         (∀ l : Loc, l.Real → (∀ k, k < w * n → l ≠ D (da + k)) → s'.byteAt l = s.byteAt l) ∧
         (∀ k, k < n →
           let old := s.numAt (D (da + w * k)) w
           let new := s'.numAt (D (da + w * k)) w
           (c.form ∈ [CopyForm.cpl, .cps, .cpx, .cprPut, .cprGet] → w = 4 → new = (v k).toNat) ∧
           (∀ q, c.form = .cpa 0 q → w = 4 → new = (old + (v k).toNat) % 2 ^ 32) ∧
           (∀ q, c.form = .cpa 1 q → w = 4 → (df = 0x11 → new = max old (v k).toNat) ∧
             (df = 0x10 → (BitVec.ofNat 32 new).toInt = max (BitVec.ofNat 32 old).toInt (v k).toInt) ∧
             (df = 0 → (nanWord (BitVec.ofNat 32 old) ∨ nanWord (v k) → new = 0x7FC00000) ∧
               (¬nanWord (BitVec.ofNat 32 old) → ¬nanWord (v k) →
                 zeroKey (BitVec.ofNat 32 new) = max (zeroKey (BitVec.ofNat 32 old)) (zeroKey (v k))))) ∧
           (∀ F, c.form = .cpst → floatFmt df = some F → new = (F.narrow .rne (f32 (v k))).1) ∧
           (c.form = .bkcommit → w = 4 → df = 0 → new = (rne32 ((f32 (BitVec.ofNat 32 old)).add (f32 (v k))).1).1.toNat)) ∧
         ∀ m, s'.stat (s.partOf o.core) m = if s.statSlot o c.form (Shape.of sl.dst) = some m then
           (List.range n).foldl (fun t k => t.put (elemValue df (s'.numAt (D (da + w * k)) w))) (s.stat (s.partOf o.core) m)
           else s.stat (s.partOf o.core) m) ∧
     (c.form = .cpm → dp = 1 → w = 4 → sp = 0 → Tab.wf s.teams = true → ∃ s', exec (.copyComplete h) s = .next s' ∧ s'.ops.get h = none ∧
       ∀ t y, s.team t = some y → y.tm.wf = true →
         (t ∈ s.mcTeams o.tid → ∀ k, k < n → s'.wordAt (.team t (da + 4 * k)) = v k) ∧
         (∀ b, t ∉ s.mcTeams o.tid ∨ b < da ∨ da + 4 * n ≤ b → s'.byteAt (.team t b) = s.byteAt (.team t b))) ∧
     (∀ q, c.form = .cpa 2 q → q = false → w = 4 → c.ent = 0 → s.Placed h o .write dp da (4 * n) none D → (∀ hm, s.homeUsed hm + n ≤ State.homeCap hm) →
       ∃ s', exec (.copyComplete h) s = .next s' ∧ s'.ops.get h = none ∧ s.MemorySame s' ∧
         s'.oq = s.oq ++ (List.range n).map fun k =>
           let l := D (da + 4 * k)
           ⟨s.homeOf l, l, v k, s.selfDev (s.partOf o.core), x.id, sl.idx, k,
             (s.oq.filter fun e => e.loc == l && e.rank == s.selfDev (s.partOf o.core) && e.team == x.id && e.grp == sl.idx && e.elem == k).length⟩)) ∧
  (∀ t : Stat, (t.put .nan = { t with count := t.count + 1 }) ∧
     (∀ sg, t.put (.inf sg) = { acc := 2 ^ 160 - 1, sat := true, amax := 0x7F800000, count := t.count + 1 }) ∧
     (∀ sg (m : Q), 0 ≤ m.num → 0 < m.den → t.amax.toNat ≤ 0x7F800000 → let u := t.put (.fin sg m)
       let a : Nat := t.acc + ⌊m.val * m.val * 2 ^ 80⌋₊
       u.count = t.count + 1 ∧ u.acc = min a (2 ^ 160 - 1) ∧ u.sat = (t.sat || decide (2 ^ 160 ≤ a)) ∧
         (t.amax.toNat = 0x7F800000 → u.amax = t.amax) ∧
         (t.amax.toNat < 0x7F800000 → u.amax = if (f32 t.amax).num < m.val then (rne32 (.fin false m)).1 else t.amax))) ∧
  (∀ (s : State) (h i : Nat) (o : Op) (x : Team) (g : Group), s.Completes h i o x g →
     (∀ (c : CopyOps) (sl : Slice) (n m : Nat) (st : Nat) (da : Nat) (pa : Nat → Nat), o.kind = .copy c [sl] → c.form = .cpg → c.bsl = 31 → c.inc = 0 → s.peerBad = [] →
       (let D := Shape.of sl.dst; D.space = 1 ∧ D.addr = da ∧ D.fmt = 0 ∧ D.layout = 0 ∧ D.ndim = 2 ∧ D.exts = [n, m] ∧ D.strides = [1, (st : Int)]) →
       (let S := Shape.of sl.src; S.space = 0 ∧ S.fmt = 0 ∧ S.layout = 0 ∧ S.ndim = 1 ∧ S.exts = [n] ∧ S.strides = [1] ∧ S.cbtag = 0) → n ≤ st → 0 < n →
       (∀ l, sl.lanes.getLsbD l = true → l < m ∧ l < 96 ∧ let a := sl.addrs.getD l 0
         a % 4 = 0 ∧ a + 4 * n ≤ 2 ^ 57 ∧ a % 65536 + 4 * n ≤ 65536 ∧
         s.translate (.op h) (some o.core) (s.partOf o.core) (((s.gridOf o.tid).map (·.asid)).getD 0) .read (65536 * (a / 65536)) = .ok (pa l)) →
       ∃ s', exec (.copyComplete h) s = .next s' ∧ s'.ops.get h = none ∧ s'.dev = s.dev ∧ s'.annex = s.annex ∧
         (∀ l e, sl.lanes.getLsbD l = true → e < n →
           s'.wordAt (.team o.tid (da + 4 * (st * l + e))) = s.wordAt (.dev (pa l + (sl.addrs.getD l 0 + 4 * e) % 65536))) ∧
         ∀ b, (∀ l, sl.lanes.getLsbD l = true → b < da + 4 * (st * l) ∨ da + 4 * (st * l + n) ≤ b) → s'.byteAt (.team o.tid b) = s.byteAt (.team o.tid b)) ∧
     (∀ (n : Nat) (sb : ShapeBits) (e a : Nat) (st : Nat), n < 4 → o.kind = .cpcb n sb 31 → x.cb.wf = true → e ≤ 64 →
       (let S := Shape.of sb; S.space = 1 ∧ S.addr = a ∧ S.fmt = 0x20 ∧ S.layout = 0 ∧ S.ndim = 2 ∧ S.exts = [e, 256] ∧ S.strides = [1, (st : Int)]) →
       ∃ s' x', exec (.copyComplete h) s = .next s' ∧ s'.ops.get h = none ∧ s.MemorySame s' ∧ s'.team o.tid = some x' ∧
         ∀ k y, k < 256 → y < 64 → Cells.get x'.cb (16384 * n + 64 * k + y) = (if y < e then s.byteAt (.team o.tid (a + st * k + y)) else 0) ∧
           ∀ m, m ≠ n → m < 4 → Cells.get x'.cb (16384 * m + 64 * k + y) = Cells.get x.cb (16384 * m + 64 * k + y)))

/-- The collective words complete: a tile in bounds in the team's own spaces, a set that holds the device once: an operation with the team's next
sequence number for the set waits for its peers, counted on cl (16 R312, R313; 08 R155, R156).

Collective events: a descriptor is kept; with every other member's descriptor there the handshake completes: one that differs is a fault and
nothing has moved, else what was sent is held; an all-reduce of one 32-bit integer over two members then takes the sum and ends; without a member's
descriptor, ctmo after issue, the timeout fault (08 R156-R161, 22 R348).

That a collective is performed in one step is the model's choice (log 4, log 37). -/
def Obligations.CollectivesComplete : Prop :=
  (∀ (s : State) (t i : Nat) (g : Group) (x : Team) (n : ShReg) (a : SReg) (b : Bsl), s.Issuer t i g → g.Idle → s.team t = some x → g.counter .cl < 255 →
     let p := s.partOf g.core
     let S := Shape.of (g.sh.get n.toNat)
     let w := (s.sreg a).toNat
     let ix := w % 64
     let P := s.setSize p ix
     (s.ops.filter fun e => s.partOf e.2.core == p && (match e.2.kind with | .coll _ => true | _ => false)).length < 64 →
     Shape.ok false (g.sh.get n.toNat) = true → S.space ≠ 0 → 1 ≤ a.toNat → a.toNat ≤ 126 → w / 64 % 1024 = 0 → 0 < P → s.selfDev p ∈ s.members p ix →
     (s.members p ix).Nodup → (∀ c ∈ Shape.box S.exts, ∀ q ∈ S.spans c, 0 ≤ q.1 ∧ q.1 + q.2 ≤ s.limitOf t S.space) →
     let queued (ins : Instr) (d : CollDesc) : Prop := ∃ s' g' x' o, exec ins s = .next s' ∧ s'.group t i = some g' ∧ g'.spc = g.spc + 4 ∧ g'.s = g.s ∧
       g'.counter .cl = g.counter .cl + 1 ∧ s'.ops.get s.handles = some o ∧ o.stage = .waiting ∧
       o.kind = .coll ⟨d, ix, (x.collSeq.get ix).toNat, (s.members p ix).idxOf (s.selfDev p), P, g.sh.get n.toNat, b.toNat, [], false⟩ ∧ s'.team t = some x' ∧
       x'.collSeq = x.collSeq.set ix (x.collSeq.get ix + 1) ∧ s.MemorySame s'
     let cut : Prop := S.exts.getLastD 0 % P = 0
     (∀ (op : BitVec 2) (sr : Bool), (if op = 0 then S.fmt ∈ [0, 1, 2, 3, 4, 6, 0x10] else S.fmt ∈ [0, 1, 2, 3, 4, 0x10, 0x11]) →
       queued (.clar n a b sr op) ⟨0, op.toNat, sr, S.fmt, S.exts, w / 65536, 0⟩ ∧
       (cut → queued (.clrs n a b sr op) ⟨1, op.toNat, sr, S.fmt, S.exts, w / 65536, 0⟩)) ∧
     (cut → queued (.clag n a b) ⟨2, 0, false, S.fmt, S.exts, w / 65536, 0⟩) ∧
     ((s.sreg (a + 1)).toNat < P → queued (.clbc n a b) ⟨3, 0, false, S.fmt, S.exts, w / 65536, (s.sreg (a + 1)).toNat⟩)) ∧
  ((∀ (s : State) (p ix id seq rank : Nat) (d : CollDesc) (tile : List Nat), ∃ s', exec (.collectiveDescriptor p ix id seq rank d tile) s = .next s' ∧
     (s'.part p).recv = (s.part p).recv ++ [⟨ix, id, seq, rank, d, tile⟩] ∧ s.MemorySame s') ∧
   (∀ (s : State) (h : Nat) (o : Op) (x : Team) (c : Coll), s.ops.get h = some o → o.stage = .waiting → o.kind = .coll c → s.team o.tid = some x →
     let p := s.partOf o.core
     (∀ v : Recv, c.size = 2 → c.rank < 2 → s.matchRecv p x.id c (1 - c.rank) = [v] →
       let s1 := s.putPart p { s.part p with recv := (s.part p).recv.erase v }
       exec (.collectiveComplete h) s = .next (if v.desc = c.desc then s1.putOp h { o with stage := .moving, kind := .coll { c with got := [v] } }
         else (s1.putOp h { o with kind := .coll { c with spent := true } }).raiseOp h o.idx o.pc o.lword .collectiveMismatch { aux := BitVec.ofNat 32 c.seq })) ∧
     (∀ r, r < c.size → r ≠ c.rank → s.matchRecv p x.id c r = [] → exec (.collectiveComplete h) s = .next s ∧
       (o.since + 1000000 * ((s.cfgW 2 p 0x03C).toNat % 65536) ≤ s.clk.toNat →
         exec (.collectiveTimeout h) s = .next (s.raiseOp h o.idx o.pc o.lword .collectiveTimeout { aux := BitVec.ofNat 32 c.seq })))) ∧
   ∀ (s : State) (h i : Nat) (o : Op) (x : Team) (g : Group) (c : Coll) (v : Recv) (y a st : Nat), s.Completes h i o x g → o.kind = .coll c →
     c.desc = ⟨0, 0, false, 0x10, [1], st, 0⟩ → c.size = 2 → c.rank < 2 → c.bsl = 31 → c.got = [v] → v.rank = 1 - c.rank → v.tile = [y] →
     (let S := Shape.of c.tile; S.space = 1 ∧ S.addr = a ∧ S.fmt = 0x10 ∧ S.layout = 0 ∧ S.ndim = 1 ∧ S.exts = [1] ∧ S.strides = [1]) →
     let p := s.partOf o.core
     (s.peerUp p (s.setDev p c.idx (1 - c.rank)) = true → ∃ s', exec (.collectiveComplete h) s = .next s' ∧ s'.ops.get h = none ∧
       s'.wordAt (.team o.tid a) = s.wordAt (.team o.tid a) + BitVec.ofNat 32 y ∧
       ∀ b, b < a ∨ a + 4 ≤ b → s'.byteAt (.team o.tid b) = s.byteAt (.team o.tid b)) ∧
     (s.peerUp p (s.setDev p c.idx (1 - c.rank)) = false → exec (.collectiveComplete h) s = .next s))

/-- mxa completes where its conditions hold, its accumulators may be had and the arrays have room: the operation joins the queue of every core it
runs on and the group's open batch; a .z form takes its accumulators. Where a condition fails it takes that fault (16 R314, R315; 07 R142-R149).

mxwb, mxfence and mxwait complete: a write-back joins the queues and the open batch with fmt, clip and seed as they stand; mxfence closes the open
operations into the group's next batch, whose number it writes; mxwait goes on once its batch is over (16 R316, R317; 07 R150, R152).

The conditions of an mxa, in order (12 R226): a1 named for a residue accumulation, or an A shape that 07 R146 does not allow, is an illegal field; a register
beyond what every holder has, an illegal register; `.pair` where it is not legal, fewer than four holders, A outside team memory, and an accumulator that
07 R147 does not allow, an illegal operand; else there is no fault (07 R142-R149).

That a word restarts an accumulator of its own team before words that wait is the model's reading (log 55). -/
def Obligations.MatrixWordsComplete : Prop :=
  (∀ (s : State) (t i : Nat) (g : Group) (x : Team) (acc z pair sp sel : Bool) (a : ShReg) (pc vbq : BitVec 4) (xx : BitVec 8) (vm : Option (BitVec 6)),
     s.Issuer t i g → g.Idle → s.team t = some x →
     let sb := g.sh.get a.toNat
     let ix := if sp then State.indexReg pc.toNat xx.toNat vm else 0
     let chk := s.mxaCheck t x g acc.toNat z pair sp sb pc.toNat vbq.toNat xx.toNat ix
     let cores := if pair then [g.core, g.core + 1] else [g.core]
     let res : Bool := (pairing pc.toNat).mode == .res
     let accs := if res then [0, 1] else [acc.toNat]
     (∀ c, chk = some c → exec (.mxa acc z pair sp sel a pc vbq xx vm) s = .next (s.raiseNow c)) ∧
     (chk = none → (∀ c ∈ Shape.box (Shape.of sb).exts, ∀ q ∈ (Shape.of sb).spans c, 0 ≤ q.1 ∧ q.1 + q.2 ≤ x.tmSize) →
       (∀ c ∈ cores, (s.core c).mxq.length < 8) →
       (z = true → ∀ c ∈ cores, ∀ j ∈ accs, s.accBusy (64 * t + i) c j = false) →
       ∃ s' g' o, exec (.mxa acc z pair sp sel a pc vbq xx vm) s = .next s' ∧ s'.group t i = some g' ∧
         g'.spc = g.spc + (if vm.isSome then 8 else 4) ∧ g'.opens = g.opens ++ [s.handles] ∧ g'.s = g.s ∧ g'.v = g.v ∧ g'.infl = g.infl ∧
         s'.ops.get s.handles = some o ∧ o.kind = .mxa ⟨acc.toNat, z, pair, sp, sel.toNat, sb, pc.toNat, 32 * vbq.toNat, 2 * xx.toNat, ix, g.core⟩ ∧
         (∀ c ∈ cores, (s'.core c).mxq = (s.core c).mxq ++ [s.handles] ∧ (s'.core c).a0 = (s.core c).a0 ∧ (s'.core c).a1 = (s.core c).a1 ∧
           ∀ j ∈ accs, z = true → (if j = 0 then (s'.core c).hold0 else (s'.core c).hold1) = some ⟨t, res, pair, none⟩) ∧ s.MemorySame s')) ∧
  (∀ (s : State) (t i : Nat) (g : Group) (x : Team) (d : ShReg) (a : SReg) (b : Bsl) (pair keep acc : Bool), s.Issuer t i g → g.Idle → s.team t = some x →
     g.s.wf = true →
     let db := g.sh.get d.toNat
     let D := Shape.of db
     let scaled : Bool := fmtSmode g == 1
     let cores := if pair then [g.core, g.core + 1] else [g.core]
     (Shape.ok false db = true → D.fmt = fmtCode g → D.ndim = 2 → D.exts.getD 1 0 ≤ 256 → D.exts.headD 0 ≤ (if pair then 384 else 192) →
       (scaled = false → a = 0) → D.space ≠ 0 → (pair = true → x.paired = true ∧ g.core = x.core) →
       (∀ c ∈ cores, ∃ h, s.ownHold t c acc.toNat = some h ∧ (acc = true → h.residue = false)) →
       (∀ c ∈ Shape.box D.exts, ∀ q ∈ D.spans c, 0 ≤ q.1 ∧ q.1 + q.2 ≤ s.limitOf t D.space) → (∀ c ∈ cores, (s.core c).mxq.length < 8) →
       ∃ s' g' o w, exec (.mxwb d a b pair keep acc) s = .next s' ∧ s'.group t i = some g' ∧ g'.spc = g.spc + 4 ∧ g'.opens = g.opens ++ [s.handles] ∧
         g'.s = g.s ∧ g'.wbCnt = (if fmtSr g then g.wbCnt + (if pair then 2 else 1) else g.wbCnt) ∧ s'.ops.get s.handles = some o ∧ o.kind = .mxwb w ∧
         w.acc = acc.toNat ∧ w.keep = keep ∧ w.pair = pair ∧ w.dst = db ∧ w.scale = (if scaled then s.sreg a else 0) ∧ w.fmt = g.fmt ∧ w.clip = g.clip ∧
         w.seed = g.seed ∧ w.cnt = g.wbCnt ∧ w.bsl = b.toNat ∧ w.core = g.core ∧
         (∀ c ∈ cores, (s'.core c).mxq = (s.core c).mxq ++ [s.handles] ∧ (keep = true → (s'.core c).hold0 = (s.core c).hold0 ∧ (s'.core c).hold1 = (s.core c).hold1)) ∧
         s.MemorySame s') ∧
     (g.counter .mx < 255 → (∃ h ∈ g.opens, s.ops.get h ≠ none) → (∀ e ∈ s.ops, ∀ y l f, e.2.tid = t → e.2.idx = i → e.2.kind ≠ .batch y l f) →
       ∃ s' g' o, exec (.mxfence a) s = .next s' ∧ s'.group t i = some g' ∧ g'.spc = g.spc + 4 ∧ g'.batchCnt = g.batchCnt + 1 ∧ g'.opens = [] ∧
         g'.counter .mx = g.counter .mx + 1 ∧ s'.ops.get s.handles = some o ∧ o.kind = .batch g.batchCnt g.opens g.mxFlags ∧
         (∀ r, g'.readS false r = if r = 0 then 0 else if r = a.toNat then g.batchCnt else g.readS false r) ∧ s.MemorySame s') ∧
     (let n := (g.batchCnt - s.sreg a).toNat
      (n = 0 ∨ 2 ^ 31 ≤ n → exec (.mxwait a) s = .next (s.raiseNow .illegalOperand)) ∧
      (0 < n → n < 2 ^ 31 → (∀ e ∈ s.ops, ∀ l f, e.2.tid = t → e.2.idx = i → e.2.kind ≠ .batch (s.sreg a) l f) → exec (.mxwait a) s = .next (s.advance 4)) ∧
      (0 < n → n < 2 ^ 31 → (∃ e ∈ s.ops, ∃ l f, e.2.tid = t ∧ e.2.idx = i ∧ e.2.kind = .batch (s.sreg a) l f) → exec (.mxwait a) s = .next s))) ∧
  ((∀ p ∈ ([(0, 3, 3, 256), (1, 3, 4, 256), (2, 4, 3, 256), (3, 4, 4, 256), (4, 6, 6, 256), (5, 0x14, 0x14, 256), (6, 0x14, 0x16, 256), (7, 0x16, 0x14, 256),
       (8, 5, 5, 512), (9, 7, 7, 512), (10, 0x16, 0x16, 512), (11, 1, 1, 128), (12, 2, 2, 128)] : List (Nat × Nat × Nat × Nat)),
     (pairing p.1).fa = p.2.1 ∧ (pairing p.1).fb = p.2.2.1 ∧ (pairing p.1).k = p.2.2.2 ∧ ((pairing p.1).mode = .res ↔ p.1 ∈ [5, 6, 7, 10])) ∧
   (∀ (s : State) (t c : Nat), (∀ y ∈ s.holders t c, y ∈ s.groupsOf t ∧ y.core = c ∧ y.kind = 2 ∧ y.role < 4 ∧ y.ended = false) ∧
     ((s.holders t c).length < 4 ↔ ∃ r, r < 4 ∧ ∀ y ∈ s.groupsOf t, ¬(y.core = c ∧ y.kind = 2 ∧ y.role = r ∧ y.ended = false))) ∧
   ∀ (s : State) (t : Nat) (x : Team) (g : Group) (acc : Nat) (z pair sp : Bool) (sb : ShapeBits) (pc vbq xx vm : Nat), acc < 2 → pc < 13 →
     let A := Shape.of sb
     let K := if sp then 2 * (pairing pc).k else (pairing pc).k
     let res : Prop := (pairing pc).mode = .res
     let scaled : Prop := pc = 4 ∨ pc = 9
     let cores := if pair then [g.core, g.core + 1] else [g.core]
     let reads : List Nat := (List.range 32).map (32 * vbq + ·) ++ (if scaled then [2 * xx] else []) ++
       (if pc = 9 ∨ (pc = 4 ∧ sp = true) then [2 * xx + 1] else []) ++ if sp then (List.range 8).map (vm + ·) else []
     let other (h : Hold) : Prop := ¬(h.residue = true ↔ res)
     let field : Prop := (res ∧ acc = 1) ∨ Shape.ok false sb = false ∨ A.fmt ≠ (pairing pc).fa ∨ A.ndim ≠ 2 ∨ A.exts.getD 1 0 < 1 ∨ 256 < A.exts.getD 1 0 ∨
       A.exts.headD 0 < 1 ∨ K < A.exts.headD 0 ∨ (A.zorder = true ↔ scaled) ∨ (scaled ∧ A.strides.headD 0 ≠ 1)
     let reg : Prop := 10 ≤ vbq ∨ ∃ c ∈ cores, ∃ h ∈ s.holders t c, ∃ r ∈ reads, 32 * h.blocks ≤ r
     let operand : Prop := (pair = true ∧ ¬(x.paired = true ∧ g.core = x.core)) ∨ (∃ c ∈ cores, (s.holders t c).length < 4) ∨ A.space ≠ 1 ∨
       (∃ c ∈ cores, (z = true ∧ ∃ j ∈ (if res then [0, 1] else [acc]), ∃ h ∈ s.ownHold t c j, other h) ∨
         (z = false ∧ ∀ h ∈ s.ownHold t c acc, other h))
     let chk := s.mxaCheck t x g acc z pair sp sb pc vbq xx vm
     (field → chk = some .illegalField) ∧ (¬field → reg → chk = some .illegalRegister) ∧ (¬field → ¬reg → operand → chk = some .illegalOperand) ∧
       (¬field → ¬reg → ¬operand → chk = none))

/-- The arrays perform the operation at the head of the queues of its cores once its 256 clocks have passed, with `.pair` on both: element (i, j) of a core's
accumulator takes row i of A and the core's column j of B, in residue mode across a0 and a1 together, in every other mode the accumulator named, the other one
being as it was; with z it starts at zero. The operation leaves the queues. Before its time nothing happens. The first word that waits for a free accumulator
issues (07 R147-R151, 04 R80).

What the arrays compute. A row of A is the elements of its shape along k; a column of B stands in the quarter's registers as 07 R143-R145 lay it out,
of a sparse one the stored values with the k that they name. A float operation adds its K-groups in ascending k, each as 04 R83 and R84 say; bs4 adds one
block after another with both scales (04 R82); an integer operation adds every product to the three channels, from which the write-back finds the sum again
(04 R80, R81). A register of B reads as it stands, a lane that is not live as zero.

A write-back at the head of the queues of its cores is performed: each element of its destination, in team memory or the annex, takes the number of its
accumulator element, a0 or a1, or the sum that both hold in residue mode, written back as fmt and clip stood at issue, element by element or in blocks of 32; with
`.pair` the second 192 columns are the follower's. No other byte changes; the operation leaves the queues; what it releases is free, and its flags wait for
its batch (07 R149, R152; 04 R81, R85-R89).

That A and B are read as the operation completes, that a k beyond ext0 is multiplied like any other, and what the overflow flag of a block compares with, are the model's choices (log 36, log 60, log 73). -/
def Obligations.MatrixOperationsArePerformed : Prop :=
  ((∀ (s : State) (c h : Nat) (o : Op) (x : Team) (m : Mxa), s.Sound → s.cellErrs = [] → Tab.wf s.ops = true → s.ops.get h = some o → o.kind = .mxa m →
     s.team o.tid = some x → (∀ g ∈ s.groupsOf o.tid, g.badV = []) →
     let cores := if m.pair then [m.core, m.core + 1] else [m.core]
     c ∈ cores → (∀ k ∈ cores, (s.core k).mxq.head? = some h ∧ 256 ≤ (s.core k).mxDone ∧ (s.core k).a0.wf = true ∧ (s.core k).a1.wf = true ∧ (s.core k).badA = [] ∧
       s.mxPending o.tid k m = false) →
     let A (i : Nat) : List Nat := State.aRow (Shape.of m.a) (fun a => s.byteAt (.team o.tid a)) (if m.sp then 2 * (pairing m.pc).k else (pairing m.pc).k) i
     let B (k j : Nat) : List (Nat × Nat) := State.bCol (fun r l => match (s.quarters o.tid k)[j / 48]? with
       | some g => s.mxRead o.tid g r l
       | none => 0) m (j % 48)
     ∃ s', exec (.matrixOperationComplete c) s = .next s' ∧ s'.ops.get h = none ∧ ∀ k ∈ cores, (s'.core k).mxq = (s.core k).mxq.tail ∧
       ∀ i j, i < 256 → j < 192 →
         let e := 192 * i + j
         let u0 := (s.core k).a0.get e
         let u1 := (s.core k).a1.get e
         let r := State.mxResidue m (A i) (B k j) (if m.z then Residue.zero else Residue.ofWords u0 u1)
         let f (u : Word) : Word := State.mxElem m (A i) (B k j) (if m.z then 0 else u)
         (s'.core k).a0.get e = (if (pairing m.pc).mode = .res then r.word0 else if m.acc = 0 then f u0 else u0) ∧
         (s'.core k).a1.get e = (if (pairing m.pc).mode = .res then r.word1 else if m.acc = 0 then u1 else f u1)) ∧
   (∀ (s : State) (c : Nat), (s.core c).mxDone < 256 → (∀ h r o m, (s.core c).mxq = h :: r → s.ops.get h = some o → o.kind = .mxa m →
       c ∈ if m.pair then [m.core, m.core + 1] else [m.core]) → exec (.matrixOperationComplete c) s = .next s) ∧
   (∀ (s : State) (c key : Nat) (pcv : DWord) (rest : List (Nat × DWord × Instr)) (g : Group) (x : Team) (acc z sp sel : Bool) (a : ShReg) (pc vbq : BitVec 4)
       (xx : BitVec 8) (vm : Option (BitVec 6)),
     let ins := Instr.mxa acc z false sp sel a pc vbq xx vm
     (s.core c).accWait = (key, pcv, ins) :: rest → s.groups.get key = some g → g.ended = false → g.spc = pcv → s.team (key / 64) = some x → x.halted = false →
     (∀ j ∈ State.accWants ins, s.accTaken (key / 64) c j = false) →
     let u := ({ s with cur := some (.group (key / 64) (key % 64)) } : State).mapGroup (key / 64) (key % 64) fun g => { g with moved := false }
     ∃ v, exec ins u = .next v ∧ exec (.accumulatorGrant c) s = .next (if ((v.group (key / 64) (key % 64)).map (·.moved)).getD false
       then (v.charge c (s.bandOf (key / 64)) 0).mapGroup (key / 64) (key % 64) fun g => { g with charged := false } else v))) ∧
  ((∀ (X : Shape) (rd : Nat → Byte) (k i j : Nat), (State.aRow X rd k i).length = k ∧ (j < k →
     (State.aRow X rd k i)[j]? = some (X.read rd [(j : Int), (i : Int)] + if X.block then 256 * (X.readScale rd [(j : Int), (i : Int)]).toNat else 0))) ∧
   (∀ (s : State) (t r l : Nat) (g : Group), g.Idle → (∀ q, g.deferred q = false) → s.mxRead t g r l = if l < g.live then g.v.get (96 * r + l) else 0) ∧
   (∀ (rd : Nat → Nat → Word) (m : Mxa) (n v : Nat), n < 48 → m.pc < 13 →
     let w : Nat := if m.pc = 11 ∨ m.pc = 12 then 16 else if m.pc = 6 ∨ 8 ≤ m.pc then 4 else 8
     let K : Nat := if m.pc = 11 ∨ m.pc = 12 then 128 else if 8 ≤ m.pc then 512 else 256
     let bits (k : Nat) : Nat :=
       if w = 16 then (rd (m.vb + 2 * (k / 8) + n % 4 / 2) (12 * (k % 8) + n / 4)).toNat / 2 ^ (16 * (n % 2)) % 2 ^ 16
       else if w = 8 then (rd (m.vb + k / 8) (12 * (k % 8) + n / 4)).toNat / 2 ^ (8 * (n % 4)) % 2 ^ 8
       else (rd (m.vb + k / 16) (12 * (k / 2 % 8) + n / 4)).toNat / 2 ^ (8 * (n % 4) + 4 * (k % 2)) % 2 ^ 4
     let scale (j : Nat) : Nat := (rd (m.vs + j / 8) (12 * (j % 8) + n / 4)).toNat / 2 ^ (8 * (n % 4)) % 2 ^ 8
     let pairOf (k b : Nat) : Nat × Nat := (k, b + if m.pc = 4 ∨ m.pc = 9 then 256 * scale (k / 32) else 0)
     let col := State.bCol rd m n
     (m.sp = false → col.length = K ∧ (v < K → col[v]? = some (pairOf v (bits v)))) ∧
     (m.sp = true → w = 8 → col.length = 256 ∧ (v < 256 →
       col[v]? = some (pairOf (4 * (v / 2) + (rd (m.vm + v / 32) (12 * (v / 4 % 8) + n / 4)).toNat / 2 ^ (8 * (n % 4) + 2 * (v % 4)) % 4) (bits v)))) ∧
     (m.sp = true → w = 16 → col.length = 128 ∧ (v < 128 →
       col[v]? = some (pairOf (4 * (v / 2) + (rd (m.vm + v / 16) (48 * m.sel + 12 * (v / 4 % 4) + n / 4)).toNat / 2 ^ (8 * (n % 4) + 2 * (v % 4)) % 4) (bits v))))) ∧
   (∀ (m : Mxa) (row : List Nat) (col : List (Nat × Nat)) (acc : Word) (J : Nat),
     ∀ p ∈ ([(0, 32, .e4m3, .e4m3), (1, 32, .e4m3, .e5m2), (2, 32, .e5m2, .e4m3), (3, 32, .e5m2, .e5m2), (4, 32, .e4m3, .e4m3), (8, 64, .e2m1, .e2m1),
         (11, 16, .bf16, .bf16), (12, 16, .fp16, .fp16)] : List (Nat × Nat × FFmt × FFmt)), m.pc = p.1 → row.length = p.2.1 * J →
       let G := p.2.1
       let val (F : FFmt) (x : Nat) : FVal := if m.pc = 4 then (if x / 256 = 255 then .nan else ((F.value (x % 256)).mul (.fin false (Q.pow2 ((x / 256 : Nat) - 127)))).1)
         else F.value x
       let prod (a b : Nat) : FVal := ((val p.2.2.1 a).mul (val p.2.2.2 b)).1
       (m.sp = false → col.length = G * J → ∃ f : Nat → Word, f 0 = acc ∧ State.mxElem m row col acc = f J ∧ ∀ j, j < J →
         kGroup ((List.range G).map fun q => prod (row.getD (G * j + q) 0) (col.getD (G * j + q) (0, 0)).2) (f j) (f (j + 1))) ∧
       (m.sp = true → ∃ f : Nat → Word, f 0 = acc ∧ State.mxElem m row col acc = f J ∧ ∀ j, j < J →
         kGroup ((col.filter fun e => e.1 / G == j).map fun e => prod (row.getD e.1 0) e.2) (f j) (f (j + 1)))) ∧
   (∀ (m : Mxa) (row : List Nat) (col : List (Nat × Nat)) (acc : Word), m.pc = 9 → row.length = 512 → col.length = 512 →
     ∃ f : Nat → Word, f 0 = acc ∧ State.mxElem m row col acc = f 16 ∧ ∀ j, j < 16 →
       let sa := row.getD (32 * j) 0 / 256
       let sb := (col.getD (32 * j) (0, 0)).2 / 256
       let num (x : Nat) : ℚ := FFmt.e2m1.num (x % 16)
       (sa = 255 ∨ sb = 255 → f (j + 1) = 0x7FC00000) ∧
       (sa ≠ 255 → sb ≠ 255 → ∃ q : Q, 0 < q.den ∧
         q.val = ((List.range 32).map fun i => num (row.getD (32 * j + i) 0) * num (col.getD (32 * j + i) (0, 0)).2).sum * (2 : ℚ) ^ ((sa : Int) + sb - 254) ∧
         f (j + 1) = (rne32 ((f32 (f j)).add (.ofQ q)).1).1)) ∧
   (∀ (m : Mxa) (row : List Nat) (col : List (Nat × Nat)) (r : Residue), ∀ p ∈ [(5, 8, 8), (6, 8, 4), (7, 4, 8), (10, 4, 4)], m.pc = p.1 → col ≠ [] →
     let sa (x : Nat) : Int := (BitVec.ofNat p.2.1 x).toInt
     let sb (x : Nat) : Int := (BitVec.ofNat p.2.2 x).toInt
     let X : Int := if m.sp then (col.map fun e => sa (row.getD e.1 0) * sb e.2).sum else ((row.zip col).map fun e => sa e.1 * sb e.2.2).sum
     row.length = col.length ∨ m.sp = true → State.mxResidue m row col r = ⟨((r.x1 + X) % 2047).toNat, ((r.x2 + X) % 2048).toNat, ((r.x3 + X) % 2049).toNat⟩) ∧
   (∀ X : Int, -4294966272 ≤ X → X ≤ 4294966271 → Residue.crt ⟨(X % 2047).toNat, (X % 2048).toNat, (X % 2049).toNat⟩ = X) ∧
   ∀ r : Residue, r.x1 < 2047 → r.x2 < 2048 → r.x3 < 2049 → Residue.ofWords r.word0 r.word1 = r) ∧
  (∀ (s : State) (h i nc nr : Nat) (o : Op) (x : Team) (g : Group) (w : Mxwb), s.Sound → Tab.wf s.ops = true → Tab.wf s.groups = true → s.annex.wf = true →
     s.ops.get h = some o → o.kind = .mxwb w → s.team o.tid = some x → x.killing = false → x.asms = [] → x.tm.wf = true → i < 64 → s.group o.tid i = some g → g.idx = i →
     o.idx = i → g.ended = false → g.wait = none → w.bsl = 31 →
     let cores := if w.pair then [w.core, w.core + 1] else [w.core]
     (∀ k ∈ cores, (s.core k).mxq.head? = some h ∧ (s.core k).badA = []) →
     let D := Shape.of w.dst
     let sm := w.fmt.toNat / 2 ^ 8 % 4
     Shape.ok false w.dst = true → D.space = 1 ∨ D.space = 2 → D.ndim = 2 → D.exts = [nc, nr] → nc ≤ (if w.pair then 384 else 192) → nr ≤ 256 →
     (∀ c ∈ Shape.box D.exts, ∀ d ∈ Shape.box D.exts, D.offset c = D.offset d → c = d) →
     let loc (a : Nat) : Loc := if D.space = 1 then .team o.tid a else .annex (o.core / 12) ((s.window o.tid).1 + a)
     (∀ c ∈ Shape.box D.exts, ∀ q ∈ D.spans c, 0 ≤ q.1 ∧ ∀ b, b < q.2 → (loc (q.1.toNat + b)).Real) →
     let V (c : List Int) : FVal :=
       let col := (c.headD 0).toNat
       let e := 192 * (c.getD 1 0).toNat + col % 192
       let k := s.core (w.core + col / 192)
       if (if col < 192 then w.res else w.res2) then .ofQ (Q.ofInt (Residue.ofWords (k.a0.get e) (k.a1.get e)).crt)
       else f32 (if w.acc = 0 then k.a0.get e else k.a1.get e)
     let mode (c : List Int) : RMode :=
       let col := (c.headD 0).toNat
       let n := if w.pair then 192 else nc
       if w.fmt.getLsbD 10 then .sr (mixer (srKey w.seed o.glid) (BitVec.ofNat 64 (2 ^ 63 + 65536 * (w.cnt.toNat + col / 192) + ((c.getD 1 0).toNat * n + col % 192)))) else .rne
     let rd (s : State) (a : Nat) : Byte := s.byteAt (loc a)
     ∃ s', exec (.writeBackPerformed h) s = .next s' ∧ s'.ops.get h = none ∧
       (∀ k ∈ cores, (s'.core k).mxq = (s.core k).mxq.tail ∧ (s'.core k).a0 = (s.core k).a0 ∧ (s'.core k).a1 = (s.core k).a1) ∧
       (∀ k ∈ State.coresOf x, (s'.core k).hold0 = (if (s.core k).hold0.bind (·.rel) = some h then none else (s.core k).hold0) ∧
         (s'.core k).hold1 = (if (s.core k).hold1.bind (·.rel) = some h then none else (s.core k).hold1)) ∧
       (∀ l : Loc, l.Real → (∀ c ∈ Shape.box D.exts, ∀ q ∈ D.spans c, ∀ b, b < q.2 → l ≠ loc (q.1.toNat + b)) → s'.byteAt l = s.byteAt l) ∧
       (sm ≠ 2 → floatFmt D.fmt ≠ none ∨ D.fmt ∈ [0x14, 0x16] →
         let wb (c : List Int) : Nat × AFlags := writeBack D.fmt (V c) (if sm = 1 then some (f32 w.scale) else none) (f32 w.clip) (mode c)
         (∀ c ∈ Shape.box D.exts, D.read (rd s') c = (wb c).1) ∧
         ((∀ e ∈ s.ops, ∀ b l f, e.2.kind = .batch b l f → h ∉ l) → ∃ g', s'.group o.tid i = some g' ∧
           ∀ n, g'.mxFlags.getLsbD n = true ↔ g.mxFlags.getLsbD n = true ∨ ∃ c ∈ Shape.box D.exts, (wb c).2.getLsbD n = true)) ∧
       (sm = 2 → D.fmt = 6 ∨ D.fmt = 7 → ∀ c ∈ Shape.box D.exts,
         let blk := D.blockAt c
         let r := blockWriteBack D.fmt (blk.map fun y => if D.inb y then V y else .fin false Q.zero) (f32 w.clip) (blk.map fun y => if D.inb y then mode y else .rne) true
         D.readScale (rd s') c = BitVec.ofNat 8 r.2.1 ∧ ∀ k, k < 32 → blk.getD k [] = c → D.read (rd s') c = r.1.getD k 0))

/-- bkfile files where its checks hold: with room and nothing parked the entry takes the next accession number, which the register after the pair
receives; without room, where no handler is entered, the filing parks and is counted (16 R318; 09 R172, R173, R176, R183).

bkstat, bkfence, bkfence.all, stget and stclr complete: the status word; a fence that covers no entry goes on, one that does parks; a slot's
image in nine registers; a slot at zero (16 R320-R322; 09 R180, R181). -/
def Obligations.FillerAndStatisticsWordsComplete : Prop :=
  (∀ (s : State) (t i : Nat) (g : Group) (x : Team) (a m tg : ShReg) (r : SReg) (last : Bool) (rc : BitVec 1024), s.Issuer t i g → g.Idle → s.team t = some x →
     i < 64 → g.idx = i → x.killing = false → x.asms = [] → g.ended = false → g.wait = none → g.s.wf = true → Tab.wf s.groups = true →
     s.fileCheck t i g (g.sh.get a.toNat) (g.sh.get m.toNat) (g.sh.get tg.toNat) r = .ok rc s →
     let p := s.partOf g.core
     let f : Filing :=
       { a := g.sh.get a.toNat, g := g.sh.get m.toNat, t := g.sh.get tg.toNat, recAddr := (s.spair r).toNat, record := rc, last := last, team := x.id,
         idx := i, asid := ((s.gridOf t).map (·.asid)).getD 0, awBase := (s.window t).1, awSize := (s.window t).2, op := s.handles, counted := false }
     (s.part p).parked = [] → g.reissue = none →
     (s.fitsWith p (s.part p).entries f = true → ∃ s' g', exec (.bkfile a m r last tg) s = .next s' ∧ s'.group t i = some g' ∧ g'.spc = g.spc + 4 ∧
       (s'.part p).entries = (s.part p).entries ++ [⟨(s.part p).next, f, .filed, 0⟩] ∧ (s'.part p).next = accNext (s.part p).next ∧
       (∀ q, q ≠ 0 → g'.readS false q = if q = r.toNat + 2 then BitVec.ofNat 32 (s.part p).next else g.readS false q) ∧ s.MemorySame s') ∧
     (s.fitsWith p (s.part p).entries f = false → (∀ c, g.canEnter c = false) → ∃ s' g', exec (.bkfile a m r last tg) s = .next s' ∧ s'.group t i = some g' ∧
       g'.wait = some (.bkfile s.handles) ∧ (s'.part p).parked = [{ f with counted := true }] ∧ (s'.part p).ovf = (s.part p).ovf + 1 ∧
       (s'.part p).entries = (s.part p).entries ∧ s.MemorySame s')) ∧
  (∀ (s : State) (t i : Nat) (g : Group) (d a : SReg) (n : BitVec 11), s.Issuer t i g → g.Idle → g.s.wf = true → g.wait = none →
     let p := s.partOf g.core
     let es := (s.part p).entries
     let num := accLast (s.part p).next
     let size (b : ShapeBits) : Nat := let X := Shape.of b; (X.exts.headD 0 * X.exts.getD 1 0 * X.width + 7) / 8
     let pinned := (es.map fun e => size e.f.a + size e.f.g).sum
     let v := (s.sreg a).toNat
     (∀ q ∈ ([(0, es.length), (1, es.length), (2, pinned), (3, pinned / 2 ^ 32), (4, s.cfgD 2 p 0x044), (5, s.cfgD 2 p 0x044 / 2 ^ 32),
          (6, (s.cfgW 2 p 0x040).toNat % 2 ^ 7), (7, (s.part p).ovf.toNat), (8, (s.part p).next), (9, (es.head?.map (·.acc)).getD 0),
          (10, (s.cfgW 2 p 0x040).toNat / 2 ^ 8 % 4 + 256 * es.countP fun e => e.state == .failed), (11, 0)] : List (Nat × Nat)),
        n.toNat = q.1 → exec (.bkstat d n) s = .next ((s.setS d (BitVec.ofNat 32 q.2)).advance 4)) ∧
     (∀ q ∈ [(Instr.bkfence a, some (s.spair a).toNat), (Instr.bkfenceAll, none)], a ≠ 0 → a.toNat % 2 = 0 → (s.spair a).toNat < 2 ^ 57 →
       ((∀ e ∈ es, (q.2 = none ∨ q.2 = some e.f.handle) → accLe e.acc num = false) → exec q.1 s = .next (s.advance 4)) ∧
       ((∃ e ∈ es, (q.2 = none ∨ q.2 = some e.f.handle) ∧ accLe e.acc num = true) →
         exec q.1 s = .next ((s.park t i (.bkfence q.2 num)).relevel p))) ∧
     (d.toNat ≤ 116 → v ≤ 255 → ∃ g', exec (.stget d a) s = .next (s.putGroup t i g') ∧ g'.spc = g.spc + 4 ∧
       g'.cond = (if (s.stat p v).sat then g.cond ||| 0x200 else g.cond) ∧
       ∀ r, g'.readS false r = if r = 0 then 0 else if d.toNat ≤ r ∧ r < d.toNat + 9 then BitVec.ofNat 32 ((s.stat p v).image / 2 ^ (32 * (r - d.toNat)))
         else g.readS false r) ∧
     (v ≤ 255 → g.counter .cp < 255 → ∃ s' g', exec (.stclr a) s = .next s' ∧ s'.group t i = some g' ∧ g'.spc = g.spc + 4 ∧
       (∀ k, s'.stat p k = if k = v then Stat.zero else s.stat p k) ∧ g'.s = g.s ∧ s.MemorySame s'))

/-- The Filler's own events complete: a parked filing that fits is filed; an eligible entry, or the failed one that fact names, gets its drain grid;
a discarded entry is gone; the next number starts again at 1 where no entry is left (09 R172, R176, R177, R182; 23 R378). -/
def Obligations.FillerEventsComplete : Prop :=
  ∀ (s : State) (p : Nat), Tab.wf s.groups = true →
    (∀ f r, (s.part p).parked = f :: r → s.fitsWith p (s.part p).entries f = true → ∃ s', exec (.filingComplete p) s = .next s' ∧
      (s'.part p).parked = r ∧ (s'.part p).entries = (s.part p).entries ++ [⟨(s.part p).next, f, .filed, 0⟩] ∧ (s'.part p).next = accNext (s.part p).next) ∧
    (∀ e pa pb, s.recordCodes p e.f.record true = [] → Rec.entry e.f.record < 2 ^ 57 → Rec.laneBase e.f.record < 2 ^ 57 →
      s.translate .hub none p e.f.asid .fetch (Rec.entry e.f.record) = .ok pa → s.translate .hub none p e.f.asid .fetch (Rec.laneBase e.f.record) = .ok pb →
      let launched (ins : Instr) : Prop := ∃ s' gr, exec ins s = .next s' ∧ s'.grid s.handles = some gr ∧ gr.drain = some e.acc ∧ gr.record = e.f.record ∧
        gr.part = p ∧ gr.next = 0 ∧ (s'.part p).entries = (s.part p).entries.map (fun y => if y.acc = e.acc then { y with state := .draining, grid := s.handles } else y) ∧
        s.MemorySame s'
      ((s.part p).entries.find? (fun y => State.relaunching y || (State.eligible (s.part p).entries y && s.released p y)) = some e → launched (.drainLaunch p)) ∧
      (s.failedEntry p = some e → launched (.factRelaunch p))) ∧
    (∀ e, s.failedEntry p = some e → ∃ s', exec (.factDiscard p) s = .next s' ∧ (s'.part p).entries = (s.part p).entries.filter (fun y => y.acc != e.acc) ∧ s.MemorySame s') ∧
    ((s.part p).entries = [] → exec (.accreset p) s = .next (s.putPart p { s.part p with next := 1 })) ∧
    ((s.part p).entries ≠ [] → exec (.accreset p) s = .next s)

/-- The first unit of the queue that fits is admitted: its team stands on its core, each group as 01 R32 starts it (01 R29-R32).

A grid whose teams have all retired: its done word rises by one, its status word says 2, the grid is gone; a team that is to be saved leaves its
core with its image in a slot of the area; one that is to move off a hot cluster stands on the core chosen and runs (01 R28; 22 R354, 23 R366, R382).

The slots and entries that a team takes are drawn (log 20); the space of the pages that a slot takes, and that a team moves off a hot cluster in one step, its core judged then, are the model's choices (log 26, log 44). -/
def Obligations.TeamsStartRetireAndAreSaved : Prop :=
  (∀ (s : State) (p n id c j : Nat) (gr : Grid) (sp : GSpec) (rest : List AUnit), s.swap = none → (s.part p).heads = [] → s.grid n = some gr → gr.drain = none →
     gr.handler = none → Tab.wf s.groups = true → Tab.wf s.teams = true →
     let s1 := s.putPart p (s.part p)
     s1.queue p = .fresh n [id] :: rest → s1.placeUnit p (.fresh n [id]) (fun _ => true) = some [c] →
     (Spec.of gr.record false).groups[j]? = some sp → j < 64 →
     ∃ s' x' g' sl, exec (.teamAdmission p) s = .next s' ∧ s'.team s.handles = some x' ∧ x'.grid = n ∧ x'.id = id ∧ x'.core = c ∧ x'.halted = false ∧ x'.tm = [] ∧
       x'.bs = [] ∧ x'.syms = [] ∧ x'.tmSize = 4096 * Rec.tmSize gr.record ∧ s'.group s.handles j = some g' ∧ g' = Group.fresh j sp (c + sp.side) sl gr.record ∧
       g'.spc = BitVec.ofNat 64 (Rec.entry gr.record) ∧ g'.run.n = 0 ∧ g'.readS false 2 = BitVec.ofNat 32 (Rec.args gr.record) ∧
       g'.readS false 3 = BitVec.ofNat 32 (Rec.args gr.record / 2 ^ 32) ∧ g'.mask false = lanesBelow sp.live ∧
       (∀ r, r ≠ 2 → r ≠ 3 → r < 125 → g'.readS false r = 0) ∧ g'.v = [] ∧ g'.k = [] ∧ g'.sh = [] ∧ g'.fmt = 0 ∧ g'.cond = 0 ∧ g'.clip = 0x7F800000 ∧
       g'.seed = BitVec.ofNat 64 (Rec.seed gr.record) ∧ g'.rdepth = 0 ∧ g'.frame = none) ∧
  ((∀ (s : State) (n d off pa : Nat) (gr : Grid), s.Sound → s.annex.wf = true → s.dev.wf = true → Tab.wf s.grids = true → s.grid n = some gr → gr.retired = gr.nteams → gr.origins = [] →
     gr.loc = .annex d off → gr.drain = none →
     (Rec.doneAddr gr.record = 0 ∨ (0 < Rec.doneAddr gr.record ∧ Rec.doneAddr gr.record < 2 ^ 57 ∧
       s.translate .hub none gr.part gr.asid .write (Rec.doneAddr gr.record) = .ok pa)) →
     ∃ s', exec (.gridRetirement n) s = .next s' ∧ s'.grid n = none ∧ s'.wordAt (.annex d (off + 84)) = 2 ∧
       (Rec.doneAddr gr.record ≠ 0 → s'.wordAt (.dev pa) = s.wordAt (.dev pa) + 1)) ∧
   (∀ (s : State) (p t cl c : Nat) (x : Team) (y : Part), s.team t = some x → Tab.wf s.teams = true → Tab.wf s.groups = true →
     s.parts.find? (fun e => e.2.evict.any fun z => z.tid == t) = some (p, y) → y.evict = [⟨t, [], true, some cl⟩] → s.part p = y → s.untaken t = false →
     s.quiet t = true → x.killing = false → x.paired = false → (∀ z ∈ s.saved, z.tid ≠ t) → s.moveTo (x.core / 12) cl (s.asSaved t x) = some c →
     ∃ s' x', exec (.preemptionSave t) s = .next s' ∧ s'.team t = some x' ∧ x'.core = c ∧ x'.id = x.id ∧ x'.halted = false ∧ s'.saved = s.saved) ∧
   ∀ (s : State) (p t i : Nat) (x : Team) (y : Part) (tab : List (Nat × Nat)), s.team t = some x → Tab.wf s.teams = true →
     s.parts.find? (fun e => e.2.evict.any fun z => z.tid == t) = some (p, y) → y.evict = [⟨t, [], true, none⟩] → s.part p = y → s.freeSlot p = some i → s.untaken t = false →
     s.quiet t = true → s.slotPages .write p i (State.imgUnits x (s.groupsOf t)) = .ok tab → x.killing = false →
     ∃ s' z, exec (.preemptionSave t) s = .next s' ∧ s'.team t = none ∧ (∀ j, j < 64 → s'.group t j = none) ∧ s'.saved = s.saved ++ [z] ∧ z.tid = t ∧ z.id = x.id ∧
       z.grid = x.grid ∧ z.slot = some i ∧ z.resume = true)

/-- A trap is taken at a boundary where it is enabled and has a cause: the SPC is saved, the causes are shown, the SPC is at ctvec; eret brings it
back: wherever a Curator issues it in a trap, the SPC is the saved one and the trap is left; outside a trap eret stops the Curator (22 R347, R359). -/
def Obligations.CuratorTrapAndReturn : Prop :=
  ∀ (s : State) (c : Nat), Cells.wf s.cfg = true →
    (let st := s.cfgW 0 c 0x010
     let q := State.fqcnt (s.core c) != 0
     let m := s.cfgW 0 c 0x030 != 0
     (s.core c).stopped = false → (s.core c).waiting = false → st.getLsbD 0 = true → st.getLsbD 1 = false → (q || m) = true →
      ∃ s', exec (.curatorTrap c) s = .next s' ∧ (s'.core c).spc = BitVec.ofNat 64 (s.cfgD 0 c 0x000) ∧ s'.cfgD 0 c 0x008 = (s.core c).spc.toNat ∧
        s'.cfgW 0 c 0x010 = (3 ||| (if q then 4 else 0) ||| (if m then 8 else 0)) ∧ (s'.core c).s = (s.core c).s ∧
        exec (.eret) { s' with cur := some (.curator c) } = .next ({ s' with cur := some (.curator c) }.leaveTrap c) ∧
        (({ s' with cur := some (.curator c) }.leaveTrap c).core c).spc = (s.core c).spc ∧
        (({ s' with cur := some (.curator c) }.leaveTrap c).cfgW 0 c 0x010).getLsbD 1 = false) ∧
    (s.Curates c → (s.cfgW 0 c 0x010).getLsbD 1 = true → exec .eret s = .next (s.leaveTrap c) ∧
      ((s.leaveTrap c).core c).spc = BitVec.ofNat 64 (s.cfgD 0 c 0x008) ∧ ((s.leaveTrap c).core c).s = (s.core c).s ∧
      (∀ sp i off, (s.leaveTrap c).cfgW sp i off = if cfgKey sp i off = cfgKey 0 c 0x010 then s.cfgW 0 c 0x010 &&& 0xFFFFFFFD else s.cfgW sp i off) ∧
      (s.leaveTrap c).teams = s.teams ∧ (s.leaveTrap c).groups = s.groups ∧ s.MemorySame (s.leaveTrap c)) ∧
    (s.Curates c → (s.cfgW 0 c 0x010).getLsbD 1 = false → exec .eret s = .next (s.raiseCurator c 0))

/-- A privileged word in a group takes the privileged-instruction fault and does nothing else (12 R228, 22 R358).

An unassigned opcode and a prefix that prefixes nothing take their faults; a Curator stops (12 R216, R225).

So does, in a step that fetches it, every word of the opcodes 0x76 to 0x7B whose other bits are no instruction: a gctl operation of 8 or more, a reserved bit
that is set (12 R225, R228). -/
def Obligations.PrivilegedAndIllegalWordsFault : Prop :=
  (∀ (s : State) (t i : Nat) (g : Group) (d a b : SReg), s.Issuer t i g →
     ∀ ins ∈ [Instr.eret, .cwinRead d a b, .cwinWrite d a b, .gctlHalt d a, .gctlResume d a, .gctlReplay d a, .gctlCancel d a, .gctlCompact d a, .gctlTake d a,
         .gctlKill d a, .gctlStep d a, .ctxSave d a b, .ctxLoad d a b, .tinv a b, .cfgRead d a b, .cfgWrite d a b],
       exec ins s = .next (s.raiseGroup t i .privilegedInstruction {})) ∧
  (∀ (s : State) (h : BitVec 21),
     (∀ (t i : Nat) (g : Group), s.Issuer t i g → exec .illegalInstruction s = .next (s.raiseGroup t i .illegalInstruction {}) ∧
       exec (.extensionPrefix h) s = .next (s.raiseGroup t i .illegalField {})) ∧
     (∀ c, s.Curates c → exec .illegalInstruction s = .next (s.raiseCurator c 0) ∧ exec (.extensionPrefix h) s = .next (s.raiseCurator c 0))) ∧
  (∀ (s : State) (r : List Move) (t i pa : Nat) (g : Group), s.agenda = .issue (.group t i) :: r → s.group t i = some g → s.Sound →
     let s1 := { s with agenda := r, cur := some (.group t i) }
     let s2 := s1.putGroup t i { g with moved := false }
     let w := s2.wordAt (.dev pa)
     s1.mayIssue t i g = true → g.run.n = 0 → g.spc.toNat < 2 ^ 57 → s2.translateNow t i .fetch g.spc.toNat = .ok pa →
     0x76 ≤ w.toNat / 2 ^ 25 → w.toNat / 2 ^ 25 ≤ 0x7B → ∀ e, decodeScalar w none = .error e → step s = .next (s2.raiseGroup t i .privilegedInstruction {}))

/-- cfg, tinv and cwin complete: the word read reaches sd, a write takes effect under the word's mask; the translations named leave the core's and the
hubs' caches; a word of the window is read, or written into the live state (22 R360, R363, R364).

That reserved low bits of a configuration word are dropped, and which writes of a window have no effect, are the model's choices (log 27, log 47). -/
def Obligations.CuratorWordsComplete : Prop :=
  ∀ (s : State) (c : Nat) (d a b : SReg), s.Curates c → Cells.wf s.cfg = true →
    let done (s : State) (v : Word) : State := (s.setS d v).advance 4
    (∀ sp i off v, s.cfgAddr c (s.sreg a) = some (sp, i, off) → s.cfgGet sp i off = some v → exec (.cfgRead d a b) s = .next (done s v) ∧
      exec (.cfgWrite d a b) s = .next ((done s v).cfgPut sp i off (s.sreg b)) ∧
      (sp = 0 → off ∈ [0x000, 0x004, 0x008, 0x00C, 0x010, 0x018, 0x020, 0x024, 0x028, 0x02C, 0x030] → s.corePresent i = true →
        ∃ s' m, exec (.cfgWrite d a b) s = .next s' ∧ wordMask 0 off = some m ∧ s'.cfgW 0 i off = (s.sreg b &&& BitVec.ofNat 32 m) ∧ s.MemorySame s')) ∧
    ((s.sreg a).toNat / 2 ^ 28 % 8 ≥ 4 → exec (.cfgRead d a b) s = .next (s.raiseCurator c 0) ∧ exec (.cfgWrite d a b) s = .next (s.raiseCurator c 0)) ∧
    (a.toNat % 2 = 0 → (s.sreg b).toNat % 4 ≠ 3 → (s.sreg b).toNat < 2 ^ 16 → ∃ s', exec (.tinv a b) s = .next s' ∧
      (let md := (s.sreg b).toNat % 4
       let gone (e : Tlb) : Prop := (md = 0 ∧ e.base ≤ (s.spair a).toNat ∧ (s.spair a).toNat < e.base + e.size) ∨
         (md = 1 ∧ e.asid % 4096 = (s.sreg b).toNat / 16 % 4096) ∨ md = 2
       (∀ e, e ∈ (s'.core c).tlb ↔ e ∈ (s.core c).tlb ∧ ¬gone e) ∧ (∀ e, e ∈ s'.hubTlb ↔ e ∈ s.hubTlb ∧ ¬gone e) ∧
         (∀ e, e ∈ s'.hubTlb1 ↔ e ∈ s.hubTlb1 ∧ ¬gone e) ∧
         (s'.core c).spc = (s.core c).spc + 4 ∧ s.MemorySame s')) ∧
    (∀ t g tm off, s.Sound → s.cwinAt c (s.sreg a) = some (t, g, tm, off) →
      let v := BitVec.ofNat 32 ((s.liveBlock t g tm).num off 4)
      ((s.sreg a).getLsbD 31 = false → exec (.cwinRead d a b) s = .next (done s v)) ∧
      (State.cwinReadOnly tm off = false → exec (.cwinWrite d a b) s = .next ((done s v).cwinPut t g tm off (s.sreg b))) ∧
      (State.cwinReadOnly tm off = true → exec (.cwinWrite d a b) s = .next (s.raiseCurator c 0))) ∧
    (s.cwinAt c (s.sreg a) = none → exec (.cwinRead d a b) s = .next (s.raiseCurator c 0) ∧ exec (.cwinWrite d a b) s = .next (s.raiseCurator c 0))

/-- The group-control operations complete (22 R361, R350, R352, R414).

A record that waits for a slot enters the queue; the verdict "cancel" on the one lane of a lane-fault record cancels that lane of its group, and
the record is taken (22 R348, R351).

Where a service record is launched is the model's choice (log 28). -/
def Obligations.GroupControlCompletes : Prop :=
  (∀ (s : State) (c : Nat) (d a : SReg), s.Curates c →
     let done (s : State) (v : Word) : State := (s.setS d v).advance 4
     (∀ t x, s.atEntry c ((s.sreg a).toNat % 8) = some (t, x) → s.team t = some x → Tab.wf s.teams = true →
       (∃ s', exec (.gctlHalt d a) s = .next (done s' 1) ∧ ∃ x', s'.team t = some x' ∧ x'.halted = true) ∧
       (s.untaken t = false → (∀ e ∈ s.parts, ∀ v ∈ e.2.evict, v.tid ≠ t ∧ t ∉ s.setMates v.tid) → Tab.wf s.groups = true → (∀ k e, s.groups.get k = some e → e.idx = k % 64) →
         ∃ s', exec (.gctlResume d a) s = .next (done s' 1) ∧ (∃ x', s'.team t = some x' ∧ x'.halted = false) ∧
         ∀ i g, i < 64 → s.group t i = some g → s'.group t i = some { g with skid := 0, skidMax := 0, faulted := false, stepping := false }) ∧
       (s.untaken t = true → exec (.gctlResume d a) s = .next (done s 0)) ∧
       ((∀ e ∈ s.parts, ∀ v ∈ e.2.evict, t ∉ v.others) → ∃ s', exec (.gctlKill d a) s = .next (done s' 1) ∧ ∀ x', s'.team t = some x' → x'.halted = true ∧ x'.killing = true)) ∧
     (s.atEntry c ((s.sreg a).toNat % 8) = none → ∀ ins ∈ [Instr.gctlHalt d a, .gctlResume d a, .gctlKill d a], exec ins s = .next (s.raiseCurator c 0)) ∧
     (∀ r o, (s.core c).fq.get ((s.sreg a).toNat % 64) = some r → r.op ≠ 0 → s.ops.get r.op = some o →
       (o.stage = .failed → ∃ s' o', exec (.gctlReplay d a) s = .next (done s' 1) ∧ s'.ops.get r.op = some o' ∧ o'.stage ≠ .failed ∧
         o'.kind = (match o.kind with
           | .coll c => .coll { c with spent := false }
           | k => k)) ∧
       (Tab.wf s.ops = true → ∃ s', exec (.gctlCancel d a) s = .next (done s' 1) ∧ s'.ops.get r.op = none)) ∧
     (∀ q r, s.oldestRec c = some (q, r) → (s.core c).fqWait = [] → (s.core c).fq.get q = some r →
       (∀ x, s.team r.tid = some x → x.asms = []) → (∃ i g, i < 64 ∧ s.group r.tid i = some g ∧ g.ended = false ∧ g.wait = none) → ∃ s', exec (.gctlTake d a) s = .next (done s' (BitVec.ofNat 32 q)) ∧
       ∃ r', (s'.core c).fq.get q = some r' ∧ r'.taken = true ∧ r'.code = r.code ∧ r'.pc = r.pc) ∧
     (s.oldestRec c = none → exec (.gctlTake d a) s = .next (done s 0xFFFFFFFF)) ∧
     (s.maskedSlots c = [] → exec (.gctlCompact d a) s = .next (done s 0)) ∧
     (∀ os n s0, (∀ q ∈ s.maskedSlots c, ∃ r, (s.core c).fq.get q = some r ∧ r.lane = true ∧ r.taken = false ∧ r.service = false) →
       os = State.packLanes ((s.maskedSlots c).filterMap fun q => ((s.core c).fq.get q).map fun r => (q, r)) → os ≠ [] → s.launchService c os = .ok n s0 → n ≠ 0 →
       ∃ s', exec (.gctlCompact d a) s = .next (done s' (BitVec.ofNat 32 n)) ∧ s'.grids = s0.grids ∧
         ∀ q ∈ s.maskedSlots c, ∃ r, (s'.core c).fq.get q = some r ∧ r.service = true) ∧
     (∀ t g, s.inSlot c ((s.sreg a).toNat % 32) = some (t, g) → s.group t g.idx = some g → g.idx < 64 → ∃ s' g', exec (.gctlStep d a) s = .next (done s' 1) ∧
       s'.group t g.idx = some g' ∧ g'.stepping = true ∧ g'.faulted = false)) ∧
  ((∀ (s : State) (c : Nat) (r : FaultRec) (rest : List FaultRec), (s.core c).fqWait = r :: rest → State.fqcnt (s.core c) < 64 → State.fqFree (s.core c) ≠ [] →
     ∃ s' q, exec (.faultRecordEnqueue c) s = .next s' ∧ q ∈ State.fqFree (s.core c) ∧ (s'.core c).fq = (s.core c).fq.set q r ∧ (s'.core c).fqWait = rest ∧
       (s'.core c).s = (s.core c).s) ∧
   ∀ (s : State) (c n q l i : Nat) (r : FaultRec) (gr : Grid) (g : Group) (x : Team), s.grids.find? (fun e => e.2.handler == some c && !e.2.origins.isEmpty && State.verdictsIn e.2) = some (n, gr) →
     s.grid n = some gr → gr.origins = [⟨q, r, l⟩] → gr.verdicts = [(0, 1)] → (s.core c).fq.get q = some r → (s.core c).fqWait = [] → r.op = 0 → r.grp.toNat = i → i < 64 →
     l < 96 → s.group r.tid i = some g → g.idx = i → g.ended = false → g.wait = none → s.team r.tid = some x → x.killing = false → x.asms = [] → Tab.wf s.groups = true →
     ∃ s' g' r' gr', exec (.verdictApplication c) s = .next s' ∧ s'.group r.tid i = some g' ∧ g'.cancel = g.cancel ||| maskOf [l] ∧ g'.spc = g.spc ∧
       (s'.core c).fq.get q = some r' ∧ r'.taken = true ∧ s'.grid n = some gr' ∧ gr'.origins = [])

/-- ctx completes: a team whose work is over is saved and leaves its cores, status 0; a saved team that fits, on a pair where it is paired, is loaded
halted, status 0; each status of the checks before it (22 R354, R357, R362).

Which image matches a saved team, in what space it lies, the parts that it does not lay out, and status 4 for a die that is being swapped, are the model's choices (log 12, log 26, log 50, log 40). -/
def Obligations.ContextWordsComplete : Prop :=
  ∀ (s : State) (c : Nat) (d a b : SReg), s.Curates c → a.toNat % 2 = 0 → (s.sreg b).toNat < 16 → (s.spair a).toNat % 4096 = 0 →
    let done (s : State) (v : Word) : State := (s.setS d v).advance 4
    let va := (s.spair a).toNat
    (s.atEntry c ((s.sreg b).toNat % 8) = none → exec (.ctxSave d a b) s = .next (done s 2)) ∧
    (∀ t x, s.atEntry c ((s.sreg b).toNat % 8) = some (t, x) → s.team t = some x → Tab.wf s.teams = true →
      (c ≠ x.core → exec (.ctxSave d a b) s = .next (done s 6)) ∧
      (c = x.core → s.untaken t = true → exec (.ctxSave d a b) s = .next (done s 5)) ∧
      (∀ tab, c = x.core → s.untaken t = false → s.setMates t = [t] → x.halted = true → s.quiet t = true →
        s.imagePages c .write va (State.imgUnits x (s.groupsOf t)) = .ok tab → ∃ s' z, exec (.ctxSave d a b) s = .next (done s' 0) ∧ s'.team t = none ∧
          s'.saved = s.saved ++ [z] ∧ z.tid = t ∧ z.id = x.id ∧ z.slot = none) ∧
      (∀ s' k, c = x.core → s.untaken t = false → s.setMates t = [t] → x.halted = true → s.quiet t = true →
        s.imagePages c .write va (State.imgUnits x (s.groupsOf t)) = .bad s' k → exec (.ctxSave d a b) s = .next (done s' 1))) ∧
    (∀ s' k, s.imagePages c .read va 1 = .bad s' k → exec (.ctxLoad d a b) s = .next (done s' 1)) ∧
    (∀ tab, s.Sound → s.imagePages c .read va 1 = .ok tab →
      let img := s.imageTeam c fun k => Side.dev.loc tab (va + k)
      (img = none → exec (.ctxLoad d a b) s = .next (done s 3)) ∧
      (∀ y, img = some y → y.team.paired = true → c % 2 = 1 → exec (.ctxLoad d a b) s = .next (done s 6)) ∧
      (∀ y, img = some y → (y.team.paired = true → c % 2 = 0) →
        let pages := s.imagePages c .read va (State.imgUnits y.team y.groups)
        (∀ s' k, pages = .bad s' k → s'.Sound → exec (.ctxLoad d a b) s = .next (done s' 1)) ∧
        ∀ tab', pages = .ok tab' →
          let y' := s.withEnded (fun k => Side.dev.loc tab' (va + k)) y
          (s.swapping c = true ∨ s.savedFits y' c = false → exec (.ctxLoad d a b) s = .next (done s 4)) ∧
          (s.swapping c = false → s.savedFits y' c = true → ∃ s' x', exec (.ctxLoad d a b) s = .next (done s' 0) ∧
            s'.team y.tid = some x' ∧ x'.core = c ∧ x'.paired = y.team.paired ∧ x'.halted = true ∧ ∀ z ∈ s'.saved, z.tid ≠ y.tid)))

/-- The hub never grants more tokens than there are: floors and what clusters win stay within 3,640 where the floors do; no cluster gets less than
its floor (23 R372-R374).

The market's and the governor's events complete at their times (23 R371, R372, R375, R376, R380).

That the market page stands at a physical address, and that a hotspot's set is halted in one step and moves as its teams fall quiet, are the model's choices (log 26, log 44). -/
def Obligations.MarketStaysWithinSupply : Prop :=
  (∀ (s : State) (n : Nat), ((List.range 24).map s.floorOf).sum ≤ 3640 →
     let s' := s.clearMarket n
     ((List.range 24).map fun c => (s'.cluster c).grant).sum ≤ 3640 ∧ (∀ c, c < 24 → s.floorOf c ≤ (s'.cluster c).grant) ∧ s'.mphase = 1) ∧
  (∀ (s : State), Cells.wf s.cfg = true → s.clockSet.wf = true →
     let n := s.thisInterval
     (10000 * s.interval ≤ s.clk.toNat → 2 ≤ s.mphase → s.cfgW 3 0 0x308 = 0 → ∃ s', exec .marketInterval s = .next s' ∧ s'.interval = s.interval + 1 ∧ s'.mphase = 1 ∧
       ∀ c, c < 24 → (s'.cluster c).issued = [] ∧ (s'.cluster c).withheld = [] ∧ (s'.cluster c).won = (s.cluster c).won) ∧
     (∀ cnt : Nat → Nat, s.Sound → s.mphase = 0 → 10000 * n + 1500 ≤ s.clk.toNat → (∀ c, cnt c = s.numAt (.dev (s.marketPage + (0x800 + 4 * c))) 4) →
       let ok : Prop := s.numAt (.dev (s.marketPage + 0xFFC)) 4 = (n + 1) % 2 ^ 32 ∧ (∀ c, c < 24 → s.floorOf c ≤ cnt c) ∧ ((List.range 24).map cnt).sum ≤ 3640
       ∃ s', exec .hostAllocationDeadline s = .next s' ∧ s'.mphase = 1 ∧
         (ok → ∀ c, c < 24 → (s'.cluster c).grant = cnt c) ∧ (¬ok → s' = (s.setCfgW 3 0 0x318 (s.cfgW 3 0 0x318 + 1)).clearMarket n)) ∧
     (s.mphase = 1 → 10000 * n + 2000 ≤ s.clk.toNat → ∃ s', exec .budgetTakeEffect s = .next s' ∧ s'.mphase = 2 ∧ s'.mstart = 10000 * n + 2000 ∧
       ∀ c, c < 24 → (s'.cluster c).won = (s.cluster c).grant ∧ (s'.cluster c).sub = 0 ∧ (s'.cluster c).unit = (s.cfgW 6 (c / 3) 0x204).toNat) ∧
     (s.mphase = 2 → 10000 * n + 4000 ≤ s.clk.toNat → ∃ s', exec .clockRaise s = .next s' ∧ s'.mphase = 3 ∧ ∀ d, d < 8 → s'.clockSet.get d = s.cfgW 1 d 0x2CC) ∧
     (let k := (s.cluster 0).sub + 1
      k ≤ 9 → s.mstart + 1000 * k ≤ s.clk.toNat → ∃ s', exec .governorSubslot s = .next s' ∧
       ∀ c, c < 24 → (s'.cluster c).sub = k ∧ (s'.cluster c).rem = min (s.cluster c).rem 0 + State.shareOf (s.budgetOf c) k ∧ (s'.cluster c).began = false) ∧
     (∀ d s1, s.dieValid d = true → bitAt (s.cfgW 2 (s.diePart d) 0x100).toNat 4 = true → (s.cluster (3 * d)).hotLast = true → s.migrate d (3 * d) = some s1 →
       Tab.wf s.teams = true → exec (.hotspotMigration d) s = .next s1 ∧ (s1.cluster (3 * d)).hotLast = false ∧
         ∃ t x x' run, (t, x) ∈ s.teams ∧ x.core / 4 = 3 * d ∧ (∀ g ∈ s.groupsOf t, g.ended = true ∨ g.wait ≠ none) ∧ s1.team t = some x' ∧ x'.halted = true ∧
           ⟨t, run, true, some (3 * d)⟩ ∈ (s1.part (s.diePart d)).evict))

/-- A walk that succeeds fills its core's cache; one that faults is filed with the service, whose answer walks it again or tells the requesters
(24 R388-R390).

Scrubbing: a symbol in error is rewritten, its bank mapped out where the error stays or the threshold is passed; failing links, returning links, the
spare (24 R393, R397; 25 R406, R407, R410).

The symbol code: one symbol in error is corrected, wherever it is; with one bank mapped out nothing else may be wrong; two banks mapped out are
both recovered; and two errors are either reported or leave a third symbol wrong (24 R392).

In which log the hub's records stand, what a reserved service status does and how a scrub pass goes are the model's choices (log 29, log 17, log 42). -/
def Obligations.WalksAreServed : Prop :=
  (∀ (s : State) (p c : Nat) (w : Walk), w.core = some c → s.Sound → s.dev.wf = true →
     let slot := s.cfgD 2 p 0x020 + 32 * ((s.part p).svcP.toNat % 256)
     let same (l : List Walk) : Prop := ∃ v ∈ l, v.asid = w.asid ∧ v.va / 65536 = w.va / 65536 ∧ v.kind = w.kind
     ((s.part p).walks = [w] → s.peerq = [] → (∀ e, s.walkTable p w.asid w.kind w.va = some e → (s.core c).tlb.length < 4096 →
         ∃ s', exec (.translationWalk p) s = .next s' ∧ (s'.part p).walks = [] ∧ e ∈ (s'.core c).tlb ∧ s.MemorySame s') ∧
       (s.walkTable p w.asid w.kind w.va = none → (s.part p).served.length < 256 → (∀ l ∈ (s.part p).served, ¬same l) →
         ∃ s', exec (.translationWalk p) s = .next s' ∧ (s'.part p).walks = [] ∧ (s'.part p).served = (s.part p).served ++ [[w]] ∧
           (s'.part p).svcP = (s.part p).svcP + 1 ∧ s'.wordAt (.dev (s.cfgD 2 p 0x020 + 0x2000)) = (s.part p).svcP + 1 ∧
           s'.numAt (.dev slot) 8 = w.va % 2 ^ 64 ∧ s'.numAt (.dev (slot + 8)) 2 = w.asid % 2 ^ 16) ∧
       (∀ l, s.walkTable p w.asid w.kind w.va = none → (s.part p).served = [l] → same l →
         ∃ s', exec (.translationWalk p) s = .next s' ∧ (s'.part p).walks = [] ∧ (s'.part p).served = [l ++ [w]] ∧ (s'.part p).svcP = (s.part p).svcP ∧
           s.MemorySame s')) ∧
     (∀ l r, (s.part p).served = l :: r → s.peerq = [] → s.wordAt (.dev (s.cfgD 2 p 0x020 + 0x2004)) ≠ (s.part p).svcC →
       let st := s.numAt (.dev (s.cfgD 2 p 0x020 + 32 * ((s.part p).svcC.toNat % 256) + 11)) 1
       ∃ s', exec (.serviceResponse p) s = .next s' ∧ (s'.part p).served = r ∧ (s'.part p).svcC = (s.part p).svcC + 1 ∧
         (st = 2 → (s'.part p).bad = (s.part p).bad ++ l.flatMap fun v => v.who.map fun u => (u, v)) ∧
         (st ≠ 2 → (s'.part p).walks = (s.part p).walks ++ l))) ∧
  (∀ (s : State), Cells.wf s.cfg = true →
     (∀ d e g, s.symErrs = [e] → s.stripeOf e.row = some g → g.die = d → s.rowBad e.row e.b = false → e.bank < 18 → e.e ≠ 0 → s.mappedOut = [] →
       let thr := (s.cfgW 1 d 0x700).toNat % 2 ^ 8
       (e.hard = false → 1 ≤ thr → exec (.scrubPass d) s = .next { s with symErrs := [] }) ∧
       (e.hard = true ∨ thr = 0 → ∃ s', exec (.scrubPass d) s = .next s' ∧ s'.mappedOut = [(g, e.bank)] ∧ s'.symErrs = (if e.hard then [e] else []) ∧
         (s.mfailed = [] → s.MemorySame s'))) ∧
     (∀ i, i ∈ s.trained → i ∉ s.mfailed → ∃ s', exec (.memoryLinkFailure i) s = .next s' ∧ s'.mfailed = s.mfailed ++ [i] ∧
       ∀ pa, s.linkOf pa = some i → s'.byteAt (.dev pa) = 0) ∧
     (∀ j n, s.nalmond.get j = some n → n.up = true →
       exec (.flitCrcFailure j) s = .next { s with nalmond := s.nalmond.set j { n with retry := if n.retry < 16 then n.retry + 1 else 0 } } ∧
       exec (.nalmondLaneLoss j) s = .next { s with nalmond := s.nalmond.set j { n with half := true, retry := 0 } } ∧
       ∃ s', exec (.nalmondLinkDown j) s = .next s' ∧ s'.nalmond.get j = some { n with up := false, since := s.clk.toNat, retry := 0 } ∧
         (j < 18 → (s'.cfgW 3 0 0x520).getLsbD j = false)) ∧
     (∀ j n, s.nalmond.get j = some n → ∃ s', exec (.peerLinkReturn j) s = .next s' ∧ s'.nalmond.get j = some { n with up := true, half := false, retry := 0 } ∧
       (j < 18 → (s'.cfgW 3 0 0x520).getLsbD j = true)) ∧
     (∀ h o x, s.ops.get h = some o → o.stage ≠ .failed → s.team o.tid = some x → s.unreachable o = true →
       (∀ c, o.kind = .coll c → exec (.peerUnreachable h) s = .next (s.raiseOp h o.idx o.pc o.lword .peerUnreachable { aux := BitVec.ofNat 32 c.seq })) ∧
       (∀ c, o.kind = .copy c [] → exec (.peerUnreachable h) s = .next (s.raiseOp h o.idx o.pc o.lword .peerUnreachable {})) ∧
       (∀ c sl, o.kind = .copy c [sl] → exec (.peerUnreachable h) s = .next (s.raiseOp h sl.idx sl.pc sl.lword .peerUnreachable {}))) ∧
     (∀ v : Word, s.broken = false → v.getLsbD 4 = true → (s.cfgW 3 0 0x410).toNat = 0 → v.toNat % 16 < 8 → s.dieValid (v.toNat % 16) = true →
       (s.spare = false → exec (.spareSwapRequest v) s = .next (s.setSwapState 5)) ∧
       (s.spare = true → exec (.spareSwapRequest v) s = .next (s.startSwap (v.toNat % 16)))) ∧
     (∀ d g, s.swap = some ⟨d, [], g⟩ → s.badRows = [] → (∀ e ∈ s.teams, e.2.core / 12 ≠ d) → ∃ s', exec .spareSwapComplete s = .next s' ∧ s'.swap = none ∧ s'.spare = false ∧
       s'.annex = s.annex ∧ s'.dev = s.dev ∧ s'.teams = s.teams)) ∧
  ((∀ i a, i < 18 → a ≠ 0 → ∃ f, eccDecode [] [(i, a)] = some f ∧ ∀ k, k < 18 → f k = 0) ∧
   (∀ i j a b, i < 18 → j < 18 → i ≠ j → a ≠ 0 → b ≠ 0 → ∀ f, eccDecode [] [(i, a), (j, b)] = some f → ∃ k, k < 18 ∧ k ≠ i ∧ k ≠ j ∧ f k ≠ 0) ∧
   (∀ m a, m < 18 → ∃ f, eccDecode [m] [(m, a)] = some f ∧ ∀ k, k < 18 → f k = 0) ∧
   (∀ m i a b, m < 18 → i < 18 → i ≠ m → a ≠ 0 → eccDecode [m] [(m, b), (i, a)] = none) ∧
   (∀ m n a b, m < 18 → n < 18 → m ≠ n → ∃ f, eccDecode [m, n] [(m, a), (n, b)] = some f ∧ ∀ k, k < 18 → f k = 0))

/-- A vector held pending is delivered when its mask is cleared (25 R402).

The host's accesses and a peer's requests are performed at their homes: no other byte of any space changes, and of the rest of the machine at most what watches the
words written: groups that wait, counter symbols, the dependencies of grids (08 R166). A reset of the host link touches the link's own state only
(05 R110-R112; 25 R399-R401).

The numbering of the BARs, and what a link reset clears, and the spaces of pinned ranges, are the model's choices (log 30, log 45, log 34). -/
def Obligations.OutsideAccessesComplete : Prop :=
  (∀ (s : State) (v : Nat), v < 4 → s.msixSent.wf = true → ∃ s', exec (.vectorUnmask v) s = .next s' ∧ s'.msixMask.getLsbD v = false ∧ s'.msixPend.getLsbD v = false ∧
     (∀ u, u ≠ v → s'.msixMask.getLsbD u = s.msixMask.getLsbD u ∧ s'.msixPend.getLsbD u = s.msixPend.getLsbD u ∧ s'.msixSent.get u = s.msixSent.get u) ∧
     s'.msixSent.get v = s.msixSent.get v + (if s.msixPend.getLsbD v then 1 else 0)) ∧
  (∀ (s : State), s.Sound → s.dev.wf = true → Tab.wf s.groups = true →
     let alone (s' : State) (a n : Nat) : Prop := (∀ l : Loc, (∀ k, k < n → l ≠ .dev (a + k)) → s'.byteAt l = s.byteAt l) ∧
       s' = { s with dev := s'.dev, groups := s'.groups, teams := s'.teams, grids := s'.grids } ∧ ∀ k g, s.groups.get k = some g → g.wait = none → s'.groups.get k = some g
     exec .hostLinkReset s = .next { s with msixMask := 0, msixPend := 0, hostRead := [] } ∧ s.take (.hostLink true) = { s with hostUp := true } ∧
     s.take (.hostLink false) = { s with msixMask := 0, msixPend := 0, hostRead := [], hostUp := false } ∧
     (∀ addr bytes, s.hostUp = true → s.broken = false → addr < 2 ^ 36 → s.bar2 addr + bytes.length ≤ s.capacity →
       ∃ s', exec (.hostMemoryWrite addr bytes) s = .next s' ∧ s'.bytesAt (.dev (s.bar2 addr)) bytes.length = bytes ∧ alone s' (s.bar2 addr) bytes.length) ∧
     (∀ addr len, s.hostUp = true → s.broken = false → addr < 2 ^ 36 → s.bar2 addr + len ≤ s.capacity →
       exec (.hostMemoryRead addr len) s = .next { s with hostRead := s.bytesAt (.dev (s.bar2 addr)) len }) ∧
     (∀ (p asid va pa : Nat) (bs : List Byte), bs ≠ [] → va % 65536 + bs.length ≤ 65536 → va + bs.length ≤ 2 ^ 57 → s.peerq = [] →
       (∀ r ∈ s.pins p asid, ¬(r.1 < va + bs.length ∧ (va : Int) < r.2)) → s.translate .hub none p asid .peerWrite (65536 * (va / 65536)) = .ok pa →
       ∃ s', exec (.peerRequest p asid (.write va bs)) s = .next s' ∧ s'.bytesAt (.dev (pa + va % 65536)) bs.length = bs ∧ alone s' (pa + va % 65536) bs.length) ∧
     (∀ (p asid va pa inc : Nat), s.peerq = [] → va % 4 = 0 → va < 2 ^ 57 → (∀ r ∈ s.pins p asid, ¬(r.1 < va + 4 ∧ (va : Int) < r.2)) →
       s.translate .hub none p asid .peerWrite (65536 * (va / 65536)) = .ok pa →
       ∃ s', exec (.peerRequest p asid (.add va inc)) s = .next s' ∧ s'.wordAt (.dev (pa + va % 65536)) = s.wordAt (.dev (pa + va % 65536)) + BitVec.ofNat 32 inc ∧
         alone s' (pa + va % 65536) 4))

/-- Bring-up and attestation complete: power-on reaches the record load, or the error of phase 1; a record that is taken brings the machine to phase 8,
one that is rejected leaves error 3, the words of the window dropped; a report asked for stands ready; after an error no request for a report, a swap or a launch is
taken (25 R411-R413).

Whether a signature verifies depends on keys that are free values, so no witness of a record that is taken can be given (log 15). Where the Curator starts, and that a record that is rejected leaves the window empty, are the model's choices (log 8, log 59). -/
def Obligations.BringUpCompletes : Prop :=
  ∀ (s : State), Cells.wf s.cfg = true →
    let phase (s : State) : Nat := (s.cfgW 3 0 0x500).toNat % 2 ^ 8
    let err (s : State) : Nat := (s.cfgW 3 0 0x500).toNat / 2 ^ 8 % 2 ^ 8
    (s.cfgW 3 0 0x500 = 0 → ∃ s', exec .bringUp s = .next s' ∧
      (if State.firmwareOk s.flashHub then phase s' = 3 ∧ err s' = 0 else phase s' = 1 ∧ err s' = 1)) ∧
    (phase s = 3 → err s = 0 → 100000000 ≤ s.clk.toNat →
      let rec' := if s.windowUsed then s.windowBytes else s.flashRec
      let t := { s with cfg := s.cfg.filter fun e => decide (e.1 < cfgKey 3 0 0x10000) || decide (cfgKey 3 0 0x120000 ≤ e.1) }
      (t.loadRecord rec' = none → exec .recordWindowDeadline s = .next (t.setErr 3)) ∧
      (∀ r u, t.loadRecord rec' = some (r, u) → State.firmwareOk s.flashCur = true → 4 ∉ s.bringBad → 6 ∉ s.bringBad → u.found.1 ≠ 0 → ∃ s', exec .recordWindowDeadline s = .next s' ∧ phase s' = 8 ∧
        s'.serial = BitVec.ofNat 64 r.serial ∧ s'.dev = [] ∧ s'.annex = [] ∧ s'.spare = true)) ∧
    exec .attestationRequest s = .next (if err s = 0 then s.setCfgW 3 0 0x200020 1 else s) ∧
    (err s ≠ 0 → exec (.spareSwapRequest 0x10) s = .next s ∧ ∀ p addr, exec (.hostLaunchPort p addr) s = .next s) ∧
    (s.cfgW 3 0 0x200020 = 1 → err s = 0 → ∃ s', exec .attestationReportReady s = .next s' ∧ s'.cfgW 3 0 0x200020 = 2 ∧
      ∀ k, k < 16 → s'.cfgW 3 0 (0x201000 + 4 * k) = BitVec.ofNat 32 (s.meas.toNat / 2 ^ (32 * k)))

/-- Decoding undoes encoding, for every well-formed instruction and every value of its operands: a lane instruction from its 96 bits, a scalar
instruction from its word or its two words. cwin, ctx and cfg decode to the one row that stands for their word. An accepted word is the
encoding of the instruction that it is read as. -/
def Obligations.DecodeOfEncodeIsTheInstruction : Prop :=
  (∀ i : Instr, i.wf = true →
    (∀ op w, laneParts i = some (op, w) → decodeLane (encLane op w) = .ok i) ∧
    (laneParts i = none → ∀ w, encScalar i = [w] → fOp w ≠ 0x7F → ∀ next, decodeScalar w next = .ok (i.canon, 1)) ∧
    (laneParts i = none → ∀ w0 w1, encScalar i = [w0, w1] → decodeScalar w0 (some w1) = .ok (i.canon, 2))) ∧
  (∀ x i, decodeLane x = .ok i → i ≠ .illegalInstruction → i.wf = true ∧ ∃ op w, laneParts i = some (op, w) ∧ encLane op w = x) ∧
  (∀ w next i, decodeScalar w next = .ok (i, 1) → i ≠ .illegalInstruction → i.wf = true ∧ encScalar i = [w]) ∧
  (∀ w next i, decodeScalar w next = .ok (i, 2) → i.wf = true ∧ ∃ w1, next = some w1 ∧ encScalar i = [w, w1])

/-- Words that the spec writes out decode to the instructions they are written out for. -/
def Obligations.SampleWordsDecode : Prop :=
  (∀ p ∈ ([(0x20143070, .add 5 6 7), (0x4C143004, .srai 5 6 4), (0x40142FFD, .addi 5 5 ⟨0xFFFFFFFD, false⟩), (0x03FFFFFB, .br (-5)),
      (0x04500028, .jal 20 ⟨40, false⟩), (0x0600A000, .jr 20), (0x0A1C47FD, .bne 7 8 ⟨0xFFFFFFFD, false⟩), (0x10000000, .exit), (0x12000000, .tail),
      (0x14000021, .trap 0x21), (0x16000001, .brk 1), (0x52102080, .add64 4 4 8), (0x6424200C, .sstTeamMemory 9 4 ⟨12, false⟩), (0x68242000, .sldAcq 9 4 false 0 0),
      (0x78000002, .mpush 2), (0x7E280022, .kget 10 1 2), (0x822C18A0, .movvs 11 3 40), (0x8600300C, .sset 6 12), (0x8878F800, .elect 30 31),
      (0x8A0C2040, .shld false 3 4 ⟨64, false⟩), (0x8C0C3850, .shset 3 7 5), (0x90000101, .wait 1 1), (0x94000003, .fence 3), (0x98240002, .bsarr 9 2),
      (0x9E000000, .gbar), (0xA0002080, .wcnt 4 8), (0x92400006, .yield 1 0 6), (0x1A000000, .hret), (0xB08A2820, .cpl 4 5 10 1), (0xBA86A3E0, .cprPut 4 3 40 31),
      (0xC20C03E1, .cpcb 6 0 31 1), (0xC4002080, .aclose 0 4 8), (0xC6C03084, .clar 6 12 4 true 0), (0xCE242010, .launch 9 4 true 0),
      (0xD0820000, .mxa false true false false false 2 0 0 0 none), (0xD24003E4, .mxwb 2 0 31 true false false), (0xD4500000, .mxfence 20),
      (0xE0022BF2, .bkfile 0 1 10 true 2), (0xE24A2860, .bkcommit 2 5 10 3), (0xE6000010, .bkfenceAll), (0xE8503800, .stget 20 7), (0xEC000000, .eret),
      (0xF0143010, .gctlResume 5 6), (0xF21440A0, .ctxSave 5 8 10), (0xF6143070, .cfgRead 5 6 7), (0xF8000003, .lx 3), (0xFA0C0008, .lxa 3 0 ⟨8, false⟩)]
      : List (Word × Instr)), decodeScalar p.1 none = .ok (p.2, 1)) ∧
  decodeScalar 0xFE02468A (some 0x40180678) = .ok (.addi 6 0 ⟨0x12345678, true⟩, 2) ∧
  decodeScalar 0xFE00000C (some 0xD1A34120) = .ok (.mxa true true false true false 3 4 1 0x20 (some 12), 2) ∧
  ∀ p ∈ ([(0x58280340, 0xC0, 0, fun w => .vaddFp w, ⟨3, false, 0, 10, 11, 12, 0, 0, 0, 0⟩),
      (0x4021DF0A, 0x40000000, 0x01FFFF01, fun w => .vadds w, ⟨31, false, 7, 8, 8, 0, 0, 0, 16, 0x01FFFF01⟩),
      (0xA8501F42, 0x80000000, 9, fun w => .vmulFp w, ⟨31, false, 0, 20, 21, 0, 0, 0, 32, 9⟩),
      (0x08241F43, 0x6020, 0, fun w => .vfma w, ⟨31, false, 0, 9, 1, 2, 3, 0, 0, 0⟩),
      (0x08101F48, 0x08000020, 0, fun w => .vcmpFp w, ⟨31, false, 0, 4, 1, 2, 0, 0, 2, 0⟩),
      (0x100CDF80, 0, 0, fun w => .vcvt w, ⟨31, false, 3, 3, 2, 0, 0, 0, 0, 0⟩),
      (0x4820DFA6, 0x20000000, 0, fun w => .vscan w, ⟨31, false, 3, 8, 9, 0, 0, 0, 8, 0⟩),
      (0x00131FC0, 0x00800000, 4, fun w => .vld w, ⟨31, false, 12, 4, 0, 0, 0, 2, 0, 4⟩),
      (0x38211FC2, 0x08000090, 4, fun w => .vatom w, ⟨31, false, 4, 8, 7, 9, 0, 0, 2, 4⟩),
      (0x000001C3, 0x04000070, 0x414, fun w => .vfatomAddOrd w, ⟨1, false, 0, 0, 0, 7, 0, 0, 1, 0x414⟩),
      (0x00081FD3, 0x08000010, 0, fun w => .padd w, ⟨31, false, 0, 2, 0, 1, 0, 0, 2, 0⟩),
      (0x10041FE0, 0, 0, fun w => .vlate w, ⟨31, false, 0, 1, 2, 0, 0, 0, 0, 0⟩),
      (0x200C1FE2, 0x04014080, 0, fun w => .sybindCnt w, ⟨31, false, 0, 3, 4, 8, 10, 0, 1, 0⟩),
      (0x00001FED, 0x84000000, 0, fun w => .vksetC w, ⟨31, false, 0, 0, 0, 0, 0, 0, 33, 0⟩)]
      : List (Word × Word × Word × (LaneWord → Instr) × LaneWord)),
    decodeLane (laneOfWords p.1 p.2.1 p.2.2.1) = .ok (p.2.2.2.1 p.2.2.2.2)

/-- A step whose agenda names an agent issues the word that stands where that agent fetches: exec of the decoded instruction at the state in which the
agent is the one that issues; a run's lane words stand in the code that the run has. A word that issues is charged to its cluster; a word that the governor withholds changes nothing of the machine but its count. An
event is exec of itself, time and the outside world have their own effect, and with an empty agenda the move is one that the machine may make.

The agenda, and that a word is fetched in the step that issues it, are the model's choices (log 1, log 51); so are the band that a Curator's word is charged to and that a word held back counts once (log 19, log 33). -/
def Obligations.StepRunsTheDecodedWord : Prop :=
  ∀ (s : State) (r : List Move), s.Sound →
    (∀ (t i pa : Nat) (g : Group) (ins : Instr), s.agenda = .issue (.group t i) :: r → s.group t i = some g →
      let s1 := { s with agenda := r, cur := some (.group t i) }
      let s2 := s1.putGroup t i { g with moved := false }
      s1.mayIssue t i g = true →
      (∀ n : Nat, g.run.n = 0 → g.spc.toNat < 2 ^ 57 → s2.translateNow t i .fetch g.spc.toNat = .ok pa → fOp (s2.wordAt (.dev pa)) ≠ 0x7F →
        decodeScalar (s2.wordAt (.dev pa)) none = .ok (ins, n) →
        step s = s2.afterIssue t i g.core (s2.bandOf t) (chargeOf (s2.resolve ins) s2.activeNow) (exec (s2.resolve ins) s2)) ∧
      (∀ (pa2 n : Nat), g.run.n = 0 → g.spc.toNat + 4 < 2 ^ 57 → s2.translateNow t i .fetch g.spc.toNat = .ok pa → fOp (s2.wordAt (.dev pa)) = 0x7F →
        s2.translateNow t i .fetch (g.spc.toNat + 4) = .ok pa2 → decodeScalar (s2.wordAt (.dev pa)) (some (s2.wordAt (.dev pa2))) = .ok (ins, n) →
        step s = s2.afterIssue t i g.core (s2.bandOf t) (chargeOf (s2.resolve ins) s2.activeNow) (exec (s2.resolve ins) s2)) ∧
      (∀ (c0 c1 c2 : Word) (more : List Word), g.run.n ≠ 0 → g.run.code = c0 :: c1 :: c2 :: more → decodeLane (laneOfWords c0 c1 c2) = .ok ins →
        step s = s2.afterIssue t i g.core (s2.bandOf t) (chargeOf ins s2.activeNow) (exec (s2.resolve ins) s2)) ∧
      (∀ p : Nat → Nat → Nat, g.run.n ≠ 0 → g.run.code = [] → (∀ k q, k < g.run.n → q < 3 →
          s2.laneAddr t (g.run.cursor + BitVec.ofNat 32 k) q < 2 ^ 57 ∧
          s2.translateNow t i .fetch (s2.laneAddr t (g.run.cursor + BitVec.ofNat 32 k) q) = .ok (p k q)) →
        let s3 := s2.putGroup t i { g with moved := false, run := { g.run with
          code := (List.range g.run.n).flatMap fun k => (List.range 3).map fun q => s2.wordAt (.dev (p k q)) } }
        decodeLane (laneOfWords (s2.wordAt (.dev (p 0 0))) (s2.wordAt (.dev (p 0 1))) (s2.wordAt (.dev (p 0 2)))) = .ok ins →
        step s = s3.afterIssue t i g.core (s3.bandOf t) (chargeOf ins s3.activeNow) (exec (s3.resolve ins) s3))) ∧
    (∀ (c : Nat) (ins : Instr) (n : Nat), s.agenda = .issue (.curator c) :: r → (s.core c).stopped = false →
      let s1 := { s with agenda := r, cur := some (.curator c) }
      let pc := (s.core c).spc.toNat
      s1.trapDue c = false → pc + 8 ≤ 2 ^ 18 → decodeScalar (s1.wordAt (.curator c pc)) (some (s1.wordAt (.curator c (pc + 4)))) = .ok (ins, n) →
      let q := chargeOf (s1.resolve ins) 0
      (s.core c).waiting = false →
      (s1.withholds c q = false → ∀ s', exec (s1.resolve ins) s1 = .next s' →
        step s = .next ((if (s'.core c).stopped then s' else s'.charge c (Config.curatorBand % 8) q).mapCore c fun x => { x with
          charged := false, waiting := State.curatorWaits ins && (s'.core c).spc == (s.core c).spc && !(s'.core c).stopped })) ∧
      (s1.withholds c q = true → (s.core c).charged = true → step s = .next s1)) ∧
    (∀ i, s.agenda = .event i :: r → step s = exec i { s with agenda := r, cur := none }) ∧
    (∀ n, s.agenda = .tick n :: r → step s = .next ({ s with agenda := r }.passTime n)) ∧
    (∀ x, s.agenda = .input x :: r → step s = .next ({ s with agenda := r }.take x)) ∧
    (∀ (s2 s1 : State) (t i core band n : Nat) (g : Group), s1.group t i = some g → State.issued g = true →
      (s2.withholds core n = false → (s2.team t).map (·.halted) = some false → s2.afterIssue t i core band n (.next s1) =
        .next ((s1.charge core band n).mapGroup t i fun g => { g with charged := false, stepping := false })) ∧
      (s2.withholds core n = true → (s2.group t i).map (·.charged) = some true → s2.afterIssue t i core band n (.next s1) = .next s2)) ∧
    (s.agenda = [] → ∃ m, m ∈ s.candidates ∧ step s = { s with free := s.free + 1 }.act m)

/-- Every step keeps the stores canonical: device memory, the annex, the peers' memory, the configuration words stay strictly rising without a zero entry.

Every step keeps the tables canonical: groups, teams, grids, operations, cores and partitions under strictly rising keys, a group under a key that ends
in its index; the registers, spill stack, tags and forms of every group, resident or saved, the registers, memory and accumulators of every core, and every
team's memory and codebooks canonical; no group with more than 96 live lanes; no grid with a record whose roles were not checked. -/
def Obligations.StepKeepsStoresCanonical : Prop :=
  (∀ (s s' : State), s.StoresWf → step s = .next s' → s'.StoresWf) ∧
  (∀ (s s' : State), s.TablesWf → step s = .next s' → s'.TablesWf)

/-- Right after reset the stores and the tables are canonical and what the spec gives at power-on holds: no bring-up phase has begun (25 R411), the spare die stands by (24 R397), every
statistics slot is at zero and the Filler's next number is 1 (03 R70, 09 R172), no team, group, grid or operation is there, and no group may issue.

That memory reads as zero is the model's choice (log 9). -/
def Obligations.ResetIsCanonicalAndIdle : Prop :=
  State.reset.StoresWf ∧ State.reset.TablesWf ∧ State.reset.Sound ∧ State.reset.cfgW 3 0 0x500 = 0 ∧ State.reset.spare = true ∧
    (∀ p k, State.reset.stat p k = Stat.zero) ∧ (∀ p, (State.reset.part p).next = 1 ∧ (State.reset.part p).entries = []) ∧
    (∀ c, (State.reset.core c).fq = [] ∧ (State.reset.core c).seq = 0) ∧ (∀ t i, State.reset.group t i = none) ∧ (∀ t, State.reset.team t = none) ∧
    (∀ n, State.reset.grid n = none) ∧ (∀ h, State.reset.ops.get h = none) ∧ ∀ l, State.reset.byteAt l = 0
end

