-- ==== Sys2Proof/Laws/Cells.lean ====
section
/-! SUPPORT. The laws of the one store of the model: reading after writing, and the canonical form that every operation keeps. -/

namespace Sys2Proof.Machine

open Sys2Proof

namespace Cells

variable {w : Nat}

/-- Every key of the store is above k. -/
def above (k : Nat) (m : Cells w) : Prop := ∀ e ∈ m, k < e.1

/-- The canonical form, said of the head and the rest. -/
theorem wf_cons (k : Nat) (v : BitVec w) (r : Cells w) : wf ((k, v) :: r) = true ↔ v ≠ 0 ∧ above k r ∧ wf r = true := by
  induction r generalizing k v with
  | nil => simp [wf, above]
  | cons e r ih =>
    obtain ⟨k', v'⟩ := e
    simp only [wf, Bool.and_eq_true, bne_iff_ne, ne_eq, decide_eq_true_eq, above, List.mem_cons, forall_eq_or_imp]
    constructor
    · rintro ⟨⟨hv, hk⟩, h⟩
      refine ⟨hv, ⟨hk, fun e he => ?_⟩, h⟩
      have := ((ih k' v').1 h).2.1 e he
      omega
    · rintro ⟨hv, ⟨hk, -⟩, h⟩
      exact ⟨⟨hv, hk⟩, h⟩

theorem get_of_above {k : Nat} {m : Cells w} (h : above k m) : get m k = 0 := by
  cases m with
  | nil => rfl
  | cons e r =>
    obtain ⟨k', v⟩ := e
    have := h (k', v) (by simp)
    simp only [get]
    rw [if_neg (by omega), if_pos (by omega)]

theorem above_mono {j k : Nat} {m : Cells w} (h : above k m) (hj : j ≤ k) : above j m :=
  fun e he => by have := h e he; omega

theorem above_set {j a : Nat} {v : BitVec w} {m : Cells w} (h : above j m) (ha : j < a) : above j (set m a v) := by
  induction m with
  | nil =>
    simp only [set]
    split
    · exact fun e he => absurd he (by simp)
    · exact fun e he => by rw [List.mem_singleton.1 he]; exact ha
  | cons e r ih =>
    obtain ⟨k, u⟩ := e
    have hk : j < k := h (k, u) (by simp)
    have hr : above j r := fun e he => h e (by simp [he])
    simp only [set]
    split_ifs <;> intro e he
    · exact hr e he
    · rcases List.mem_cons.1 he with rfl | he
      · exact ha
      · exact hr e he
    · rcases List.mem_cons.1 he with rfl | he
      · exact hk
      · exact hr e he
    · rcases List.mem_cons.1 he with rfl | he
      · exact ha
      · exact h e he
    · rcases List.mem_cons.1 he with rfl | he
      · exact hk
      · exact ih hr e he

/-- A write keeps the canonical form. -/
theorem set_wf {m : Cells w} (h : wf m = true) (a : Nat) (v : BitVec w) : wf (set m a v) = true := by
  induction m with
  | nil =>
    simp only [set]
    split
    · rfl
    · simpa [wf] using ‹¬v = 0›
  | cons e r ih =>
    obtain ⟨k, u⟩ := e
    obtain ⟨hu, hr, hw⟩ := (wf_cons k u r).1 h
    simp only [set]
    split_ifs with h1 h2 h3 h4
    · exact hw
    · subst h1; exact (wf_cons k v r).2 ⟨h2, hr, hw⟩
    · exact h
    · exact (wf_cons a v _).2 ⟨h4, fun e he => by
        rcases List.mem_cons.1 he with rfl | he
        · exact h3
        · have := hr e he; omega, h⟩
    · exact (wf_cons k u _).2 ⟨hu, above_set hr (by omega), ih hw⟩

/-- A read after a write to the same key gives what was written. -/
@[simp] theorem get_set_same {m : Cells w} (h : wf m = true) (a : Nat) (v : BitVec w) : get (set m a v) a = v := by
  induction m with
  | nil =>
    simp only [set]
    split
    · simp_all [get]
    · simp [get]
  | cons e r ih =>
    obtain ⟨k, u⟩ := e
    obtain ⟨hu, hr, hw⟩ := (wf_cons k u r).1 h
    simp only [set]
    split_ifs with h1 h2 h3 h4
    · subst h1; rw [get_of_above hr, h2]
    · simp [get]
    · rw [get_of_above (above_mono (j := a) (k := a) (fun e he => by
        rcases List.mem_cons.1 he with rfl | he
        · exact h3
        · have := hr e he; omega) le_rfl), h4]
    · simp [get]
    · simp only [get]
      rw [if_neg h1, if_neg (by omega), ih hw]

/-- A write leaves every other key alone. -/
@[simp] theorem get_set_ne {m : Cells w} {a b : Nat} (hab : b ≠ a) (h : wf m = true) (v : BitVec w) : get (set m a v) b = get m b := by
  induction m with
  | nil =>
    simp only [set]
    split
    · rfl
    · simp only [get]; split_ifs <;> first | rfl | omega
  | cons e r ih =>
    obtain ⟨k, u⟩ := e
    obtain ⟨hu, hr, hw⟩ := (wf_cons k u r).1 h
    have key : ∀ (c : Nat), c < k → get ((k, u) :: r) c = 0 := fun c hc => by
      simp only [get]; rw [if_neg (by omega), if_pos hc]
    simp only [set]
    split_ifs with h1 h2 h3 h4
    · subst h1
      simp only [get]
      split_ifs with h5 h6
      · omega
      · exact get_of_above (above_mono hr (by omega))
      · rfl
    · subst h1
      simp only [get]
      split_ifs <;> first | rfl | omega
    · rfl
    · rw [get]
      split_ifs with h5 h6
      · omega
      · rw [key b (by omega)]
      · rfl
    · simp only [get]
      rw [ih hw]

theorem setAll_wf {m : Cells w} (h : wf m = true) (l : List (Nat × BitVec w)) : wf (setAll m l) = true := by
  induction l generalizing m with
  | nil => exact h
  | cons e l ih => exact ih (set_wf h e.1 e.2)

theorem setSlice_wf {m : Cells w} (h : wf m = true) (a : Nat) (l : List (BitVec w)) : wf (setSlice m a l) = true := by
  induction l generalizing m a with
  | nil => exact h
  | cons v l ih => exact ih (set_wf h a v) (a + 1)

/-- Outside the keys written, a slice write changes nothing. -/
theorem get_setSlice_out {m : Cells w} (h : wf m = true) (a : Nat) (l : List (BitVec w)) (b : Nat) (hb : b < a ∨ a + l.length ≤ b) :
    get (setSlice m a l) b = get m b := by
  induction l generalizing m a with
  | nil => rfl
  | cons v l ih =>
    simp only [List.length_cons] at hb
    rw [setSlice, ih (set_wf h a v) (a + 1) (by omega), get_set_ne (by omega) h]

/-- Inside them it reads as written. -/
theorem get_setSlice_in {m : Cells w} (h : wf m = true) (a : Nat) (l : List (BitVec w)) (i : Nat) (hi : i < l.length) :
    get (setSlice m a l) (a + i) = l[i] := by
  induction l generalizing m a i with
  | nil => simp at hi
  | cons v l ih =>
    cases i with
    | zero => rw [setSlice, get_setSlice_out (set_wf h a v) (a + 1) l (a + 0) (by omega)]; simp [h]
    | succ i =>
      have : a + (i + 1) = a + 1 + i := by omega
      rw [setSlice, this, ih (set_wf h a v) (a + 1) i (by simpa using hi)]
      simp

theorem wf_filter {m : Cells w} (h : wf m = true) (p : Nat × BitVec w → Bool) : wf (m.filter p) = true := by
  induction m with
  | nil => rfl
  | cons e r ih =>
    obtain ⟨k, u⟩ := e
    obtain ⟨hu, hr, hw⟩ := (wf_cons k u r).1 h
    rw [List.filter_cons]
    split
    · exact (wf_cons k u _).2 ⟨hu, fun e he => hr e (List.mem_filter.1 he).1, ih hw⟩
    · exact ih hw

theorem keep_wf {m : Cells w} (h : wf m = true) (p : Nat → Bool) : wf (keep p m) = true := wf_filter h _

theorem setNum_wf {m : Memory} (h : wf m = true) (a n x : Nat) : wf (setNum m a n x) = true := setSlice_wf h a _

/-- Equal memories are equal data: two canonical stores that read the same are the same. -/
theorem ext_of_get {m n : Cells w} (hm : wf m = true) (hn : wf n = true) (h : ∀ a, get m a = get n a) : m = n := by
  induction m generalizing n with
  | nil =>
    cases n with
    | nil => rfl
    | cons e r =>
      obtain ⟨k, u⟩ := e
      obtain ⟨hu, -, -⟩ := (wf_cons k u r).1 hn
      have := h k
      simp only [get, if_true] at this
      exact absurd this.symm hu
  | cons e r ih =>
    obtain ⟨k, u⟩ := e
    obtain ⟨hu, hr, hw⟩ := (wf_cons k u r).1 hm
    cases n with
    | nil =>
      have := h k
      simp only [get, if_true] at this
      exact absurd this hu
    | cons e' r' =>
      obtain ⟨k', u'⟩ := e'
      obtain ⟨hu', hr', hw'⟩ := (wf_cons k' u' r').1 hn
      have hk : k = k' := by
        rcases lt_trichotomy k k' with hlt | heq | hgt
        · have := h k
          simp only [get, if_true] at this
          rw [if_neg (by omega), if_pos hlt] at this
          exact absurd this hu
        · exact heq
        · have := h k'
          simp only [get, if_true] at this
          rw [if_neg (by omega), if_pos hgt] at this
          exact absurd this.symm hu'
      subst hk
      have huv : u = u' := by simpa [get] using h k
      subst huv
      congr 1
      refine ih hw hw' fun a => ?_
      rcases lt_trichotomy a k with hlt | heq | hgt
      · rw [get_of_above (above_mono hr (by omega)), get_of_above (above_mono hr' (by omega))]
      · subst heq; rw [get_of_above hr, get_of_above hr']
      · have := h a
        simp only [get] at this
        rwa [if_neg (by omega), if_neg (by omega), if_neg (by omega), if_neg (by omega)] at this

end Cells

namespace Tab

variable {α : Type}

/-- A read after a put of the same number. -/
@[simp] theorem get_set_same (m : Tab α) (a : Nat) (v : α) : get (set m a v) a = some v := by
  induction m with
  | nil => simp [set, get]
  | cons e r ih =>
    obtain ⟨k, u⟩ := e
    simp only [set]
    split_ifs with h1 h2
    · simp [get]
    · simp [get]
    · simp only [get]; rw [if_neg h1, if_neg h2, ih]

/-- A put leaves every other number alone. -/
@[simp] theorem get_set_ne (m : Tab α) {a b : Nat} (h : b ≠ a) (v : α) : get (set m a v) b = get m b := by
  induction m with
  | nil => simp only [set, get]; split_ifs <;> first | rfl | omega
  | cons e r ih =>
    obtain ⟨k, u⟩ := e
    simp only [set]
    split_ifs with h1 h2
    · subst h1; simp only [get]; split_ifs <;> first | rfl | omega
    · simp only [get]
      split_ifs <;> first | rfl | omega
    · simp only [get, ih]

end Tab

end Sys2Proof.Machine
end

