-- ==== Sys2Proof/Laws/State.lean ====
section
/-! SUPPORT. What each named update of the state does to each field: one lemma per field per update. -/

namespace Sys2Proof.Machine

open Sys2Proof

namespace State

variable (s : State)

/-! ### putGroup -/

@[simp] theorem putGroup_clk (t i : Nat) (x : Group) : (s.putGroup t i x).clk = s.clk := rfl
@[simp] theorem putGroup_dev (t i : Nat) (x : Group) : (s.putGroup t i x).dev = s.dev := rfl
@[simp] theorem putGroup_annex (t i : Nat) (x : Group) : (s.putGroup t i x).annex = s.annex := rfl
@[simp] theorem putGroup_peers (t i : Nat) (x : Group) : (s.putGroup t i x).peers = s.peers := rfl
@[simp] theorem putGroup_cfg (t i : Nat) (x : Group) : (s.putGroup t i x).cfg = s.cfg := rfl
@[simp] theorem putGroup_cores (t i : Nat) (x : Group) : (s.putGroup t i x).cores = s.cores := rfl
@[simp] theorem putGroup_teams (t i : Nat) (x : Group) : (s.putGroup t i x).teams = s.teams := rfl
@[simp] theorem putGroup_groups (t i : Nat) (x : Group) : (s.putGroup t i x).groups = s.groups.set (64 * t + i) x := rfl
@[simp] theorem putGroup_grids (t i : Nat) (x : Group) : (s.putGroup t i x).grids = s.grids := rfl
@[simp] theorem putGroup_saved (t i : Nat) (x : Group) : (s.putGroup t i x).saved = s.saved := rfl
@[simp] theorem putGroup_ops (t i : Nat) (x : Group) : (s.putGroup t i x).ops = s.ops := rfl
@[simp] theorem putGroup_trackers (t i : Nat) (x : Group) : (s.putGroup t i x).trackers = s.trackers := rfl
@[simp] theorem putGroup_oq (t i : Nat) (x : Group) : (s.putGroup t i x).oq = s.oq := rfl
@[simp] theorem putGroup_oqSince (t i : Nat) (x : Group) : (s.putGroup t i x).oqSince = s.oqSince := rfl
@[simp] theorem putGroup_parts (t i : Nat) (x : Group) : (s.putGroup t i x).parts = s.parts := rfl
@[simp] theorem putGroup_clusters (t i : Nat) (x : Group) : (s.putGroup t i x).clusters = s.clusters := rfl
@[simp] theorem putGroup_interval (t i : Nat) (x : Group) : (s.putGroup t i x).interval = s.interval := rfl
@[simp] theorem putGroup_price (t i : Nat) (x : Group) : (s.putGroup t i x).price = s.price := rfl
@[simp] theorem putGroup_clockSet (t i : Nat) (x : Group) : (s.putGroup t i x).clockSet = s.clockSet := rfl
@[simp] theorem putGroup_mphase (t i : Nat) (x : Group) : (s.putGroup t i x).mphase = s.mphase := rfl
@[simp] theorem putGroup_mstart (t i : Nat) (x : Group) : (s.putGroup t i x).mstart = s.mstart := rfl
@[simp] theorem putGroup_hubTlb (t i : Nat) (x : Group) : (s.putGroup t i x).hubTlb = s.hubTlb := rfl
@[simp] theorem putGroup_msixMask (t i : Nat) (x : Group) : (s.putGroup t i x).msixMask = s.msixMask := rfl
@[simp] theorem putGroup_msixPend (t i : Nat) (x : Group) : (s.putGroup t i x).msixPend = s.msixPend := rfl
@[simp] theorem putGroup_msixSent (t i : Nat) (x : Group) : (s.putGroup t i x).msixSent = s.msixSent := rfl
@[simp] theorem putGroup_hostUp (t i : Nat) (x : Group) : (s.putGroup t i x).hostUp = s.hostUp := rfl
@[simp] theorem putGroup_modules (t i : Nat) (x : Group) : (s.putGroup t i x).modules = s.modules := rfl
@[simp] theorem putGroup_mfailed (t i : Nat) (x : Group) : (s.putGroup t i x).mfailed = s.mfailed := rfl
@[simp] theorem putGroup_nalmond (t i : Nat) (x : Group) : (s.putGroup t i x).nalmond = s.nalmond := rfl
@[simp] theorem putGroup_badRows (t i : Nat) (x : Group) : (s.putGroup t i x).badRows = s.badRows := rfl
@[simp] theorem putGroup_symErrs (t i : Nat) (x : Group) : (s.putGroup t i x).symErrs = s.symErrs := rfl
@[simp] theorem putGroup_hubTlb1 (t i : Nat) (x : Group) : (s.putGroup t i x).hubTlb1 = s.hubTlb1 := rfl
@[simp] theorem putGroup_peerBad (t i : Nat) (x : Group) : (s.putGroup t i x).peerBad = s.peerBad := rfl
@[simp] theorem putGroup_peerPins (t i : Nat) (x : Group) : (s.putGroup t i x).peerPins = s.peerPins := rfl
@[simp] theorem putGroup_peerFull (t i : Nat) (x : Group) : (s.putGroup t i x).peerFull = s.peerFull := rfl
@[simp] theorem putGroup_peerq (t i : Nat) (x : Group) : (s.putGroup t i x).peerq = s.peerq := rfl
@[simp] theorem putGroup_bringBad (t i : Nat) (x : Group) : (s.putGroup t i x).bringBad = s.bringBad := rfl
@[simp] theorem putGroup_mappedOut (t i : Nat) (x : Group) : (s.putGroup t i x).mappedOut = s.mappedOut := rfl
@[simp] theorem putGroup_cellErrs (t i : Nat) (x : Group) : (s.putGroup t i x).cellErrs = s.cellErrs := rfl
@[simp] theorem putGroup_spare (t i : Nat) (x : Group) : (s.putGroup t i x).spare = s.spare := rfl
@[simp] theorem putGroup_swap (t i : Nat) (x : Group) : (s.putGroup t i x).swap = s.swap := rfl
@[simp] theorem putGroup_flashHub (t i : Nat) (x : Group) : (s.putGroup t i x).flashHub = s.flashHub := rfl
@[simp] theorem putGroup_flashRec (t i : Nat) (x : Group) : (s.putGroup t i x).flashRec = s.flashRec := rfl
@[simp] theorem putGroup_flashCur (t i : Nat) (x : Group) : (s.putGroup t i x).flashCur = s.flashCur := rfl
@[simp] theorem putGroup_serial (t i : Nat) (x : Group) : (s.putGroup t i x).serial = s.serial := rfl
@[simp] theorem putGroup_meas (t i : Nat) (x : Group) : (s.putGroup t i x).meas = s.meas := rfl
@[simp] theorem putGroup_agenda (t i : Nat) (x : Group) : (s.putGroup t i x).agenda = s.agenda := rfl
@[simp] theorem putGroup_cur (t i : Nat) (x : Group) : (s.putGroup t i x).cur = s.cur := rfl
@[simp] theorem putGroup_free (t i : Nat) (x : Group) : (s.putGroup t i x).free = s.free := rfl
@[simp] theorem putGroup_handles (t i : Nat) (x : Group) : (s.putGroup t i x).handles = s.handles := rfl
@[simp] theorem putGroup_hostRead (t i : Nat) (x : Group) : (s.putGroup t i x).hostRead = s.hostRead := rfl

/-! ### putTeam -/

@[simp] theorem putTeam_clk (t : Nat) (x : Team) : (s.putTeam t x).clk = s.clk := rfl
@[simp] theorem putTeam_dev (t : Nat) (x : Team) : (s.putTeam t x).dev = s.dev := rfl
@[simp] theorem putTeam_annex (t : Nat) (x : Team) : (s.putTeam t x).annex = s.annex := rfl
@[simp] theorem putTeam_peers (t : Nat) (x : Team) : (s.putTeam t x).peers = s.peers := rfl
@[simp] theorem putTeam_cfg (t : Nat) (x : Team) : (s.putTeam t x).cfg = s.cfg := rfl
@[simp] theorem putTeam_cores (t : Nat) (x : Team) : (s.putTeam t x).cores = s.cores := rfl
@[simp] theorem putTeam_teams (t : Nat) (x : Team) : (s.putTeam t x).teams = s.teams.set t x := rfl
@[simp] theorem putTeam_groups (t : Nat) (x : Team) : (s.putTeam t x).groups = s.groups := rfl
@[simp] theorem putTeam_grids (t : Nat) (x : Team) : (s.putTeam t x).grids = s.grids := rfl
@[simp] theorem putTeam_saved (t : Nat) (x : Team) : (s.putTeam t x).saved = s.saved := rfl
@[simp] theorem putTeam_ops (t : Nat) (x : Team) : (s.putTeam t x).ops = s.ops := rfl
@[simp] theorem putTeam_trackers (t : Nat) (x : Team) : (s.putTeam t x).trackers = s.trackers := rfl
@[simp] theorem putTeam_oq (t : Nat) (x : Team) : (s.putTeam t x).oq = s.oq := rfl
@[simp] theorem putTeam_oqSince (t : Nat) (x : Team) : (s.putTeam t x).oqSince = s.oqSince := rfl
@[simp] theorem putTeam_parts (t : Nat) (x : Team) : (s.putTeam t x).parts = s.parts := rfl
@[simp] theorem putTeam_clusters (t : Nat) (x : Team) : (s.putTeam t x).clusters = s.clusters := rfl
@[simp] theorem putTeam_interval (t : Nat) (x : Team) : (s.putTeam t x).interval = s.interval := rfl
@[simp] theorem putTeam_price (t : Nat) (x : Team) : (s.putTeam t x).price = s.price := rfl
@[simp] theorem putTeam_clockSet (t : Nat) (x : Team) : (s.putTeam t x).clockSet = s.clockSet := rfl
@[simp] theorem putTeam_mphase (t : Nat) (x : Team) : (s.putTeam t x).mphase = s.mphase := rfl
@[simp] theorem putTeam_mstart (t : Nat) (x : Team) : (s.putTeam t x).mstart = s.mstart := rfl
@[simp] theorem putTeam_hubTlb (t : Nat) (x : Team) : (s.putTeam t x).hubTlb = s.hubTlb := rfl
@[simp] theorem putTeam_msixMask (t : Nat) (x : Team) : (s.putTeam t x).msixMask = s.msixMask := rfl
@[simp] theorem putTeam_msixPend (t : Nat) (x : Team) : (s.putTeam t x).msixPend = s.msixPend := rfl
@[simp] theorem putTeam_msixSent (t : Nat) (x : Team) : (s.putTeam t x).msixSent = s.msixSent := rfl
@[simp] theorem putTeam_hostUp (t : Nat) (x : Team) : (s.putTeam t x).hostUp = s.hostUp := rfl
@[simp] theorem putTeam_modules (t : Nat) (x : Team) : (s.putTeam t x).modules = s.modules := rfl
@[simp] theorem putTeam_mfailed (t : Nat) (x : Team) : (s.putTeam t x).mfailed = s.mfailed := rfl
@[simp] theorem putTeam_nalmond (t : Nat) (x : Team) : (s.putTeam t x).nalmond = s.nalmond := rfl
@[simp] theorem putTeam_badRows (t : Nat) (x : Team) : (s.putTeam t x).badRows = s.badRows := rfl
@[simp] theorem putTeam_symErrs (t : Nat) (x : Team) : (s.putTeam t x).symErrs = s.symErrs := rfl
@[simp] theorem putTeam_hubTlb1 (t : Nat) (x : Team) : (s.putTeam t x).hubTlb1 = s.hubTlb1 := rfl
@[simp] theorem putTeam_peerBad (t : Nat) (x : Team) : (s.putTeam t x).peerBad = s.peerBad := rfl
@[simp] theorem putTeam_peerPins (t : Nat) (x : Team) : (s.putTeam t x).peerPins = s.peerPins := rfl
@[simp] theorem putTeam_peerFull (t : Nat) (x : Team) : (s.putTeam t x).peerFull = s.peerFull := rfl
@[simp] theorem putTeam_peerq (t : Nat) (x : Team) : (s.putTeam t x).peerq = s.peerq := rfl
@[simp] theorem putTeam_bringBad (t : Nat) (x : Team) : (s.putTeam t x).bringBad = s.bringBad := rfl
@[simp] theorem putTeam_mappedOut (t : Nat) (x : Team) : (s.putTeam t x).mappedOut = s.mappedOut := rfl
@[simp] theorem putTeam_cellErrs (t : Nat) (x : Team) : (s.putTeam t x).cellErrs = s.cellErrs := rfl
@[simp] theorem putTeam_spare (t : Nat) (x : Team) : (s.putTeam t x).spare = s.spare := rfl
@[simp] theorem putTeam_swap (t : Nat) (x : Team) : (s.putTeam t x).swap = s.swap := rfl
@[simp] theorem putTeam_flashHub (t : Nat) (x : Team) : (s.putTeam t x).flashHub = s.flashHub := rfl
@[simp] theorem putTeam_flashRec (t : Nat) (x : Team) : (s.putTeam t x).flashRec = s.flashRec := rfl
@[simp] theorem putTeam_flashCur (t : Nat) (x : Team) : (s.putTeam t x).flashCur = s.flashCur := rfl
@[simp] theorem putTeam_serial (t : Nat) (x : Team) : (s.putTeam t x).serial = s.serial := rfl
@[simp] theorem putTeam_meas (t : Nat) (x : Team) : (s.putTeam t x).meas = s.meas := rfl
@[simp] theorem putTeam_agenda (t : Nat) (x : Team) : (s.putTeam t x).agenda = s.agenda := rfl
@[simp] theorem putTeam_cur (t : Nat) (x : Team) : (s.putTeam t x).cur = s.cur := rfl
@[simp] theorem putTeam_free (t : Nat) (x : Team) : (s.putTeam t x).free = s.free := rfl
@[simp] theorem putTeam_handles (t : Nat) (x : Team) : (s.putTeam t x).handles = s.handles := rfl
@[simp] theorem putTeam_hostRead (t : Nat) (x : Team) : (s.putTeam t x).hostRead = s.hostRead := rfl

/-! ### putGrid -/

@[simp] theorem putGrid_clk (n : Nat) (x : Grid) : (s.putGrid n x).clk = s.clk := rfl
@[simp] theorem putGrid_dev (n : Nat) (x : Grid) : (s.putGrid n x).dev = s.dev := rfl
@[simp] theorem putGrid_annex (n : Nat) (x : Grid) : (s.putGrid n x).annex = s.annex := rfl
@[simp] theorem putGrid_peers (n : Nat) (x : Grid) : (s.putGrid n x).peers = s.peers := rfl
@[simp] theorem putGrid_cfg (n : Nat) (x : Grid) : (s.putGrid n x).cfg = s.cfg := rfl
@[simp] theorem putGrid_cores (n : Nat) (x : Grid) : (s.putGrid n x).cores = s.cores := rfl
@[simp] theorem putGrid_teams (n : Nat) (x : Grid) : (s.putGrid n x).teams = s.teams := rfl
@[simp] theorem putGrid_groups (n : Nat) (x : Grid) : (s.putGrid n x).groups = s.groups := rfl
@[simp] theorem putGrid_grids (n : Nat) (x : Grid) : (s.putGrid n x).grids = s.grids.set n x := rfl
@[simp] theorem putGrid_saved (n : Nat) (x : Grid) : (s.putGrid n x).saved = s.saved := rfl
@[simp] theorem putGrid_ops (n : Nat) (x : Grid) : (s.putGrid n x).ops = s.ops := rfl
@[simp] theorem putGrid_trackers (n : Nat) (x : Grid) : (s.putGrid n x).trackers = s.trackers := rfl
@[simp] theorem putGrid_oq (n : Nat) (x : Grid) : (s.putGrid n x).oq = s.oq := rfl
@[simp] theorem putGrid_oqSince (n : Nat) (x : Grid) : (s.putGrid n x).oqSince = s.oqSince := rfl
@[simp] theorem putGrid_parts (n : Nat) (x : Grid) : (s.putGrid n x).parts = s.parts := rfl
@[simp] theorem putGrid_clusters (n : Nat) (x : Grid) : (s.putGrid n x).clusters = s.clusters := rfl
@[simp] theorem putGrid_interval (n : Nat) (x : Grid) : (s.putGrid n x).interval = s.interval := rfl
@[simp] theorem putGrid_price (n : Nat) (x : Grid) : (s.putGrid n x).price = s.price := rfl
@[simp] theorem putGrid_clockSet (n : Nat) (x : Grid) : (s.putGrid n x).clockSet = s.clockSet := rfl
@[simp] theorem putGrid_mphase (n : Nat) (x : Grid) : (s.putGrid n x).mphase = s.mphase := rfl
@[simp] theorem putGrid_mstart (n : Nat) (x : Grid) : (s.putGrid n x).mstart = s.mstart := rfl
@[simp] theorem putGrid_hubTlb (n : Nat) (x : Grid) : (s.putGrid n x).hubTlb = s.hubTlb := rfl
@[simp] theorem putGrid_msixMask (n : Nat) (x : Grid) : (s.putGrid n x).msixMask = s.msixMask := rfl
@[simp] theorem putGrid_msixPend (n : Nat) (x : Grid) : (s.putGrid n x).msixPend = s.msixPend := rfl
@[simp] theorem putGrid_msixSent (n : Nat) (x : Grid) : (s.putGrid n x).msixSent = s.msixSent := rfl
@[simp] theorem putGrid_hostUp (n : Nat) (x : Grid) : (s.putGrid n x).hostUp = s.hostUp := rfl
@[simp] theorem putGrid_modules (n : Nat) (x : Grid) : (s.putGrid n x).modules = s.modules := rfl
@[simp] theorem putGrid_mfailed (n : Nat) (x : Grid) : (s.putGrid n x).mfailed = s.mfailed := rfl
@[simp] theorem putGrid_nalmond (n : Nat) (x : Grid) : (s.putGrid n x).nalmond = s.nalmond := rfl
@[simp] theorem putGrid_badRows (n : Nat) (x : Grid) : (s.putGrid n x).badRows = s.badRows := rfl
@[simp] theorem putGrid_symErrs (n : Nat) (x : Grid) : (s.putGrid n x).symErrs = s.symErrs := rfl
@[simp] theorem putGrid_hubTlb1 (n : Nat) (x : Grid) : (s.putGrid n x).hubTlb1 = s.hubTlb1 := rfl
@[simp] theorem putGrid_peerBad (n : Nat) (x : Grid) : (s.putGrid n x).peerBad = s.peerBad := rfl
@[simp] theorem putGrid_peerPins (n : Nat) (x : Grid) : (s.putGrid n x).peerPins = s.peerPins := rfl
@[simp] theorem putGrid_peerFull (n : Nat) (x : Grid) : (s.putGrid n x).peerFull = s.peerFull := rfl
@[simp] theorem putGrid_peerq (n : Nat) (x : Grid) : (s.putGrid n x).peerq = s.peerq := rfl
@[simp] theorem putGrid_bringBad (n : Nat) (x : Grid) : (s.putGrid n x).bringBad = s.bringBad := rfl
@[simp] theorem putGrid_mappedOut (n : Nat) (x : Grid) : (s.putGrid n x).mappedOut = s.mappedOut := rfl
@[simp] theorem putGrid_cellErrs (n : Nat) (x : Grid) : (s.putGrid n x).cellErrs = s.cellErrs := rfl
@[simp] theorem putGrid_spare (n : Nat) (x : Grid) : (s.putGrid n x).spare = s.spare := rfl
@[simp] theorem putGrid_swap (n : Nat) (x : Grid) : (s.putGrid n x).swap = s.swap := rfl
@[simp] theorem putGrid_flashHub (n : Nat) (x : Grid) : (s.putGrid n x).flashHub = s.flashHub := rfl
@[simp] theorem putGrid_flashRec (n : Nat) (x : Grid) : (s.putGrid n x).flashRec = s.flashRec := rfl
@[simp] theorem putGrid_flashCur (n : Nat) (x : Grid) : (s.putGrid n x).flashCur = s.flashCur := rfl
@[simp] theorem putGrid_serial (n : Nat) (x : Grid) : (s.putGrid n x).serial = s.serial := rfl
@[simp] theorem putGrid_meas (n : Nat) (x : Grid) : (s.putGrid n x).meas = s.meas := rfl
@[simp] theorem putGrid_agenda (n : Nat) (x : Grid) : (s.putGrid n x).agenda = s.agenda := rfl
@[simp] theorem putGrid_cur (n : Nat) (x : Grid) : (s.putGrid n x).cur = s.cur := rfl
@[simp] theorem putGrid_free (n : Nat) (x : Grid) : (s.putGrid n x).free = s.free := rfl
@[simp] theorem putGrid_handles (n : Nat) (x : Grid) : (s.putGrid n x).handles = s.handles := rfl
@[simp] theorem putGrid_hostRead (n : Nat) (x : Grid) : (s.putGrid n x).hostRead = s.hostRead := rfl

/-! ### putCore -/

@[simp] theorem putCore_clk (c : Nat) (x : Core) : (s.putCore c x).clk = s.clk := rfl
@[simp] theorem putCore_dev (c : Nat) (x : Core) : (s.putCore c x).dev = s.dev := rfl
@[simp] theorem putCore_annex (c : Nat) (x : Core) : (s.putCore c x).annex = s.annex := rfl
@[simp] theorem putCore_peers (c : Nat) (x : Core) : (s.putCore c x).peers = s.peers := rfl
@[simp] theorem putCore_cfg (c : Nat) (x : Core) : (s.putCore c x).cfg = s.cfg := rfl
@[simp] theorem putCore_cores (c : Nat) (x : Core) : (s.putCore c x).cores = s.cores.set c x := rfl
@[simp] theorem putCore_teams (c : Nat) (x : Core) : (s.putCore c x).teams = s.teams := rfl
@[simp] theorem putCore_groups (c : Nat) (x : Core) : (s.putCore c x).groups = s.groups := rfl
@[simp] theorem putCore_grids (c : Nat) (x : Core) : (s.putCore c x).grids = s.grids := rfl
@[simp] theorem putCore_saved (c : Nat) (x : Core) : (s.putCore c x).saved = s.saved := rfl
@[simp] theorem putCore_ops (c : Nat) (x : Core) : (s.putCore c x).ops = s.ops := rfl
@[simp] theorem putCore_trackers (c : Nat) (x : Core) : (s.putCore c x).trackers = s.trackers := rfl
@[simp] theorem putCore_oq (c : Nat) (x : Core) : (s.putCore c x).oq = s.oq := rfl
@[simp] theorem putCore_oqSince (c : Nat) (x : Core) : (s.putCore c x).oqSince = s.oqSince := rfl
@[simp] theorem putCore_parts (c : Nat) (x : Core) : (s.putCore c x).parts = s.parts := rfl
@[simp] theorem putCore_clusters (c : Nat) (x : Core) : (s.putCore c x).clusters = s.clusters := rfl
@[simp] theorem putCore_interval (c : Nat) (x : Core) : (s.putCore c x).interval = s.interval := rfl
@[simp] theorem putCore_price (c : Nat) (x : Core) : (s.putCore c x).price = s.price := rfl
@[simp] theorem putCore_clockSet (c : Nat) (x : Core) : (s.putCore c x).clockSet = s.clockSet := rfl
@[simp] theorem putCore_mphase (c : Nat) (x : Core) : (s.putCore c x).mphase = s.mphase := rfl
@[simp] theorem putCore_mstart (c : Nat) (x : Core) : (s.putCore c x).mstart = s.mstart := rfl
@[simp] theorem putCore_hubTlb (c : Nat) (x : Core) : (s.putCore c x).hubTlb = s.hubTlb := rfl
@[simp] theorem putCore_msixMask (c : Nat) (x : Core) : (s.putCore c x).msixMask = s.msixMask := rfl
@[simp] theorem putCore_msixPend (c : Nat) (x : Core) : (s.putCore c x).msixPend = s.msixPend := rfl
@[simp] theorem putCore_msixSent (c : Nat) (x : Core) : (s.putCore c x).msixSent = s.msixSent := rfl
@[simp] theorem putCore_hostUp (c : Nat) (x : Core) : (s.putCore c x).hostUp = s.hostUp := rfl
@[simp] theorem putCore_modules (c : Nat) (x : Core) : (s.putCore c x).modules = s.modules := rfl
@[simp] theorem putCore_mfailed (c : Nat) (x : Core) : (s.putCore c x).mfailed = s.mfailed := rfl
@[simp] theorem putCore_nalmond (c : Nat) (x : Core) : (s.putCore c x).nalmond = s.nalmond := rfl
@[simp] theorem putCore_badRows (c : Nat) (x : Core) : (s.putCore c x).badRows = s.badRows := rfl
@[simp] theorem putCore_symErrs (c : Nat) (x : Core) : (s.putCore c x).symErrs = s.symErrs := rfl
@[simp] theorem putCore_hubTlb1 (c : Nat) (x : Core) : (s.putCore c x).hubTlb1 = s.hubTlb1 := rfl
@[simp] theorem putCore_peerBad (c : Nat) (x : Core) : (s.putCore c x).peerBad = s.peerBad := rfl
@[simp] theorem putCore_peerPins (c : Nat) (x : Core) : (s.putCore c x).peerPins = s.peerPins := rfl
@[simp] theorem putCore_peerFull (c : Nat) (x : Core) : (s.putCore c x).peerFull = s.peerFull := rfl
@[simp] theorem putCore_peerq (c : Nat) (x : Core) : (s.putCore c x).peerq = s.peerq := rfl
@[simp] theorem putCore_bringBad (c : Nat) (x : Core) : (s.putCore c x).bringBad = s.bringBad := rfl
@[simp] theorem putCore_mappedOut (c : Nat) (x : Core) : (s.putCore c x).mappedOut = s.mappedOut := rfl
@[simp] theorem putCore_cellErrs (c : Nat) (x : Core) : (s.putCore c x).cellErrs = s.cellErrs := rfl
@[simp] theorem putCore_spare (c : Nat) (x : Core) : (s.putCore c x).spare = s.spare := rfl
@[simp] theorem putCore_swap (c : Nat) (x : Core) : (s.putCore c x).swap = s.swap := rfl
@[simp] theorem putCore_flashHub (c : Nat) (x : Core) : (s.putCore c x).flashHub = s.flashHub := rfl
@[simp] theorem putCore_flashRec (c : Nat) (x : Core) : (s.putCore c x).flashRec = s.flashRec := rfl
@[simp] theorem putCore_flashCur (c : Nat) (x : Core) : (s.putCore c x).flashCur = s.flashCur := rfl
@[simp] theorem putCore_serial (c : Nat) (x : Core) : (s.putCore c x).serial = s.serial := rfl
@[simp] theorem putCore_meas (c : Nat) (x : Core) : (s.putCore c x).meas = s.meas := rfl
@[simp] theorem putCore_agenda (c : Nat) (x : Core) : (s.putCore c x).agenda = s.agenda := rfl
@[simp] theorem putCore_cur (c : Nat) (x : Core) : (s.putCore c x).cur = s.cur := rfl
@[simp] theorem putCore_free (c : Nat) (x : Core) : (s.putCore c x).free = s.free := rfl
@[simp] theorem putCore_handles (c : Nat) (x : Core) : (s.putCore c x).handles = s.handles := rfl
@[simp] theorem putCore_hostRead (c : Nat) (x : Core) : (s.putCore c x).hostRead = s.hostRead := rfl

/-! ### putPart -/

@[simp] theorem putPart_clk (p : Nat) (x : Part) : (s.putPart p x).clk = s.clk := rfl
@[simp] theorem putPart_dev (p : Nat) (x : Part) : (s.putPart p x).dev = s.dev := rfl
@[simp] theorem putPart_annex (p : Nat) (x : Part) : (s.putPart p x).annex = s.annex := rfl
@[simp] theorem putPart_peers (p : Nat) (x : Part) : (s.putPart p x).peers = s.peers := rfl
@[simp] theorem putPart_cfg (p : Nat) (x : Part) : (s.putPart p x).cfg = s.cfg := rfl
@[simp] theorem putPart_cores (p : Nat) (x : Part) : (s.putPart p x).cores = s.cores := rfl
@[simp] theorem putPart_teams (p : Nat) (x : Part) : (s.putPart p x).teams = s.teams := rfl
@[simp] theorem putPart_groups (p : Nat) (x : Part) : (s.putPart p x).groups = s.groups := rfl
@[simp] theorem putPart_grids (p : Nat) (x : Part) : (s.putPart p x).grids = s.grids := rfl
@[simp] theorem putPart_saved (p : Nat) (x : Part) : (s.putPart p x).saved = s.saved := rfl
@[simp] theorem putPart_ops (p : Nat) (x : Part) : (s.putPart p x).ops = s.ops := rfl
@[simp] theorem putPart_trackers (p : Nat) (x : Part) : (s.putPart p x).trackers = s.trackers := rfl
@[simp] theorem putPart_oq (p : Nat) (x : Part) : (s.putPart p x).oq = s.oq := rfl
@[simp] theorem putPart_oqSince (p : Nat) (x : Part) : (s.putPart p x).oqSince = s.oqSince := rfl
@[simp] theorem putPart_parts (p : Nat) (x : Part) : (s.putPart p x).parts = s.parts.set p x := rfl
@[simp] theorem putPart_clusters (p : Nat) (x : Part) : (s.putPart p x).clusters = s.clusters := rfl
@[simp] theorem putPart_interval (p : Nat) (x : Part) : (s.putPart p x).interval = s.interval := rfl
@[simp] theorem putPart_price (p : Nat) (x : Part) : (s.putPart p x).price = s.price := rfl
@[simp] theorem putPart_clockSet (p : Nat) (x : Part) : (s.putPart p x).clockSet = s.clockSet := rfl
@[simp] theorem putPart_mphase (p : Nat) (x : Part) : (s.putPart p x).mphase = s.mphase := rfl
@[simp] theorem putPart_mstart (p : Nat) (x : Part) : (s.putPart p x).mstart = s.mstart := rfl
@[simp] theorem putPart_hubTlb (p : Nat) (x : Part) : (s.putPart p x).hubTlb = s.hubTlb := rfl
@[simp] theorem putPart_msixMask (p : Nat) (x : Part) : (s.putPart p x).msixMask = s.msixMask := rfl
@[simp] theorem putPart_msixPend (p : Nat) (x : Part) : (s.putPart p x).msixPend = s.msixPend := rfl
@[simp] theorem putPart_msixSent (p : Nat) (x : Part) : (s.putPart p x).msixSent = s.msixSent := rfl
@[simp] theorem putPart_hostUp (p : Nat) (x : Part) : (s.putPart p x).hostUp = s.hostUp := rfl
@[simp] theorem putPart_modules (p : Nat) (x : Part) : (s.putPart p x).modules = s.modules := rfl
@[simp] theorem putPart_mfailed (p : Nat) (x : Part) : (s.putPart p x).mfailed = s.mfailed := rfl
@[simp] theorem putPart_nalmond (p : Nat) (x : Part) : (s.putPart p x).nalmond = s.nalmond := rfl
@[simp] theorem putPart_badRows (p : Nat) (x : Part) : (s.putPart p x).badRows = s.badRows := rfl
@[simp] theorem putPart_symErrs (p : Nat) (x : Part) : (s.putPart p x).symErrs = s.symErrs := rfl
@[simp] theorem putPart_hubTlb1 (p : Nat) (x : Part) : (s.putPart p x).hubTlb1 = s.hubTlb1 := rfl
@[simp] theorem putPart_peerBad (p : Nat) (x : Part) : (s.putPart p x).peerBad = s.peerBad := rfl
@[simp] theorem putPart_peerPins (p : Nat) (x : Part) : (s.putPart p x).peerPins = s.peerPins := rfl
@[simp] theorem putPart_peerFull (p : Nat) (x : Part) : (s.putPart p x).peerFull = s.peerFull := rfl
@[simp] theorem putPart_peerq (p : Nat) (x : Part) : (s.putPart p x).peerq = s.peerq := rfl
@[simp] theorem putPart_bringBad (p : Nat) (x : Part) : (s.putPart p x).bringBad = s.bringBad := rfl
@[simp] theorem putPart_mappedOut (p : Nat) (x : Part) : (s.putPart p x).mappedOut = s.mappedOut := rfl
@[simp] theorem putPart_cellErrs (p : Nat) (x : Part) : (s.putPart p x).cellErrs = s.cellErrs := rfl
@[simp] theorem putPart_spare (p : Nat) (x : Part) : (s.putPart p x).spare = s.spare := rfl
@[simp] theorem putPart_swap (p : Nat) (x : Part) : (s.putPart p x).swap = s.swap := rfl
@[simp] theorem putPart_flashHub (p : Nat) (x : Part) : (s.putPart p x).flashHub = s.flashHub := rfl
@[simp] theorem putPart_flashRec (p : Nat) (x : Part) : (s.putPart p x).flashRec = s.flashRec := rfl
@[simp] theorem putPart_flashCur (p : Nat) (x : Part) : (s.putPart p x).flashCur = s.flashCur := rfl
@[simp] theorem putPart_serial (p : Nat) (x : Part) : (s.putPart p x).serial = s.serial := rfl
@[simp] theorem putPart_meas (p : Nat) (x : Part) : (s.putPart p x).meas = s.meas := rfl
@[simp] theorem putPart_agenda (p : Nat) (x : Part) : (s.putPart p x).agenda = s.agenda := rfl
@[simp] theorem putPart_cur (p : Nat) (x : Part) : (s.putPart p x).cur = s.cur := rfl
@[simp] theorem putPart_free (p : Nat) (x : Part) : (s.putPart p x).free = s.free := rfl
@[simp] theorem putPart_handles (p : Nat) (x : Part) : (s.putPart p x).handles = s.handles := rfl
@[simp] theorem putPart_hostRead (p : Nat) (x : Part) : (s.putPart p x).hostRead = s.hostRead := rfl

/-! ### putCluster -/

@[simp] theorem putCluster_clk (c : Nat) (x : Cluster) : (s.putCluster c x).clk = s.clk := rfl
@[simp] theorem putCluster_dev (c : Nat) (x : Cluster) : (s.putCluster c x).dev = s.dev := rfl
@[simp] theorem putCluster_annex (c : Nat) (x : Cluster) : (s.putCluster c x).annex = s.annex := rfl
@[simp] theorem putCluster_peers (c : Nat) (x : Cluster) : (s.putCluster c x).peers = s.peers := rfl
@[simp] theorem putCluster_cfg (c : Nat) (x : Cluster) : (s.putCluster c x).cfg = s.cfg := rfl
@[simp] theorem putCluster_cores (c : Nat) (x : Cluster) : (s.putCluster c x).cores = s.cores := rfl
@[simp] theorem putCluster_teams (c : Nat) (x : Cluster) : (s.putCluster c x).teams = s.teams := rfl
@[simp] theorem putCluster_groups (c : Nat) (x : Cluster) : (s.putCluster c x).groups = s.groups := rfl
@[simp] theorem putCluster_grids (c : Nat) (x : Cluster) : (s.putCluster c x).grids = s.grids := rfl
@[simp] theorem putCluster_saved (c : Nat) (x : Cluster) : (s.putCluster c x).saved = s.saved := rfl
@[simp] theorem putCluster_ops (c : Nat) (x : Cluster) : (s.putCluster c x).ops = s.ops := rfl
@[simp] theorem putCluster_trackers (c : Nat) (x : Cluster) : (s.putCluster c x).trackers = s.trackers := rfl
@[simp] theorem putCluster_oq (c : Nat) (x : Cluster) : (s.putCluster c x).oq = s.oq := rfl
@[simp] theorem putCluster_oqSince (c : Nat) (x : Cluster) : (s.putCluster c x).oqSince = s.oqSince := rfl
@[simp] theorem putCluster_parts (c : Nat) (x : Cluster) : (s.putCluster c x).parts = s.parts := rfl
@[simp] theorem putCluster_clusters (c : Nat) (x : Cluster) : (s.putCluster c x).clusters = s.clusters.set c x := rfl
@[simp] theorem putCluster_interval (c : Nat) (x : Cluster) : (s.putCluster c x).interval = s.interval := rfl
@[simp] theorem putCluster_price (c : Nat) (x : Cluster) : (s.putCluster c x).price = s.price := rfl
@[simp] theorem putCluster_clockSet (c : Nat) (x : Cluster) : (s.putCluster c x).clockSet = s.clockSet := rfl
@[simp] theorem putCluster_mphase (c : Nat) (x : Cluster) : (s.putCluster c x).mphase = s.mphase := rfl
@[simp] theorem putCluster_mstart (c : Nat) (x : Cluster) : (s.putCluster c x).mstart = s.mstart := rfl
@[simp] theorem putCluster_hubTlb (c : Nat) (x : Cluster) : (s.putCluster c x).hubTlb = s.hubTlb := rfl
@[simp] theorem putCluster_msixMask (c : Nat) (x : Cluster) : (s.putCluster c x).msixMask = s.msixMask := rfl
@[simp] theorem putCluster_msixPend (c : Nat) (x : Cluster) : (s.putCluster c x).msixPend = s.msixPend := rfl
@[simp] theorem putCluster_msixSent (c : Nat) (x : Cluster) : (s.putCluster c x).msixSent = s.msixSent := rfl
@[simp] theorem putCluster_hostUp (c : Nat) (x : Cluster) : (s.putCluster c x).hostUp = s.hostUp := rfl
@[simp] theorem putCluster_modules (c : Nat) (x : Cluster) : (s.putCluster c x).modules = s.modules := rfl
@[simp] theorem putCluster_mfailed (c : Nat) (x : Cluster) : (s.putCluster c x).mfailed = s.mfailed := rfl
@[simp] theorem putCluster_nalmond (c : Nat) (x : Cluster) : (s.putCluster c x).nalmond = s.nalmond := rfl
@[simp] theorem putCluster_badRows (c : Nat) (x : Cluster) : (s.putCluster c x).badRows = s.badRows := rfl
@[simp] theorem putCluster_symErrs (c : Nat) (x : Cluster) : (s.putCluster c x).symErrs = s.symErrs := rfl
@[simp] theorem putCluster_hubTlb1 (c : Nat) (x : Cluster) : (s.putCluster c x).hubTlb1 = s.hubTlb1 := rfl
@[simp] theorem putCluster_peerBad (c : Nat) (x : Cluster) : (s.putCluster c x).peerBad = s.peerBad := rfl
@[simp] theorem putCluster_peerPins (c : Nat) (x : Cluster) : (s.putCluster c x).peerPins = s.peerPins := rfl
@[simp] theorem putCluster_peerFull (c : Nat) (x : Cluster) : (s.putCluster c x).peerFull = s.peerFull := rfl
@[simp] theorem putCluster_peerq (c : Nat) (x : Cluster) : (s.putCluster c x).peerq = s.peerq := rfl
@[simp] theorem putCluster_bringBad (c : Nat) (x : Cluster) : (s.putCluster c x).bringBad = s.bringBad := rfl
@[simp] theorem putCluster_mappedOut (c : Nat) (x : Cluster) : (s.putCluster c x).mappedOut = s.mappedOut := rfl
@[simp] theorem putCluster_cellErrs (c : Nat) (x : Cluster) : (s.putCluster c x).cellErrs = s.cellErrs := rfl
@[simp] theorem putCluster_spare (c : Nat) (x : Cluster) : (s.putCluster c x).spare = s.spare := rfl
@[simp] theorem putCluster_swap (c : Nat) (x : Cluster) : (s.putCluster c x).swap = s.swap := rfl
@[simp] theorem putCluster_flashHub (c : Nat) (x : Cluster) : (s.putCluster c x).flashHub = s.flashHub := rfl
@[simp] theorem putCluster_flashRec (c : Nat) (x : Cluster) : (s.putCluster c x).flashRec = s.flashRec := rfl
@[simp] theorem putCluster_flashCur (c : Nat) (x : Cluster) : (s.putCluster c x).flashCur = s.flashCur := rfl
@[simp] theorem putCluster_serial (c : Nat) (x : Cluster) : (s.putCluster c x).serial = s.serial := rfl
@[simp] theorem putCluster_meas (c : Nat) (x : Cluster) : (s.putCluster c x).meas = s.meas := rfl
@[simp] theorem putCluster_agenda (c : Nat) (x : Cluster) : (s.putCluster c x).agenda = s.agenda := rfl
@[simp] theorem putCluster_cur (c : Nat) (x : Cluster) : (s.putCluster c x).cur = s.cur := rfl
@[simp] theorem putCluster_free (c : Nat) (x : Cluster) : (s.putCluster c x).free = s.free := rfl
@[simp] theorem putCluster_handles (c : Nat) (x : Cluster) : (s.putCluster c x).handles = s.handles := rfl
@[simp] theorem putCluster_hostRead (c : Nat) (x : Cluster) : (s.putCluster c x).hostRead = s.hostRead := rfl

/-! ### putOp -/

@[simp] theorem putOp_clk (h : Nat) (o : Op) : (s.putOp h o).clk = s.clk := rfl
@[simp] theorem putOp_dev (h : Nat) (o : Op) : (s.putOp h o).dev = s.dev := rfl
@[simp] theorem putOp_annex (h : Nat) (o : Op) : (s.putOp h o).annex = s.annex := rfl
@[simp] theorem putOp_peers (h : Nat) (o : Op) : (s.putOp h o).peers = s.peers := rfl
@[simp] theorem putOp_cfg (h : Nat) (o : Op) : (s.putOp h o).cfg = s.cfg := rfl
@[simp] theorem putOp_cores (h : Nat) (o : Op) : (s.putOp h o).cores = s.cores := rfl
@[simp] theorem putOp_teams (h : Nat) (o : Op) : (s.putOp h o).teams = s.teams := rfl
@[simp] theorem putOp_groups (h : Nat) (o : Op) : (s.putOp h o).groups = s.groups := rfl
@[simp] theorem putOp_grids (h : Nat) (o : Op) : (s.putOp h o).grids = s.grids := rfl
@[simp] theorem putOp_saved (h : Nat) (o : Op) : (s.putOp h o).saved = s.saved := rfl
@[simp] theorem putOp_ops (h : Nat) (o : Op) : (s.putOp h o).ops = s.ops.set h o := rfl
@[simp] theorem putOp_trackers (h : Nat) (o : Op) : (s.putOp h o).trackers = s.trackers := rfl
@[simp] theorem putOp_oq (h : Nat) (o : Op) : (s.putOp h o).oq = s.oq := rfl
@[simp] theorem putOp_oqSince (h : Nat) (o : Op) : (s.putOp h o).oqSince = s.oqSince := rfl
@[simp] theorem putOp_parts (h : Nat) (o : Op) : (s.putOp h o).parts = s.parts := rfl
@[simp] theorem putOp_clusters (h : Nat) (o : Op) : (s.putOp h o).clusters = s.clusters := rfl
@[simp] theorem putOp_interval (h : Nat) (o : Op) : (s.putOp h o).interval = s.interval := rfl
@[simp] theorem putOp_price (h : Nat) (o : Op) : (s.putOp h o).price = s.price := rfl
@[simp] theorem putOp_clockSet (h : Nat) (o : Op) : (s.putOp h o).clockSet = s.clockSet := rfl
@[simp] theorem putOp_mphase (h : Nat) (o : Op) : (s.putOp h o).mphase = s.mphase := rfl
@[simp] theorem putOp_mstart (h : Nat) (o : Op) : (s.putOp h o).mstart = s.mstart := rfl
@[simp] theorem putOp_hubTlb (h : Nat) (o : Op) : (s.putOp h o).hubTlb = s.hubTlb := rfl
@[simp] theorem putOp_msixMask (h : Nat) (o : Op) : (s.putOp h o).msixMask = s.msixMask := rfl
@[simp] theorem putOp_msixPend (h : Nat) (o : Op) : (s.putOp h o).msixPend = s.msixPend := rfl
@[simp] theorem putOp_msixSent (h : Nat) (o : Op) : (s.putOp h o).msixSent = s.msixSent := rfl
@[simp] theorem putOp_hostUp (h : Nat) (o : Op) : (s.putOp h o).hostUp = s.hostUp := rfl
@[simp] theorem putOp_modules (h : Nat) (o : Op) : (s.putOp h o).modules = s.modules := rfl
@[simp] theorem putOp_mfailed (h : Nat) (o : Op) : (s.putOp h o).mfailed = s.mfailed := rfl
@[simp] theorem putOp_nalmond (h : Nat) (o : Op) : (s.putOp h o).nalmond = s.nalmond := rfl
@[simp] theorem putOp_badRows (h : Nat) (o : Op) : (s.putOp h o).badRows = s.badRows := rfl
@[simp] theorem putOp_symErrs (h : Nat) (o : Op) : (s.putOp h o).symErrs = s.symErrs := rfl
@[simp] theorem putOp_hubTlb1 (h : Nat) (o : Op) : (s.putOp h o).hubTlb1 = s.hubTlb1 := rfl
@[simp] theorem putOp_peerBad (h : Nat) (o : Op) : (s.putOp h o).peerBad = s.peerBad := rfl
@[simp] theorem putOp_peerPins (h : Nat) (o : Op) : (s.putOp h o).peerPins = s.peerPins := rfl
@[simp] theorem putOp_peerFull (h : Nat) (o : Op) : (s.putOp h o).peerFull = s.peerFull := rfl
@[simp] theorem putOp_peerq (h : Nat) (o : Op) : (s.putOp h o).peerq = s.peerq := rfl
@[simp] theorem putOp_bringBad (h : Nat) (o : Op) : (s.putOp h o).bringBad = s.bringBad := rfl
@[simp] theorem putOp_mappedOut (h : Nat) (o : Op) : (s.putOp h o).mappedOut = s.mappedOut := rfl
@[simp] theorem putOp_cellErrs (h : Nat) (o : Op) : (s.putOp h o).cellErrs = s.cellErrs := rfl
@[simp] theorem putOp_spare (h : Nat) (o : Op) : (s.putOp h o).spare = s.spare := rfl
@[simp] theorem putOp_swap (h : Nat) (o : Op) : (s.putOp h o).swap = s.swap := rfl
@[simp] theorem putOp_flashHub (h : Nat) (o : Op) : (s.putOp h o).flashHub = s.flashHub := rfl
@[simp] theorem putOp_flashRec (h : Nat) (o : Op) : (s.putOp h o).flashRec = s.flashRec := rfl
@[simp] theorem putOp_flashCur (h : Nat) (o : Op) : (s.putOp h o).flashCur = s.flashCur := rfl
@[simp] theorem putOp_serial (h : Nat) (o : Op) : (s.putOp h o).serial = s.serial := rfl
@[simp] theorem putOp_meas (h : Nat) (o : Op) : (s.putOp h o).meas = s.meas := rfl
@[simp] theorem putOp_agenda (h : Nat) (o : Op) : (s.putOp h o).agenda = s.agenda := rfl
@[simp] theorem putOp_cur (h : Nat) (o : Op) : (s.putOp h o).cur = s.cur := rfl
@[simp] theorem putOp_free (h : Nat) (o : Op) : (s.putOp h o).free = s.free := rfl
@[simp] theorem putOp_handles (h : Nat) (o : Op) : (s.putOp h o).handles = s.handles := rfl
@[simp] theorem putOp_hostRead (h : Nat) (o : Op) : (s.putOp h o).hostRead = s.hostRead := rfl

/-! ### setCfgW -/

@[simp] theorem setCfgW_clk (a b c : Nat) (v : Word) : (s.setCfgW a b c v).clk = s.clk := rfl
@[simp] theorem setCfgW_dev (a b c : Nat) (v : Word) : (s.setCfgW a b c v).dev = s.dev := rfl
@[simp] theorem setCfgW_annex (a b c : Nat) (v : Word) : (s.setCfgW a b c v).annex = s.annex := rfl
@[simp] theorem setCfgW_peers (a b c : Nat) (v : Word) : (s.setCfgW a b c v).peers = s.peers := rfl
@[simp] theorem setCfgW_cfg (a b c : Nat) (v : Word) : (s.setCfgW a b c v).cfg = s.cfg.set (cfgKey a b c) v := rfl
@[simp] theorem setCfgW_cores (a b c : Nat) (v : Word) : (s.setCfgW a b c v).cores = s.cores := rfl
@[simp] theorem setCfgW_teams (a b c : Nat) (v : Word) : (s.setCfgW a b c v).teams = s.teams := rfl
@[simp] theorem setCfgW_groups (a b c : Nat) (v : Word) : (s.setCfgW a b c v).groups = s.groups := rfl
@[simp] theorem setCfgW_grids (a b c : Nat) (v : Word) : (s.setCfgW a b c v).grids = s.grids := rfl
@[simp] theorem setCfgW_saved (a b c : Nat) (v : Word) : (s.setCfgW a b c v).saved = s.saved := rfl
@[simp] theorem setCfgW_ops (a b c : Nat) (v : Word) : (s.setCfgW a b c v).ops = s.ops := rfl
@[simp] theorem setCfgW_trackers (a b c : Nat) (v : Word) : (s.setCfgW a b c v).trackers = s.trackers := rfl
@[simp] theorem setCfgW_oq (a b c : Nat) (v : Word) : (s.setCfgW a b c v).oq = s.oq := rfl
@[simp] theorem setCfgW_oqSince (a b c : Nat) (v : Word) : (s.setCfgW a b c v).oqSince = s.oqSince := rfl
@[simp] theorem setCfgW_parts (a b c : Nat) (v : Word) : (s.setCfgW a b c v).parts = s.parts := rfl
@[simp] theorem setCfgW_clusters (a b c : Nat) (v : Word) : (s.setCfgW a b c v).clusters = s.clusters := rfl
@[simp] theorem setCfgW_interval (a b c : Nat) (v : Word) : (s.setCfgW a b c v).interval = s.interval := rfl
@[simp] theorem setCfgW_price (a b c : Nat) (v : Word) : (s.setCfgW a b c v).price = s.price := rfl
@[simp] theorem setCfgW_clockSet (a b c : Nat) (v : Word) : (s.setCfgW a b c v).clockSet = s.clockSet := rfl
@[simp] theorem setCfgW_mphase (a b c : Nat) (v : Word) : (s.setCfgW a b c v).mphase = s.mphase := rfl
@[simp] theorem setCfgW_mstart (a b c : Nat) (v : Word) : (s.setCfgW a b c v).mstart = s.mstart := rfl
@[simp] theorem setCfgW_hubTlb (a b c : Nat) (v : Word) : (s.setCfgW a b c v).hubTlb = s.hubTlb := rfl
@[simp] theorem setCfgW_msixMask (a b c : Nat) (v : Word) : (s.setCfgW a b c v).msixMask = s.msixMask := rfl
@[simp] theorem setCfgW_msixPend (a b c : Nat) (v : Word) : (s.setCfgW a b c v).msixPend = s.msixPend := rfl
@[simp] theorem setCfgW_msixSent (a b c : Nat) (v : Word) : (s.setCfgW a b c v).msixSent = s.msixSent := rfl
@[simp] theorem setCfgW_hostUp (a b c : Nat) (v : Word) : (s.setCfgW a b c v).hostUp = s.hostUp := rfl
@[simp] theorem setCfgW_modules (a b c : Nat) (v : Word) : (s.setCfgW a b c v).modules = s.modules := rfl
@[simp] theorem setCfgW_mfailed (a b c : Nat) (v : Word) : (s.setCfgW a b c v).mfailed = s.mfailed := rfl
@[simp] theorem setCfgW_nalmond (a b c : Nat) (v : Word) : (s.setCfgW a b c v).nalmond = s.nalmond := rfl
@[simp] theorem setCfgW_badRows (a b c : Nat) (v : Word) : (s.setCfgW a b c v).badRows = s.badRows := rfl
@[simp] theorem setCfgW_symErrs (a b c : Nat) (v : Word) : (s.setCfgW a b c v).symErrs = s.symErrs := rfl
@[simp] theorem setCfgW_hubTlb1 (a b c : Nat) (v : Word) : (s.setCfgW a b c v).hubTlb1 = s.hubTlb1 := rfl
@[simp] theorem setCfgW_peerBad (a b c : Nat) (v : Word) : (s.setCfgW a b c v).peerBad = s.peerBad := rfl
@[simp] theorem setCfgW_peerPins (a b c : Nat) (v : Word) : (s.setCfgW a b c v).peerPins = s.peerPins := rfl
@[simp] theorem setCfgW_peerFull (a b c : Nat) (v : Word) : (s.setCfgW a b c v).peerFull = s.peerFull := rfl
@[simp] theorem setCfgW_peerq (a b c : Nat) (v : Word) : (s.setCfgW a b c v).peerq = s.peerq := rfl
@[simp] theorem setCfgW_bringBad (a b c : Nat) (v : Word) : (s.setCfgW a b c v).bringBad = s.bringBad := rfl
@[simp] theorem setCfgW_mappedOut (a b c : Nat) (v : Word) : (s.setCfgW a b c v).mappedOut = s.mappedOut := rfl
@[simp] theorem setCfgW_cellErrs (a b c : Nat) (v : Word) : (s.setCfgW a b c v).cellErrs = s.cellErrs := rfl
@[simp] theorem setCfgW_spare (a b c : Nat) (v : Word) : (s.setCfgW a b c v).spare = s.spare := rfl
@[simp] theorem setCfgW_swap (a b c : Nat) (v : Word) : (s.setCfgW a b c v).swap = s.swap := rfl
@[simp] theorem setCfgW_flashHub (a b c : Nat) (v : Word) : (s.setCfgW a b c v).flashHub = s.flashHub := rfl
@[simp] theorem setCfgW_flashRec (a b c : Nat) (v : Word) : (s.setCfgW a b c v).flashRec = s.flashRec := rfl
@[simp] theorem setCfgW_flashCur (a b c : Nat) (v : Word) : (s.setCfgW a b c v).flashCur = s.flashCur := rfl
@[simp] theorem setCfgW_serial (a b c : Nat) (v : Word) : (s.setCfgW a b c v).serial = s.serial := rfl
@[simp] theorem setCfgW_meas (a b c : Nat) (v : Word) : (s.setCfgW a b c v).meas = s.meas := rfl
@[simp] theorem setCfgW_agenda (a b c : Nat) (v : Word) : (s.setCfgW a b c v).agenda = s.agenda := rfl
@[simp] theorem setCfgW_cur (a b c : Nat) (v : Word) : (s.setCfgW a b c v).cur = s.cur := rfl
@[simp] theorem setCfgW_free (a b c : Nat) (v : Word) : (s.setCfgW a b c v).free = s.free := rfl
@[simp] theorem setCfgW_handles (a b c : Nat) (v : Word) : (s.setCfgW a b c v).handles = s.handles := rfl
@[simp] theorem setCfgW_hostRead (a b c : Nat) (v : Word) : (s.setCfgW a b c v).hostRead = s.hostRead := rfl

/-! ### Reading a table after a put -/

theorem group_key_ne {t i t' i' : Nat} (hi : i < 64) (hi' : i' < 64) (h : t ≠ t' ∨ i ≠ i') : 64 * t + i ≠ 64 * t' + i' := by omega

@[simp] theorem group_putGroup (t i : Nat) (x : Group) : (s.putGroup t i x).group t i = some x := Tab.get_set_same _ _ _
theorem group_putGroup_ne {t i t' i' : Nat} (h : 64 * t' + i' ≠ 64 * t + i) (x : Group) : (s.putGroup t i x).group t' i' = s.group t' i' :=
  Tab.get_set_ne _ h _
@[simp] theorem team_putTeam (t : Nat) (x : Team) : (s.putTeam t x).team t = some x := Tab.get_set_same _ _ _
theorem team_putTeam_ne {t u : Nat} (h : u ≠ t) (x : Team) : (s.putTeam t x).team u = s.team u := Tab.get_set_ne _ h _
@[simp] theorem grid_putGrid (n : Nat) (x : Grid) : (s.putGrid n x).grid n = some x := Tab.get_set_same _ _ _
theorem grid_putGrid_ne {n m : Nat} (h : m ≠ n) (x : Grid) : (s.putGrid n x).grid m = s.grid m := Tab.get_set_ne _ h _
@[simp] theorem core_putCore (c : Nat) (x : Core) : (s.putCore c x).core c = x := by simp [core]
theorem core_putCore_ne {c d : Nat} (h : d ≠ c) (x : Core) : (s.putCore c x).core d = s.core d := by simp [core, Tab.get_set_ne _ h]
@[simp] theorem part_putPart (p : Nat) (x : Part) : (s.putPart p x).part p = x := by simp [part]
theorem part_putPart_ne {p q : Nat} (h : q ≠ p) (x : Part) : (s.putPart p x).part q = s.part q := by simp [part, Tab.get_set_ne _ h]
@[simp] theorem cluster_putCluster (c : Nat) (x : Cluster) : (s.putCluster c x).cluster c = x := by simp [cluster]
theorem cluster_putCluster_ne {c d : Nat} (h : d ≠ c) (x : Cluster) : (s.putCluster c x).cluster d = s.cluster d := by
  simp [cluster, Tab.get_set_ne _ h]
@[simp] theorem mapCore_core (c : Nat) (f : Core → Core) : (s.mapCore c f).core c = f (s.core c) := by simp [mapCore]
@[simp] theorem mapPart_part (p : Nat) (f : Part → Part) : (s.mapPart p f).part p = f (s.part p) := by simp [mapPart]
theorem mapGroup_some {t i : Nat} {g : Group} (h : s.group t i = some g) (f : Group → Group) : s.mapGroup t i f = s.putGroup t i (f g) := by
  simp [mapGroup, h]
theorem mapTeam_some {t : Nat} {x : Team} (h : s.team t = some x) (f : Team → Team) : s.mapTeam t f = s.putTeam t (f x) := by
  simp [mapTeam, h]

/-- A configuration word reads as it was written, and the others as before. -/
@[simp] theorem cfgW_setCfgW (hw : s.cfg.wf = true) (a b c : Nat) (v : Word) : (s.setCfgW a b c v).cfgW a b c = v := Cells.get_set_same hw _ _
theorem cfgW_setCfgW_ne (hw : s.cfg.wf = true) {a b c a' b' c' : Nat} (h : cfgKey a' b' c' ≠ cfgKey a b c) (v : Word) :
    (s.setCfgW a b c v).cfgW a' b' c' = s.cfgW a' b' c' := Cells.get_set_ne h hw _

end State

end Sys2Proof.Machine
end

