-- ==== Sys2Proof/Laws/Regs.lean ====
section
/-! SUPPORT. What the register operations do: a group without results on their way, a scalar result, moving on. -/

namespace Sys2Proof.Machine

open Sys2Proof

namespace Group

variable {g : Group}

theorem settle_idle (h : g.Idle) : g.settle = g := by
  unfold Idle at h
  unfold settle
  simp only [h, List.filter_nil, List.foldl_nil]
  rw [← h]

/-- One instruction issues while no result is on its way: only the marks of the issue change. -/
theorem tick_idle (h : g.Idle) (lane : Bool) : g.tick lane = { g with moved := true, stall := none } := by
  unfold Idle at h
  unfold tick
  rw [settle_idle (by simp [Idle, h])]
  simp [h]

theorem claim_idle (h : g.Idle) (r : RegRef) (m : LaneMask) : g.claim r m = g := by
  unfold Idle at h
  unfold claim
  simp only [h, List.map_nil]
  rw [← h]

theorem writeS_idle (h : g.Idle) (r : Nat) (v : Word) : g.writeS r v = { g with s := if r = 0 then g.s else g.s.set r v } := by
  unfold writeS
  split
  · rfl
  · rw [claim_idle h]

theorem readS_idle (h : g.Idle) (lane : Bool) (r : Nat) : g.readS lane r = if r = 0 then 0 else g.s.get r := by
  unfold Idle at h
  unfold readS
  simp [h]

theorem readV_idle (h : g.Idle) (lane : Bool) (r l : Nat) : g.readV lane r l = g.v.get (96 * r + l) := by
  unfold Idle at h
  simp [readV, seenV, h]

/-- Register r holds no form, and no codeword of the group is uncorrectable: lanes take their words. -/
theorem putLanes_plain {r : Nat} (hb : g.badV = []) (hd : g.deferred r = false) (m : LaneMask) (f : Nat → Word) :
    g.putLanes r m f = { g with v := (lanesOf m).foldl (fun v l => v.set (96 * r + l) (f l)) g.v } := by
  simp [putLanes, rowsWritten, hb, hd]

theorem writeV_idle (h : g.Idle) {r : Nat} (hb : g.badV = []) (hd : g.deferred r = false) (m : LaneMask) (f : Nat → Word) :
    g.writeV r m f = { g with v := (lanesOf m).foldl (fun v l => v.set (96 * r + l) (f l)) g.v } := by
  unfold writeV
  rw [claim_idle h, putLanes_plain hb hd]

theorem blocked_idle (h : g.Idle) (lane : Bool) (r : RegRef) : g.blocked lane r = false := by
  unfold Idle at h
  simp [blocked, h]

/-- s0 reads as zero, whatever the group holds (03 R59). -/
@[simp] theorem readS_zero (g : Group) (lane : Bool) : g.readS lane 0 = 0 := by simp [readS]

end Group

namespace State

variable {s : State} {t i : Nat} {g : Group}

theorem sreg_group (h : s.Issuer t i g) (r : SReg) : s.sreg r = g.readS false r.toNat := by
  simp [sreg, h.cur, h.here]

theorem spc_group (h : s.Issuer t i g) : s.spc = g.spc := by
  simp [spc, h.cur, h.here]

theorem present_group (h : s.Issuer t i g) : s.present = true := by
  simp [present, h.cur, h.here]

theorem held_idle (h : s.Issuer t i g) (hi : g.Idle) (rs : List SReg) : s.held rs = false := by
  simp [held, h.cur, h.here, Group.blocked_idle hi]

theorem byGroup_group (h : s.Issuer t i g) (k : Nat → Nat → Group → Out) : s.byGroup k = k t i g := by
  simp [byGroup, h.cur, h.here]

theorem setS_group (h : s.Issuer t i g) (d : SReg) (v : Word) : s.setS d v = s.putGroup t i (g.writeS d.toNat v) := by
  simp [setS, h.cur, mapGroup, h.here]

theorem jump_group (h : s.Issuer t i g) (pc : DWord) :
    s.jump pc = s.putGroup t i (({ g with spc := pc, reissue := none } : Group).tick false) := by
  simp [jump, h.cur, mapGroup, h.here]

theorem advance_group (h : s.Issuer t i g) (len : Nat) :
    s.advance len = s.putGroup t i (({ g with spc := g.spc + BitVec.ofNat 64 len, reissue := none } : Group).tick false) := by
  rw [advance, spc_group h, jump_group h]

theorem Issuer.put (h : s.Issuer t i g) (g' : Group) : (s.putGroup t i g').Issuer t i g' := ⟨h.cur, by simp⟩

@[simp] theorem putGroup_putGroup (s : State) (t i : Nat) (a b : Group) : (s.putGroup t i a).putGroup t i b = s.putGroup t i b := by
  have key : ∀ m : Tab Group, ∀ k a b, Tab.set (Tab.set m k a) k b = Tab.set m k b := fun m k a b => by
    induction m with
    | nil => simp [Tab.set]
    | cons e r ih =>
      obtain ⟨j, u⟩ := e
      simp only [Tab.set]
      split_ifs with h1 h2
      · simp [Tab.set]
      · simp [Tab.set]
      · simp [Tab.set, h1, h2, ih]
  simp [putGroup, key]

/-- The group of a scalar result: sd, the SPC and the marks of the issue. -/
theorem setS_advance_group (h : s.Issuer t i g) (hi : g.Idle) (d : SReg) (v : Word) (len : Nat) :
    (s.setS d v).advance len = s.putGroup t i { g with
      s := if d.toNat = 0 then g.s else g.s.set d.toNat v, spc := g.spc + BitVec.ofNat 64 len, reissue := none, moved := true, stall := none } := by
  rw [setS_group h, advance_group (h.put _), Group.writeS_idle hi, Group.tick_idle (by simpa [Group.Idle] using hi)]
  simp

theorem setPair_group (h : s.Issuer t i g) (hi : g.Idle) (d : SReg) (v : DWord) :
    s.setPair d v = s.putGroup t i { g with
      s := (fun m : Cells 32 => if (d + 1).toNat = 0 then m else m.set (d + 1).toNat (v.extractLsb' 32 32))
        (if d.toNat = 0 then g.s else g.s.set d.toNat (v.extractLsb' 0 32)) } := by
  rw [setPair, setS_group h, setS_group (h.put _), Group.writeS_idle hi, Group.writeS_idle (by simpa [Group.Idle] using hi)]
  simp

theorem sreg_curator {c : Nat} (h : s.Curates c) (r : SReg) : s.sreg r = if r = 0 then 0 else (s.core c).s.get r.toNat := by
  unfold Curates at h
  simp [sreg, h]

/-- Putting a group whose spill stack is the same changes no byte of memory. -/
theorem memorySame_putGroup (h : s.group t i = some g) {g' : Group} (hs : g'.spill = g.spill) : s.MemorySame (s.putGroup t i g') := by
  intro l
  have hst : (s.putGroup t i g').stored l = s.stored l := by
    cases l with
    | spill u j o =>
      simp only [stored]
      by_cases hk : 64 * u + j = 64 * t + i
      · have h1 : (s.putGroup t i g').group u j = some g' := by
          unfold group putGroup; rw [hk]; exact Tab.get_set_same _ _ _
        have h2 : s.group u j = some g := by unfold group at *; rw [hk]; exact h
        simp [h1, h2, hs]
      · rw [group_putGroup_ne _ hk]
    | _ => rfl
  have hu : (s.putGroup t i g').uncorrectable l = s.uncorrectable l := by
    unfold uncorrectable linkLost
    cases l <;> rfl
  simp only [byteAt, hst, hu]

end State

end Sys2Proof.Machine
end

