-- ==== Sys2Proof/Laws/Ops.lean ====
section
/-! SUPPORT. What the shared operations of Machine/Ops.lean can do, one lemma each: the stores they keep canonical or leave alone,
what a store writes and what it leaves, what taking a fault does to the group. -/

namespace Sys2Proof.Machine

open Sys2Proof

/-! ### The stores of the device -/

namespace State

/-- The four stores of the device are the same data. -/
def SameStores (s s' : State) : Prop := s'.dev = s.dev ∧ s'.annex = s.annex ∧ s'.peers = s.peers ∧ s'.cfg = s.cfg

namespace SameStores
theorem refl (s : State) : s.SameStores s := ⟨rfl, rfl, rfl, rfl⟩
theorem trans {a b c : State} (h : a.SameStores b) (k : b.SameStores c) : a.SameStores c :=
  ⟨k.1.trans h.1, k.2.1.trans h.2.1, k.2.2.1.trans h.2.2.1, k.2.2.2.trans h.2.2.2⟩
theorem wf {a b : State} (h : a.SameStores b) (k : a.StoresWf) : b.StoresWf :=
  ⟨h.1 ▸ k.1, h.2.1 ▸ k.2.1, h.2.2.1 ▸ k.2.2.1, h.2.2.2 ▸ k.2.2.2⟩
end SameStores

/-- A fold of steps that keep the stores keeps them. -/
theorem foldl_sameStores {α : Type} (f : State → α → State) (hf : ∀ (s : State) a, s.SameStores (f s a)) (l : List α) (s : State) :
    s.SameStores (l.foldl f s) := by
  induction l generalizing s with
  | nil => exact .refl s
  | cons a l ih => exact (hf s a).trans (ih (f s a))

/-- The same, after what has kept them. -/
theorem SameStores.foldl {α : Type} {f : State → α → State} {a b : State} (h : a.SameStores b) {l : List α}
    (hf : ∀ (s : State) x, s.SameStores (f s x)) : a.SameStores (l.foldl f b) := h.trans (foldl_sameStores f hf l b)

/-- A fold of steps that keep the canonical form keeps it. -/
theorem foldl_storesWf {α : Type} (f : State → α → State) (hf : ∀ (s : State) a, s.StoresWf → (f s a).StoresWf) (l : List α) (s : State)
    (h : s.StoresWf) : (l.foldl f s).StoresWf := by
  induction l generalizing s with
  | nil => exact h
  | cons a l ih => exact ih _ (hf s a h)

variable (s : State)

theorem putGroup_stores (t i : Nat) (g : Group) : s.SameStores (s.putGroup t i g) := ⟨rfl, rfl, rfl, rfl⟩
theorem putTeam_stores (t : Nat) (x : Team) : s.SameStores (s.putTeam t x) := ⟨rfl, rfl, rfl, rfl⟩
theorem putGrid_stores (g : Nat) (x : Grid) : s.SameStores (s.putGrid g x) := ⟨rfl, rfl, rfl, rfl⟩
theorem putCore_stores (c : Nat) (x : Core) : s.SameStores (s.putCore c x) := ⟨rfl, rfl, rfl, rfl⟩
theorem putPart_stores (p : Nat) (x : Part) : s.SameStores (s.putPart p x) := ⟨rfl, rfl, rfl, rfl⟩
theorem putCluster_stores (c : Nat) (x : Cluster) : s.SameStores (s.putCluster c x) := ⟨rfl, rfl, rfl, rfl⟩
theorem putOp_stores (h : Nat) (o : Op) : s.SameStores (s.putOp h o) := ⟨rfl, rfl, rfl, rfl⟩
theorem mapCore_stores (c : Nat) (f : Core → Core) : s.SameStores (s.mapCore c f) := ⟨rfl, rfl, rfl, rfl⟩
theorem mapPart_stores (p : Nat) (f : Part → Part) : s.SameStores (s.mapPart p f) := ⟨rfl, rfl, rfl, rfl⟩
theorem mapGroup_stores (t i : Nat) (f : Group → Group) : s.SameStores (s.mapGroup t i f) := by
  unfold mapGroup; split
  · exact putGroup_stores ..
  · exact .refl s
theorem mapTeam_stores (t : Nat) (f : Team → Team) : s.SameStores (s.mapTeam t f) := by
  unfold mapTeam; split
  · exact putTeam_stores ..
  · exact .refl s
theorem draw_stores : s.SameStores s.draw.2 := ⟨rfl, rfl, rfl, rfl⟩
theorem msix_stores (v : Nat) : s.SameStores (s.msix v) := by unfold msix; split <;> exact ⟨rfl, rfl, rfl, rfl⟩

/-- A configuration write keeps the canonical form. -/
theorem setCfgW_wf (h : s.StoresWf) (a b c : Nat) (v : Word) : (s.setCfgW a b c v).StoresWf :=
  ⟨h.1, h.2.1, h.2.2.1, Cells.set_wf h.2.2.2 _ _⟩

/-- Writing a machine-check record changes configuration words only, and keeps their canonical form. -/
theorem machineCheck_wf (h : s.StoresWf) (m : Mc) : (s.machineCheck m).StoresWf := by
  unfold machineCheck
  refine (msix_stores _ 1).wf ?_
  have h1 := foldl_storesWf (fun (s' : State) i => s'.setCfgW 1 m.die
    (0x800 + 32 * ((s.cfgW 1 m.die 0x7F0).toNat % 32) + 4 * i) (BitVec.ofNat 32 (m.bits s.clk / 2 ^ (32 * i))))
    (fun s a hs => setCfgW_wf s hs _ _ _ _) (List.range 8) s h
  split
  · exact setCfgW_wf _ h1 _ _ _ _
  · exact setCfgW_wf _ (setCfgW_wf _ h1 _ _ _ _) _ _ _ _

/-! ### Operations that touch no store -/

theorem sfuWrite_stores (h : Nat) : s.SameStores (s.sfuWrite h) := by
  unfold sfuWrite
  split
  · split
    · simp only
      split
      · split <;> exact ⟨rfl, rfl, rfl, rfl⟩
      · exact ⟨rfl, rfl, rfl, rfl⟩
    · exact ⟨rfl, rfl, rfl, rfl⟩
    · exact .refl s
  · exact .refl s

theorem drainSfu_stores (t i : Nat) : s.SameStores (s.drainSfu t i) := foldl_sameStores _ sfuWrite_stores _ _

theorem pauseTeam_stores (t : Nat) (self : Option Nat) : s.SameStores (s.pauseTeam t self) := by
  unfold pauseTeam
  split
  · exact .refl s
  · split
    · split
      · exact mapGroup_stores ..
      · exact .refl s
    · refine (putTeam_stores s t _).foldl fun s g => ?_
      refine (draw_stores s).trans ?_
      by_cases he : g.ended = true <;> simp only [he, if_true, Bool.false_eq_true, if_false]
      · exact mapGroup_stores ..
      · exact (mapGroup_stores ..).trans (drainSfu_stores _ _ _)

theorem keepHalted_stores (t : Nat) : s.SameStores (s.keepHalted t) := by
  unfold keepHalted; split <;> exact ⟨rfl, rfl, rfl, rfl⟩

/-- Halting a team touches no store. -/
theorem haltTeam_stores (t : Nat) (self : Option Nat) : s.SameStores (s.haltTeam t self) :=
  (pauseTeam_stores s t self).trans (keepHalted_stores ..)

theorem enqueueRec_stores (c : Nat) (r : FaultRec) : s.SameStores (s.enqueueRec c r) := ⟨rfl, rfl, rfl, rfl⟩

/-- Taking a fault of a group touches no store. -/
theorem raiseGroup_stores (t i : Nat) (code : FaultCode) (d : Detail) : s.SameStores (s.raiseGroup t i code d) := by
  unfold raiseGroup
  split
  · exact ((putGroup_stores s t i _).trans (enqueueRec_stores _ _ _)).trans (haltTeam_stores _ _ _)
  · exact .refl s

/-- Taking an imprecise fault touches no store. -/
theorem raiseOp_stores (h idx : Nat) (pc : DWord) (lw : Word) (code : FaultCode) (d : Detail) :
    s.SameStores (s.raiseOp h idx pc lw code d) := by
  unfold raiseOp
  split
  · exact .refl s
  · simp only
    split
    · exact putOp_stores ..
    · exact ((putOp_stores s h _).trans (enqueueRec_stores _ _ _)).trans (haltTeam_stores _ _ _)

theorem raiseCurator_wf (h : s.StoresWf) (c code : Nat) : (s.raiseCurator c code).StoresWf :=
  machineCheck_wf _ ((mapCore_stores s c _).wf h) _

/-- A fault at issue keeps the stores canonical. -/
theorem raiseNow_wf (h : s.StoresWf) (code : FaultCode) (d : Detail) : (s.raiseNow code d).StoresWf := by
  unfold raiseNow
  split
  · exact (raiseGroup_stores ..).wf h
  · exact raiseCurator_wf _ h _ _
  · exact h

theorem setS_stores (r : SReg) (v : Word) : s.SameStores (s.setS r v) := by
  unfold setS
  split
  · exact mapGroup_stores ..
  · split
    · exact .refl s
    · exact mapCore_stores ..
  · exact .refl s

theorem setPair_stores (r : SReg) (v : DWord) : s.SameStores (s.setPair r v) := (setS_stores s _ _).trans (setS_stores _ _ _)

theorem jump_stores (pc : DWord) : s.SameStores (s.jump pc) := by
  unfold jump
  split
  · exact mapGroup_stores ..
  · exact mapCore_stores ..
  · exact .refl s

theorem advance_stores (n : Nat) : s.SameStores (s.advance n) := jump_stores _ _

theorem leaveCounter_stores (t i h : Nat) : s.SameStores (s.leaveCounter t i h) := mapGroup_stores ..

theorem newOp_stores (t i : Nat) (g : Group) (gl : Nat) (c : Option Cls) (st : Stage) (k : OpKind) :
    s.SameStores (s.newOp t i g gl c st k).2 := by
  unfold newOp
  cases c
  · exact ⟨rfl, rfl, rfl, rfl⟩
  · exact SameStores.trans (b := { s with handles := s.handles + 1, ops := _ }) ⟨rfl, rfl, rfl, rfl⟩ (mapGroup_stores ..)

theorem slotFlipped_stores (t n : Nat) : s.SameStores (s.slotFlipped t n) := by
  unfold slotFlipped
  split
  · exact .refl s
  · simp only
    refine SameStores.trans ?_ (mapTeam_stores ..)
    refine (SameStores.refl s).foldl fun s g => ?_
    split
    · split
      · exact putGroup_stores ..
      · exact .refl s
    · exact .refl s

theorem slotArrive_stores (t n : Nat) : s.SameStores (s.slotArrive t n) := by
  unfold slotArrive
  split
  · exact .refl s
  · simp only
    split
    · exact (putTeam_stores ..).trans (slotFlipped_stores ..)
    · exact putTeam_stores ..

theorem engineArrive_stores (t h bsl idx : Nat) (pc : DWord) (lw : Word) : s.SameStores (s.engineArrive t h bsl idx pc lw) := by
  unfold engineArrive
  split_ifs
  · exact .refl s
  · split
    · exact .refl s
    · split_ifs
      · exact .refl s
      · exact raiseOp_stores ..
      · exact slotArrive_stores ..

theorem freshRows_stores (l : Loc) (n : Nat) : s.SameStores (s.freshRows l n) := by
  unfold freshRows; split <;> exact ⟨rfl, rfl, rfl, rfl⟩

/-- The hub's watches wake whom they watch for: they touch no store. -/
theorem checkWatches_stores (pa n : Nat) : s.SameStores (s.checkWatches pa n) := by
  unfold checkWatches
  simp only
  refine SameStores.foldl ?_ fun s e => ?_
  · refine SameStores.foldl ?_ fun s e => ?_
    · refine (SameStores.refl s).foldl fun s e => ?_
      split
      · split <;> exact ⟨rfl, rfl, rfl, rfl⟩
      · split <;> exact ⟨rfl, rfl, rfl, rfl⟩
      · exact .refl s
    · split <;> exact ⟨rfl, rfl, rfl, rfl⟩
  · split
    · split <;> exact ⟨rfl, rfl, rfl, rfl⟩
    · exact .refl s

/-! ### Stores to memory -/

/-- Storing a byte keeps the canonical form. -/
theorem setByte_wf (h : s.StoresWf) (l : Loc) (b : Byte) : (s.setByte l b).StoresWf := by
  unfold setByte
  split
  · exact h
  · cases l with
    | team t o => exact (mapTeam_stores ..).wf h
    | spill t i o => exact (mapGroup_stores ..).wf h
    | annex d o => exact ⟨h.1, Cells.set_wf h.2.1 _ _, h.2.2⟩
    | dev a => exact ⟨Cells.set_wf h.1 _ _, h.2⟩
    | peer d a => exact ⟨h.1, h.2.1, Cells.set_wf h.2.2.1 _ _, h.2.2.2⟩
    | curator c o => exact (mapCore_stores ..).wf h

theorem setBytesRaw_wf (h : s.StoresWf) (l : Loc) (bs : List Byte) : (s.setBytesRaw l bs).StoresWf := by
  induction bs generalizing s l with
  | nil => exact h
  | cons b r ih => exact ih _ (setByte_wf s h l b) _

/-- Storing bytes keeps the canonical form. -/
theorem setBytes_wf (h : s.StoresWf) (l : Loc) (bs : List Byte) : (s.setBytes l bs).StoresWf := by
  have h1 := (freshRows_stores (s.setBytesRaw l bs) l bs.length).wf (setBytesRaw_wf s h l bs)
  unfold setBytes
  split
  · exact (checkWatches_stores ..).wf h1
  · exact h1

/-- Storing a number keeps the canonical form. -/
theorem setNum_wf (h : s.StoresWf) (l : Loc) (n x : Nat) : (s.setNum l n x).StoresWf := setBytes_wf s h l _

/-- An uncorrectable read keeps the canonical form. -/
theorem readBad_wf (h : s.StoresWf) (source faddr core : Nat) (row : Option Row) (who : Option (Nat × Option Nat)) : (s.readBad source faddr core row who).StoresWf := by
  unfold readBad
  simp only
  split
  · exact (haltTeam_stores ..).wf (machineCheck_wf s h _)
  · exact raiseCurator_wf _ (machineCheck_wf s h _) _ _

/-- What a read does beside answering keeps the canonical form. -/
theorem noteRead_wf (h : s.StoresWf) (l : Loc) (n core : Nat) (who : Option (Nat × Option Nat)) : (s.noteRead l n core who).StoresWf := by
  unfold noteRead
  split
  · exact h
  · split
    · exact h
    · exact readBad_wf s h ..

/-- The same of a hub's own read. -/
theorem noteHubRead_wf (h : s.StoresWf) (l : Loc) (n : Nat) : (s.noteHubRead l n).StoresWf := by
  unfold noteHubRead
  split
  · exact h
  · split
    · exact h
    · exact machineCheck_wf s h _

/-- A hub's own read of sound storage does nothing. -/
theorem noteHubRead_sound (h : s.Sound) (l : Loc) (n : Nat) : s.noteHubRead l n = s := by
  unfold noteHubRead; simp [h.1, h.2.1]

/-- With nothing uncorrectable a read does nothing but answer. -/
theorem noteRead_sound (h : s.Sound) (l : Loc) (n core : Nat) (who : Option (Nat × Option Nat)) : s.noteRead l n core who = s := by
  unfold noteRead; simp [h.1, h.2.1]

/-- With nothing uncorrectable a read gives the stored byte. -/
theorem byteAt_sound (h : s.Sound) (l : Loc) : s.byteAt l = s.stored l := by
  have : s.uncorrectable l = false := by cases l <;> simp [uncorrectable, linkLost, h.1, h.2.1]
  simp [byteAt, this]

theorem linkLost_sound (h : s.Sound) (l : Loc) : s.linkLost l = false := by cases l <;> simp [linkLost, h.2.1]

/-! ### What a fault does to the team (22 R349) -/

theorem sfuWrite_teams (h : Nat) : (s.sfuWrite h).teams = s.teams := by
  unfold sfuWrite
  split
  · split
    · simp only
      split
      · split <;> rfl
      · rfl
    · rfl
    · rfl
  · rfl

theorem drainSfu_teams (t i : Nat) : (s.drainSfu t i).teams = s.teams := by
  unfold drainSfu
  induction s.sfuOps t i generalizing s with
  | nil => rfl
  | cons h l ih => exact (ih _).trans (sfuWrite_teams s h)

theorem mapGroup_teams (t i : Nat) (f : Group → Group) : (s.mapGroup t i f).teams = s.teams := by
  unfold mapGroup; split <;> rfl

theorem foldl_teams {α : Type} (f : State → α → State) (hf : ∀ (s : State) a, (f s a).teams = s.teams) (l : List α) (s : State) :
    (l.foldl f s).teams = s.teams := by
  induction l generalizing s with
  | nil => rfl
  | cons a l ih => exact (ih _).trans (hf s a)

theorem pauseTeam_team {t : Nat} {x : Team} (h : s.team t = some x) (self : Option Nat) :
    (s.pauseTeam t self).team t = some { x with halted := true } := by
  unfold pauseTeam
  simp only [h]
  split
  · rename_i hx
    have : ({ x with halted := true } : Team) = x := by cases x; simp_all
    rw [this]
    split
    · rw [team, mapGroup_teams]; exact h
    · exact h
  · rw [team, foldl_teams]
    · exact Tab.get_set_same ..
    · intro s g
      by_cases he : g.ended = true <;> simp only [he, if_true, Bool.false_eq_true, if_false]
      · exact mapGroup_teams ..
      · exact (drainSfu_teams _ _ _).trans (mapGroup_teams _ _ _ _)

theorem keepHalted_teams (t : Nat) : (s.keepHalted t).teams = s.teams := by
  unfold keepHalted; split <;> rfl

/-- Once its team is there, a halt leaves it halted; no other team changes. -/
theorem haltTeam_team {t : Nat} {x : Team} (h : s.team t = some x) (self : Option Nat) :
    (s.haltTeam t self).team t = some { x with halted := true } := by
  rw [haltTeam, team, keepHalted_teams]; exact pauseTeam_team s h self

/-- Taking a fault halts the team (22 R349). -/
theorem raiseGroup_halts {t i : Nat} {x : Team} {g : Group} (h : s.team t = some x) (hg : s.group t i = some g) (code : FaultCode)
    (d : Detail) : (s.raiseGroup t i code d).team t = some { x with halted := true } := by
  unfold raiseGroup
  simp only [h, hg]
  exact haltTeam_team _ (by simpa [enqueueRec, putCore, team, putGroup, draw] using h) _

/-! ### What a store leaves alone -/

/-- A byte stored in device memory is read back, unless its link has failed. -/
theorem stored_setByte_dev (h : s.dev.wf = true) {a : Nat} (hl : s.linkLost (.dev a) = false) (b : Byte) :
    (s.setByte (.dev a) b).stored (.dev a) = b := by
  simp [setByte, hl, stored, h]

/-- Another byte of device memory is as it was. -/
theorem stored_setByte_dev_ne (h : s.dev.wf = true) {a c : Nat} (hc : c ≠ a) (b : Byte) :
    (s.setByte (.dev a) b).stored (.dev c) = s.stored (.dev c) := by
  unfold setByte
  split
  · rfl
  · simp [stored, Cells.get_set_ne hc h]

/-- A byte stored in team memory is read back. -/
theorem stored_setByte_team {t : Nat} {x : Team} (ht : s.team t = some x) (h : x.tm.wf = true) (o : Nat) (b : Byte) :
    (s.setByte (.team t o) b).stored (.team t o) = b := by
  simp [setByte, linkLost, stored, mapTeam, ht, h]

/-- Another byte of that team memory is as it was. -/
theorem stored_setByte_team_ne {t : Nat} {x : Team} (ht : s.team t = some x) (h : x.tm.wf = true) {o c : Nat} (hc : c ≠ o) (b : Byte) :
    (s.setByte (.team t o) b).stored (.team t c) = s.stored (.team t c) := by
  simp [setByte, linkLost, stored, mapTeam, ht, Cells.get_set_ne hc h]

end State

end Sys2Proof.Machine
end

