-- ==== Sys2Proof/Laws/Lanes.lean ====
section
/-! SUPPORT. The one frame in which lane words issue (Machine/Operands.lean): a group with plain operands and no result on its way
issues the word, and its results are written. -/

namespace Sys2Proof.Machine

open Sys2Proof

namespace Group

variable {g : Group}

theorem laneBlocked_idle (h : g.Idle) (vs ss : List Nat) : g.laneBlocked vs ss = false := by
  simp [laneBlocked, blocked_idle h]

theorem readsForm_plain (h : ∀ r, g.deferred r = false) (lane : Bool) (r : Nat) : g.readsForm lane r = false := by
  simp [readsForm, h]

/-- No symbol is waited for where no register is deferred. -/
theorem pendingSym_plain (h : ∀ r, g.deferred r = false) (lane : Bool) (x : Nat → Option Word) (rs : List Nat) :
    g.pendingSym lane x rs = none := by
  simp [pendingSym, readsForm_plain h]

/-- The value of a plain register is what it holds. -/
theorem value_plain (hi : g.Idle) (h : ∀ r, g.deferred r = false) (lane : Bool) (x : Nat → Option Word) (r l : Nat) :
    g.value lane x r l = g.v.get (96 * r + l) := by
  simp [value, readsForm_plain h, readV_idle hi]

theorem concrete_plain (h : ∀ r, g.deferred r = false) (x : Nat → Option Word) (r : Nat) : g.concrete x r = g := by
  simp [concrete, h]

/-- With no result on its way no window is open. -/
theorem makeRoom_idle (h : g.Idle) (lane : Bool) (L : Nat) : g.makeRoom lane L = g := by
  unfold Idle at h
  simp [makeRoom, windows, h]

theorem badReg_budget {rs : List Nat} (h : ∀ r ∈ rs, r < 32 * g.blocks) : g.badReg rs = false := by
  simp only [badReg, List.any_eq_false, decide_eq_true_eq, Nat.not_le]
  exact h

/-- Writing lanes of a register by a fold touches those keys only. -/
theorem get_foldl_set (ls : List Nat) (k : Nat → Nat) (f : Nat → Word) (m : Cells 32) (hm : m.wf = true) (a : Nat)
    (hk : ∀ l ∈ ls, k l ≠ a) : (ls.foldl (fun v l => v.set (k l) (f l)) m).get a = m.get a := by
  induction ls generalizing m with
  | nil => rfl
  | cons l ls ih =>
    rw [List.foldl_cons, ih _ (Cells.set_wf hm _ _) fun l' h' => hk l' (by simp [h']),
      Cells.get_set_ne (Ne.symm (hk l (by simp))) hm]

theorem wf_foldl_set (ls : List Nat) (k : Nat → Nat) (f : Nat → Word) (m : Cells 32) (hm : m.wf = true) :
    (ls.foldl (fun v l => v.set (k l) (f l)) m).wf = true := by
  induction ls generalizing m with
  | nil => exact hm
  | cons l ls ih => exact ih _ (Cells.set_wf hm _ _)

/-- A register written by a fold over its lanes reads as written in those lanes. -/
theorem get_foldl_lanes (ls : List Nat) (r : Nat) (f : Nat → Word) (m : Cells 32) (hm : m.wf = true) (l : Nat) (hl : l ∈ ls) :
    (ls.foldl (fun v l => v.set (96 * r + l) (f l)) m).get (96 * r + l) = f l := by
  induction ls generalizing m with
  | nil => simp at hl
  | cons j ls ih =>
    rw [List.foldl_cons]
    by_cases h : l ∈ ls
    · exact ih _ (Cells.set_wf hm _ _) h
    · have hj : l = j := by simpa [h] using hl
      subst hj
      rw [get_foldl_set ls _ f _ (Cells.set_wf hm _ _) _ fun l' h' => by
        have : l' ≠ l := fun e => h (e ▸ h')
        omega]
      exact Cells.get_set_same hm _ _

theorem mem_lanesOf {m : LaneMask} {l : Nat} : l ∈ lanesOf m ↔ l < 96 ∧ m.getLsbD l = true := by
  simp [lanesOf]

end Group

namespace State

variable {s : State} {t i : Nat} {g : Group} {rs : List Nat}

/-- With no codeword uncorrectable a word's reads of registers do nothing beside. -/
theorem readingRegs_sound (h : g.badV = []) (rs : List Nat) (o : Out) : s.readingRegs t i g rs o = o := by
  simp [readingRegs, h]

/-- A lane word that may issue issues, whatever it does then. -/
theorem laneIssue_ready (h : s.LaneReady t i g rs) (w : LaneWord) (wide : Bool) {rd dst : List Nat} (ss : List Nat)
    {chk : Group → Option FaultCode} (hc : chk g = none) (hb : ∀ r ∈ rd ++ dst, r ∈ rs) (k : Nat → Nat → LaneIn → Out) :
    s.laneIssue w wide rd dst ss chk k =
      k t i ⟨g, if wide then g.liveMask &&& ~~~g.cancel else g.effect w, s.symX t, g.value true (s.symX t), g.opB (s.symX t) w⟩ := by
  unfold laneIssue
  rw [byGroup_group h.issuer]
  simp [hc, Group.makeRoom_idle h.idle, readingRegs_sound h.sound, Group.badReg_budget fun r hr => h.budget r (hb r hr), Group.laneBlocked_idle h.idle, Group.pendingSym_plain h.plain]

/-- Nothing enters the arithmetic handler: the results are written and the run goes on. -/
theorem laneFinish_calm (h : g.canEnter .arith = false ∨ g.reissue = some .arith) (n : Nat) (x : LaneIn) (hx : x.g = g) (o : LaneOut) :
    s.laneFinish t n x o = s.putGroup t n (laneWrite x o).laneDone := by
  unfold laneFinish
  subst hx
  rcases h with h | h <;> simp [h]

/-- A lane word that may issue and whose flags enter no handler answers a next state: its results are written, the run goes on. -/
theorem laneWord_ready (h : s.LaneReady t i g rs) (w : LaneWord) {rd dst : List Nat} (ss : List Nat)
    {chk : Group → Option FaultCode} (hc : chk g = none) (hb : ∀ r ∈ rd ++ dst, r ∈ rs) (f : LaneIn → LaneOut) :
    ∃ x : LaneIn, x.g = g ∧ x.eff = g.effect w ∧ (∀ r l, x.rd r l = g.v.get (96 * r + l)) ∧
      s.laneWord w rd dst ss chk f = .next (s.putGroup t i (laneWrite x (f x)).laneDone) := by
  refine ⟨⟨g, g.effect w, s.symX t, g.value true (s.symX t), g.opB (s.symX t) w⟩, rfl, rfl,
    fun r l => Group.value_plain h.idle h.plain .., ?_⟩
  unfold laneWord
  rw [laneIssue_ready h w false ss hc hb, laneFinish_calm h.calm i _ rfl]
  simp

end State

end Sys2Proof.Machine
end

