-- ==== Sys2Proof/Laws/PerInstr.lean ====
section
/-! SUPPORT. One statement about the syntax of every instruction, constructor by constructor: the opcode and fields of a well-formed
lane word name it again, and a scalar instruction takes at most two words (12 R214, R216, R217, R224). -/

namespace Sys2Proof.Laws

open Sys2Proof

/-- The opcode and the fields of a well-formed lane word name that word; every other instruction has at most two words. -/
def F.Statement (i : Instr) : Prop :=
  (∀ op w, laneParts i = some (op, w) → i.wf = true → laneInstr op w = some i) ∧
    (laneParts i = none → (encode i).length ≤ 2)

/-- A word with an immediate has one word, or two with its prefix. -/
theorem length_encImm (i : Imm) (w : Word) : (encImm i w).length ≤ 2 := by
  unfold encImm; split <;> simp

/-- A lane word whose opcode is its own. -/
theorem lane_own {i : Instr} {op : BitVec 8} {w : LaneWord} (hp : laneParts i = some (op, w))
    (h : i.wf = true → laneInstr op w = some i) : F.Statement i :=
  ⟨fun op' w' hp' hw => by
    rw [hp] at hp'
    obtain ⟨rfl, rfl⟩ := Prod.mk.inj (Option.some.inj hp')
    exact h hw, fun hn => by simp [hp] at hn⟩

/-- An instruction that is no lane word. -/
theorem scalar_own {i : Instr} (hp : laneParts i = none) (h : (encScalar i).length ≤ 2) : F.Statement i :=
  ⟨fun _ _ hp' => by simp [hp] at hp', fun _ => by simpa [encode, hp] using h⟩

theorem F.br (off : BitVec 25) : F.Statement (.br off) :=
  scalar_own rfl (Nat.le_succ 1)
theorem F.jal (d : SReg) (i : Imm) : F.Statement (.jal d i) :=
  scalar_own rfl (length_encImm _ _)
theorem F.jr (a : SReg) : F.Statement (.jr a) :=
  scalar_own rfl (Nat.le_succ 1)
theorem F.beq (d a : SReg) (i : Imm) : F.Statement (.beq d a i) :=
  scalar_own rfl (length_encImm _ _)
theorem F.bne (d a : SReg) (i : Imm) : F.Statement (.bne d a i) :=
  scalar_own rfl (length_encImm _ _)
theorem F.blt (d a : SReg) (i : Imm) : F.Statement (.blt d a i) :=
  scalar_own rfl (length_encImm _ _)
theorem F.bge (d a : SReg) (i : Imm) : F.Statement (.bge d a i) :=
  scalar_own rfl (length_encImm _ _)
theorem F.trap (c : BitVec 16) : F.Statement (.trap c) :=
  scalar_own rfl (Nat.le_succ 1)
theorem F.brk (c : BitVec 16) : F.Statement (.brk c) :=
  scalar_own rfl (Nat.le_succ 1)
theorem F.hsetLabel (i : Imm) : F.Statement (.hsetLabel i) :=
  scalar_own rfl (length_encImm _ _)
theorem F.hsetRegister (a : SReg) (pfx : Bool) : F.Statement (.hsetRegister a pfx) :=
  scalar_own rfl (length_encImm _ _)
theorem F.lpc (a : SReg) (i : Imm) : F.Statement (.lpc a i) :=
  scalar_own rfl (length_encImm _ _)
theorem F.add (d a b : SReg) : F.Statement (.add d a b) :=
  scalar_own rfl (Nat.le_succ 1)
theorem F.sub (d a b : SReg) : F.Statement (.sub d a b) :=
  scalar_own rfl (Nat.le_succ 1)
theorem F.mul (d a b : SReg) : F.Statement (.mul d a b) :=
  scalar_own rfl (Nat.le_succ 1)
theorem F.mulh (d a b : SReg) : F.Statement (.mulh d a b) :=
  scalar_own rfl (Nat.le_succ 1)
theorem F.mulhu (d a b : SReg) : F.Statement (.mulhu d a b) :=
  scalar_own rfl (Nat.le_succ 1)
theorem F.and (d a b : SReg) : F.Statement (.and d a b) :=
  scalar_own rfl (Nat.le_succ 1)
theorem F.or (d a b : SReg) : F.Statement (.or d a b) :=
  scalar_own rfl (Nat.le_succ 1)
theorem F.xor (d a b : SReg) : F.Statement (.xor d a b) :=
  scalar_own rfl (Nat.le_succ 1)
theorem F.shl (d a b : SReg) : F.Statement (.shl d a b) :=
  scalar_own rfl (Nat.le_succ 1)
theorem F.shr (d a b : SReg) : F.Statement (.shr d a b) :=
  scalar_own rfl (Nat.le_succ 1)
theorem F.sra (d a b : SReg) : F.Statement (.sra d a b) :=
  scalar_own rfl (Nat.le_succ 1)
theorem F.slt (d a b : SReg) : F.Statement (.slt d a b) :=
  scalar_own rfl (Nat.le_succ 1)
theorem F.sltu (d a b : SReg) : F.Statement (.sltu d a b) :=
  scalar_own rfl (Nat.le_succ 1)
theorem F.min (d a b : SReg) : F.Statement (.min d a b) :=
  scalar_own rfl (Nat.le_succ 1)
theorem F.max (d a b : SReg) : F.Statement (.max d a b) :=
  scalar_own rfl (Nat.le_succ 1)
theorem F.popc (d a : SReg) : F.Statement (.popc d a) :=
  scalar_own rfl (Nat.le_succ 1)
theorem F.addi (d a : SReg) (i : Imm) : F.Statement (.addi d a i) :=
  scalar_own rfl (length_encImm _ _)
theorem F.andi (d a : SReg) (i : Imm) : F.Statement (.andi d a i) :=
  scalar_own rfl (length_encImm _ _)
theorem F.ori (d a : SReg) (i : Imm) : F.Statement (.ori d a i) :=
  scalar_own rfl (length_encImm _ _)
theorem F.xori (d a : SReg) (i : Imm) : F.Statement (.xori d a i) :=
  scalar_own rfl (length_encImm _ _)
theorem F.shli (d a : SReg) (n : BitVec 5) : F.Statement (.shli d a n) :=
  scalar_own rfl (Nat.le_succ 1)
theorem F.shri (d a : SReg) (n : BitVec 5) : F.Statement (.shri d a n) :=
  scalar_own rfl (Nat.le_succ 1)
theorem F.srai (d a : SReg) (n : BitVec 5) : F.Statement (.srai d a n) :=
  scalar_own rfl (Nat.le_succ 1)
theorem F.slti (d a : SReg) (i : Imm) : F.Statement (.slti d a i) :=
  scalar_own rfl (length_encImm _ _)
theorem F.sltui (d a : SReg) (i : Imm) : F.Statement (.sltui d a i) :=
  scalar_own rfl (length_encImm _ _)
theorem F.add64 (d a b : SReg) : F.Statement (.add64 d a b) :=
  scalar_own rfl (Nat.le_succ 1)
theorem F.sub64 (d a b : SReg) : F.Statement (.sub64 d a b) :=
  scalar_own rfl (Nat.le_succ 1)
theorem F.shl64 (d a b : SReg) : F.Statement (.shl64 d a b) :=
  scalar_own rfl (Nat.le_succ 1)
theorem F.shr64 (d a b : SReg) : F.Statement (.shr64 d a b) :=
  scalar_own rfl (Nat.le_succ 1)
theorem F.addi64 (d a : SReg) (i : Imm) : F.Statement (.addi64 d a i) :=
  scalar_own rfl (length_encImm _ _)
theorem F.mul64 (d a b : SReg) : F.Statement (.mul64 d a b) :=
  scalar_own rfl (Nat.le_succ 1)
theorem F.sltu64 (d a b : SReg) : F.Statement (.sltu64 d a b) :=
  scalar_own rfl (Nat.le_succ 1)
theorem F.sldTeamMemory (d a : SReg) (i : Imm) : F.Statement (.sldTeamMemory d a i) :=
  scalar_own rfl (length_encImm _ _)
theorem F.sldAnnex (d a : SReg) (i : Imm) : F.Statement (.sldAnnex d a i) :=
  scalar_own rfl (length_encImm _ _)
theorem F.sstTeamMemory (d a : SReg) (i : Imm) : F.Statement (.sstTeamMemory d a i) :=
  scalar_own rfl (length_encImm _ _)
theorem F.sstAnnex (d a : SReg) (i : Imm) : F.Statement (.sstAnnex d a i) :=
  scalar_own rfl (length_encImm _ _)
theorem F.sldAcq (d a : SReg) (ax : Bool) (sc : BitVec 2) (la : BitVec 4) : F.Statement (.sldAcq d a ax sc la) :=
  scalar_own rfl (Nat.le_succ 1)
theorem F.sstRel (d a : SReg) (ax : Bool) (sc : BitVec 2) : F.Statement (.sstRel d a ax sc) :=
  scalar_own rfl (Nat.le_succ 1)
theorem F.mpush (n : BitVec 5) : F.Statement (.mpush n) :=
  scalar_own rfl (Nat.le_succ 1)
theorem F.kget (d : SReg) (w : BitVec 2) (n : BitVec 5) : F.Statement (.kget d w n) :=
  scalar_own rfl (Nat.le_succ 1)
theorem F.kset (a : SReg) (w : BitVec 2) (n : BitVec 5) : F.Statement (.kset a w n) :=
  scalar_own rfl (Nat.le_succ 1)
theorem F.movvs (d a : SReg) (v : VReg) : F.Statement (.movvs d a v) :=
  scalar_own rfl (Nat.le_succ 1)
theorem F.sget (d : SReg) (i : BitVec 11) : F.Statement (.sget d i) :=
  scalar_own rfl (Nat.le_succ 1)
theorem F.sset (a : SReg) (i : BitVec 11) : F.Statement (.sset a i) :=
  scalar_own rfl (Nat.le_succ 1)
theorem F.elect (d a : SReg) : F.Statement (.elect d a) :=
  scalar_own rfl (Nat.le_succ 1)
theorem F.shld (ax : Bool) (n : ShReg) (a : SReg) (i : Imm) : F.Statement (.shld ax n a i) :=
  scalar_own rfl (length_encImm _ _)
theorem F.shset (n : ShReg) (a : SReg) (f : BitVec 7) : F.Statement (.shset n a f) :=
  scalar_own rfl (Nat.le_succ 1)
theorem F.movsv (d a : SReg) (v : VReg) : F.Statement (.movsv d a v) :=
  scalar_own rfl (Nat.le_succ 1)
theorem F.wait (c : BitVec 3) (n : BitVec 8) : F.Statement (.wait c n) :=
  scalar_own rfl (Nat.le_succ 1)
theorem F.yield (c : BitVec 3) (n : BitVec 8) (o : BitVec 14) : F.Statement (.yield c n o) :=
  scalar_own rfl (Nat.le_succ 1)
theorem F.fence (sc : BitVec 3) : F.Statement (.fence sc) :=
  scalar_own rfl (Nat.le_succ 1)
theorem F.bsinit (a : SReg) (n : BitVec 4) : F.Statement (.bsinit a n) :=
  scalar_own rfl (Nat.le_succ 1)
theorem F.bsarr (d : SReg) (n : BitVec 4) : F.Statement (.bsarr d n) :=
  scalar_own rfl (Nat.le_succ 1)
theorem F.bswait (a : SReg) (n : BitVec 4) : F.Statement (.bswait a n) :=
  scalar_own rfl (Nat.le_succ 1)
theorem F.bsaw (n : BitVec 4) : F.Statement (.bsaw n) :=
  scalar_own rfl (Nat.le_succ 1)
theorem F.wcnt (a b : SReg) : F.Statement (.wcnt a b) :=
  scalar_own rfl (Nat.le_succ 1)
theorem F.wadr (a b : SReg) : F.Statement (.wadr a b) :=
  scalar_own rfl (Nat.le_succ 1)
theorem F.bsget (d : SReg) (n : BitVec 4) : F.Statement (.bsget d n) :=
  scalar_own rfl (Nat.le_succ 1)
theorem F.cpl (d s : ShReg) (a : SReg) (b : Bsl) : F.Statement (.cpl d s a b) :=
  scalar_own rfl (Nat.le_succ 1)
theorem F.cps (d s : ShReg) (a : SReg) (b : Bsl) : F.Statement (.cps d s a b) :=
  scalar_own rfl (Nat.le_succ 1)
theorem F.cpx (d s : ShReg) (a : SReg) (b : Bsl) : F.Statement (.cpx d s a b) :=
  scalar_own rfl (Nat.le_succ 1)
theorem F.cpm (d s : ShReg) (a : SReg) (b : Bsl) : F.Statement (.cpm d s a b) :=
  scalar_own rfl (Nat.le_succ 1)
theorem F.cpg (d s : ShReg) (a : SReg) (b : Bsl) : F.Statement (.cpg d s a b) :=
  scalar_own rfl (Nat.le_succ 1)
theorem F.cprPut (d s : ShReg) (a : SReg) (b : Bsl) : F.Statement (.cprPut d s a b) :=
  scalar_own rfl (Nat.le_succ 1)
theorem F.cprGet (d s : ShReg) (a : SReg) (b : Bsl) : F.Statement (.cprGet d s a b) :=
  scalar_own rfl (Nat.le_succ 1)
theorem F.cpa (d s : ShReg) (a : SReg) (b : Bsl) (peer : Bool) (op : BitVec 2) : F.Statement (.cpa d s a b peer op) :=
  scalar_own rfl (Nat.le_succ 1)
theorem F.cpw (a : SReg) (b : Bsl) (peer : Bool) : F.Statement (.cpw a b peer) :=
  scalar_own rfl (Nat.le_succ 1)
theorem F.cpst (d s : ShReg) (a : SReg) (b : Bsl) : F.Statement (.cpst d s a b) :=
  scalar_own rfl (Nat.le_succ 1)
theorem F.cpcb (s : ShReg) (a : SReg) (b : Bsl) (t : BitVec 2) : F.Statement (.cpcb s a b t) :=
  scalar_own rfl (Nat.le_succ 1)
theorem F.aclose (sp : BitVec 2) (a b : SReg) : F.Statement (.aclose sp a b) :=
  scalar_own rfl (Nat.le_succ 1)
theorem F.clar (t : ShReg) (a : SReg) (b : Bsl) (sr : Bool) (op : BitVec 2) : F.Statement (.clar t a b sr op) :=
  scalar_own rfl (Nat.le_succ 1)
theorem F.clrs (t : ShReg) (a : SReg) (b : Bsl) (sr : Bool) (op : BitVec 2) : F.Statement (.clrs t a b sr op) :=
  scalar_own rfl (Nat.le_succ 1)
theorem F.clag (t : ShReg) (a : SReg) (b : Bsl) : F.Statement (.clag t a b) :=
  scalar_own rfl (Nat.le_succ 1)
theorem F.clbc (t : ShReg) (a : SReg) (b : Bsl) : F.Statement (.clbc t a b) :=
  scalar_own rfl (Nat.le_succ 1)
theorem F.launch (d a : SReg) (ax : Bool) (la : BitVec 4) : F.Statement (.launch d a ax la) :=
  scalar_own rfl (Nat.le_succ 1)
theorem F.mxa (acc z pair sp sel : Bool) (sha : ShReg) (pc vbq : BitVec 4) (x : BitVec 8) (vm : Option (BitVec 6)) : F.Statement (.mxa acc z pair sp sel sha pc vbq x vm) :=
  scalar_own rfl (match vm with
    | none => Nat.le_succ 1
    | some _ => Nat.le_refl 2)
theorem F.mxwb (d : ShReg) (a : SReg) (b : Bsl) (pair keep acc : Bool) : F.Statement (.mxwb d a b pair keep acc) :=
  scalar_own rfl (Nat.le_succ 1)
theorem F.mxfence (d : SReg) : F.Statement (.mxfence d) :=
  scalar_own rfl (Nat.le_succ 1)
theorem F.mxwait (a : SReg) : F.Statement (.mxwait a) :=
  scalar_own rfl (Nat.le_succ 1)
theorem F.bkfile (shA shG : ShReg) (r : SReg) (last : Bool) (shT : ShReg) : F.Statement (.bkfile shA shG r last shT) :=
  scalar_own rfl (Nat.le_succ 1)
theorem F.bkcommit (d s : ShReg) (a : SReg) (b : Bsl) : F.Statement (.bkcommit d s a b) :=
  scalar_own rfl (Nat.le_succ 1)
theorem F.bkstat (d : SReg) (n : BitVec 11) : F.Statement (.bkstat d n) :=
  scalar_own rfl (Nat.le_succ 1)
theorem F.bkfence (a : SReg) : F.Statement (.bkfence a) :=
  scalar_own rfl (Nat.le_succ 1)
theorem F.stget (d a : SReg) : F.Statement (.stget d a) :=
  scalar_own rfl (Nat.le_succ 1)
theorem F.stclr (a : SReg) : F.Statement (.stclr a) :=
  scalar_own rfl (Nat.le_succ 1)
theorem F.cwinRead (d a b : SReg) : F.Statement (.cwinRead d a b) :=
  scalar_own rfl (Nat.le_succ 1)
theorem F.cwinWrite (d a b : SReg) : F.Statement (.cwinWrite d a b) :=
  scalar_own rfl (Nat.le_succ 1)
theorem F.gctlHalt (d a : SReg) : F.Statement (.gctlHalt d a) :=
  scalar_own rfl (Nat.le_succ 1)
theorem F.gctlResume (d a : SReg) : F.Statement (.gctlResume d a) :=
  scalar_own rfl (Nat.le_succ 1)
theorem F.gctlReplay (d a : SReg) : F.Statement (.gctlReplay d a) :=
  scalar_own rfl (Nat.le_succ 1)
theorem F.gctlCancel (d a : SReg) : F.Statement (.gctlCancel d a) :=
  scalar_own rfl (Nat.le_succ 1)
theorem F.gctlCompact (d a : SReg) : F.Statement (.gctlCompact d a) :=
  scalar_own rfl (Nat.le_succ 1)
theorem F.gctlTake (d a : SReg) : F.Statement (.gctlTake d a) :=
  scalar_own rfl (Nat.le_succ 1)
theorem F.gctlKill (d a : SReg) : F.Statement (.gctlKill d a) :=
  scalar_own rfl (Nat.le_succ 1)
theorem F.gctlStep (d a : SReg) : F.Statement (.gctlStep d a) :=
  scalar_own rfl (Nat.le_succ 1)
theorem F.ctxSave (d a b : SReg) : F.Statement (.ctxSave d a b) :=
  scalar_own rfl (Nat.le_succ 1)
theorem F.ctxLoad (d a b : SReg) : F.Statement (.ctxLoad d a b) :=
  scalar_own rfl (Nat.le_succ 1)
theorem F.tinv (a b : SReg) : F.Statement (.tinv a b) :=
  scalar_own rfl (Nat.le_succ 1)
theorem F.cfgRead (d a b : SReg) : F.Statement (.cfgRead d a b) :=
  scalar_own rfl (Nat.le_succ 1)
theorem F.cfgWrite (d a b : SReg) : F.Statement (.cfgWrite d a b) :=
  scalar_own rfl (Nat.le_succ 1)
theorem F.lx (n : BitVec 11) : F.Statement (.lx n) :=
  scalar_own rfl (Nat.le_succ 1)
theorem F.lxa (n : BitVec 7) (a : SReg) (i : Imm) : F.Statement (.lxa n a i) :=
  scalar_own rfl (length_encImm _ _)
theorem F.extensionPrefix (h : BitVec 21) : F.Statement (.extensionPrefix h) :=
  scalar_own rfl (Nat.le_succ 1)
theorem F.vaddInt (w : LaneWord) : F.Statement (.vaddInt w) :=
  lane_own rfl fun _ => rfl
theorem F.vsubInt (w : LaneWord) : F.Statement (.vsubInt w) :=
  lane_own rfl fun _ => rfl
theorem F.vmulInt (w : LaneWord) : F.Statement (.vmulInt w) :=
  lane_own rfl fun _ => rfl
theorem F.vmulh (w : LaneWord) : F.Statement (.vmulh w) :=
  lane_own rfl fun _ => rfl
theorem F.vmad (w : LaneWord) : F.Statement (.vmad w) :=
  lane_own rfl fun _ => rfl
theorem F.vabsInt (w : LaneWord) : F.Statement (.vabsInt w) :=
  lane_own rfl fun _ => rfl
theorem F.vnegInt (w : LaneWord) : F.Statement (.vnegInt w) :=
  lane_own rfl fun _ => rfl
theorem F.vminInt (w : LaneWord) : F.Statement (.vminInt w) :=
  lane_own rfl fun _ => rfl
theorem F.vmaxInt (w : LaneWord) : F.Statement (.vmaxInt w) :=
  lane_own rfl fun _ => rfl
theorem F.vadds (w : LaneWord) : F.Statement (.vadds w) :=
  lane_own rfl fun _ => rfl
theorem F.vsubs (w : LaneWord) : F.Statement (.vsubs w) :=
  lane_own rfl fun _ => rfl
theorem F.vand (w : LaneWord) : F.Statement (.vand w) :=
  lane_own rfl fun _ => rfl
theorem F.vor (w : LaneWord) : F.Statement (.vor w) :=
  lane_own rfl fun _ => rfl
theorem F.vxor (w : LaneWord) : F.Statement (.vxor w) :=
  lane_own rfl fun _ => rfl
theorem F.vnot (w : LaneWord) : F.Statement (.vnot w) :=
  lane_own rfl fun _ => rfl
theorem F.vshl (w : LaneWord) : F.Statement (.vshl w) :=
  lane_own rfl fun _ => rfl
theorem F.vshr (w : LaneWord) : F.Statement (.vshr w) :=
  lane_own rfl fun _ => rfl
theorem F.vsra (w : LaneWord) : F.Statement (.vsra w) :=
  lane_own rfl fun _ => rfl
theorem F.vpopc (w : LaneWord) : F.Statement (.vpopc w) :=
  lane_own rfl fun _ => rfl
theorem F.vclz (w : LaneWord) : F.Statement (.vclz w) :=
  lane_own rfl fun _ => rfl
theorem F.vbfx (w : LaneWord) : F.Statement (.vbfx w) :=
  lane_own rfl fun _ => rfl
theorem F.vbfi (w : LaneWord) : F.Statement (.vbfi w) :=
  lane_own rfl fun _ => rfl
theorem F.vmov (w : LaneWord) : F.Statement (.vmov w) :=
  lane_own rfl fun _ => rfl
theorem F.vsel (w : LaneWord) : F.Statement (.vsel w) :=
  lane_own rfl fun _ => rfl
theorem F.vcmpInt (w : LaneWord) : F.Statement (.vcmpInt w) :=
  lane_own rfl fun _ => rfl
theorem F.vaddFp (w : LaneWord) : F.Statement (.vaddFp w) :=
  lane_own rfl fun _ => rfl
theorem F.vsubFp (w : LaneWord) : F.Statement (.vsubFp w) :=
  lane_own rfl fun _ => rfl
theorem F.vmulFp (w : LaneWord) : F.Statement (.vmulFp w) :=
  lane_own rfl fun _ => rfl
theorem F.vfma (w : LaneWord) : F.Statement (.vfma w) :=
  lane_own rfl fun _ => rfl
theorem F.vnegFp (w : LaneWord) : F.Statement (.vnegFp w) :=
  lane_own rfl fun _ => rfl
theorem F.vabsFp (w : LaneWord) : F.Statement (.vabsFp w) :=
  lane_own rfl fun _ => rfl
theorem F.vminFp (w : LaneWord) : F.Statement (.vminFp w) :=
  lane_own rfl fun _ => rfl
theorem F.vmaxFp (w : LaneWord) : F.Statement (.vmaxFp w) :=
  lane_own rfl fun _ => rfl
theorem F.vcmpFp (w : LaneWord) : F.Statement (.vcmpFp w) :=
  lane_own rfl fun _ => rfl
theorem F.vrnd (w : LaneWord) : F.Statement (.vrnd w) :=
  lane_own rfl fun _ => rfl
theorem F.vrcp (w : LaneWord) : F.Statement (.vrcp w) :=
  lane_own rfl fun _ => rfl
theorem F.vrsqrt (w : LaneWord) : F.Statement (.vrsqrt w) :=
  lane_own rfl fun _ => rfl
theorem F.vsqrt (w : LaneWord) : F.Statement (.vsqrt w) :=
  lane_own rfl fun _ => rfl
theorem F.vexp2 (w : LaneWord) : F.Statement (.vexp2 w) :=
  lane_own rfl fun _ => rfl
theorem F.vlog2 (w : LaneWord) : F.Statement (.vlog2 w) :=
  lane_own rfl fun _ => rfl
theorem F.vsin (w : LaneWord) : F.Statement (.vsin w) :=
  lane_own rfl fun _ => rfl
theorem F.vcos (w : LaneWord) : F.Statement (.vcos w) :=
  lane_own rfl fun _ => rfl
theorem F.vtanh (w : LaneWord) : F.Statement (.vtanh w) :=
  lane_own rfl fun _ => rfl
theorem F.vsigm (w : LaneWord) : F.Statement (.vsigm w) :=
  lane_own rfl fun _ => rfl
theorem F.vdiv (w : LaneWord) : F.Statement (.vdiv w) :=
  lane_own rfl fun _ => rfl
theorem F.vcvt (w : LaneWord) : F.Statement (.vcvt w) :=
  lane_own rfl fun _ => rfl
theorem F.vpack (w : LaneWord) : F.Statement (.vpack w) :=
  lane_own rfl fun _ => rfl
theorem F.vunpk (w : LaneWord) : F.Statement (.vunpk w) :=
  lane_own rfl fun _ => rfl
theorem F.vbscale (w : LaneWord) : F.Statement (.vbscale w) :=
  lane_own rfl fun _ => rfl
theorem F.vperm (w : LaneWord) : F.Statement (.vperm w) :=
  lane_own rfl fun _ => rfl
theorem F.vshx (w : LaneWord) : F.Statement (.vshx w) :=
  lane_own rfl fun _ => rfl
theorem F.vup (w : LaneWord) : F.Statement (.vup w) :=
  lane_own rfl fun _ => rfl
theorem F.vdn (w : LaneWord) : F.Statement (.vdn w) :=
  lane_own rfl fun _ => rfl
theorem F.vbcast (w : LaneWord) : F.Statement (.vbcast w) :=
  lane_own rfl fun _ => rfl
theorem F.vred (w : LaneWord) : F.Statement (.vred w) :=
  lane_own rfl fun _ => rfl
theorem F.vscan (w : LaneWord) : F.Statement (.vscan w) :=
  lane_own rfl fun _ => rfl
theorem F.vld (w : LaneWord) : F.Statement (.vld w) :=
  lane_own rfl fun _ => rfl
theorem F.vst (w : LaneWord) : F.Statement (.vst w) :=
  lane_own rfl fun _ => rfl
theorem F.vatom (w : LaneWord) : F.Statement (.vatom w) :=
  lane_own rfl fun _ => rfl
theorem F.vfatomAddOrd (w : LaneWord) : F.Statement (.vfatomAddOrd w) :=
  lane_own rfl fun h => by
  simp only [Instr.wf, Bool.and_eq_true, beq_iff_eq] at h
  simp_all [laneInstr]
theorem F.vfatomMax (w : LaneWord) : F.Statement (.vfatomMax w) :=
  lane_own rfl fun h => by
  simp only [Instr.wf, Bool.and_eq_true, beq_iff_eq] at h
  simp_all [laneInstr]
theorem F.vspill (w : LaneWord) : F.Statement (.vspill w) :=
  lane_own rfl fun _ => rfl
theorem F.vfill (w : LaneWord) : F.Statement (.vfill w) :=
  lane_own rfl fun _ => rfl
theorem F.pclr (w : LaneWord) : F.Statement (.pclr w) :=
  lane_own rfl fun _ => rfl
theorem F.pins (w : LaneWord) : F.Statement (.pins w) :=
  lane_own rfl fun _ => rfl
theorem F.pmax (w : LaneWord) : F.Statement (.pmax w) :=
  lane_own rfl fun _ => rfl
theorem F.padd (w : LaneWord) : F.Statement (.padd w) :=
  lane_own rfl fun _ => rfl
theorem F.pinf (w : LaneWord) : F.Statement (.pinf w) :=
  lane_own rfl fun _ => rfl
theorem F.pconj (w : LaneWord) : F.Statement (.pconj w) :=
  lane_own rfl fun _ => rfl
theorem F.psimp (w : LaneWord) : F.Statement (.psimp w) :=
  lane_own rfl fun _ => rfl
theorem F.peval (w : LaneWord) : F.Statement (.peval w) :=
  lane_own rfl fun _ => rfl
theorem F.parg (w : LaneWord) : F.Statement (.parg w) :=
  lane_own rfl fun _ => rfl
theorem F.pget (w : LaneWord) : F.Statement (.pget w) :=
  lane_own rfl fun _ => rfl
theorem F.vlate (w : LaneWord) : F.Statement (.vlate w) :=
  lane_own rfl fun _ => rfl
theorem F.vres (w : LaneWord) : F.Statement (.vres w) :=
  lane_own rfl fun _ => rfl
theorem F.sybindManual (w : LaneWord) : F.Statement (.sybindManual w) :=
  lane_own rfl fun h => by
  simp only [Instr.wf, Bool.and_eq_true, beq_iff_eq] at h
  simp_all [laneInstr]
theorem F.sybindCnt (w : LaneWord) : F.Statement (.sybindCnt w) :=
  lane_own rfl fun h => by
  simp only [Instr.wf, Bool.and_eq_true, beq_iff_eq] at h
  simp_all [laneInstr]
theorem F.sybindSlot (w : LaneWord) : F.Statement (.sybindSlot w) :=
  lane_own rfl fun h => by
  simp only [Instr.wf, Bool.and_eq_true, beq_iff_eq, Bool.or_eq_true] at h
  rcases h.2 with h | h <;> simp [laneInstr, h]
theorem F.syset (w : LaneWord) : F.Statement (.syset w) :=
  lane_own rfl fun _ => rfl
theorem F.syrel (w : LaneWord) : F.Statement (.syrel w) :=
  lane_own rfl fun _ => rfl
theorem F.vkand (w : LaneWord) : F.Statement (.vkand w) :=
  lane_own rfl fun _ => rfl
theorem F.vkor (w : LaneWord) : F.Statement (.vkor w) :=
  lane_own rfl fun _ => rfl
theorem F.vkxor (w : LaneWord) : F.Statement (.vkxor w) :=
  lane_own rfl fun _ => rfl
theorem F.vkandn (w : LaneWord) : F.Statement (.vkandn w) :=
  lane_own rfl fun _ => rfl
theorem F.vknot (w : LaneWord) : F.Statement (.vknot w) :=
  lane_own rfl fun _ => rfl
theorem F.vkset (w : LaneWord) : F.Statement (.vkset w) :=
  lane_own rfl fun h => by
  simp only [Instr.wf, Bool.and_eq_true, beq_iff_eq, decide_eq_true_eq] at h
  simp_all [laneInstr]
theorem F.vksetC (w : LaneWord) : F.Statement (.vksetC w) :=
  lane_own rfl fun h => by
  simp only [Instr.wf, Bool.and_eq_true, beq_iff_eq, Bool.or_eq_true] at h
  rcases h.2 with h | h <;> simp [laneInstr, h]
theorem F.laneLoadComplete (op : Nat) : F.Statement (.laneLoadComplete op) :=
  scalar_own rfl (Nat.zero_le 2)
theorem F.sfuResultWrite (op : Nat) : F.Statement (.sfuResultWrite op) :=
  scalar_own rfl (Nat.zero_le 2)
theorem F.copyStart (op : Nat) : F.Statement (.copyStart op) :=
  scalar_own rfl (Nat.zero_le 2)
theorem F.copyComplete (op : Nat) : F.Statement (.copyComplete op) :=
  scalar_own rfl (Nat.zero_le 2)
theorem F.orderedCloseStep (op : Nat) : F.Statement (.orderedCloseStep op) :=
  scalar_own rfl (Nat.zero_le 2)
theorem F.orderedQueueExhausted (h : Home) : F.Statement (.orderedQueueExhausted h) :=
  scalar_own rfl (Nat.zero_le 2)
theorem F.accumulatorGrant (core : Nat) : F.Statement (.accumulatorGrant core) :=
  scalar_own rfl (Nat.zero_le 2)
theorem F.matrixOperationComplete (core : Nat) : F.Statement (.matrixOperationComplete core) :=
  scalar_own rfl (Nat.zero_le 2)
theorem F.writeBackPerformed (op : Nat) : F.Statement (.writeBackPerformed op) :=
  scalar_own rfl (Nat.zero_le 2)
theorem F.profileOperationComplete (core : Nat) : F.Statement (.profileOperationComplete core) :=
  scalar_own rfl (Nat.zero_le 2)
theorem F.collectiveDescriptor (part idx team seq rank : Nat) (d : CollDesc) (tile : List Nat) : F.Statement (.collectiveDescriptor part idx team seq rank d tile) :=
  scalar_own rfl (Nat.zero_le 2)
theorem F.collectiveComplete (op : Nat) : F.Statement (.collectiveComplete op) :=
  scalar_own rfl (Nat.zero_le 2)
theorem F.collectiveTimeout (op : Nat) : F.Statement (.collectiveTimeout op) :=
  scalar_own rfl (Nat.zero_le 2)
theorem F.symbolResolution (team sym : Nat) : F.Statement (.symbolResolution team sym) :=
  scalar_own rfl (Nat.zero_le 2)
theorem F.filingComplete (p : Nat) : F.Statement (.filingComplete p) :=
  scalar_own rfl (Nat.zero_le 2)
theorem F.drainLaunch (p : Nat) : F.Statement (.drainLaunch p) :=
  scalar_own rfl (Nat.zero_le 2)
theorem F.factRelaunch (p : Nat) : F.Statement (.factRelaunch p) :=
  scalar_own rfl (Nat.zero_le 2)
theorem F.factDiscard (p : Nat) : F.Statement (.factDiscard p) :=
  scalar_own rfl (Nat.zero_le 2)
theorem F.accreset (p : Nat) : F.Statement (.accreset p) :=
  scalar_own rfl (Nat.zero_le 2)
theorem F.recordAcceptance (p : Nat) : F.Statement (.recordAcceptance p) :=
  scalar_own rfl (Nat.zero_le 2)
theorem F.launchAgentWake (p : Nat) : F.Statement (.launchAgentWake p) :=
  scalar_own rfl (Nat.zero_le 2)
theorem F.hostLaunchPort (p addr : Nat) : F.Statement (.hostLaunchPort p addr) :=
  scalar_own rfl (Nat.zero_le 2)
theorem F.teamAdmission (p : Nat) : F.Statement (.teamAdmission p) :=
  scalar_own rfl (Nat.zero_le 2)
theorem F.preemptionSave (team : Nat) : F.Statement (.preemptionSave team) :=
  scalar_own rfl (Nat.zero_le 2)
theorem F.gridRetirement (grid : Nat) : F.Statement (.gridRetirement grid) :=
  scalar_own rfl (Nat.zero_le 2)
theorem F.faultRecordEnqueue (core : Nat) : F.Statement (.faultRecordEnqueue core) :=
  scalar_own rfl (Nat.zero_le 2)
theorem F.curatorTrap (core : Nat) : F.Statement (.curatorTrap core) :=
  scalar_own rfl (Nat.zero_le 2)
theorem F.verdictApplication (core : Nat) : F.Statement (.verdictApplication core) :=
  scalar_own rfl (Nat.zero_le 2)
theorem F.hotspotMigration (die : Nat) : F.Statement (.hotspotMigration die) :=
  scalar_own rfl (Nat.zero_le 2)
theorem F.translationWalk (p : Nat) : F.Statement (.translationWalk p) :=
  scalar_own rfl (Nat.zero_le 2)
theorem F.serviceResponse (p : Nat) : F.Statement (.serviceResponse p) :=
  scalar_own rfl (Nat.zero_le 2)
theorem F.scrubPass (die : Nat) : F.Statement (.scrubPass die) :=
  scalar_own rfl (Nat.zero_le 2)
theorem F.spareSwapRequest (v : Word) : F.Statement (.spareSwapRequest v) :=
  scalar_own rfl (Nat.zero_le 2)
theorem F.hostMemoryWrite (addr : Nat) (bytes : List Byte) : F.Statement (.hostMemoryWrite addr bytes) :=
  scalar_own rfl (Nat.zero_le 2)
theorem F.hostMemoryRead (addr len : Nat) : F.Statement (.hostMemoryRead addr len) :=
  scalar_own rfl (Nat.zero_le 2)
theorem F.peerRequest (p asid : Nat) (r : PeerReq) : F.Statement (.peerRequest p asid r) :=
  scalar_own rfl (Nat.zero_le 2)
theorem F.memoryLinkFailure (i : Nat) : F.Statement (.memoryLinkFailure i) :=
  scalar_own rfl (Nat.zero_le 2)
theorem F.nalmondLinkDown (j : Nat) : F.Statement (.nalmondLinkDown j) :=
  scalar_own rfl (Nat.zero_le 2)
theorem F.peerUnreachable (op : Nat) : F.Statement (.peerUnreachable op) :=
  scalar_own rfl (Nat.zero_le 2)
theorem F.flitCrcFailure (j : Nat) : F.Statement (.flitCrcFailure j) :=
  scalar_own rfl (Nat.zero_le 2)
theorem F.nalmondLaneLoss (j : Nat) : F.Statement (.nalmondLaneLoss j) :=
  scalar_own rfl (Nat.zero_le 2)
theorem F.peerLinkReturn (j : Nat) : F.Statement (.peerLinkReturn j) :=
  scalar_own rfl (Nat.zero_le 2)
theorem F.vectorUnmask (v : Nat) : F.Statement (.vectorUnmask v) :=
  scalar_own rfl (Nat.zero_le 2)
theorem F.exit : F.Statement .exit :=
  scalar_own rfl (Nat.le_succ 1)
theorem F.tail : F.Statement .tail :=
  scalar_own rfl (Nat.le_succ 1)
theorem F.hret : F.Statement .hret :=
  scalar_own rfl (Nat.le_succ 1)
theorem F.melse : F.Statement .melse :=
  scalar_own rfl (Nat.le_succ 1)
theorem F.mpop : F.Statement .mpop :=
  scalar_own rfl (Nat.le_succ 1)
theorem F.gbar : F.Statement .gbar :=
  scalar_own rfl (Nat.le_succ 1)
theorem F.bkfenceAll : F.Statement .bkfenceAll :=
  scalar_own rfl (Nat.le_succ 1)
theorem F.eret : F.Statement .eret :=
  scalar_own rfl (Nat.le_succ 1)
theorem F.pollingRecheck : F.Statement .pollingRecheck :=
  scalar_own rfl (Nat.zero_le 2)
theorem F.marketInterval : F.Statement .marketInterval :=
  scalar_own rfl (Nat.zero_le 2)
theorem F.budgetTakeEffect : F.Statement .budgetTakeEffect :=
  scalar_own rfl (Nat.zero_le 2)
theorem F.clockRaise : F.Statement .clockRaise :=
  scalar_own rfl (Nat.zero_le 2)
theorem F.governorSubslot : F.Statement .governorSubslot :=
  scalar_own rfl (Nat.zero_le 2)
theorem F.hostAllocationDeadline : F.Statement .hostAllocationDeadline :=
  scalar_own rfl (Nat.zero_le 2)
theorem F.spareSwapComplete : F.Statement .spareSwapComplete :=
  scalar_own rfl (Nat.zero_le 2)
theorem F.hostLinkReset : F.Statement .hostLinkReset :=
  scalar_own rfl (Nat.zero_le 2)
theorem F.bringUp : F.Statement .bringUp :=
  scalar_own rfl (Nat.zero_le 2)
theorem F.recordWindowDeadline : F.Statement .recordWindowDeadline :=
  scalar_own rfl (Nat.zero_le 2)
theorem F.attestationRequest : F.Statement .attestationRequest :=
  scalar_own rfl (Nat.zero_le 2)
theorem F.attestationReportReady : F.Statement .attestationReportReady :=
  scalar_own rfl (Nat.zero_le 2)
theorem F.illegalInstruction : F.Statement .illegalInstruction :=
  scalar_own rfl (Nat.zero_le 2)

end Sys2Proof.Laws
end

