-- ==== Sys2Proof/Tests/Slice0.lean ====
section
/-! SUPPORT. Small tests: decoding of words written out from 12 R214-R224, ill-formed terms that well-formedness refuses, a witness for the
hypotheses of every obligation and of each of its clauses, and single steps whose results the spec gives. -/

namespace Sys2Proof.Tests

open Sys2Proof Sys2Proof.Machine

set_option Elab.async false

/-- Words of 12 R223, field by field: control. -/
theorem test_decode_control : ∀ p ∈ ([(0x03fffff0, .br 0x1FFFFF0), (0x04500400, .jal 20 ⟨0xFFFFFC00, false⟩), (0x06021000, .jr 66),
    (0x09901807, .beq 100 3 ⟨7, false⟩), (0x0b942008, .bne 101 4 ⟨8, false⟩), (0x0d982809, .blt 102 5 ⟨9, false⟩),
    (0x0f9c300a, .bge 103 6 ⟨10, false⟩), (0x10000000, .exit), (0x12000000, .tail), (0x1400beef, .trap 0xBEEF),
    (0x16001234, .brk 0x1234), (0x180007ff, .hsetLabel ⟨0xFFFFFFFF, false⟩), (0x18031000, .hsetRegister 98 false),
    (0x1a000000, .hret), (0x1c002fff, .lpc 5 ⟨0x7FF, false⟩), (0xf8000040, .lx 64), (0xfaff57fe, .lxa 63 106 ⟨0x7FE, false⟩)] : List (Word × Instr)),
    decodeScalar p.1 none = .ok (p.2, 1) ∧ p.2.wf = true ∧ encode p.2 = [p.1] := by decide +kernel

/-- Words of 12 R223, field by field: integer. -/
theorem test_decode_integer : ∀ p ∈ ([(0x21fe0000, .add 127 64 0), (0x23fa0810, .sub 126 65 1), (0x25f61020, .mul 125 66 2), (0x27f21830, .mulh 124 67 3),
    (0x29ee2040, .mulhu 123 68 4), (0x2bea2850, .and 122 69 5), (0x2de63060, .or 121 70 6), (0x2fe23870, .xor 120 71 7),
    (0x31de4080, .shl 119 72 8), (0x33da4890, .shr 118 73 9), (0x35d650a0, .sra 117 74 10), (0x37d258b0, .slt 116 75 11),
    (0x39ce60c0, .sltu 115 76 12), (0x3bca68d0, .min 114 77 13), (0x3dc670e0, .max 113 78 14), (0x3f055000, .popc 65 42)] : List (Word × Instr)),
    decodeScalar p.1 none = .ok (p.2, 1) ∧ p.2.wf = true ∧ encode p.2 = [p.1] := by decide +kernel

/-- Words of 12 R223, field by field: immediate and pairs. -/
theorem test_decode_immediate_and_pairs : ∀ p ∈ ([(0x41fa13f0, .addi 126 66 ⟨0x3f0, false⟩), (0x43f227f1, .andi 124 68 ⟨0xfffffff1, false⟩),
    (0x45ea33f2, .ori 122 70 ⟨0x3f2, false⟩), (0x47e247f3, .xori 120 72 ⟨0xfffffff3, false⟩), (0x4918481d, .shli 70 9 29),
    (0x4b1c501e, .shri 71 10 30), (0x4d20581f, .srai 72 11 31), (0x4fda53f4, .slti 118 74 ⟨0x3f4, false⟩),
    (0x51d267f5, .sltui 116 76 ⟨0xfffffff5, false⟩), (0x5bca73f6, .addi64 114 78 ⟨0x3f6, false⟩), (0x53fa0000, .add64 126 64 0),
    (0x55f21020, .sub64 124 66 2), (0x57ea2040, .shl64 122 68 4), (0x59e23060, .shr64 120 70 6), (0x5dda4080, .mul64 118 72 8),
    (0x5fd250a0, .sltu64 116 74 10)] : List (Word × Instr)),
    decodeScalar p.1 none = .ok (p.2, 1) ∧ p.2.wf = true ∧ encode p.2 = [p.1] := by decide +kernel

/-- Words of 12 R223, field by field: memory masks moves. -/
theorem test_decode_memory_masks_moves : ∀ p ∈ ([(0x61c287f7, .sldTeamMemory 112 80 ⟨0xfffffff7, false⟩), (0x63ba93f8, .sldAnnex 110 82 ⟨0x3f8, false⟩),
    (0x65b2a7f9, .sstTeamMemory 108 84 ⟨0xfffffff9, false⟩), (0x67aab3fa, .sstAnnex 106 86 ⟨0x3fa, false⟩),
    (0x681c4609, .sldAcq 7 8 true 2 9), (0x6a1c4700, .sstRel 7 8 true 3), (0x78000017, .mpush 23), (0x7a000000, .melse),
    (0x7c000000, .mpop), (0x7f340053, .kget 77 2 19), (0x80027035, .kset 78 1 21), (0x821434fc, .movvs 5 6 319),
    (0x8e182c04, .movsv 6 5 257), (0x84840011, .sget 33 17), (0x8601100c, .sset 34 12), (0x888d2000, .elect 35 36),
    (0x8a7543c0, .shld true 13 40 ⟨0x3C0, false⟩), (0x8c3948f0, .shset 14 41 15)] : List (Word × Instr)),
    decodeScalar p.1 none = .ok (p.2, 1) ∧ p.2.wf = true ∧ encode p.2 = [p.1] := by decide +kernel

/-- Words of 12 R223, field by field: waits. -/
theorem test_decode_waits : ∀ p ∈ ([(0x900004c8, .wait 4 200), (0x92d37ffe, .yield 3 77 0x3FFE), (0x94000004, .fence 4), (0x9601900f, .bsinit 50 15),
    (0x98cc000e, .bsarr 51 14), (0x9a01a00d, .bswait 52 13), (0x9c00000c, .bsaw 12), (0x9e000000, .gbar), (0xa001b370, .wcnt 54 55),
    (0xa201c390, .wadr 56 57), (0xa4d4000b, .bsget 53 11)] : List (Word × Instr)),
    decodeScalar p.1 none = .ok (p.2, 1) ∧ p.2.wf = true ∧ encode p.2 = [p.1] := by decide +kernel

/-- Words of 12 R223, field by field: copies. -/
theorem test_decode_copies : ∀ p ∈ ([(0xb1e2f000, .cpl 15 1 60 0), (0xb3c4f820, .cps 14 2 62 1), (0xb5a70040, .cpx 13 3 64 2), (0xb7890860, .cpm 12 4 66 3),
    (0xb96b1080, .cpg 11 5 68 4), (0xbb4d18a0, .cprPut 10 6 70 5), (0xbb2f20c1, .cprGet 9 7 72 6),
    (0xbd3503e6, .cpa 9 10 64 31 true 2), (0xbe0109e1, .cpw 66 15 true), (0xc11128e0, .cpst 8 8 74 7),
    (0xc21710e3, .cpcb 11 68 7 3), (0xc40a3470, .aclose 2 70 71), (0xc78120c4, .clar 12 72 6 true 0),
    (0xc9a128a2, .clrs 13 74 5 false 2), (0xcbc13080, .clag 14 76 4), (0xcde13be0, .clbc 15 78 31),
    (0xcf42901c, .launch 80 82 true 12)] : List (Word × Instr)),
    decodeScalar p.1 none = .ok (p.2, 1) ∧ p.2.wf = true ∧ encode p.2 = [p.1] := by decide +kernel

/-- Words of 12 R223, field by field: engines. -/
theorem test_decode_engines : ∀ p ∈ ([(0xd1695625, .mxa true false true true false 9 5 6 37 none), (0xd34153e5, .mxwb 10 84 31 true false true),
    (0xd5580000, .mxfence 86), (0xd602b800, .mxwait 87), (0xe02563f3, .bkfile 1 2 88 true 3), (0xe2f33100, .bkcommit 7 9 76 8),
    (0xe568000b, .bkstat 90 11), (0xe602e000, .bkfence 92), (0xe6000010, .bkfenceAll), (0xe97af800, .stget 94 95),
    (0xea030000, .stclr 96)] : List (Word × Instr)),
    decodeScalar p.1 none = .ok (p.2, 1) ∧ p.2.wf = true ∧ encode p.2 = [p.1] := by decide +kernel

/-- Words of 12 R223, field by field: privileged. -/
theorem test_decode_privileged : ∀ p ∈ ([(0xec000000, .eret), (0xef8726e0, .cwinRead 97 100 110), (0xf0045800, .gctlHalt 1 11), (0xf0086010, .gctlResume 2 12),
    (0xf00c6820, .gctlReplay 3 13), (0xf0107030, .gctlCancel 4 14), (0xf0140040, .gctlCompact 5 0), (0xf0180050, .gctlTake 6 0),
    (0xf01c8860, .gctlKill 7 17), (0xf0209070, .gctlStep 8 18), (0xf38b36f0, .ctxSave 98 102 111), (0xf4034690, .tinv 104 105),
    (0xf78f4700, .cfgRead 99 104 112)] : List (Word × Instr)),
    decodeScalar p.1 none = .ok (p.2, 1) ∧ p.2.wf = true ∧ encode p.2 = [p.1] := by decide +kernel

/-- Lane words of 12 R217, R224, field by field: integer. -/
theorem test_decode_lane_integer : ∀ p ∈ ([(0x24b0c001, 0xc83, 0x0, .vaddInt ⟨0, false, 3, 300, 100, 200, 0, 0, 0, 0x0⟩),
    (0x2cb52102, 0x40000003, 0xcafebabe, .vsubInt ⟨1, true, 4, 301, 101, 0, 0, 0, 16, 0xcafebabe⟩),
    (0x34b94203, 0x80000003, 0x7d, .vmulInt ⟨2, false, 5, 302, 102, 0, 0, 0, 32, 0x7d⟩),
    (0x3cbe2304, 0xcb3, 0x0, .vmulh ⟨3, true, 8, 303, 103, 203, 0, 0, 0, 0x0⟩),
    (0x44c1c405, 0x1fccc3, 0x0, .vmad ⟨4, false, 7, 304, 104, 204, 254, 0, 0, 0x0⟩),
    (0x4cc5e506, 0x3, 0x0, .vabsInt ⟨5, true, 7, 305, 105, 0, 0, 0, 0, 0x0⟩),
    (0x54ca4607, 0x3, 0x0, .vnegInt ⟨6, false, 9, 306, 106, 0, 0, 0, 0, 0x0⟩),
    (0x5ccce708, 0xcf3, 0x0, .vminInt ⟨7, true, 3, 307, 107, 207, 0, 0, 0, 0x0⟩),
    (0x64d10809, 0xd03, 0x0, .vmaxInt ⟨8, false, 4, 308, 108, 208, 0, 0, 0, 0x0⟩),
    (0x6cd5690a, 0xd13, 0x0, .vadds ⟨9, true, 5, 309, 109, 209, 0, 0, 0, 0x0⟩),
    (0x74b18a0b, 0xd23, 0x0, .vsubs ⟨10, false, 6, 300, 110, 210, 0, 0, 0, 0x0⟩),
    (0x7cb72b0c, 0xd33, 0x0, .vand ⟨11, true, 12, 301, 111, 211, 0, 0, 0, 0x0⟩),
    (0x84bb0c0d, 0xd43, 0x0, .vor ⟨12, false, 12, 302, 112, 212, 0, 0, 0, 0x0⟩),
    (0x8cbf2d0e, 0xd53, 0x0, .vxor ⟨13, true, 12, 303, 113, 213, 0, 0, 0, 0x0⟩),
    (0x94c30e0f, 0x3, 0x0, .vnot ⟨14, false, 12, 304, 114, 0, 0, 0, 0, 0x0⟩),
    (0x9cc6af10, 0xd73, 0x0, .vshl ⟨15, true, 10, 305, 115, 215, 0, 0, 0, 0x0⟩),
    (0xa4cad011, 0xd83, 0x0, .vshr ⟨16, false, 11, 306, 116, 216, 0, 0, 0, 0x0⟩),
    (0xaccd7112, 0xd93, 0x0, .vsra ⟨17, true, 5, 307, 117, 217, 0, 0, 0, 0x0⟩),
    (0xb4d31213, 0x3, 0x0, .vpopc ⟨18, false, 12, 308, 118, 0, 0, 0, 0, 0x0⟩),
    (0xbcd6b314, 0x3, 0x0, .vclz ⟨19, true, 10, 309, 119, 0, 0, 0, 0, 0x0⟩),
    (0xc4b0d415, 0xdc3, 0x0, .vbfx ⟨20, false, 3, 300, 120, 220, 0, 0, 0, 0x0⟩),
    (0xccb73516, 0x21edd3, 0x0, .vbfi ⟨21, true, 12, 301, 121, 221, 271, 0, 0, 0x0⟩),
    (0x4bb5617, 0xde0, 0x0, .vmov ⟨22, false, 13, 302, 0, 222, 0, 0, 0, 0x0⟩),
    (0xdcbc3718, 0x2adf3, 0x0, .vsel ⟨23, true, 0, 303, 123, 223, 21, 0, 0, 0x0⟩),
    (0xe0590019, 0x14000e03, 0x0, .vcmpInt ⟨0, false, 4, 22, 124, 224, 0, 0, 5, 0x0⟩)] : List (Word × Word × Word × Instr)),
    decodeLane (laneOfWords p.1 p.2.1 p.2.2.1) = .ok p.2.2.2 ∧ p.2.2.2.wf = true ∧ encode p.2.2.2 = [p.1, p.2.1, p.2.2.1] := by decide +kernel

/-- Lane words of 12 R217, R224, field by field: float. -/
theorem test_decode_lane_float : ∀ p ∈ ([(0x10781f40, 0xd24, 0x0, .vaddFp ⟨31, false, 0, 30, 130, 210, 0, 0, 0, 0x0⟩),
    (0x187c5f41, 0xd34, 0x0, .vsubFp ⟨31, false, 1, 31, 131, 211, 0, 0, 0, 0x0⟩),
    (0x20809f42, 0xd44, 0x0, .vmulFp ⟨31, false, 2, 32, 132, 212, 0, 0, 0, 0x0⟩),
    (0x28841f43, 0x9ad54, 0x0, .vfma ⟨31, false, 0, 33, 133, 213, 77, 0, 0, 0x0⟩),
    (0x30885f44, 0x4, 0x0, .vnegFp ⟨31, false, 1, 34, 134, 0, 0, 0, 0, 0x0⟩),
    (0x388c9f45, 0x4, 0x0, .vabsFp ⟨31, false, 2, 35, 135, 0, 0, 0, 0, 0x0⟩),
    (0x40901f46, 0xd84, 0x0, .vminFp ⟨31, false, 0, 36, 136, 216, 0, 0, 0, 0x0⟩),
    (0x48945f47, 0xd94, 0x0, .vmaxFp ⟨31, false, 1, 37, 137, 217, 0, 0, 0, 0x0⟩),
    (0x50501f48, 0x1c000da4, 0x0, .vcmpFp ⟨31, false, 0, 20, 138, 218, 0, 0, 7, 0x0⟩),
    (0x589c1f49, 0x10000004, 0x0, .vrnd ⟨31, false, 0, 39, 139, 0, 0, 0, 4, 0x0⟩)] : List (Word × Word × Word × Instr)),
    decodeLane (laneOfWords p.1 p.2.1 p.2.2.1) = .ok p.2.2.2 ∧ p.2.2.2.wf = true ∧ encode p.2.2.2 = [p.1, p.2.1, p.2.2.1] := by decide +kernel

/-- Lane words of 12 R217, R224, field by field: sfu. -/
theorem test_decode_lane_sfu : ∀ p ∈ ([(0x60a02060, 0x3c00004, 0x0, .vrcp ⟨0, true, 0, 40, 140, 0, 0, 15, 0, 0x0⟩),
    (0x68a42161, 0x3800004, 0x0, .vrsqrt ⟨1, true, 0, 41, 141, 0, 0, 14, 0, 0x0⟩),
    (0x70a82262, 0x3400004, 0x0, .vsqrt ⟨2, true, 0, 42, 142, 0, 0, 13, 0, 0x0⟩),
    (0x78ac2363, 0x3000004, 0x0, .vexp2 ⟨3, true, 0, 43, 143, 0, 0, 12, 0, 0x0⟩),
    (0x80b02464, 0x2c00004, 0x0, .vlog2 ⟨4, true, 0, 44, 144, 0, 0, 11, 0, 0x0⟩),
    (0x88b42565, 0x2800004, 0x0, .vsin ⟨5, true, 0, 45, 145, 0, 0, 10, 0, 0x0⟩),
    (0x90b82666, 0x2400004, 0x0, .vcos ⟨6, true, 0, 46, 146, 0, 0, 9, 0, 0x0⟩),
    (0x98bc2767, 0x2000004, 0x0, .vtanh ⟨7, true, 0, 47, 147, 0, 0, 8, 0, 0x0⟩),
    (0xa0c02868, 0x1c00004, 0x0, .vsigm ⟨8, true, 0, 48, 148, 0, 0, 7, 0, 0x0⟩),
    (0xa8c42969, 0x1800dc4, 0x0, .vdiv ⟨9, true, 0, 49, 149, 220, 0, 6, 0, 0x0⟩)] : List (Word × Word × Word × Instr)),
    decodeLane (laneOfWords p.1 p.2.1 p.2.2.1) = .ok p.2.2.2 ∧ p.2.2.2.wf = true ∧ encode p.2.2.2 = [p.1, p.2.1, p.2.2.1] := by decide +kernel

/-- Lane words of 12 R217, R224, field by field: conversion. -/
theorem test_decode_lane_conversion : ∀ p ∈ ([(0xb0c8c380, 0x10000004, 0x0, .vcvt ⟨3, false, 3, 50, 150, 0, 0, 0, 4, 0x0⟩),
    (0xb8cc0481, 0x84000004, 0x9, .vpack ⟨4, false, 0, 51, 151, 0, 0, 0, 33, 0x9⟩),
    (0xc0d0e582, 0x4, 0x0, .vunpk ⟨5, true, 3, 52, 152, 0, 0, 0, 0, 0x0⟩),
    (0xc8d40683, 0x4, 0x0, .vbscale ⟨6, false, 0, 53, 153, 0, 0, 0, 0, 0x0⟩)] : List (Word × Word × Word × Instr)),
    decodeLane (laneOfWords p.1 p.2.1 p.2.2.1) = .ok p.2.2.2 ∧ p.2.2.2.wf = true ∧ encode p.2.2.2 = [p.1, p.2.1, p.2.2.1] := by decide +kernel

/-- Lane words of 12 R217, R224, field by field: cross. -/
theorem test_decode_lane_cross : ∀ p ∈ ([(0xd0db07a0, 0xe64, 0x0, .vperm ⟨7, false, 12, 54, 154, 230, 0, 0, 0, 0x0⟩),
    (0xd8df27a1, 0x4, 0x7f, .vshx ⟨7, true, 12, 55, 155, 0, 0, 0, 0, 0x7f⟩),
    (0xe0e308a2, 0x4000004, 0x5f, .vup ⟨8, false, 12, 56, 156, 0, 0, 0, 1, 0x5f⟩),
    (0xe8e728a3, 0x4, 0x1, .vdn ⟨8, true, 12, 57, 157, 0, 0, 0, 0, 0x1⟩),
    (0xf0eb09a4, 0x4000004, 0x7f, .vbcast ⟨9, false, 12, 58, 158, 0, 0, 0, 1, 0x7f⟩),
    (0xf8ed29a5, 0xa8000004, 0x0, .vred ⟨9, true, 4, 59, 159, 0, 0, 0, 42, 0x0⟩),
    (0xf30aa6, 0x74000005, 0x0, .vscan ⟨10, false, 12, 60, 160, 0, 0, 0, 29, 0x0⟩)] : List (Word × Word × Word × Instr)),
    decodeLane (laneOfWords p.1 p.2.1 p.2.2.1) = .ok p.2.2.2 ∧ p.2.2.2.wf = true ∧ encode p.2.2.2 = [p.1, p.2.1, p.2.2.1] := by decide +kernel

/-- Lane words of 12 R217, R224, field by field: memory. -/
theorem test_decode_lane_memory : ∀ p ∈ ([(0x8f5eac0, 0x5d400005, 0xffff0040, .vld ⟨10, true, 7, 61, 161, 0, 0, 5, 23, 0xffff0040⟩),
    (0x38bc1, 0x1040, 0x1203, .vst ⟨11, false, 14, 0, 0, 260, 0, 0, 0, 0x1203⟩),
    (0x10fb2bc2, 0x2980ee75, 0x5, .vatom ⟨11, true, 12, 62, 162, 231, 7, 6, 10, 0x5⟩),
    (0x18000cc3, 0xa8000e85, 0x6, .vfatomAddOrd ⟨12, false, 0, 0, 163, 232, 0, 0, 42, 0x6⟩),
    (0x20fc2cc3, 0xdc02e95, 0x7, .vfatomMax ⟨12, true, 0, 63, 164, 233, 1, 7, 3, 0x7⟩),
    (0x35fc4, 0xea0, 0x2005, .vspill ⟨31, false, 13, 0, 0, 234, 0, 0, 0, 0x2005⟩),
    (0x1039fc5, 0x2000000, 0x4006, .vfill ⟨31, false, 14, 64, 0, 0, 0, 8, 0, 0x4006⟩)] : List (Word × Word × Word × Instr)),
    decodeLane (laneOfWords p.1 p.2.1 p.2.2.1) = .ok p.2.2.2 ∧ p.2.2.2.wf = true ∧ encode p.2.2.2 = [p.1, p.2.1, p.2.2.1] := by decide +kernel

/-- Lane words of 12 R217, R224, field by field: profile. -/
theorem test_decode_lane_profile : ∀ p ∈ ([(0x281c1fd0, 0x5, 0x0, .pclr ⟨31, false, 0, 7, 165, 0, 0, 0, 0, 0x0⟩),
    (0x30182dd1, 0x8eeb5, 0x0, .pins ⟨13, true, 0, 6, 166, 235, 71, 0, 0, 0x0⟩),
    (0x20141fd2, 0x30, 0x0, .pmax ⟨31, false, 0, 5, 4, 3, 0, 0, 0, 0x0⟩),
    (0x18101fd3, 0x8000020, 0x0, .padd ⟨31, false, 0, 4, 3, 2, 0, 0, 2, 0x0⟩),
    (0x100c1fd4, 0x10, 0x0, .pinf ⟨31, false, 0, 3, 2, 1, 0, 0, 0, 0x0⟩),
    (0x8081fd5, 0x0, 0x0, .pconj ⟨31, false, 0, 2, 1, 0, 0, 0, 0, 0x0⟩),
    (0x38041fd6, 0x0, 0x0, .psimp ⟨31, false, 0, 1, 7, 0, 0, 0, 0, 0x0⟩),
    (0x31040ed7, 0x2400ec0, 0x0, .peval ⟨14, false, 0, 65, 6, 236, 0, 9, 0, 0x0⟩),
    (0x29082ed8, 0x2800ed0, 0x0, .parg ⟨14, true, 0, 66, 5, 237, 0, 10, 0, 0x0⟩),
    (0x21100fd9, 0x2c00000, 0x12c, .pget ⟨15, false, 0, 68, 4, 0, 0, 11, 0, 0x12c⟩)] : List (Word × Word × Word × Instr)),
    decodeLane (laneOfWords p.1 p.2.1 p.2.2.1) = .ok p.2.2.2 ∧ p.2.2.2.wf = true ∧ encode p.2.2.2 = [p.1, p.2.1, p.2.2.1] := by decide +kernel

/-- Lane words of 12 R217, R224, field by field: symbol. -/
theorem test_decode_lane_symbol : ∀ p ∈ ([(0xf91410e0, 0x0, 0x0, .vlate ⟨16, false, 0, 69, 31, 0, 0, 0, 0, 0x0⟩),
    (0x1181fe1, 0x0, 0x0, .vres ⟨31, false, 0, 70, 0, 0, 0, 0, 0, 0x0⟩),
    (0x781fe2, 0x0, 0x0, .sybindManual ⟨31, false, 0, 30, 0, 0, 0, 0, 0, 0x0⟩),
    (0xa0741fe2, 0x4030160, 0x0, .sybindCnt ⟨31, false, 0, 29, 20, 22, 24, 0, 1, 0x0⟩),
    (0xd0701fe2, 0x180000f0, 0x0, .sybindSlot ⟨31, false, 0, 28, 26, 15, 0, 0, 6, 0x0⟩),
    (0xe06c1fe3, 0x0, 0x0, .syset ⟨31, false, 0, 27, 28, 0, 0, 0, 0, 0x0⟩),
    (0x681fe4, 0x0, 0x0, .syrel ⟨31, false, 0, 26, 0, 0, 0, 0, 0, 0x0⟩)] : List (Word × Word × Word × Instr)),
    decodeLane (laneOfWords p.1 p.2.1 p.2.2.1) = .ok p.2.2.2 ∧ p.2.2.2.wf = true ∧ encode p.2.2.2 = [p.1, p.2.1, p.2.2.1] := by decide +kernel

/-- Lane words of 12 R217, R224, field by field: predicate. -/
theorem test_decode_lane_predicate : ∀ p ∈ ([(0x505011e8, 0x50, 0x0, .vkand ⟨17, false, 0, 20, 10, 5, 0, 0, 0, 0x0⟩),
    (0x585412e9, 0x60, 0x0, .vkor ⟨18, false, 0, 21, 11, 6, 0, 0, 0, 0x0⟩),
    (0x605813ea, 0x70, 0x0, .vkxor ⟨19, false, 0, 22, 12, 7, 0, 0, 0, 0x0⟩),
    (0x685c14eb, 0x80, 0x0, .vkandn ⟨20, false, 0, 23, 13, 8, 0, 0, 0, 0x0⟩),
    (0x904c35ec, 0x0, 0x0, .vknot ⟨21, true, 0, 19, 18, 0, 0, 0, 0, 0x0⟩),
    (0x584416ed, 0x7c000005, 0x0, .vkset ⟨22, false, 0, 17, 171, 0, 0, 0, 31, 0x0⟩),
    (0x4017ed, 0x84000000, 0x0, .vksetC ⟨23, false, 0, 16, 0, 0, 0, 0, 33, 0x0⟩)] : List (Word × Word × Word × Instr)),
    decodeLane (laneOfWords p.1 p.2.1 p.2.2.1) = .ok p.2.2.2 ∧ p.2.2.2.wf = true ∧ encode p.2.2.2 = [p.1, p.2.1, p.2.2.1] := by decide +kernel

/-! ### Ill-formed terms (12 R225) -/

/-- A lane word that is always guarded and has no modifier. -/
def lw (ty : BitVec 4) (vd va vb vc : VReg) : LaneWord := ⟨31, false, ty, vd, va, vb, vc, 0, 0, 0⟩

/-- Immediates that the field cannot hold, counts and register fields out of range, in scalar words. -/
theorem test_illformed_scalar : ∀ i ∈ ([.addi 1 2 ⟨0x400, false⟩, .jal 2 ⟨0x800, false⟩, .lpc 2 ⟨0xFFFFFFFF, false⟩, .lxa 3 2 ⟨0x800, false⟩,
    .lxa 64 2 ⟨0, false⟩, .lx 0, .lx 65, .hsetRegister 0 false, .hsetLabel ⟨0x400, false⟩, .mpush 24, .kget 1 3 0, .kget 1 0 24, .kset 1 3 0, .kset 1 2 24,
    .sget 1 18, .sset 1 18, .shset 1 2 17, .shset 1 2 16, .shld false 1 2 ⟨0x400, false⟩, .wait 5 0, .yield 5 0 0, .fence 5, .sldAnnex 1 2 ⟨0x400, false⟩,
    .cpl 1 2 4 16, .cps 1 2 4 30, .cpx 1 2 4 20, .cpm 1 2 4 16, .cpg 1 2 4 16, .cprPut 1 2 4 16, .cprGet 1 2 4 30, .cpw 4 16 false, .cpst 1 2 4 16,
    .cpcb 1 4 16 0, .clag 1 4 16, .clbc 1 4 16, .bkcommit 1 2 4 16, .mxwb 1 0 16 false false false, .cpa 1 2 4 16 false 0, .cpa 1 2 4 31 false 3,
    .aclose 3 4 5, .clar 1 4 31 false 3, .clar 1 4 31 true 1, .clrs 1 4 31 true 2, .clrs 1 4 16 false 0, .bkstat 1 12, .bkfence 0, .gctlCompact 5 15, .gctlTake 6 16,
    .mxa false false false false false 0 13 0 0 none, .mxa false false false true false 0 7 0 0 none, .mxa false false false false true 0 0 0 0 none,
    .mxa false false false true true 0 0 0 0 none, .mxa false false false false false 0 0 0 1 none, .mxa false false false true false 0 0 0 64 none,
    .mxa false false false false false 0 4 0 0 (some 1), .mxa false false false true false 0 4 0 0 none] : List Instr), i.wf = false := by
  decide +kernel

/-- Guards, types, modifiers and operand fields that no entry accepts, in arithmetic lane words. -/
theorem test_illformed_arithmetic : ∀ i ∈ ([.vaddInt { lw 3 1 2 3 0 with pred := 24 }, .vaddInt { lw 3 1 2 3 0 with neg := true }, .vaddInt (lw 0 1 2 3 0),
    .vaddInt { lw 3 1 2 3 0 with ext := 1 }, .vaddInt { lw 3 1 2 3 0 with mod := 16, ext := 5 }, .vaddInt { lw 3 1 2 0 0 with mod := 32, ext := 128 },
    .vaddInt { lw 3 1 2 0 0 with mod := 48 }, .vaddInt { lw 3 1 2 3 0 with mod := 1 }, .vaddInt (lw 3 1 2 3 4), .vaddInt { lw 3 1 2 3 0 with la := 1 },
    .vmulh (lw 9 1 2 3 0), .vmad { lw 3 1 2 3 4 with la := 1 }, .vabsInt (lw 4 1 2 0 0), .vabsInt (lw 3 1 2 3 0), .vnegInt { lw 3 1 2 0 0 with ext := 1 },
    .vand (lw 3 1 2 3 0), .vnot (lw 3 1 2 0 0), .vshl (lw 3 1 2 3 0), .vsra (lw 10 1 2 3 0), .vpopc (lw 3 1 2 0 0), .vbfx (lw 12 1 2 3 0), .vbfi (lw 3 1 2 3 4),
    .vmov (lw 12 1 2 3 0), .vmov { lw 13 2 0 0 0 with mod := 16 }, .vmov (lw 1 1 0 3 0), .vsel (lw 12 1 2 3 24), .vsel (lw 1 1 2 3 4), .vcmpInt (lw 3 24 2 3 0),
    .vcmpInt { lw 3 1 2 3 0 with mod := 6 }, .vcmpInt (lw 5 1 2 3 0), .vaddFp (lw 3 1 2 3 0), .vfma { lw 0 1 2 3 4 with mod := 1 }, .vnegFp (lw 0 1 2 3 0),
    .vcmpFp { lw 0 1 2 3 0 with mod := 8 }, .vcmpFp (lw 1 1 2 3 0), .vrnd { lw 0 1 2 0 0 with mod := 5 }, .vrcp (lw 1 1 2 0 0), .vrcp (lw 0 1 2 3 0), .vdiv (lw 0 1 2 3 4),
    .vdiv { lw 0 1 2 3 0 with mod := 1 }, .vcvt { lw 0 1 2 0 0 with mod := 0 }, .vcvt { lw 3 1 2 0 0 with la := 1 }, .vpack { lw 0 1 2 0 0 with mod := 2 }, .vpack (lw 3 1 2 0 0),
    .vpack (lw 0 1 2 3 0), .vunpk { lw 3 1 2 0 0 with mod := 1 }, .vunpk (lw 4 1 2 0 0), .vbscale (lw 1 1 2 0 0)] : List Instr), i.wf = false := by decide +kernel

/-- The same in lane data, profile, symbol and predicate words. -/
theorem test_illformed_data : ∀ i ∈ ([.vperm { lw 12 1 2 3 0 with mod := 1 }, .vperm (lw 3 1 2 3 0), .vshx { lw 12 1 2 0 0 with ext := 128 }, .vup { lw 12 1 2 0 0 with ext := 96 },
    .vdn { lw 12 1 2 0 0 with mod := 2 }, .vbcast { lw 12 1 2 0 0 with mod := 1, ext := 128 }, .vbcast { lw 12 1 2 0 0 with mod := 2 }, .vred { lw 3 1 2 0 0 with mod := 6 },
    .vred { lw 3 1 2 0 0 with mod := 48 }, .vred { lw 12 1 2 0 0 with mod := 2 }, .vscan { lw 3 1 2 0 0 with mod := 3 }, .vld { lw 12 1 0 0 0 with mod := 8 }, .vld { lw 12 1 0 0 0 with mod := 16 },
    .vld (lw 12 1 2 0 0), .vld { lw 12 1 0 0 0 with ext := 128 }, .vld (lw 0 1 0 0 0), .vst { lw 12 0 0 3 0 with mod := 4 }, .vst (lw 12 1 0 3 0), .vst (lw 7 0 0 3 0), .vst { lw 12 0 0 3 0 with la := 1 },
    .vatom (lw 12 1 0 3 0), .vatom (lw 3 1 0 3 8), .vatom { lw 3 1 0 3 0 with mod := 12 }, .vfatomAddOrd (lw 0 1 0 3 0), .vfatomAddOrd { lw 0 0 0 3 0 with mod := 4 }, .vfatomMax (lw 0 1 0 3 0),
    .vspill { lw 12 0 0 3 0 with pred := 1 }, .vspill { lw 12 0 0 3 0 with mod := 1 }, .vspill (lw 5 0 0 3 0), .vfill (lw 12 1 0 3 0), .pclr { lw 0 1 2 0 0 with pred := 1 }, .pclr (lw 0 1 2 3 0),
    .pconj { lw 0 1 2 0 0 with mod := 1 }, .pmax { lw 0 1 2 3 0 with mod := 1 }, .padd { lw 0 1 2 3 0 with mod := 3 }, .pins { lw 0 1 2 3 4 with ext := 1 }, .pins (lw 3 1 2 3 4), .peval (lw 0 1 2 3 4),
    .pget (lw 0 1 2 3 0), .vlate (lw 0 1 2 3 0), .vlate { lw 0 1 2 0 0 with la := 1 }, .vres (lw 0 1 2 0 0), .vres { lw 0 1 0 0 0 with pred := 1 }, .sybindManual { lw 0 1 0 0 0 with mod := 1 },
    .sybindCnt { lw 0 1 2 3 4 with mod := 2 }, .sybindSlot { lw 0 1 2 16 0 with mod := 2 }, .sybindSlot { lw 0 1 2 3 0 with mod := 3 }, .syset (lw 0 1 2 3 0), .syrel (lw 0 1 2 0 0), .vkand (lw 0 24 1 2 0),
    .vkor (lw 0 1 24 2 0), .vkxor (lw 0 1 2 24 0), .vkandn { lw 0 1 2 3 0 with ext := 1 }, .vknot (lw 0 1 2 3 0), .vkset { lw 0 1 2 0 0 with mod := 32 }, .vksetC { lw 0 1 0 0 0 with mod := 34 },
    .vksetC (lw 0 1 2 0 0)] : List Instr), i.wf = false := by decide +kernel

/-- Reserved and unused bits, an unassigned opcode, a prefix alone, a prefix before a word that takes none (12 R216, R225). -/
theorem test_decode_refuses :
    decodeScalar 0x20143071 none = .error (.illegalField 0x10) ∧ decodeScalar 0x10000001 none = .error (.illegalField 0x08) ∧
    decodeScalar 0xB08A2821 none = .error (.illegalField 0x58) ∧ decodeScalar 0x00000000 none = .ok (.illegalInstruction, 1) ∧
    decodeScalar 0xFC000000 none = .ok (.illegalInstruction, 1) ∧ decodeScalar 0xFE000005 none = .error .truncated ∧
    decodeScalar 0xFE000005 (some 0x20143070) = .ok (.extensionPrefix 5, 1) ∧ decodeScalar 0xFE200005 (some 0x40140000) = .error (.illegalField 0x7F) ∧
    decodeScalar 0xFE000041 (some 0xD1A34120) = .error (.illegalField 0x68) ∧ decodeLane 0x1F00 = .ok .illegalInstruction ∧
    decodeLane (laneOfWords 0x00003F01 0 0) = .error (.illegalField 0x01) ∧ decodeText [0, 0, 0] = .error .truncated ∧
    decodeText [0x70, 0x30, 0x14, 0x20, 9] = .ok (.add 5 6 7, [9]) := by decide +kernel


/-! ### States of the witnesses

One team of one group on core 0, its SPC at 0x10000, in a grid of one team (`State.withGroup`). -/

/-- The group issues: an empty agenda, nothing on its way. -/
def boot : State := { State.reset.withGroup false [] with cur := some (.group 0 0), agenda := [] }

/-- Group 0 of team 0. -/
def gOf (s : State) : Group := (s.group 0 0).getD (Group.fresh 9 ⟨0, 0, 0, 0, 0⟩ 9 9 0)

/-- Team 0. -/
def tOf (s : State) : Team := (s.team 0).getD (Team.fresh 9 9 9 (Spec.of 0 false) 0 9 9 9)

def setG (f : Group → Group) (s : State) : State := s.putGroup 0 0 (f (gOf s))

/-- Scalar registers of the group. -/
def sregs (l : List (Nat × Word)) (s : State) : State := setG (fun g => { g with s := l.foldl (fun c e => c.set e.1 e.2) g.s }) s

/-- Rows of 96 values, in canonical form, for vector registers of the group (rising). -/
def rows (l : List (Nat × (Nat → Word))) : Cells 32 :=
  l.flatMap fun e => (List.range 96).filterMap fun j => if e.2 j = 0 then none else some (96 * e.1 + j, e.2 j)

/-- The state after, where there is one. -/
def nx (o : Out) : State := match o with
  | .next s => s
  | _ => State.reset

/-- The Curator of core 0 issues. -/
def curBoot : State := { State.reset.withCurator [] with cur := some (.curator 0), agenda := [] }

theorem issuer_iff (s : State) (t i : Nat) (g : Group) : s.Issuer t i g ↔ s.cur = some (.group t i) ∧ s.group t i = some g :=
  ⟨fun h => ⟨h.cur, h.here⟩, fun h => ⟨h.1, h.2⟩⟩

theorem here_iff (s : State) : s.group 0 0 = some (gOf s) ↔ (s.group 0 0).isSome = true := by
  simp only [gOf]; cases s.group 0 0 <;> simp

theorem team_iff (s : State) : s.team 0 = some (tOf s) ↔ (s.team 0).isSome = true := by
  simp only [tOf]; cases s.team 0 <;> simp

/-- The group issues and has no result on its way, as one test. -/
def issues (s : State) : Bool := decide (s.cur = some (.group 0 0)) && (s.group 0 0).isSome && decide ((gOf s).pend = [])

theorem issues_sound {s : State} (h : issues s = true) : s.Issuer 0 0 (gOf s) ∧ (gOf s).Idle := by
  simp only [issues, Bool.and_eq_true, decide_eq_true_eq] at h
  exact ⟨⟨h.1.1, (here_iff s).2 h.1.2⟩, h.2⟩

/-- What makes the group ready for a plain lane word, as one test. -/
def laneOk (s : State) (rs : List Nat) : Bool :=
  let g := gOf s
  decide (s.cur = some (.group 0 0)) && (s.group 0 0).isSome && decide (g.pend = []) && rs.all (fun r => decide (r < 32 * g.blocks)) &&
    decide (g.tags = []) && g.v.wf && g.k.wf && decide (g.live ≤ 96) && (!g.canEnter .arith || decide (g.reissue = some .arith)) && decide (g.badV = [])

theorem ready_of {s : State} {rs : List Nat} (h : laneOk s rs = true) : s.LaneReady 0 0 (gOf s) rs := by
  simp only [laneOk, Bool.and_eq_true, Bool.or_eq_true, decide_eq_true_eq, List.all_eq_true, Bool.not_eq_true'] at h
  obtain ⟨⟨⟨⟨⟨⟨⟨⟨⟨h1, h2⟩, h3⟩, h4⟩, h5⟩, h6⟩, h7⟩, h8⟩, h9⟩, h10⟩ := h
  exact ⟨⟨h1, (here_iff s).2 h2⟩, h3, h4, fun r => by simp [Group.deferred, h5, Cells.get], h10, h6, h7, h8, h9⟩

def okX (x : State.Xlat) : Bool := match x with
  | .ok _ => true
  | _ => false

/-- The address that a translation gives. -/
def paOf (x : State.Xlat) : Option Nat := match x with
  | .ok pa => some pa
  | _ => none

theorem paOf_sound {x : State.Xlat} {pa : Nat} (h : paOf x = some pa) : x = .ok pa := by
  cases x <;> simp_all [paOf]

theorem ok_of {x : State.Xlat} (h : okX x = true) : ∃ pa, x = .ok pa := by
  cases x <;> simp_all [okX]

/-! ### Witnesses: scalar words -/

def sA : State := sregs [(5, 7), (6, 0x80000001), (7, 40), (8, 0xFFFFFFFF), (9, 3), (10, 5), (11, 6), (12, 0x10041), (14, 7)] boot

theorem witness_ScalarRegisterWordsComplete : sA.present = true ∧
    sA.held [5, 6, 7] = false ∧ sA.held [0, 8, 8] = false ∧ sA.held [124, 6, 9] = false := by decide +kernel

theorem witness_ScalarImmediateWordsComplete : sA.present = true ∧ sA.held [5, 6] = false ∧ sA.held [0, 8] = false ∧ sA.held [124, 124] = false := by
  decide +kernel

/-- Even pairs, the shift amounts at and beyond 64, and odd names. -/
theorem witness_ScalarPairWordsComplete : sA.present = true ∧
    ((6 : SReg).toNat % 2 = 0 ∧ (124 : SReg).toNat % 2 = 0 ∧ sA.held [6, 7, 8, 9, 10, 11] = false ∧ sA.held [0, 1, 124, 125, 122, 123] = false) ∧
    (sA.sreg 7).toNat < 64 ∧ 64 ≤ (sA.sreg 8).toNat ∧ (5 : SReg).toNat % 2 = 1 := by decide +kernel

theorem witness_ScalarResultsWriteTheirRegisters :
    (sA.Issuer 0 0 (gOf sA) ∧ (gOf sA).Idle ∧ (gOf sA).s.wf = true ∧ (124 : SReg).toNat % 2 = 0 ∧ (0 : SReg).toNat % 2 = 0) ∧
      curBoot.Curates 0 ∧ (curBoot.core 0).s.wf = true := by
  simp only [issuer_iff, here_iff, Group.Idle, State.Curates]; decide +kernel

/-- Taken and not taken; even and odd pairs; a target that is aligned and one that is not. -/
theorem witness_BranchesComplete : sA.present = true ∧ sA.held [5, 14] = false ∧ sA.sreg 5 = sA.sreg 14 ∧ sA.sreg 5 ≠ sA.sreg 6 ∧ (sA.sreg 6).toInt < (sA.sreg 5).toInt ∧
    sA.held [6, 7] = false ∧ (6 : SReg).toNat % 2 = 0 ∧ (sA.spair 14).toNat % 4 ≠ 0 ∧ (sA.spair 20).toNat % 4 = 0 ∧ (7 : SReg).toNat % 2 = 1 := by decide +kernel

theorem zero_word {s : State} (h : s.dev = []) (pa : Nat) : s.wordAt (.dev pa) = 0 := by
  simp [State.wordAt, State.numAt, State.bytesAt, State.byteAt, State.stored, Loc.plus, h, Cells.get, natOfBytes]

/-- Runs of 64 words of zeros in the code page: from the LPC, and from an address that a register gives. -/
theorem witness_LaneRunsStart : sA.Issuer 0 0 (gOf sA) ∧ sA.held [5] = false ∧ sA.Sound ∧ (List.replicate 192 (0 : Word)).length = 3 * 64 ∧
    ∀ x ∈ [(gOf sA).lpc, sA.sreg 5 + 0x20], ∀ j, j < 64 → ∀ q, q < 3 → sA.laneAddr 0 (x + BitVec.ofNat 32 j) q < 2 ^ 57 ∧
      ∃ pa, sA.translateNow 0 0 .fetch (sA.laneAddr 0 (x + BitVec.ofNat 32 j) q) = .ok pa ∧
        (List.replicate 192 (0 : Word))[3 * j + q]? = some (sA.wordAt (.dev pa)) := by
  have h1 : ∀ j, j < 64 → ∀ q, q < 3 → sA.laneAddr 0 ((gOf sA).lpc + BitVec.ofNat 32 j) q < 2 ^ 57 ∧
    okX (sA.translateNow 0 0 .fetch (sA.laneAddr 0 ((gOf sA).lpc + BitVec.ofNat 32 j) q)) = true := by decide +kernel
  have h2 : ∀ j, j < 64 → ∀ q, q < 3 → sA.laneAddr 0 (sA.sreg 5 + 0x20 + BitVec.ofNat 32 j) q < 2 ^ 57 ∧
    okX (sA.translateNow 0 0 .fetch (sA.laneAddr 0 (sA.sreg 5 + 0x20 + BitVec.ofNat 32 j) q)) = true := by decide +kernel
  have h : ∀ x ∈ [(gOf sA).lpc, sA.sreg 5 + 0x20], ∀ j, j < 64 → ∀ q, q < 3 → sA.laneAddr 0 (x + BitVec.ofNat 32 j) q < 2 ^ 57 ∧
      okX (sA.translateNow 0 0 .fetch (sA.laneAddr 0 (x + BitVec.ofNat 32 j) q)) = true := by
    rintro x hx
    simp only [List.mem_cons, List.not_mem_nil, or_false] at hx
    rcases hx with rfl | rfl
    · exact h1
    · exact h2
  refine ⟨by simp only [issuer_iff, here_iff]; decide +kernel, by decide +kernel, by simp only [State.Sound]; decide +kernel, by decide +kernel,
    fun x hx j hj q hq => ⟨(h x hx j hj q hq).1, ?_⟩⟩
  obtain ⟨pa, hp⟩ := ok_of (h x hx j hj q hq).2
  exact ⟨pa, hp, by rw [zero_word (by decide +kernel)]; rw [List.getElem?_replicate, if_pos (by omega)]⟩

/-- Depths 0, 1, 31 below the limit, the limit itself, a stack that is empty and one that is not. -/
def sDeep (n : Nat) : State := setG (fun g => { g with rdepth := n, rstack := List.replicate (min n 32) ⟨0xABC, 0x0F0, 7⟩ }) sA

theorem witness_ReconvergenceWordsComplete :
    (∀ n ∈ [0, 1, 31, 95, 96], (sDeep n).Issuer 0 0 (gOf (sDeep n)) ∧ (sDeep n).team 0 = some (tOf (sDeep n)) ∧ (gOf (sDeep n)).Idle ∧ (gOf (sDeep n)).s.wf = true ∧
      (gOf (sDeep n)).spill.wf = true ∧ (gOf (sDeep n)).rstack.length = min (gOf (sDeep n)).rdepth 32) ∧ (tOf sA).spillOn = true ∧
    (gOf (sDeep 95)).rdepth < 96 ∧ 96 ≤ (gOf (sDeep 96)).rdepth ∧ (gOf (sDeep 0)).rstack = [] ∧ (gOf (sDeep 1)).rstack = [⟨0xABC, 0x0F0, 7⟩] := by
  simp only [issuer_iff, here_iff, team_iff, Group.Idle]; decide +kernel

theorem witness_PredicateMoveWordsComplete : sA.Issuer 0 0 (gOf sA) ∧ (gOf sA).Idle ∧ (gOf sA).k.wf = true ∧ (2 : BitVec 2).toNat < 3 ∧
    (255 : VReg).toNat < 32 * (gOf sA).blocks ∧ (sA.sreg 7).toNat < 96 ∧ (sA.sreg 7).toNat < (gOf sA).live ∧ (gOf sA).deferred 255 = false ∧ (gOf sA).badV = [] ∧
    (sA.sreg 10).toNat < 16 := by
  simp only [issuer_iff, here_iff, Group.Idle]; decide +kernel

theorem witness_SpecialRegistersReadAndWrite : sA.Issuer 0 0 (gOf sA) ∧ (gOf sA).Idle ∧ sA.team 0 = some (tOf sA) ∧ sA.gridOf 0 = some State.bootGrid ∧
    sA.sfuOps 0 0 = [] ∧ (6 : SReg).toNat % 2 = 0 ∧ fmtOk (sA.sreg 9) = true ∧ fmtOk (sA.sreg 8) = false ∧ nonNegative (sA.sreg 9) = true ∧
    nonNegative (sA.sreg 6) = false ∧ (sA.sreg 7).toNat < 2 ^ 14 ∧ 2 ^ 14 ≤ (sA.sreg 6).toNat ∧ (7 : SReg).toNat % 2 = 1 ∧
    (∀ k ∈ [0, 10, 11, 17], k < 11 ∨ (k = 11 ∨ k = 17) ∧ (6 : SReg).toNat % 2 = 0) := by
  simp only [issuer_iff, here_iff, team_iff, Group.Idle]; decide +kernel

/-- Labels at both signs; register pairs that are even and aligned, even and not aligned, odd; and the word with sa and an immediate. -/
theorem witness_HandlerAddressIsSet : sA.Issuer 0 0 (gOf sA) ∧ (gOf sA).Idle ∧
    ((gOf sA).spc + BitVec.ofInt 64 (4 * ((0xFFFFFFFF : Word).toInt))).toNat % 4 = 0 ∧ ((gOf (setG (fun g => { g with spc := 2 }) sA)).spc).toNat % 4 ≠ 0 ∧
    (20 : SReg).toNat % 2 = 0 ∧ (sA.spair 20).toNat % 4 = 0 ∧ (12 : SReg).toNat % 2 = 0 ∧ (sA.spair 12).toNat % 4 ≠ 0 ∧ (7 : SReg).toNat % 2 = 1 ∧
    fOp (encSI 0x0C 0 6 1) = 0x0C ∧ fA (encSI 0x0C 0 6 1) ≠ 0 ∧ fI (encSI 0x0C 0 6 1) ≠ 0 := by
  simp only [issuer_iff, here_iff, Group.Idle]; decide +kernel

def aFrame (n : Nat) : Frame := ⟨0x10080, 3, ⟨2, 5, true, 8, List.replicate 6 0⟩, 0x123456789ABCDEF012345678, 7, n, .profile⟩
def sFrame (n : Nat) : State := setG (fun g => { g with frame := some (aFrame n), fmt := 9, cond := 0x22 }) sA

/-- In a handler at its depth and at another; outside. -/
theorem witness_HandlerReturnRestoresFrame : ((sFrame 0).Issuer 0 0 (gOf (sFrame 0)) ∧ (gOf (sFrame 0)).Idle ∧ (gOf (sFrame 0)).s.wf = true ∧
    (gOf (sFrame 0)).frame = some (aFrame 0) ∧ (gOf (sFrame 0)).rdepth = (aFrame 0).depth) ∧
    ((gOf (sFrame 1)).frame = some (aFrame 1) ∧ (gOf (sFrame 1)).rdepth ≠ (aFrame 1).depth) ∧ (gOf sA).frame = none ∧ (gOf sA).Idle ∧ (gOf sA).s.wf = true := by
  simp only [issuer_iff, here_iff, Group.Idle]; decide +kernel

theorem witness_TrapWordsTakeTheirFault : sA.Issuer 0 0 (gOf sA) ∧ sA.team 0 = some (tOf sA) ∧ (gOf sA).Idle ∧ (gOf sA).idx = 0 ∧ sA.sfuOps 0 0 = [] := by
  simp only [issuer_iff, here_iff, team_iff, Group.Idle]; decide +kernel

/-! ### Witnesses: scalar memory, waits, shapes -/

/-- A team with an annex window at 0x1000 of 64 KiB, and bytes in both spaces. -/
def sC : State :=
  let s := sregs [(4, 0x100), (6, 0x101), (9, 0xFFFC), (10, 0x10000), (11, 0x11223344), (12, 7)] boot
  let s := { s with grids := s.grids.set 0 { State.bootGrid with awBase := 0x1000, awSize := 0x10000 }, annex := (List.range 80).map fun i => (0x1100 + i, BitVec.ofNat 8 (i + 1)) }
  s.putTeam 0 { tOf s with tm := (List.range 80).map fun i => (0x100 + i, BitVec.ofNat 8 (i + 101)) }

/-- The state after a load has issued, its data on its way. -/
def sLoad : State := nx (exec (.sldTeamMemory 5 4 ⟨0, false⟩) sC)

def opOf (s : State) (h : Nat) : Op := (s.ops.get h).getD ⟨9, 9, 0, 0, 0, 0, none, false, .failed, none, 0, .filing⟩

/-- The last word of each space that fits. -/
theorem witness_ScalarLoadsComplete : (sC.Issuer 0 0 (gOf sC) ∧ sC.Sound ∧ (gOf sC).Idle ∧ (gOf sC).counter .ld < 255 ∧
      ((sC.sreg 9 + 0).toNat % 4 = 0 ∧ (sC.sreg 9 + 0).toNat + 4 ≤ sC.limit false) ∧ (sC.sreg 9 + 0).toNat + 4 ≤ sC.limit true) := by
  simp only [issuer_iff, here_iff, Group.Idle, State.Sound]; decide +kernel

/-- A load on its way to what q says. -/
def sPend (q : List Pend) : State := setG (fun g => { g with pend := q, v := [(96 * 12, 9)], sh := [(3, 1)] }) sLoad

def vecPend (left : Nat) : List Pend := (List.range 2).map fun j => ⟨.v (12 + j), 0xF, Cells.set [] 1 (BitVec.ofNat 32 (j + 7)), sC.handles, true, left, left, false, false⟩

/-- A scalar load as it was issued; two vector registers with no window and with an open one; a shape register. -/
theorem witness_ScalarLoadsComplete_completion :
    (gOf sLoad).pend = [⟨.s 5, 1, Cells.set [] 0 0x68676665, sC.handles, false, 0, 0, false, false⟩] ∧
    (∀ q ∈ [(gOf sLoad).pend, vecPend 0, vecPend 3, [⟨.sh 3, 1, [(0, 5), (15, 6)], sC.handles, false, 0, 0, false, false⟩]], let s := sPend q
      Tab.wf s.ops = true ∧ s.ops.get sC.handles = some (opOf s sC.handles) ∧ (opOf s sC.handles).kind = .load ∧ (opOf s sC.handles).tid = 0 ∧ (opOf s sC.handles).idx = 0 ∧
      Tab.wf s.groups = true ∧ s.group 0 0 = some (gOf s) ∧ (gOf s).idx = 0 ∧ s.team 0 = some (tOf s) ∧ (tOf s).killing = false ∧ (tOf s).asms = [] ∧ (gOf s).ended = false ∧
      (gOf s).wait = none ∧ (gOf s).infl = [⟨.ld, sC.handles, false⟩] ∧ (gOf s).cntAdj = [] ∧ (gOf s).pend = q ∧ (gOf s).s.wf = true ∧ (gOf s).v.wf = true ∧ (gOf s).badV = [] ∧
      (gOf s).sh.wf = true) ∧ ∀ r, (gOf (sPend (vecPend 0))).deferred r = false := by
  have ht : (gOf (sPend (vecPend 0))).tags = [] := by decide +kernel
  refine ⟨?_, ?_, fun r => by simp [Group.deferred, ht, Cells.get]⟩
  · decide +kernel
  · simp only [team_iff, here_iff]; decide +kernel

/-- The last word that fits, and the two ways not to fit. -/
theorem witness_ScalarStoresComplete : sC.present = true ∧ sC.held [11, 9] = false ∧
    (∀ ax ∈ [false, true], ((sC.sreg 9 + 0).toNat % 4 = 0 ∧ (sC.sreg 9 + 0).toNat + 4 ≤ sC.limit ax) ∧ (sC.sreg 6 + 0).toNat % 4 ≠ 0 ∧
      sC.limit ax < (sC.sreg 10 + 0).toNat + 4) := by decide +kernel

/-- In each space, up to its last byte. -/
theorem witness_StoreWritesItsBytesOnly : sC.StoresWf ∧ sC.Sound ∧ (sC.team 0 = some (tOf sC) ∧ (tOf sC).tm.wf = true) ∧
    (sC.group 0 0 = some (gOf sC) ∧ (gOf sC).spill.wf = true) ∧ 2 ^ 26 - 4 + 4 ≤ 2 ^ 26 ∧ 2 ^ 57 - 4 + 4 ≤ 2 ^ 57 ∧ (sC.core 0).mem.wf = true := by
  simp only [State.Sound, State.StoresWf]; decide +kernel

/-- The last line of each space, a misaligned address and one beyond it; every field of a shape register at the ends of its range and one beyond, odd pairs. -/
theorem witness_ShapeWordsComplete :
    ((sregs [(20, 0xFFC0)] sC).Issuer 0 0 (gOf (sregs [(20, 0xFFC0)] sC)) ∧ (sregs [(20, 0xFFC0)] sC).Sound ∧ (gOf (sregs [(20, 0xFFC0)] sC)).Idle ∧
      (gOf (sregs [(20, 0xFFC0)] sC)).counter .ld < 255 ∧ ((0xFFC0 : Word) + 0).toNat % 64 = 0 ∧ ((0xFFC0 : Word) + 32).toNat % 64 ≠ 0 ∧
      ∀ ax ∈ [false, true], ((0xFFC0 : Word) + 0).toNat + 64 ≤ (sregs [(20, 0xFFC0)] sC).limit ax ∧
        (sregs [(20, 0xFFC0)] sC).limit ax < ((0xFFC0 : Word) + 64).toNat + 64) ∧ (21 : SReg).toNat % 2 = 1 ∧
    (sC.Issuer 0 0 (gOf sC) ∧ (gOf sC).Idle ∧ (gOf sC).sh.wf = true) ∧
    (([(1, 0x100, 0), (2, 0x10000, 0), (3, 16, 0), (9, 0, 0x8000), (13, 0xFFFFFFFF, 0xFFFF7FFF), (14, 0x100, 0), (15, 16, 0)] : List (Nat × Word × Word)).all fun p =>
      let s := sregs [(20, p.2.1), (21, p.2.2)] sC
      let pair : Bool := p.1 = 0 || (9 ≤ p.1 && p.1 ≤ 13)
      let v : DWord := if pair then s.spair 20 else (s.sreg 20).setWidth 64
      !decide (if 9 ≤ p.1 ∧ p.1 ≤ 13 then -(2 : Int) ^ 47 ≤ v.toInt ∧ v.toInt < 2 ^ 47 else if p.1 = 3 then v.toNat < 16 else v.toNat < 2 ^ (shField p.1).2)) = true ∧
    (([(0, 0xFFFFFFFF, 0xFFFFFFFF), (1, 0xFF, 0), (2, 0xFFFF, 0), (3, 15, 0), (4, 0xFFFFFFFF, 0), (8, 0, 0), (9, 0xFFFFFFFF, 0x7FFF), (13, 0, 0xFFFF8000), (14, 0xFF, 0), (15, 15, 0)]
        : List (Nat × Word × Word)).all fun p =>
      let s := sregs [(20, p.2.1), (21, p.2.2)] sC
      let pair : Bool := p.1 = 0 || (9 ≤ p.1 && p.1 ≤ 13)
      let v : DWord := if pair then s.spair 20 else (s.sreg 20).setWidth 64
      decide (if 9 ≤ p.1 ∧ p.1 ≤ 13 then -(2 : Int) ^ 47 ≤ v.toInt ∧ v.toInt < 2 ^ 47 else if p.1 = 3 then v.toNat < 16 else v.toNat < 2 ^ (shField p.1).2)) = true := by
  simp only [issuer_iff, here_iff, Group.Idle, State.Sound]; decide +kernel

/-- A counter at n and above n; a parked yield. -/
def sCount (c : Cls) (n : Nat) : State := setG (fun g => { g with infl := (List.range n).map fun k => ⟨c, 100 + k, false⟩ }) sC

theorem witness_CounterWaitsComplete : (∀ n ∈ [1, 2], (sCount .cp n).Issuer 0 0 (gOf (sCount .cp n))) ∧ (1 : BitVec 3).toNat < 5 ∧
    (gOf (sCount .cp 1)).counter .cp ≤ (1 : BitVec 8).toNat ∧ (1 : BitVec 8).toNat < (gOf (sCount .cp 2)).counter .cp ∧
    (let g : Group := { gOf (sCount .cp 2) with wait := some (.yield .cp 1 0x500) }
     g.Idle ∧ g.wait = some (.yield .cp 1 0x500) ∧ (State.wakeYield (g.opDone 100)).counter .cp ≤ 1 ∧ 1 < (State.wakeYield (g.opDone 101)).counter .cp) := by
  simp only [issuer_iff, here_iff, Group.Idle]; decide +kernel

/-- A slot with its word as given, s30 as given. -/
def sSlot (w v : Word) : State := sregs [(30, v)] (sC.putTeam 0 { tOf sC with bs := Cells.set [] 2 w })

theorem witness_BarrierSlotWordsComplete :
    (([(0, 1), (0, 1023), (State.bsWord 3 0 true, 3), (State.bsWord 1023 7 false, 0), (0, 1024), (State.bsWord 3 0 true, 4), (State.bsWord 3 2 true, 1), (State.bsWord 1 0 false, 0),
        (State.bsWord 3 1 false, 0)] : List (Word × Word)).all fun p => issues (sSlot p.1 p.2) && decide ((sSlot p.1 p.2).team 0 = some (tOf (sSlot p.1 p.2))) &&
          decide ((tOf (sSlot p.1 p.2)).bs = Cells.set [] 2 p.1) && (tOf (sSlot p.1 p.2)).bs.wf && decide ((sSlot p.1 p.2).sreg 30 = p.2)) = true ∧
    State.bsExpected 0 = 0 ∧ State.bsExpected (State.bsWord 3 0 true) = 3 ∧ State.bsExpected (State.bsWord 1023 7 false) ≠ 0 ∧
    State.bsArrived (State.bsWord 3 2 true) + 1 = State.bsExpected (State.bsWord 3 2 true) ∧ State.bsPhase (State.bsWord 3 2 true) = true ∧
    State.bsArrived (State.bsWord 3 1 false) + 1 < State.bsExpected (State.bsWord 3 1 false) ∧ (1 : Word).getLsbD 0 = true ∧ (0 : Word).getLsbD 0 = false ∧
    (State.bsExpected (State.bsWord 1023 0 true) = 1023 ∧ State.bsArrived (State.bsWord 1023 0 true) = 0) := by
  simp only [team_iff]; decide +kernel

/-- A co-resident grid and one that is not; a watched word at 5 with targets on both sides of the wcnt condition; parked polling waits. -/
def sCo : State := { sC with grids := sC.grids.set 0 { State.bootGrid with record := State.bootRecord ||| (1 <<< 229) } }
def sWatch (v : Word) : State := sregs [(40, 0x10020), (41, 0), (42, v)] { sC with dev := [(0x10020, 5)] }
def sPollGrid (v : Word) : State := { sWatch v with grids := Tab.set [] 0 { State.bootGrid with depPa := some 0x10020, depPoll := true, depMet := false } }
def sPoll (wt : Wait) : State := setG (fun g => { g with wait := some wt }) (sWatch 0)

theorem witness_GridAndWordWaitsComplete :
    (sC.Issuer 0 0 (gOf sC) ∧ sC.team 0 = some (tOf sC) ∧ sC.grid 0 = some { State.bootGrid with awBase := 0x1000, awSize := 0x10000 } ∧ State.bootRecord.getLsbD 229 = false ∧
      sCo.Issuer 0 0 (gOf sCo) ∧ sCo.team 0 = some (tOf sCo) ∧ (tOf sC).grid = 0 ∧ sCo.grid 0 = some { State.bootGrid with record := State.bootRecord ||| (1 <<< 229) } ∧
      (State.bootRecord ||| (1 <<< 229)).getLsbD 229 = true ∧ (gOf sC).counter .ld = 0 ∧ (gOf sC).counter .cp = 0 ∧ (gOf sC).counter .cl = 0) ∧
    (([5, 6, 4, 0x80000006, 0x80000005] : List Word).all fun v => issues (sWatch v) && decide ((sWatch v).badRows = []) && decide ((sWatch v).mfailed = []) && decide ((sWatch v).symErrs = []) &&
      decide (((sWatch v).spair 40).toNat = 0x10020) && decide (paOf ((sWatch v).translateNow 0 0 .read 0x10020) = some 0x10020) &&
      decide ((sWatch v).wordAt (.dev 0x10020) = 5) && decide ((sWatch v).sreg 42 = v)) = true ∧
    ((5 : Word) - 5).toNat < 2 ^ 31 ∧ 2 ^ 31 ≤ ((5 : Word) - 6).toNat ∧ ((5 : Word) - 0x80000006).toNat < 2 ^ 31 ∧ 2 ^ 31 ≤ ((5 : Word) - 0x80000005).toNat ∧
    (∀ w ∈ [Wait.wcnt 0x10020 0x10020 5 true, .wcnt 0x10020 0x10020 6 true, .wadr 0x10020 0x10020 5 true, .wadr 0x10020 0x10020 6 true],
      Tab.wf (sPoll w).groups = true ∧ Tab.wf (sPoll w).teams = true ∧ (sPoll w).groups.get 0 = some (gOf (sPoll w)) ∧ (gOf (sPoll w)).Idle ∧ (gOf (sPoll w)).wait = some w ∧ (sPoll w).Sound) ∧
    (∃ gr : Grid, Tab.wf (sPollGrid 5).grids = true ∧ (sPollGrid 5).grid 0 = some gr ∧ gr.depPa = some 0x10020 ∧ gr.depPoll = true ∧ gr.depMet = false) := by
  refine ⟨?_, ?_, ?_, ?_, ?_, ?_, ?_, ⟨{ State.bootGrid with depPa := some 0x10020, depPoll := true, depMet := false }, ?_⟩⟩ <;>
    (try simp only [issuer_iff, here_iff, team_iff, Group.Idle, State.Sound]) <;> decide +kernel

/-! ### Witnesses: lane words -/

/-- Lane values with wraps, signs, zeros, infinities and NaNs among them. -/
def mixed (k l : Nat) : Word :=
  ([0, 1, 31, 32, 0x80, 0x7FFF, 0x8000, 0x7FFFFFFF, 0x80000000, 0xFFFFFFFF, 0x3F800000, 0xBF800000, 0x7F800000, 0x7FC00000, 0x00000001, 0x007FFFFF, 0x0C04, 0x1F1F] : List Word).getD
    ((l * k + k) % 18) 0

/-- The group in a run of two lane words: 90 lanes live, one lane off in the mask, predicate 3 off in four lanes, lane 8 cancelled. -/
def sD : State :=
  setG (fun g => { g with run := ⟨2, 4, false, 4, List.replicate 6 0⟩, live := 90, s := [(9, 0x100), (10, 2), (11, 3), (12, 0x20000), (125, 0xFFFFFFFF), (126, 0xFFFFFFF7), (127, 0xFFFFFFFF)], k := [(3, 0xFFFFFFFFFFFFFFFFFFFFFFF0)],
                          v := rows [(3, mixed 1), (4, mixed 5), (5, mixed 7)], cancel := 0x100 }) sC

/-- Guarded lane words: plain, with the immediate, with a scalar in every lane. -/
def wPlain (ty : BitVec 4) : LaneWord := ⟨3, true, ty, 6, 3, 4, 5, 0, 0, 0⟩
def wImm (ty : BitVec 4) : LaneWord := ⟨31, false, ty, 3, 3, 0, 5, 0, 16, 0x01FFFF01⟩
def wScalar (ty : BitVec 4) : LaneWord := ⟨3, false, ty, 6, 3, 0, 4, 0, 32, 9⟩

/-- Operands in the budget, the guard on in some lanes and off in others, elements of 32, 16 and 8 bits. -/
theorem witness_LaneIntegerWordsComplete : sD.LaneReady 0 0 (gOf sD) [6, 3, 4, 5] ∧ sD.LaneReady 0 0 (gOf sD) [3, 3, 0, 5] ∧
    ((gOf sD).acts (wPlain 3) 0 = true ∧ (gOf sD).acts (wPlain 3) 9 = false ∧ (gOf sD).acts (wImm 3) 89 = true ∧ (gOf sD).acts (wImm 3) 90 = false ∧
      (gOf sD).acts (wImm 3) 35 = false ∧ (gOf sD).acts (wImm 3) 8 = false ∧ tyWidth 3 = 32 ∧ tyWidth 5 = 16 ∧ tyWidth 8 = 8) :=
  ⟨ready_of (by decide +kernel), ready_of (by decide +kernel), by decide +kernel⟩

/-- A lane whose sum leaves the range, and one whose sum stays in it. -/
theorem witness_LaneSaturatingWordsComplete : sD.LaneReady 0 0 (gOf sD) [6, 3, 4] ∧ (gOf sD).acts (wImm 3) 7 = true ∧
    (2 : Int) ^ 31 - 1 < ((gOf sD).lane 3 6).toInt + (1 : Int) ∧ ((gOf sD).lane 3 0).toInt + (1 : Int) ≤ 2 ^ 31 - 1 ∧ (gOf sD).acts (wImm 3) 6 = true ∧ (gOf sD).acts (wImm 3) 0 = true :=
  ⟨ready_of (by decide +kernel), by decide +kernel⟩

/-- One, two and four registers; every operand source; a predicate. -/
theorem witness_LaneMovesAndPredicatesComplete :
    (∀ p ∈ [(12, 1), (13, 2), (14, 4)], tyRegs p.1 = p.2 ∧ 8 % p.2 = 0 ∧ 4 % p.2 = 0) ∧
    sD.LaneReady 0 0 (gOf sD) ((List.range 4).flatMap fun k => [8 + k, 4 + k]) ∧ sD.LaneReady 0 0 (gOf sD) ((List.range 2).flatMap fun k => [8 + k, 4 + k]) ∧
    sD.LaneReady 0 0 (gOf sD) ((List.range 1).flatMap fun k => [3 + k, 0 + k]) ∧ (wPlain 12).bsrc = 0 ∧ (wImm 12).bsrc ≠ 0 ∧ (3 : VReg).toNat < 32 * (gOf sD).blocks ∧
    sD.LaneReady 0 0 (gOf sD) [3, 4] ∧ tyWidth (wPlain 4).ty.toNat = 32 :=
  ⟨by decide +kernel, ready_of (by decide +kernel), ready_of (by decide +kernel), ready_of (by decide +kernel), by decide +kernel, by decide +kernel, by decide +kernel,
    ready_of (by decide +kernel), by decide +kernel⟩

theorem witness_LaneFloatWordsComplete : sD.LaneReady 0 0 (gOf sD) [6, 3, 4, 5] ∧ sD.LaneReady 0 0 (gOf sD) [6, 3] ∧ (∀ n ∈ [0, 1, 2], tyWidth n = 32 ∨ tyWidth n = 16) :=
  ⟨ready_of (by decide +kernel), ready_of (by decide +kernel), by decide +kernel⟩

/-- The handler is enabled for the arithmetic condition; lane 0, the only one live, adds 2^-25 to 1.0: the sum is inexact. -/
def sFlag : State :=
  setG (fun g => { g with run := ⟨1, 4, false, 4, [0, 0, 0]⟩, live := 1, s := [(125, 1)], v := [(96 * 3, 0x3F800000), (96 * 4, 0x33000000)], cond := 0x400, hnd := 0x10400 }) sC

def wAdd : LaneWord := ⟨31, false, 0, 6, 3, 4, 0, 0, 0, 0⟩

theorem flags_sFlag : (gOf sFlag).FlagsOf wAdd 0x10
    (fun l => (let r := (f32 ((gOf sFlag).lane wAdd.va l)).add (f32 ((gOf sFlag).operandB wAdd l)); (FFmt.fp32.narrow .rne r.1).2 ||| flIf r.2 flInvalid)) := by
  have h : ∀ b, b < 5 → ((0x10 : AFlags).getLsbD b = true ↔ ∃ l, l < 96 ∧ (gOf sFlag).acts wAdd l = true ∧
      ((let r := (f32 ((gOf sFlag).lane wAdd.va l)).add (f32 ((gOf sFlag).operandB wAdd l)); (FFmt.fp32.narrow .rne r.1).2 ||| flIf r.2 flInvalid)).getLsbD b = true) := by
    decide +kernel
  intro b
  by_cases hb : b < 5
  · exact h b hb
  · simp [BitVec.getLsbD_of_ge _ _ (Nat.le_of_not_lt hb)]

theorem witness_NewFlagEntersHandler : sFlag.Issuer 0 0 (gOf sFlag) ∧ (gOf sFlag).Idle ∧ (∀ r, (gOf sFlag).deferred r = false) ∧ (gOf sFlag).badV = [] ∧
    (∀ r ∈ [6, 3, 4], r < 32 * (gOf sFlag).blocks) ∧ sFlag.sfuOps 0 0 = [] ∧ (gOf sFlag).reissue = none ∧ (gOf sFlag).cond &&& 0x400 ≠ 0 ∧ (gOf sFlag).hnd ≠ 0 ∧
    (gOf sFlag).frame = none ∧ wAdd.ty = 0 ∧
    (gOf sFlag).FlagsOf wAdd 0x10
      (fun l => (let r := (f32 ((gOf sFlag).lane wAdd.va l)).add (f32 ((gOf sFlag).operandB wAdd l)); (FFmt.fp32.narrow .rne r.1).2 ||| flIf r.2 flInvalid)) ∧
    (gOf sFlag).newFlags 0x10 = true :=
  have ht : (gOf sFlag).tags = [] := by decide +kernel
  ⟨(issues_sound (by decide +kernel)).1, (issues_sound (by decide +kernel)).2, fun r => by simp [Group.deferred, ht, Cells.get], by decide +kernel, by decide +kernel, by decide +kernel,
    by decide +kernel, by decide +kernel, by decide +kernel, by decide +kernel, rfl, flags_sFlag, by decide +kernel⟩

/-- The same state with the arithmetic condition disabled, and the group after a word there. -/
def sOff : State := sFlag.putGroup 0 0 { gOf sFlag with cond := (gOf sFlag).cond &&& 0xFFFFFBFF }
def gOff (i : Instr) : Group := gOf (nx (exec i sOff))

theorem witness_NewFlagEntersHandler_anyWord :
    ([Instr.vaddFp wAdd, .vsubFp wAdd, .vfma { wAdd with vc := 3 }].all fun i =>
      (match exec i sOff with | .next s' => decide (s' = sOff.putGroup 0 0 (gOff i)) | _ => false) && decide (((gOff i).cond ^^^ (gOf sFlag).cond) &&& 0x1F ≠ 0)) = true := by
  decide +kernel

/-- An SFU word where the handler is enabled: with one live lane, a reciprocal of 1.0 raises nothing, of 3.0 is inexact; with and without a latency. -/
def sSync (v : Word) : State := setG (fun g => { g with v := [(96 * 3, v)] }) sFlag
def wRcp (la : BitVec 4) : LaneWord := { wAdd with la := la }
def sHeld (v : Word) (la : BitVec 4) : State := nx (exec (.vrcp (wRcp la)) (sSync v))

/-- What the word and the end of its operation ask of the two states. -/
def syncOk (v : Word) : Bool :=
  let s := sSync v
  let g := gOf s
  issues s && decide (g.badV = []) && ([6, 3, 4].all fun r => decide (r < 32 * g.blocks)) && decide (g.cond &&& 0x400 ≠ 0) && decide (g.hnd ≠ 0) && decide (g.frame = none) &&
    decide (g.reissue ≠ some .arith) && decide (s.sfuLoad (State.quadOf g) + (g.live + 31) / 32 ≤ 12) && decide (g.tags = [])

def heldOk (v : Word) (la : BitVec 4) (fl : AFlags) (r : Word) : Bool :=
  let s := sHeld v la
  let g := gOf s
  let h := (sSync v).handles
  Tab.wf s.ops && Tab.wf s.groups && (match (opOf s h).kind with | .sfu f q n (some x) => decide (f = fl ∧ q = 0 ∧ n = 1 ∧ x = ⟨6, la.toNat, 1, [(0, r)]⟩) | _ => false) &&
    decide (s.ops.get h = some (opOf s h)) && decide ((opOf s h).tid = 0) && decide ((opOf s h).idx = 0) && decide ((s.sfuOps 0 0).head? = some h) &&
    decide (s.group 0 0 = some g) && decide (s.team 0 = some (tOf s)) && !(tOf s).killing && decide ((tOf s).asms = []) && !g.ended && decide (g.wait = none) && issues s && g.v.wf &&
    decide (g.tags = []) && decide (g.badV = []) && decide (g.cond &&& 0x400 ≠ 0) && decide (g.hnd ≠ 0) && decide (g.frame = none) && (g.newFlags fl == decide (fl ≠ 0))

/-- Issue; the ends that enter the handler and those that write, with and without a latency (the mask is lane 0 alone). -/
theorem witness_NewFlagEntersHandler_sfu : ([0x3F800000, 0x40400000].all syncOk) = true ∧ heldOk 0x3F800000 0 0 0x3F800000 = true ∧ heldOk 0x3F800000 2 0 0x3F800000 = true ∧
    heldOk 0x40400000 0 0x10 0x3EAAAAAB = true ∧ heldOk 0x40400000 2 0x10 0x3EAAAAAB = true ∧ ∀ g : Group, g.tags = [] → ∀ r, g.deferred r = false :=
  ⟨by decide +kernel, by decide +kernel, by decide +kernel, by decide +kernel, by decide +kernel, fun g h r => by simp [Group.deferred, h, Cells.get]⟩

/-- The word with room in its quadrant's queue, and the state after it has issued. -/
def sSfu : State := nx (exec (.vrcp ⟨31, false, 0, 6, 3, 0, 0, 0, 0, 0⟩) (setG (fun g => { g with live := 33 }) sD))

theorem witness_SpecialFunctionWordsComplete : (sD.LaneReady 0 0 (gOf sD) [6, 3, 4] ∧ sD.sfuLoad (State.quadOf (gOf sD)) + ((gOf sD).live + 31) / 32 ≤ 12) ∧
    (let h := sD.handles
     let o := opOf sSfu h
     Tab.wf sSfu.ops = true ∧ sSfu.ops.get h = some o ∧ (∃ fl q n, o.kind = .sfu fl q n none) ∧ o.tid = 0 ∧ o.idx = 0 ∧ (sSfu.sfuOps 0 0).head? = some h ∧
       sSfu.group 0 0 = some (gOf sSfu) ∧ sSfu.team 0 = some (tOf sSfu) ∧ (tOf sSfu).killing = false ∧ (tOf sSfu).asms = [] ∧ (gOf sSfu).ended = false ∧ (gOf sSfu).wait = none ∧
       (gOf sSfu).v.wf = true ∧ (∀ r, (gOf sSfu).deferred r = false) ∧ (Tab.wf sSfu.groups = true ∧ (gOf sSfu).badV = []) ∧
       ∃ r m vals, (gOf sSfu).pend = [⟨.v r, m, vals, h, true, 0, 0, false, false⟩]) := by
  have hk : (match (opOf sSfu sD.handles).kind with | .sfu _ _ _ none => true | _ => false) = true := by decide +kernel
  have hp : (match (gOf sSfu).pend with | [⟨.v _, _, _, h, true, 0, 0, false, false⟩] => decide (h = sD.handles) | _ => false) = true := by decide +kernel
  have ht : (gOf sSfu).tags = [] := by decide +kernel
  refine ⟨⟨ready_of (by decide +kernel), by decide +kernel⟩, by decide +kernel, by decide +kernel, ?_, by decide +kernel, by decide +kernel, by decide +kernel,
    (here_iff _).2 (by decide +kernel), (team_iff _).2 (by decide +kernel), by decide +kernel, by decide +kernel, by decide +kernel, by decide +kernel, by decide +kernel,
    fun r => by simp [Group.deferred, ht, Cells.get], by decide +kernel, ?_⟩
  · revert hk; generalize (opOf sSfu sD.handles).kind = k; intro hk; split at hk
    · exact ⟨_, _, _, rfl⟩
    · cases hk
  · revert hp; generalize (gOf sSfu).pend = q; intro hp; split at hp
    · exact ⟨_, _, _, by rw [of_decide_eq_true hp]⟩
    · cases hp

/-- Formats with one, two and eight elements a word, scaled and not, nearest and stochastic; block-scaled formats. -/
def sFmt (f : Word) : State := setG (fun g => { g with fmt := f, clip := 0x7F800000, seed := 0x1234 }) sD

theorem witness_ConversionWordsComplete :
    (([0, 3, 4, 0x14, 0x403, 0x103] : List Word).all fun f => laneOk (sFmt f) (5 :: (regsFrom 40 8 ++ regsFrom 50 8)) && decide (packN (gOf (sFmt f)) ≤ 8) &&
      decide (fmtSmode (gOf (sFmt f)) = if f = 0x103 then 1 else 0)) = true ∧ fmtCode (gOf (sFmt 0x14)) = 0x14 ∧
    (([0x206, 0x207, 0x606] : List Word).all fun f => laneOk (sFmt f) (regsFrom 40 8 ++ regsFrom 50 3) && decide (fmtSmode (gOf (sFmt f)) = 2)) = true := by
  decide +kernel

/-- Distances at the ends of their ranges; segments of a reduction. -/
theorem witness_CrossLaneWordsComplete : sD.LaneReady 0 0 (gOf sD) [6, 3, 7] ∧ sD.LaneReady 0 0 (gOf sD) [6, 3] ∧
    (∀ i ∈ [Instr.vperm ⟨31, false, 12, 6, 3, 7, 0, 0, 0, 0⟩, .vshx ⟨31, false, 12, 6, 3, 0, 0, 0, 0, 127⟩, .vup ⟨31, false, 12, 6, 3, 0, 0, 0, 1, 95⟩,
      .vdn ⟨31, false, 12, 6, 3, 0, 0, 0, 0, 95⟩, .vbcast ⟨31, false, 12, 6, 3, 0, 0, 0, 1, 9⟩, .vbcast ⟨31, false, 12, 6, 3, 0, 0, 0, 0, 89⟩], i.wf = true) ∧
    ∀ i ∈ [Instr.vred ⟨31, false, 3, 6, 3, 0, 0, 0, 40, 0⟩, .vscan ⟨3, true, 0, 6, 3, 0, 0, 0, 8, 0⟩], i.wf = true :=
  ⟨ready_of (by decide +kernel), ready_of (by decide +kernel), by decide +kernel⟩

/-! ### Witnesses: lane memory -/

/-- Lane l addresses byte 4l past s9 = 0x100; the spill stack holds bytes. -/
def sE : State := setG (fun g => { g with v := rows [(3, fun l => BitVec.ofNat 32 (4 * l)), (4, mixed 5), (5, mixed 7)], spill := (List.range 40).map fun i => (32 + i, BitVec.ofNat 8 (i + 1)) }) sD

def wMem (md : BitVec 6) : LaneWord := ⟨31, false, 12, 8, 3, 4, 0, 0, md, 9⟩

/-- The address of lane l in a memory word. -/
def adOf (s : State) (w : LaneWord) (l : Nat) : Int :=
  ((gOf s).readS true (memBase w)).toNat + memDisp w + if memIdx w then ((gOf s).lane w.va l).toInt else 0

theorem witness_LaneLoadsComplete : sE.LaneReady 0 0 (gOf sE) (3 :: regSpan 12 8) ∧ sE.LaneReady 0 0 (gOf sE) (0 :: regSpan 14 8) ∧ sE.Sound ∧ sE.team 0 = some (tOf sE) ∧
    (gOf sE).counter .ld < 255 ∧ 8 % tyRegs 12 = 0 ∧ 8 % tyRegs 14 = 0 ∧
    (∀ md ∈ [2, 3], ∀ l, l < 96 → (gOf sE).acts (wMem md) l = true → 0 ≤ adOf sE (wMem md) l ∧ adOf sE (wMem md) l + accBytes 12 ≤ sE.limit (memAx (wMem md)) ∧
      adOf sE (wMem md) l % accBytes 12 = 0) ∧ (tOf sE).spillOn = true ∧
    (let sp : Int := ((gOf sE).readS true (memBase (wMem 0))).toNat + memDisp (wMem 0); 0 ≤ sp ∧ sp % 32 = 0 ∧ sp + 384 * 4 ≤ 14336) := by
  refine ⟨ready_of (by decide +kernel), ready_of (by decide +kernel), ?_⟩
  simp only [State.Sound, team_iff]; decide +kernel

/-- Addresses that fit; and, at s11 and s12, addresses that no lane may use, at every width; spill offsets that are misaligned and beyond the stack. -/
theorem witness_LaneStoresComplete : sE.LaneReady 0 0 (gOf sE) (3 :: regSpan 12 4) ∧ sE.team 0 = some (tOf sE) ∧ 4 % tyRegs 12 = 0 ∧
    (∀ l, l < 96 → (gOf sE).acts (wMem 2) l = true → 0 ≤ adOf sE (wMem 2) l ∧ adOf sE (wMem 2) l + accBytes 12 ≤ sE.limit (memAx (wMem 2)) ∧
      adOf sE (wMem 2) l % accBytes 12 = 0) ∧ (tOf sE).spillOn = true ∧
    (∀ ty : BitVec 4, sE.LaneReady 0 0 (gOf sE) (3 :: regSpan ty.toNat 4 ++ regSpan ty.toNat 8)) ∧
    (∀ ty : BitVec 4, 4 % tyRegs ty.toNat = 0 ∧ 8 % tyRegs ty.toNat = 0 ∧ (accBytes ty.toNat = 1 ∨
      (let w : LaneWord := { wMem 2 with ext := 11, ty := ty }
       ∃ l, l < 96 ∧ ((gOf sE).acts w l && (decide (adOf sE w l < 0) || decide ((sE.limit (memAx w) : Int) < adOf sE w l + accBytes ty.toNat) ||
         adOf sE w l % accBytes ty.toNat != 0)) = true))) ∧
    (let w : LaneWord := { wMem 2 with ext := 12, ty := 5 }
     accBytes 5 = 2 ∧ ∃ l, l < 96 ∧ ((gOf sE).acts w l && decide ((sE.limit (memAx w) : Int) < adOf sE w l + 2)) = true) ∧
    (0 < (gOf sE).live ∧ (gOf sE).cancel.getLsbD 0 = false) ∧
    ∀ r ∈ [11, 12], let sp : Int := ((gOf sE).readS true r).toNat; sp < 0 ∨ sp % 32 ≠ 0 ∨ 14336 < sp + 384 := by
  have h : ∀ ty : BitVec 4, laneOk sE (3 :: regSpan ty.toNat 4 ++ regSpan ty.toNat 8) = true := by decide +kernel
  exact ⟨ready_of (by decide +kernel), (team_iff _).2 (by decide +kernel), by decide +kernel, by decide +kernel, by decide +kernel, fun ty => ready_of (h ty), by decide +kernel⟩

/-- Two lanes whose words differ in either order, and one in which they are equal. -/
theorem witness_LaneAtomicsComplete : sE.LaneReady 0 0 (gOf sE) [3, 4, 8] ∧ sE.Sound ∧ (gOf sE).counter .ld < 255 ∧ accBytes 3 = 4 ∧ accBytes 4 = 4 ∧
    (∀ l, l < 96 → (gOf sE).acts (wMem 2) l = true → 0 ≤ adOf sE (wMem 2) l ∧ adOf sE (wMem 2) l + 4 ≤ sE.limit (memAx (wMem 2)) ∧ adOf sE (wMem 2) l % 4 = 0) ∧
    (0 : Word).toInt < (1 : Word).toInt ∧ (1 : Word).toNat < (0xFFFFFFFF : Word).toNat ∧ (0xFFFFFFFF : Word).toInt < (1 : Word).toInt := by
  refine ⟨ready_of (by decide +kernel), ?_⟩
  simp only [State.Sound]; decide +kernel

/-- Two keys that differ in the rank of the grid alone, in the last place alone. -/
def qA : QEnt := ⟨.core 0, .team 0 0x100, 0x3F800000, 0, 1, 2, 3, 4⟩
def sTwo : State := setG (fun g => { g with live := 2 }) sE
def sFull : State :=
  { setG (fun g => { g with stall := some (.core 0) }) sE with oqSince := [(State.homeKey (.core 0), 0)], clk := 1000000, cur := none }

theorem witness_OrderedAddsAreQueuedAndOrdered :
    (sTwo.LaneReady 0 0 (gOf sTwo) [3, 4] ∧ sTwo.team 0 = some (tOf sTwo) ∧ accBytes 0 = 4 ∧ tyRegs 0 = 1 ∧
      (∀ l, l < 96 → (gOf sTwo).acts (wMem 2) l = true → 0 ≤ adOf sTwo (wMem 2) l ∧ adOf sTwo (wMem 2) l + 4 ≤ sTwo.limit (memAx (wMem 2)) ∧ adOf sTwo (wMem 2) l % 4 = 0) ∧
      (∀ l ∈ [0, 1], sTwo.homeUsed (sTwo.homeOf (sTwo.placeNow (memAx (wMem 2)) (adOf sTwo (wMem 2) l).toNat)) + 2 ≤
        State.homeCap (sTwo.homeOf (sTwo.placeNow (memAx (wMem 2)) (adOf sTwo (wMem 2) l).toNat))) ∧
      ((List.range 96).filter ((gOf sTwo).acts (wMem 2))) = [0, 1]) ∧
    (State.keyLt qA { qA with rank := 1, seq := 0 } = true ∧ State.keyLt { qA with rank := 1, seq := 0 } qA = false ∧ State.keyLt qA { qA with seq := 5 } = true ∧
      State.keyLt { qA with seq := 5 } qA = false) :=
  ⟨⟨ready_of (by decide +kernel), (team_iff _).2 (by decide +kernel), by decide +kernel⟩, by decide +kernel⟩

/-- Core 0's queue full. -/
def sOver : State := { sTwo with oq := List.replicate 8192 qA }

theorem used_of {s : State} {n : Nat} (h : s.oq = List.replicate n qA) : s.homeUsed (.core 0) = n := by
  have : (qA.home == Home.core 0) = true := by decide
  simp [State.homeUsed, h, this]

theorem witness_OrderedAddsAreQueuedAndOrdered_over : sOver.LaneReady 0 0 (gOf sOver) [3, 4] ∧ sOver.team 0 = some (tOf sOver) ∧
    (List.range 96).filter ((gOf sOver).acts (wMem 2)) = [0, 1] ∧ sOver.homeOf (sOver.placeNow (memAx (wMem 2)) (adOf sOver (wMem 2) 0).toNat) = .core 0 ∧
    State.homeCap (.core 0) ≤ sOver.homeUsed (.core 0) :=
  ⟨ready_of (by decide +kernel), (team_iff _).2 (by decide +kernel), by decide +kernel, by decide +kernel, by rw [used_of (n := 8192) rfl]; decide⟩

/-- Its last clause: one group has found core 0's queue full for 1 ms. -/
theorem witness_OrderedAddsAreQueuedAndOrdered_full : sFull.oqSince.get (State.homeKey (.core 0)) = some 0 ∧ 0 + 1000000 ≤ sFull.clk.toNat ∧ sFull.closing (.core 0) = false := by
  decide +kernel

theorem witness_OrderedAddsAreQueuedAndOrdered_one : (sFull.groups.filter (fun e => e.2.stall == some (.core 0))).map (·.1) = [64 * 0 + 0] ∧
    sFull.ops.filter (fun e => sFull.opStalled e.1 e.2 (.core 0)) = [] := by
  decide +kernel

/-! ### Witnesses: profiles and symbols -/

/-- The domain [1.0, 32.0] in lanes 0 and 1 of v4. -/
def sP : State := setG (fun g => { g with ptol := 0x3B000000, v := [(96 * 4, 0x3F800000), (96 * 4 + 1, 0x42000000)] }) sE

theorem witness_ProfileWordsComplete : sP.LaneReady 0 0 (gOf sP) [] ∧ sP.team 0 = some (tOf sP) ∧ (gOf sP).counter .pf < 255 ∧ (sP.core (tOf sP).core).prq.length < 16 ∧
    (∀ e ∈ [0, 7], e < (tOf sP).nprof) ∧ ((gOf sP).cond &&& 0x800 = 0 ∨ (gOf sP).hnd = 0 ∨ (gOf sP).frame ≠ none) ∧ (∀ r ∈ [4, 5, 6, 316, 317, 318, 319], r < 32 * (gOf sP).blocks) ∧ 2 ≤ (gOf sP).live ∧
    (let lo := f32 ((gOf sP).lane 4 0)
     let hi := f32 ((gOf sP).lane 4 1)
     lo.isNan = false ∧ hi.isNan = false ∧ hi.lt lo = false ∧ lo ≠ .inf false ∧ hi ≠ .inf true) :=
  ⟨ready_of (by decide +kernel), (team_iff _).2 (by decide +kernel), by decide +kernel⟩

/-- Inside a handler with the profile condition enabled. -/
theorem witness_ProfileWordsComplete_handler : let s := setG (fun g => { g with cond := 0x800, hnd := 0x10400, frame := some (aFrame 0) }) sP
    s.LaneReady 0 0 (gOf s) [] ∧ ((gOf s).cond &&& 0x800 ≠ 0 ∧ (gOf s).hnd ≠ 0 ∧ (gOf s).frame ≠ none) :=
  ⟨ready_of (by decide +kernel), by decide +kernel⟩

/-- The unit's queue after pclr has issued. -/
def sProf : State := nx (exec (.pclr ⟨31, false, 0, 7, 4, 0, 0, 0, 0, 0⟩) sP)

theorem witness_ProfileOperationIsPerformed :
    let h := sP.handles
    let o := opOf sProf h
    (sProf.core 0).prq = [h] ∧ sProf.ops.get h = some o ∧ o.kind = .prof (.clr 7 0x3F800000 0x42000000) 0x3B000000 false ∧ o.tid = 0 ∧ o.idx = 0 ∧
      sProf.group 0 0 = some (gOf sProf) ∧ sProf.team 0 = some (tOf sProf) ∧ (tOf sProf).killing = false ∧ (tOf sProf).asms = [] ∧ (gOf sProf).ended = false ∧
      (gOf sProf).wait = none ∧ (gOf sProf).pend = [] ∧ Tab.wf sProf.groups = true ∧ (tOf sProf).badP = [] ∧
      profResult (fun e => ((tOf sProf).profs.get e).getD Prof.empty) 0x3B000000 (.clr 7 0x3F800000 0x42000000) = some (7, some ⟨0x3F800000, 0x42000000, []⟩, 0) := by
  simp only [here_iff, team_iff]; decide +kernel

/-- Symbol 3 pending on v5; resolved. -/
def sSym (src : SymSrc) (val : Option Word) (v : Word) : State :=
  let s := sregs [(20, 0x10020), (22, v), (24, 0x10040)] sE
  (setG (fun g => { g with cancel := 0, tags := [(5, 0x7)], scar := [(0, 0x3F800000)] }) s).putTeam 0 { tOf s with syms := [(3, ⟨src, false, val⟩)], bs := [(3, State.bsWord 2 0 true)] }

theorem witness_ResolveWordCompletes :
    ((0x80000000 : Word) = 0 ∨ (0x80000000 : Word) = 0x80000000) ∧ ((f32 0x7FC00000).isNan = true) ∧ ((f32 0x3F800000).isNan = false) ∧
    (([none, some 0x40400000] : List (Option Word)).all fun v => let s := sSym .manual v 0; issues s && decide (5 < 32 * (gOf s).blocks) && (gOf s).v.wf && (gOf s).tags.wf && (gOf s).scar.wf &&
      decide ((gOf s).cancel = 0) && (gOf s).deferred 5 && decide ((gOf s).tagSym 5 = 3) && decide (s.symX 0 3 = v) && !(gOf s).deferred 6) = true := by
  decide +kernel

/-- A free symbol, with its sources; a manual one; a resolved one. -/
def sFree : State := sregs [(20, 0x10020), (22, 7), (24, 0x10040)] sE

theorem witness_SymbolWordsComplete :
    (let s := setG (fun g => { g with tags := [] }) (sSym .manual none 0)
     s.LaneReady 0 0 (gOf s) [5] ∧ s.symFree 0 3 = false ∧ (gOf s).freeSlots ≠ [] ∧ (gOf s).tags.wf = true ∧ (gOf s).scar.wf = true) ∧
    (issues sFree = true ∧ sFree.Sound ∧ sFree.team 0 = some (tOf sFree) ∧ (tOf sFree).syms.get 31 = none ∧ State.lanePair (gOf sFree) 20 = 0x10020 ∧ State.lanePair (gOf sFree) 24 = 0x10040 ∧
      paOf (sFree.translateNow 0 0 .read 0x10020) = some 0x10020 ∧ paOf (sFree.translateNow 0 0 .read 0x10040) = some 0x10040 ∧
      State.cntHolds (sFree.wordAt (.dev 0x10020)) ((gOf sFree).readS true 22) = false ∧ ((gOf sFree).readS true 9).toNat % 4 = 0 ∧
      ((gOf sFree).readS true 9).toNat + 4 ≤ sFree.limit false ∧ ((gOf sFree).readS true 9).toNat + 4 ≤ sFree.limit true) ∧
    (([none, some 8] : List (Option Word)).all fun v => decide ((tOf (sSym .manual v 0)).syms.get 3 = some ⟨.manual, false, v⟩) && issues (sSym .manual v 0)) = true := by
  refine ⟨⟨ready_of (by decide +kernel), by decide +kernel⟩, ?_⟩
  simp only [State.Sound, team_iff]; decide +kernel

theorem witness_SymbolResolvesForWholeTeam :
    let s := setG (fun g => { g with wait := some (.sym 3) }) (sSym .manual none 0)
    let t := s.putTeam 0 { tOf s with syms := [(3, ⟨.counter 0x10020 0x10020 7 0x10040 0x10040 false, true, none⟩)] }
    s.team 0 = some (tOf s) ∧ (tOf s).syms.get 3 = some ⟨.manual, false, none⟩ ∧ Tab.wf s.groups = true ∧ (∀ e ∈ s.groups, e.1 / 64 = 0 → e.2.idx = e.1 % 64) ∧ t.Sound ∧
      (tOf t).syms.get 3 = some ⟨.counter 0x10020 0x10020 7 0x10040 0x10040 false, true, none⟩ := by
  simp only [State.Sound, team_iff]; decide +kernel

/-! ### Witnesses: what profiles, forms and numbers are -/

/-- peval of profile 7, two lines on [1.0, 32.0], at the x values of v4. -/
def sEval : State := nx (exec (.peval ⟨31, false, 0, 6, 7, 4, 0, 0, 0, 0⟩)
  (sP.putTeam 0 { tOf sP with profs := [(7, ⟨0x3F800000, 0x42000000, [⟨0, 0x40000000, 1⟩, ⟨0x3F800000, 0, 2⟩]⟩)] }))

theorem witness_ProfileOperationIsPerformed_query :
    let h := sP.handles
    let o := opOf sEval h
    (sEval.core 0).prq = [h] ∧ sEval.ops.get h = some o ∧ o.tid = 0 ∧ o.idx = 0 ∧ sEval.group 0 0 = some (gOf sEval) ∧ sEval.team 0 = some (tOf sEval) ∧
      Tab.wf sEval.groups = true ∧ (tOf sEval).killing = false ∧ (tOf sEval).asms = [] ∧ (tOf sEval).badP = [] ∧ (gOf sEval).ended = false ∧ (gOf sEval).wait = none ∧
      (gOf sEval).v.wf = true ∧ (∀ r, (gOf sEval).deferred r = false) ∧ (gOf sEval).badV = [] ∧
      ∃ e xs m k vals, o.kind = .prof (.eval e xs m) 0x3B000000 false ∧ (gOf sEval).pend = [⟨.v k, m, vals, h, true, 0, 0, false, false⟩] := by
  have hk : (match (opOf sEval sP.handles).kind, (gOf sEval).pend with
    | .prof (.eval _ _ m) 0x3B000000 false, [⟨.v _, m', _, h, true, 0, 0, false, false⟩] => decide (m = m') && decide (h = sP.handles)
    | _, _ => false) = true := by decide +kernel
  have ht : (gOf sEval).tags = [] := by decide +kernel
  refine ⟨by decide +kernel, by decide +kernel, by decide +kernel, by decide +kernel, (here_iff _).2 (by decide +kernel), (team_iff _).2 (by decide +kernel), by decide +kernel,
    by decide +kernel, by decide +kernel, by decide +kernel, by decide +kernel, by decide +kernel, by decide +kernel, fun r => by simp [Group.deferred, ht, Cells.get],
    by decide +kernel, ?_⟩
  revert hk; generalize (opOf sEval sP.handles).kind = q; generalize (gOf sEval).pend = p; intro hk; split at hk
  · simp only [Bool.and_eq_true, decide_eq_true_eq] at hk
    obtain ⟨rfl, rfl⟩ := hk
    exact ⟨_, _, _, _, _, rfl, rfl⟩
  · cases hk

/-- Lines of slopes n - 1 to 0 with intercepts -k²: each is the greatest somewhere. -/
def manyLines (n : Nat) : List Line := (List.range n).map fun j =>
  let k := n - 1 - j
  ⟨(rne32 (.ofQ (Q.ofInt k))).1, (rne32 (.ofQ (Q.ofInt (-(k * k))))).1, 0⟩

/-- An insertion whose result has more than 512 lines. -/
def sMany : State := { sProf with ops := sProf.ops.map fun e => (e.1, { e.2 with kind := .prof (.ins 7 (manyLines 513) false) 0 false }) }

theorem witness_ProfileOperationIsPerformed_overflow :
    (sMany.core 0).prq = [sP.handles] ∧ (sMany.ops.get sP.handles).map (fun o => (o.tid, o.idx)) = some (0, 0) ∧
      (sMany.ops.get sP.handles).map (·.kind) = some (.prof (.ins 7 (manyLines 513) false) 0 false) ∧ sMany.groups = sProf.groups ∧ sMany.teams = sProf.teams ∧
      (match profResult (fun e => ((tOf sMany).profs.get e).getD Prof.empty) 0 (.ins 7 (manyLines 513) false) with
        | some (7, none, _) => true
        | _ => false) = true :=
  ⟨by decide +kernel, by decide +kernel, by decide +kernel, by simp only [sMany], by simp only [sMany], by decide +kernel⟩

/-- Profiles of no line, of one and of two: on [-1, 1], on [0, 2], on [2, 3], everywhere, nowhere. -/
def pOne (lo hi : Word) (l : List Line) : Prof := ⟨lo, hi, l⟩
def l12 : Line := ⟨0x3F800000, 0x40000000, 5⟩
def l21 : Line := ⟨0x40000000, 0xBF800000, 6⟩

theorem witness_ProfileOperationIsPerformed_values :
    (∀ l ∈ [l12, l21], l.finite) ∧
    (∀ p ∈ [pOne 0xBF800000 0x3F800000 [l12], pOne 0 0x40000000 [l21], pOne 0x40000000 0x40400000 [l21], pOne 0xFF800000 0x7F800000 [l12], pOne 0xBF800000 0x3F800000 [l12, l21],
        pOne 0xFF800000 0x7F800000 []], ¬nanWord p.lo ∧ ¬nanWord p.hi ∧ p.lo ≠ 0x7F800000 ∧ p.hi ≠ 0xFF800000 ∧ wordKey p.lo ≤ wordKey p.hi) ∧
    (wordKey 0x3F800000 < wordKey 0x40000000 ∧ wordKey 0 ≤ wordKey 0x3F800000 ∧ wordKey 0xFF800000 < wordKey 0x7F800000 ∧ ¬nanWord 0xFF800000) ∧
    (finite32 (rne32 ((f32 l12.a).add (f32 l21.a)).1).1 = true ∧ finite32 (rne32 ((f32 l12.b).add (f32 l21.b)).1).1 = true) ∧
    (finite32 0xBF800000 = true ∧ finite32 0x3F800000 = true ∧ (0xBF800000 : Word) ≠ 0x80000000 ∧ finite32 0x3B000000 = true) ∧
    ((f32 l12.a).num < (f32 l21.a).num ∧ 0 ≤ (f32 0x3B000000).num) ∧
    (nanWord 0x7FC00000 ∧ ¬nanWord 0x7F800000 ∧ wordKey 0x40000000 > wordKey 0x3F800000 ∧ wordKey 0xFF800000 ≤ wordKey 0x7F800000) := by
  simp only [Line.finite, nanWord, FVal.num, Q.val]; decide +kernel

/-! Lane words on forms -/

/-- v3, v4, v5 and v6 as forms over symbol 3 where the flag says so, each in a sidecar slot of its own; symbol 3 is manual. -/
def tagOf (r sym slot : Nat) : Nat × BitVec 11 := (r, BitVec.ofNat 11 (1 + 2 * sym + 64 * slot))
def sForm (tg : List (Nat × BitVec 11)) (val : Option Word) : State :=
  (setG (fun g => { g with tags := tg, scar := [(0, 0x3F800000)] }) sE).putTeam 0 { tOf sE with syms := [(2, ⟨.manual, false, val⟩), (3, ⟨.manual, false, val⟩)] }

def pick4 (a b c d : Bool) : List (Nat × BitVec 11) := ([(3, a), (4, b), (5, c), (6, d)] : List (Nat × Bool)).filterMap fun p => if p.2 then some (tagOf p.1 3 p.1) else none

def wForm : LaneWord := ⟨31, false, 0, 6, 3, 4, 5, 0, 0, 0⟩

def formOk (s : State) : Bool :=
  let g := gOf s
  issues s && decide (g.badV = []) && decide (g.live ≤ 96) && g.v.wf && g.tags.wf && g.scar.wf && [6, 3, 4, 5].all (fun r => decide (r < 32 * g.blocks)) && g.acts wForm 0

/-- Every choice of deferred sources and destination; two symbols; no slot free. -/
theorem witness_SymbolWordsComplete_forms :
    (∀ a b c d, let s := sForm (pick4 a b c d) none; (formOk s && (gOf s).deferred 3 == a && (gOf s).deferred 4 == b && (gOf s).deferred 5 == c && (gOf s).deferred 6 == d &&
      [6, 3, 4, 5].all (fun r => !(gOf s).deferred r || (gOf s).tagSym r == 3) && !(gOf s).freeSlots.isEmpty) = true) ∧
    ([none, some 0x40400000].all fun v => let s := sForm [tagOf 3 2 0, tagOf 4 3 1] v
      formOk s && (gOf s).deferred 3 && (gOf s).deferred 4 && !(gOf s).deferred 6 && !(gOf s).freeSlots.isEmpty && decide ((gOf s).tagSym 3 < (gOf s).tagSym 4) &&
        s.symX 0 2 == v) = true ∧
    ([none, some 0x40400000].all fun v => let s := sForm (pick4 true false false true) v; s.symX 0 3 == v && formOk s) = true ∧
    (let s := sForm (tagOf 3 3 0 :: (List.range 31).map fun k => tagOf (100 + k) 3 (k + 1)) none
     (formOk s && (gOf s).deferred 3 && !(gOf s).deferred 4 && !(gOf s).deferred 6 && (gOf s).freeSlots.isEmpty && !(gOf s).canEnter .deferral) = true) := by
  decide +kernel

/-! Numbers -/

theorem witness_LaneMovesAndPredicatesComplete_values : nanWord 0x7FC00000 ∧ nanWord 0xFFC00000 ∧ ¬nanWord 0x7F800000 ∧ ¬nanWord 0x80000000 := by
  simp only [nanWord]; decide +kernel

theorem witness_LaneFloatWordsComplete_values :
    (∀ p ∈ ([(0, 0x7FC00000, 0x7F800000), (2, 0x7E00, 0x7C00), (1, 0x7FC0, 0x7F80)] : List (Nat × Nat × Nat)), p.2.1 < 2 ^ tyWidth p.1 ∧ p.2.2 < 2 ^ tyWidth p.1 ∧
      (tyFmt p.1).value p.2.1 = .nan ∧ (tyFmt p.1).value p.2.2 = .inf false) ∧ FFmt.fp32.value 0x3FC00000 ≠ .nan ∧ FFmt.fp32.value 0x3FC00000 ≠ .inf false := by
  decide +kernel

/-- A positive number, powers of two, integers and halves. -/
theorem witness_SpecialFunctionWordsComplete_values : (∃ m : Q, f32 0x40400000 = .fin false m ∧ 0 < m.num) ∧
    ((⟨8, 1⟩ : Q).val = (2 : ℚ) ^ (3 : Int) ∧ (⟨1, 2⟩ : Q).val = (2 : ℚ) ^ (-1 : Int)) ∧ ((FVal.fin true ⟨149, 1⟩).num = ((-149 : Int) : ℚ)) ∧
    ((⟨3, 1⟩ : Q).val = ((3 : Nat) : ℚ) ∧ (⟨3, 2⟩ : Q).val = ((1 : Nat) : ℚ) + 1 / 2) := by
  refine ⟨⟨(f32 0x40400000).toQ, by decide +kernel, by decide +kernel⟩, ?_⟩
  norm_num [Q.val, FVal.num, FVal.toQ, Q.neg]

/-- An element that a format holds and one between two; a clip and none; blocks with a NaN and without; words with and without NaN and infinities. -/
theorem witness_ConversionWordsComplete_values : (∀ c ∈ [0, 1, 2, 3, 4], (floatFmt c).isSome = true) ∧ (FFmt.e4m3.value 1 ≠ FFmt.e4m3.value 2) ∧
    (FVal.nan ∈ [FVal.fin false ⟨1, 1⟩, FVal.nan]) ∧ ([RMode.rne, .sr 7].length = [FVal.fin false ⟨1, 3⟩, .fin true ⟨5, 1⟩].length) ∧ (7 : Nat) < 2 ^ 32 := by
  decide +kernel

theorem witness_CrossLaneWordsComplete_values :
    ((0x7FC00000 : Word) ∈ [0x3F800000, 0x7FC00000] ∧ nanWord 0x7FC00000) ∧ (¬nanWord 0x7F800000 ∧ ¬nanWord 0xFF800000) ∧ (finite32 0x3F800000 = true ∧ finite32 0x80000000 = true) := by
  simp only [nanWord]; decide +kernel

/-! ### Witnesses: ends, copies, launches -/

/-- Two groups in the team, one alone. -/
def sTwoGroups : State := { sC with groups := [(0, gOf sC), (1, { gOf sC with idx := 1 })] }

theorem witness_GroupsEnd :
    (issues sC = true ∧ sC.team 0 = some (tOf sC) ∧ sC.grid (tOf sC).grid = some ((sC.grid 0).getD State.bootGrid) ∧ ((sC.grid 0).getD State.bootGrid).handler = none ∧
      (gOf sC).idx = 0 ∧ (gOf sC).opens = [] ∧ sC.opsBy 0 0 = [] ∧ sC.heldByMxa 0 (gOf sC) = false ∧ (tOf sC).killing = false ∧ (tOf sC).asms = [] ∧
      sC.groupsOf 0 = [gOf sC] ∧ (∀ e ∈ sC.trackers, e.tid ≠ 0) ∧ Tab.wf sC.groups = true ∧ Tab.wf sC.teams = true) ∧
    (sTwoGroups.opsBy 0 0 = [] ∧ (sTwoGroups.group 0 1).map (fun h => (h.ended, h.wait)) = some (false, none) ∧ Tab.wf sTwoGroups.groups = true) := by
  simp only [team_iff]; decide +kernel

/-- A shape register's bits: space, address, format, layout, extents and strides. -/
def shape (space addr fmt layout : Nat) (exts strides : List Nat) : ShapeBits :=
  BitVec.ofNat 512 (addr + space * 2 ^ 60 + fmt * 2 ^ 64 + layout * 2 ^ 72 + exts.length * 2 ^ 88 + ((exts.zipIdx.map fun e => e.1 * 2 ^ (96 + 32 * e.2)).sum) +
    ((strides.zipIdx.map fun e => e.1 * 2 ^ (256 + 48 * e.2)).sum))

def tileIn (space addr fmt : Nat) : ShapeBits := shape space addr fmt 0 [8, 4] [1, 8]

/-- Operand blocks at s40 (one slice, device 5, no counter) and at s60; device 5 is a peer and device 3 is this one. -/
def sF : State :=
  let s := sregs [(40, 1), (41, 5), (42, 0x10020), (45, 0xFFFFFFFF), (50, 1 + 65536 * 3), (52, 0x100), (60, 1), (61, 10), (70, 0x100), (72, 8)] sC
  let s := s.setCfgW 2 0 0x200 8
  (s.setCfgW 4 0 (8 * 5) 1).setCfgW 4 0 (8 * 3) 5

/-- Shape registers 4 and 5. -/
def withSh (d x : ShapeBits) : State := setG (fun g => { g with sh := Cells.set (Cells.set [] 4 d) 5 x }) sF

def shOk (s : State) (fmtsEqual : Bool) : Bool :=
  let D := Shape.of ((gOf s).sh.get 4)
  let S := Shape.of ((gOf s).sh.get 5)
  issues s && Shape.ok false ((gOf s).sh.get 4) && Shape.ok false ((gOf s).sh.get 5) && decide (D.cbtag = 0) && decide (S.cbtag = 0) && !D.block && !S.block &&
    decide (D.ndim = S.ndim) && (!fmtsEqual || decide (D.fmt = S.fmt)) && decide (s.sreg 40 = 1) && s.isPeer (s.partOf (gOf s).core) (s.sreg 41).toNat &&
    decide ((gOf s).idx = 0) && !(gOf s).ended && decide ((gOf s).wait = none) && decide ((gOf s).counter .cp < 255) && decide ((gOf s).counter .cl < 255) &&
    !(tOf s).killing && decide ((tOf s).asms = []) && Tab.wf s.groups && (s.team 0).isSome

/-- Every pair of spaces that a form takes, and the formats of each cpa operation. -/
theorem witness_CopyWordsComplete :
    (([(1, 0), (2, 0), (0, 1), (0, 2), (1, 2), (2, 1)] : List (Nat × Nat)).all fun p => shOk (withSh (tileIn p.1 0x10000 0) (tileIn p.2 0x100 0)) true) = true ∧
    (([0, 0x10, 0x11] : List Nat).all fun f => shOk (withSh (tileIn 0 0x10000 f) (tileIn 1 0x100 f)) true && decide ((Shape.of (tileIn 0 0x10000 f)).fmt = f)) = true ∧
    (([0, 4] : List Nat).all fun f => shOk (withSh (tileIn 0 0x10000 f) (tileIn 1 0x100 0)) false) = true ∧ (40 : SReg).toNat % 2 = 0 ∧ (40 : SReg).toNat ≤ 118 := by
  decide +kernel

/-- The drain grid of entry 9, whose T is the destination. -/
def sCommit : State :=
  let f : Filing := { a := 0, g := 0, t := tileIn 0 0x10000 0, recAddr := 0, record := 0, last := true, team := 0, idx := 0, asid := 0, awBase := 0, awSize := 0, op := 0, counted := false }
  let s := withSh (tileIn 0 0x10000 0) (tileIn 1 0x100 0)
  { s.putPart 0 { s.part 0 with entries := [⟨9, f, .draining, 0⟩] } with grids := [(0, { State.bootGrid with drain := some 9 })] }

theorem witness_CopyWordsComplete_bkcommit : shOk sCommit true = true ∧ (sCommit.gridOf 0).map (·.drain) = some (some 9) ∧
    ((sCommit.part (sCommit.partOf (gOf sCommit).core)).entries.find? (fun y => y.acc == 9)).map (fun e => decide (e.f.t = (gOf sCommit).sh.get 4)) = some true ∧
    (let s := (withSh (tileIn 1 0x100 0) (tileIn 0 0x10000 0)).putTeam 0 { tOf sF with mcset := some 0 }
     shOk s true = true ∧ (tOf s).mcset ≠ none) := by
  decide +kernel

/-- The gather's tile and index row, a counter that is bumped, a codebook, and a close in each space. -/
def sGather : State := withSh (shape 1 0x100 0 0 [8, 96] [1, 8]) (shape 0 0x10000 0 0 [8] [1])

theorem witness_CopyWordsComplete_others :
    (let D := Shape.of ((gOf sGather).sh.get 4)
     let S := Shape.of ((gOf sGather).sh.get 5)
     issues sGather = true ∧ (gOf sGather).tags = [] ∧ (gOf sGather).badV = [] ∧ Shape.ok false ((gOf sGather).sh.get 4) = true ∧ Shape.ok true ((gOf sGather).sh.get 5) = true ∧ D.block = false ∧ D.fmt = S.fmt ∧ S.cbtag = 0 ∧
       D.space = 1 ∧ S.space = 0 ∧ S.ndim = 1 ∧ D.ndim = 2 ∧ D.exts.headD 0 = S.exts.headD 0 ∧ 1 ≤ D.exts.getD 1 0 ∧ D.exts.getD 1 0 ≤ 96 ∧ sGather.sreg 60 = 1 ∧
       (sGather.sreg 61).toNat % 2 = 0 ∧ (sGather.sreg 61).toNat + 1 < 32 * (gOf sGather).blocks) ∧
    (sF.sreg 50 = BitVec.ofNat 32 (1 + 65536 * 3) ∧ (sF.spair 52).toNat % 4 = 0 ∧ (sF.spair 52).toNat + 4 ≤ 2 ^ 57) ∧
    (let sh := shape 0 0x10000 0x20 0 [64, 256] [1, 64]
     let S := Shape.of sh
     Shape.ok false sh = true ∧ S.fmt = 0x20 ∧ S.zorder = false ∧ S.ndim = 2 ∧ S.exts.getD 1 0 = 256 ∧ 1 ≤ S.exts.headD 0 ∧ S.exts.headD 0 ≤ 64) ∧
    (0 < (sF.sreg 72).toNat ∧ (sF.sreg 72).toNat % 4 = 0 ∧ (sF.sreg 70).toNat % 4 = 0 ∧ (sF.spair 70).toNat % 4 = 0 ∧ ∀ sp ∈ [0, 1, 2], (sF.sreg 70).toNat + (sF.sreg 72).toNat ≤ sF.limitOf 0 sp) := by
  decide +kernel

/-- A record's words: entry 0x10000, lane base 0x11000, one team of one compute group of 96 lanes, seed 77. -/
def recBits (prio : Nat) (dn : Nat := 0) : BitVec 1024 :=
  BitVec.ofNat 1024 (0x10000 + 0x11000 * 2 ^ 64 + 0x123456789A * 2 ^ 128 + 1 * 2 ^ 192 + prio * 2 ^ 224 + 1 * 2 ^ 234 + 8 * 2 ^ 240 + 16 * 2 ^ 244 +
    (2 + 1 * 2 ^ 2 + 96 * 2 ^ 8 + 10 * 2 ^ 15) * 2 ^ 256 + 77 * 2 ^ 384 + dn * 2 ^ 576)

def bytesOf (n x : Nat) : List Byte := (List.range n).map fun k => BitVec.ofNat 8 (x / 256 ^ k)

/-- Bytes in canonical form from address a. -/
def cellsAt (a : Nat) (bs : List Byte) : Memory := bs.zipIdx.filterMap fun e => if e.1 = 0 then none else some (a + e.2, e.1)

/-- Every die in partition 0, every core present, a Filler of four entries, a translation in the hub. -/
def sI0 : State :=
  let s := ((((sF.setCfgW 3 0 0x400 0x88888888).setCfgW 3 0 0x420 0xFFFFFFFF).setCfgW 3 0 0x424 0xFFFFFFFF).setCfgW 3 0 0x428 0xFFFFFFFF)
  let s := ((s.setCfgW 2 0 0x040 (4 + 256 * 1)).setCfgW 2 0 0x044 0x10000)
  { s with hubTlb := [⟨0, 0x10000, 0x10000, 0x10000, true, true⟩], hubTlb1 := [⟨0, 0x10000, 0x10000, 0x10000, true, true⟩], dev := cellsAt 0x10000 (bytesOf 128 (recBits 0).toNat) }

/-- The address that a hub's translation gives, where both hubs hold it. -/
def hubPa (s : State) (p asid : Nat) (kind : Kind) (va : Nat) : Option Nat :=
  if s.hubTlb = s.hubTlb1 then (s.hubTlb.find? fun e => State.tlbHit e (4096 * p + asid) kind va).map fun e => e.pa + (va - e.base) else none

theorem hubPa_sound {s : State} {p asid va pa : Nat} {kind : Kind} (h : hubPa s p asid kind va = some pa) (who : Req) : s.translate who none p asid kind va = .ok pa := by
  simp only [hubPa] at h
  split at h
  · rename_i e
    obtain ⟨x, hx, rfl⟩ := Option.map_eq_some_iff.1 h
    simp [State.translate, State.tlbOf, ← e, State.tlbSpace, hx]
  · cases h

/-- Record addresses in each space that fit and that do not. -/
theorem witness_LaunchesAreAccepted_word :
    (([0x80, 0xFF80, 0xFFC0, 0x41] : List Word).all fun v => let s := sregs [(4, v)] sF; issues s && (s.gridOf 0).isSome) = true ∧ (4 : SReg).toNat % 2 = 0 := by
  decide +kernel

/-- One record waits in the annex. -/
def sPost (rc : BitVec 1024) : State :=
  let s := { sI0 with cur := none, annex := cellsAt 0x1000 (bytesOf 128 rc.toNat) }
  s.putPart 0 { s.part 0 with posts := [⟨none, false, .annex 0 0x1000, 0, 0, 0⟩] }

/-- A record that is accepted, and records refused with codes 7 and 3. -/
theorem witness_LaunchesAreAccepted :
    (sPost (recBits 4)).Sound ∧ (sPost (recBits 4)).annex.wf = true ∧ ((sPost (recBits 4)).part 0).status = [] ∧ ((sPost (recBits 4)).part 0).posts = [⟨none, false, .annex 0 0x1000, 0, 0, 0⟩] ∧
    (sPost (recBits 4)).heldGrids 0 < 4096 ∧ (sPost (recBits 4)).recordCodes 0 ((sPost (recBits 4)).recordAt (.annex 0) 0x1000) false = [] ∧
    Rec.depAddr (recBits 4) = 0 ∧ Rec.entry (recBits 4) < 2 ^ 57 ∧ Rec.laneBase (recBits 4) < 2 ^ 57 ∧
    hubPa (sPost (recBits 4)) 0 0 .fetch (Rec.entry (recBits 4)) = some 0x10000 ∧
    hubPa (sPost (recBits 4)) 0 0 .fetch (Rec.laneBase (recBits 4)) = some 0x11000 ∧
    ((sPost (recBits 0)).recordCodes 0 ((sPost (recBits 0)).recordAt (.annex 0) 0x1000) false).head? = some 7 ∧
    ((sPost (recBits 4 ||| (1 <<< 235))).recordCodes 0 ((sPost (recBits 4 ||| (1 <<< 235))).recordAt (.annex 0) 0x1000) false).head? = some 3 := by
  simp only [State.Sound]; decide +kernel

/-- The host has posted a record in memory; the partition's own address space and window. -/
def sHost : State :=
  let s := ({ sI0 with cur := none, dev := cellsAt 0x10000 (bytesOf 128 (recBits 4).toNat) }).setCfgW 2 0 0x02C (1 + 65536 * 2)
  s.putPart 0 { s.part 0 with posts := [State.hostPost 0x10000 false] }

theorem witness_LaunchesAreAccepted_host : sHost.Sound ∧ (sHost.part 0).status = [] ∧ (sHost.part 0).posts = [State.hostPost 0x10000 false] ∧
    ((State.hostPost 0x10000 false).who = none ∧ (State.hostPost 0x10000 false).loc = .host 0x10000) ∧ sHost.heldGrids 0 < 4096 ∧
    (let rc := sHost.recordAt (fun a => .dev (0x10000 + a % 65536)) 0x10000
     sHost.recordCodes 0 rc false = [] ∧ Rec.depAddr rc = 0 ∧ Rec.entry rc < 2 ^ 57 ∧ Rec.laneBase rc < 2 ^ 57 ∧
       hubPa sHost 0 ((sHost.cfgW 2 0 0x028).toNat % 4096) .read 0x10000 = some 0x10000 ∧
       hubPa sHost 0 ((sHost.cfgW 2 0 0x028).toNat % 4096) .fetch (Rec.entry rc) = some 0x10000 ∧
       hubPa sHost 0 ((sHost.cfgW 2 0 0x028).toNat % 4096) .fetch (Rec.laneBase rc) = some 0x11000) := by
  simp only [State.Sound]; decide +kernel

/-- The launch area's next sequence number stands in memory. -/
def sAgent : State :=
  let s := ((({ sI0 with cur := none, dev := cellsAt (0x10000 + 512) [3] }).setCfgW 2 0 0x114 0x10000).setCfgW 2 0 0x11C 2)
  s.putPart 0 { s.part 0 with posted := 6 }

theorem witness_LaunchesAreAccepted_agent : sAgent.Sound ∧ bitAt (sAgent.cfgW 2 0 0x100).toNat 0 = false ∧ (∀ y ∈ (sAgent.part 0).posts, y.agent = false) ∧
    (let va := sAgent.cfgD 2 0 0x114 + 128 * 2 ^ fieldAt (sAgent.cfgW 2 0 0x11C).toNat 0 4
     va < 2 ^ 57 ∧ hubPa sAgent 0 (fieldAt (sAgent.cfgW 2 0 0x028).toNat 0 12) .read va = some (0x10000 + 512)) ∧
    BitVec.ofNat 64 (sAgent.numAt (.dev (0x10000 + 512)) 8) ≠ (sAgent.part 0).posted := by
  simp only [State.Sound]; decide +kernel

/-! ### Witnesses: engines -/

/-- A copy of one row that is ready, with its last element at the end of its page; and one whose destination is outside. -/
def sReady (n da sa : Nat) : State := nx (exec (.cpl 4 5 0 31) (withSh (shape 1 da 0 0 [n] [1]) (shape 0 sa 0 0 [n] [1])))
def staged (st : Stage) (s : State) : State := { s with ops := s.ops.map fun e => (e.1, { e.2 with stage := st }), cur := none }

/-- The copy and its slice, of operation h. -/
def sliceOf (s : State) (h : Nat) : Option (CopyOps × Slice) := match (opOf s h).kind with
  | .copy c [sl] => some (c, sl)
  | _ => none

theorem witness_CopiesArePerformed_start :
    (let s := sReady 300 0x104 (0x20000 - 1200)
     let h := sF.handles
     s.ops.get h = some (opOf s h) ∧ (opOf s h).stage = .ready ∧ (opOf s h).tid = 0 ∧ s.team 0 = some (tOf s) ∧
       (sliceOf s h).map (fun e => (e.1.after, decide (e.1.form = .cpl), e.1.inc, (decodeTag e.1.form (Shape.of e.2.src)).isNone, (s.sliceFault (opOf s h) e.1 e.2).isNone)) = some ([], true, 0, true, true)) ∧
    (let s := sReady 1 0x10000 0x10000
     (sliceOf s sF.handles).map (fun e => ((s.sliceFault (opOf s sF.handles) e.1 e.2).map fun f => f.2.2.length)) = some (some 1)) := by
  simp only [team_iff]; decide +kernel

def movingOk (s : State) (h : Nat) : Bool :=
  decide (s.badRows = []) && decide (s.symErrs = []) && decide (s.mfailed = []) && Tab.wf s.ops && (s.ops.get h).isSome && decide ((opOf s h).stage = .moving) && decide ((opOf s h).tid = 0) && (s.team 0).isSome &&
    !(tOf s).killing && decide ((tOf s).asms = []) && (tOf s).tm.wf && decide ((gOf s).idx = 0) && (s.group 0 0).isSome && !(gOf s).ended && decide ((gOf s).wait = none) && Tab.wf s.groups &&
    s.groups.all fun e => decide (e.2.idx = e.1 % 64)

theorem witness_CopiesArePerformed :
    (let s := staged .moving (sReady 300 0x104 (0x20000 - 1200))
     let h := sF.handles
     movingOk s h = true ∧ (sliceOf s h).map (fun e => (e.1.form == .cpl && e.1.np == 1 && e.1.bsl == 31 && e.1.inc == 0 && e.1.cspace == 0 && e.1.caddr == 0 && e.1.peer == 0, e.2.origin)) = some (true, [0, 0, 0, 0, 0]) ∧
       (sliceOf s h).map (fun e => (let D := Shape.of e.2.dst; [D.space, D.addr, D.fmt, D.layout, D.ndim] ++ D.exts ++ D.strides.map Int.toNat)) = some [1, 0x104, 0, 0, 1, 300, 1] ∧
       (sliceOf s h).map (fun e => (let S := Shape.of e.2.src; [S.space, S.addr, S.fmt, S.layout, S.ndim] ++ S.exts  ++ S.strides.map Int.toNat ++ [S.cbtag])) = some [0, 0x20000 - 1200, 0, 0, 1, 300, 1, 0] ∧
       (0x20000 - 1200) % 65536 + 4 * 300 ≤ 65536 ∧
       paOf (s.translate (.op h) (some (opOf s h).core) (s.partOf (opOf s h).core) (((s.gridOf 0).map (·.asid)).getD 0) .read 0x10000) = some 0x10000) := by
  decide +kernel

/-- A counter write and a close step that move. -/
theorem witness_CopiesArePerformed_others :
    (let s := staged .moving (nx (exec (.aclose 1 70 72) { sF with oq := [⟨.core 0, .team 0 0x100, 0x40000000, 0, 0, 0, 5, 0⟩] }))
     let s := { s with ops := s.ops.map fun e => (e.1, { e.2 with kind := .close ⟨1, 0x100, 0⟩ 8 [0x104] }) }
     movingOk s sF.handles = true ∧ (opOf s sF.handles).kind = .close ⟨1, 0x100, 0⟩ 8 [0x104]) ∧
    (let s := staged .moving (nx (exec (.cpw 50 31 false) sF))
     let s := { s with ops := s.ops.map fun e => (e.1, { e.2 with kind := .copy ⟨.cpw false, 1, 31, 3, 1, 0x100, 0, [], 0⟩ [] }) }
     movingOk s sF.handles = true ∧ (opOf s sF.handles).kind = .copy ⟨.cpw false, 1, 31, 3, 1, 0x100, 0, [], 0⟩ []) := by
  decide +kernel

/-- Peer set 3 of devices 3 (this one) and 5, its tile in team memory. -/
def sColl (f : Nat) (exts strides : List Nat) : State :=
  let s := ((sregs [(80, 3 + 65536 * 9), (81, 1)] sF).setCfgW 2 0 (0x1000 + 0x400 * 3) 2).setCfgW 2 0 (0x1000 + 0x400 * 3 + 4) (3 + 65536 * 5)
  setG (fun g => { g with sh := Cells.set [] 4 (shape 1 0x100 f 0 exts strides) }) s

theorem witness_CollectivesComplete :
    (let s := sColl 0 [4, 2] [1, 4]
     let S := Shape.of ((gOf s).sh.get 4)
     issues s = true ∧ (gOf s).counter .cl < 255 ∧ s.setSize 0 3 = 2 ∧ s.selfDev 0 ∈ s.members 0 3 ∧ (s.members 0 3).Nodup ∧ Shape.ok false ((gOf s).sh.get 4) = true ∧ S.space ≠ 0 ∧
       (80 : SReg).toNat ≤ 126 ∧ (s.sreg 80).toNat % 64 = 3 ∧ (s.sreg 80).toNat / 64 % 1024 = 0 ∧ S.exts.getLastD 0 % 2 = 0 ∧ (s.sreg 81).toNat < 2 ∧ s.partOf (gOf s).core = 0 ∧
       (s.ops.filter fun e => s.partOf e.2.core == 0 && (match e.2.kind with | .coll _ => true | _ => false)).length < 64 ∧ S.fmt ∈ [0, 1, 2, 3, 4, 6, 0x10] ∧
       (∀ c ∈ Shape.box S.exts, ∀ q ∈ S.spans c, 0 ≤ q.1 ∧ q.1 + q.2 ≤ s.limitOf 0 S.space)) := by
  decide +kernel

/-- An all-reduce of one integer that waits, with the other member's descriptor there, and without it past its time. -/
def sSum : State := { nx (exec (.clar 4 80 31 false 0) (sColl 0x10 [1] [1])) with cur := none }
def sSumRecv : State := sSum.putPart 0 { sSum.part 0 with recv := [⟨3, 0, 0, 1 - (sSum.members 0 3).idxOf (sSum.selfDev 0), ⟨0, 0, false, 0x10, [1], 9, 0⟩, [77]⟩] }

theorem witness_CollectivesComplete_events :
    let h := sF.handles
    (sSum.Sound ∧ Tab.wf sSum.ops = true ∧ sSum.ops.get h = some (opOf sSum h) ∧ (opOf sSum h).stage = .waiting ∧ (opOf sSum h).tid = 0 ∧ sSum.team 0 = some (tOf sSum) ∧ (tOf sSum).killing = false ∧
      (tOf sSum).asms = [] ∧ (tOf sSum).tm.wf = true ∧ (gOf sSum).idx = 0 ∧ sSum.group 0 0 = some (gOf sSum) ∧ (gOf sSum).ended = false ∧ (gOf sSum).wait = none ∧ Tab.wf sSum.groups = true ∧
      sSum.partOf (opOf sSum h).core = 0) ∧
    (match (opOf sSum h).kind with
      | .coll c => decide (c.desc = ⟨0, 0, false, 0x10, [1], 9, 0⟩) && decide (c.size = 2) && decide (c.rank < 2) && decide (c.bsl = 31) &&
          decide (sSumRecv.matchRecv 0 (tOf sSum).id c (1 - c.rank) = (sSumRecv.part 0).recv) && decide (sSum.matchRecv 0 (tOf sSum).id c (1 - c.rank) = []) &&
          (let S := Shape.of c.tile; decide ([S.space, S.addr, S.fmt, S.layout, S.ndim] ++ S.exts ++ S.strides.map Int.toNat = [1, 0x100, 0x10, 0, 1, 1, 1]))
      | _ => false) = true ∧
    (opOf sSum h).since + 1000000 * ((sSum.cfgW 2 0 0x03C).toNat % 65536) ≤ 2 ^ 40 := by
  simp only [State.Sound, here_iff, team_iff]; decide +kernel

/-! ### Witnesses: what copies leave -/

theorem tab_mem {α : Type} {l : Tab α} {k : Nat} {x : α} (h : Tab.get l k = some x) : (k, x) ∈ l := by
  induction l with
  | nil => simp [Tab.get] at h
  | cons e r ih =>
    obtain ⟨a, y⟩ := e
    simp only [Tab.get] at h
    split at h
    · rename_i e
      simp_all
    · split at h
      · cases h
      · exact List.mem_cons_of_mem _ (ih h)

/-- An operation stands where it completes, from the one test. -/
theorem completes_of {s : State} {h : Nat} (e : movingOk s h = true) : s.Completes h 0 (opOf s h) (tOf s) (gOf s) := by
  simp only [movingOk, Bool.and_eq_true, decide_eq_true_eq, List.all_eq_true, Bool.not_eq_true'] at e
  obtain ⟨⟨⟨⟨⟨⟨⟨⟨⟨⟨⟨⟨⟨⟨⟨⟨a1, a2⟩, a3⟩, a4⟩, a5⟩, a6⟩, a7⟩, a8⟩, a9⟩, a10⟩, a11⟩, a12⟩, a13⟩, a14⟩, a15⟩, a16⟩, a17⟩ := e
  have ho : s.ops.get h = some (opOf s h) := by
    simp only [opOf]; cases hh : s.ops.get h <;> simp_all
  exact ⟨⟨a1, a3, a2⟩, a4, a16, fun k g hg => a17 _ (tab_mem hg), ho, a6, by rw [a7]; exact (team_iff s).2 a8, a9, a10, a11, by decide, a12, by rw [a7]; exact (here_iff s).2 a13, a14, a15⟩

/-- A row of n elements. -/
def rowOk (b : ShapeBits) (sp f a n : Nat) : Bool :=
  let x := Shape.of b
  decide (x.space = sp) && decide (x.fmt = f) && decide (x.addr = a) && decide (x.ndim = 1) && decide (x.exts = [n]) && decide (x.strides = [1]) && decide (x.layout = 0) && decide (x.cbtag = 0)

theorem rowOk_sound {b : ShapeBits} {sp f a n : Nat} (h : rowOk b sp f a n = true) : IsRow b sp f a n := by
  simp only [rowOk, Bool.and_eq_true, decide_eq_true_eq] at h
  obtain ⟨⟨⟨⟨⟨⟨⟨a1, a2⟩, a3⟩, a4⟩, a5⟩, a6⟩, a7⟩, a8⟩ := h
  exact ⟨a1, a2, a3, a4, a5, a6, a7, a8⟩

/-- The copy of form f that moves: 8 elements from 0x100 or 0x10100 to 0x10200 or 0x300, device 5 the peer, its link up. -/
def sMove (f : CopyForm) (sp sf dp df : Nat) : State :=
  let s := { (withSh 0 0).setCfgW 4 0 (8 * 5 + 4) 1 with nalmond := [(0, ⟨false, false, 0, true, 0⟩)] }
  let src := shape sp (if sp = 0 then 0x10100 else 0x100) sf 0 [8] [1]
  let dst := shape dp (if dp = 0 then 0x10200 else 0x300) df 0 [8] [1]
  let s := if f = .bkcommit then { sCommit with grids := [(0, { State.bootGrid with drain := some 9, awBase := 0x1000, awSize := 0x10000 })] } else s
  let s := if f = .cpm then s.putTeam 0 { tOf s with mcset := some 0 } else s
  let s := staged .moving (nx (exec (.cpl 4 5 0 31) (setG (fun g => { g with sh := Cells.set (Cells.set [] 4 (shape 1 0x300 0 0 [8] [1])) 5 (shape 0 0x10100 0 0 [8] [1]) }) s)))
  { s with ops := s.ops.map fun e => (e.1, { e.2 with kind := match e.2.kind with
    | .copy c [sl] => .copy { c with form := f, peer := 5 } [{ sl with dst := dst, src := src }]
    | k => k }) }

def forms : List (CopyForm × Nat × Nat × Nat × Nat) :=
  [(.cpl, 0, 0, 1, 0), (.cps, 1, 0, 0, 0), (.cpx, 1, 0x10, 2, 0x10), (.cpx, 2, 0, 1, 0), (.cprPut, 1, 0, 0, 0), (.cprGet, 0, 0, 1, 0), (.cpa 0 false, 1, 0x10, 0, 0x10),
   (.cpa 1 false, 1, 0x11, 0, 0x11), (.cpa 1 false, 1, 0x10, 0, 0x10), (.cpa 1 true, 1, 0, 0, 0), (.cpa 2 false, 1, 0, 0, 0), (.cpst, 1, 0, 0, 1), (.cpst, 1, 0, 0, 3),
   (.bkcommit, 1, 0, 0, 0), (.cpm, 0, 0, 1, 0)]

/-- The copy stands where it completes, its rows laid out (in the annex inside its 64 MiB), its peer's link up and the page of its device side translated. -/
def moveOk (p : CopyForm × Nat × Nat × Nat × Nat) : Bool :=
  let s := sMove p.1 p.2.1 p.2.2.1 p.2.2.2.1 p.2.2.2.2
  let h := sF.handles
  movingOk s h && s.dev.wf && s.annex.wf && s.peers.wf && Tab.wf s.teams && decide (s.peerBad = []) && decide ((s.window 0).1 + 0x10300 ≤ 2 ^ 26) && (!p.1.toPeer || s.peerUp (s.partOf (opOf s h).core) 5) &&
    (match sliceOf s h with
      | some (c, sl) => c.form == p.1 && c.bsl == 31 && c.inc == 0 && c.ent == 0 && c.peer == 5 && sl.origin == [0, 0, 0, 0, 0] &&
        rowOk sl.src p.2.1 p.2.2.1 (if p.2.1 = 0 then 0x10100 else 0x100) 8 && rowOk sl.dst p.2.2.2.1 p.2.2.2.2 (if p.2.2.2.1 = 0 then 0x10200 else 0x300) 8 &&
        decide (0 < (Shape.of sl.dst).width) && decide ((Shape.of sl.dst).width % 8 = 0)
      | none => false) &&
    (([.read, .write] : List Kind).all fun k =>
      paOf (s.translate (.op h) (some (opOf s h).core) (s.partOf (opOf s h).core) (((s.gridOf 0).map (·.asid)).getD 0) k 0x10000) == some 0x10000) &&
    ((if p.1 = .cpm then s.mcTeams 0 == [0] else true) && decide (s.oq = []))

theorem witness_CopiesArePerformed_forms : forms.all moveOk = true := by decide +kernel

/-- A gather that moves: lane l's row at 0x10100 + 64 l. -/
def sGatherMove : State :=
  let s := withSh (shape 1 0x300 0 0 [8, 96] [1, 8]) (shape 0 0x10000 0 0 [8] [1])
  staged .moving (nx (exec (.cpg 4 5 60 31) (setG (fun g => { g with v := rows [(10, fun l => BitVec.ofNat 32 (0x10100 + 64 * l))] }) s)))

/-- A codebook load that moves, of entries of 40 bytes. -/
def sBook : State :=
  let s := withSh 0 (shape 1 0x100 0x20 0 [40, 256] [1, 44])
  staged .moving (nx (exec (.cpcb 5 0 31 3) s))

theorem witness_CopiesArePerformed_gather :
    (let s := sGatherMove
     let h := sF.handles
     movingOk s h = true ∧ s.peerBad = [] ∧ (match sliceOf s h with
       | some (c, sl) => c.form == .cpg && c.bsl == 31 && c.inc == 0 && sl.lanes.getLsbD 0 && sl.lanes.getLsbD 89 &&
         (let D := Shape.of sl.dst; [D.space, D.addr, D.fmt, D.layout, D.ndim] ++ D.exts ++ D.strides.map Int.toNat == [1, 0x300, 0, 0, 2, 8, 96, 1, 8]) &&
         (let S := Shape.of sl.src; [S.space, S.fmt, S.layout, S.ndim] ++ S.exts ++ S.strides.map Int.toNat ++ [S.cbtag] == [0, 0, 0, 1, 8, 1, 0]) &&
         (List.range 96).all fun l => !sl.lanes.getLsbD l || (sl.addrs.getD l 0 == 0x10100 + 64 * l && decide ((0x10100 + 64 * l) % 65536 + 4 * 8 ≤ 65536))
       | none => false) = true ∧
       paOf (s.translate (.op h) (some (opOf s h).core) (s.partOf (opOf s h).core) (((s.gridOf 0).map (·.asid)).getD 0) .read 0x10000) = some 0x10000) ∧
    (let s := sBook
     let h := sF.handles
     movingOk s h = true ∧ (opOf s h).kind = .cpcb 3 (shape 1 0x100 0x20 0 [40, 256] [1, 44]) 31 ∧ (tOf s).cb.wf = true ∧
       (let S := Shape.of (shape 1 0x100 0x20 0 [40, 256] [1, 44]); S.space = 1 ∧ S.addr = 0x100 ∧ S.fmt = 0x20 ∧ S.layout = 0 ∧ S.ndim = 2 ∧ S.exts = [40, 256] ∧ S.strides = [1, 44])) := by
  decide +kernel

/-- Sums that stay below the largest and that pass it; magnitudes that enter the maximum and that do not. -/
theorem witness_CopiesArePerformed_statistics : (f32 0x3F800000).num < (⟨3, 2⟩ : Q).val ∧ ¬(f32 0x40000000).num < (⟨3, 2⟩ : Q).val ∧ (0x3F800000 : Word).toNat ≤ 0x7F800000 ∧
    (0x7F800000 : Word).toNat = 0x7F800000 := by
  simp only [FVal.num, Q.val]; decide +kernel

/-! ### Witnesses: collectives after their handshake -/

/-- The other member's descriptor held, its link up or down; a descriptor of another shape. -/
def sGot (up : Bool) : State :=
  let s := staged .moving (sSum.setCfgW 4 0 (8 * 5 + 4) 1)
  { s with nalmond := [(0, ⟨false, false, 0, up, 0⟩)], ops := s.ops.map fun e => (e.1, { e.2 with kind := match e.2.kind with
    | .coll c => .coll { c with got := (sSumRecv.part 0).recv }
    | k => k }) }

theorem witness_CollectivesComplete_exchange :
    (([true, false] : List Bool).all fun up => let s := sGot up
      let h := sF.handles
      movingOk s h && decide (s.partOf (opOf s h).core = 0) && (match (opOf s h).kind with
        | .coll c => decide (c.desc = ⟨0, 0, false, 0x10, [1], 9, 0⟩) && decide (c.size = 2) && decide (c.rank < 2) && decide (c.bsl = 31) &&
          (match c.got with
            | [v] => decide (v.rank = 1 - c.rank) && decide (v.tile = [77])
            | _ => false) &&
          (let S := Shape.of c.tile; decide ([S.space, S.addr, S.fmt, S.layout, S.ndim] ++ S.exts ++ S.strides.map Int.toNat = [1, 0x100, 0x10, 0, 1, 1, 1])) &&
          s.peerUp 0 (s.setDev 0 c.idx (1 - c.rank)) == up
        | _ => false)) = true ∧
    ((sSumRecv.part 0).recv.map fun v => decide ({ v with desc := { v.desc with fmt := 0 } } = v)) = [false] := by
  decide +kernel

/-! ### Witnesses: arrays, Filler, lifecycle -/

/-- Four compute groups, one a quadrant, and a tile of A of one row of 256 FP8 elements in register 4. -/
def sH : State :=
  let g := { gOf sF with sh := Cells.set (Cells.set [] 4 (shape 1 0x200 3 13 [256, 1] [1, 256])) 6 (shape 1 0x4000 0 0 [1, 1] [1, 1]), clip := 0x7F800000 }
  let s := { sF with groups := (List.range 4).map fun i => (i, { g with idx := i, role := i, slot := 8 * i }) }
  s.putTeam 0 { tOf sF with ngrp := 4 }

def iMxa : Instr := .mxa false true false false false 4 0 0 0 none

theorem witness_MatrixWordsComplete_mxa :
    issues sH = true ∧ sH.team 0 = some (tOf sH) ∧ sH.mxaCheck 0 (tOf sH) (gOf sH) 0 true false false ((gOf sH).sh.get 4) 0 0 0 0 = none ∧
    (∀ c ∈ Shape.box (Shape.of ((gOf sH).sh.get 4)).exts, ∀ q ∈ (Shape.of ((gOf sH).sh.get 4)).spans c, 0 ≤ q.1 ∧ q.1 + q.2 ≤ (tOf sH).tmSize) ∧
    (sH.core 0).mxq.length < 8 ∧ sH.accBusy 0 0 0 = false ∧
    (sH.mxaCheck 0 (tOf sH) (gOf sH) 0 true false false 0 0 0 0 0).isSome = true := by
  simp only [team_iff]; decide +kernel

/-- After the mxa: its accumulator is held, its operation open. -/
def sMx : State := nx (exec iMxa sH)

theorem witness_MatrixWordsComplete :
    issues sMx = true ∧ sMx.team 0 = some (tOf sMx) ∧ (gOf sMx).s.wf = true ∧
    (let D := Shape.of ((gOf sMx).sh.get 6)
     Shape.ok false ((gOf sMx).sh.get 6) = true ∧ D.fmt = fmtCode (gOf sMx) ∧ D.ndim = 2 ∧ D.exts.getD 1 0 ≤ 256 ∧ D.exts.headD 0 ≤ 192 ∧ D.space ≠ 0 ∧ fmtSmode (gOf sMx) ≠ 1 ∧
       (sMx.ownHold 0 0 0).map (·.residue) = some false ∧ (∀ c ∈ Shape.box D.exts, ∀ q ∈ D.spans c, 0 ≤ q.1 ∧ q.1 + q.2 ≤ sMx.limitOf 0 D.space)) ∧ (sMx.core 0).mxq.length < 8 ∧
    ((gOf sMx).counter .mx < 255 ∧ (∃ h ∈ (gOf sMx).opens, sMx.ops.get h ≠ none) ∧
      ∀ e ∈ sMx.ops, (match e.2.kind with | .batch _ _ _ => decide (e.2.tid = 0) && decide (e.2.idx = 0) | _ => false) = false) := by
  simp only [team_iff]; decide +kernel

/-- Batches: a number of the future, one that is over, one that is open. -/
def sBatch (v : Word) : State := sregs [(20, v)] (setG (fun g => { g with batchCnt := 7 }) sMx)
def sFence : State := nx (exec (.mxfence 20) sMx)

theorem witness_MatrixWordsComplete_mxwait :
    issues (sBatch 6) = true ∧ ((7 : Word) - (sBatch 7).sreg 20).toNat = 0 ∧ 2 ^ 31 ≤ ((7 : Word) - (sBatch 8).sreg 20).toNat ∧
    (0 < ((7 : Word) - (sBatch 6).sreg 20).toNat ∧ ((7 : Word) - (sBatch 0x80000008).sreg 20).toNat < 2 ^ 31 ∧
      ∀ e ∈ (sBatch 6).ops, (match e.2.kind with | .batch _ _ _ => true | _ => false) = false) ∧
    (issues sFence = true ∧ 0 < ((gOf sFence).batchCnt - sFence.sreg 20).toNat ∧ ((gOf sFence).batchCnt - sFence.sreg 20).toNat < 2 ^ 31 ∧
      ∃ e ∈ sFence.ops, (match e.2.kind with | .batch b _ _ => decide (b = sFence.sreg 20) && decide (e.2.tid = 0) && decide (e.2.idx = 0) | _ => false) = true) := by
  decide +kernel

/-- Eight compute groups of a paired team, four on each core, with a tile of A of `code` in register 4 and a destination in register 6. -/
def sH2 (code : Nat) (fmt : Word) (dst : ShapeBits) : State :=
  let g := { gOf sH with sh := Cells.set (Cells.set [] 4 (shape 1 0x200 code 13 [128, 1] [1, 128])) 6 dst, fmt := fmt }
  let s := { sH with groups := (List.range 8).map fun i => (i, { g with idx := i, role := i % 4, core := i / 4, slot := 8 * (i % 4) }) }
  s.putTeam 0 { tOf sH with ngrp := 8, paired := true }

/-- The word has issued and heads its queues; its operation has run for n clocks. -/
def heads (n : Nat) (i : Instr) (s : State) : State :=
  let u := nx (exec i s)
  let clean (k : Core) : Core := { k with mxq := k.mxq.filter fun h => decide (s.handles ≤ h), mxDone := n }
  { (u.mapCore 0 clean).mapCore 1 clean with cur := none }

def arrOk (s : State) (h c : Nat) : Bool :=
  let o := opOf s h
  match o.kind with
  | .mxa m =>
    let cores := if m.pair then [m.core, m.core + 1] else [m.core]
    (s.ops.get h).isSome && decide (o.tid = 0) && (s.team 0).isSome && Tab.wf s.ops && decide (s.cellErrs = []) && (s.groupsOf 0).all (fun g => decide (g.badV = [])) &&
      cores.contains c && cores.all fun k => decide ((s.core k).mxq.head? = some h) && decide (256 ≤ (s.core k).mxDone) && (s.core k).a0.wf && (s.core k).a1.wf &&
        decide ((s.core k).badA = []) && !s.mxPending 0 k m
  | _ => false

/-- The operation at the head of the queue, its 256 clocks over: float, residue, on both cores, sparse on both cores; and one whose clocks are not over. -/
theorem witness_MatrixOperationsArePerformed :
    let ops := [(heads 256 iMxa sH, 0), (heads 256 (.mxa false true false false false 4 5 0 0 none) (sH2 0x14 0 0), 0),
      (heads 256 (.mxa true true true false false 4 11 1 0 none) (sH2 1 0 0), 1), (heads 256 (.mxa false true true true true 4 12 0 0 none) (sH2 2 0 0), 1)]
    (∀ p ∈ ops, p.1.Sound) ∧ (ops.all fun p => arrOk p.1 sH.handles p.2) = true ∧ ((heads 255 iMxa sH).core 0).mxDone < 256 := by
  simp only [State.Sound]; decide +kernel

/-- A group of 96 live lanes with none deferred; a row and a column of each length and mode of the pairings. -/
theorem witness_MatrixOperationsArePerformed_elements :
    ((gOf sH).pend = [] ∧ ∀ q, (gOf sH).deferred q = false) ∧ (List.replicate 512 (0 : Nat)).length = 512 ∧
    (let m : Mxa := ⟨0, true, false, false, 0, 0, 5, 0, 0, 0, 0⟩
     m.pc = 5 ∧ ([(0, 3)] : List (Nat × Nat)) ≠ [] ∧ [7].length = [((0 : Nat), 3)].length ∧ (-4294966272 : Int) ≤ 4294966271) ∧
    (let r : Residue := ⟨2046, 2047, 2048⟩
     r.x1 < 2047 ∧ r.x2 < 2048 ∧ r.x3 < 2049) := by
  have h : (gOf sH).tags = [] := by decide +kernel
  have d : ∀ q, (gOf sH).deferred q = false := fun q => by simp [Group.deferred, h, Cells.get]
  exact ⟨⟨by decide +kernel, d⟩, List.length_replicate .., by decide, by decide⟩

theorem witness_MatrixOperationsArePerformed_grant :
    let s := { sH.mapCore 0 (fun c => { c with accWait := [(0, (gOf sH).spc, iMxa)] }) with cur := none }
    (s.core 0).accWait = [(0, (gOf sH).spc, iMxa)] ∧ s.groups.get 0 = some (gOf s) ∧ (gOf s).ended = false ∧ (gOf s).spc = (gOf sH).spc ∧ s.team (0 / 64) = some (tOf s) ∧
      (tOf s).halted = false ∧ ∀ j ∈ State.accWants iMxa, s.accTaken 0 0 j = false := by
  simp only [Nat.zero_div, team_iff]; decide +kernel

/-- An accumulator is held, and a write-back of it heads the queues. -/
def heldWb (mx wb : Instr) (s : State) : State :=
  let u := nx (exec mx s)
  heads 0 wb { u with cur := some (.group 0 0) }

def wbOk (s : State) (h : Nat) : Bool :=
  let o := opOf s h
  let g := gOf s
  match o.kind with
  | .mxwb w =>
    let cores := if w.pair then [w.core, w.core + 1] else [w.core]
    let D := Shape.of w.dst
    let loc (a : Nat) : Loc := if D.space = 1 then .team o.tid a else .annex (o.core / 12) ((s.window o.tid).1 + a)
    let real : Loc → Bool
      | .annex _ o => decide (o < 2 ^ 26)
      | _ => true
    (s.ops.get h).isSome && Tab.wf s.ops && Tab.wf s.groups && s.annex.wf && (s.team 0).isSome && !(tOf s).killing && decide ((tOf s).asms = []) && (tOf s).tm.wf &&
      (s.group 0 0).isSome && decide (g.idx = 0) && decide (o.idx = 0) && !g.ended && decide (g.wait = none) && decide (w.bsl = 31) && decide (o.tid = 0) &&
      (cores.all fun k => decide ((s.core k).mxq.head? = some h) && decide ((s.core k).badA = [])) && Shape.ok false w.dst && decide (1 ≤ D.space) && decide (D.ndim = 2) &&
      decide (D.exts.headD 0 ≤ if w.pair then 384 else 192) && decide (D.exts.getD 1 0 ≤ 256) && decide (D.exts.length = 2) &&
      ((Shape.box D.exts).all fun c => (Shape.box D.exts).all fun d => D.offset c != D.offset d || c == d) &&
      ((Shape.box D.exts).all fun c => (D.spans c).all fun q => decide (0 ≤ q.1) && (List.range q.2).all fun b => real (loc (q.1.toNat + b))) &&
      (if w.fmt.toNat / 2 ^ 8 % 4 = 2 then D.fmt == 6 || D.fmt == 7 else (floatFmt D.fmt).isSome || [0x14, 0x16].contains D.fmt) &&
      s.ops.all fun e => match e.2.kind with
        | .batch _ l _ => !l.contains h
        | _ => true
  | _ => false

/-- Write-backs at the head of their queues: one FP32 element of a0, an s8 tile of a residue accumulator, a bs8 block of a1, and the columns of both cores. -/
theorem witness_MatrixOperationsArePerformed_writeBack :
    let ws := [heldWb iMxa (.mxwb 6 0 31 false false false) sH,
      heldWb (.mxa false true false false false 4 5 0 0 none) (.mxwb 6 0 31 false true false) (sH2 0x14 0x14 (shape 1 0x4000 0x14 0 [3, 2] [1, 16])),
      heldWb (.mxa true true false false false 4 11 1 0 none) (.mxwb 6 0 31 false false true) (sH2 1 0x206 (shape 1 0x4000 6 0 [32, 2] [1, 32])),
      heldWb (.mxa false true true false false 4 11 1 0 none) (.mxwb 6 0 31 true false false) (sH2 1 0x400 (shape 1 0x4000 0 0 [193, 1] [1, 193]))]
    (∀ s ∈ ws, s.Sound) ∧ (ws.all fun s => wbOk s (sH.handles + 1)) = true := by
  simp only [State.Sound]; decide +kernel

/-- A triple that may be filed: A, G and T in device memory, the record at 0x10000 in s20. -/
def sI : State :=
  setG (fun g => { g with sh := Cells.set (Cells.set (Cells.set [] 1 (shape 0 0x11000 1 13 [8, 8] [1, 8])) 2 (shape 0 0x11000 1 13 [8, 8] [1, 8])) 3 (shape 0 0x12000 0 0 [8, 8] [1, 8]) })
    (sregs [(20, 0x10000), (21, 0)] sI0)

def aFiling : Filing :=
  { a := (gOf sI).sh.get 1, g := (gOf sI).sh.get 2, t := (gOf sI).sh.get 3, recAddr := 0x10000, record := recBits 0, last := true, team := 0, idx := 0, asid := 0,
    awBase := (sI.window 0).1, awSize := (sI.window 0).2, op := sI.handles, counted := false }

/-- The Filler full: one entry, of another triple. -/
def sIFull : State := let s := sI.setCfgW 2 0 0x040 1; s.putPart 0 { s.part 0 with entries := [⟨7, { aFiling with t := 5 }, .filed, 0⟩], next := 8 }

theorem witness_FillerAndStatisticsWordsComplete :
    (issues sI = true ∧ sI.team 0 = some (tOf sI) ∧ (gOf sI).idx = 0 ∧ (tOf sI).killing = false ∧ (tOf sI).asms = [] ∧ (gOf sI).ended = false ∧ (gOf sI).wait = none ∧ (gOf sI).s.wf = true ∧
      Tab.wf sI.groups = true ∧ (match sI.fileCheck 0 0 (gOf sI) aFiling.a aFiling.g aFiling.t 20 with | .ok rc u => decide (rc = recBits 0) && decide (u = sI) | _ => false) = true ∧ sI.partOf (gOf sI).core = 0 ∧
      (sI.part 0).parked = [] ∧ (gOf sI).reissue = none ∧ sI.fitsWith 0 (sI.part 0).entries aFiling = true) ∧
    (issues sIFull = true ∧ (sIFull.part 0).parked = [] ∧ (gOf sIFull).reissue = none ∧ sIFull.fitsWith 0 (sIFull.part 0).entries aFiling = false ∧ (gOf sIFull).hnd = 0 ∧
      (∀ c ∈ [Cond.arith, .profile, .filler, .deferral], (gOf sIFull).canEnter c = false) ∧
      (match sIFull.fileCheck 0 0 (gOf sIFull) aFiling.a aFiling.g aFiling.t 20 with | .ok rc u => decide (rc = recBits 0) && decide (u = sIFull) | _ => false) = true) := by
  simp only [team_iff]; decide +kernel

/-- Fences that cover an entry and that cover none; the statistics registers at the last place where nine fit. -/
theorem witness_FillerAndStatisticsWordsComplete_words :
    (11 : BitVec 11).toNat < 12 ∧ (30 : SReg) ≠ 0 ∧ (30 : SReg).toNat % 2 = 0 ∧ (116 : SReg).toNat ≤ 116 ∧ ((sregs [(12, 255)] sIFull).sreg 12).toNat ≤ 255 ∧ (gOf sIFull).counter .cp < 255 ∧
    (∀ e ∈ (sI.part 0).entries, accLe e.acc (accLast (sI.part 0).next) = false) ∧
    (∃ e ∈ (sIFull.part 0).entries, some e.f.handle = some ((sregs [(30, 5)] sIFull).spair 30).toNat ∧ accLe e.acc (accLast (sIFull.part 0).next) = true) ∧
    (∀ e ∈ (sIFull.part 0).entries, some e.f.handle ≠ some ((sregs [(30, 6)] sIFull).spair 30).toNat) := by
  decide +kernel

def sParked : State := { sI.putPart 0 { sI.part 0 with parked := [{ aFiling with counted := true }] } with cur := none }
def sFiled (st : FState) : State := { (sI.putPart 0 { sI.part 0 with entries := [⟨7, aFiling, st, 0⟩], next := 8 }).setCfgW 2 0 0x12C 7 with cur := none }

theorem witness_FillerEventsComplete :
    Tab.wf sI.groups = true ∧ (sParked.part 0).parked = [{ aFiling with counted := true }] ∧ sParked.fitsWith 0 (sParked.part 0).entries { aFiling with counted := true } = true ∧
    ((sFiled .filed).part 0).entries.find? (fun y => State.eligible ((sFiled .filed).part 0).entries y && (sFiled .filed).released 0 y) = some ⟨7, aFiling, .filed, 0⟩ ∧
    (sFiled .failed).failedEntry 0 = some ⟨7, aFiling, .failed, 0⟩ ∧ (sFiled .filed).recordCodes 0 (recBits 0) true = [] ∧
    Rec.entry (recBits 0) < 2 ^ 57 ∧ Rec.laneBase (recBits 0) < 2 ^ 57 ∧
    hubPa (sFiled .filed) 0 0 .fetch (Rec.entry (recBits 0)) = some 0x10000 ∧ hubPa (sFiled .filed) 0 0 .fetch (Rec.laneBase (recBits 0)) = some 0x11000 ∧
    ((sFiled .filed).part 0).entries ≠ [] ∧ (sI.part 0).entries = [] := by
  decide +kernel

/-- An accepted grid alone in its partition: its team fits. -/
def sAdmit : State :=
  { sPost (recBits 4) with teams := [], groups := [], cores := [], grids := [(sF.handles, { State.bootGrid with record := recBits 4, next := 0 })] }

theorem witness_TeamsStartRetireAndAreSaved :
    let n := sF.handles
    sAdmit.swap = none ∧ (sAdmit.part 0).heads = [] ∧ (sAdmit.grid n).map (fun gr => (gr.drain, gr.handler, decide (gr.record = recBits 4))) = some (none, none, true) ∧
    Tab.wf sAdmit.groups = true ∧ Tab.wf sAdmit.teams = true ∧ (sAdmit.putPart 0 (sAdmit.part 0)).queue 0 = [.fresh n [0]] ∧
    (sAdmit.putPart 0 (sAdmit.part 0)).placeUnit 0 (.fresh n [0]) (fun _ => true) = some [0] ∧ (Spec.of (recBits 4) false).groups[0]? = some ⟨2, 0, 96, 10, 0⟩ := by
  decide +kernel

/-- A grid whose one team has retired, with and without a done word. -/
def sRetired (dn : Nat) : State :=
  { sI0 with cur := none, grids := [(0, { State.bootGrid with record := recBits 4 dn, loc := .annex 0 0x1000, retired := 1 })], teams := [], groups := [] }

theorem witness_TeamsStartRetireAndAreSaved_retire :
    (∀ dn ∈ [0, 0x10100], (sRetired dn).Sound ∧ (sRetired dn).annex.wf = true ∧ (sRetired dn).dev.wf = true ∧ Tab.wf (sRetired dn).grids = true ∧
      ((sRetired dn).grid 0).map (fun gr => (gr.retired, gr.nteams, gr.origins, gr.drain)) = some (1, 1, [], none) ∧ Rec.doneAddr (recBits 4 dn) = dn) ∧
    hubPa (sRetired 0x10100) 0 0 .write 0x10100 = some 0x10100 := by
  simp only [State.Sound]; decide +kernel

/-! ### Witnesses: the Curator -/

/-- Registers of the Curator of core 0. -/
def cregs (l : List (Nat × Word)) (s : State) : State := s.mapCore 0 fun c => { c with s := l.foldl (fun c e => Cells.set c e.1 e.2) c.s }

/-- The Curator of core 0 issues, beside the team. -/
def sJ : State := { sI0 with cur := some (.curator 0) }

def aRec : FaultRec :=
  { faddr := 5, lanes := 8, aux := 9, pc := 0x10000, lword := 0xFFFFFFFF, op := 0, code := .address, glid := 0, team := 0, grp := 0, exited := false, impr := false, lane := true, taken := false,
    entry := 0, seq := 0, clk := 0, tid := 0, service := false }

def withRec (r : FaultRec) (s : State) : State := s.mapCore 0 fun c => { c with fq := [(4, r)] }
def haltT (s : State) : State := s.mapTeam 0 fun x => { x with halted := true }

/-- Traps enabled, with a record in the queue, with a machine check; eret outside a trap. -/
def sTrap (mc : Word) (r : Bool) : State := let s := (sJ.setCfgW 0 0 0x010 1).setCfgW 0 0 0x030 mc; if r then withRec aRec s else s

theorem witness_CuratorTrapAndReturn :
    (∀ p ∈ [(true, true), (true, false), (false, true)],
      let s := sTrap (if p.2 then 3 else 0) p.1
      Cells.wf s.cfg = true ∧ (s.core 0).stopped = false ∧ (s.core 0).waiting = false ∧ (s.cfgW 0 0 0x010).getLsbD 0 = true ∧ (s.cfgW 0 0 0x010).getLsbD 1 = false ∧
        (State.fqcnt (s.core 0) != 0 || s.cfgW 0 0 0x030 != 0) = true) ∧
    (sJ.Curates 0 ∧ (sJ.cfgW 0 0 0x010).getLsbD 1 = false) ∧ (sJ.setCfgW 0 0 0x010 7).Curates 0 ∧ Cells.wf (sJ.setCfgW 0 0 0x010 7).cfg = true ∧
    ((sJ.setCfgW 0 0 0x010 7).cfgW 0 0 0x010).getLsbD 1 = true := by
  simp only [State.Curates]; decide +kernel

theorem witness_PrivilegedAndIllegalWordsFault : sI0.Issuer 0 0 (gOf sI0) ∧ sJ.Curates 0 :=
  ⟨(issues_sound (by decide +kernel)).1, by simp only [State.Curates]; decide +kernel⟩

/-- Words of the core (every one that may be written), of another core, of the device; an address outside; the window of a halted team; the invalidations at their ends. -/
theorem witness_CuratorWordsComplete : sJ.Curates 0 ∧ Cells.wf sJ.cfg = true ∧
    (([0x00000010, 0x00000030, 0x05F00010, 0x20000040, 0x30000500] : List Word).all fun a => match sJ.cfgAddr 0 a with
      | some (sp, i, off) => (sJ.cfgGet sp i off).isSome && (sp != 0 || sJ.corePresent i)
      | none => false) = true ∧
    (([0x000, 0x004, 0x008, 0x00C, 0x010, 0x018, 0x020, 0x024, 0x028, 0x02C, 0x030] : List Nat).all fun n =>
      decide (sJ.cfgAddr 0 (BitVec.ofNat 32 n) = some (0, 0, n)) && (sJ.cfgGet 0 0 n).isSome) = true ∧ sJ.corePresent 0 = true ∧
    ((0x40000000 : Word).toNat / 2 ^ 28 % 8 ≥ 4) ∧ (6 : SReg).toNat % 2 = 0 ∧ (0xFFF1 : Word).toNat % 4 ≠ 3 ∧ (0xFFF1 : Word).toNat < 2 ^ 16 ∧
    (([(0x80000000, false), (0x00000000, false), (0x81000080, true)] : List (Word × Bool)).all fun p => match (haltT sJ).cwinAt 0 p.1 with
      | some (_, _, tm, off) => State.cwinReadOnly tm off == p.2 || p.2
      | none => false) = true ∧
    (haltT sJ).cwinAt 0 0x00F00000 = none ∧ (haltT sJ).Sound := by
  simp only [State.Curates, State.Sound]; decide +kernel

/-- Team entry 0 holds the team, entry 3 none; a record untaken. -/
def sFailed : State :=
  let s := nx (exec (.cpl 4 5 0 31) (setG (fun g => { g with sh := Cells.set (Cells.set [] 4 (shape 1 0x10000 0 0 [1] [1])) 5 (shape 0 0x10000 0 0 [1] [1]) }) sI0))
  { withRec { aRec with op := sI0.handles, lane := false } (staged .failed s) with cur := some (.curator 0) }

theorem witness_GroupControlCompletes :
    (sJ.Curates 0 ∧ ((sJ.atEntry 0 ((cregs [(6, 0)] sJ).sreg 6).toNat).map (·.1) = some 0) ∧ sJ.team 0 = some (tOf sJ) ∧ Tab.wf sJ.teams = true ∧ sJ.untaken 0 = false ∧
      Tab.wf sJ.groups = true ∧ (∀ e ∈ sJ.groups, e.2.idx = e.1 % 64) ∧ (withRec aRec sJ).untaken 0 = true ∧ (sJ.atEntry 0 3).isNone = true ∧
      sJ.parts.all (fun e => e.2.evict.isEmpty) = true) ∧
    (sJ.oldestRec 0 = none ∧ sJ.maskedSlots 0 = [] ∧ ((haltT sJ).inSlot 0 0).map (fun e => (e.1, e.2.idx)) = some (0, 0)) := by
  simp only [State.Curates, team_iff]; decide +kernel

/-- A failed copy, whose record may be replayed, cancelled and taken. -/
theorem witness_GroupControlCompletes_record :
    sFailed.Curates 0 ∧ (opOf sFailed sI0.handles).stage = .failed ∧ Tab.wf sFailed.ops = true ∧
    (match sFailed.oldestRec 0 with
      | some (q, r) => decide (r.op = sI0.handles) && decide (r.op ≠ 0) && decide ((sFailed.core 0).fq.get q = some r) && decide (r.tid = 0)
      | none => false) = true ∧
    (sFailed.core 0).fqWait = [] ∧ (tOf sFailed).asms = [] ∧ sFailed.group 0 0 = some (gOf sFailed) ∧ (gOf sFailed).ended = false ∧ (gOf sFailed).wait = none := by
  simp only [State.Curates, here_iff]; decide +kernel

/-- A lane-fault record under the mask, its service code mapped. -/
def sCompact : State := withRec { aRec with lanes := 0x808 } ((sJ.setCfgW 0 0 0x028 0x10).setCfgW 0 0 0x020 0x10000)
def packed : List Origin := State.packLanes ((sCompact.maskedSlots 0).filterMap fun q => ((sCompact.core 0).fq.get q).map fun r => (q, r))

theorem witness_GroupControlCompletes_compact :
    (∀ q ∈ sCompact.maskedSlots 0, ((sCompact.core 0).fq.get q).map (fun r => (r.lane, r.taken, r.service)) = some (true, false, false)) ∧ packed ≠ [] ∧
    (match sCompact.launchService 0 packed with | .ok n _ => decide (n ≠ 0) | _ => false) = true := by
  decide +kernel

/-- A record that waits for a slot; a service grid whose one lane has answered. -/
def sEnq : State := { sJ.mapCore 0 (fun c => { c with fqWait := [aRec] }) with cur := none }
def sVerdict : State :=
  withRec { aRec with service := true }
    { sI0 with cur := none, grids := sI0.grids ++ [(5, { State.bootGrid with handler := some 0, origins := [⟨4, aRec, 3⟩], verdicts := [(0, 1)] })] }

theorem witness_GroupControlCompletes_events :
    (sEnq.core 0).fqWait = [aRec] ∧ State.fqcnt (sEnq.core 0) < 64 ∧ State.fqFree (sEnq.core 0) ≠ [] ∧
    (let f := fun (e : Nat × Grid) => e.2.handler == some 0 && !e.2.origins.isEmpty && State.verdictsIn e.2
     (sVerdict.grids.find? f).map (·.1) = some 5) ∧ (sVerdict.grid 5).map (fun g => (g.origins, g.verdicts)) = some ([⟨4, aRec, 3⟩], [(0, 1)]) ∧
    (sVerdict.core 0).fq.get 4 = some { aRec with service := true } ∧ (sVerdict.core 0).fqWait = [] ∧ aRec.op = 0 ∧ aRec.grp.toNat = 0 ∧ aRec.tid = 0 ∧
    sVerdict.group 0 0 = some (gOf sVerdict) ∧ (gOf sVerdict).idx = 0 ∧ (gOf sVerdict).ended = false ∧ (gOf sVerdict).wait = none ∧ sVerdict.team 0 = some (tOf sVerdict) ∧
    (tOf sVerdict).killing = false ∧ (tOf sVerdict).asms = [] ∧ Tab.wf sVerdict.groups = true := by
  simp only [here_iff, team_iff]; decide +kernel

/-! ### Witnesses: contexts -/

/-- A halted team, a page of 2 MiB at 0x200000 for its image. -/
def bigPage : Tlb := ⟨0, 0x200000, 0x200000, 0x200000, true, true⟩
def sCtx (b : Word) : State := (cregs [(6, 0x200000), (8, b)] { haltT sJ with hubTlb := [bigPage], hubTlb1 := [bigPage] }).mapCore 0 fun c => { c with tlb := [State.bootPage, bigPage] }
def pagesOk (x : State.Pages) : Bool := match x with
  | .ok _ => true
  | _ => false

theorem witness_ContextWordsComplete :
    (sCtx 0).Curates 0 ∧ (6 : SReg).toNat % 2 = 0 ∧ ((sCtx 0).sreg 8).toNat < 16 ∧ ((sCtx 15).sreg 8).toNat < 16 ∧ ((sCtx 0).spair 6).toNat % 4096 = 0 ∧
    ((sCtx 3).atEntry 0 3).isNone = true ∧ ((sCtx 0).atEntry 0 0).map (·.1) = some 0 ∧ (sCtx 0).team 0 = some (tOf (sCtx 0)) ∧ Tab.wf (sCtx 0).teams = true ∧ (tOf (sCtx 0)).core = 0 ∧
    (sCtx 0).untaken 0 = false ∧ (withRec aRec (sCtx 0)).untaken 0 = true ∧ (sCtx 0).setMates 0 = [0] ∧ (tOf (sCtx 0)).halted = true ∧ (sCtx 0).quiet 0 = true ∧
    pagesOk ((sCtx 0).imagePages 0 .write 0x200000 (State.imgUnits (tOf (sCtx 0)) ((sCtx 0).groupsOf 0))) = true ∧
    pagesOk ((sCtx 0).imagePages 0 .read 0x200000 1) = true := by
  simp only [State.Curates, team_iff]; decide +kernel

/-- The team saved, the first page of its image in memory: its header and its grid's record. -/
def sLoad1 : State :=
  let s := sCtx 0
  let x := { tOf s with lrec := State.bootRecord }
  { s with teams := [], groups := [], saved := [⟨0, 0, 0, none, 0, false, 0, x, [gOf s], []⟩],
           dev := cellsAt 0x200000 (bytesOf 8 (1 + 2 ^ 32 * State.imgUnits x [gOf s])) ++ cellsAt 0x200900 (bytesOf 128 State.bootRecord.toNat) }

def locIn (tab : List (Nat × Nat)) (k : Nat) : Loc := Side.dev.loc tab (0x200000 + k)

/-- What the image of s names, as it would be loaded. -/
def imgOf (s : State) : Option Saved := match s.imagePages 0 .read 0x200000 1 with
  | .ok tab => (s.imageTeam 0 (locIn tab)).bind fun y => match s.imagePages 0 .read 0x200000 (State.imgUnits y.team y.groups) with
    | .ok tab' => some (s.withEnded (locIn tab') y)
    | _ => none
  | _ => none

/-- An image of no team; a team that fits; one whose core is not there. -/
theorem witness_ContextWordsComplete_load :
    (pagesOk ((sCtx 0).imagePages 0 .read 0x200000 1) = true ∧ (imgOf (sCtx 0)).isNone = true ∧ sLoad1.Curates 0 ∧ sLoad1.Sound ∧ sLoad1.swapping 0 = false) ∧
    (imgOf sLoad1).map (fun y => (y.tid, y.team.paired)) = some (0, false) ∧ (imgOf sLoad1).map (fun y => sLoad1.savedFits y 0) = some true ∧
    (imgOf (sLoad1.setCfgW 3 0 0x420 0xFFFFFFFE)).map (fun y => (sLoad1.setCfgW 3 0 0x420 0xFFFFFFFE).savedFits y 0) = some false :=
  ⟨by simp only [State.Curates, State.Sound]; decide +kernel, by decide +kernel, by decide +kernel, by decide +kernel⟩

/-- The same team pre-empted: a slot of the area is free. -/
def sPre : State :=
  let s := (({ sCtx 0 with cur := none }.setCfgW 2 0 0x108 0x200000).setCfgW 2 0 0x124 400).setCfgW 2 0 0x120 100
  s.putPart 0 { s.part 0 with evict := [⟨0, [], true, none⟩] }

theorem pages_of {s : State} {p asid : Nat} (who : Req) (l : List (Kind × Nat)) (tab : List (Nat × Nat)) (h : l.all (fun e => (hubPa s p asid e.1 (65536 * e.2)).isSome) = true) :
    ∃ tab', s.pages who none p asid l tab = .ok tab' := by
  induction l generalizing tab with
  | nil => exact ⟨tab, rfl⟩
  | cons e r ih =>
    simp only [List.all_cons, Bool.and_eq_true] at h
    obtain ⟨pa, hpa⟩ := Option.isSome_iff_exists.1 h.1
    obtain ⟨tab', ht⟩ := ih ((e.2, pa) :: tab) h.2
    exact ⟨tab', by simp [State.pages, hubPa_sound hpa, ht]⟩

theorem witness_TeamsStartRetireAndAreSaved_saved :
    sPre.team 0 = some (tOf sPre) ∧ Tab.wf sPre.teams = true ∧ (sPre.parts.find? (fun e => e.2.evict.any fun z => z.tid == 0)).map (·.1) = some 0 ∧
    (sPre.part 0).evict = [⟨0, [], true, none⟩] ∧ sPre.freeSlot 0 = some 0 ∧ sPre.untaken 0 = false ∧ sPre.quiet 0 = true ∧ (tOf sPre).killing = false ∧
    ∃ tab, sPre.slotPages .write 0 0 (State.imgUnits (tOf sPre) (sPre.groupsOf 0)) = .ok tab :=
  ⟨(team_iff _).2 (by decide +kernel), by decide +kernel, by decide +kernel, by decide +kernel, by decide +kernel, by decide +kernel, by decide +kernel, by decide +kernel,
    pages_of _ _ _ (by decide +kernel)⟩

/-- A team that moves off a hot cluster, to core 4. -/
def sMoveOff : State :=
  let s := { sI0 with cur := none }
  (haltT s).putPart 0 { s.part 0 with evict := [⟨0, [], true, some 0⟩] }

theorem witness_TeamsStartRetireAndAreSaved_move :
    sMoveOff.team 0 = some (tOf sMoveOff) ∧ Tab.wf sMoveOff.teams = true ∧ Tab.wf sMoveOff.groups = true ∧
    (sMoveOff.parts.find? (fun e => e.2.evict.any fun z => z.tid == 0)).map (·.1) = some 0 ∧ (sMoveOff.part 0).evict = [⟨0, [], true, some 0⟩] ∧ sMoveOff.untaken 0 = false ∧
    sMoveOff.quiet 0 = true ∧ (tOf sMoveOff).killing = false ∧ (tOf sMoveOff).paired = false ∧ sMoveOff.saved = [] ∧
    (sMoveOff.moveTo ((tOf sMoveOff).core / 12) 0 (sMoveOff.asSaved 0 (tOf sMoveOff))).isSome = true :=
  ⟨(team_iff _).2 (by decide +kernel), by decide +kernel⟩

/-! ### Witnesses: further clauses -/

theorem witness_ScalarResultsWriteTheirRegisters_pairs : curBoot.Curates 0 ∧ (curBoot.core 0).s.wf = true ∧ (0 : SReg).toNat % 2 = 0 ∧ (126 : SReg).toNat % 2 = 0 := by
  simp only [State.Curates]; decide +kernel

/-- A push into the area and one that is not; a pop from the area and one that is not. -/
theorem witness_ReconvergenceWordsComplete_area : (gOf (sDeep 31)).rstack.length < 32 ∧ ¬(gOf (sDeep 95)).rstack.length < 32 ∧ (gOf (sDeep 95)).rdepth < 96 ∧
    32 < (gOf (sDeep 95)).rdepth ∧ (gOf (sDeep 95)).rstack ≠ [] ∧ (gOf (sDeep 31)).rdepth ≤ 32 ∧ (gOf (sDeep 31)).rstack ≠ [] := by decide +kernel

/-- An index between the live lanes and 96, one of 96; a register at the budget; a selection of 16. -/
theorem witness_PredicateMoveWordsComplete_faults :
    (let s := sregs [(7, 95)] (setG (fun g => { g with live := 40 }) sA)
     issues s = true ∧ (gOf s).live ≤ (s.sreg 7).toNat ∧ (s.sreg 7).toNat < 96 ∧ (gOf s).deferred 5 = false ∧ (gOf s).badV = []) ∧
    (let s := sregs [(7, 96)] sA; issues s = true ∧ 96 ≤ (s.sreg 7).toNat ∧ (5 : VReg).toNat < 32 * (gOf s).blocks ∧ 16 ≤ (s.sreg 7).toNat) ∧
    32 * (gOf sA).blocks ≤ (320 : VReg).toNat ∧ (gOf sA).k.wf = true := by decide +kernel

theorem witness_StoreWritesItsBytesOnly_tables : Tab.wf sC.groups = true ∧ Tab.wf sC.teams = true := by decide +kernel

/-- A group parked on a slot whose phase flips with the next arrival, and on one whose phase does not. -/
theorem witness_BarrierSlotWordsComplete_arrival : ∀ k ∈ [1, 2],
    let s := setG (fun g => { g with wait := some (.slot 2 true) }) (sSlot (State.bsWord 3 k true) 0)
    let w := (tOf s).bs.get 2
    s.team 0 = some (tOf s) ∧ (tOf s).bs.wf = true ∧ Tab.wf s.groups = true ∧ (s.groups.all fun e => decide (e.2.idx = e.1 % 64)) = true ∧ s.group 0 0 = some (gOf s) ∧
      (gOf s).wait = some (.slot 2 true) ∧ State.bsExpected w = 3 ∧ State.bsArrived w = k ∧ State.bsPhase w = true := by
  simp only [team_iff, here_iff]; decide +kernel

/-- A group that waits at barrier 0 and has arrived there, so that its grid has; one that has not. -/
theorem witness_GridAndWordWaitsComplete_barrier : ∀ k ∈ [0, 1],
    let s := setG (fun g => { g with wait := some (.gbar 0), gbarN := k }) sCo
    Tab.wf s.groups = true ∧ Tab.wf s.teams = true ∧ s.group 0 0 = some (gOf s) ∧ (gOf s).wait = some (.gbar 0) ∧ (s.team 0).map (·.grid) = some 0 ∧
      s.teams.map (·.1) = [0] ∧ (tOf s).grid = 0 ∧ s.groupsOf 0 = [gOf s] ∧ s.saved = [] ∧ (gOf s).ended = false ∧ (gOf s).gbarN = k := by
  simp only [here_iff]; decide +kernel

theorem witness_LaneFloatWordsComplete_exact :
    (FVal.fin false ⟨1, 2⟩).lt (.fin false ⟨3, 1⟩) = true ∧ (FVal.fin true ⟨0, 1⟩).lt (.fin false ⟨0, 1⟩) = false ∧ (FVal.fin false ⟨0, 1⟩).lt (.fin true ⟨0, 1⟩) = false ∧
    FVal.nan.isNan = true ∧ (FVal.inf true).isNan = false ∧ (0 : Int) ≤ (⟨1, 2⟩ : Q).num ∧ 0 < (⟨1, 2⟩ : Q).den := by decide +kernel

theorem witness_ConversionWordsComplete_numbers : (sFmt 0x403).team 0 = some (tOf (sFmt 0x403)) ∧ (sFmt 3).team 0 = some (tOf (sFmt 3)) ∧
    (gOf (sFmt 0x403)).fmt.getLsbD 10 = true ∧ (gOf (sFmt 3)).fmt.getLsbD 10 = false := by
  simp only [team_iff]; decide +kernel

/-- Values at the ends of each type's range. -/
theorem witness_LaneLoadsComplete_values : 255 < 2 ^ 8 ∧ 127 < 2 ^ (8 - 1) ∧ ¬255 < 2 ^ (8 - 1) ∧ 65535 < 2 ^ 16 ∧ 2 ^ 32 - 1 < 2 ^ 32 ∧ 2 ^ 64 - 1 < 2 ^ (32 * 2) ∧ 2 ^ 128 - 1 < 2 ^ (32 * 4) ∧
    1 < 2 ∧ 3 < 4 := by decide

theorem witness_LaneStoresComplete_values : 0 < 1 ∧ 1 < 2 ∧ 3 < 4 ∧ 7 < 8 ∧ 15 < 16 := by decide

theorem witness_LaneAtomicsComplete_steps : nanWord 0x7FC00000 ∧ nanWord 0xFFFFFFFF ∧ ¬nanWord 0x80000000 ∧ ¬nanWord 0xFF800000 ∧ zeroKey 0x80000000 < zeroKey 0 ∧
    zeroKey 0xC0000000 < zeroKey 0xBF800000 := by
  simp only [nanWord]; decide +kernel

/-- v5 depends on symbol 3, which is resolved, and no other register is deferred; the group waits for a sidecar slot. -/
theorem witness_SymbolWordsComplete_release :
    let s := setG (fun g => { g with wait := some .sidecar }) (sSym .manual (some 0x40400000) 0)
    s.team 0 = some (tOf s) ∧ s.symX 0 3 = some 0x40400000 ∧ Tab.wf s.groups = true ∧ (s.groups.all fun e => decide (e.2.idx = e.1 % 64)) = true ∧ s.group 0 0 = some (gOf s) ∧
      ((gOf s).v.wf && (gOf s).tags.wf && (gOf s).scar.wf) = true ∧ (gOf s).badV = [] ∧ (gOf s).live ≤ 96 ∧ 5 < 32 * (gOf s).blocks ∧ (gOf s).deferred 5 = true ∧ (gOf s).tagSym 5 = 3 ∧
      (gOf s).deferred 6 = false ∧ ∀ q r, (gOf s).deferred q = true → (gOf s).deferred r = true → (gOf s).tagSlot q = (gOf s).tagSlot r → q = r := by
  intro s
  have ht : (gOf s).tags = [(5, 7)] := by decide +kernel
  have h5 : ∀ q, (gOf s).deferred q = true → q = 5 := fun q h => by
    by_contra hq
    simp [Group.deferred, ht, Cells.get, Ne.symm hq] at h
  refine ⟨(team_iff _).2 (by decide +kernel), by decide +kernel, by decide +kernel, by decide +kernel, (here_iff _).2 (by decide +kernel), by decide +kernel, by decide +kernel, by decide +kernel,
    by decide +kernel, by decide +kernel, by decide +kernel, by decide +kernel, fun q r hq hr _ => (h5 q hq).trans (h5 r hr).symm⟩

/-- The conditions of an mxa of team 0 of s: field, register, operand. -/
def mxConds (s : State) (acc : Nat) (z pair sp : Bool) (sb : ShapeBits) (pc vbq xx vm : Nat) : Bool × Bool × Bool :=
  let A := Shape.of sb
  let x := tOf s
  let g := gOf s
  let K := if sp then 2 * (pairing pc).k else (pairing pc).k
  let res : Bool := decide ((pairing pc).mode = .res)
  let scaled : Bool := decide (pc = 4 ∨ pc = 9)
  let cores := if pair then [g.core, g.core + 1] else [g.core]
  let reads : List Nat := (List.range 32).map (32 * vbq + ·) ++ (if scaled then [2 * xx] else []) ++
    (if pc = 9 ∨ (pc = 4 ∧ sp = true) then [2 * xx + 1] else []) ++ if sp then (List.range 8).map (vm + ·) else []
  let other (h : Hold) : Bool := h.residue != res
  let field : Bool := (res && decide (acc = 1)) || !Shape.ok false sb || decide (A.fmt ≠ (pairing pc).fa ∨ A.ndim ≠ 2 ∨ A.exts.getD 1 0 < 1 ∨ 256 < A.exts.getD 1 0 ∨
    A.exts.headD 0 < 1 ∨ K < A.exts.headD 0) || A.zorder == scaled || (scaled && decide (A.strides.headD 0 ≠ 1))
  let reg : Bool := decide (10 ≤ vbq) || cores.any fun c => (s.holders 0 c).any fun h => reads.any fun r => decide (32 * h.blocks ≤ r)
  let operand : Bool := (pair && !(x.paired && decide (g.core = x.core))) || (cores.any fun c => decide ((s.holders 0 c).length < 4)) || decide (A.space ≠ 1) ||
    cores.any fun c => if z then (if res then [0, 1] else [acc]).any fun j => ((s.ownHold 0 c j).map other).getD false else ((s.ownHold 0 c acc).map other).getD true
  (field, reg, operand)

/-- A shape of nothing; a register of B beyond the budget; `.pair` on a solo team, and no accumulator held without `.z`; nothing wrong. -/
theorem witness_MatrixWordsComplete_checks : let sb := (gOf sH).sh.get 4
    (mxConds sH 0 true false false 0 0 0 0 0).1 = true ∧ mxConds sH 0 true false false sb 0 10 0 0 = (false, true, false) ∧ mxConds sH 0 true true false sb 0 0 0 0 = (false, false, true) ∧
    mxConds sH 0 false false false sb 0 0 0 0 = (false, false, true) ∧ mxConds sH 0 true false false sb 0 0 0 0 = (false, false, false) := by decide +kernel

/-- The word w stands where the group of team 0 fetches next, and is no instruction. -/
def Malformed (w : Word) : Prop :=
  let s := State.reset.withGroup false (bytesOfNat 4 w.toNat)
  let s1 := { s with agenda := [], cur := some (.group 0 0) }
  let s2 := s1.putGroup 0 0 { gOf s with moved := false }
  s.agenda = [.issue (.group 0 0)] ∧ s.group 0 0 = some (gOf s) ∧ s.Sound ∧ s1.mayIssue 0 0 (gOf s) = true ∧ (gOf s).run.n = 0 ∧ (gOf s).spc.toNat < 2 ^ 57 ∧
    paOf (s2.translateNow 0 0 .fetch (gOf s).spc.toNat) = some 0x10000 ∧ s2.wordAt (.dev 0x10000) = w ∧ 0x76 ≤ w.toNat / 2 ^ 25 ∧ w.toNat / 2 ^ 25 ≤ 0x7B ∧
    (match decodeScalar w none with
      | .error _ => true
      | _ => false) = true

theorem malformed_of {w : Word} (h : (let s := State.reset.withGroup false (bytesOfNat 4 w.toNat)
    let s1 := { s with agenda := [], cur := some (.group 0 0) }
    let s2 := s1.putGroup 0 0 { gOf s with moved := false }
    decide (s.agenda = [.issue (.group 0 0)]) && decide (s.badRows = [] ∧ s.mfailed = [] ∧ s.symErrs = []) && (s.group 0 0).isSome && s1.mayIssue 0 0 (gOf s) &&
      decide ((gOf s).run.n = 0 ∧ (gOf s).spc.toNat < 2 ^ 57) && decide (paOf (s2.translateNow 0 0 .fetch (gOf s).spc.toNat) = some 0x10000) &&
      decide (s2.wordAt (.dev 0x10000) = w) && decide (0x76 ≤ w.toNat / 2 ^ 25 ∧ w.toNat / 2 ^ 25 ≤ 0x7B) && match decodeScalar w none with
        | .error _ => true
        | _ => false) = true) : Malformed w := by
  simp only [Bool.and_eq_true, decide_eq_true_eq] at h
  obtain ⟨⟨⟨⟨⟨⟨⟨⟨h1, h2⟩, h3⟩, h4⟩, h5⟩, h6⟩, h7⟩, h8⟩, h9⟩ := h
  exact ⟨h1, (here_iff _).2 h3, h2, h4, h5.1, h5.2, h6, h7, h8.1, h8.2, h9⟩

/-- eret with a reserved bit, gctl with operations 8 and 127, cwin, ctx, tinv and cfg with reserved bits: none is an instruction. -/
theorem witness_PrivilegedAndIllegalWordsFault_malformed : Malformed 0xEC000001 ∧ Malformed 0xEE000001 ∧ Malformed 0xF0209080 ∧ Malformed 0xF02097F0 ∧
    Malformed 0xF2000001 ∧ Malformed 0xF4000001 ∧ Malformed 0xF6000001 :=
  ⟨malformed_of (by decide +kernel), malformed_of (by decide +kernel), malformed_of (by decide +kernel), malformed_of (by decide +kernel), malformed_of (by decide +kernel), malformed_of (by decide +kernel), malformed_of (by decide +kernel)⟩

/-- Core c's Curator issues beside a halted team, or beside a saved one whose image stands at va; `pg` gives its page. -/
def sCtxAt (c va : Nat) (pg : Tlb) (s : State) : State :=
  { s with cur := some (.curator c), hubTlb := [pg], hubTlb1 := [pg] }.mapCore c fun k => { k with tlb := [pg], s := Cells.set (Cells.set k.s 6 (BitVec.ofNat 32 va)) 7 (BitVec.ofNat 32 (va / 2 ^ 32)) }
def topPage : Tlb := ⟨0, 2 ^ 57 - 0x200000, 0x200000, 0x200000, true, true⟩
def isBad (x : State.Pages) : Bool := match x with
  | .bad _ _ => true
  | _ => false
/-- A team that is paired or not, saved, with the first unit of its image at byte pa of device memory. -/
def sSavedAt (paired : Bool) (pa : Nat) : State :=
  let s := sCtx 0
  let x := { tOf s with lrec := State.bootRecord, paired := paired }
  { s with teams := [], groups := [], saved := [⟨0, 0, 0, none, 0, false, 0, x, [gOf s], []⟩],
           dev := cellsAt pa (bytesOf 8 (1 + 2 ^ 32 * State.imgUnits x [gOf s])) ++ cellsAt (pa + 0x900) (bytesOf 128 State.bootRecord.toNat) }
/-- What core c's Curator reads an image at va as, and whether the team fits there. -/
def imgAt (s : State) (c va : Nat) : Option (Saved × Bool × Bool) := match s.imagePages c .read va 1 with
  | .ok tab => (s.imageTeam c fun k => Side.dev.loc tab (va + k)).map fun y => match s.imagePages c .read va (State.imgUnits y.team y.groups) with
    | .ok tab' => (y, true, s.savedFits (s.withEnded (fun k => Side.dev.loc tab' (va + k)) y) c)
    | x => (y, !isBad x, false)
  | _ => none

theorem pages_bad {s : State} {c va n : Nat} (k : Kind) (h : 2 ^ 57 < va + 4096 * n) : s.imagePages c k va n = .bad s 0 := by
  rw [State.imagePages, if_pos h]

/-- Images beyond the address space, for a save and for a load, and from its last unit on; a paired team on a leader, where it fits, and on a follower. -/
theorem witness_ContextWordsComplete_more :
    (2 ^ 57 < 2 ^ 57 + 4096 * 1 ∧ (sCtxAt 0 (2 ^ 57) bigPage (sCtx 0)).Curates 0 ∧ ((sCtxAt 0 (2 ^ 57) bigPage (sCtx 0)).spair 6).toNat = 2 ^ 57 ∧
      (sCtxAt 0 (2 ^ 57) bigPage (sCtx 0)).setMates 0 = [0] ∧ (sCtxAt 0 (2 ^ 57) bigPage (sCtx 0)).quiet 0 = true) ∧
    (let s := sCtxAt 0 (2 ^ 57 - 4096) topPage (sSavedAt false 0x3FF000)
     s.Curates 0 ∧ s.Sound ∧ (s.spair 6).toNat = 2 ^ 57 - 4096 ∧ (imgAt s 0 (2 ^ 57 - 4096)).map (fun e => (e.1.tid, e.1.team.paired, e.2.1)) = some (0, false, false)) ∧
    (let s := sCtxAt 0 0x200000 bigPage (sSavedAt true 0x200000)
     s.Curates 0 ∧ s.Sound ∧ s.swapping 0 = false ∧ (imgAt s 0 0x200000).map (fun e => (e.1.tid, e.1.team.paired, e.2)) = some (0, true, true, true)) ∧
    (let s := sCtxAt 1 0x200000 bigPage (sSavedAt true 0x200000)
     s.Curates 1 ∧ s.Sound ∧ (imgAt s 1 0x200000).map (fun e => (e.1.tid, e.1.team.paired)) = some (0, true)) := by
  simp only [State.Curates, State.Sound]; decide +kernel

theorem witness_ContextWordsComplete_bad : let s := sCtxAt 0 (2 ^ 57) bigPage (sCtx 0)
    s.imagePages 0 .write (2 ^ 57) 1 = .bad s 0 ∧ s.imagePages 0 .read (2 ^ 57 - 4096) 2 = .bad s 0 :=
  ⟨pages_bad .write (by decide), pages_bad .read (by decide)⟩

/-! ### Witnesses: market, walks, links, the outside -/

/-- Floors of 100 in every cluster of eight dies. -/
def sK : State :=
  let s := { sI0 with cur := none }.setCfgW 2 0 0x104 60
  (List.range 8).foldl (fun s d => s.setCfgW 1 d 0x204 100) s

theorem witness_MarketStaysWithinSupply :
    ((List.range 24).map sK.floorOf).sum ≤ 3640 ∧ Cells.wf sK.cfg = true ∧ sK.clockSet.wf = true ∧
    (10000 * sK.interval ≤ sK.clk.toNat ∧ 2 ≤ sK.mphase ∧ sK.cfgW 3 0 0x308 = 0) := by
  decide +kernel

/-- Each phase of an interval at the clock at which it ends; the host's page, of 100 tokens a cluster and of 59; a team to move. -/
def sPhase (ph t : Nat) : State := { sK with interval := 1, mphase := ph, clk := BitVec.ofNat 64 t }
def sHostPage (n : Nat) : State :=
  { ({ sPhase 0 1500 with dev := [] }.setCfgW 3 0 0x308 1).setCfgW 3 0 0x310 0x10000 with
    dev := ((List.range 24).map fun c => (0x10800 + 4 * c, BitVec.ofNat 8 n)) ++ [(0x10FFC, 1)] }
def sHot : State := (setG (fun g => { g with wait := some (.sym 3) }) (sK.setCfgW 2 0 0x100 0x10)).putCluster 0 { sK.cluster 0 with hotLast := true }

theorem witness_MarketStaysWithinSupply_events :
    (let s := sPhase 1 2000; s.mphase = 1 ∧ 10000 * s.thisInterval + 2000 ≤ s.clk.toNat) ∧
    (let s := sPhase 2 4000; s.mphase = 2 ∧ 10000 * s.thisInterval + 4000 ≤ s.clk.toNat) ∧
    (let s := sPhase 3 9000; (s.cluster 0).sub + 1 ≤ 9 ∧ s.mstart + 1000 * ((s.cluster 0).sub + 1) ≤ s.clk.toNat) ∧
    (∀ n ∈ [100, 59], let s := sHostPage n; s.mphase = 0 ∧ 10000 * s.thisInterval + 1500 ≤ s.clk.toNat ∧ s.numAt (.dev (s.marketPage + 0xFFC)) 4 = (s.thisInterval + 1) % 2 ^ 32 ∧
      ((List.range 24).all fun c => decide (s.floorOf c ≤ s.numAt (.dev (s.marketPage + (0x800 + 4 * c))) 4)) = (n == 100) ∧
      ((List.range 24).map fun c => s.numAt (.dev (s.marketPage + (0x800 + 4 * c))) 4).sum ≤ 3640) ∧
    (sHot.dieValid 0 = true ∧ bitAt (sHot.cfgW 2 (sHot.diePart 0) 0x100).toNat 4 = true ∧ (sHot.cluster 0).hotLast = true ∧ (sHot.migrate 0 0).isSome = true ∧ Tab.wf sHot.teams = true) := by
  decide +kernel

/-- A walk by tables at 0x40000, 0x60000, 0x80000, 0xA0000, 0xA2000; and one that finds none. -/
def aWalk : Walk := ⟨0, 0x20000, .read, some 0, [.group 0 0]⟩
def sWalk (m : Memory) : State :=
  let s := (((({ sI0 with cur := none }.setCfgW 2 0 0x00C 1).setCfgW 2 0 0x004 0x40000).setCfgW 2 0 0x018 0x1000000).setCfgW 2 0 0x020 0x50000)
  { s.putPart 0 { s.part 0 with walks := [aWalk] } with dev := m }
def tables : Memory :=
  cellsAt 0x40000 (bytesOf 8 0x60001) ++ cellsAt 0x60000 (bytesOf 8 0x80001) ++ cellsAt 0x80000 (bytesOf 8 0xA0001) ++ cellsAt 0xA0000 (bytesOf 8 0xA2001) ++
    cellsAt 0xA2010 (bytesOf 8 0x30007)
/-- The service has answered with status st. -/
def sServed (st : Nat) : State :=
  let s := sWalk (cellsAt (0x50000 + 11) [BitVec.ofNat 8 st] ++ cellsAt 0x52004 [1])
  s.putPart 0 { s.part 0 with walks := [], served := [[aWalk]], svcP := 1 }
/-- A walk for the same page whose request the service already has. -/
def sAgain : State := let s := sWalk []; s.putPart 0 { s.part 0 with served := [[aWalk]], svcP := 1 }

theorem witness_WalksAreServed :
    aWalk.core = some 0 ∧ ((sWalk tables).part 0).walks = [aWalk] ∧ ((sWalk tables).walkTable 0 0 .read 0x20000).isSome = true ∧ ((sWalk tables).core 0).tlb.length < 4096 ∧
    ((sWalk []).part 0).walks = [aWalk] ∧ (sWalk []).walkTable 0 0 .read 0x20000 = none ∧ ((sWalk []).part 0).served.length < 256 ∧ (sWalk []).Sound ∧ (sWalk []).dev.wf = true ∧ (sWalk []).peerq = [] ∧
    (sAgain.part 0).walks = [aWalk] ∧ sAgain.walkTable 0 0 .read 0x20000 = none ∧ (sAgain.part 0).served = [[aWalk]] ∧ sAgain.peerq = [] ∧ sAgain.Sound ∧ sAgain.dev.wf = true ∧
    (∀ st ∈ [1, 2], ((sServed st).part 0).served = [aWalk] :: [] ∧ (sServed st).peerq = [] ∧ (sServed st).wordAt (.dev ((sServed st).cfgD 2 0 0x020 + 0x2004)) ≠ ((sServed st).part 0).svcC ∧
      (sServed st).numAt (.dev ((sServed st).cfgD 2 0 0x020 + 32 * (((sServed st).part 0).svcC.toNat % 256) + 11)) 1 = st) := by
  simp only [State.Sound]; decide +kernel

/-- One symbol in error, of an accumulator row of core 12, which lies on die 1, with thr as the die's threshold. -/
def sScrub (hard : Bool) (thr : Word) : State := { sK with symErrs := [⟨.acc 12 0 5, false, 2, 3, hard, 0⟩] }.setCfgW 1 1 0x700 thr
def sLink (r : Nat) : State := { sK.setCfgW 3 0 0x504 3 with nalmond := [(3, ⟨true, false, r, true, 0⟩)] }

theorem witness_WalksAreServed_scrub : ∀ p ∈ ([(false, 1), (false, 0), (true, 1)] : List (Bool × Word)), let s := sScrub p.1 p.2
    Cells.wf s.cfg = true ∧ s.symErrs = [⟨.acc 12 0 5, false, 2, 3, p.1, 0⟩] ∧ s.stripeOf (.acc 12 0 5) = some ⟨1, 12, 0, 3, 0⟩ ∧ s.rowBad (.acc 12 0 5) false = false ∧ s.mappedOut = [] ∧
      s.mfailed = [] ∧ (s.cfgW 1 1 0x700).toNat % 2 ^ 8 = p.2.toNat := by
  intro p hp
  simp only [List.mem_cons, List.not_mem_nil, or_false] at hp
  rcases hp with rfl | rfl | rfl <;> decide +kernel

/-- A trained link, links at the retry limit, a spare that is there and one that is not, a swap with no team left on its die. -/
theorem witness_WalksAreServed_links :
    (1 ∈ (sLink 0).trained ∧ 1 ∉ (sLink 0).mfailed ∧ (sLink 0).linkOf 0x1000 = some 1 ∧ Cells.wf (sLink 0).cfg = true) ∧
    (∀ r ∈ [14, 15, 16], (sLink r).nalmond.get 3 = some ⟨true, false, r, true, 0⟩) ∧
    ((0x10 : Word).getLsbD 4 = true ∧ (sK.cfgW 3 0 0x410).toNat = 0 ∧ (0x10 : Word).toNat % 16 < 8 ∧ sK.dieValid 0 = true ∧ sK.spare = true ∧ ({ sK with spare := false } : State).spare = false) ∧
    (let s := { sK with swap := some ⟨5, [], []⟩ }; s.swap = some ⟨5, [], []⟩ ∧ s.badRows = [] ∧ ∀ e ∈ s.teams, e.2.core / 12 ≠ 5) := by
  decide +kernel

/-- A collective under way whose peer no link reaches, past its time; and two copies to such a peer, with no slice and with one. -/
def sFar : State := { staged .moving sSum with clk := 1000000 * 65536 }
def sFarCopy : State := { staged .moving (nx (exec (.cpw 50 31 true) (sregs [(51, 5)] sF))) with clk := 1000000 * 65536 }
def sFarSlice : State := { staged .moving (nx (exec (.cprPut 4 5 40 31) (withSh (tileIn 0 0x10000 0) (tileIn 1 0x100 0)))) with clk := 1000000 * 65536 }

def farOk (s : State) : Bool := s.ops.get sF.handles == some (opOf s sF.handles) && decide ((opOf s sF.handles).stage ≠ .failed) && decide ((opOf s sF.handles).tid = 0) && (s.team 0).isSome &&
  s.unreachable (opOf s sF.handles)

def kindOf (k : OpKind) : Nat := match k with
  | .coll _ => 1
  | .copy _ [] => 2
  | .copy _ [_] => 3
  | _ => 0

theorem witness_WalksAreServed_peer :
    [sFar, sFarCopy, sFarSlice].map (fun s => (farOk s, kindOf (opOf s sF.handles).kind)) = [(true, 1), (true, 2), (true, 3)] := by
  decide +kernel

theorem witness_OutsideAccessesComplete_vector : 2 < 4 ∧ sK.msixSent.wf = true := by decide +kernel

theorem witness_OutsideAccessesComplete :
    sK.Sound ∧ sK.dev.wf = true ∧ Tab.wf sK.groups = true ∧ sK.peerq = [] ∧
    (let s := { ((sK.setCfgW 3 0 0x504 3).setCfgW 3 0 0x518 0x100) with hostUp := true }
     s.hostUp = true ∧ s.broken = false ∧ 0x20 < 2 ^ 36 ∧ s.bar2 0x20 + 5 ≤ s.capacity ∧ s.Sound ∧ s.dev.wf = true) ∧
    (0x10020 % 4 = 0 ∧ 0x10020 < 2 ^ 57 ∧ sK.pins 0 0 = [] ∧ 0x1FFFE % 65536 + 2 ≤ 65536 ∧ hubPa sK 0 0 .peerWrite 0x10000 = some 0x10000) := by
  simp only [State.Sound]; decide +kernel

/-- Power-on; the record window's end where the record is not one that verifies; a report asked for; an error. -/
def sUp : State := { (State.reset.setCfgW 3 0 0x500 3) with clk := 100000000 }

theorem witness_BringUpCompletes :
    Cells.wf State.reset.cfg = true ∧ State.reset.cfgW 3 0 0x500 = 0 ∧ Cells.wf sUp.cfg = true ∧ (sUp.cfgW 3 0 0x500).toNat % 2 ^ 8 = 3 ∧ (sUp.cfgW 3 0 0x500).toNat / 2 ^ 8 % 2 ^ 8 = 0 ∧
    100000000 ≤ sUp.clk.toNat ∧ (State.reset.setCfgW 3 0 0x200020 1).cfgW 3 0 0x200020 = 1 ∧
    (let s := sUp.setCfgW 3 0 0x500 0x103; Cells.wf s.cfg = true ∧ (s.cfgW 3 0 0x500).toNat / 2 ^ 8 % 2 ^ 8 ≠ 0) := by
  decide +kernel

/-! ### Witnesses: decoding, stepping -/

theorem witness_DecodeOfEncodeIsTheInstruction :
    ((Instr.addi 5 5 ⟨0xFFFFFFFD, false⟩).wf = true ∧ laneParts (.addi 5 5 ⟨0xFFFFFFFD, false⟩) = none ∧ encScalar (.addi 5 5 ⟨0xFFFFFFFD, false⟩) = [0x40142FFD] ∧ fOp 0x40142FFD ≠ 0x7F) ∧
    ((Instr.addi 6 0 ⟨0x12345678, true⟩).wf = true ∧ laneParts (.addi 6 0 ⟨0x12345678, true⟩) = none ∧ encScalar (.addi 6 0 ⟨0x12345678, true⟩) = [0xFE02468A, 0x40180678]) ∧
    ((Instr.vaddFp wAdd).wf = true ∧ (laneParts (.vaddFp wAdd)).isSome = true) ∧
    decodeLane (laneOfWords 0x58280340 0xC0 0) = .ok (.vaddFp ⟨3, false, 0, 10, 11, 12, 0, 0, 0, 0⟩) ∧ decodeScalar 0x20143070 none = .ok (.add 5 6 7, 1) ∧
    decodeScalar 0xFE02468A (some 0x40180678) = .ok (.addi 6 0 ⟨0x12345678, true⟩, 2) := by
  decide +kernel

/-- An agenda that issues to the group a scalar word, a word with its prefix, a lane word; to the Curator; and each other kind of move. -/
def sStep (m : Move) (b : List Byte) : State := { sJ with agenda := [m], cur := none, dev := cellsAt 0x10000 b }

def okWord (s : State) (w : Option Word) (i : Instr) (n : Nat) : Bool := match decodeScalar (s.wordAt (.dev 0x10000)) w with
  | .ok (j, k) => decide (j = i) && decide (k = n)
  | _ => false

theorem witness_StepRunsTheDecodedWord :
    (let s := sStep (.issue (.group 0 0)) [0x70, 0x30, 0x14, 0x20]
     let s1 := { s with agenda := [], cur := some (.group 0 0) }
     s.Sound ∧ s.group 0 0 = some (gOf s) ∧ s1.mayIssue 0 0 (gOf s) = true ∧ (gOf s).run.n = 0 ∧ (gOf s).spc.toNat = 0x10000 ∧ paOf (s1.translateNow 0 0 .fetch 0x10000) = some 0x10000 ∧
       fOp (s1.wordAt (.dev 0x10000)) ≠ 0x7F ∧ okWord s1 none (.add 5 6 7) 1 = true) ∧
    (let s := sStep (.issue (.group 0 0)) [0x8A, 0x46, 0x02, 0xFE, 0x78, 0x06, 0x18, 0x40]
     fOp (s.wordAt (.dev 0x10000)) = 0x7F ∧ paOf (s.translateNow 0 0 .fetch 0x10004) = some 0x10004 ∧ okWord s (some (s.wordAt (.dev 0x10004))) (.addi 6 0 ⟨0x12345678, true⟩) 2 = true) ∧
    (let s := setG (fun g => { g with run := ⟨1, 0, false, 4, [0x58280340, 0xC0, 0]⟩ }) (sStep (.issue (.group 0 0)) [])
     let s1 := { s with agenda := [], cur := some (.group 0 0) }
     s1.mayIssue 0 0 (gOf s) = true ∧ (gOf s).run.n ≠ 0 ∧ (gOf s).run.code = 0x58280340 :: 0xC0 :: 0 :: [] ∧
       decodeLane (laneOfWords 0x58280340 0xC0 0) = .ok (.vaddFp ⟨3, false, 0, 10, 11, 12, 0, 0, 0, 0⟩)) ∧
    (let s := setG (fun g => { g with run := ⟨2, 0, false, 4, []⟩ }) { sStep (.issue (.group 0 0)) [] with dev := cellsAt 0x11000 [0x40, 0x03, 0x28, 0x58, 0xC0] }
     let s1 := { s with agenda := [], cur := some (.group 0 0) }
     s1.mayIssue 0 0 (gOf s) = true ∧ (gOf s).run.n ≠ 0 ∧ (gOf s).run.code = [] ∧ (∀ k, k < 2 → ∀ q, q < 3 → s.laneAddr 0 ((gOf s).run.cursor + BitVec.ofNat 32 k) q < 2 ^ 57 ∧
         paOf (s.translateNow 0 0 .fetch (s.laneAddr 0 ((gOf s).run.cursor + BitVec.ofNat 32 k) q)) = some (0x11000 + 12 * k + 4 * q)) ∧
       decodeLane (laneOfWords (s.wordAt (.dev 0x11000)) (s.wordAt (.dev 0x11004)) (s.wordAt (.dev 0x11008))) = .ok (.vaddFp ⟨3, false, 0, 10, 11, 12, 0, 0, 0, 0⟩)) ∧
    (let s := (sStep (.issue (.curator 0)) []).mapCore 0 fun c => { c with mem := cellsAt 0 [0x70, 0x30, 0x14, 0x20] }
     let s1 := { s with agenda := [], cur := some (.curator 0) }
     (s.core 0).stopped = false ∧ (s.core 0).waiting = false ∧ s1.trapDue 0 = false ∧ (s.core 0).spc.toNat + 8 ≤ 2 ^ 18 ∧ s1.withholds 0 (chargeOf (.add 5 6 7) 0) = false ∧
       decodeScalar (s1.wordAt (.curator 0 0)) (some (s1.wordAt (.curator 0 4))) = .ok (.add 5 6 7, 1)) ∧
    (let s := ((sStep (.issue (.curator 0)) []).mapCore 0 fun c => { c with mem := cellsAt 0 [0x70, 0x30, 0x14, 0x20], charged := true })
     let s1 := ({ s with agenda := [], cur := some (.curator 0) }).putCluster 0 { s.cluster 0 with began := true }
     (s.core 0).charged = true ∧ s1.withholds 0 (chargeOf (.add 5 6 7) 0) = true) := by
  simp only [State.Sound, here_iff]; decide +kernel

/-- A word that issues and one that the governor withholds; and a step, from canonical stores, that has a next state. -/
theorem witness_StepRunsTheDecodedWord_charge :
    (let s2 := sI0.putCluster 0 { sI0.cluster 0 with began := true }
     let s2 := setG (fun g => { g with charged := true }) s2
     s2.withholds 0 1 = true ∧ (s2.group 0 0).map (·.charged) = some true) ∧
    (let s1 := setG (fun g => { g with moved := true }) sI0
     s1.group 0 0 = some (gOf s1) ∧ State.issued (gOf s1) = true ∧ sI0.withholds 0 0 = false ∧ (sI0.team 0).map (·.halted) = some false) := by
  simp only [here_iff]; decide +kernel

def groupWf (g : Group) : Bool := decide (g.live ≤ 96) && g.s.wf && g.v.wf && g.k.wf && g.sh.wf && g.spill.wf && g.tags.wf && g.scar.wf && Tab.wf g.ctxH

theorem groupWf_sound {g : Group} (h : groupWf g = true) : State.GroupWf g := by
  simp only [groupWf, Bool.and_eq_true, decide_eq_true_eq] at h
  obtain ⟨⟨⟨⟨⟨⟨⟨⟨h1, h2⟩, h3⟩, h4⟩, h5⟩, h6⟩, h7⟩, h8⟩, h9⟩ := h
  exact ⟨h1, h2, h3, h4, h5, h6, h7, h8, h9⟩

/-- The canonical tables as one test. -/
def tablesWf (s : State) : Bool :=
  Tab.wf s.groups && Tab.wf s.teams && Tab.wf s.grids && Tab.wf s.ops && Tab.wf s.cores && Tab.wf s.parts && s.groups.all (fun e => decide (e.2.idx = e.1 % 64) && groupWf e.2) &&
    s.teams.all (fun e => e.2.tm.wf && e.2.cb.wf) && s.cores.all (fun e => e.2.s.wf && e.2.mem.wf && e.2.a0.wf && e.2.a1.wf) && s.grids.all (fun e => !Spec.rolesBad e.2.record) && decide (s.saved = [])

theorem mem_of_tabGet {α : Type} {l : Tab α} {k : Nat} {x : α} (h : l.get k = some x) : (k, x) ∈ l := by
  induction l with
  | nil => simp [Tab.get] at h
  | cons e r ih =>
    obtain ⟨a, b⟩ := e
    simp only [Tab.get] at h
    split at h
    · rename_i e; cases e; cases h; simp
    · split at h
      · cases h
      · exact List.mem_cons_of_mem _ (ih h)

theorem tablesWf_sound {s : State} (h : tablesWf s = true) : s.TablesWf := by
  simp only [tablesWf, Bool.and_eq_true] at h
  obtain ⟨⟨⟨⟨⟨⟨⟨⟨⟨⟨h1, h2⟩, h3⟩, h4⟩, h5⟩, h6⟩, h7⟩, h8⟩, h9⟩, h10⟩, h11⟩ := h
  refine ⟨h1, h2, h3, h4, h5, h6, fun k g e => ?_, fun t x e => ?_, fun c x e => ?_, fun n g e => ?_, fun y hy => ?_⟩
  · have h := List.all_eq_true.1 h7 _ (mem_of_tabGet e)
    simp only [Bool.and_eq_true, decide_eq_true_eq] at h
    exact ⟨h.1, groupWf_sound h.2⟩
  · simpa using List.all_eq_true.1 h8 _ (mem_of_tabGet e)
  · simpa [and_assoc] using List.all_eq_true.1 h9 _ (mem_of_tabGet e)
  · simpa using List.all_eq_true.1 h10 _ (mem_of_tabGet e)
  · simp [of_decide_eq_true h11] at hy

theorem witness_StepKeepsStoresCanonical : let s := sStep (.issue (.group 0 0)) [0x70, 0x30, 0x14, 0x20]
    s.StoresWf ∧ s.TablesWf ∧ (match step s with | .next s => decide ((gOf s).spc = 0x10004) | _ => false) = true :=
  ⟨by simp only [State.StoresWf]; decide +kernel, tablesWf_sound (by decide +kernel), by decide +kernel⟩

/-! ### Single steps

Expected values from the spec's worked examples, and otherwise by hand from the tables that a docstring names. -/

/-- One live lane: v3, v4 and v5 hold a, b and c. -/
def sLane (a b c : Word) : State :=
  setG (fun g => { g with run := ⟨1, 4, false, 4, []⟩, live := 1, s := [(125, 1)], v := rows [(3, fun l => if l = 0 then a else 0), (4, fun l => if l = 0 then b else 0), (5, fun l => if l = 0 then c else 0)] }) sC

def wd (ty : BitVec 4) (vb vc : VReg := 0) (mod : BitVec 6 := 0) : LaneWord := ⟨31, false, ty, 6, 3, vb, vc, 0, mod, 0⟩

/-- Lane 0 of v6 and the sticky flags after a word. -/
def laneRes (i : Instr) (a b c : Word) : Word × Word := let g := gOf (nx (exec i (sLane a b c))); (g.v.get (96 * 6), g.cond)

/-- 13 R247: shifts by 32 and 40, high halves, signed comparisons. -/
theorem test_scalar_register : ∀ p ∈ ([(.add 20 8 9, 2), (.sub 20 9 8, 4), (.mulh 20 8 8, 0), (.mulhu 20 8 8, 0xFFFFFFFE), (.shl 20 9 7, 0), (.shr 20 6 7, 0), (.sra 20 6 7, 0xFFFFFFFF),
    (.slt 20 8 9, 1), (.sltu 20 8 9, 0), (.min 20 8 9, 0xFFFFFFFF), (.max 20 8 9, 3), (.popc 20 8, 32), (.srai 20 6 31, 0xFFFFFFFF)] : List (Instr × Word)),
    (nx (exec p.1 sA)).sreg 20 = p.2 := by
  decide +kernel

/-- s0 discards a write and reads as zero (03 R59); a pair based on s0 writes s1 alone. -/
theorem test_scalar_zero : (nx (exec (.add 0 8 9) sA)).sreg 0 = 0 ∧ (nx (exec (.mul64 0 8 8) (sregs [(8, 0xFFFFFFFF), (9, 1)] sA))).sreg 0 = 0 ∧
    (nx (exec (.mul64 0 8 8) (sregs [(8, 0xFFFFFFFF), (9, 1)] sA))).sreg 1 = 0xFFFFFFFC := by
  decide +kernel

/-- 13 R249: a carry between the halves, and an odd pair. -/
theorem test_scalar_pair : (nx (exec (.add64 20 8 10) (sregs [(10, 1), (11, 0)] sA))).sreg 20 = 0 ∧ (nx (exec (.add64 20 8 10) (sregs [(10, 1), (11, 0)] sA))).sreg 21 = 4 ∧
    (gOf (nx (exec (.add64 21 8 10) sA))).faulted = true := by
  decide +kernel

/-- 13 R243: `bne` back by three words where the registers differ; `br` to itself minus five. -/
theorem test_branches : (gOf (nx (exec (.bne 7 8 ⟨0xFFFFFFFD, false⟩) sA))).spc = 0xFFF4 ∧ (gOf (nx (exec (.beq 7 8 ⟨4, false⟩) sA))).spc = 0x10004 ∧
    (gOf (nx (exec (.br (-5)) sA))).spc = 0xFFEC ∧ (nx (exec (.jal 20 ⟨40, false⟩) sA)).sreg 20 = 0x10004 ∧ (gOf (nx (exec (.jal 20 ⟨40, false⟩) sA))).spc = 0x100A0 := by
  decide +kernel

/-- The example of 02 R48: 40 live lanes, k2 in the even lanes. -/
def sHalf : State := setG (fun g => { g with live := 40, k := [(2, 0x5555555555)], s := [(125, 0xFFFFFFFF), (126, 0xFF)] }) sC

theorem test_two_way_branch :
    (let a := nx (exec (.mpush 2) sHalf)
     let b := nx (exec .melse (setG (fun g => { g with fmt := 0x400 }) a))
     let c := nx (exec .mpop b)
     [a.sreg 125, a.sreg 126, a.sreg 127, b.sreg 125, b.sreg 126, (gOf b).fmt, c.sreg 125, c.sreg 126] = [0x55555555, 0x55, 0, 0xAAAAAAAA, 0xAA, 0, 0xFFFFFFFF, 0xFF]) := by
  decide +kernel

/-- 03 R64: the third arrival of three flips the phase. -/
theorem test_barrier_slot : (tOf (nx (exec (.bsarr 20 2) (sSlot (State.bsWord 3 2 false) 0)))).bs.get 2 = State.bsWord 3 0 true ∧
    (tOf (nx (exec (.bsarr 20 2) (sSlot (State.bsWord 3 1 true) 0)))).bs.get 2 = State.bsWord 3 2 true ∧
    (nx (exec (.bsarr 20 2) (sSlot (State.bsWord 3 1 true) 0))).sreg 20 = 1 := by
  decide +kernel

/-- The worked shape of 03 R62. -/
theorem test_shape :
    let S := Shape.of (BitVec.ofNat 512 (0x40 * 2 ^ 32 + 0x02000000 * 2 ^ 64 + 0xC0 * 2 ^ 96 + 0x40 * 2 ^ 128 + 1 * 2 ^ 256 + 0x00C00000 * 2 ^ 288))
    S.space = 0 ∧ S.addr = 0x4000000000 ∧ S.fmt = 0 ∧ S.layout = 0 ∧ S.ndim = 2 ∧ S.exts = [192, 64] ∧ S.strides = [1, 192] ∧ S.cbtag = 0 := by
  decide +kernel

/-- 14 R273, R274: wraps by element width, the most negative value, counts, fields. -/
theorem test_lane_integer : ∀ p ∈ ([(.vaddInt (wd 7 4), 0x7F8001FF, 0x01FFFF01, 0, 0x807F0000, 0), (.vadds (wd 7 4), 0x7F8001FF, 0x01FFFF01, 0, 0x7F800000, 0x21),
    (.vsubInt (wd 6 4), 0x00010000, 0x00010001, 0, 0x0000FFFF, 0), (.vsubs (wd 8 4), 0x05050505, 0x06040605, 0, 0x00010000, 0x21), (.vmulInt (wd 3 4), 0xFFFFFFFF, 7, 0, 0xFFFFFFF9, 0),
    (.vmulh (wd 4 4), 0xFFFFFFFF, 0xFFFFFFFF, 0, 0xFFFFFFFE, 0), (.vmad (wd 5 4 5), 0x00020003, 0x00040005, 0x00010001, 0x00090010, 0), (.vabsInt (wd 7), 0x80FF017F, 0, 0, 0x8001017F, 0),
    (.vnegInt (wd 3), 0x80000000, 0, 0, 0x80000000, 0), (.vminInt (wd 8 4), 0x01FF01FF, 0xFF0100FF, 0, 0x010100FF, 0), (.vmaxInt (wd 3 4), 0xFFFFFFFF, 0, 0, 0, 0), (.vnot (wd 12), 0x0F0F0F0F, 0, 0, 0xF0F0F0F0, 0),
    (.vshl (wd 11 4), 0xFFFFFFFF, 0x00100003, 0, 0x0000FFF8, 0), (.vshr (wd 12 4), 0xFFFFFFFF, 32, 0, 0, 0), (.vsra (wd 3 4), 0x80000000, 40, 0, 0xFFFFFFFF, 0),
    (.vpopc (wd 10), 0xFF0F0100, 0, 0, 0x08040100, 0), (.vclz (wd 12), 0, 0, 0, 32, 0), (.vbfx (wd 3 4), 0x0000F5A0, 0x00000C04, 0, 0xFFFFFF5A, 0), (.vbfi (wd 12 4 5), 0xFFFFFFFF, 0x00000C04, 0x123, 0xFFFF123F, 0)]
    : List (Instr × Word × Word × Word × Word × Word)), laneRes p.1 p.2.1 p.2.2.1 p.2.2.2.1 = (p.2.2.2.2.1, p.2.2.2.2.2) := by
  decide +kernel

/-- 14 R277-R279: 1.5 + 2.25, a NaN for inf - inf, one rounding in the fused form, 2.5 to 2.0 and -0.4 to -0.0, signs even of a NaN. -/
theorem test_lane_float : ∀ p ∈ ([(.vaddFp (wd 0 4), 0x3FC00000, 0x40100000, 0, 0x40700000, 0), (.vsubFp (wd 0 4), 0x7F800000, 0x7F800000, 0, 0x7FC00000, 0x21), (.vmulFp (wd 0 4), 0x3FC00000, 0x3FC00000, 0, 0x40100000, 0),
    (.vfma (wd 0 4 5), 0x40400000, 0x3F800001, 0xC0400000, 0x34C00000, 0), (.vminFp (wd 0 4), 0x7FC00000, 0x3F800000, 0, 0x7FC00000, 0), (.vrnd (wd 0), 0x40200000, 0, 0, 0x40000000, 0),
    (.vrnd (wd 0), 0xBECCCCCD, 0, 0, 0x80000000, 0), (.vnegFp (wd 0), 0x7FC00000, 0, 0, 0xFFC00000, 0), (.vabsFp (wd 1), 0x8000FFC0, 0, 0, 0x00007FC0, 0), (.vaddFp (wd 1 4), 0x00003F80, 0x00003B80, 0, 0x00003F80, 0x10)]
    : List (Instr × Word × Word × Word × Word × Word)), (laneRes p.1 p.2.1 p.2.2.1 p.2.2.2.1).1 = p.2.2.2.2.1 := by
  decide +kernel

/-- 14 R280: 2^10 = 1,024.0; 10.0 / 4.0; the square root of 2.25; the reciprocal of 4.0; the logarithm of 8.0. The word's result is on its way. -/
theorem test_sfu : ∀ p ∈ ([(.vexp2 (wd 0), 0x41200000, 0, 0x44800000), (.vdiv (wd 0 4), 0x41200000, 0x40800000, 0x40200000), (.vsqrt (wd 0), 0x40100000, 0, 0x3FC00000), (.vrcp (wd 0), 0x40800000, 0, 0x3E800000),
    (.vlog2 (wd 0), 0x41000000, 0, 0x40400000), (.vsin (wd 0), 0, 0, 0)] : List (Instr × Word × Word × Word)),
    (gOf (nx (exec (.sfuResultWrite sC.handles) (nx (exec p.1 (sLane p.2.1 p.2.2.1 0)))))).v.get (96 * 6) = p.2.2.2 := by
  decide +kernel

/-- The stochastic packing of 14 (R283, R88, R89): two live lanes, seed 0, e4m3, stochastic. -/
def sPack (f : Word) : State :=
  setG (fun g => { g with run := ⟨1, 4, false, 4, []⟩, live := 2, s := [(125, 3)], fmt := f, clip := 0x7F800000, seed := 0,
                          v := [(96 * 40, 0x44160000), (96 * 40 + 1, 0x40A33333), (96 * 41, 0x3F800000), (96 * 41 + 1, 0x3F800000), (96 * 42, 0xC0000000), (96 * 42 + 1, 0xC0000000), (96 * 43 + 1, 0x80000000)] }) sC

theorem test_stochastic_pack :
    (let g := gOf (nx (exec (.vpack ⟨31, false, 0, 30, 40, 0, 0, 0, 0, 0⟩) (sPack 0x403)))
     g.v.get (96 * 30) = 0x00C0387E ∧ g.v.get (96 * 30 + 1) = 0x80C0384B ∧ g.convCnt = 4 ∧ g.cond &&& 0x1F = 0x14) ∧
    (gOf (nx (exec (.vpack ⟨31, false, 0, 30, 40, 0, 0, 0, 0, 0⟩) (sPack 3)))).v.get (96 * 30 + 1) = 0x80C0384A := by
  decide +kernel

/-- The cross-lane reads of 15 in a partial group: v4[l] = l in 40 live lanes, the mask on the even ones. -/
def sCross : State :=
  setG (fun g => { g with run := ⟨1, 4, false, 4, []⟩, live := 40, s := [(125, 0x55555555), (126, 0x55)],
                          v := [(96 * 3, 1), (96 * 3 + 2, 39)] ++ (List.range 39).map (fun l => (96 * 4 + (l + 1), BitVec.ofNat 32 (l + 1))) ++ [(96 * 5 + 1, 99)] }) sC

theorem test_cross_lane :
    (let g := gOf (nx (exec (.vdn ⟨31, false, 12, 5, 4, 0, 0, 0, 0, 2⟩) sCross))
     [g.v.get (96 * 5), g.v.get (96 * 5 + 36), g.v.get (96 * 5 + 38), g.v.get (96 * 5 + 1)] = [2, 38, 0, 99]) ∧
    (let g := gOf (nx (exec (.vperm ⟨31, false, 12, 6, 4, 3, 0, 0, 0, 0⟩) sCross)); g.v.get (96 * 6) = 1 ∧ g.v.get (96 * 6 + 2) = 39) ∧
    (let g := gOf (nx (exec (.vred ⟨31, false, 3, 7, 4, 0, 0, 0, 0, 0⟩) sCross)); g.v.get (96 * 7) = 380 ∧ g.v.get (96 * 7 + 38) = 380 ∧ g.v.get (96 * 7 + 1) = 0) := by
  decide +kernel

/-- The deferred lineage of 10: (3.0, -3.0) over a symbol that resolves to 1 + 2^-23 gives 3 · 2^-23, rounded once (R188, R195). -/
theorem test_deferred : formVal 0x40400000 0x3F800001 0xC0400000 = 0x34C00000 ∧
    (let s := setG (fun g => { g with tags := [(5, 0x7)], scar := [(0, 0x40400000)], v := [(96 * 5, 0xC0400000)], cancel := 0, live := 1, s := [(125, 1)] }) (sSym .manual (some 0x3F800001) 0)
     (gOf (nx (exec (.vres ⟨31, false, 0, 5, 0, 0, 0, 0, 0, 0⟩) s))).v.get (96 * 5) = 0x34C00000) := by
  decide +kernel

/-- 15 R294: a store writes its bytes lowest first, a load of a halfword takes two. -/
theorem test_lane_memory : (let s := nx (exec (.vst ⟨31, false, 12, 0, 3, 4, 0, 0, 2, 0⟩) (sLane 0x200 0x11223344 0)); [0x1FF, 0x200, 0x201, 0x203, 0x204].map (fun a => s.byteAt (.team 0 a)) = [0, 0x44, 0x33, 0x11, 0]) ∧
    (let s := nx (exec (.vld ⟨31, false, 12, 6, 3, 0, 0, 0, 2, 0⟩) (sLane 0x100 0 0)); (gOf (nx (exec (.laneLoadComplete sC.handles) s))).v.get (96 * 6) = 0x68676665) ∧
    (let s := nx (exec (.vatom ⟨31, false, 4, 6, 3, 4, 0, 0, 2, 0⟩) (sLane 0x100 1 0)); s.wordAt (.team 0 0x100) = 0x68676666) := by
  decide +kernel

/-- 06 R123, R124: two adds to one word, summed by key and not by arrival: 1.0 twice plus 2^-24 of the lower team, then of the higher. -/
theorem test_ordered_close :
    State.closeSum 0x33800000 [{ qA with team := 5 }, { qA with team := 4, x := 0x33800000 }] = State.closeSum 0x33800000 [{ qA with team := 4, x := 0x33800000 }, { qA with team := 5 }] ∧
    State.closeSum 0x33800000 [{ qA with team := 4, x := 0x33800000 }, { qA with team := 5 }] = 0x3F800001 ∧
    State.closeSum 0x33800000 [{ qA with team := 4 }, { qA with team := 5, x := 0x33800000 }] = 0x3F800000 := by
  decide +kernel

/-- The conjugate of 11: f on [0, 4] with lines (-1, 0) and (1, -2). -/
def profF : Prof := ⟨0, 0x40800000, [⟨0xBF800000, 0, 1⟩, ⟨0x3F800000, 0xC0000000, 2⟩]⟩
def profG : Prof := ⟨0, 0x40000000, [⟨0x3F000000, 0, 7⟩]⟩
def profs (e : Nat) : Prof := if e = 0 then profF else profG

theorem test_profile_conjugate : (profResult profs 0 (.conj 2 0)).map (fun r => (r.1, r.2.1)) =
    some (2, some ⟨0xFF800000, 0x7F800000, [⟨0, 0, 0x8001⟩, ⟨0x3F800000, 0x3F800000, 1⟩, ⟨0x40800000, 0xC0000000, 2⟩]⟩) := by
  decide +kernel

/-- Its convolution with g on [0, 2], line (0.5, 0): -x, then 0.5x - 1.5, then x - 3, on [0, 6]; with ptol 1 the middle line goes. -/
theorem test_profile_convolution :
    ((profResult profs 0 (.inf 3 0 1)).map fun r => (r.2.1.map fun p => (p.lo, p.hi, p.lines.map fun l => (l.a, l.b)))) =
      some (some (0, 0x40C00000, [(0xBF800000, 0), (0x3F000000, 0xBFC00000), (0x3F800000, 0xC0400000)])) ∧
    (let p : Prof := ⟨0, 0x40C00000, [⟨0xBF800000, 0, 1⟩, ⟨0x3F000000, 0xBFC00000, 7⟩, ⟨0x3F800000, 0xC0400000, 2⟩]⟩
     ((profResult (fun _ => p) 0x3F800000 (.simp 4 3)).map fun r => (r.2.1.map fun q => q.lines.map fun l => (l.a, l.b))) = some (some [(0xBF800000, 0), (0x3F800000, 0xC0400000)]) ∧
     ((profResult (fun _ => p) 0x3F000000 (.simp 4 3)).map fun r => (r.2.1.map fun q => q.lines.length)) = some (some 3)) := by
  decide +kernel

/-- The market of 23 R373: bids of eight dies, floors of 60, ties from cluster 0. -/
def bids (c : Nat) : List (Nat × Word) :=
  if c = 0 then [(120, 0x40800000), (60, 0x3F800000)] else if c = 1 then [(100, 0x40800000), (100, 0x40000000)] else if c = 2 then [(90, 0x40400000)] else [(90, 0x40000000)]

def sMarket : State := (List.range 24).foldl (fun s c => s.putCluster c { s.cluster c with bid := bids c }) ({ sI0 with cur := none }.setCfgW 2 0 0x104 60)

theorem test_market : ((List.range 24).map fun c => ((sMarket.clearMarket 0).cluster c).grant) = [180, 260] ++ List.replicate 20 150 ++ [140, 60] ∧ (sMarket.clearMarket 0).price = 0x40000000 := by
  decide +kernel

/-- 13 R245, 22 R348: `trap 0x21` halts the team, its fault pending, and stands past the word. -/
theorem test_trap : let s := nx (exec (.trap 0x21) sA)
    (tOf s).halted = true ∧ (gOf s).faulted = true ∧ (gOf s).spc = 0x10004 := by
  decide +kernel

/-- 22 R347: a trap saves the SPC and shows its causes; eret brings it back. -/
theorem test_curator_trap :
    (let s := nx (exec (.curatorTrap 0) (((sTrap 3 true).setCfgW 0 0 0 0x4000).mapCore 0 fun c => { c with spc := 0x9C }))
     (s.core 0).spc = 0x4000 ∧ s.cfgD 0 0 0x008 = 0x9C ∧ s.cfgW 0 0 0x010 = 0xF ∧ ((nx (exec .eret { s with cur := some (.curator 0) })).core 0).spc = 0x9C) := by
  decide +kernel

/-- 12 R228: a privileged word in a group is a fault. -/
theorem test_privileged : (gOf (nx (exec .eret sA))).faulted = true ∧ (gOf (nx (exec (.cfgWrite 5 6 7) sA))).faulted = true := by decide +kernel

/-- 22 R360, R362, R364: the register of the word says whether it reads or writes, saves or loads. -/
theorem test_resolve : let s := cregs [(6, 0x80000000), (7, 8), (9, 0)] sJ
    s.resolve (.cwinRead 5 6 7) = .cwinWrite 5 6 7 ∧ s.resolve (.cwinRead 5 9 7) = .cwinRead 5 9 7 ∧ s.resolve (.ctxSave 5 6 7) = .ctxLoad 5 6 7 ∧ s.resolve (.ctxSave 5 6 9) = .ctxSave 5 6 9 ∧
    s.resolve (.cfgRead 5 6 7) = .cfgWrite 5 6 7 ∧ s.resolve (.cfgRead 5 9 7) = .cfgRead 5 9 7 := by
  decide +kernel

/-- A copy of four words to team memory (16 R307): they arrive, the word after them does not change. -/
theorem test_copy :
    (let s := staged .moving (sReady 4 0x104 0x10000)
     let s := { s with dev := cellsAt 0x10000 [1, 2, 3, 4, 5, 6, 7, 8, 9, 10, 11, 12, 13, 14, 15, 16, 17] }
     let t := nx (exec (.copyComplete sF.handles) s)
     [0x100, 0x104, 0x108, 0x110, 0x114].map (fun a => t.wordAt (.team 0 a)) = [0x68676665, 0x04030201, 0x08070605, 0x100F0E0D, 0x7C7B7A79] ∧ t.ops.get sF.handles = none) := by
  decide +kernel

/-- An all-reduce of two members (08 R157): 7 here and 77 from the peer; the handshake is one moment, the exchange a later one, for which a
link to the peer is up. -/
theorem test_collective :
    (let s := { sSumRecv.setCfgW 4 0 (8 * 5 + 4) 1 with cur := none, nalmond := [(0, ⟨true, false, 0, true, 0⟩)] }
     let a := nx (exec (.collectiveComplete sF.handles) s)
     let b := nx (exec (.collectiveComplete sF.handles) a)
     a.wordAt (.team 0 0x100) = 0x68676665 ∧ (opOf a sF.handles).stage = .moving ∧ b.wordAt (.team 0 0x100) = 0x68676665 + 77) := by
  decide +kernel

/-- The digest of "abc" that FIPS 202 gives for SHA3-512, lowest byte first (00 R7, R10). -/
theorem test_sha3 : sha3_512 [0x61, 0x62, 0x63] =
    0xf053ec4e27f89265a5d508f44c0b34574093e34776c57e1ac9f32a19e916e1102e71d240025d4f880df744748221f6086e096b4b92cd93568a16571a0b8551b7 := by
  decide +kernel

/-- Reset: every configuration word reads zero, memory reads zero, the spare stands by (24 R397, 25 R411). -/
theorem test_reset : State.reset.cfgW 3 0 0x500 = 0 ∧ State.reset.byteAt (.dev 0x1234) = 0 ∧ State.reset.spare = true ∧ State.reset.group 0 0 = none ∧ Cells.wf State.reset.dev = true := by decide +kernel

/-- A step fetches the word at the SPC, runs it and stands past it (02 R40); a word placed at reset runs as the first instruction. -/
theorem test_step : (match step (sStep (.issue (.group 0 0)) [0x70, 0x30, 0x14, 0x20]) with
    | .next s => decide ((gOf s).spc = 0x10004)
    | _ => false) = true ∧
    (match step (State.reset.withFetchWord 32 0x4014000F) with
      | .next s => decide (((s.group 0 0).map fun g => g.s.get 5) = some 15)
      | _ => false) = true := by
  decide +kernel

end Sys2Proof.Tests
end

