-- ==== Sys2Proof/Proofs/StoreBytes.lean ====
section
/-! PROOF. What a store of bytes does to memory (00 R10, 06 R117): one rule for a byte put at a place, the induction over the bytes of a
store, and the watches and fresh rows that follow a store at its home, which move no byte. -/

namespace Sys2Proof.Machine

open Sys2Proof

/-! ### Tables: rows by membership, and a view of the rows that a put keeps -/

namespace Tab

variable {α β : Type}

theorem wf_cons {k : Nat} {v : α} {r : Tab α} (h : wf ((k, v) :: r) = true) : (∀ e ∈ r, k < e.1) ∧ wf r = true := by
  induction r generalizing k v with
  | nil => simp [wf]
  | cons e r ih =>
    obtain ⟨k', v'⟩ := e
    obtain ⟨hk, hr⟩ : k < k' ∧ wf ((k', v') :: r) = true := by simpa [wf] using h
    refine ⟨fun e he => ?_, hr⟩
    rcases List.mem_cons.1 he with rfl | he
    · exact hk
    · exact hk.trans ((ih hr).1 e he)

/-- What stands in a canonical table is what a read of its number gives. -/
theorem get_of_mem {m : Tab α} (h : wf m = true) {e : Nat × α} (he : e ∈ m) : get m e.1 = some e.2 := by
  induction m with
  | nil => cases he
  | cons p r ih =>
    obtain ⟨k, v⟩ := p
    obtain ⟨hk, hr⟩ := wf_cons h
    rcases List.mem_cons.1 he with rfl | he
    · simp [get]
    · have hlt := hk e he
      rw [get, if_neg (by omega), if_neg (by omega), ih hr he]

/-- A put of a row that looks the same under f changes no row's look under f. -/
theorem map_get_set {f : α → β} {m : Tab α} {k : Nat} {v : α} (h : (get m k).map f = some (f v)) (j : Nat) :
    (get (set m k v) j).map f = (get m j).map f := by
  by_cases hj : j = k
  · rw [hj, get_set_same, h]; rfl
  · rw [get_set_ne m hj]

end Tab

/-- A read after a write: the value written at its key, what stood there at every other. -/
theorem Cells.get_set {w : Nat} {m : Cells w} (h : m.wf = true) (a b : Nat) (v : BitVec w) :
    (m.set a v).get b = if b = a then v else m.get b := by
  split
  · next hb => rw [hb, Cells.get_set_same h]
  · next hb => exact Cells.get_set_ne hb h v

/-! ### Places -/

namespace Loc

theorem plus_zero (l : Loc) : l.plus 0 = l := by cases l <;> rfl

theorem plus_plus (l : Loc) (m n : Nat) : (l.plus m).plus n = l.plus (m + n) := by
  cases l <;> simp [plus, Nat.add_assoc]

theorem plus_inj {l : Loc} {m n : Nat} : l.plus m = l.plus n ↔ m = n := by
  cases l <;> simp [plus]

end Loc

/-! ### Waking a group leaves its spill stack alone -/

namespace Group

theorem freeTag_spill (g : Group) (r : Nat) : (g.freeTag r).spill = g.spill := by
  unfold freeTag; split <;> rfl

theorem rowsWritten_spill (g : Group) (r : Nat) (m : LaneMask) : (g.rowsWritten r m).spill = g.spill := by
  unfold rowsWritten; split <;> rfl

theorem putLanes_spill (g : Group) (r : Nat) (m : LaneMask) (f : Nat → Word) : (g.putLanes r m f).spill = g.spill :=
  rowsWritten_spill ..

/-- A result that has come goes to a register. -/
theorem apply_spill (g : Group) (p : Pend) : (g.apply p).spill = g.spill := by
  unfold apply
  split
  · split <;> rfl
  · rw [putLanes_spill]
    split
    · rfl
    · exact freeTag_spill g _
  · split <;> rfl

theorem settle_spill (g : Group) : g.settle.spill = g.spill := by
  unfold settle
  refine List.foldlRecOn (motive := fun h : Group => h.spill = g.spill) _ _ ?_ fun h ih p _ => (apply_spill h p).trans ih
  rfl

theorem advance_spill (g : Group) (len : Nat) : (g.advance len).spill = g.spill := settle_spill _

end Group

namespace State

variable {s s' s'' : State}

/-! ### States that hold the same memory -/

/-- Every space holds the same bytes, and what decides whether a byte can be read is the same. -/
structure SameSpaces (s s' : State) : Prop where
  stores : s.SameStores s'
  cores : s'.cores = s.cores
  badRows : s'.badRows = s.badRows
  mfailed : s'.mfailed = s.mfailed
  tm : ∀ t, (s'.teams.get t).map Team.tm = (s.teams.get t).map Team.tm
  spill : ∀ k, (s'.groups.get k).map Group.spill = (s.groups.get k).map Group.spill

namespace SameSpaces

theorem refl (s : State) : s.SameSpaces s := ⟨.refl s, rfl, rfl, rfl, fun _ => rfl, fun _ => rfl⟩

theorem trans (h : s.SameSpaces s') (k : s'.SameSpaces s'') : s.SameSpaces s'' where
  stores := h.stores.trans k.stores
  cores := k.cores.trans h.cores
  badRows := k.badRows.trans h.badRows
  mfailed := k.mfailed.trans h.mfailed
  tm t := (k.tm t).trans (h.tm t)
  spill i := (k.spill i).trans (h.spill i)

theorem stored (h : s.SameSpaces s') (l : Loc) : s'.stored l = s.stored l := by
  obtain ⟨hdev, hannex, hpeers, -⟩ := h.stores
  cases l with
  | team t o =>
    have key := congrArg (Option.map (Cells.get · o)) (h.tm t)
    simp only [Option.map_map] at key
    exact congrArg (Option.getD · 0) key
  | spill t i o =>
    have key := congrArg (Option.map (Cells.get · o)) (h.spill (64 * t + i))
    simp only [Option.map_map] at key
    exact congrArg (Option.getD · 0) key
  | annex d o => simp only [State.stored, hannex]
  | dev a => simp only [State.stored, hdev]
  | peer d a => simp only [State.stored, hpeers]
  | curator c o => simp only [State.stored, core, h.cores]

theorem uncorrectable (h : s.SameSpaces s') (l : Loc) : s'.uncorrectable l = s.uncorrectable l := by
  obtain ⟨-, -, -, hcfg⟩ := h.stores
  have htrained : s'.trained = s.trained := by simp only [trained, cfgD, cfgW, hcfg]
  have hlink (a : Nat) : s'.linkOf a = s.linkOf a := by unfold linkOf; rw [htrained]
  cases l <;> simp only [State.uncorrectable, linkLost, hlink, h.badRows, h.mfailed]

theorem memorySame (h : s.SameSpaces s') : s.MemorySame s' := fun l => by
  simp only [byteAt, h.stored, h.uncorrectable]

/-- A group put back with its spill stack as it stood. -/
theorem setGroup (h : s.SameSpaces s') {k : Nat} {g g' : Group} (hk : s.groups.get k = some g) (hg : g'.spill = g.spill) :
    s.SameSpaces { s' with groups := s'.groups.set k g' } where
  stores := h.stores
  cores := h.cores
  badRows := h.badRows
  mfailed := h.mfailed
  tm := h.tm
  spill i := (Tab.map_get_set (by simp only [h.spill, hk, Option.map_some, hg]) i).trans (h.spill i)

/-- A team put back with its memory as it stood. -/
theorem setTeam (h : s.SameSpaces s') {t : Nat} {x x' : Team} (ht : s.teams.get t = some x) (hx : x'.tm = x.tm) :
    s.SameSpaces { s' with teams := s'.teams.set t x' } where
  stores := h.stores
  cores := h.cores
  badRows := h.badRows
  mfailed := h.mfailed
  tm i := (Tab.map_get_set (by simp only [h.tm, ht, Option.map_some, hx]) i).trans (h.tm i)
  spill := h.spill

end SameSpaces

/-! ### What follows a store at its home -/

/-- The hub's watches move no byte of memory: a group that wakes keeps its spill stack, a team its memory. -/
theorem checkWatches_sameSpaces (hg : Tab.wf s.groups = true) (ht : Tab.wf s.teams = true) (pa n : Nat) :
    s.SameSpaces (s.checkWatches pa n) := by
  unfold checkWatches
  extract_lets hit woken told
  have hwoken : s.SameSpaces woken ∧ woken.teams = s.teams := by
    refine List.foldlRecOn (motive := fun s' : State => s.SameSpaces s' ∧ s'.teams = s.teams) _ _ ⟨.refl s, rfl⟩ ?_
    rintro s' ⟨hs, hteams⟩ e he
    have wake : s.SameSpaces { s' with groups := s'.groups.set e.1 (({ e.2 with wait := none } : Group).advance 4) } :=
      hs.setGroup (Tab.get_of_mem hg he) (Group.advance_spill ..)
    split
    · split
      · exact ⟨wake, hteams⟩
      · exact ⟨hs, hteams⟩
    · split
      · exact ⟨wake, hteams⟩
      · exact ⟨hs, hteams⟩
    · exact ⟨hs, hteams⟩
  have htold : woken.SameSpaces told := by
    refine List.foldlRecOn (motive := fun s' : State => woken.SameSpaces s') _ _ (.refl woken) fun s' hs e he => ?_
    split
    · exact hs
    · exact hs.setTeam (Tab.get_of_mem (hwoken.2 ▸ ht) he) rfl
  refine List.foldlRecOn (motive := fun s' : State => s.SameSpaces s') _ _ (hwoken.1.trans htold) fun s' hs e _ => ?_
  split
  · split
    · exact ⟨hs.stores, hs.cores, hs.badRows, hs.mfailed, hs.tm, hs.spill⟩
    · exact hs
  · exact hs

/-- Sound storage has no row that a store could make correct again. -/
theorem freshRows_sound (h : s.Sound) (l : Loc) (n : Nat) : s.freshRows l n = s := by
  obtain ⟨hbad, -, hsym⟩ := h
  simp [freshRows, hbad, hsym]

/-! ### One byte -/

/-- A place where a byte can be stored: the space is there, the place lies in it, and what holds its bytes is canonical. -/
def Takes (s : State) : Loc → Prop
  | .team t _ => ∃ y, s.team t = some y ∧ y.tm.wf = true
  | .spill t i _ => ∃ g, s.group t i = some g ∧ g.spill.wf = true ∧ i < 64
  | .annex _ o => o < 2 ^ 26
  | .peer _ a => a < 2 ^ 57
  | .curator c _ => (s.core c).mem.wf = true
  | .dev _ => True

theorem Takes.real {l : Loc} (h : s.Takes l) : l.Real := by
  cases l with
  | spill t i o => obtain ⟨g, -, -, hi⟩ := h; exact hi
  | annex d o => exact h
  | peer d a => exact h
  | _ => trivial

/-- With every link up a byte goes to the memory of the team that is there. -/
theorem setByte_team (hs : s.Sound) {t : Nat} {x : Team} (hx : s.team t = some x) (o : Nat) (b : Byte) :
    s.setByte (.team t o) b = s.putTeam t { x with tm := x.tm.set o b } := by
  simp [setByte, linkLost_sound s hs, mapTeam_some s hx]

theorem setByte_spill (hs : s.Sound) {t i : Nat} {g : Group} (hg : s.group t i = some g) (o : Nat) (b : Byte) :
    s.setByte (.spill t i o) b = s.putGroup t i { g with spill := g.spill.set o b } := by
  simp [setByte, linkLost_sound s hs, mapGroup_some s hg]

theorem setByte_annex (hs : s.Sound) (d o : Nat) (b : Byte) :
    s.setByte (.annex d o) b = { s with annex := s.annex.set (2 ^ 26 * d + o) b } := by
  simp [setByte, linkLost_sound s hs]

theorem setByte_dev (hs : s.Sound) (a : Nat) (b : Byte) : s.setByte (.dev a) b = { s with dev := s.dev.set a b } := by
  simp [setByte, linkLost_sound s hs]

theorem setByte_peer (hs : s.Sound) (d a : Nat) (b : Byte) :
    s.setByte (.peer d a) b = { s with peers := s.peers.set (2 ^ 57 * d + a) b } := by
  simp [setByte, linkLost_sound s hs]

theorem setByte_curator (hs : s.Sound) (c o : Nat) (b : Byte) :
    s.setByte (.curator c o) b = s.putCore c { s.core c with mem := (s.core c).mem.set o b } := by
  simp [setByte, linkLost_sound s hs, mapCore]

theorem setByte_sound (h : s.Sound) (l : Loc) (b : Byte) : (s.setByte l b).Sound := by
  unfold setByte
  split
  · exact h
  · cases l with
    | team t o => simp only [mapTeam]; split <;> exact h
    | spill t i o => simp only [mapGroup]; split <;> exact h
    | _ => exact h

/-- Where a store can go on, it still can after a byte of it. -/
theorem Takes.setByte_plus (hs : s.Sound) {l : Loc} (hl : s.Takes l) (b : Byte) {k : Nat} (hk : s.Takes (l.plus k)) :
    (s.setByte l b).Takes (l.plus k) := by
  cases l with
  | team t o =>
    obtain ⟨x, hx, hwf⟩ := hl
    rw [setByte_team hs hx]
    exact ⟨_, team_putTeam .., Cells.set_wf hwf ..⟩
  | spill t i o =>
    obtain ⟨g, hg, hwf, hi⟩ := hl
    rw [setByte_spill hs hg]
    exact ⟨_, group_putGroup .., Cells.set_wf hwf .., hi⟩
  | curator c o =>
    rw [setByte_curator hs]
    simpa [Takes, Loc.plus] using Cells.set_wf (show (s.core c).mem.wf = true from hl) o b
  | annex d o => exact hk
  | dev a => trivial
  | peer d a => exact hk

/-- The rule of a store: the byte at its place reads as stored, every other byte of every space as before. -/
theorem stored_setByte (hw : s.StoresWf) (hs : s.Sound) {l m : Loc} (hl : s.Takes l) (hm : m.Real) (b : Byte) :
    (s.setByte l b).stored m = if m = l then b else s.stored m := by
  obtain ⟨hdev, hannex, hpeers, -⟩ := hw
  cases l with
  | team t o =>
    obtain ⟨x, hx, hwf⟩ := hl
    rw [setByte_team hs hx]
    cases m with
    | team u p =>
      by_cases hu : u = t
      · subst hu
        simp [stored, hx, Cells.get_set hwf]
      · simp [stored, team_putTeam_ne s hu, hu]
    | _ => simp [stored, group, core]
  | spill t i o =>
    obtain ⟨g, hg, hwf, hi⟩ := hl
    rw [setByte_spill hs hg]
    cases m with
    | spill u j p =>
      by_cases hu : u = t ∧ j = i
      · obtain ⟨rfl, rfl⟩ := hu
        simp [stored, hg, Cells.get_set hwf]
      · have hne : ¬(u = t ∧ j = i ∧ p = o) := fun h => hu ⟨h.1, h.2.1⟩
        have hkey : 64 * u + j ≠ 64 * t + i := group_key_ne hm hi (by omega)
        simp [stored, group_putGroup_ne s hkey, hne]
    | _ => simp [stored, team, core]
  | annex d o =>
    rw [setByte_annex hs]
    cases m with
    | annex e p =>
      have hkey : 2 ^ 26 * e + p = 2 ^ 26 * d + o ↔ e = d ∧ p = o := by
        have : o < 2 ^ 26 := hl
        have : p < 2 ^ 26 := hm
        omega
      simp only [stored, Cells.get_set hannex, hkey, Loc.annex.injEq]
    | _ => simp [stored, team, group, core]
  | dev a =>
    rw [setByte_dev hs]
    cases m with
    | dev p => simp only [stored, Cells.get_set hdev, Loc.dev.injEq]
    | _ => simp [stored, team, group, core]
  | peer d a =>
    rw [setByte_peer hs]
    cases m with
    | peer e p =>
      have hkey : 2 ^ 57 * e + p = 2 ^ 57 * d + a ↔ e = d ∧ p = a := by
        have : a < 2 ^ 57 := hl
        have : p < 2 ^ 57 := hm
        omega
      simp only [stored, Cells.get_set hpeers, hkey, Loc.peer.injEq]
    | _ => simp [stored, team, group, core]
  | curator c o =>
    have hwf : (s.core c).mem.wf = true := hl
    rw [setByte_curator hs]
    cases m with
    | curator e p =>
      by_cases he : e = c
      · subst he
        simp [stored, Cells.get_set hwf]
      · simp [stored, core_putCore_ne s he, he]
    | _ => simp [stored, team, group]

/-- The same of what a read receives. -/
theorem byteAt_setByte (hw : s.StoresWf) (hs : s.Sound) {l m : Loc} (hl : s.Takes l) (hm : m.Real) (b : Byte) :
    (s.setByte l b).byteAt m = if m = l then b else s.byteAt m := by
  rw [byteAt_sound _ (setByte_sound hs l b), byteAt_sound s hs, stored_setByte hw hs hl hm]

/-! ### The bytes of a store -/

/-- Between the states n bytes from l on were written: there the bytes of b are read, at every other place of every space what was read before. -/
def Writes (s s' : State) (l : Loc) (n : Nat) (b : Nat → Byte) : Prop :=
  (∀ k, k < n → s'.byteAt (l.plus k) = b k) ∧ ∀ m : Loc, m.Real → (∀ k, k < n → m ≠ l.plus k) → s'.byteAt m = s.byteAt m

/-- What moves no byte after a write takes nothing from it. -/
theorem Writes.memorySame {l : Loc} {n : Nat} {b : Nat → Byte} (h : s.Writes s' l n b) (k : s'.MemorySame s'') : s.Writes s'' l n b :=
  ⟨fun j hj => (k _).trans (h.1 j hj), fun m hm hne => (k m).trans (h.2 m hm hne)⟩

theorem setBytesRaw_sound (h : s.Sound) (l : Loc) (bs : List Byte) : (s.setBytesRaw l bs).Sound := by
  induction bs generalizing s l with
  | nil => exact h
  | cons b r ih => exact ih (setByte_sound h l b) _

/-- A store to device memory leaves the tables alone. -/
theorem setBytesRaw_dev_tables (h : s.Sound) (a : Nat) (bs : List Byte) :
    (s.setBytesRaw (.dev a) bs).groups = s.groups ∧ (s.setBytesRaw (.dev a) bs).teams = s.teams := by
  induction bs generalizing s a with
  | nil => exact ⟨rfl, rfl⟩
  | cons b r ih =>
    have hb := setByte_dev h a b
    obtain ⟨hg, ht⟩ := ih (setByte_sound h (.dev a) b) (a + 1)
    exact ⟨hg.trans (by rw [hb]), ht.trans (by rw [hb])⟩

/-- The plain bytes: the first at l, the rest from the place after it, which do not meet l again. -/
theorem setBytesRaw_writes (hw : s.StoresWf) (hs : s.Sound) (l : Loc) (bs : List Byte) (hl : ∀ k, k < bs.length → s.Takes (l.plus k)) :
    s.Writes (s.setBytesRaw l bs) l bs.length fun k => bs.getD k 0 := by
  induction bs generalizing s l with
  | nil => exact ⟨fun k hk => absurd hk k.not_lt_zero, fun _ _ _ => rfl⟩
  | cons b r ih =>
    have h0 : s.Takes l := l.plus_zero ▸ hl 0 (Nat.succ_pos _)
    have hnext (k : Nat) : (l.plus 1).plus k = l.plus (k + 1) := by rw [Loc.plus_plus, Nat.add_comm]
    have hrest (k : Nat) (hk : k < r.length) : (s.setByte l b).Takes ((l.plus 1).plus k) := by
      rw [hnext]; exact h0.setByte_plus hs b (hl _ (Nat.succ_lt_succ hk))
    obtain ⟨hin, hout⟩ := ih (setByte_wf s hw l b) (setByte_sound hs l b) (l.plus 1) hrest
    refine ⟨fun k hk => ?_, fun m hm hne => ?_⟩
    · cases k with
      | zero =>
        have hmiss (k : Nat) (_ : k < r.length) : l ≠ (l.plus 1).plus k := by
          rw [hnext]
          intro h
          exact absurd (Loc.plus_inj.1 (l.plus_zero.trans h)) (Nat.succ_ne_zero k).symm
        calc (s.setBytesRaw l (b :: r)).byteAt (l.plus 0)
          _ = (s.setByte l b).byteAt l := by rw [l.plus_zero]; exact hout l h0.real hmiss
          _ = b := by rw [byteAt_setByte hw hs h0 h0.real, if_pos rfl]
      | succ k => rw [← hnext]; exact hin k (Nat.lt_of_succ_lt_succ hk)
    · have hm0 : m ≠ l := l.plus_zero ▸ hne 0 (Nat.succ_pos _)
      calc (s.setBytesRaw l (b :: r)).byteAt m
        _ = (s.setByte l b).byteAt m := hout m hm fun k hk => hnext k ▸ hne (k + 1) (Nat.succ_lt_succ hk)
        _ = s.byteAt m := by rw [byteAt_setByte hw hs h0 hm, if_neg hm0]

/-- With storage sound a store at its home is its plain bytes, and at most watches besides, which move no byte. -/
theorem setBytes_sameSpaces (hs : s.Sound) (hg : Tab.wf s.groups = true) (ht : Tab.wf s.teams = true) (l : Loc) (bs : List Byte) :
    (s.setBytesRaw l bs).SameSpaces (s.setBytes l bs) := by
  unfold setBytes
  rw [freshRows_sound (setBytesRaw_sound hs l bs)]
  cases l with
  | dev a =>
    obtain ⟨hgroups, hteams⟩ := setBytesRaw_dev_tables hs a bs
    exact checkWatches_sameSpaces (hgroups ▸ hg) (hteams ▸ ht) a bs.length
  | _ => exact .refl _

/-- A store at its home writes its bytes and no other. -/
theorem setBytes_writes (hw : s.StoresWf) (hs : s.Sound) (hg : Tab.wf s.groups = true) (ht : Tab.wf s.teams = true) (l : Loc)
    (bs : List Byte) (hl : ∀ k, k < bs.length → s.Takes (l.plus k)) : s.Writes (s.setBytes l bs) l bs.length fun k => bs.getD k 0 :=
  (setBytesRaw_writes hw hs l bs hl).memorySame (setBytes_sameSpaces hs hg ht l bs).memorySame

end State

/-! ### The bytes of a number -/

theorem length_bytesOfNat (n x : Nat) : (bytesOfNat n x).length = n := by
  induction n generalizing x with
  | zero => rfl
  | succ n ih => rw [bytesOfNat, List.length_cons, ih]

/-- Byte k of a number, lowest first. -/
theorem getD_bytesOfNat {n k : Nat} (hk : k < n) (x : Nat) : (bytesOfNat n x).getD k 0 = BitVec.ofNat 8 (x / 256 ^ k) := by
  induction n generalizing x k with
  | zero => exact absurd hk k.not_lt_zero
  | succ n ih =>
    cases k with
    | zero => simp [bytesOfNat]
    | succ k => rw [bytesOfNat, List.getD_cons_succ, ih (Nat.lt_of_succ_lt_succ hk), Nat.div_div_eq_div_mul, Nat.pow_succ']

/-- A store of a number writes its bytes, lowest first, and no other. -/
theorem State.setNum_writes {s : State} (hw : s.StoresWf) (hs : s.Sound) (hg : Tab.wf s.groups = true) (ht : Tab.wf s.teams = true)
    (l : Loc) (n x : Nat) (hl : ∀ k, k < n → s.Takes (l.plus k)) :
    s.Writes (s.setNum l n x) l n fun k => BitVec.ofNat 8 (x / 256 ^ k) := by
  have hlen := length_bytesOfNat n x
  obtain ⟨hin, hout⟩ := setBytes_writes hw hs hg ht l (bytesOfNat n x) (by rwa [hlen])
  rw [hlen] at hin hout
  exact ⟨fun k hk => (hin k hk).trans (getD_bytesOfNat hk x), hout⟩

/-! ### The obligation -/

/-- Settles O15: the rule of one byte, by induction over the bytes of the store; the watches and fresh rows that follow move no byte. -/
theorem storeWritesItsBytesOnly : Obligations.StoreWritesItsBytesOnly := by
  intro s l n x bs hw hs hg ht fits writes
  have takes (n : Nat) (h : fits n) (k : Nat) (hk : k < n) : s.Takes (l.plus k) := by
    cases l with
    | annex d o => exact (Nat.add_lt_add_left hk o).trans_le h
    | peer d a => exact (Nat.add_lt_add_left hk a).trans_le h
    | _ => exact h
  exact ⟨fun h => ⟨State.setBytesRaw_writes hw hs l bs (takes _ h), State.setBytes_writes hw hs hg ht l bs (takes _ h)⟩,
    fun h => State.setNum_writes hw hs hg ht l n x (takes n h)⟩

end Sys2Proof.Machine
end

