-- ==== Sys2Proof/Proofs/Tables.lean ====
section
/-! PROOF. What stands in a table by number after a put or a removal, by membership and by a test of the keys. -/

namespace Sys2Proof.Machine

open Sys2Proof

namespace Tab

variable {α : Type} {m : Tab α} {k : Nat} {v : α}

/-- What a read gives stands in the table. -/
theorem mem_of_get (h : get m k = some v) : (k, v) ∈ m := by
  induction m with
  | nil => cases h
  | cons e r ih =>
    obtain ⟨a, u⟩ := e
    rw [get] at h
    split_ifs at h with h1 h2
    · obtain rfl := h1
      obtain rfl := Option.some.inj h
      exact List.mem_cons_self
    · exact List.mem_cons_of_mem _ (ih h)

/-- Putting back the row that stands there changes nothing. -/
theorem set_get_self (h : get m k = some v) : set m k v = m := by
  induction m with
  | nil => cases h
  | cons e r ih =>
    obtain ⟨a, u⟩ := e
    rw [get] at h
    split_ifs at h with h1 h2
    · obtain rfl := h1
      obtain rfl := Option.some.inj h
      rw [set, if_pos rfl]
    · rw [set, if_neg h1, if_neg h2, ih h]

theorem mem_set {e : Nat × α} (h : e ∈ set m k v) : e = (k, v) ∨ e ∈ m := by
  induction m with
  | nil => exact .inl (List.mem_singleton.1 h)
  | cons p r ih =>
    rw [set] at h
    split_ifs at h
    · exact (List.mem_cons.1 h).imp_right (List.mem_cons_of_mem _)
    · exact List.mem_cons.1 h
    · rcases List.mem_cons.1 h with rfl | h
      · exact .inr List.mem_cons_self
      · exact (ih h).imp_right (List.mem_cons_of_mem _)

/-- The keys rise: said of the head and the rest. -/
theorem wf_of_cons {e : Nat × α} (hk : ∀ p ∈ m, e.1 < p.1) (h : wf m = true) : wf (e :: m) = true := by
  cases m with
  | nil => rfl
  | cons p r => simpa [wf, h] using hk p List.mem_cons_self

theorem set_wf (h : wf m = true) (k : Nat) (v : α) : wf (set m k v) = true := by
  induction m with
  | nil => rfl
  | cons e r ih =>
    obtain ⟨a, u⟩ := e
    obtain ⟨ha, hr⟩ := wf_cons h
    rw [set]
    split_ifs with h1 h2
    · obtain rfl := h1
      exact wf_of_cons ha hr
    · refine wf_of_cons (fun p hp => ?_) h
      rcases List.mem_cons.1 hp with rfl | hp
      · exact h2
      · exact h2.trans (ha p hp)
    · refine wf_of_cons (fun p hp => ?_) (ih hr)
      rcases mem_set hp with rfl | hp
      · exact show a < k by omega
      · exact ha p hp

/-- A row that is removed is gone. -/
theorem get_del_same (h : wf m = true) (k : Nat) : get (del m k) k = none := by
  induction m with
  | nil => rfl
  | cons e r ih =>
    obtain ⟨a, u⟩ := e
    obtain ⟨ha, hr⟩ := wf_cons h
    rw [del]
    split_ifs with h1
    · obtain rfl := h1
      exact Option.eq_none_iff_forall_not_mem.2 fun v hv => (ha _ (mem_of_get hv)).false
    · rw [get, if_neg h1]
      split_ifs
      · rfl
      · exact ih hr

/-- A put outside the rows that a test of the keys keeps. -/
theorem filter_set_of_false {p : Nat → Bool} (hk : p k = false) : (set m k v).filter (fun e => p e.1) = m.filter fun e => p e.1 := by
  induction m with
  | nil => simp [set, hk]
  | cons e r ih =>
    obtain ⟨a, u⟩ := e
    rw [set]
    split_ifs with h1 h2
    · simp [h1, hk]
    · simp [List.filter_cons, hk]
    · simp [List.filter_cons, ih]

/-- Rows of the table have been put anew, in turn: each at the number of a row e of it, and such as ok allows after e. -/
inductive Puts (ok : Nat × α → α → Prop) (m : Tab α) : Tab α → Prop where
  | refl : Puts ok m m
  | put {m' : Tab α} {e : Nat × α} {v : α} : Puts ok m m' → e ∈ m → ok e v → Puts ok m (m'.set e.1 v)

namespace Puts

variable {ok : Nat × α → α → Prop} {m' : Tab α}

theorem wf (h : Puts ok m m') (hw : wf m = true) : Tab.wf m' = true := by
  induction h with
  | refl => exact hw
  | put _ _ _ ih => exact set_wf ih _ _

/-- A row that ok lets nothing follow is as it was. -/
theorem get_eq (h : Puts ok m m') (hw : Tab.wf m = true) (hk : get m k = some v) (hno : ∀ u, ¬ok (k, v) u) : get m' k = some v := by
  induction h with
  | refl => exact hk
  | @put _ e _ _ he hok ih =>
    have hne : k ≠ e.1 := fun heq => by
      have hv : v = e.2 := Option.some.inj (hk.symm.trans (heq ▸ get_of_mem hw he))
      rw [heq, hv] at hno
      exact hno _ hok
    rw [get_set_ne _ hne, ih]

/-- A look at the rows that each put keeps shows what it showed. -/
theorem map_get {β : Type} {f : α → β} (h : Puts ok m m') (hw : Tab.wf m = true) (hf : ∀ e u, ok e u → f u = f e.2) (k : Nat) :
    (get m' k).map f = (get m k).map f := by
  induction h with
  | refl => rfl
  | @put _ e _ _ he hok ih =>
    by_cases hk : k = e.1
    · rw [hk, get_set_same, get_of_mem hw he]
      exact congrArg some (hf _ _ hok)
    · rw [get_set_ne _ hk, ih]

/-- The rows that a test of the keys keeps are as they were where ok lets nothing follow them. -/
theorem filter_eq {p : Nat → Bool} (h : Puts ok m m') (hno : ∀ e ∈ m, p e.1 = true → ∀ u, ¬ok e u) :
    (m'.filter fun e => p e.1) = m.filter fun e => p e.1 := by
  induction h with
  | refl => rfl
  | put _ he hok ih => rw [filter_set_of_false (Bool.eq_false_iff.2 fun hp => hno _ he hp _ hok), ih]

end Puts

end Tab

end Sys2Proof.Machine
end

