-- ==== Sys2Proof/Proofs/GroupsEnd.lean ====
section
/-! PROOF. The end of a group (13 R244, 01 R34) and what follows it: the grid barrier that it may meet wakes only groups that wait there, and
the team stays while another of its groups runs, or retires with its last (01 R35). -/

namespace Sys2Proof.Machine

open Sys2Proof

theorem Group.closeWindows_idle {g : Group} (h : g.Idle) : g.closeWindows = g := by
  have hp : g.pend = [] := h
  have hid : ({ g with pend := g.pend.map fun (p : Pend) => { p with left := 0 } } : Group) = g := by
    rw [hp, List.map_nil, ← hp]
  rw [closeWindows, hid, settle_idle h]

/-- What is left of a group that has ended: its slot, registers, stack, frame and forms are gone (01 R34, 10 R197). -/
def Group.over (g : Group) : Group :=
  { g with ended := true, s := [], v := [], k := [], sh := [], rstack := [], rdepth := 0, frame := none, tags := [], scar := [], pend := [],
           infl := [], run := Run.none, spill := [], wait := none, ending := false, tailFull := false }

namespace State

variable {s : State} {t i j : Nat} {g h : Group} {x : Team} {gr : Grid}

/-! ### The groups of a team -/

theorem groupKey_div (ht : i < 64) : (64 * t + i) / 64 = t := by omega

theorem mem_groupsOf_of_group (hi : i < 64) (h : s.group t i = some g) : g ∈ s.groupsOf t :=
  List.mem_map.2 ⟨_, List.mem_filter.2 ⟨Tab.mem_of_get h, by simpa using groupKey_div hi⟩, rfl⟩

/-- Where the groups of a team have been taken out none of them is found. -/
theorem get_groups_others (m : Tab Group) (hi : i < 64) : Tab.get (m.filter fun e => e.1 / 64 != t) (64 * t + i) = none :=
  Option.eq_none_iff_forall_not_mem.2 fun g hg => by
    have := (List.mem_filter.1 (Tab.mem_of_get hg)).2
    simp [groupKey_div hi] at this

/-- Where the one group of a team has been put, the team's groups are that. -/
theorem groupsOf_putGroup_only (hw : Tab.wf s.groups = true) (hi : i < 64) (hg : s.group t i = some g) (ho : s.groupsOf t = [g])
    (g' : Group) : ∀ h ∈ (s.putGroup t i g').groupsOf t, h = g' := by
  intro h hh
  obtain ⟨e, he, rfl⟩ := List.mem_map.1 hh
  obtain ⟨hmem, hkey⟩ := List.mem_filter.1 he
  rcases Tab.mem_set hmem with rfl | hold
  · rfl
  · obtain ⟨q, hq, -⟩ := List.map_eq_singleton_iff.1 ho
    have hin : (64 * t + i, g) ∈ s.groups.filter fun e => e.1 / 64 == t :=
      List.mem_filter.2 ⟨Tab.mem_of_get hg, by simpa using groupKey_div hi⟩
    have heq : e = (64 * t + i, g) := by
      have h1 := hq ▸ List.mem_filter.2 ⟨hold, hkey⟩
      have h2 := hq ▸ hin
      rw [List.mem_singleton.1 h1, List.mem_singleton.1 h2]
    have hget := Tab.get_of_mem (Tab.set_wf hw _ _) hmem
    rw [heq, Tab.get_set_same] at hget
    rw [heq]
    exact (Option.some.inj hget).symm

/-! ### The grid barrier -/

/-- Only the groups differ after a barrier has been looked at. -/
theorem barrierCheck_sameButGroups (s : State) (n : Nat) : s.SameButGroups (s.barrierCheck n) := by
  unfold barrierCheck
  refine List.foldlRecOn (motive := fun s' : State => s.SameButGroups s') _ _ rfl fun s' ih e _ => ?_
  have hput (m : Tab Group) : s.SameButGroups { s' with groups := m } := by rw [ih]; rfl
  split
  · split
    · exact hput _
    · exact ih
  · exact ih

/-- The groups put anew had waited. -/
theorem barrierCheck_puts (s : State) (n : Nat) : Tab.Puts (fun e _ => e.2.wait ≠ none) s.groups (s.barrierCheck n).groups := by
  unfold barrierCheck
  refine List.foldlRecOn (motive := fun s' : State => Tab.Puts _ s.groups s'.groups) _ _ .refl fun s' ih e he => ?_
  split
  · next hw =>
    split
    · exact ih.put he (by simp [hw])
    · exact ih
  · exact ih

/-- A group that does not wait is as it was. -/
theorem barrierCheck_awake (hw : Tab.wf s.groups = true) (hg : s.group t i = some g) (ha : g.wait = none) (n : Nat) :
    (s.barrierCheck n).group t i = some g :=
  (barrierCheck_puts s n).get_eq hw hg fun _ h => h ha

/-- So are the groups of a team of which none waits. -/
theorem barrierCheck_groupsOf (ha : ∀ h ∈ s.groupsOf t, h.wait = none) (n : Nat) : (s.barrierCheck n).groupsOf t = s.groupsOf t :=
  congrArg (List.map Prod.snd) ((barrierCheck_puts s n).filter_eq (p := fun k => k / 64 == t) fun e he hk _ hwait =>
    hwait (ha _ (List.mem_map.2 ⟨e, List.mem_filter.2 ⟨he, hk⟩, rfl⟩)))

/-! ### Retirement -/

theorem releaseAcc_cores (s : State) (t c : Nat) : s.releaseAcc t c = { s with cores := (s.releaseAcc t c).cores } := by
  unfold releaseAcc
  extract_lets x keep
  split <;> rfl

/-- A fold of steps that touch the cores only touches the cores only. -/
theorem foldl_cores {α : Type} {f : State → α → State} (hf : ∀ s a, f s a = { s with cores := (f s a).cores }) (s : State) (l : List α) :
    l.foldl f s = { s with cores := (l.foldl f s).cores } := by
  refine List.foldlRecOn (motive := fun s' : State => s' = { s with cores := s'.cores }) l f rfl fun s' ih a _ => ?_
  rw [hf, ih]

theorem dropErrs_eq (s : State) (gone : Row → Bool) :
    s.dropErrs gone = { s with symErrs := (s.dropErrs gone).symErrs, badRows := (s.dropErrs gone).badRows } := by
  unfold dropErrs
  split <;> rfl

theorem retire_stores (s : State) (t : Nat) : s.SameStores (s.retire t) := by
  unfold retire
  split
  · exact .refl s
  · simp only
    rw [foldl_cores fun s c => releaseAcc_cores s t c, dropErrs_eq]
    split <;> exact ⟨rfl, rfl, rfl, rfl⟩

/-- A team that retires is gone with its groups, and its grid counts it (01 R35). -/
theorem retire_gone (hx : s.team t = some x) (hgr : s.grid x.grid = some gr) (hw : Tab.wf s.teams = true) :
    (s.retire t).team t = none ∧ (∀ i, i < 64 → (s.retire t).group t i = none) ∧ (s.retire t).groupsOf t = [] ∧
      (s.retire t).grid x.grid = some { gr with retired := gr.retired + 1 } := by
  unfold retire
  simp only [hx]
  rw [foldl_cores fun s c => releaseAcc_cores s t c, dropErrs_eq]
  have hgr' : s.grids.get x.grid = some gr := hgr
  simp only [grid, hgr']
  exact ⟨Tab.get_del_same hw t, fun i hi => get_groups_others s.groups hi, by simp [groupsOf, List.filter_filter], Tab.get_set_same ..⟩

/-- Of a team that is not killed tracker entries may go; it retires once its groups have ended and none of them is left (01 R34, R35). -/
theorem retireCheck_eq (hx : s.team t = some x) (hk : x.killing = false) : ∃ l, (∀ e ∈ l, e ∈ s.trackers) ∧
    s.retireCheck t = if (s.groupsOf t).all (·.ended) && !(l.any fun e => e.tid == t) then ({ s with trackers := l } : State).retire t
      else { s with trackers := l } := by
  unfold retireCheck
  simp only [hx]
  rw [hk]
  exact ⟨_, fun e he => (List.mem_filter.1 he).1, rfl⟩

theorem retireCheck_stores (hx : s.team t = some x) (hk : x.killing = false) : s.SameStores (s.retireCheck t) := by
  obtain ⟨l, -, h⟩ := retireCheck_eq hx hk
  rw [h]
  split
  · exact retire_stores { s with trackers := l } t
  · exact ⟨rfl, rfl, rfl, rfl⟩

/-- A team of which a group still runs stays. -/
theorem retireCheck_running (hx : s.team t = some x) (hk : x.killing = false) (hh : h ∈ s.groupsOf t) (he : h.ended = false) :
    ∃ l, s.retireCheck t = { s with trackers := l } := by
  obtain ⟨l, -, heq⟩ := retireCheck_eq hx hk
  have hsome : (s.groupsOf t).all (·.ended) = false := List.all_eq_false.2 ⟨h, hh, by simp [he]⟩
  exact ⟨l, by simp [heq, hsome]⟩

/-- A team whose groups have ended and that holds no tracker entry retires (01 R35). -/
theorem retireCheck_ended (hx : s.team t = some x) (hk : x.killing = false) (hall : ∀ h ∈ s.groupsOf t, h.ended = true)
    (htr : ∀ e ∈ s.trackers, e.tid ≠ t) : ∃ l, s.retireCheck t = ({ s with trackers := l } : State).retire t := by
  obtain ⟨l, hl, heq⟩ := retireCheck_eq hx hk
  have hended : (s.groupsOf t).all (·.ended) = true := List.all_eq_true.2 hall
  have hnone : l.any (fun e => e.tid == t) = false := List.any_eq_false.2 fun e he => by simpa using htr e (hl e he)
  exact ⟨l, by simp [heq, hended, hnone]⟩

/-! ### What follows the end of a group -/

theorem barrierCheck_stores (s : State) (n : Nat) : s.SameStores (s.barrierCheck n) := by
  rw [show s.barrierCheck n = _ from barrierCheck_sameButGroups s n]
  exact ⟨rfl, rfl, rfl, rfl⟩

theorem checkDeadlock_stores (s : State) (t : Nat) : s.SameStores (s.checkDeadlock t) := by
  unfold checkDeadlock
  split
  · simp only
    split
    · exact (draw_stores s).trans (raiseGroup_stores ..)
    · exact draw_stores s
  · exact .refl s

/-- A team of which a group runs on is not deadlocked (01 R40). -/
theorem checkDeadlock_running (hh : h ∈ s.groupsOf t) (he : h.ended = false) (hw : h.wait = none) : s.checkDeadlock t = s := by
  have hd : s.deadlocked t = false := by
    have hin : h ∈ (s.groupsOf t).filter fun g => !g.ended := List.mem_filter.2 ⟨hh, by simp [he]⟩
    unfold deadlocked
    simp only
    rw [List.all_eq_false.2 ⟨h, hin, by simp [hw]⟩]
    simp
  rw [checkDeadlock, hd]
  rfl

theorem checkDeadlock_gone (hg : s.groupsOf t = []) : s.checkDeadlock t = s := by
  have hd : s.deadlocked t = false := by simp [deadlocked, hg]
  rw [checkDeadlock, hd]
  rfl

/-- A team that assembles nothing has no dead assembly to report. -/
theorem tidyTeam_whole (hx : s.team t = some x) (ha : x.asms = []) : s.tidyTeam t = (s.barrierCheck x.grid).retireCheck t := by
  have hdead : s.reportDead t = s := by simp [reportDead, deadAssemblies, hx, ha, sortOn]
  rw [tidyTeam, hdead]
  simp only [hx]

theorem settleTeam_stores (hx : s.team t = some x) (hk : x.killing = false) (ha : x.asms = []) : s.SameStores (s.settleTeam t) := by
  have hbx : (s.barrierCheck x.grid).team t = some x := by rw [barrierCheck_sameButGroups s x.grid]; exact hx
  rw [settleTeam, tidyTeam_whole hx ha]
  exact ((barrierCheck_stores s _).trans (retireCheck_stores hbx hk)).trans (checkDeadlock_stores _ t)

/-- While a group of the team runs, the end of another leaves the team and every group that does not wait. -/
theorem settleTeam_running (hw : Tab.wf s.groups = true) (hx : s.team t = some x) (hk : x.killing = false) (ha : x.asms = [])
    (hj : j < 64) (hh : s.group t j = some h) (he : h.ended = false) (hwait : h.wait = none) :
    (s.settleTeam t).team t = some x ∧ ∀ u i g, s.group u i = some g → g.wait = none → (s.settleTeam t).group u i = some g := by
  have hb := barrierCheck_sameButGroups s x.grid
  have hbx : (s.barrierCheck x.grid).team t = some x := by rw [hb]; exact hx
  have hbh := mem_groupsOf_of_group hj (barrierCheck_awake hw hh hwait x.grid)
  obtain ⟨l, hr⟩ := retireCheck_running hbx hk hbh he
  have hrh : h ∈ ((s.barrierCheck x.grid).retireCheck t).groupsOf t := by rw [hr]; exact hbh
  rw [settleTeam, tidyTeam_whole hx ha, checkDeadlock_running hrh he hwait, hr]
  exact ⟨hbx, fun u i g hg hgw => barrierCheck_awake hw hg hgw x.grid⟩

/-- With its groups ended and no tracker entry the team retires. -/
theorem settleTeam_ended (hw : Tab.wf s.teams = true) (hx : s.team t = some x) (hk : x.killing = false) (ha : x.asms = [])
    (hgr : s.grid x.grid = some gr) (hall : ∀ h ∈ s.groupsOf t, h.ended = true ∧ h.wait = none) (htr : ∀ e ∈ s.trackers, e.tid ≠ t) :
    (s.settleTeam t).team t = none ∧ (∀ i, i < 64 → (s.settleTeam t).group t i = none) ∧
      (s.settleTeam t).grid x.grid = some { gr with retired := gr.retired + 1 } := by
  have hb := barrierCheck_sameButGroups s x.grid
  have hbg := barrierCheck_groupsOf (fun h hh => (hall h hh).2) x.grid
  obtain ⟨l, hr⟩ := retireCheck_ended (s := s.barrierCheck x.grid) (t := t) (x := x) (by rw [hb]; exact hx) hk
    (by rw [hbg]; exact fun h hh => (hall h hh).1) (by rw [hb]; exact htr)
  obtain ⟨hteam, hgroup, hnone, hgrid⟩ := retire_gone (s := { s.barrierCheck x.grid with trackers := l }) (t := t) (x := x) (gr := gr)
    (by rw [hb]; exact hx) (by rw [hb]; exact hgr) (by rw [hb]; exact hw)
  rw [settleTeam, tidyTeam_whole hx ha, hr, checkDeadlock_gone hnone]
  exact ⟨hteam, hgroup, hgrid⟩

/-! ### exit and tail -/

/-- With no result on its way and no open matrix operation a group begins to end at once. -/
theorem beginEnd_idle (hg : s.group t i = some g) (hi : g.Idle) (ho : g.opens = []) :
    s.beginEnd t i g = s.putGroup t i { g with ending := true } := by
  unfold beginEnd
  split
  · next he =>
    have hself : ({ g with ending := true } : Group) = g := by rw [← he]
    rw [hself, putGroup, Tab.set_get_self hg]
  · simp [ho, mapGroup_some s hg, Group.closeWindows_idle hi]

/-- A group of a grid that answers no faults ends: what is left of it stands in its row, and its team settles. -/
theorem endGroup_plain (hg : s.group t i = some g) (hx : s.team t = some x) (hgr : s.grid x.grid = some gr) (hn : gr.handler = none) :
    ∃ ops, s.endGroup t i = (({ s with ops := ops } : State).putGroup t i g.over).settleTeam t := by
  have hv : s.noteVerdicts t g = s := by simp [noteVerdicts, hx, hgr, hn]
  unfold endGroup
  simp only [hg, hv]
  exact ⟨_, rfl⟩

/-- exit and tail of a group with nothing outstanding: it ends in this step. -/
theorem exit_tail_end (hs : s.Issuer t i g) (hi : g.Idle) (ho : g.opens = []) (hops : s.opsBy t i = []) (hm : s.heldByMxa t g = false) :
    ∀ ins ∈ [Instr.exit, Instr.tail], exec ins s = .next ((s.putGroup t i { g with ending := true }).endGroup t i) := by
  have hb := beginEnd_idle hs.here hi ho
  have hmay : g.mayBegin = true := by simp [Group.mayBegin, ho]
  have hops' : (s.putGroup t i { g with ending := true }).opsBy t i = [] := hops
  have hm' : (s.putGroup t i { g with ending := true }).heldByMxa t g = false := hm
  have hland : landed ({ g with ending := true } : Group) = true := by
    have hp : g.pend = [] := hi
    simp [landed, hp]
  have hexit : exec .exit s = execExit s := rfl
  have htail : exec .tail s = execTail s := rfl
  simp only [List.mem_cons, List.not_mem_nil, or_false, forall_eq_or_imp, forall_eq]
  constructor
  · rw [hexit, execExit, byGroup_group hs]
    simp [hmay, hb, hops', hm']
  · rw [htail, execTail, byGroup_group hs]
    simp [hmay, hb, hops', hm', hland]

/-- The same to the end: what is left of the group stands in its row, and its team settles. -/
theorem exit_tail_settle (hs : s.Issuer t i g) (hx : s.team t = some x) (hgr : s.grid x.grid = some gr) (hn : gr.handler = none)
    (hi : g.Idle) (ho : g.opens = []) (hops : s.opsBy t i = []) (hm : s.heldByMxa t g = false) :
    ∀ ins ∈ [Instr.exit, Instr.tail], ∃ ops, exec ins s = .next ((({ s with ops := ops } : State).putGroup t i g.over).settleTeam t) := by
  intro ins hins
  obtain ⟨ops, hend⟩ := endGroup_plain (group_putGroup s t i { g with ending := true }) hx hgr hn
  refine ⟨ops, (exit_tail_end hs hi ho hops hm ins hins).trans ?_⟩
  rw [hend]
  exact congrArg (fun u : State => Host.Outcome.next (u.settleTeam t)) (putGroup_putGroup { s with ops := ops } t i _ _)

end State

/-- Settles O37: exit and tail end their group in one step; whether its team then stays or retires turns on whether another of its groups
runs. -/
theorem groupsEnd : Obligations.GroupsEnd := by
  intro s t i g x gr hs hx hgr hn hi hidx hidle ho hops hm hk ha ins hins
  obtain ⟨ops, hexec⟩ := State.exit_tail_settle hs hx hgr hn hidle ho hops hm ins hins
  obtain ⟨hdev, hannex, -, -⟩ := State.settleTeam_stores (s := ({ s with ops := ops } : State).putGroup t i g.over) hx hk ha
  refine ⟨_, hexec, hdev, hannex, fun j h hj hne hh he hwait hw => ?_, fun honly htr hw hwt => ?_⟩
  · have hh' : (({ s with ops := ops } : State).putGroup t i g.over).group t j = some h :=
      (State.group_putGroup_ne _ (State.group_key_ne hj hi (.inr hne)) _).trans hh
    obtain ⟨hteam, hgroups⟩ := State.settleTeam_running (s := ({ s with ops := ops } : State).putGroup t i g.over)
      (Tab.set_wf hw _ _) hx hk ha hj hh' he hwait
    exact ⟨g.over, hgroups t i _ (State.group_putGroup ..) rfl, rfl, rfl, rfl, rfl, rfl, rfl, hgroups t j h hh' hwait, x, hteam⟩
  · have hall := State.groupsOf_putGroup_only (s := { s with ops := ops }) hw hi hs.here honly g.over
    obtain ⟨hteam, hgroup, hgrid⟩ := State.settleTeam_ended (s := ({ s with ops := ops } : State).putGroup t i g.over) (t := t) (x := x)
      (gr := gr) hwt hx hk ha hgr (fun h hh => by rw [hall h hh]; exact ⟨rfl, rfl⟩) htr
    exact ⟨hgroup i hi, hteam, hgrid⟩

end Sys2Proof.Machine
end

