-- ==== Sys2Proof/Proofs/HubStores.lean ====
section
/-! PROOF. What a store of the hub to the annex or to device memory does: its bytes, and at device memory the watches, which wake groups that
wait, mark symbols and let dependent grids go (08 R166). -/

namespace Sys2Proof.Machine

open Sys2Proof

/-! ### Numbers and their bytes -/

theorem natOfBytes_bytesOfNat (n x : Nat) : natOfBytes (bytesOfNat n x) = x % 256 ^ n := by
  induction n generalizing x with
  | zero => simp [bytesOfNat, natOfBytes, Nat.mod_one]
  | succ n ih =>
    rw [bytesOfNat, natOfBytes, ih, Nat.pow_succ', Nat.mod_mul]
    simp

namespace State

variable {s : State}

/-- Bytes that read one by one as a list read as that list. -/
theorem bytesAt_of_byteAt {l : Loc} {bs : List Byte} (h : ∀ k, k < bs.length → s.byteAt (l.plus k) = bs.getD k 0) :
    s.bytesAt l bs.length = bs := by
  induction bs generalizing l with
  | nil => rfl
  | cons b r ih =>
    have h0 := h 0 (Nat.succ_pos _)
    rw [l.plus_zero] at h0
    rw [List.length_cons, bytesAt, h0, ih fun k hk => ?_]
    · rfl
    · rw [l.plus_plus, Nat.add_comm 1 k]
      exact h (k + 1) (Nat.succ_lt_succ hk)

/-- A word whose four bytes are a number's reads as the number. -/
theorem wordAt_of_byteAt {l : Loc} {x : Nat} (h : ∀ k, k < 4 → s.byteAt (l.plus k) = (bytesOfNat 4 x).getD k 0) :
    s.wordAt l = BitVec.ofNat 32 x := by
  have hb : s.bytesAt l 4 = bytesOfNat 4 x := bytesAt_of_byteAt (bs := bytesOfNat 4 x) (by rwa [length_bytesOfNat])
  rw [wordAt, numAt, hb, natOfBytes_bytesOfNat]
  exact BitVec.eq_of_toNat_eq (by simp)

/-! ### The plain bytes -/

theorem setBytesRaw_annex_eq (s : State) (d o : Nat) (bs : List Byte) :
    s.setBytesRaw (.annex d o) bs = { s with annex := (s.setBytesRaw (.annex d o) bs).annex } := by
  induction bs generalizing s o with
  | nil => rfl
  | cons b r ih =>
    have hb : s.setByte (.annex d o) b = { s with annex := (s.setByte (.annex d o) b).annex } := by
      unfold setByte
      split <;> rfl
    rw [setBytesRaw, hb]
    exact ih _ _

theorem setBytesRaw_dev_eq (s : State) (a : Nat) (bs : List Byte) :
    s.setBytesRaw (.dev a) bs = { s with dev := (s.setBytesRaw (.dev a) bs).dev } := by
  induction bs generalizing s a with
  | nil => rfl
  | cons b r ih =>
    have hb : s.setByte (.dev a) b = { s with dev := (s.setByte (.dev a) b).dev } := by
      unfold setByte
      split <;> rfl
    rw [setBytesRaw, hb]
    exact ih _ _

/-- With every link up the annex takes every byte. -/
theorem setBytesRaw_annex (hs : s.Sound) (d o : Nat) (bs : List Byte) :
    s.setBytesRaw (.annex d o) bs = { s with annex := s.annex.setSlice (2 ^ 26 * d + o) bs } := by
  induction bs generalizing s o with
  | nil => rfl
  | cons b r ih => rw [setBytesRaw, setByte_annex hs]; exact ih (s := { s with annex := s.annex.set (2 ^ 26 * d + o) b }) hs (o + 1)

theorem setBytesRaw_dev (hs : s.Sound) (a : Nat) (bs : List Byte) :
    s.setBytesRaw (.dev a) bs = { s with dev := s.dev.setSlice a bs } := by
  induction bs generalizing s a with
  | nil => rfl
  | cons b r ih => rw [setBytesRaw, setByte_dev hs]; exact ih (s := { s with dev := s.dev.set a b }) hs (a + 1)

theorem freshRows_eq (s : State) (l : Loc) (n : Nat) :
    s.freshRows l n = { s with badRows := (s.freshRows l n).badRows, symErrs := (s.freshRows l n).symErrs } := by
  unfold freshRows
  split <;> rfl

/-! ### The watches -/

/-- Nothing but groups, teams and grids differs. -/
def SameButWatchers (s s' : State) : Prop := s' = { s with groups := s'.groups, teams := s'.teams, grids := s'.grids }

/-- What the watches of a store do: groups that wait wake, symbols of teams that have any are marked, and grids are put anew. -/
structure Watched (s s' : State) : Prop where
  only : s.SameButWatchers s'
  groups : Tab.Puts (fun e _ => e.2.wait ≠ none) s.groups s'.groups
  teams : Tab.Puts (fun e x => e.2.syms ≠ [] ∧ ∃ y, x = { e.2 with syms := y }) s.teams s'.teams
  grids : Tab.Puts (fun _ _ => True) s.grids s'.grids

theorem Watched.refl (s : State) : s.Watched s := ⟨rfl, .refl, .refl, .refl⟩

theorem SameButWatchers.put {s' : State} (h : s.SameButWatchers s') (a : Tab Group) (b : Tab Team) (c : Tab Grid) :
    s.SameButWatchers { s' with groups := a, teams := b, grids := c } := by
  rw [SameButWatchers] at h
  rw [h]
  rfl

/-- The watches of a store, in their order: groups that wait, symbols, then grids that wait. -/
theorem checkWatches_watched (s : State) (pa n : Nat) : s.Watched (s.checkWatches pa n) := by
  unfold checkWatches
  extract_lets hit woken told
  have hwoken : s.Watched woken ∧ woken.teams = s.teams ∧ woken.grids = s.grids := by
    refine List.foldlRecOn (motive := fun s' : State => s.Watched s' ∧ s'.teams = s.teams ∧ s'.grids = s.grids) _ _
      ⟨.refl s, rfl, rfl⟩ ?_
    rintro s' ⟨h, hteams, hgrids⟩ e he
    have wake (hw : e.2.wait ≠ none) (g : Group) : s.Watched { s' with groups := s'.groups.set e.1 g } :=
      ⟨h.only.put _ _ _, h.groups.put he hw, h.teams, h.grids⟩
    split
    · next hw =>
      split
      · exact ⟨wake (by simp [hw]) _, hteams, hgrids⟩
      · exact ⟨h, hteams, hgrids⟩
    · next hw =>
      split
      · exact ⟨wake (by simp [hw]) _, hteams, hgrids⟩
      · exact ⟨h, hteams, hgrids⟩
    · exact ⟨h, hteams, hgrids⟩
  have htold : s.Watched told ∧ told.grids = s.grids := by
    refine List.foldlRecOn (motive := fun s' : State => s.Watched s' ∧ s'.grids = s.grids) _ _ ⟨hwoken.1, hwoken.2.2⟩ ?_
    rintro s' ⟨h, hgrids⟩ e he
    split
    · exact ⟨h, hgrids⟩
    · next hsyms =>
      exact ⟨⟨h.only.put _ _ _, h.groups, h.teams.put (hwoken.2.1 ▸ he) ⟨by simpa using hsyms, _, rfl⟩, h.grids⟩, hgrids⟩
  refine List.foldlRecOn (motive := fun s' : State => s.Watched s') _ _ htold.1 fun s' h e he => ?_
  split
  · split
    · exact ⟨h.only.put _ _ _, h.groups, h.teams, h.grids.put (htold.2 ▸ he) trivial⟩
    · exact h
  · exact h

/-! ### The stores -/

theorem setBytes_annex_eq (s : State) (d o : Nat) (bs : List Byte) : ∃ m rows errs,
    s.setBytes (.annex d o) bs = { s with annex := m, badRows := rows, symErrs := errs } := by
  unfold setBytes
  rw [setBytesRaw_annex_eq, freshRows_eq]
  exact ⟨_, _, _, rfl⟩

theorem setBytes_dev_watched (s : State) (a : Nat) (bs : List Byte) : ∃ m rows errs,
    ({ s with dev := m, badRows := rows, symErrs := errs } : State).Watched (s.setBytes (.dev a) bs) := by
  unfold setBytes
  rw [setBytesRaw_dev_eq, freshRows_eq]
  exact ⟨_, _, _, checkWatches_watched _ a bs.length⟩

/-- With storage sound the annex takes the bytes of a number, and nothing else changes. -/
theorem setNum_annex (hs : s.Sound) (d o n x : Nat) :
    s.setNum (.annex d o) n x = { s with annex := s.annex.setSlice (2 ^ 26 * d + o) (bytesOfNat n x) } := by
  unfold setNum setBytes
  rw [setBytesRaw_annex hs]
  exact freshRows_sound (s := { s with annex := s.annex.setSlice (2 ^ 26 * d + o) (bytesOfNat n x) }) hs _ _

/-- Device memory does too, and the watches follow. -/
theorem setNum_dev (hs : s.Sound) (a n x : Nat) :
    ({ s with dev := s.dev.setSlice a (bytesOfNat n x) } : State).Watched (s.setNum (.dev a) n x) := by
  unfold setNum setBytes
  rw [setBytesRaw_dev hs, freshRows_sound (s := { s with dev := s.dev.setSlice a (bytesOfNat n x) }) hs]
  exact checkWatches_watched _ a _

theorem SameButWatchers.sound {s' : State} (h : s.SameButWatchers s') (hs : s.Sound) : s'.Sound := by
  rw [show s' = _ from h]
  exact hs

theorem SameButWatchers.stores {s' : State} (h : s.SameButWatchers s') : s.SameStores s' := by
  rw [show s' = _ from h]
  exact ⟨rfl, rfl, rfl, rfl⟩

/-- A word of sound storage reads as its four stored bytes. -/
theorem wordAt_of_stored (hs : s.Sound) {l : Loc} {x : Nat} (h : ∀ k, k < 4 → s.stored (l.plus k) = (bytesOfNat 4 x).getD k 0) :
    s.wordAt l = BitVec.ofNat 32 x :=
  wordAt_of_byteAt fun k hk => (byteAt_sound s hs _).trans (h k hk)

end State

/-- A slice that was written reads as its values. -/
theorem Cells.get_setSlice_bytes {m : Memory} (hm : m.wf = true) (a x : Nat) {k : Nat} (hk : k < 4) :
    (m.setSlice a (bytesOfNat 4 x)).get (a + k) = (bytesOfNat 4 x).getD k 0 := by
  have hlen : k < (bytesOfNat 4 x).length := by rwa [length_bytesOfNat]
  rw [Cells.get_setSlice_in hm a _ k hlen, List.getD_eq_getElem _ _ hlen]

namespace State

variable {s : State}

theorem wordAt_annex (hs : s.Sound) {m : Memory} (hm : m.wf = true) {d o x : Nat}
    (h : s.annex = m.setSlice (2 ^ 26 * d + o) (bytesOfNat 4 x)) : s.wordAt (.annex d o) = BitVec.ofNat 32 x :=
  wordAt_of_stored hs fun k hk => by
    rw [Loc.plus, stored, h, ← Nat.add_assoc, Cells.get_setSlice_bytes hm _ _ hk]

theorem wordAt_dev (hs : s.Sound) {m : Memory} (hm : m.wf = true) {a x : Nat} (h : s.dev = m.setSlice a (bytesOfNat 4 x)) :
    s.wordAt (.dev a) = BitVec.ofNat 32 x :=
  wordAt_of_stored hs fun k hk => by rw [Loc.plus, stored, h, Cells.get_setSlice_bytes hm _ _ hk]

end State

end Sys2Proof.Machine
end

