-- ==== Sys2Proof/Proofs/TeamSeats.lean ====
section
/-! PROOF. What leaves every team where it is: its number, grid, linear id and core, and the list of saved teams. Of that kind are halts,
machine checks, stores to memory, levels and waits, and so all that a save or a load does beside unloading and placing its team
(22 R354, R357). -/

namespace Sys2Proof.Machine

open Sys2Proof

/-- Grid, linear id and core of a team. -/
def Team.seat (x : Team) : Nat × Nat × Nat := (x.grid, x.id, x.core)

namespace State

variable {s s' s'' : State}

/-- The same teams are resident, each where it was, and the same teams are saved. -/
structure SameSeats (s s' : State) : Prop where
  saved : s'.saved = s.saved
  seat : ∀ t, (s'.team t).map Team.seat = (s.team t).map Team.seat
  wf : Tab.wf s.teams = true → Tab.wf s'.teams = true

namespace SameSeats

theorem refl (s : State) : s.SameSeats s := ⟨rfl, fun _ => rfl, id⟩

theorem trans (h : s.SameSeats s') (k : s'.SameSeats s'') : s.SameSeats s'' :=
  ⟨k.saved.trans h.saved, fun t => (k.seat t).trans (h.seat t), fun hw => k.wf (h.wf hw)⟩

/-- The tables of teams and of saved teams are untouched. -/
theorem of_eq (hteams : s'.teams = s.teams) (hsaved : s'.saved = s.saved) : s.SameSeats s' :=
  ⟨hsaved, fun t => by rw [team, team, hteams], fun hw => hteams ▸ hw⟩

theorem foldl {α : Type} {f : State → α → State} (hf : ∀ (s : State) a, s.SameSeats (f s a)) (h : s.SameSeats s') (l : List α) :
    s.SameSeats (l.foldl f s') :=
  List.foldlRecOn (motive := fun u : State => s.SameSeats u) l f h fun u ih a _ => ih.trans (hf u a)

/-- A team that stands there still does, with the same grid, id and core. -/
theorem team_some (h : s.SameSeats s') {t : Nat} {x : Team} (hx : s.team t = some x) : ∃ x', s'.team t = some x' ∧ x'.seat = x.seat := by
  have := h.seat t
  rw [hx, Option.map_some, Option.map_eq_some_iff] at this
  exact this

end SameSeats

variable (s)

/-! ### One team or group -/

theorem putTeam_seats {t : Nat} {x y : Team} (hx : s.team t = some x) (hy : y.seat = x.seat) : s.SameSeats (s.putTeam t y) :=
  ⟨rfl, fun u => Tab.map_get_set (f := Team.seat) (by rw [show s.teams.get t = some x from hx, Option.map_some, hy]) u,
    fun hw => Tab.set_wf hw _ _⟩

theorem mapTeam_seats (t : Nat) {f : Team → Team} (hf : ∀ x, (f x).seat = x.seat) : s.SameSeats (s.mapTeam t f) := by
  unfold mapTeam
  split
  · next x hx => exact putTeam_seats s hx (hf x)
  · exact .refl s

theorem mapGroup_seats (t i : Nat) (f : Group → Group) : s.SameSeats (s.mapGroup t i f) := by
  unfold mapGroup
  split
  · exact .of_eq rfl rfl
  · exact .refl s

theorem sameButGroups_seats (h : s.SameButGroups s') : s.SameSeats s' := by
  rw [show s' = _ from h]
  exact .of_eq rfl rfl

/-! ### Halts and machine checks -/

theorem sfuWrite_seats (h : Nat) : s.SameSeats (s.sfuWrite h) := by
  unfold sfuWrite
  split
  · split
    · simp only
      split
      · exact .of_eq rfl rfl
      · exact .of_eq rfl rfl
    · exact .of_eq rfl rfl
    · exact .refl s
  · exact .refl s

theorem pauseTeam_seats (t : Nat) (self : Option Nat) : s.SameSeats (s.pauseTeam t self) := by
  unfold pauseTeam
  split
  · exact .refl s
  · next x hx =>
    split
    · split
      · exact mapGroup_seats ..
      · exact .refl s
    · refine .foldl (fun s g => ?_) (putTeam_seats s (y := { x with halted := true }) hx rfl) _
      have hdraw : s.SameSeats s.draw.2 := .of_eq rfl rfl
      have hmap := hdraw.trans (mapGroup_seats s.draw.2 t g.idx fun h => { h with
        skid := 0, skidMax := if !g.ended && g.wait.isNone && self != some g.idx then Config.skid s.draw.1 % 7 else 0 })
      simp only
      split
      · exact hmap
      · exact .foldl sfuWrite_seats hmap _

theorem haltTeam_seats (t : Nat) (self : Option Nat) : s.SameSeats (s.haltTeam t self) := by
  rw [haltTeam]
  refine (pauseTeam_seats s t self).trans ?_
  unfold keepHalted
  split
  · exact .of_eq rfl rfl
  · exact .refl _

theorem msix_seats (v : Nat) : s.SameSeats (s.msix v) := by
  unfold msix
  split <;> exact .of_eq rfl rfl

theorem setCfgW_seats (a b c : Nat) (v : Word) : s.SameSeats (s.setCfgW a b c v) := .of_eq rfl rfl

theorem machineCheck_seats (m : Mc) : s.SameSeats (s.machineCheck m) := by
  unfold machineCheck
  extract_lets n x logged counted p pended
  have hlogged : s.SameSeats logged := .foldl (fun u i => setCfgW_seats u _ _ _ _) (.refl s) _
  have hcounted : s.SameSeats counted := hlogged.trans (setCfgW_seats logged _ _ _ _)
  have hpended : s.SameSeats pended := by
    simp only [pended]
    split
    · exact hcounted
    · exact hcounted.trans (setCfgW_seats counted _ _ _ _)
  exact hpended.trans (msix_seats pended 1)

theorem raiseCurator_seats (c code : Nat) : s.SameSeats (s.raiseCurator c code) :=
  SameSeats.trans (s' := s.mapCore c fun x => { x with stopped := true }) (.of_eq rfl rfl) (machineCheck_seats ..)

theorem readBad_seats (source faddr core : Nat) (row : Option Row) (who : Option (Nat × Option Nat)) :
    s.SameSeats (s.readBad source faddr core row who) := by
  unfold readBad
  simp only
  split
  · exact (machineCheck_seats ..).trans (haltTeam_seats ..)
  · exact (machineCheck_seats ..).trans (raiseCurator_seats ..)

theorem noteRead_seats (l : Loc) (n core : Nat) (who : Option (Nat × Option Nat)) : s.SameSeats (s.noteRead l n core who) := by
  unfold noteRead
  split
  · exact .refl s
  · split
    · exact .refl s
    · exact readBad_seats ..

/-! ### Stores to memory -/

theorem setByte_seats (l : Loc) (b : Byte) : s.SameSeats (s.setByte l b) := by
  unfold setByte
  split
  · exact .refl s
  · cases l with
    | team t o => exact mapTeam_seats s t fun _ => rfl
    | spill t i o => exact mapGroup_seats ..
    | _ => exact .of_eq rfl rfl

theorem setBytesRaw_seats (l : Loc) (bs : List Byte) : s.SameSeats (s.setBytesRaw l bs) := by
  induction bs generalizing s l with
  | nil => exact .refl s
  | cons b r ih => exact (setByte_seats s l b).trans (ih _ _)

/-- The watches of a store mark symbols only. -/
theorem Watched.seats {s s' : State} (h : s.Watched s') (hw : Tab.wf s.teams = true) : s.SameSeats s' where
  saved := by rw [show s' = _ from h.only]
  seat t := h.teams.map_get hw (fun e x hx => by obtain ⟨-, y, rfl⟩ := hx; rfl) t
  wf := h.teams.wf

theorem setBytes_seats (hw : Tab.wf s.teams = true) (l : Loc) (bs : List Byte) : s.SameSeats (s.setBytes l bs) := by
  have hraw := setBytesRaw_seats s l bs
  have hfresh : s.SameSeats ((s.setBytesRaw l bs).freshRows l bs.length) := by
    rw [freshRows_eq]
    exact hraw.trans (.of_eq rfl rfl)
  unfold setBytes
  simp only
  split
  · exact hfresh.trans ((checkWatches_watched _ _ _).seats (hfresh.wf hw))
  · exact hfresh

theorem writeImage_seats (hw : Tab.wf s.teams = true) (loc : Nat → Loc) (m : Memory) (n : Nat) : s.SameSeats (s.writeImage loc m n) :=
  List.foldlRecOn (motive := fun u : State => s.SameSeats u) _ _ (.refl s) fun u ih _ _ => ih.trans (setBytes_seats u (ih.wf hw) _ _)

/-! ### Levels and fences -/

theorem relevel_seats (p : Nat) : s.SameSeats (s.relevel p) := by
  have hlevels (n : Nat) (u : State) : u.SameSeats (levels p n u) := by
    induction n generalizing u with
    | zero => exact .refl u
    | succ n ih => exact SameSeats.trans (s' := u.setLevels p (u.drainLevel p)) (.of_eq rfl rfl) (ih _)
  exact SameSeats.trans (s' := s.setLevels p (s.baseLevel p)) (.of_eq rfl rfl) (hlevels _ _)

theorem fenceCheck_seats (p : Nat) : s.SameSeats (s.fenceCheck p) := by
  unfold fenceCheck
  refine .foldl (fun u e => ?_) (.refl s) _
  split
  · split
    · exact .of_eq rfl rfl
    · exact .refl u
  · exact .refl u

/-! ### What goes before a save -/

theorem unfile_seats (t : Nat) (g : Group) : s.SameSeats (s.unfile t g) := by
  unfold unfile
  split
  · refine SameSeats.trans (SameSeats.trans ?_ (relevel_seats _ _)) (mapGroup_seats ..)
    exact .of_eq rfl rfl
  · exact .refl s

theorem restartFull_seats (o : Op) (v : VAddr) (n : Nat) : s.SameSeats (s.restartFull o v n) := by
  unfold restartFull
  refine .foldl (fun u h => ?_) (.refl s) _
  split
  · exact .of_eq rfl rfl
  · exact .refl u

theorem sweepCloses_seats (t : Nat) : s.SameSeats (s.sweepCloses t) := by
  unfold sweepCloses
  refine .foldl (fun u e => ?_) (.refl s) _
  split
  · exact (restartFull_seats ..).trans (.of_eq rfl rfl)
  · exact .refl u

theorem saveReady_seats (t : Nat) : s.SameSeats (s.saveReady t) :=
  (SameSeats.foldl (fun u g => (unfile_seats u t g).trans (mapGroup_seats ..)) (.refl s) _).trans (sweepCloses_seats ..)

theorem noteBadRows_seats (t : Nat) (x : Team) : s.SameSeats (s.noteBadRows t x) := by
  unfold noteBadRows
  extract_lets mc none' rows groups profs
  have hmc (u : State) (c a : Nat) (r : Row) : u.SameSeats (mc u c a r) := machineCheck_seats ..
  have hrows : s.SameSeats rows := by
    refine .foldl (fun u r => ?_) (.refl s) _
    split
    · exact hmc ..
    · exact .refl u
  have hgroups : s.SameSeats groups := .foldl (fun u g => .foldl (fun u b => hmc ..) (.refl u) _) hrows _
  have hprofs : s.SameSeats profs := .foldl (fun u b => hmc ..) hgroups _
  refine .foldl (fun u c => .foldl (fun u b => ?_) (.refl u) _) hprofs _
  generalize (Option.map (·.tid) (if b.reg = 0 then (u.core c).hold0 else (u.core c).hold1) == some t) = held
  cases held
  · exact .refl u
  · exact hmc ..

/-! ### What a load does beside placing its team -/

theorem drawFrom_seats (l : List Nat) : s.SameSeats (s.drawFrom l).2 := by
  unfold drawFrom
  split
  · exact .refl s
  · exact .of_eq rfl rfl

theorem placeSaved_seats (t c m : Nat) (g : Group) : s.SameSeats (s.placeSaved t c m g) := by
  unfold placeSaved
  split
  · exact .of_eq rfl rfl
  · exact (drawFrom_seats s _).trans (.of_eq rfl rfl)

theorem restoreAcc_seats (t c : Nat) (m : Memory) (base : Nat) (h0 h1 : Option Hold) : s.SameSeats (s.restoreAcc t c m base h0 h1) := by
  unfold restoreAcc
  extract_lets mine clean first
  have hfirst : s.SameSeats first := by
    simp only [first]
    split
    · exact .of_eq rfl rfl
    · exact .refl s
  split
  · exact hfirst.trans (.of_eq rfl rfl)
  · exact hfirst

theorem setWaitRec_seats (t : Nat) (e : Nat × Bool × List Nat) (w : List Nat) : s.SameSeats (s.setWaitRec t e w) := by
  unfold setWaitRec
  split
  · exact mapGroup_seats ..
  · split <;> exact .of_eq rfl rfl
  · exact .refl s

theorem takeWaitRecs_seats (t : Nat) (x : Team) (m : Memory) (cwin : Bool) : s.SameSeats (s.takeWaitRecs t x m cwin) := by
  unfold takeWaitRecs holdWords
  refine SameSeats.trans (.foldl (fun u e => ?_) (.refl s) _) (mapTeam_seats _ t fun _ => rfl)
  simp only
  split
  · exact .refl u
  · exact setWaitRec_seats ..

theorem unwatch_seats (t : Nat) : s.SameSeats (s.unwatch t) := by
  unfold unwatch
  extract_lets polling
  have hpolling : s.SameSeats polling := mapTeam_seats s t fun _ => rfl
  refine .foldl (fun u g => ?_) hpolling _
  split
  · exact .of_eq rfl rfl
  · exact .of_eq rfl rfl
  · exact .refl u

theorem resym_seats (t p asid n : Nat) (y : Sym) : s.SameSeats (s.resym t p asid n y) := by
  unfold resym
  split
  · extract_lets fp vp put
    have hput (met : Bool) : s.SameSeats (put met) := mapTeam_seats s t fun _ => rfl
    split
    · exact hput _
    · exact (hput _).trans (noteRead_seats ..)
  · exact .refl s

theorem rewait_seats (t p asid : Nat) (g : Group) : s.SameSeats (s.rewait t p asid g) := by
  have hput (g' : Group) : s.SameSeats (s.putGroup t g.idx g') := .of_eq rfl rfl
  unfold rewait
  split
  · exact hput _
  · split
    · exact hput _
    · exact .refl s
  · split
    · exact hput _
    · refine SameSeats.trans ?_ (noteRead_seats ..)
      split
      · exact hput _
      · exact hput _
  · split
    · exact hput _
    · refine SameSeats.trans ?_ (noteRead_seats ..)
      split
      · exact hput _
      · exact hput _
  · split
    · exact hput _
    · exact .refl s
  · exact hput _
  · exact .refl s

end State

end Sys2Proof.Machine
end

-- ==== Sys2Proof/Proofs/TeamStart.lean ====

section

/-! PROOF. The event TEAM_ADMISSION (01 R29-R32): what a group and a team start with, and that admission leaves them so, since of the groups
and teams a status word can wake only one that waits. -/

namespace Sys2Proof.Machine

open Sys2Proof

/-! ### What a group starts with (01 R32) -/

namespace Group

variable (i : Nat) (sp : GSpec) (c sl : Nat) (r : BitVec 1024)

/-- The scalar registers of a group as it starts: its arguments in s2 and s3, its mask in s125 to s127, zero in every other. -/
theorem fresh_s_get (k : Nat) : (Group.fresh i sp c sl r).s.get k =
    if k = 127 then (lanesBelow sp.live).extractLsb' 64 32 else if k = 126 then (lanesBelow sp.live).extractLsb' 32 32
    else if k = 125 then (lanesBelow sp.live).extractLsb' 0 32 else if k = 3 then BitVec.ofNat 32 (Rec.args r / 2 ^ 32)
    else if k = 2 then BitVec.ofNat 32 (Rec.args r) else 0 := by
  have hnil : Cells.wf ([] : Cells 32) = true := rfl
  have h2 := Cells.set_wf hnil 2 (BitVec.ofNat 32 (Rec.args r))
  have h3 := Cells.set_wf h2 3 (BitVec.ofNat 32 (Rec.args r / 2 ^ 32))
  have h125 := Cells.set_wf h3 125 ((lanesBelow sp.live).extractLsb' 0 32)
  have h126 := Cells.set_wf h125 126 ((lanesBelow sp.live).extractLsb' 32 32)
  simp only [Group.fresh, Cells.setAll, Cells.get_set h126, Cells.get_set h125, Cells.get_set h3, Cells.get_set h2, Cells.get_set hnil]
  rfl

theorem fresh_readS (k : Nat) : (Group.fresh i sp c sl r).readS false k = if k = 0 then 0 else (Group.fresh i sp c sl r).s.get k :=
  readS_idle (g := Group.fresh i sp c sl r) rfl false k

/-- A group starts with every lane below its live count in its mask. -/
theorem fresh_mask : (Group.fresh i sp c sl r).mask false = lanesBelow sp.live := by
  have hlow : (lanesBelow sp.live).extractLsb' 64 32 ++ (lanesBelow sp.live).extractLsb' 32 32 =
      (lanesBelow sp.live).extractLsb' 32 64 := BitVec.extractLsb'_append_extractLsb'_eq_extractLsb' rfl
  have hall : (lanesBelow sp.live).extractLsb' 32 64 ++ (lanesBelow sp.live).extractLsb' 0 32 = lanesBelow sp.live :=
    BitVec.extractLsb'_append_extractLsb' (w := 64)
  simp only [mask, fresh_readS, fresh_s_get]
  exact (congrArg (· ++ _) hlow).trans hall

end Group

namespace State

variable {s : State} {t : Nat}

/-! ### A team starts -/

theorem drawFrom_free (s : State) (l : List Nat) : (s.drawFrom l).2 = { s with free := (s.drawFrom l).2.free } := by
  unfold drawFrom
  split <;> rfl

/-- A group is put as it starts, in a slot that is drawn. -/
theorem startGroup_puts (s : State) (t core : Nat) (r : BitVec 1024) (i m : Nat) (sp : GSpec) (f : Group → Group) :
    (s.startGroup t core r i m sp f).teams = s.teams ∧
      ∃ sl, (s.startGroup t core r i m sp f).groups = s.groups.set (64 * t + i) (f (Group.fresh i sp (core + sp.side) sl r)) := by
  unfold startGroup
  simp only
  rw [drawFrom_free]
  exact ⟨rfl, _, rfl⟩

/-- The groups of a list with their indexes start one after another. -/
def startGroups (s : State) (t core : Nat) (r : BitVec 1024) (m : GSpec × Nat → Nat) (f : Nat → Group → Group) (l : List (GSpec × Nat)) :
    State := l.foldl (fun s e => s.startGroup t core r e.2 (m e) e.1 (f e.2)) s

section

variable (s) {core : Nat} {r : BitVec 1024} {m : GSpec × Nat → Nat} {f : Nat → Group → Group} (l : List (GSpec × Nat))

theorem startGroups_teams : (s.startGroups t core r m f l).teams = s.teams := by
  unfold startGroups
  exact foldl_teams _ (fun u e => (startGroup_puts u t core r e.2 (m e) e.1 (f e.2)).1) l s

theorem startGroups_wf (hw : Tab.wf s.groups = true) : Tab.wf (s.startGroups t core r m f l).groups = true := by
  refine List.foldlRecOn (motive := fun u : State => Tab.wf u.groups = true) l _ hw fun u ih e _ => ?_
  obtain ⟨-, sl, h⟩ := startGroup_puts u t core r e.2 (m e) e.1 (f e.2)
  rw [h]
  exact Tab.set_wf ih _ _

/-- An index that is not in the list keeps its group. -/
theorem startGroups_other {i : Nat} (hi : ∀ e ∈ l, e.2 ≠ i) : (s.startGroups t core r m f l).group t i = s.group t i := by
  refine List.foldlRecOn (motive := fun u : State => u.group t i = s.group t i) l _ rfl fun u ih e he => ?_
  obtain ⟨-, sl, h⟩ := startGroup_puts u t core r e.2 (m e) e.1 (f e.2)
  have hne := hi e he
  rw [group, h, Tab.get_set_ne _ (by omega)]
  exact ih

/-- Each group of it stands as it starts, where no index comes twice. -/
theorem startGroups_mine (hl : (l.map Prod.snd).Nodup) {e : GSpec × Nat} (he : e ∈ l) :
    ∃ sl, (s.startGroups t core r m f l).group t e.2 = some (f e.2 (Group.fresh e.2 e.1 (core + e.1.side) sl r)) := by
  induction l generalizing s with
  | nil => cases he
  | cons a l ih =>
    obtain ⟨hnot, hrest⟩ := List.nodup_cons.1 hl
    rcases List.mem_cons.1 he with rfl | he
    · obtain ⟨-, sl, h⟩ := startGroup_puts s t core r e.2 (m e) e.1 (f e.2)
      have hkeep := startGroups_other (s.startGroup t core r e.2 (m e) e.1 (f e.2)) (t := t) (core := core) (r := r) (m := m) (f := f) l
        (i := e.2) fun b hb heq => hnot (List.mem_map.2 ⟨b, hb, heq⟩)
      exact ⟨sl, hkeep.trans (by rw [group, h, Tab.get_set_same])⟩
    · exact ih _ hrest he

end

/-- A team takes the next handle; its entries are drawn, it is put, and its groups start. -/
theorem startTeam_eq (s : State) (n : Nat) (gr : Grid) (id : Nat) (x : Spec) (core : Nat) (f : Nat → Group → Group) :
    ∃ (u : State) (e1 e2 : Nat), u.teams = s.teams ∧ u.groups = s.groups ∧ s.startTeam n gr id x core f =
      (u.putTeam s.handles (Team.fresh s.handles n id x gr.record core e1 e2)).startGroups s.handles core gr.record
        (fun e => localNo x.groups e.2 e.1.side) f x.groups.zipIdx := by
  unfold startTeam
  extract_lets t u0
  have h1 := drawFrom_free u0 (u0.freeEntries core)
  generalize u0.drawFrom (u0.freeEntries core) = d1 at h1 ⊢
  obtain ⟨e1, u1⟩ := d1
  dsimp only at h1 ⊢
  have h2 : (if x.paired then u1.drawFrom (u1.freeEntries (core + 1)) else (0, u1)).2 =
      { u1 with free := (if x.paired then u1.drawFrom (u1.freeEntries (core + 1)) else (0, u1)).2.free } := by
    split
    · exact drawFrom_free ..
    · rfl
  generalize (if x.paired then u1.drawFrom (u1.freeEntries (core + 1)) else (0, u1)) = d2 at h2 ⊢
  obtain ⟨e2, u2⟩ := d2
  dsimp only at h2 ⊢
  refine ⟨u2, e1, e2, ?_, ?_, rfl⟩
  · rw [h2, h1]
  · rw [h2, h1]

/-- A team that starts stands on its core, and each of its groups as it starts (01 R31, R32). -/
theorem startTeam_stands (hwg : Tab.wf s.groups = true) (hwt : Tab.wf s.teams = true) (n : Nat) (gr : Grid) (id : Nat) (x : Spec)
    (core : Nat) (f : Nat → Group → Group) :
    Tab.wf (s.startTeam n gr id x core f).groups = true ∧ Tab.wf (s.startTeam n gr id x core f).teams = true ∧
    (∃ e1 e2, (s.startTeam n gr id x core f).team s.handles = some (Team.fresh s.handles n id x gr.record core e1 e2)) ∧
    ∀ j sp, x.groups[j]? = some sp → ∃ sl, (s.startTeam n gr id x core f).group s.handles j =
      some (f j (Group.fresh j sp (core + sp.side) sl gr.record)) := by
  obtain ⟨u, e1, e2, hteams, hgroups, heq⟩ := startTeam_eq s n gr id x core f
  rw [heq]
  refine ⟨startGroups_wf _ _ (hgroups ▸ hwg), ?_, ⟨e1, e2, ?_⟩, fun j sp hj => ?_⟩
  · rw [startGroups_teams]
    exact Tab.set_wf (hteams ▸ hwt) _ _
  · rw [team, startGroups_teams]
    exact Tab.get_set_same ..
  · exact startGroups_mine _ _ (List.nodup_zipIdx_map_snd _) (e := (sp, j)) (List.mem_zipIdx_iff_getElem?.2 hj)

/-! ### Status words (01 R25) -/

theorem translate_wait_parts {who : Req} {core : Option Nat} {p asid va : Nat} {kind : Kind} {u : State}
    (h : s.translate who core p asid kind va = .wait u) : ∃ parts, u = { s with parts := parts } := by
  unfold translate at h
  split at h
  · cases h
  · extract_lets x join here at h
    split at h
    · cases h
    · split at h
      · exact ⟨_, (Xlat.wait.inj h).symm⟩
      · exact ⟨_, (Xlat.wait.inj h).symm⟩

theorem translate_bad_parts {who : Req} {core : Option Nat} {p asid va : Nat} {kind : Kind} {u : State}
    (h : s.translate who core p asid kind va = .bad u) : ∃ parts, u = { s with parts := parts } := by
  unfold translate at h
  split at h
  · cases h
  · extract_lets x join here at h
    split at h
    · exact ⟨_, (Xlat.bad.inj h).symm⟩
    · split at h <;> cases h

/-- A status word is written, or waits for its page; of the tables of groups, teams and grids only watches change anything. -/
theorem writeStatus_watched (s : State) (p : Nat) (loc : RecLoc) (code : Nat) : ∃ dev annex rows errs parts,
    ({ s with dev := dev, annex := annex, badRows := rows, symErrs := errs, parts := parts } : State).Watched (s.writeStatus p loc code) := by
  have hstore (a : Nat) : ∃ dev annex rows errs parts,
      ({ s with dev := dev, annex := annex, badRows := rows, symErrs := errs, parts := parts } : State).Watched (s.setNum (.dev a) 4 code) := by
    obtain ⟨dev, rows, errs, h⟩ := setBytes_dev_watched s a (bytesOfNat 4 code)
    exact ⟨dev, s.annex, rows, errs, s.parts, h⟩
  have hpart (parts : Tab Part) : ∃ dev annex rows errs parts',
      ({ s with dev := dev, annex := annex, badRows := rows, symErrs := errs, parts := parts' } : State).Watched { s with parts := parts } :=
    ⟨s.dev, s.annex, s.badRows, s.symErrs, parts, .refl _⟩
  unfold writeStatus
  split
  · exact hpart s.parts
  · exact hpart s.parts
  · next d off =>
    obtain ⟨annex, rows, errs, h⟩ := setBytes_annex_eq s d (off + 84) (bytesOfNat 4 code)
    rw [setNum, h]
    exact ⟨s.dev, annex, rows, errs, s.parts, .refl _⟩
  · extract_lets later
    split
    · exact hpart _
    · split
      · next u hput =>
        obtain ⟨e, -, rfl⟩ := Option.map_eq_some_iff.1 hput
        exact hstore _
      · split
        · exact hstore _
        · next u hwait =>
          obtain ⟨parts, rfl⟩ := translate_wait_parts hwait
          exact hpart _
        · next u hbad =>
          obtain ⟨parts, rfl⟩ := translate_bad_parts hbad
          exact hpart _

/-- So a status word leaves a group that does not wait, and a team without symbols. -/
theorem writeStatus_keeps (hwg : Tab.wf s.groups = true) (hwt : Tab.wf s.teams = true) {i : Nat} {g : Group} {x : Team}
    (hg : s.group t i = some g) (ha : g.wait = none) (hx : s.team t = some x) (hsyms : x.syms = []) (p : Nat) (loc : RecLoc) (code : Nat) :
    (s.writeStatus p loc code).group t i = some g ∧ (s.writeStatus p loc code).team t = some x := by
  obtain ⟨dev, annex, rows, errs, parts, h⟩ := writeStatus_watched s p loc code
  exact ⟨h.groups.get_eq hwg hg fun _ hw => hw ha, h.teams.get_eq hwt hx fun _ hw => hw.1 hsyms⟩

/-! ### Admission -/

/-- A fresh unit of one team of a grid that is neither a Filler entry's nor a handler is admitted: its team stands on its core and each of
its groups as it starts (01 R29-R32). -/
theorem admitUnit_starts {n id c j : Nat} {gr : Grid} {sp : GSpec} (hgr : s.grid n = some gr) (hd : gr.drain = none) (hh : gr.handler = none)
    (hwg : Tab.wf s.groups = true) (hwt : Tab.wf s.teams = true) (hj : (Spec.of gr.record false).groups[j]? = some sp) :
    ∃ e1 e2 sl, (s.admitUnit (.fresh n [id]) [c]).team s.handles =
        some (Team.fresh s.handles n id (Spec.of gr.record false) gr.record c e1 e2) ∧
      (s.admitUnit (.fresh n [id]) [c]).group s.handles j = some (Group.fresh j sp (c + sp.side) sl gr.record) := by
  have hstart (u : State) : u.startWith gr id = fun _ g => g := by
    unfold startWith
    rw [hd, hh]
  obtain ⟨hwg', hwt', ⟨e1, e2, hx⟩, hgs⟩ := startTeam_stands (s := s.putGrid n (Grid.admitted gr [id])) hwg hwt n gr id (Spec.of gr.record false) c
    fun _ g => g
  obtain ⟨sl, hg⟩ := hgs j sp hj
  refine ⟨e1, e2, sl, ?_⟩
  unfold admitUnit
  simp only [AUnit.grid, hgr, hd, Option.isSome_none, List.zip_cons_cons, List.zip_nil_left, List.foldl_cons, List.foldl_nil, hstart]
  split
  · exact ⟨hx, hg⟩
  · exact (writeStatus_keeps hwg' hwt' hg rfl hx rfl _ _ _).symm

/-- The event, where no head waits and nothing is swapped: the first unit of the queue that fits is admitted, and the count of slots is
written. -/
theorem teamAdmission_admits {p : Nat} {u : AUnit} {rest : List AUnit} {cs : List Nat} (hswap : s.swap = none) (hheads : (s.part p).heads = [])
    (hq : (s.putPart p (s.part p)).queue p = u :: rest)
    (hplace : (s.putPart p (s.part p)).placeUnit p u (fun _ => true) = some cs) : ∃ v,
    exec (.teamAdmission p) s = .next (((s.putPart p (s.part p)).admitUnit u cs).setCfgW 2 p 0x128 v) := by
  have hexec : exec (.teamAdmission p) s = execTeamAdmission p s := rfl
  have hnone : s.freshHeads p = (s.part p).heads := by simp [freshHeads, hheads]
  have hmap : s.mapPart p (fun x => { x with heads := s.freshHeads p }) = s.putPart p (s.part p) := by rw [mapPart, hnone]
  have hadmit : ∃ s2, (s.putPart p (s.part p)).admitFrom p (u :: rest) = (some ((s.putPart p (s.part p)).admitUnit u cs), s2) := by
    have hswap' (c : Nat) : (s.putPart p (s.part p)).swapping c = false := by simp [swapping, hswap]
    unfold admitFrom
    simp [part_putPart, hheads, Tab.get, hswap', reservedCores, hplace]
  obtain ⟨s2, hadmit⟩ := hadmit
  rw [hexec]
  unfold execTeamAdmission
  simp only [hmap, hq, hadmit]
  exact ⟨_, rfl⟩

end State

end Sys2Proof.Machine
end

-- ==== Sys2Proof/Proofs/GridRetires.lean ====

section

/-! PROOF. The event GRID_RETIREMENT (01 R28) for a grid whose record lies in an annex: the done word, then the status word, then the grid is
gone. -/

namespace Sys2Proof.Machine

open Sys2Proof

namespace State

variable {s : State} {gr : Grid}

/-! ### A grid retires -/

/-- A grid of no Filler entry whose record lies in an annex ends with its status word there. -/
theorem finishGrid_annex_eq (hs : s.Sound) {n d off : Nat} (hloc : gr.loc = .annex d off) (hd : gr.drain = none) :
    s.finishGrid n gr =
      ({ s with annex := s.annex.setSlice (2 ^ 26 * d + (off + 84)) (bytesOfNat 4 2) } : State).dropGrid n gr := by
  have hstatus : s.writeStatus gr.part gr.loc 2 = s.setNum (.annex d (off + 84)) 4 2 := by rw [hloc]; rfl
  unfold finishGrid
  rw [hd, hstatus, setNum_annex hs]

/-- That word says 2, and the grid is gone (01 R25, R28). -/
theorem finishGrid_annex (hs : s.Sound) (hm : s.annex.wf = true) (hw : Tab.wf s.grids = true) {n d off : Nat}
    (hloc : gr.loc = .annex d off) (hd : gr.drain = none) :
    (s.finishGrid n gr).grid n = none ∧ (s.finishGrid n gr).wordAt (.annex d (off + 84)) = 2 ∧
      ∀ a, (s.finishGrid n gr).wordAt (.dev a) = s.wordAt (.dev a) := by
  rw [finishGrid_annex_eq hs hloc hd]
  set u : State := { s with annex := s.annex.setSlice (2 ^ 26 * d + (off + 84)) (bytesOfNat 4 2) }
  have hsound : (u.dropGrid n gr).Sound := hs
  exact ⟨Tab.get_del_same hw n, wordAt_annex hsound hm rfl, fun _ => rfl⟩

/-- The word of a grid that is done rises by one, then its status is written. -/
theorem gridRetirement_annex (hs : s.Sound) (hm : s.annex.wf = true) (hdev : s.dev.wf = true) (hw : Tab.wf s.grids = true)
    {n d off pa : Nat} (hgr : s.grid n = some gr) (hret : gr.retired = gr.nteams) (ho : gr.origins = []) (hloc : gr.loc = .annex d off)
    (hd : gr.drain = none) (hdone : Rec.doneAddr gr.record = 0 ∨ (0 < Rec.doneAddr gr.record ∧ Rec.doneAddr gr.record < 2 ^ 57 ∧
       s.translate .hub none gr.part gr.asid .write (Rec.doneAddr gr.record) = .ok pa)) :
    ∃ s', exec (.gridRetirement n) s = .next s' ∧ s'.grid n = none ∧ s'.wordAt (.annex d (off + 84)) = 2 ∧
       (Rec.doneAddr gr.record ≠ 0 → s'.wordAt (.dev pa) = s.wordAt (.dev pa) + 1) := by
  have hover : gridOver gr = true := by simp [gridOver, hret, ho]
  have hexec : exec (.gridRetirement n) s = execGridRetirement n s := rfl
  rw [hexec]
  unfold execGridRetirement
  simp only [hgr, hover]
  rcases hdone with h0 | ⟨hpos, hlt, hpa⟩
  · obtain ⟨hgone, hstatus, -⟩ := finishGrid_annex hs hm hw (n := n) hloc hd
    exact ⟨_, by simp [h0], hgone, hstatus, fun h => absurd h0 h⟩
  · have hnot : (decide (Rec.doneAddr gr.record = 0) || decide (2 ^ 57 ≤ Rec.doneAddr gr.record)) = false := by
      rw [decide_eq_false hpos.ne', decide_eq_false hlt.not_ge, Bool.or_self]
    have hstore := setNum_dev hs pa 4 (s.wordAt (.dev pa) + 1).toNat
    have hu := hstore.only.sound hs
    obtain ⟨hsdev, hsannex, -, -⟩ := hstore.only.stores
    obtain ⟨hgone, hstatus, hword⟩ := finishGrid_annex hu (hsannex.symm ▸ hm) (hstore.grids.wf hw) (n := n) hloc hd
    refine ⟨_, ?_, hgone, hstatus, fun _ => ?_⟩
    · simp only [hnot, hpa, noteHubRead_sound s hs, Bool.not_true, Bool.false_eq_true, if_false]
    · rw [hword, wordAt_dev hu hdev hsdev, BitVec.ofNat_toNat, BitVec.setWidth_eq]

end State

end Sys2Proof.Machine
end

-- ==== Sys2Proof/Proofs/TeamSaves.lean ====

section

/-! PROOF. The event PREEMPTION_SAVE (22 R354, 23 R382): a save unloads its team; a move unloads it and loads the image on another core. What
either does beside keeps every team's seat (`SameSeats`), so a team stands where the one placing step put it. -/

namespace Sys2Proof.Machine

open Sys2Proof

namespace State

variable {s : State} {t : Nat} {x : Team}

theorem mapPart_saved (s : State) (p : Nat) (f : Part → Part) : (s.mapPart p f).saved = s.saved := rfl
theorem mapPart_team (s : State) (p : Nat) (f : Part → Part) (t : Nat) : (s.mapPart p f).team t = s.team t := rfl

/-! ### A team leaves its cores -/

/-- A team that is unloaded is gone with its groups, and stands last among the saved (22 R354). -/
theorem unloadTeam_gone (hx : s.team t = some x) (hw : Tab.wf s.teams = true) (slot : Option Nat) (resume : Bool) :
    (s.unloadTeam t slot resume).team t = none ∧ (∀ i, i < 64 → (s.unloadTeam t slot resume).group t i = none) ∧
      ∃ z, (s.unloadTeam t slot resume).saved = s.saved ++ [z] ∧ z.tid = t ∧ z.id = x.id ∧ z.grid = x.grid ∧ z.slot = slot ∧
        z.resume = resume ∧ z.team = x := by
  have hcores (u : State) (c : Nat) : ((u.releaseAcc t c).mapCore c fun k => { k with accWait := k.accWait.filter fun w => w.1 / 64 != t }) =
      { u with cores := ((u.releaseAcc t c).mapCore c fun k => { k with accWait := k.accWait.filter fun w => w.1 / 64 != t }).cores } := by
    rw [releaseAcc_cores]
    rfl
  unfold unloadTeam
  simp only [hx]
  rw [foldl_cores hcores, dropErrs_eq]
  exact ⟨Tab.get_del_same hw t, fun i hi => get_groups_others s.groups hi, _, rfl, rfl, rfl, rfl, rfl, rfl, rfl⟩

/-- What goes before a save leaves every team where it is. -/
theorem savePrepared_seats (s : State) (t : Nat) (x : Team) : s.SameSeats ((s.saveReady t).noteBadRows t x) :=
  (saveReady_seats s t).trans (noteBadRows_seats ..)

/-- A team that is saved is gone with its groups, and stands last among the saved. -/
theorem saveTeam_gone (hx : s.team t = some x) (hw : Tab.wf s.teams = true) (loc : Nat → Loc) (slot : Option Nat) (resume : Bool) :
    (s.saveTeam t loc slot resume).team t = none ∧ (∀ i, i < 64 → (s.saveTeam t loc slot resume).group t i = none) ∧
      ∃ z, (s.saveTeam t loc slot resume).saved = s.saved ++ [z] ∧ z.tid = t ∧ z.id = x.id ∧ z.grid = x.grid ∧ z.slot = slot ∧
        z.resume = resume := by
  unfold saveTeam
  simp only [hx]
  set u := ((s.saveReady t).noteBadRows t x).writeImage loc ((s.saveReady t).contextImage t x)
    (imgUnits x ((s.saveReady t).groupsOf t))
  have hprep := savePrepared_seats s t x
  have hseats : s.SameSeats u := hprep.trans (writeImage_seats _ (hprep.wf hw) _ _ _)
  obtain ⟨x', hx', hseat⟩ := hseats.team_some hx
  obtain ⟨hteam, hgroup, z, hsaved, htid, hid, hgrid, hslot, hresume, -⟩ := unloadTeam_gone hx' (hseats.wf hw) slot resume
  simp only [Team.seat, Prod.mk.injEq] at hseat
  exact ⟨hteam, hgroup, z, by rw [hsaved, hseats.saved], htid, hid.trans hseat.2.1, hgrid.trans hseat.1, hslot, hresume⟩

/-- A team that moves is unloaded, and what was saved of it is loaded from the image (23 R382). -/
theorem moveTeam_loads (hx : s.team t = some x) (hw : Tab.wf s.teams = true) (hn : ∀ z ∈ s.saved, z.tid ≠ t)
    (load : State → Saved → Memory → State) : ∃ u y m, s.moveTeam t load = load u y m ∧ u.saved = s.saved ++ [y] ∧ y.tid = t ∧
      y.team.id = x.id := by
  have hseats := savePrepared_seats s t x
  obtain ⟨x', hx', hseat⟩ := hseats.team_some hx
  obtain ⟨-, -, y, hsaved, htid, -, -, -, -, hteam⟩ := unloadTeam_gone hx' (hseats.wf hw) none true
  simp only [Team.seat, Prod.mk.injEq] at hseat
  have hfind : (((s.saveReady t).noteBadRows t x).unloadTeam t none true).saved.find? (fun y => y.tid == t) = some y := by
    rw [hsaved, hseats.saved, List.find?_append, List.find?_eq_none.2 fun z hz => by simpa using hn z hz]
    simp [htid]
  refine ⟨_, y, (s.saveReady t).contextImage t x, ?_, hsaved.trans (by rw [hseats.saved]), htid, by rw [hteam]; exact hseat.2.1⟩
  unfold moveTeam
  simp only [hx, hfind]

/-! ### A team is loaded -/

theorem heldAs_same (y : Saved) (w : Nat) : (heldAs y w).tid = y.tid ∧ (heldAs y w).team = y.team := by
  unfold heldAs
  split <;> exact ⟨rfl, rfl⟩

theorem teamOfImage_id (x : Team) (m : Memory) (xl : Nat → Option Nat) : (teamOfImage x m xl).id = x.id := by
  simp only [teamOfImage]

/-- A load of a team that is saved here, in stages: its entries are drawn; it is placed, with its groups and accumulators; it is saved no
longer; its waits run their steps again. None but the second moves a team (22 R357). -/
theorem loadTeam_stages {y : Saved} (hy : y ∈ s.saved) (m : Memory) (c : Nat) : ∃ u v x' ops trackers,
    s.SameSeats u ∧ x'.core = c ∧ x'.id = y.team.id ∧ (u.putTeam y.tid x').SameSeats v ∧
      ({ v with saved := v.saved.filter (fun z => z.tid != y.tid), ops := ops, trackers := trackers } : State).SameSeats
        (s.loadTeam y m c) := by
  have hany : (s.saved.any fun z => z.tid == y.tid) = true := List.any_eq_true.2 ⟨y, hy, by simp⟩
  unfold loadTeam
  extract_lets new y' t p asid xl old coreFor x offs tm spills gs num
  have hnew : new = false := by simp [new, hany]
  obtain ⟨htid, hteam⟩ : y'.tid = y.tid ∧ y'.team = y.team := heldAs_same y (m.num 24 4)
  clear_value y' new
  have hdraw := drawFrom_seats s (s.freeEntries c)
  generalize s.drawFrom (s.freeEntries c) = d at hdraw ⊢
  obtain ⟨e1, u1⟩ := d
  have hdraw2 : u1.SameSeats (if y'.team.paired then u1.drawFrom (u1.freeEntries (c + 1)) else (0, u1)).2 := by
    split
    · exact drawFrom_seats ..
    · exact .refl u1
  dsimp -zeta only
  generalize (if y'.team.paired then u1.drawFrom (u1.freeEntries (c + 1)) else (0, u1)) = d at hdraw2 ⊢
  obtain ⟨e2, u⟩ := d
  dsimp -zeta only
  extract_lets placed grouped acc accs out added waits syms woken fenced
  have hgrouped : placed.SameSeats grouped := .foldl (fun u g => placeSaved_seats u _ _ _ g) (.refl placed) _
  have hacc : placed.SameSeats acc := hgrouped.trans (restoreAcc_seats ..)
  have haccs : placed.SameSeats accs := by
    simp only [accs]
    split
    · exact hacc.trans (restoreAcc_seats ..)
    · exact hacc
  have hadded : added = out := by simp only [added, hnew, Bool.false_eq_true, if_false]
  have hwaits : out.SameSeats waits := by
    simp only [waits, hadded]
    exact (takeWaitRecs_seats ..).trans (unwatch_seats ..)
  have hsyms : out.SameSeats syms := .foldl (fun u e => resym_seats u _ _ _ _ _) hwaits _
  have hwoken : out.SameSeats woken := .foldl (fun u g => rewait_seats u _ _ _ g) hsyms _
  have hfenced : out.SameSeats fenced :=
    hwoken.trans ((fenceCheck_seats woken p).trans (sameButGroups_seats _ (barrierCheck_sameButGroups _ _)))
  have ht : y.tid = t := htid.symm
  rw [ht]
  refine ⟨u, accs, _, _, _, hdraw.trans hdraw2, ?_, ?_, haccs, hfenced.trans (relevel_seats fenced p)⟩
  · rfl
  · simp only [x, teamOfImage_id, hteam]

/-- A saved team that is loaded onto a core stands there, and is not saved any longer. -/
theorem loadTeam_stands {sv : List Saved} {y : Saved} (hs : s.saved = sv ++ [y]) (hn : ∀ z ∈ sv, z.tid ≠ y.tid) (m : Memory) (c : Nat) :
    (s.loadTeam y m c).saved = sv ∧ ∃ x', (s.loadTeam y m c).team y.tid = some x' ∧ x'.core = c ∧ x'.id = y.team.id := by
  obtain ⟨u, v, x', ops, trackers, hu, hcore, hid, hv, hload⟩ := loadTeam_stages (s := s) (y := y) (by simp [hs]) m c
  constructor
  · have hkeep : sv.filter (fun z => z.tid != y.tid) = sv := List.filter_eq_self.2 fun z hz => by simpa using hn z hz
    have hsaved : v.saved = sv ++ [y] := hv.saved.trans (hu.saved.trans hs)
    rw [hload.saved]
    simp [hsaved, hkeep]
  · obtain ⟨x1, hx1, hseat1⟩ := hv.team_some (team_putTeam u y.tid x')
    obtain ⟨x2, hx2, hseat2⟩ := hload.team_some (t := y.tid) hx1
    have hseat := hseat2.trans hseat1
    simp only [Team.seat, Prod.mk.injEq] at hseat
    exact ⟨x2, hx2, hseat.2.2.trans hcore, hseat.2.1.trans hid⟩

/-- A team that resumes runs, and nothing else of the teams changes (22 R361). -/
theorem resumeTeam_runs (hx : s.team t = some x) :
    (s.resumeTeam t).team t = some { x with halted := false } ∧ (s.resumeTeam t).saved = s.saved := by
  have hput : s.mapTeam t (fun x => { x with halted := false }) = s.putTeam t { x with halted := false } := mapTeam_some s hx _
  unfold resumeTeam
  rw [hput]
  refine List.foldlRecOn (motive := fun u : State => u.team t = some { x with halted := false } ∧ u.saved = s.saved) _ _
    ⟨team_putTeam .., rfl⟩ fun u ih g _ => ih

/-! ### PREEMPTION_SAVE -/

/-- With no other team halted for it a save or move that is over is struck off, and that is all. -/
theorem finishEvict_alone (s : State) (p : Nat) {e : Evict} (h : e.others = []) :
    s.finishEvict p e = s.mapPart p fun y => { y with evict := y.evict.filter fun z => z.tid != e.tid } := by
  unfold finishEvict
  extract_lets u set
  have hset (l : List Evict) : l.find? (fun v => set.contains v.tid) = none := List.find?_eq_none.2 fun v _ => by simp [set, h]
  simp only [hset, h]
  rfl

/-- The event for a team whose one save or move is under way. -/
theorem preemptionSave_eq {p : Nat} {y : Part} {e : Evict} (hp : s.parts.find? (fun e => e.2.evict.any fun z => z.tid == t) = some (p, y))
    (hy : y.evict = [e]) (he : e.tid = t) : exec (.preemptionSave t) s = .next (s.evictNow p e) := by
  have hexec : exec (.preemptionSave t) s = execPreemptionSave t s := rfl
  rw [hexec]
  unfold execPreemptionSave
  simp [hp, hy, he]

/-- With its work over and a core for it the team moves there, and resumes if it ran. -/
theorem evictNow_moveTeam (hx : s.team t = some x) {p cl c : Nat} (hu : s.untaken t = false) (hq : s.quiet t = true)
    (hk : x.killing = false) (hm : s.moveTo (x.core / 12) cl (s.asSaved t x) = some c) :
    s.evictNow p ⟨t, [], true, some cl⟩ =
      (s.moveTeam t fun s y m => (s.loadTeam y m c).resumeTeam t).finishEvict p ⟨t, [], true, some cl⟩ := by
  unfold evictNow
  simp only [hx, hu, hq, hk, Bool.not_true, Bool.or_self, Bool.false_eq_true, if_false]
  unfold moveNow
  simp only [hm, if_true]

/-- A team that is to move, and for which there is a core, stands there and runs; nothing is saved (23 R382). -/
theorem evictNow_moves (hx : s.team t = some x) (hw : Tab.wf s.teams = true) {p cl c : Nat} (hu : s.untaken t = false)
    (hq : s.quiet t = true) (hk : x.killing = false) (hn : ∀ z ∈ s.saved, z.tid ≠ t)
    (hm : s.moveTo (x.core / 12) cl (s.asSaved t x) = some c) :
    (s.evictNow p ⟨t, [], true, some cl⟩).saved = s.saved ∧
      ∃ x', (s.evictNow p ⟨t, [], true, some cl⟩).team t = some x' ∧ x'.core = c ∧ x'.id = x.id ∧ x'.halted = false := by
  obtain ⟨u, y, m, hmove, hsaved, htid, hid⟩ := moveTeam_loads hx hw hn fun s y m => (s.loadTeam y m c).resumeTeam t
  obtain ⟨hload, x1, hx1, hcore, hid1⟩ := loadTeam_stands hsaved (by rwa [htid]) m c
  rw [htid] at hx1
  obtain ⟨hrun, hrsaved⟩ := resumeTeam_runs hx1
  rw [evictNow_moveTeam hx hu hq hk hm, finishEvict_alone _ p rfl, hmove, mapPart_saved, mapPart_team]
  exact ⟨hrsaved.trans hload, _, hrun, hcore, hid1.trans hid, rfl⟩

theorem requeue_grids (s : State) (x : Team) : s.requeue x = { s with grids := (s.requeue x).grids } := by
  unfold requeue
  split <;> rfl

/-- A team that is to be saved, with a slot free whose pages are at hand, is saved into it; what follows touches no team. -/
theorem evictNow_saveTeam (hx : s.team t = some x) {p i : Nat} {tab : List (Nat × Nat)} (hu : s.untaken t = false)
    (hq : s.quiet t = true) (hk : x.killing = false) (hi : s.freeSlot p = some i)
    (htab : s.slotPages .write p i (imgUnits x (s.groupsOf t)) = .ok tab) : ∃ parts cfg grids swap,
    s.evictNow p ⟨t, [], true, none⟩ =
      { s.saveTeam t (s.slotLoc p i tab) (some i) true with parts := parts, cfg := cfg, grids := grids, swap := swap } := by
  unfold evictNow
  simp only [hx, hu, hq, hk, hi, htab, Bool.not_true, Bool.or_self, Bool.false_eq_true, if_false]
  rw [finishEvict_alone _ p rfl]
  generalize s.saveTeam t (s.slotLoc p i tab) (some i) true = u
  split
  · split
    · exact ⟨_, _, _, _, rfl⟩
    · rw [requeue_grids]
      exact ⟨_, _, _, _, rfl⟩
  · rw [requeue_grids]
    exact ⟨_, _, _, _, rfl⟩

/-- Such a team leaves its core, and stands last among the saved (22 R354). -/
theorem evictNow_saves (hx : s.team t = some x) (hw : Tab.wf s.teams = true) {p i : Nat} {tab : List (Nat × Nat)} (hu : s.untaken t = false)
    (hq : s.quiet t = true) (hk : x.killing = false) (hi : s.freeSlot p = some i)
    (htab : s.slotPages .write p i (imgUnits x (s.groupsOf t)) = .ok tab) :
    (s.evictNow p ⟨t, [], true, none⟩).team t = none ∧ (∀ j, j < 64 → (s.evictNow p ⟨t, [], true, none⟩).group t j = none) ∧
      ∃ z, (s.evictNow p ⟨t, [], true, none⟩).saved = s.saved ++ [z] ∧ z.tid = t ∧ z.id = x.id ∧ z.grid = x.grid ∧
        z.slot = some i ∧ z.resume = true := by
  obtain ⟨parts, cfg, grids, swap, heq⟩ := evictNow_saveTeam hx hu hq hk hi htab
  rw [heq]
  exact saveTeam_gone hx hw (s.slotLoc p i tab) (some i) true

end State

end Sys2Proof.Machine
end

-- ==== Sys2Proof/Proofs/TeamLifecycle.lean ====

section

/-! PROOF. O46, put together from the three events. -/

namespace Sys2Proof.Machine

open Sys2Proof

namespace Group

/-- A register other than the arguments' and the mask's starts at zero (01 R32). -/
theorem fresh_readS_zero (i : Nat) (sp : GSpec) (c sl : Nat) (r : BitVec 1024) {k : Nat} (h2 : k ≠ 2) (h3 : k ≠ 3) (hk : k < 125) :
    (Group.fresh i sp c sl r).readS false k = 0 := by
  have h125 : k ≠ 125 := by omega
  have h126 : k ≠ 126 := by omega
  have h127 : k ≠ 127 := by omega
  rw [fresh_readS, fresh_s_get, if_neg h127, if_neg h126, if_neg h125, if_neg h3, if_neg h2, ite_self]

end Group

/-- Settles O46: an event per clause; in each one step seats the team or takes it away, and the steps beside it keep every seat. -/
theorem teamsStartRetireAndAreSaved : Obligations.TeamsStartRetireAndAreSaved := by
  unfold Obligations.TeamsStartRetireAndAreSaved
  refine ⟨?admitted, ?retired, ?moved, ?saved⟩
  case admitted =>
    intro s p n id c j gr sp rest hswap hheads hgr hd hh hwg hwt s1 hq hplace hj _
    obtain ⟨v, hstep⟩ := State.teamAdmission_admits hswap hheads hq hplace
    obtain ⟨e1, e2, sl, hteam, hgroup⟩ := State.admitUnit_starts (s := s1) hgr hd hh hwg hwt hj
    refine ⟨_, _, _, sl, hstep, hteam, rfl, rfl, rfl, rfl, rfl, rfl, rfl, rfl, hgroup, rfl, rfl, rfl, ?_, ?_, Group.fresh_mask .., ?_,
      rfl, rfl, rfl, rfl, rfl, rfl, rfl, rfl, rfl⟩
    · rw [Group.fresh_readS, Group.fresh_s_get]
      rfl
    · rw [Group.fresh_readS, Group.fresh_s_get]
      rfl
    · exact fun _ h2 h3 hk => Group.fresh_readS_zero _ _ _ _ _ h2 h3 hk
  case retired =>
    intro s n d off pa gr hs hm hdev hw hgr hret ho hloc hd hdone
    exact State.gridRetirement_annex hs hm hdev hw hgr hret ho hloc hd hdone
  case moved =>
    intro s p t cl c x y hx hw _ hp hy _ hu hq hk _ hn hm
    obtain ⟨hsaved, x', hx', hcore, hid, hrun⟩ := State.evictNow_moves hx hw (p := p) hu hq hk hn hm
    exact ⟨_, x', State.preemptionSave_eq hp hy rfl, hx', hcore, hid, hrun, hsaved⟩
  case saved =>
    intro s p t i x y tab hx hw hp hy _ hi hu hq htab hk
    obtain ⟨hgone, hgroups, z, hsaved, hz⟩ := State.evictNow_saves hx hw hu hq hk hi htab
    exact ⟨_, z, State.preemptionSave_eq hp hy rfl, hgone, hgroups, hsaved, hz⟩

end Sys2Proof.Machine

end

-- ==== Sys2Proof/Proofs/Reconvergence.lean ====

section

/-! PROOF. O7: the reconvergence words (02 R48-R50). One rule for a group whose mask is set as its word issues, one for the stack under a push
and a pop, and one for an entry that goes through the spill area. -/

namespace Sys2Proof.Machine

open Sys2Proof

/-! ### An entry as bytes of the spill area (02 R50) -/

theorem natOfBytes_append (a b : List Byte) : natOfBytes (a ++ b) = natOfBytes a + 256 ^ a.length * natOfBytes b := by
  induction a with
  | nil => simp [natOfBytes]
  | cons x a ih =>
    rw [List.cons_append, natOfBytes, natOfBytes, ih, List.length_cons, Nat.pow_succ']
    ring

namespace Cells

/-- The bytes of a slice that was written. -/
theorem slice_setSlice {w : Nat} {m : Cells w} (h : wf m = true) (a : Nat) (l : List (BitVec w)) : slice (setSlice m a l) a l.length = l := by
  induction l generalizing m a with
  | nil => rfl
  | cons v l ih =>
    have hhead : get (setSlice m a (v :: l)) a = v := by
      rw [setSlice, get_setSlice_out (set_wf h a v) (a + 1) l a (by omega), get_set_same h]
    rw [List.length_cons, slice, hhead, setSlice, ih (set_wf h a v)]

/-- The number of n bytes that were written. -/
theorem num_setSlice {m : Memory} (h : wf m = true) (a : Nat) {n : Nat} {l : List Byte} (hl : l.length = n) :
    num (setSlice m a l) a n = natOfBytes l := by
  rw [num, ← hl, slice_setSlice h]

end Cells

namespace Reconv

theorem length_bytes (e : Reconv) : e.bytes.length = 32 := by
  simp [bytes, length_bytesOfNat]

/-- Mask, else mask and fmt lie one above the other, and the reserved word above them is zero. -/
theorem natOfBytes_bytes (e : Reconv) : natOfBytes e.bytes = e.mask.toNat + 2 ^ 96 * e.els.toNat + 2 ^ 192 * e.fmt.toNat := by
  have hmask := e.mask.isLt
  have hels := e.els.isLt
  have hfmt := e.fmt.isLt
  simp only [bytes, natOfBytes_append, natOfBytes_bytesOfNat, List.length_append, length_bytesOfNat]
  omega

/-- An entry that is read back from its bytes is the entry. -/
theorem ofNum_bytes (e : Reconv) : ofNum (natOfBytes e.bytes) = e := by
  have hmask := e.mask.isLt
  have hels := e.els.isLt
  have hfmt := e.fmt.isLt
  rw [natOfBytes_bytes, ofNum]
  congr 1 <;> exact BitVec.eq_of_toNat_eq (by rw [BitVec.toNat_ofNat]; omega)

end Reconv

namespace Group

variable {g : Group}

/-! ### The stack under a push and a pop (02 R48, R49) -/

/-- A push puts its entry on top; beside the stack and its depth it changes the spill stack at most. -/
theorem pushReconv_eq (g : Group) (e : Reconv) : ∃ l sp,
    g.pushReconv e = { g with rstack := e :: l, spill := sp, rdepth := g.rdepth + 1 } := by
  unfold pushReconv
  dsimp only
  split
  · exact ⟨_, _, rfl⟩
  · split <;> exact ⟨_, _, rfl⟩

/-- With room in hardware the entry goes on top of the others, and the area is as it was. -/
theorem pushReconv_room (h : g.rstack.length < 32) (e : Reconv) :
    g.pushReconv e = { g with rstack := e :: g.rstack, rdepth := g.rdepth + 1 } := by
  rw [pushReconv, if_pos h]

/-- With 32 entries in hardware the oldest of them goes to the area. -/
theorem pushReconv_full {l : List Reconv} {o : Reconv} (hl : g.rstack = l ++ [o]) (h : ¬g.rstack.length < 32) (e : Reconv) :
    g.pushReconv e = { g with rstack := e :: l, rdepth := g.rdepth + 1,
                              spill := g.spill.setSlice (reconvBase + 32 * (g.rdepth - 32)) o.bytes } := by
  have hlast : g.rstack.getLast? = some o := by rw [hl, List.getLast?_concat]
  simp only [pushReconv, if_neg h, hlast]
  rw [hl, List.dropLast_concat]

/-- A pop undoes a push at every depth, and the push leaves the spill stack below the area alone. -/
theorem pushReconv_popReconv (hw : g.spill.wf = true) (hlen : g.rstack.length = min g.rdepth 32) (e : Reconv) :
    (g.pushReconv e).popReconv.rstack = g.rstack ∧ (g.pushReconv e).rstack.length = min (g.pushReconv e).rdepth 32 ∧
      ∀ a, a < reconvBase → (g.pushReconv e).spill.get a = g.spill.get a := by
  by_cases h : g.rstack.length < 32
  · rw [pushReconv_room h]
    have hpop : ¬32 < g.rdepth + 1 := by omega
    refine ⟨?_, ?_, fun _ _ => rfl⟩
    · simp [popReconv, hpop]
    · simp only [List.length_cons]
      omega
  · have hdepth : 32 ≤ g.rdepth := by omega
    have hne : g.rstack ≠ [] := by
      intro hnil
      simp [hnil] at h
    obtain ⟨l, o, hl⟩ := (List.eq_nil_or_concat g.rstack).resolve_left hne
    rw [List.concat_eq_append] at hl
    rw [pushReconv_full hl h]
    have hpop : 32 < g.rdepth + 1 := by omega
    have hplace : g.rdepth + 1 - 33 = g.rdepth - 32 := by omega
    refine ⟨?_, ?_, fun a ha => ?_⟩
    · simp only [popReconv, List.tail_cons, hpop, if_true, hplace, Cells.num_setSlice hw _ o.length_bytes, Reconv.ofNum_bytes, hl]
    · have hcount : g.rstack.length = l.length + 1 := by rw [hl, List.length_append, List.length_singleton]
      simp only [List.length_cons]
      omega
    · have hbelow : a < reconvBase + 32 * (g.rdepth - 32) := Nat.lt_add_right _ ha
      dsimp only
      rw [Cells.get_setSlice_out hw _ _ _ (.inl hbelow)]

/-! ### A scalar word that sets the mask (02 R46) -/

/-- A register other than s0 after other registers were written. -/
theorem writeS_regs (h : g.Idle) (c : Cells 32) {r : Nat} (hr : r ≠ 0) (v : Word) :
    ({ g with s := c } : Group).writeS r v = { g with s := c.set r v } := by
  rw [writeS_idle (g := { g with s := c }) h, if_neg hr]

theorem setMask_idle (h : g.Idle) (m : LaneMask) : g.setMask m = { g with
    s := ((g.s.set 125 (m.extractLsb' 0 32)).set 126 (m.extractLsb' 32 32)).set 127 (m.extractLsb' 64 32) } := by
  rw [setMask, writeS_regs h g.s (by decide), writeS_regs h _ (by decide), writeS_regs h _ (by decide)]

/-- A scalar register after the mask is set. -/
theorem setMask_readS (h : g.Idle) (hw : g.s.wf = true) (m : LaneMask) (lane : Bool) (r : Nat) : (g.setMask m).readS lane r =
    if r = 127 then m.extractLsb' 64 32 else if r = 126 then m.extractLsb' 32 32 else if r = 125 then m.extractLsb' 0 32
    else g.readS lane r := by
  have h125 := Cells.set_wf hw 125 (m.extractLsb' 0 32)
  have h126 := Cells.set_wf h125 126 (m.extractLsb' 32 32)
  have hidle : (g.setMask m).Idle := by
    rw [setMask_idle h]
    exact h
  rw [readS_idle hidle, readS_idle h, setMask_idle h]
  simp only [Cells.get_set h126, Cells.get_set h125, Cells.get_set hw]
  by_cases hr : r = 0
  · subst hr
    rfl
  · simp only [hr, if_false]

/-- Its three words are the mask. -/
theorem setMask_mask (h : g.Idle) (hw : g.s.wf = true) (m : LaneMask) (lane : Bool) : (g.setMask m).mask lane = m := by
  have hlow : m.extractLsb' 64 32 ++ m.extractLsb' 32 32 = m.extractLsb' 32 64 := BitVec.extractLsb'_append_extractLsb'_eq_extractLsb' rfl
  have hall : m.extractLsb' 32 64 ++ m.extractLsb' 0 32 = m := BitVec.extractLsb'_append_extractLsb' (w := 64)
  simp only [mask, setMask_readS h hw]
  exact (congrArg (· ++ _) hlow).trans hall

/-- A word of 4 bytes that sets the mask: fmt, stack, depth and every other scalar register are as they were. -/
theorem setMask_advance (h : g.Idle) (hw : g.s.wf = true) (m : LaneMask) :
    ((g.setMask m).advance 4).mask false = m ∧ ((g.setMask m).advance 4).fmt = g.fmt ∧
      ((g.setMask m).advance 4).rdepth = g.rdepth ∧ ((g.setMask m).advance 4).rstack = g.rstack ∧
      ((g.setMask m).advance 4).spc = g.spc + 4 ∧ ∀ r, r < 125 → ((g.setMask m).advance 4).readS false r = g.readS false r := by
  have hmask := setMask_mask h hw m false
  have hread := setMask_readS h hw m false
  simp only [setMask_idle h] at hmask hread ⊢
  rw [advance, tick_idle (g := { g with s := _, spc := _, reissue := none }) h]
  refine ⟨hmask, rfl, rfl, rfl, rfl, fun r hr => (hread r).trans ?_⟩
  have h127 : r ≠ 127 := by omega
  have h126 : r ≠ 126 := by omega
  have h125 : r ≠ 125 := by omega
  rw [if_neg h127, if_neg h126, if_neg h125]

end Group

/-! ### The words -/

section

variable {s : State} {t i : Nat} {g : Group}

theorem maskHeld_idle (h : s.Issuer t i g) (hi : g.Idle) : s.maskHeld = false := State.held_idle h hi _

theorem exec_mpush_fault (h : s.Issuer t i g) (hi : g.Idle) {x : Team} (hx : s.team t = some x) (hd : Group.rlimit x.spillOn ≤ g.rdepth)
    (n : BitVec 5) : exec (.mpush n) s = .next (s.raiseNow .reconvOverflow) := by
  have hexec : exec (.mpush n) s = execMpush n s := rfl
  rw [hexec, execMpush, State.byGroup_group h]
  simp [maskHeld_idle h hi, hx, hd]

theorem exec_mpush (h : s.Issuer t i g) (hi : g.Idle) {x : Team} (hx : s.team t = some x) (hd : g.rdepth < Group.rlimit x.spillOn)
    (n : BitVec 5) : exec (.mpush n) s =
      let s' := s.putGroup t i (((g.pushReconv ⟨g.mask false, g.k.get n.toNat, g.fmt⟩).setMask (g.mask false &&& g.k.get n.toNat)).advance 4)
      .next (if g.rstack.length < 32 then s' else s'.freshRows (State.reconvLoc t i (g.rdepth + 1)) 32) := by
  have hexec : exec (.mpush n) s = execMpush n s := rfl
  rw [hexec, execMpush, State.byGroup_group h]
  simp [maskHeld_idle h hi, hx, hd]

theorem exec_melse_mpop_empty (h : s.Issuer t i g) (hi : g.Idle) (hr : g.rstack = []) :
    exec .melse s = .next (s.raiseNow .reconvUnderflow) ∧ exec .mpop s = .next (s.raiseNow .reconvUnderflow) := by
  have hmelse : exec .melse s = execMelse s := rfl
  have hmpop : exec .mpop s = execMpop s := rfl
  rw [hmelse, hmpop, execMelse, execMpop, State.byGroup_group h, State.byGroup_group h]
  simp [maskHeld_idle h hi, hr]

theorem exec_melse (h : s.Issuer t i g) (hi : g.Idle) {e : Reconv} {r : List Reconv} (hr : g.rstack = e :: r) :
    exec .melse s = .next (s.putGroup t i (({ g with fmt := e.fmt }.setMask (e.mask &&& ~~~e.els)).advance 4)) := by
  have hexec : exec .melse s = execMelse s := rfl
  rw [hexec, execMelse, State.byGroup_group h]
  simp [maskHeld_idle h hi, hr]

theorem exec_mpop (h : s.Issuer t i g) (hi : g.Idle) {e : Reconv} {r : List Reconv} (hr : g.rstack = e :: r) :
    exec .mpop s =
      let l := State.reconvLoc t i g.rdepth
      let s' := s.putGroup t i (({ g.popReconv (s.numAt l 32) with fmt := e.fmt }.setMask e.mask).advance 4)
      .next (if g.rdepth ≤ 32 then s' else s'.noteRead l 32 g.core (some (t, some i))) := by
  have hexec : exec .mpop s = execMpop s := rfl
  rw [hexec, execMpop, State.byGroup_group h]
  simp [maskHeld_idle h hi, hr]

end

/-- Settles O7: each word sets the mask once (`Group.setMask_advance`) on a group whose stack is pushed, kept or popped. -/
theorem reconvergenceWordsComplete : Obligations.ReconvergenceWordsComplete := by
  unfold Obligations.ReconvergenceWordsComplete
  refine ⟨fun s t i g x n h hx hi hw => ⟨fun hd => ?push, fun hd => exec_mpush_fault h hi hx hd n, fun e r hr => ?melse,
    fun e r hr => ?mpop, exec_melse_mpop_empty h hi⟩, fun g e hw hlen => ?undo⟩
  case push =>
    obtain ⟨l, sp, hpush⟩ := g.pushReconv_eq ⟨g.mask false, g.k.get n.toNat, g.fmt⟩
    obtain ⟨hmask, hfmt, hdepth, hstack, hspc, hregs⟩ :=
      Group.setMask_advance (g := { g with rstack := ⟨g.mask false, g.k.get n.toNat, g.fmt⟩ :: l, spill := sp, rdepth := g.rdepth + 1 })
        hi hw (g.mask false &&& g.k.get n.toNat)
    refine ⟨_, ?_, hmask, hfmt, hdepth, by rw [hstack]; rfl, hspc, hregs⟩
    rw [exec_mpush h hi hx hd, hpush]
    rfl
  case melse =>
    obtain ⟨hmask, hfmt, hdepth, hstack, hspc, hregs⟩ :=
      Group.setMask_advance (g := { g with fmt := e.fmt }) hi hw (e.mask &&& ~~~e.els)
    exact ⟨_, exec_melse h hi hr, hmask, hfmt, hstack, hdepth, hspc, hregs⟩
  case mpop =>
    obtain ⟨hmask, hfmt, hdepth, hstack, hspc, hregs⟩ :=
      Group.setMask_advance (g := { g.popReconv (s.numAt (State.reconvLoc t i g.rdepth) 32) with fmt := e.fmt }) hi hw e.mask
    refine ⟨_, exec_mpop h hi hr, hmask, hfmt, fun hd => ?_, fun hd => ⟨Reconv.ofNum _, ?_, rfl, rfl, rfl⟩, hdepth, hspc, hregs⟩
    · have hroom : ¬32 < g.rdepth := by omega
      rw [hstack]
      simp [Group.popReconv, hr, hroom]
    · rw [hstack]
      simp only [Group.popReconv, hr, List.tail_cons, hd, if_true]
      rfl
  case undo =>
    obtain ⟨hpop, hcount, hspill⟩ := Group.pushReconv_popReconv hw hlen e
    obtain ⟨l, sp, hpush⟩ := g.pushReconv_eq e
    exact ⟨hpop, by rw [hpush]; rfl, by rw [hpush]; rfl, hcount, hspill⟩

end Sys2Proof.Machine

end

-- ==== Sys2Proof/Proofs/CounterWaits.lean ====

section

/-! PROOF. O17: waits on a group's counters (02 R56, R57; 13 R259, R260, R265). -/

namespace Sys2Proof.Machine

open Sys2Proof

/-- The classes in the order of their codes (12 R222). -/
theorem clsOf_eq {c : Nat} (h : c < 5) : clsOf c = ([Cls.ld, .cp, .mx, .cl, .pf][c]?).getD .ld := by
  interval_cases c <;> rfl

/-- A target stands four times its offset from the word: the offset, widened twice, is the same number. -/
theorem State.target_signExtend {s : State} {t i : Nat} {g : Group} (h : s.Issuer t i g) (o : BitVec 14) :
    s.target (o.signExtend 32) = g.spc + BitVec.ofInt 64 (4 * o.toInt) := by
  have hwide : (o.signExtend 32).signExtend 64 = BitVec.ofInt 64 o.toInt := by
    rw [BitVec.signExtend, BitVec.toInt_signExtend_of_le (by decide)]
  rw [State.target, State.spc_group h, hwide, Int.mul_comm, BitVec.ofInt_mul]
  rfl

section

variable {s : State} {t i : Nat} {g : Group}

theorem exec_wait (h : s.Issuer t i g) (c : BitVec 3) (n : BitVec 8) : exec (.wait c n) s =
    .next (if n.toNat < g.counter (clsOf c.toNat) then s else s.putGroup t i (g.advance 4)) := by
  have hexec : exec (.wait c n) s = execWait c n s := rfl
  rw [hexec, execWait, State.byGroup_group h, State.mapGroup_some s h.here]
  split <;> rfl

theorem exec_yield (h : s.Issuer t i g) (c : BitVec 3) (n : BitVec 8) (o : BitVec 14) : exec (.yield c n o) s =
    .next (if n.toNat < g.counter (clsOf c.toNat) then
        s.park t i (.yield (clsOf c.toNat) n.toNat (g.spc + BitVec.ofInt 64 (4 * o.toInt)))
      else s.jump (g.spc + BitVec.ofInt 64 (4 * o.toInt))) := by
  have hexec : exec (.yield c n o) s = execYield c n o s := rfl
  rw [hexec, execYield, State.byGroup_group h, State.target_signExtend h]
  split <;> rfl

theorem exec_fence (h : s.Issuer t i g) (sc : BitVec 3) : exec (.fence sc) s = .next (s.advance 4) := by
  have hexec : exec (.fence sc) s = execFence sc s := rfl
  rw [hexec, execFence, State.issuing, State.present_group h, if_pos rfl]

end

section

variable {g : Group} {c : Cls} {n : Nat} {k : DWord}

/-- A parked yield whose counter is at most n goes on at its label; only its wait, its SPC and the marks of an issue change (02 R57). -/
theorem wakeYield_met (hi : g.Idle) (hw : g.wait = some (.yield c n k)) (h : g.counter c ≤ n) :
    State.wakeYield g = { g with wait := none, spc := k, reissue := none, moved := true, stall := none } := by
  simp only [State.wakeYield, hw, h, if_true]
  exact Group.tick_idle (g := { g with wait := none, spc := k, reissue := none }) hi false

theorem wakeYield_unmet (hw : g.wait = some (.yield c n k)) (h : ¬g.counter c ≤ n) : State.wakeYield g = g := by
  simp only [State.wakeYield, hw, h, if_false]

end

/-- Settles O17: each word by whether the counter is above n, and the wake by whether it is once the operation has left. -/
theorem counterWaitsComplete : Obligations.CounterWaitsComplete := by
  unfold Obligations.CounterWaitsComplete
  refine ⟨fun s t i g c n o h hc => ?words, fun g c n op k hi hw => ?wake⟩
  case words =>
    simp only [exec_wait h, exec_yield h, clsOf_eq hc]
    refine ⟨fun hle => ?_, fun hlt => ?_, exec_fence h⟩
    · have hnot := Nat.not_lt.2 hle
      exact ⟨by rw [if_neg hnot], by rw [if_neg hnot]⟩
    · exact ⟨by rw [if_pos hlt], by rw [if_pos hlt]⟩
  case wake =>
    have hwait : (g.opDone op).wait = some (.yield c n k) := hw
    by_cases h : (g.opDone op).counter c ≤ n
    · rw [wakeYield_met (g := g.opDone op) hi hwait h]
      exact ⟨fun _ => ⟨rfl, rfl⟩, fun hlt => absurd h (Nat.not_le.2 hlt), rfl, rfl, rfl, rfl⟩
    · rw [wakeYield_unmet hwait h]
      exact ⟨fun hle => absurd hle h, fun _ => ⟨rfl, rfl⟩, rfl, rfl, rfl, rfl⟩

end Sys2Proof.Machine

end

-- ==== Sys2Proof/Proofs/StepWord.lean ====

section

/-! PROOF. O58: what a step is, move by move (log 1). On sound storage a fetch answers its word and nothing else, so that an issue is the decoded
word's exec, and what issuing adds. -/

namespace Sys2Proof.Machine

open Sys2Proof

namespace State

variable {s : State} {t i : Nat} {g : Group}

/-! ### The move of a step -/

/-- On sound storage no row waits for the rest of its bytes. -/
theorem openRows_sound (h : s.Sound) : s.openRows = s := by
  obtain ⟨hrows, -, hsyms⟩ := h
  simp [openRows, hrows, hsyms]

theorem act_issue (h : s.Sound) (a : Agent) : s.act (.issue a) = s.issue a := by rw [act, openRows_sound h]
theorem act_event (h : s.Sound) (e : Instr) : s.act (.event e) = exec e { s with cur := none } := by rw [act, openRows_sound h]
theorem act_tick (h : s.Sound) (n : Nat) : s.act (.tick n) = .next (s.passTime n) := by rw [act, openRows_sound h]
theorem act_input (h : s.Sound) (x : Input) : s.act (.input x) = .next (s.take x) := by rw [act, openRows_sound h]

/-- The head of the agenda is the move. -/
theorem step_agenda {m : Move} {r : List Move} (h : s.agenda = m :: r) : step s = { s with agenda := r }.act m := by
  rw [step, nextMove, h]

/-- With an empty agenda the move is one of the candidates, by a free value. -/
theorem step_candidate (h : s.agenda = []) : ∃ m, m ∈ s.candidates ∧ step s = { s with free := s.free + 1 }.act m := by
  have hpos : 0 < s.candidates.length := by simp [candidates]
  have hlt := Nat.mod_lt (Config.pick s.free) hpos
  refine ⟨_, List.getElem_mem hlt, ?_⟩
  rw [step, nextMove, h]
  simp only [draw, List.getElem?_eq_getElem hlt, Option.getD_some, h]

/-! ### Fetching -/

/-- A word of code that is mapped is the word that stands there. -/
theorem fetchWord_ok (hs : s.Sound) {va pa : Nat} (hva : va < 2 ^ 57) (h : s.translateNow t i .fetch va = .ok pa) :
    s.fetchWord t i va = .ok (s.wordAt (.dev pa)) s := by
  rw [fetchWord, if_neg (Nat.not_le.2 hva), h]
  simp only [noteRead_sound s hs]

/-- Words that are all mapped are those that stand there. -/
theorem fetchWords_ok (hs : s.Sound) {α : Type} (l : List α) {va pa : α → Nat}
    (h : ∀ a ∈ l, va a < 2 ^ 57 ∧ s.translateNow t i .fetch (va a) = .ok (pa a)) :
    s.fetchWords t i (l.map va) = .ok (l.map fun a => s.wordAt (.dev (pa a))) s := by
  induction l with
  | nil => rfl
  | cons a l ih =>
    obtain ⟨hva, hpa⟩ := h a List.mem_cons_self
    simp only [List.map_cons, fetchWords, fetchWord_ok hs hva hpa, ih fun b hb => h b (List.mem_cons_of_mem _ hb)]

/-- A list by rows of three, as one list of its places. -/
theorem flatMap_range_three {β : Type} (n : Nat) (f : Nat → Nat → β) :
    ((List.range n).flatMap fun k => (List.range 3).map fun q => f k q) = (List.range n ×ˢ List.range 3).map fun x => f x.1 x.2 := by
  simp [SProd.sprod, List.product, List.map_flatMap, Function.comp_def]

/-- A run of which every word is mapped has the words that stand there. -/
theorem fetchRun_ok (hs : s.Sound) {n : Nat} {cursor : Word} {p : Nat → Nat → Nat}
    (h : ∀ k q, k < n → q < 3 → s.laneAddr t (cursor + BitVec.ofNat 32 k) q < 2 ^ 57 ∧
      s.translateNow t i .fetch (s.laneAddr t (cursor + BitVec.ofNat 32 k) q) = .ok (p k q)) :
    s.fetchRun t i n cursor = .ok ((List.range n).flatMap fun k => (List.range 3).map fun q => s.wordAt (.dev (p k q))) s := by
  rw [fetchRun, flatMap_range_three, flatMap_range_three]
  refine fetchWords_ok hs _ fun x hx => ?_
  obtain ⟨hk, hq⟩ := List.mem_product.1 hx
  exact h x.1 x.2 (List.mem_range.1 hk) (List.mem_range.1 hq)

/-! ### A group issues -/

/-- A step that names a group that may issue gives it its word. -/
theorem step_issueGroup (hs : s.Sound) {r : List Move} (ha : s.agenda = .issue (.group t i) :: r) (hg : s.group t i = some g)
    (hm : ({ s with agenda := r, cur := some (.group t i) } : State).mayIssue t i g = true) :
    step s =
      let s2 := ({ s with agenda := r, cur := some (.group t i) } : State).putGroup t i { g with moved := false }
      if g.run.n = 0 then s2.issueScalar t i g else s2.issueLane t i g := by
  have hg' : ({ s with agenda := r, cur := some (.group t i) } : State).group t i = some g := hg
  rw [step_agenda ha, act_issue (s := { s with agenda := r }) hs, issue]
  simp only [issueGroup, hg', hm, if_true]

/-- A scalar word that is one word. -/
theorem issueScalar_one (hs : s.Sound) {pa n : Nat} {ins : Instr} (hlt : g.spc.toNat < 2 ^ 57)
    (hpa : s.translateNow t i .fetch g.spc.toNat = .ok pa) (hop : fOp (s.wordAt (.dev pa)) ≠ 0x7F)
    (hdec : decodeScalar (s.wordAt (.dev pa)) none = .ok (ins, n)) :
    s.issueScalar t i g = s.afterIssue t i g.core (s.bandOf t) (chargeOf (s.resolve ins) s.activeNow) (exec (s.resolve ins) s) := by
  unfold issueScalar
  simp only [fetchWord_ok hs hlt hpa, hop, if_false, hdec, runWord]

/-- A scalar word that is two words. -/
theorem issueScalar_two (hs : s.Sound) {pa pa2 n : Nat} {ins : Instr} (hlt : g.spc.toNat + 4 < 2 ^ 57)
    (hpa : s.translateNow t i .fetch g.spc.toNat = .ok pa) (hop : fOp (s.wordAt (.dev pa)) = 0x7F)
    (hpa2 : s.translateNow t i .fetch (g.spc.toNat + 4) = .ok pa2)
    (hdec : decodeScalar (s.wordAt (.dev pa)) (some (s.wordAt (.dev pa2))) = .ok (ins, n)) :
    s.issueScalar t i g = s.afterIssue t i g.core (s.bandOf t) (chargeOf (s.resolve ins) s.activeNow) (exec (s.resolve ins) s) := by
  have hfirst : g.spc.toNat < 2 ^ 57 := by omega
  unfold issueScalar
  simp only [fetchWord_ok hs hfirst hpa, hop, if_true, fetchWord_ok hs hlt hpa2, hdec, runWord]

/-- A lane word of which the run has the code. -/
theorem issueLane_code {c0 c1 c2 : Word} {more : List Word} {ins : Instr} (hcode : g.run.code = c0 :: c1 :: c2 :: more)
    (hdec : decodeLane (laneOfWords c0 c1 c2) = .ok ins) :
    s.issueLane t i g = s.afterIssue t i g.core (s.bandOf t) (chargeOf ins s.activeNow) (exec (s.resolve ins) s) := by
  have hdec' : decodeLane (laneOfWords (g.run.code.getD 0 0) (g.run.code.getD 1 0) (g.run.code.getD 2 0)) = .ok ins := by
    rw [hcode]
    exact hdec
  have hsome : g.run.code.isEmpty = false := by rw [hcode]; rfl
  unfold issueLane
  simp only [hsome, Bool.false_eq_true, if_false, hdec', runWord]

/-- A run without its code fetches it, and then is a run that has it. -/
theorem issueLane_fetch {ws : List Word} (hcode : g.run.code = []) (hw : s.fetchRun t i g.run.n g.run.cursor = .ok ws s) (hne : ws ≠ []) :
    s.issueLane t i g = (s.putGroup t i { g with moved := false, run := { g.run with code := ws } }).issueLane t i
      { g with moved := false, run := { g.run with code := ws } } := by
  have hempty : g.run.code.isEmpty = true := by rw [hcode]; rfl
  have hsome : ws.isEmpty = false := by simpa using hne
  unfold issueLane
  simp only [hempty, hw, hsome, Bool.false_eq_true, if_true, if_false]

/-- The code of a run of one word or more, by its first lane word. -/
theorem runCode_head {n : Nat} (hn : n ≠ 0) (f : Nat → Nat → Word) : ∃ more,
    ((List.range n).flatMap fun k => (List.range 3).map fun q => f k q) = f 0 0 :: f 0 1 :: f 0 2 :: more := by
  obtain ⟨m, rfl⟩ := Nat.exists_eq_succ_of_ne_zero hn
  rw [List.range_succ_eq_map (n := m), List.flatMap_cons]
  exact ⟨_, rfl⟩

/-! ### A Curator issues -/

theorem curatorWord_eq {c a : Nat} (h : a + 4 ≤ 2 ^ 18) : s.curatorWord c a = some (s.wordAt (.curator c a)) := by
  rw [curatorWord, if_neg (Nat.not_lt.2 h)]

section

variable (hs : s.Sound) {c n : Nat} {ins : Instr} (hstop : (s.core c).stopped = false) (htrap : s.trapDue c = false)
  (hpc : (s.core c).spc.toNat + 8 ≤ 2 ^ 18)
  (hdec : decodeScalar (s.wordAt (.curator c (s.core c).spc.toNat)) (some (s.wordAt (.curator c ((s.core c).spc.toNat + 4)))) = .ok (ins, n))

include hs hstop htrap hpc hdec

/-- A word that the governor lets through is run, and what it adds is added. -/
theorem issueCurator_runs (hgov : s.withholds c (chargeOf (s.resolve ins) 0) = false) {s' : State} (hexec : exec (s.resolve ins) s = .next s') :
    s.issueCurator c = .next (s.afterCurator s' c (Config.curatorBand % 8) (chargeOf (s.resolve ins) 0) ins) := by
  have hfirst := curatorWord_eq (s := s) (c := c) (a := (s.core c).spc.toNat) (by omega)
  have hnext := curatorWord_eq (s := s) (c := c) (a := (s.core c).spc.toNat + 4) hpc
  unfold issueCurator
  simp only [hstop, htrap, hfirst, hnext, noteRead_sound s hs, hdec, hgov, runWord, hexec, Bool.and_false, Bool.false_eq_true, if_false]

/-- A word that the governor holds back, and that has been counted, changes nothing. -/
theorem issueCurator_withheld (hwait : (s.core c).waiting = false) (hgov : s.withholds c (chargeOf (s.resolve ins) 0) = true)
    (hcounted : (s.core c).charged = true) : s.issueCurator c = .next s := by
  have hfirst := curatorWord_eq (s := s) (c := c) (a := (s.core c).spc.toNat) (by omega)
  have hnext := curatorWord_eq (s := s) (c := c) (a := (s.core c).spc.toNat + 4) hpc
  unfold issueCurator
  simp only [hstop, htrap, hfirst, hnext, noteRead_sound s hs, hdec, hgov, hwait, hcounted, Bool.not_false, Bool.and_self,
    Bool.false_eq_true, if_false, if_true]

end

/-- A Curator's first issue of a word that has run: its charge, unless it faulted. -/
theorem afterCurator_first {c : Nat} (hwait : (s.core c).waiting = false) (s' : State) (b n : Nat) (ins : Instr) :
    s.afterCurator s' c b n ins = (if (s'.core c).stopped then s' else s'.charge c b n).mapCore c fun x => { x with
      charged := false, waiting := curatorWaits ins && (s'.core c).spc == (s.core c).spc && !(s'.core c).stopped } := by
  simp only [afterCurator, hwait, Bool.false_or]

/-! ### What issuing adds -/

variable {s1 : State} {core band n : Nat}

/-- A word that has issued, of a team that runs, is charged, and a single step is over. -/
theorem afterIssue_charged (hg : s1.group t i = some g) (hi : issued g = true) (hw : s.withholds core n = false)
    (hh : (s.team t).map (·.halted) = some false) : s.afterIssue t i core band n (.next s1) =
      .next ((s1.charge core band n).mapGroup t i fun g => { g with charged := false, stepping := false }) := by
  simp [afterIssue, hg, hi, hw, hh]

/-- A word that the governor withholds, and that has been counted, changes nothing. -/
theorem afterIssue_withheld (hg : s1.group t i = some g) (hi : issued g = true) (hw : s.withholds core n = true)
    (hc : (s.group t i).map (·.charged) = some true) : s.afterIssue t i core band n (.next s1) = .next s := by
  simp [afterIssue, hg, hi, hw, hc]

end State

/-- Settles O58: the head of the agenda is the move, and an issue is the fetch, the decoding and exec of the word, move by move. -/
theorem stepRunsTheDecodedWord : Obligations.StepRunsTheDecodedWord := by
  unfold Obligations.StepRunsTheDecodedWord
  intro s r hs
  refine ⟨?group, ?curator, fun e ha => ?event, fun n ha => ?tick, fun x ha => ?input, ?charge, State.step_candidate⟩
  case group =>
    intro t i pa g ins ha hg s1 s2 hm
    have hstep := State.step_issueGroup hs ha hg hm
    have hs2 : s2.Sound := hs
    refine ⟨?oneWord, ?twoWords, ?lane, ?fetched⟩
    case oneWord =>
      intro n hn hlt hpa hop hdec
      rw [hstep, if_pos hn]
      exact State.issueScalar_one hs2 hlt hpa hop hdec
    case twoWords =>
      intro pa2 n hn hlt hpa hop hpa2 hdec
      rw [hstep, if_pos hn]
      exact State.issueScalar_two hs2 hlt hpa hop hpa2 hdec
    case lane =>
      intro c0 c1 c2 more hn hcode hdec
      rw [hstep, if_neg hn]
      exact State.issueLane_code hcode hdec
    case fetched =>
      intro p hn hcode hp s3 hdec
      obtain ⟨more, hmore⟩ := State.runCode_head hn fun k q => s2.wordAt (.dev (p k q))
      rw [hstep, if_neg hn, State.issueLane_fetch hcode (State.fetchRun_ok hs2 hp) (by rw [hmore]; exact List.cons_ne_nil _ _)]
      exact State.issueLane_code (g := { g with moved := false, run := { g.run with code := _ } }) hmore hdec
  case curator =>
    intro c ins n ha hstop s1 pc htrap hpc hdec q hwait
    have hissue : step s = s1.issueCurator c := by
      rw [State.step_agenda ha, State.act_issue (s := { s with agenda := r }) hs]
      rfl
    refine ⟨fun hgov s' hexec => ?_, fun hgov hcounted => ?_⟩
    · rw [hissue, State.issueCurator_runs (s := s1) hs hstop htrap hpc hdec hgov hexec, State.afterCurator_first (s := s1) hwait]
      rfl
    · rw [hissue, State.issueCurator_withheld (s := s1) hs hstop htrap hpc hdec hwait hgov hcounted]
  case event =>
    rw [State.step_agenda ha, State.act_event (s := { s with agenda := r }) hs]
  case tick =>
    rw [State.step_agenda ha, State.act_tick (s := { s with agenda := r }) hs]
  case input =>
    rw [State.step_agenda ha, State.act_input (s := { s with agenda := r }) hs]
  case charge =>
    intro s2 s1 t i core band n g hg hissued
    exact ⟨State.afterIssue_charged hg hissued, State.afterIssue_withheld hg hissued⟩

end Sys2Proof.Machine

end

-- ==== Sys2Proof/Proofs/ScalarResults.lean ====

section

/-! PROOF. O4: what a scalar result writes and what it leaves alone (03 R59, 13 R242, 22 R345). One register store for groups and Curators, whose
s0 takes nothing; one form of the state after a result; one frame for each of the two agents. -/

namespace Sys2Proof.Machine

open Sys2Proof

theorem Tab.set_set {α : Type} (m : Tab α) (k : Nat) (a b : α) : (m.set k a).set k b = m.set k b := by
  induction m with
  | nil => simp [set]
  | cons e r ih =>
    obtain ⟨j, u⟩ := e
    simp only [set]
    split_ifs with hj hlt
    · simp [set]
    · simp [set]
    · simp [set, hj, hlt, ih]

/-! ### The registers as a store -/

namespace Cells

variable {m : Cells 32} {d r : Nat}

/-- The registers after a result for register d: s0 takes nothing (03 R59). -/
def putReg (m : Cells 32) (d : Nat) (v : Word) : Cells 32 := if d = 0 then m else m.set d v

/-- The registers after a pair result: the even register takes the low half (03 R59). -/
def putRegPair (m : Cells 32) (d : Nat) (v : DWord) : Cells 32 :=
  (m.putReg d (v.extractLsb' 0 32)).putReg (d + 1) (v.extractLsb' 32 32)

theorem putReg_zero (m : Cells 32) (v : Word) : m.putReg 0 v = m := if_pos rfl

theorem putReg_pos (hd : d ≠ 0) (v : Word) : m.putReg d v = m.set d v := if_neg hd

theorem putReg_wf (h : m.wf = true) (d : Nat) (v : Word) : (m.putReg d v).wf = true := by
  unfold putReg
  split
  · exact h
  · exact set_wf h d v

/-- A register other than s0 after a result; under 0 the store itself may hold anything, for s0 is never read from it. -/
theorem get_putReg (h : m.wf = true) (hr : r ≠ 0) (v : Word) : (m.putReg d v).get r = if r = d then v else m.get r := by
  by_cases hd : d = 0
  · subst hd
    rw [putReg_zero, if_neg hr]
  · rw [putReg_pos hd, get_set h]

theorem get_putReg_of_ne (h : m.wf = true) (hr : r ≠ d) (v : Word) : (m.putReg d v).get r = m.get r := by
  by_cases hd : d = 0
  · subst hd
    rw [putReg_zero]
  · rw [putReg_pos hd, get_set_ne hr h]

theorem extractLsb'_high (v : DWord) : v.extractLsb' 32 32 = BitVec.ofNat 32 (v.toNat / 2 ^ 32) :=
  BitVec.eq_of_toNat_eq (by simp [Nat.shiftRight_eq_div_pow])

theorem get_putRegPair (h : m.wf = true) (hr : r ≠ 0) (v : DWord) : (m.putRegPair d v).get r =
    if r = d then v.setWidth 32 else if r = d + 1 then BitVec.ofNat 32 (v.toNat / 2 ^ 32) else m.get r := by
  have hlow : v.extractLsb' 0 32 = v.setWidth 32 := rfl
  rw [putRegPair, get_putReg (putReg_wf h _ _) hr, get_putReg h hr, hlow, extractLsb'_high]
  by_cases h1 : r = d
  · have h2 : r ≠ d + 1 := by omega
    rw [if_neg h2, if_pos h1, if_pos h1]
  · rw [if_neg h1, if_neg h1]

theorem get_putRegPair_of_ne (h : m.wf = true) (h1 : r ≠ d) (h2 : r ≠ d + 1) (v : DWord) : (m.putRegPair d v).get r = m.get r := by
  rw [putRegPair, get_putReg_of_ne (putReg_wf h _ _) h2, get_putReg_of_ne h h1]

end Cells

/-- The odd register of a pair has the next number. -/
theorem toNat_succ_of_even {d : SReg} (h : d.toNat % 2 = 0) : (d + 1).toNat = d.toNat + 1 := by bv_omega

/-! ### A group -/

/-- A group whose scalar word of len bytes has issued and left the registers m: beside them its SPC and the marks of the issue. -/
def Group.scalarNext (g : Group) (m : Cells 32) (len : Nat) : Group :=
  { g with s := m, spc := g.spc + BitVec.ofNat 64 len, reissue := none, moved := true, stall := none }

theorem Group.scalarNext_sameBut {g : Group} {m : Cells 32} {rs : List Nat} (h : ∀ r, r ∉ rs → m.get r = g.s.get r) (len : Nat) :
    g.SameBut (g.scalarNext m len) rs := ⟨h, rfl⟩

/-- How such a group reads: s0 is zero. -/
theorem Group.scalarNext_readS {g : Group} (h : g.Idle) (m : Cells 32) (len r : Nat) :
    (g.scalarNext m len).readS false r = if r = 0 then 0 else m.get r := readS_idle (g := g.scalarNext m len) h false r

namespace State

variable {s : State} {t i c : Nat} {g : Group} {m : Cells 32}

theorem setS_advance_scalarNext (h : s.Issuer t i g) (hi : g.Idle) (d : SReg) (v : Word) (len : Nat) :
    (s.setS d v).advance len = s.putGroup t i (g.scalarNext (g.s.putReg d.toNat v) len) := setS_advance_group h hi d v len

theorem setPair_advance_scalarNext (h : s.Issuer t i g) (hi : g.Idle) {d : SReg} (hd : d.toNat % 2 = 0) (v : DWord) (len : Nat) :
    (s.setPair d v).advance len = s.putGroup t i (g.scalarNext (g.s.putRegPair d.toNat v) len) := by
  rw [setPair_group h hi, advance_group (h.put _), Group.tick_idle (g := { g with s := _, spc := _, reissue := none }) hi,
    putGroup_putGroup, toNat_succ_of_even hd]
  rfl

/-- A scalar word of a group that writes registers of rs and moves on changes nothing else. -/
theorem scalarNext_frame (h : s.group t i = some g) {rs : List Nat} (hm : ∀ r, r ∉ rs → m.get r = g.s.get r) (len : Nat) :
    g.SameBut (g.scalarNext m len) rs ∧ s.SameButGroups (s.putGroup t i (g.scalarNext m len)) ∧
      s.OthersSame (s.putGroup t i (g.scalarNext m len)) t i ∧ s.MemorySame (s.putGroup t i (g.scalarNext m len)) :=
  ⟨Group.scalarNext_sameBut hm len, rfl, fun _ hk => Tab.get_set_ne _ hk _, memorySame_putGroup h rfl⟩

/-! ### A Curator -/

@[simp] theorem putCore_putCore (s : State) (c : Nat) (a b : Core) : (s.putCore c a).putCore c b = s.putCore c b := by
  simp only [putCore, Tab.set_set]

theorem Curates.put (h : s.Curates c) (e : Nat) (x : Core) : (s.putCore e x).Curates c := h

theorem advance_curator (h : s.Curates c) (len : Nat) :
    s.advance len = s.putCore c { s.core c with spc := (s.core c).spc + BitVec.ofNat 64 len } := by
  have hcur : s.cur = some (.curator c) := h
  simp only [advance, jump, spc, hcur, mapCore]

theorem setS_curator_zero (h : s.Curates c) (v : Word) : s.setS 0 v = s := by
  have hcur : s.cur = some (.curator c) := h
  simp only [setS, hcur, if_true]

theorem setS_curator (h : s.Curates c) {d : SReg} (hd : d ≠ 0) (v : Word) :
    s.setS d v = s.putCore c { s.core c with s := (s.core c).s.set d.toNat v } := by
  have hcur : s.cur = some (.curator c) := h
  simp only [setS, hcur, if_neg hd, mapCore]

/-- A core whose Curator's word of len bytes has left the registers m. -/
def scalarNextCore (s : State) (c : Nat) (m : Cells 32) (len : Nat) : Core :=
  { s.core c with s := m, spc := (s.core c).spc + BitVec.ofNat 64 len }

theorem setS_advance_curator (h : s.Curates c) (d : SReg) (v : Word) (len : Nat) :
    (s.setS d v).advance len = s.putCore c (s.scalarNextCore c ((s.core c).s.putReg d.toNat v) len) := by
  by_cases hd : d = 0
  · subst hd
    rw [setS_curator_zero h, advance_curator h]
    rfl
  · have hpos : d.toNat ≠ 0 := fun h0 => hd (BitVec.eq_of_toNat_eq h0)
    rw [setS_curator h hd, advance_curator (h.put _ _), putCore_putCore, core_putCore, Cells.putReg_pos hpos]
    rfl

/-- Its odd register is not s0, so that the pair's high half is a result of its own. -/
theorem setPair_advance_curator (h : s.Curates c) {d : SReg} (hd : d.toNat % 2 = 0) (v : DWord) (len : Nat) :
    (s.setPair d v).advance len = s.putCore c (s.scalarNextCore c ((s.core c).s.putRegPair d.toNat v) len) := by
  rw [setPair]
  by_cases h0 : d = 0
  · subst h0
    rw [setS_curator_zero h, setS_advance_curator h]
    rfl
  · have hpos : d.toNat ≠ 0 := fun hz => h0 (BitVec.eq_of_toNat_eq hz)
    rw [setS_curator h h0, setS_advance_curator (h.put _ _), putCore_putCore, Cells.putRegPair, Cells.putReg_pos hpos,
      toNat_succ_of_even hd]
    simp only [scalarNextCore, core_putCore]

/-- Putting a core whose memory is the same changes no byte of memory. -/
theorem memorySame_putCore {x : Core} (hx : x.mem = (s.core c).mem) : s.MemorySame (s.putCore c x) := by
  intro l
  have hstored : (s.putCore c x).stored l = s.stored l := by
    cases l with
    | curator e o =>
      by_cases he : e = c
      · subst he
        simp only [stored, core_putCore, hx]
      · simp only [stored, core_putCore_ne s he]
    | _ => rfl
  have hread : (s.putCore c x).uncorrectable l = s.uncorrectable l := by
    unfold uncorrectable linkLost
    cases l <;> rfl
  simp only [byteAt, hstored, hread]

/-- A Curator's word that leaves the registers m and moves on changes nothing else. -/
theorem scalarNextCore_frame (s : State) (c : Nat) (m : Cells 32) (len : Nat) :
    let s' := s.putCore c (s.scalarNextCore c m len)
    s'.core c = { s.core c with s := (s'.core c).s, spc := (s.core c).spc + BitVec.ofNat 64 len } ∧
      s' = { s with cores := s'.cores } ∧ (∀ e, e ≠ c → s'.core e = s.core e) ∧ s.MemorySame s' :=
  ⟨by simp only [core_putCore]; rfl, rfl, fun _ he => core_putCore_ne s he _, memorySame_putCore rfl⟩

theorem sreg_scalarNextCore (h : s.Curates c) (m : Cells 32) (len : Nat) (r : SReg) :
    (s.putCore c (s.scalarNextCore c m len)).sreg r = if r = 0 then 0 else m.get r.toNat := by
  rw [sreg_curator (h.put c _), core_putCore]
  rfl

end State

/-- Settles O4: after each result the agent stands as `Group.scalarNext` or `State.scalarNextCore` says, with its registers `Cells.putReg` or
`Cells.putRegPair`. -/
theorem scalarResultsWriteTheirRegisters : Obligations.ScalarResultsWriteTheirRegisters := by
  unfold Obligations.ScalarResultsWriteTheirRegisters
  refine ⟨fun s t i g d v len h hi hw => ?group, fun s t i g d v len h hi hw hd => ?groupPair, fun s c d v len h hw => ?curator,
    fun s c d v len h hw hd => ?curatorPair⟩
  case group =>
    rw [State.setS_advance_scalarNext h hi]
    refine ⟨_, State.group_putGroup .., fun r => ?_, rfl,
      State.scalarNext_frame h.here (fun r hr => Cells.get_putReg_of_ne hw (by simpa using hr) v) len⟩
    rw [Group.scalarNext_readS hi, Group.readS_idle hi]
    split
    · rfl
    · next hr => exact Cells.get_putReg hw hr v
  case groupPair =>
    rw [State.setPair_advance_scalarNext h hi hd]
    have hothers (r : Nat) (hr : r ∉ [d.toNat, d.toNat + 1]) : (g.s.putRegPair d.toNat v).get r = g.s.get r := by
      obtain ⟨h1, h2⟩ : r ≠ d.toNat ∧ r ≠ d.toNat + 1 := by simpa using hr
      exact Cells.get_putRegPair_of_ne hw h1 h2 v
    refine ⟨_, State.group_putGroup .., fun r => ?_, rfl, State.scalarNext_frame h.here hothers len⟩
    rw [Group.scalarNext_readS hi, Group.readS_idle hi]
    split
    · rfl
    · next hr => exact Cells.get_putRegPair hw hr v
  case curator =>
    rw [State.setS_advance_curator h]
    refine ⟨fun r => ?_, State.scalarNextCore_frame s c _ len⟩
    rw [State.sreg_scalarNextCore h, State.sreg_curator h]
    split
    · rfl
    · next hr =>
      have hpos : r.toNat ≠ 0 := fun h0 => hr (BitVec.eq_of_toNat_eq h0)
      simp only [Cells.get_putReg hw hpos, BitVec.toNat_inj]
  case curatorPair =>
    rw [State.setPair_advance_curator h hd]
    refine ⟨fun r => ?_, State.scalarNextCore_frame s c _ len⟩
    rw [State.sreg_scalarNextCore h, State.sreg_curator h]
    split
    · rfl
    · next hr =>
      have hpos : r.toNat ≠ 0 := fun h0 => hr (BitVec.eq_of_toNat_eq h0)
      simp only [Cells.get_putRegPair hw hpos, ← toNat_succ_of_even hd, BitVec.toNat_inj]

end Sys2Proof.Machine

end

-- ==== Sys2Proof/Proofs/BarrierSlots.lean ====

section

/-! PROOF. O18: barrier slots (03 R64, 13 R261). The fields of a slot's word and what an arrival makes of them; whom a flipped phase wakes, group by
group and symbol by symbol; the five words. -/

namespace Sys2Proof.Machine

open Sys2Proof

/-- The row of a number after every row has gone through f. -/
theorem Tab.get_map {α β : Type} (f : α → β) (m : Tab α) (k : Nat) :
    Tab.get (m.map fun e => (e.1, f e.2)) k = (m.get k).map f := by
  induction m with
  | nil => rfl
  | cons e r ih =>
    obtain ⟨j, u⟩ := e
    simp only [List.map_cons, get]
    split_ifs
    · rfl
    · rfl
    · exact ih

namespace State

/-! ### The word of a slot (03 R64) -/

theorem toNat_bsWord (e a : Nat) (p : Bool) : (bsWord e a p).toNat = e % 1024 + a % 1024 * 1024 + p.toNat * 2 ^ 20 := by
  have hflag : (if p = true then 2 ^ 20 else 0) = p.toNat * 2 ^ 20 := by cases p <;> rfl
  have hp := p.toNat_le
  rw [bsWord, hflag, BitVec.toNat_ofNat]
  omega

theorem bsExpected_bsWord (e a : Nat) (p : Bool) : bsExpected (bsWord e a p) = e % 1024 := by
  rw [bsExpected, fieldAt, toNat_bsWord]
  omega

theorem bsArrived_bsWord (e a : Nat) (p : Bool) : bsArrived (bsWord e a p) = a % 1024 := by
  rw [bsArrived, fieldAt, toNat_bsWord]
  omega

theorem bsPhase_bsWord (e a : Nat) (p : Bool) : bsPhase (bsWord e a p) = p := by
  have hp := p.toNat_le
  have hbit : (bsWord e a p).toNat / 2 ^ 20 % 2 = p.toNat := by
    rw [toNat_bsWord]
    omega
  rw [bsPhase, bitAt, hbit]
  cases p <;> rfl

theorem bsExpected_lt (w : Word) : bsExpected w < 1024 := Nat.mod_lt _ (by decide)

variable {w : Word}

/-- The arrival that completes a phase. -/
theorem bsArrive_last (h : bsArrived w + 1 = bsExpected w) :
    bsExpected (bsArrive w) = bsExpected w ∧ bsArrived (bsArrive w) = 0 ∧ bsPhase (bsArrive w) = !bsPhase w := by
  have he := Nat.mod_eq_of_lt (bsExpected_lt w)
  rw [bsArrive, if_pos h, bsExpected_bsWord, bsArrived_bsWord, bsPhase_bsWord, he]
  exact ⟨rfl, rfl, rfl⟩

/-- An arrival before it. -/
theorem bsArrive_early (h : bsArrived w + 1 < bsExpected w) :
    bsExpected (bsArrive w) = bsExpected w ∧ bsArrived (bsArrive w) = bsArrived w + 1 ∧ bsPhase (bsArrive w) = bsPhase w := by
  have he := bsExpected_lt w
  rw [bsArrive, if_neg h.ne, bsExpected_bsWord, bsArrived_bsWord, bsPhase_bsWord, Nat.mod_eq_of_lt he, Nat.mod_eq_of_lt (h.trans he)]
  exact ⟨rfl, rfl, rfl⟩

/-- Fewer arrivals than members, on a slot that no one has arrived on. -/
theorem iterate_bsArrive_early {k : Nat} (h0 : bsArrived w = 0) (hk : k < bsExpected w) :
    bsExpected (bsArrive^[k] w) = bsExpected w ∧ bsArrived (bsArrive^[k] w) = k ∧ bsPhase (bsArrive^[k] w) = bsPhase w := by
  induction k with
  | zero => exact ⟨rfl, h0, rfl⟩
  | succ k ih =>
    obtain ⟨he, ha, hp⟩ := ih (by omega)
    have hearly : bsArrived (bsArrive^[k] w) + 1 < bsExpected (bsArrive^[k] w) := by rw [ha, he]; exact hk
    obtain ⟨he', ha', hp'⟩ := bsArrive_early hearly
    rw [Function.iterate_succ_apply']
    exact ⟨he'.trans he, by rw [ha', ha], hp'.trans hp⟩

/-- As many arrivals as members. -/
theorem iterate_bsArrive_all (h0 : bsArrived w = 0) (h1 : 1 ≤ bsExpected w) :
    bsExpected (bsArrive^[bsExpected w] w) = bsExpected w ∧ bsArrived (bsArrive^[bsExpected w] w) = 0 ∧
      bsPhase (bsArrive^[bsExpected w] w) = !bsPhase w := by
  obtain ⟨k, hk⟩ : ∃ k, bsExpected w = k + 1 := ⟨_, (Nat.sub_add_cancel h1).symm⟩
  obtain ⟨he, ha, hp⟩ := iterate_bsArrive_early (k := k) h0 (by omega)
  have hlast : bsArrived (bsArrive^[k] w) + 1 = bsExpected (bsArrive^[k] w) := by rw [ha, he, hk]
  obtain ⟨he', ha', hp'⟩ := bsArrive_last hlast
  rw [show bsArrive^[bsExpected w] w = bsArrive (bsArrive^[k] w) by rw [hk, Function.iterate_succ_apply']]
  exact ⟨he'.trans he, ha', by rw [hp', hp]⟩

/-- An arrival changes the phase exactly where it completes it. -/
theorem bsPhase_bsArrive_ne : bsPhase (bsArrive w) ≠ bsPhase w ↔ bsArrived w + 1 = bsExpected w := by
  by_cases h : bsArrived w + 1 = bsExpected w
  · simp [bsArrive_last h, h]
  · simp [bsArrive, h, bsPhase_bsWord]

end State

/-! ### Whom a phase wakes (03 R64, 10 R185) -/

/-- A group after slot n of its team has come to phase ph: parked on the other phase it is ready, past its word. -/
def Group.seeSlot (n : Nat) (ph : Bool) (h : Group) : Group :=
  match h.wait with
  | some (.slot m p) => if m = n && p != ph then ({ h with wait := none } : Group).advance 4 else h
  | _ => h

/-- A symbol after slot n of its team has come to phase ph: its condition is met where it waits for the other to end. -/
def Sym.seeSlot (n : Nat) (ph : Bool) (y : Sym) : Sym :=
  match y.src with
  | .slot m p _ _ => if m = n && p != ph then { y with met := true } else y
  | _ => y

theorem Group.seeSlot_eq (n : Nat) (p : Bool) (h : Group) :
    h.seeSlot n (!p) = if h.wait = some (.slot n p) then ({ h with wait := none } : Group).advance 4 else h := by
  unfold seeSlot
  split
  · next m q hw => simp [hw]
  · next hw => rw [if_neg (hw n p)]

/-- The symbol takes its value when phase p of slot n ends (10 R185). -/
def Sym.awaits (n : Nat) (p : Bool) (y : Sym) : Bool :=
  match y.src with
  | .slot k q _ _ => k == n && q == p
  | _ => false

theorem Sym.seeSlot_eq (n : Nat) (p : Bool) (y : Sym) : y.seeSlot n (!p) = { y with met := y.met || y.awaits n p } := by
  obtain ⟨src, met, val⟩ := y
  cases src with
  | slot m q ax v =>
    by_cases h : m = n ∧ q = p
    · obtain ⟨rfl, rfl⟩ := h
      simp [seeSlot, awaits]
    · have hne : (m == n && q == p) = false := by simpa using h
      have hstay : ¬(m = n && q != !p) = true := by simpa using h
      simp only [seeSlot, awaits, if_neg hstay, hne, Bool.or_false]
  | manual => simp only [seeSlot, awaits, Bool.or_false]
  | counter => simp only [seeSlot, awaits, Bool.or_false]

namespace State

variable {s : State} {t i n : Nat} {g h : Group} {x : Team} {ph : Bool}

/-- One group of the team is told of the phase. -/
def tellGroup (t n : Nat) (ph : Bool) (s : State) (g : Group) : State :=
  match g.wait with
  | some (.slot m p) => if m = n && p != ph then s.putGroup t g.idx (({ g with wait := none } : Group).advance 4) else s
  | _ => s

/-- It is put as it then is, or it is not changed by it. -/
theorem tellGroup_eq (t n : Nat) (ph : Bool) (s : State) (g : Group) :
    s.tellGroup t n ph g = s.putGroup t g.idx (g.seeSlot n ph) ∨ s.tellGroup t n ph g = s ∧ g.seeSlot n ph = g := by
  unfold tellGroup Group.seeSlot
  split
  · split
    · exact .inl rfl
    · exact .inr ⟨rfl, rfl⟩
  · exact .inr ⟨rfl, rfl⟩

theorem tellGroup_sameButGroups (s : State) (g : Group) : s.SameButGroups (s.tellGroup t n ph g) := by
  rcases tellGroup_eq t n ph s g with he | ⟨he, -⟩ <;> rw [he] <;> rfl

/-- The group that is told stands as it then is, where it stood as it was or as it then is. -/
theorem tellGroup_same (hs : s.group t g.idx = some g ∨ s.group t g.idx = some (g.seeSlot n ph)) :
    (s.tellGroup t n ph g).group t g.idx = some (g.seeSlot n ph) := by
  rcases tellGroup_eq t n ph s g with he | ⟨he, hstay⟩
  · rw [he, group_putGroup]
  · rw [hstay, or_self] at hs
    rw [he, hstay, hs]

theorem tellGroup_other (hne : i ≠ g.idx) : (s.tellGroup t n ph g).group t i = s.group t i := by
  rcases tellGroup_eq t n ph s g with he | ⟨he, -⟩
  · rw [he, group_putGroup_ne s (by omega)]
  · rw [he]

theorem tellGroups_sameButGroups (s : State) (l : List Group) : s.SameButGroups (l.foldl (tellGroup t n ph) s) :=
  List.foldlRecOn (motive := fun s' : State => s.SameButGroups s') l _ rfl fun s' ih g _ => by
    rw [show s'.tellGroup t n ph g = _ from tellGroup_sameButGroups s' g, ih]
    rfl

/-- Telling the others, and a group again, leaves it as it is once told. -/
theorem tellGroups_told {l : List Group} (hl : ∀ g ∈ l, g.idx = h.idx → g = h) (hs : s.group t h.idx = some (h.seeSlot n ph)) :
    (l.foldl (tellGroup t n ph) s).group t h.idx = some (h.seeSlot n ph) := by
  refine List.foldlRecOn (motive := fun s' : State => s'.group t h.idx = some (h.seeSlot n ph)) l _ hs fun s' ih g hg => ?_
  by_cases hidx : g.idx = h.idx
  · obtain rfl := hl g hg hidx
    exact tellGroup_same (.inr ih)
  · rw [tellGroup_other (Ne.symm hidx), ih]

/-- Each group of a list of groups with different indices is told. -/
theorem tellGroups_group {l : List Group} (hl : ∀ g ∈ l, g.idx = h.idx → g = h) (hin : h ∈ l) (hs : s.group t h.idx = some h) :
    (l.foldl (tellGroup t n ph) s).group t h.idx = some (h.seeSlot n ph) := by
  induction l generalizing s with
  | nil => cases hin
  | cons g l ih =>
    have hrest : ∀ k ∈ l, k.idx = h.idx → k = h := fun k hk => hl k (List.mem_cons_of_mem _ hk)
    by_cases hidx : g.idx = h.idx
    · obtain rfl := hl g List.mem_cons_self hidx
      rw [List.foldl_cons]
      exact tellGroups_told hrest (tellGroup_same (.inl hs))
    · have hin' : h ∈ l := (List.mem_cons.1 hin).resolve_left fun heq => hidx (heq ▸ rfl)
      exact ih hrest hin' ((tellGroup_other (Ne.symm hidx)).trans hs)

/-- The groups of a team are those of its indices. -/
theorem group_of_mem_groupsOf (hw : Tab.wf s.groups = true) (hg : g ∈ s.groupsOf t) : ∃ i, i < 64 ∧ s.group t i = some g := by
  obtain ⟨⟨k, g'⟩, he, rfl⟩ := List.mem_map.1 hg
  obtain ⟨hmem, hkey⟩ := List.mem_filter.1 he
  have hk : 64 * t + k % 64 = k := by
    have : k / 64 = t := by simpa using hkey
    omega
  exact ⟨k % 64, Nat.mod_lt _ (by decide), by rw [group, hk]; exact Tab.get_of_mem hw hmem⟩

/-- A slot that has come to a phase: every group of the team and every symbol is told of it. -/
theorem slotFlipped_eq (hx : s.team t = some x) (n : Nat) : s.slotFlipped t n =
    ((s.groupsOf t).foldl (tellGroup t n (bsPhase (x.bs.get n))) s).putTeam t
      { x with syms := x.syms.map fun e => (e.1, e.2.seeSlot n (bsPhase (x.bs.get n))) } := by
  have hteam : ((s.groupsOf t).foldl (tellGroup t n (bsPhase (x.bs.get n))) s).team t = some x := by
    rw [tellGroups_sameButGroups s (s.groupsOf t)]
    exact hx
  rw [← mapTeam_some _ hteam fun x' => { x' with syms := x'.syms.map fun e => (e.1, e.2.seeSlot n (bsPhase (x.bs.get n))) }]
  unfold slotFlipped
  simp only [hx]
  congr 1
  funext x'
  congr 2
  funext ⟨k, src, met, val⟩
  cases src with
  | slot m p ax v =>
    simp only [Sym.seeSlot]
    split <;> rfl
  | manual => rfl
  | counter => rfl

theorem slotFlipped_group (hx : s.team t = some x) (hw : Tab.wf s.groups = true)
    (hidx : ∀ i h, i < 64 → s.group t i = some h → h.idx = i) (hi : i < 64) (hg : s.group t i = some h) (n : Nat) :
    (s.slotFlipped t n).group t i = some (h.seeSlot n (bsPhase (x.bs.get n))) := by
  obtain rfl := hidx i h hi hg
  rw [slotFlipped_eq hx]
  refine tellGroups_group (fun g hmem hsame => ?_) (mem_groupsOf_of_group hi hg) hg
  obtain ⟨j, hj, hgj⟩ := group_of_mem_groupsOf hw hmem
  obtain rfl := hidx j g hj hgj
  rw [hsame, hg] at hgj
  exact (Option.some.inj hgj).symm

/-! ### An arrival (03 R64) -/

/-- An arrival that does not complete the phase counts, and nothing else. -/
theorem slotArrive_early (hx : s.team t = some x) (hn : bsArrived (x.bs.get n) + 1 ≠ bsExpected (x.bs.get n)) :
    s.slotArrive t n = s.putTeam t { x with bs := x.bs.set n (bsArrive (x.bs.get n)) } := by
  have hp := not_ne_iff.1 (bsPhase_bsArrive_ne.not.2 hn)
  simp only [slotArrive, hx, hp, bne_self_eq_false, Bool.false_eq_true, if_false]

theorem slotArrive_last (hx : s.team t = some x) (hn : bsArrived (x.bs.get n) + 1 = bsExpected (x.bs.get n)) :
    s.slotArrive t n = (s.putTeam t { x with bs := x.bs.set n (bsArrive (x.bs.get n)) }).slotFlipped t n := by
  have hp := bne_iff_ne.2 (bsPhase_bsArrive_ne.2 hn)
  simp only [slotArrive, hx, hp, if_true]

/-- The team after the arrival that completes its phase. -/
theorem slotArrive_last_team (hx : s.team t = some x) (hw : x.bs.wf = true) (hn : bsArrived (x.bs.get n) + 1 = bsExpected (x.bs.get n)) :
    (s.slotArrive t n).team t = some { x with bs := x.bs.set n (bsArrive (x.bs.get n)),
                                              syms := x.syms.map fun e => (e.1, e.2.seeSlot n (!bsPhase (x.bs.get n))) } := by
  obtain ⟨-, -, hp⟩ := bsArrive_last hn
  rw [slotArrive_last hx hn, slotFlipped_eq (team_putTeam ..), team_putTeam, Cells.get_set_same hw, hp]

/-- A group of the team after it. -/
theorem slotArrive_last_group (hx : s.team t = some x) (hw : x.bs.wf = true) (hgw : Tab.wf s.groups = true)
    (hidx : ∀ i h, i < 64 → s.group t i = some h → h.idx = i) (hn : bsArrived (x.bs.get n) + 1 = bsExpected (x.bs.get n)) (hi : i < 64)
    (hg : s.group t i = some h) : (s.slotArrive t n).group t i = some (h.seeSlot n (!bsPhase (x.bs.get n))) := by
  obtain ⟨-, -, hp⟩ := bsArrive_last hn
  rw [slotArrive_last hx hn, slotFlipped_group (team_putTeam ..) hgw hidx hi hg, Cells.get_set_same hw, hp]

/-- The slot's next word. -/
theorem slot_slotArrive (hx : s.team t = some x) (hw : x.bs.wf = true) (n : Nat) : (s.slotArrive t n).slot t n = bsArrive (x.bs.get n) := by
  by_cases hn : bsArrived (x.bs.get n) + 1 = bsExpected (x.bs.get n)
  · simp only [slot, slotArrive_last_team hx hw hn, Option.map_some, Option.getD_some, Cells.get_set_same hw]
  · simp only [slot, slotArrive_early hx hn, team_putTeam, Option.map_some, Option.getD_some, Cells.get_set_same hw]

end State

/-! ### What bsinit makes of a slot (13 R261) -/

section

variable {w : Word} {v : Nat}

theorem bsInit_free (h1 : 1 ≤ v) (h2 : v ≤ 1023) (he : State.bsExpected w = 0) :
    bsInit w v = some (State.bsWord v (State.bsArrived w) (State.bsPhase w)) := by
  rw [bsInit, if_neg (by omega), if_neg (by omega), if_pos he, bsInit.bsW]

theorem bsInit_again (h1 : 1 ≤ v) (h2 : v ≤ 1023) (he : State.bsExpected w = v) : bsInit w v = some w := by
  rw [bsInit, if_neg (by omega), if_neg (by omega), if_neg (by omega), if_neg (not_not.2 he)]

theorem bsInit_clear (w : Word) : bsInit w 0 = some (State.bsWord 0 0 (State.bsPhase w)) := rfl

theorem bsInit_fault (h : 1023 < v ∨ (1 ≤ v ∧ State.bsExpected w ≠ 0 ∧ State.bsExpected w ≠ v)) : bsInit w v = none := by
  rcases h with hbig | ⟨h1, he, hother⟩
  · rw [bsInit, if_pos hbig]
  · rw [bsInit, if_neg (by omega : ¬v = 0), if_neg he, if_pos hother, ite_self]

end

/-! ### The words (13 R261) -/

section

variable {s : State} {t i : Nat} {g : Group} {x : Team} (h : s.Issuer t i g) (hi : g.Idle) (hx : s.team t = some x)

include hi in
theorem landed_idle : State.landed g = true := by
  have hp : g.pend = [] := hi
  simp [State.landed, hp]

include hx in
theorem slot_team (n : Nat) : s.slot t n = x.bs.get n := by simp [State.slot, hx]

include h hi hx

theorem exec_bsinit_set {a : SReg} {n : BitVec 4} {w : Word} (hb : bsInit (x.bs.get n.toNat) (s.sreg a).toNat = some w) :
    exec (.bsinit a n) s = .next ((s.putTeam t { x with bs := x.bs.set n.toNat w }).advance 4) := by
  have hexec : exec (.bsinit a n) s = execBsinit a n s := rfl
  rw [hexec, execBsinit, State.byGroup_group h]
  simp [State.held_idle h hi, slot_team hx, hb, State.mapTeam_some s hx]

theorem exec_bsinit_fault {a : SReg} {n : BitVec 4} (hb : bsInit (x.bs.get n.toNat) (s.sreg a).toNat = none) :
    exec (.bsinit a n) s = .next (s.raiseNow .illegalOperand) := by
  have hexec : exec (.bsinit a n) s = execBsinit a n s := rfl
  rw [hexec, execBsinit, State.byGroup_group h]
  simp [State.held_idle h hi, slot_team hx, hb]

theorem exec_bsarr (d : SReg) {n : BitVec 4} (he : State.bsExpected (x.bs.get n.toNat) ≠ 0) : exec (.bsarr d n) s =
    .next (((s.setS d (if State.bsPhase (x.bs.get n.toNat) then 1 else 0)).advance 4).slotArrive t n.toNat) := by
  have hexec : exec (.bsarr d n) s = execBsarr d n s := rfl
  rw [hexec, execBsarr, State.byGroup_group h]
  simp [State.held_idle h hi, landed_idle hi, slot_team hx, he]

theorem exec_bswait {a : SReg} (n : BitVec 4) (hv : (s.sreg a).toNat ≤ 1) : exec (.bswait a n) s =
    .next (if State.bsPhase (x.bs.get n.toNat) = (s.sreg a).getLsbD 0 then s.park t i (.slot n.toNat ((s.sreg a).getLsbD 0))
      else s.advance 4) := by
  have hexec : exec (.bswait a n) s = execBswait a n s := rfl
  have hbit : (s.sreg a).toNat / 2 = 0 := by omega
  rw [hexec, execBswait, State.byGroup_group h]
  simp only [State.held_idle h hi, slot_team hx, hbit, ne_eq, not_true_eq_false, Bool.false_eq_true, if_false]
  split <;> rfl

theorem exec_bsaw (hw : x.bs.wf = true) {n : BitVec 4} (he : State.bsExpected (x.bs.get n.toNat) ≠ 0) : exec (.bsaw n) s =
    .next (if State.bsArrived (x.bs.get n.toNat) + 1 = State.bsExpected (x.bs.get n.toNat) then (s.slotArrive t n.toNat).advance 4
      else (s.slotArrive t n.toNat).park t i (.slot n.toNat (State.bsPhase (x.bs.get n.toNat)))) := by
  have hexec : exec (.bsaw n) s = execBsaw n s := rfl
  rw [hexec, execBsaw, State.byGroup_group h]
  simp only [landed_idle hi, slot_team hx, State.slot_slotArrive hx hw, he, Bool.not_true, Bool.false_eq_true, if_false,
    ← State.bsPhase_bsArrive_ne, ne_eq, ite_not]
  split <;> rfl

theorem exec_bsget (d : SReg) (n : BitVec 4) : exec (.bsget d n) s = .next ((s.setS d (x.bs.get n.toNat)).advance 4) := by
  have hexec : exec (.bsget d n) s = execBsget d n s := rfl
  rw [hexec, execBsget, State.byGroup_group h]
  simp [State.held_idle h hi, slot_team hx]

end

/-- Settles O18: the words by their `exec` lemmas, e arrivals by induction on their number, and an arrival by whether it completes the phase. -/
theorem barrierSlotWordsComplete : Obligations.BarrierSlotWordsComplete := by
  unfold Obligations.BarrierSlotWordsComplete
  refine ⟨fun s t i g x a d n h hi hx => ?words, fun w e k he h0 h1 hk => ?count, fun s t n x hx hw hgw hidx => ?arrival⟩
  case words =>
    intro w put v p
    refine ⟨fun hv1 hv2 he => ?_, fun hv1 hv2 he => ?_, fun hv => ?_, fun hbad => ?_, exec_bsarr h hi hx d, fun hv hp => ?_,
      fun hv hp => ?_, fun he ha hw => ?_, fun he ha hw => ?_, exec_bsget h hi hx d n⟩
    · exact exec_bsinit_set h hi hx (bsInit_free hv1 hv2 he)
    · exact exec_bsinit_set h hi hx (bsInit_again hv1 hv2 he)
    · exact exec_bsinit_set h hi hx (by rw [show (s.sreg a).toNat = 0 from hv, bsInit_clear])
    · exact exec_bsinit_fault h hi hx (bsInit_fault hbad)
    · rw [exec_bswait h hi hx n hv, if_neg (Ne.symm hp)]
    · rw [exec_bswait h hi hx n hv, if_pos hp.symm, hp]
    · rw [exec_bsaw h hi hx hw he, if_pos ha]
    · rw [exec_bsaw h hi hx hw he, if_neg ha.ne]
  case count =>
    subst he
    by_cases hall : k = State.bsExpected w
    · subst hall
      simpa using State.iterate_bsArrive_all h0 h1
    · simpa only [if_neg hall] using State.iterate_bsArrive_early h0 (lt_of_le_of_ne hk hall)
  case arrival =>
    intro w e p w' s'
    refine ⟨State.bsArrive_early, State.bsArrive_last, ?_⟩
    by_cases hlast : State.bsArrived w + 1 = e
    · obtain ⟨-, -, hp⟩ := State.bsArrive_last hlast
      have hne : State.bsPhase w' ≠ p := State.bsPhase_bsArrive_ne.2 hlast
      refine ⟨⟨_, State.slotArrive_last_team hx hw hlast, rfl, fun m y hy => ?_⟩, fun i h hi hg => ?_⟩
      · rw [bne_iff_ne.2 hne, Bool.true_and, Tab.get_map, hy, Option.map_some, Sym.seeSlot_eq]
        rfl
      · rw [State.slotArrive_last_group hx hw hgw hidx hlast hi hg, Group.seeSlot_eq]
        exact congrArg some (if_congr (and_iff_right hne).symm rfl rfl)
    · have hp : State.bsPhase w' = p := not_ne_iff.1 (State.bsPhase_bsArrive_ne.not.2 hlast)
      rw [show s' = _ from State.slotArrive_early hx hlast]
      refine ⟨⟨_, State.team_putTeam .., rfl, fun m y hy => ?_⟩, fun i h hi hg => ?_⟩
      · rw [hp, bne_self_eq_false, Bool.false_and, Bool.or_false]
        exact hy
      · rw [if_neg fun hflip => hflip.1 hp]
        exact hg

end Sys2Proof.Machine

end

