-- ==== Sys2Proof/Proofs/Canonical.lean ====
section
set_option Elab.async false

/-! PROOF. The canonical form as one property of a state, with the rule of each way in which a state, a group or a table is changed. Both halves of
the invariant stand behind a premise (the stores behind P, the tables behind Q), so that one walk through the model settles both. -/

namespace Sys2Proof.Machine

open Sys2Proof

namespace Tab

variable {α : Type} {p : Nat → α → Prop} {m : Tab α}

theorem mem_of_mem_del {k : Nat} {e : Nat × α} (h : e ∈ del m k) : e ∈ m := by
  induction m with
  | nil => exact h
  | cons a r ih =>
    rw [del] at h
    split at h
    · exact List.mem_cons_of_mem _ h
    · rcases List.mem_cons.1 h with rfl | h
      · exact List.mem_cons_self
      · exact List.mem_cons_of_mem _ (ih h)

theorem wf_del (h : wf m = true) {k : Nat} : wf (del m k) = true := by
  induction m with
  | nil => rfl
  | cons a r ih =>
    obtain ⟨hk, hr⟩ := wf_cons h
    rw [del]
    split
    · exact hr
    · exact wf_of_cons (fun e he => hk e (mem_of_mem_del he)) (ih hr)

theorem wf_filter (h : wf m = true) {q : Nat × α → Bool} : wf (List.filter q m) = true := by
  induction m with
  | nil => rfl
  | cons e r ih =>
    obtain ⟨hk, hr⟩ := wf_cons h
    rw [List.filter_cons]
    split
    · exact wf_of_cons (fun e he => hk e (List.mem_filter.1 he).1) (ih hr)
    · exact ih hr

/-- The keys rise, and p holds of each row under its key. -/
def All (p : Nat → α → Prop) (m : Tab α) : Prop := wf m = true ∧ ∀ e ∈ m, p e.1 e.2

namespace All

theorem nil : All p [] := ⟨rfl, fun _ he => nomatch he⟩

theorem get (h : All p m) {k : Nat} {x : α} (hx : Tab.get m k = some x) : p k x := h.2 _ (mem_of_get hx)

theorem set (h : All p m) {k : Nat} {x : α} (hx : p k x) : All p (Tab.set m k x) :=
  ⟨set_wf h.1 _ _, fun e he => by
    rcases mem_set he with rfl | he
    · exact hx
    · exact h.2 e he⟩

theorem filter (h : All p m) {q : Nat × α → Bool} : All p (List.filter q m) :=
  ⟨wf_filter h.1, fun e he => h.2 e (List.mem_filter.1 he).1⟩

theorem del (h : All p m) {k : Nat} : All p (Tab.del m k) := ⟨wf_del h.1, fun e he => h.2 e (mem_of_mem_del he)⟩

/-- Rows changed in place. -/
theorem map (h : All p m) {f : Nat × α → Nat × α} (hk : ∀ e, (f e).1 = e.1) (hp : ∀ e ∈ m, p e.1 e.2 → p e.1 (f e).2) :
    All p (List.map f m) := by
  refine ⟨?_, fun e he => ?_⟩
  · have hw := h.1
    clear h hp
    induction m with
    | nil => rfl
    | cons e r ih =>
      obtain ⟨hr, hw⟩ := wf_cons hw
      refine wf_of_cons (fun x hx => ?_) (ih hw)
      obtain ⟨y, hy, rfl⟩ := List.mem_map.1 hx
      rw [hk, hk]
      exact hr y hy
  · obtain ⟨y, hy, rfl⟩ := List.mem_map.1 he
    rw [hk]
    exact hp y hy (h.2 y hy)

end All

end Tab

namespace Cells

variable {w : Nat}

/-- A fold of writes keeps the canonical form. -/
theorem foldl_wf {α : Type} {f : Cells w → α → Cells w} {c : Cells w} {l : List α} (h : wf c = true)
    (hf : ∀ c a, wf c = true → wf (f c a) = true) : wf (l.foldl f c) = true := by
  induction l generalizing c with
  | nil => exact h
  | cons a l ih => exact ih (hf c a h)

theorem nil_wf : wf ([] : Cells w) = true := rfl

theorem getCells_wf {m : Memory} {b st n c : Nat} : wf (getCells w m b st n c) = true := foldl_wf rfl fun _ _ h => set_wf h _ _

/-- A canonical store with every key at k or above. -/
def From (k : Nat) (m : Cells w) : Prop := wf m = true ∧ ∀ e ∈ m, k ≤ e.1

namespace From

variable {k : Nat} {m : Cells w}

theorem zero (h : wf m = true) : From 0 m := ⟨h, fun _ _ => Nat.zero_le _⟩

theorem nil : From k ([] : Cells w) := ⟨rfl, fun _ he => nomatch he⟩

theorem tail {e : Nat × BitVec w} (h : From k (e :: m)) : From (k + 1) m := by
  obtain ⟨-, hr, hw⟩ := (wf_cons e.1 e.2 m).1 h.1
  exact ⟨hw, fun a ha => Nat.lt_of_le_of_lt (h.2 e List.mem_cons_self) (hr a ha)⟩

/-- A head above k leaves key k free. -/
theorem next {e : Nat × BitVec w} (h : From k (e :: m)) (he : e.1 ≠ k) : From (k + 1) (e :: m) := by
  refine ⟨h.1, fun a ha => ?_⟩
  rcases List.mem_cons.1 ha with rfl | ha
  · exact Nat.lt_of_le_of_ne (h.2 _ List.mem_cons_self) (Ne.symm he)
  · exact Nat.le_trans (Nat.succ_le_succ (h.2 e List.mem_cons_self)) (((wf_cons e.1 e.2 m).1 h.1).2.1 a ha)

/-- A value put before the keys above it. -/
theorem put (h : From (k + 1) m) (v : BitVec w) : From k (if v = 0 then m else (k, v) :: m) := by
  split
  · exact ⟨h.1, fun e he => Nat.le_of_succ_le (h.2 e he)⟩
  next hv =>
    refine ⟨(wf_cons k v m).2 ⟨hv, h.2, h.1⟩, fun e he => ?_⟩
    rcases List.mem_cons.1 he with rfl | he
    · exact Nat.le_refl _
    · exact Nat.le_of_succ_le (h.2 e he)

end From

theorem rebuild_from {f : Nat → BitVec w → BitVec w} {k n : Nat} {m : Cells w} (h : From k m) : From k (rebuild f k n m) := by
  induction n generalizing k m with
  | zero =>
    unfold rebuild
    exact h
  | succ n ih =>
    cases m with
    | nil => exact (ih .nil).put _
    | cons e m =>
      unfold rebuild
      split
      · exact (ih h.tail).put _
      next he => exact (ih (h.next he)).put _

theorem rebuild_wf {f : Nat → BitVec w → BitVec w} {n : Nat} {m : Cells w} (h : wf m = true) : wf (rebuild f 0 n m) = true :=
  (rebuild_from (.zero h)).1

/-- What a store holds at k, and the rest of it. -/
def pull (k : Nat) (m : Cells w) : BitVec w × Cells w :=
  match m with
  | (a, u) :: r => if a = k then (u, r) else (0, m)
  | [] => (0, m)

theorem pull_from {k : Nat} {m m' : Cells w} {u : BitVec w} (h : From k m) (e : pull k m = (u, m')) : From (k + 1) m' := by
  unfold pull at e
  split at e
  · split at e
    · cases e
      exact h.tail
    next he =>
      cases e
      exact h.next he
  · cases e
    exact .nil

theorem rebuild2_from {f : Nat → BitVec w → BitVec w → BitVec w × BitVec w} {k n : Nat} {l m : Cells w} (hl : From k l) (hm : From k m) :
    From k (rebuild2 f k n l m).1 ∧ From k (rebuild2 f k n l m).2 := by
  induction n generalizing k l m with
  | zero =>
    unfold rebuild2
    exact ⟨hl, hm⟩
  | succ n ih =>
    unfold rebuild2
    split
    next u l' el =>
      split
      next v m' em =>
        have hr := ih (pull_from hl el) (pull_from hm em)
        exact ⟨hr.1.put _, hr.2.put _⟩

theorem rebuild2_wf {f : Nat → BitVec w → BitVec w → BitVec w × BitVec w} {n : Nat} {l m u v : Cells w} (e : rebuild2 f 0 n l m = (u, v))
    (hl : wf l = true) (hm : wf m = true) : wf u = true ∧ wf v = true := by
  have h := rebuild2_from (f := f) (n := n) (.zero hl) (.zero hm)
  rw [e] at h
  exact ⟨h.1.1, h.2.1⟩

end Cells

/-! ### Rows -/

/-- Group g may stand under key i: its index is that of the key, and its stores are canonical. -/
def Group.Fits (i : Nat) (g : Group) : Prop := g.idx = i % 64 ∧ State.GroupWf g

/-- The stores of a team are canonical. -/
def Team.Fits (x : Team) : Prop := x.tm.wf = true ∧ x.cb.wf = true

/-- The stores of a core are canonical. -/
def Core.Fits (x : Core) : Prop := x.s.wf = true ∧ x.mem.wf = true ∧ x.a0.wf = true ∧ x.a1.wf = true

/-- The groups of a saved team may be put back. -/
def Saved.Fits (y : Saved) : Prop := ∀ g ∈ y.groups, g.idx < 64 ∧ State.GroupWf g

/-- The same where Q holds. -/
def Group.Canon (Q : Prop) (i : Nat) (g : Group) : Prop := Q → g.Fits i
def Team.Canon (Q : Prop) (x : Team) : Prop := Q → x.Fits
def Core.Canon (Q : Prop) (x : Core) : Prop := Q → x.Fits
def Grid.Canon (Q : Prop) (g : Grid) : Prop := Q → Spec.rolesBad g.record = false
def Saved.Canon (Q : Prop) (y : Saved) : Prop := Q → y.Fits

/-- Where Q holds the table is canonical, and p holds of its rows. -/
def Tab.Canon {α : Type} (Q : Prop) (p : Nat → α → Prop) (m : Tab α) : Prop := Q → m.All p

namespace Tab.Canon

variable {α : Type} {Q : Prop} {p : Nat → α → Prop} {m : Tab α}

theorem nil : Tab.Canon Q p [] := fun _ => All.nil
theorem set (h : m.Canon Q p) {k : Nat} {x : α} (hx : Q → p k x) : (m.set k x).Canon Q p := fun hq => (h hq).set (hx hq)
theorem del (h : m.Canon Q p) {k : Nat} : (m.del k).Canon Q p := fun hq => (h hq).del
theorem filter (h : m.Canon Q p) {q : Nat × α → Bool} : Tab.Canon Q p (List.filter q m) := fun hq => (h hq).filter
theorem map (h : m.Canon Q p) {f : Nat × α → Nat × α} (hk : ∀ e, (f e).1 = e.1) (hp : ∀ e ∈ m, (Q → p e.1 e.2) → Q → p e.1 (f e).2) :
    Tab.Canon Q p (List.map f m) := fun hq => (h hq).map hk fun e he hx => hp e he (fun _ => hx) hq

end Tab.Canon

namespace Group.Canon

variable {Q : Prop} {i : Nat} {g g' : Group}

/-- A change of a group: each store that it changes is canonical again. -/
theorem upd (h : g.Canon Q i) (idx : g.idx = i % 64 → g'.idx = i % 64 := by exact fun h => h) (live : g.live ≤ 96 → g'.live ≤ 96 := by exact fun h => h)
    (s : g.s.wf = true → g'.s.wf = true := by exact fun h => h) (v : g.v.wf = true → g'.v.wf = true := by exact fun h => h)
    (k : g.k.wf = true → g'.k.wf = true := by exact fun h => h) (sh : g.sh.wf = true → g'.sh.wf = true := by exact fun h => h)
    (spill : g.spill.wf = true → g'.spill.wf = true := by exact fun h => h) (tags : g.tags.wf = true → g'.tags.wf = true := by exact fun h => h)
    (scar : g.scar.wf = true → g'.scar.wf = true := by exact fun h => h) (ctxH : Tab.wf g.ctxH = true → Tab.wf g'.ctxH = true := by exact fun h => h) :
    g'.Canon Q i := fun hq => by
  obtain ⟨h0, h1, h2, h3, h4, h5, h6, h7, h8, h9⟩ := h hq
  exact ⟨idx h0, live h1, s h2, v h3, k h4, sh h5, spill h6, tags h7, scar h8, ctxH h9⟩

/-- The key may be any that ends in the same index. -/
theorem key (h : g.Canon Q i) {j : Nat} (hj : i % 64 = j % 64) : g.Canon Q j := fun hq => ⟨(h hq).1.trans hj, (h hq).2⟩

theorem self (h : g.Canon Q i) : g.Canon Q g.idx := fun hq => by
  obtain ⟨h0, hr⟩ := h hq
  exact ⟨by omega, hr⟩

theorem foldl {α : Type} {f : Group → α → Group} {l : List α} (h : g.Canon Q i) (hf : ∀ g a, g.Canon Q i → (f g a).Canon Q i) :
    (l.foldl f g).Canon Q i := by
  induction l generalizing g with
  | nil => exact h
  | cons a l ih => exact ih (hf g a h)

end Group.Canon

theorem Team.Canon.upd {Q : Prop} {x x' : Team} (h : x.Canon Q) (tm : x.tm.wf = true → x'.tm.wf = true := by exact fun h => h)
    (cb : x.cb.wf = true → x'.cb.wf = true := by exact fun h => h) : x'.Canon Q := fun hq => ⟨tm (h hq).1, cb (h hq).2⟩

theorem Core.Canon.upd {Q : Prop} {x x' : Core} (h : x.Canon Q) (s : x.s.wf = true → x'.s.wf = true := by exact fun h => h)
    (mem : x.mem.wf = true → x'.mem.wf = true := by exact fun h => h) (a0 : x.a0.wf = true → x'.a0.wf = true := by exact fun h => h)
    (a1 : x.a1.wf = true → x'.a1.wf = true := by exact fun h => h) : x'.Canon Q := fun hq => by
  obtain ⟨h1, h2, h3, h4⟩ := h hq
  exact ⟨s h1, mem h2, a0 h3, a1 h4⟩

theorem Core.Canon.fresh {Q : Prop} : Core.fresh.Canon Q := fun _ => ⟨rfl, rfl, rfl, rfl⟩

theorem Grid.Canon.upd {Q : Prop} {x x' : Grid} (h : x.Canon Q)
    (record : Spec.rolesBad x.record = false → Spec.rolesBad x'.record = false := by exact fun h => h) : x'.Canon Q := fun hq => record (h hq)

/-! ### The state -/

namespace State

/-- With P the stores of the device are canonical, with Q its tables. -/
structure Canon (P Q : Prop) (s : State) : Prop where
  dev : P → s.dev.wf = true
  annex : P → s.annex.wf = true
  peers : P → s.peers.wf = true
  cfg : P → s.cfg.wf = true
  groups : s.groups.Canon Q Group.Fits
  teams : s.teams.Canon Q fun _ x => x.Fits
  grids : s.grids.Canon Q fun _ g => Spec.rolesBad g.record = false
  ops : s.ops.Canon Q fun _ _ => True
  cores : s.cores.Canon Q fun _ x => x.Fits
  parts : s.parts.Canon Q fun _ _ => True
  saved : Q → ∀ y ∈ s.saved, y.Fits

namespace Canon

variable {P Q : Prop} {s s' : State} {t i k : Nat}

/-- A change of the state: each store and table that it changes is canonical again. -/
theorem upd (h : s.Canon P Q) (dev : (P → s.dev.wf = true) → P → s'.dev.wf = true := by exact fun h => h)
    (annex : (P → s.annex.wf = true) → P → s'.annex.wf = true := by exact fun h => h)
    (peers : (P → s.peers.wf = true) → P → s'.peers.wf = true := by exact fun h => h)
    (cfg : (P → s.cfg.wf = true) → P → s'.cfg.wf = true := by exact fun h => h)
    (groups : s.groups.Canon Q Group.Fits → s'.groups.Canon Q Group.Fits := by exact fun h => h)
    (teams : (s.teams.Canon Q fun _ x => x.Fits) → s'.teams.Canon Q fun _ x => x.Fits := by exact fun h => h)
    (grids : (s.grids.Canon Q fun _ g => Spec.rolesBad g.record = false) →
      s'.grids.Canon Q fun _ g => Spec.rolesBad g.record = false := by exact fun h => h)
    (ops : (s.ops.Canon Q fun _ _ => True) → s'.ops.Canon Q fun _ _ => True := by exact fun h => h)
    (cores : (s.cores.Canon Q fun _ x => x.Fits) → s'.cores.Canon Q fun _ x => x.Fits := by exact fun h => h)
    (parts : (s.parts.Canon Q fun _ _ => True) → s'.parts.Canon Q fun _ _ => True := by exact fun h => h)
    (saved : (Q → ∀ y ∈ s.saved, y.Fits) → Q → ∀ y ∈ s'.saved, y.Fits := by exact fun h => h) : s'.Canon P Q :=
  ⟨dev h.dev, annex h.annex, peers h.peers, cfg h.cfg, groups h.groups, teams h.teams, grids h.grids, ops h.ops, cores h.cores, parts h.parts,
    saved h.saved⟩

theorem group_get (h : s.Canon P Q) {g : Group} (hg : s.groups.get k = some g) : g.Canon Q k := fun hq => (h.groups hq).get hg
theorem group_mem (h : s.Canon P Q) {e : Nat × Group} (he : e ∈ s.groups) : e.2.Canon Q e.1 := fun hq => (h.groups hq).2 e he
theorem team_get (h : s.Canon P Q) {x : Team} (hx : s.teams.get k = some x) : x.Canon Q := fun hq => (h.teams hq).get hx
theorem team_mem (h : s.Canon P Q) {e : Nat × Team} (he : e ∈ s.teams) : e.2.Canon Q := fun hq => (h.teams hq).2 e he
theorem grid_get (h : s.Canon P Q) {g : Grid} (hg : s.grids.get k = some g) : g.Canon Q := fun hq => (h.grids hq).get hg
theorem grid_mem (h : s.Canon P Q) {e : Nat × Grid} (he : e ∈ s.grids) : e.2.Canon Q := fun hq => (h.grids hq).2 e he
theorem saved_mem (h : s.Canon P Q) {y : Saved} (hy : y ∈ s.saved) : y.Canon Q := fun hq => h.saved hq y hy

theorem group (h : s.Canon P Q) {g : Group} (hg : s.group t i = some g) : g.Canon Q i := (h.group_get hg).key (by omega)
theorem team (h : s.Canon P Q) {x : Team} (hx : s.team t = some x) : x.Canon Q := h.team_get hx
theorem grid (h : s.Canon P Q) {g : Grid} (hg : s.grid t = some g) : g.Canon Q := h.grid_get hg

theorem core (h : s.Canon P Q) {c : Nat} : (s.core c).Canon Q := by
  rw [State.core]
  cases hc : s.cores.get c with
  | none => exact Core.Canon.fresh
  | some x => exact fun hq => (h.cores hq).get hc

/-- A group of a team, by its own index. -/
theorem groupsOf (h : s.Canon P Q) {g : Group} (hg : g ∈ s.groupsOf t) : g.Canon Q g.idx := by
  obtain ⟨e, he, rfl⟩ := List.mem_map.1 hg
  exact (h.group_mem (List.mem_filter.1 he).1).self

theorem foldl {α : Type} {f : State → α → State} {l : List α} (h : s.Canon P Q) (hf : ∀ s, s.Canon P Q → ∀ a ∈ l, (f s a).Canon P Q) :
    (l.foldl f s).Canon P Q := by
  induction l generalizing s with
  | nil => exact h
  | cons a l ih => exact ih (hf s h a List.mem_cons_self) fun s hs b hb => hf s hs b (List.mem_cons_of_mem _ hb)

/-- A fold that brings something beside the state. -/
theorem foldl_fst {α β : Type} {f : State × β → α → State × β} {l : List α} {b : State × β} (h : b.1.Canon P Q)
    (hf : ∀ b, b.1.Canon P Q → ∀ a ∈ l, (f b a).1.Canon P Q) : (l.foldl f b).1.Canon P Q := by
  induction l generalizing b with
  | nil => exact h
  | cons a l ih => exact ih (hf b h a List.mem_cons_self) fun b hb c hc => hf b hb c (List.mem_cons_of_mem _ hc)

theorem of_fst {α : Type} {p : State × α} {a : α} (hp : p = (s, a)) (h : p.1.Canon P Q) : s.Canon P Q := by
  subst hp
  exact h

theorem of_snd {α : Type} {p : α × State} {a : α} (hp : p = (a, s)) (h : p.2.Canon P Q) : s.Canon P Q := by
  subst hp
  exact h

end Canon

theorem canon_iff {P Q : Prop} {s : State} : s.Canon P Q ↔ (P → s.StoresWf) ∧ (Q → s.TablesWf) := by
  constructor
  · intro h
    refine ⟨fun hp => ⟨h.dev hp, h.annex hp, h.peers hp, h.cfg hp⟩, fun hq => ⟨(h.groups hq).1, (h.teams hq).1, (h.grids hq).1, (h.ops hq).1,
      (h.cores hq).1, (h.parts hq).1, fun k g hg => (h.groups hq).get hg, fun t x hx => (h.teams hq).get hx,
      fun c x hx => (h.cores hq).get hx, fun n g hg => (h.grids hq).get hg, h.saved hq⟩⟩
  · rintro ⟨hs, ht⟩
    refine ⟨fun hp => (hs hp).1, fun hp => (hs hp).2.1, fun hp => (hs hp).2.2.1, fun hp => (hs hp).2.2.2,
      fun hq => ⟨(ht hq).groups, fun e he => (ht hq).group _ _ (Tab.get_of_mem (ht hq).groups he)⟩,
      fun hq => ⟨(ht hq).teams, fun e he => (ht hq).team _ _ (Tab.get_of_mem (ht hq).teams he)⟩,
      fun hq => ⟨(ht hq).grids, fun e he => (ht hq).grid _ _ (Tab.get_of_mem (ht hq).grids he)⟩,
      fun hq => ⟨(ht hq).ops, fun _ _ => trivial⟩,
      fun hq => ⟨(ht hq).cores, fun e he => (ht hq).core _ _ (Tab.get_of_mem (ht hq).cores he)⟩,
      fun hq => ⟨(ht hq).parts, fun _ _ => trivial⟩, fun hq => (ht hq).saved⟩

end State

end Sys2Proof.Machine
end

