-- ==== Sys2Proof/Proofs/CanonicalOps.lean ====
section
set_option Elab.async false

/-! PROOF. The canonical form and the operations of Machine/Ops.lean. -/

namespace Sys2Proof.Machine

open Sys2Proof

/-- The form of what an instruction answers. -/
def Out.Canon (P Q : Prop) : Out → Prop
  | .next s => s.Canon P Q
  | _ => True

theorem Out.Canon.next {P Q : Prop} {s : State} (h : s.Canon P Q) : Out.Canon P Q (.next s) := h

theorem Out.Canon.of_eq {P Q : Prop} {o : Out} {s : State} (h : Out.Canon P Q o) (e : o = .next s) : s.Canon P Q := by
  subst e
  exact h

namespace State.Canon

variable {P Q : Prop} {s : State}

theorem putGroup (h : s.Canon P Q) {t i : Nat} {g : Group} (hg : g.Canon Q i) : (s.putGroup t i g).Canon P Q :=
  h.upd (groups := fun hs => hs.set (hg.key (by omega)))

theorem mapGroup (h : s.Canon P Q) {t i : Nat} {f : Group → Group} (hf : ∀ g, g.Canon Q i → (f g).Canon Q i) : (s.mapGroup t i f).Canon P Q := by
  unfold State.mapGroup
  split
  · exact h.putGroup (hf _ (h.group ‹_›))
  · exact h

theorem putTeam (h : s.Canon P Q) {t : Nat} {x : Team} (hx : x.Canon Q) : (s.putTeam t x).Canon P Q :=
  h.upd (teams := fun hs => hs.set hx)

theorem mapTeam (h : s.Canon P Q) {t : Nat} {f : Team → Team} (hf : ∀ x, x.Canon Q → (f x).Canon Q) : (s.mapTeam t f).Canon P Q := by
  unfold State.mapTeam
  split
  · exact h.putTeam (hf _ (h.team ‹_›))
  · exact h

theorem putGrid (h : s.Canon P Q) {n : Nat} {x : Grid} (hx : x.Canon Q) : (s.putGrid n x).Canon P Q :=
  h.upd (grids := fun hs => hs.set hx)

theorem putCore (h : s.Canon P Q) {c : Nat} {x : Core} (hx : x.Canon Q) : (s.putCore c x).Canon P Q :=
  h.upd (cores := fun hs => hs.set hx)

theorem mapCore (h : s.Canon P Q) {c : Nat} {f : Core → Core} (hf : ∀ x, x.Canon Q → (f x).Canon Q) : (s.mapCore c f).Canon P Q :=
  h.putCore (hf _ h.core)

theorem putPart (h : s.Canon P Q) {n : Nat} {x : Part} : (s.putPart n x).Canon P Q :=
  h.upd (parts := fun hs => hs.set fun _ => trivial)

theorem putOp (h : s.Canon P Q) {n : Nat} {o : Op} : (s.putOp n o).Canon P Q :=
  h.upd (ops := fun hs => hs.set fun _ => trivial)

theorem setCfgW (h : s.Canon P Q) {a b c : Nat} {v : Word} : (s.setCfgW a b c v).Canon P Q :=
  h.upd (cfg := fun hs hp => Cells.set_wf (hs hp) ..)

theorem mapPart (h : s.Canon P Q) {n : Nat} {f : Part → Part} : (s.mapPart n f).Canon P Q := h.putPart

theorem byGroup (h : s.Canon P Q) {k : Nat → Nat → Group → Out} (hr : ∀ c, (s.raiseCurator c 0).Canon P Q)
    (hk : ∀ t i g, s.group t i = some g → g.Canon Q i → Out.Canon P Q (k t i g)) : Out.Canon P Q (s.byGroup k) := by
  unfold State.byGroup
  split
  · split
    · exact hk _ _ _ ‹_› (h.group ‹_›)
    · trivial
  · exact hr _
  · trivial

end State.Canon

/-! ### Answers that carry a state -/

namespace State

variable {P Q : Prop}

/-- The form of what a translation, a check or a fetch leaves. -/
def Xlat.Canon (P Q : Prop) : Xlat → Prop
  | .ok _ => True
  | .wait s | .bad s => s.Canon P Q

def Pages.Canon (P Q : Prop) : Pages → Prop
  | .ok _ => True
  | .wait s | .bad s _ => s.Canon P Q

def Checked.Canon (P Q : Prop) : Checked → Prop
  | .code _ s | .wait s => s.Canon P Q

def FileCheck.Canon (P Q : Prop) : FileCheck → Prop
  | .fault _ _ _ s | .wait s | .ok _ s => s.Canon P Q

def Packed.Canon (P Q : Prop) : Packed → Prop
  | .wait s | .ok _ s => s.Canon P Q

def Fetched.Canon {α : Type} (P Q : Prop) : Fetched α → Prop
  | .ok _ s | .wait s | .bad s => s.Canon P Q

theorem Xlat.Canon.of_eq {x y : Xlat} (h : x.Canon P Q) (e : x = y) : y.Canon P Q := e ▸ h
theorem Pages.Canon.of_eq {x y : Pages} (h : x.Canon P Q) (e : x = y) : y.Canon P Q := e ▸ h
theorem Checked.Canon.of_eq {x y : Checked} (h : x.Canon P Q) (e : x = y) : y.Canon P Q := e ▸ h
theorem FileCheck.Canon.of_eq {x y : FileCheck} (h : x.Canon P Q) (e : x = y) : y.Canon P Q := e ▸ h
theorem Packed.Canon.of_eq {x y : Packed} (h : x.Canon P Q) (e : x = y) : y.Canon P Q := e ▸ h
/-- The form of a state that may be none. -/
def Opt.Canon (P Q : Prop) : Option State → Prop
  | some s => s.Canon P Q
  | none => True

def OptPair.Canon {α : Type} (P Q : Prop) : Option (α × State) → Prop
  | some p => p.2.Canon P Q
  | none => True

theorem Opt.Canon.of_eq {x : Option State} {s : State} (h : Opt.Canon P Q x) (e : x = some s) : s.Canon P Q := by
  subst e
  exact h

theorem Opt.Canon.of_fst {p : Option State × State} {s t : State} (h : Opt.Canon P Q p.1) (e : p = (some s, t)) : s.Canon P Q := by
  subst e
  exact h

theorem OptPair.Canon.of_eq {α : Type} {x : Option (α × State)} {a : α} {s : State} (h : OptPair.Canon P Q x) (e : x = some (a, s)) :
    s.Canon P Q := by
  subst e
  exact h

theorem Opt.Canon.map {α : Type} {x : Option α} {f : α → State} (h : ∀ a, x = some a → (f a).Canon P Q) : Opt.Canon P Q (x.map f) := by
  cases x with
  | none => trivial
  | some a => exact h a rfl

theorem OptPair.Canon.map {α β : Type} {x : Option (α × State)} {f : α × State → β × State} (h : OptPair.Canon P Q x)
    (hf : ∀ p, p.2.Canon P Q → (f p).2.Canon P Q) : OptPair.Canon P Q (x.map f) := by
  cases x with
  | none => trivial
  | some p => exact hf p h

theorem Canon.elim {α : Type} {x : Option α} {s : State} {f : α → State} (h : s.Canon P Q) (hf : ∀ a, x = some a → (f a).Canon P Q) :
    (x.elim s f).Canon P Q := by
  cases x with
  | none => exact h
  | some a => exact hf a rfl

theorem Fetched.Canon.of_eq {α : Type} {x y : Fetched α} (h : x.Canon P Q) (e : x = y) : y.Canon P Q := e ▸ h

end State

end Sys2Proof.Machine
end

