-- ==== Sys2Proof/Proofs/CanonicalState.lean ====
section
set_option Elab.async false

/-! PROOF. The canonical form and the machine's own operations: registers, faults, watches, translation, operands. -/

namespace Sys2Proof.Machine

open Sys2Proof

variable {P Q : Prop}

theorem Group.Canon.freeTag {g : Group} {i : Nat} (h : g.Canon Q i) {r : Nat} : (g.freeTag r).Canon Q i := by
  unfold Group.freeTag
  split
  · exact h.upd (tags := fun e1 => Cells.set_wf e1 _ _) (scar := fun e1 => Cells.wf_filter e1 _)
  · exact h

theorem Group.Canon.rowsWritten {g : Group} {i : Nat} (h : g.Canon Q i) {r : Nat} {m : LaneMask} : (g.rowsWritten r m).Canon Q i := by
  unfold Group.rowsWritten
  split
  · exact h
  · extract_lets full left
    exact h.upd (v := fun e1 => Cells.foldl_wf e1 fun _ _ e2 => Cells.foldl_wf e2 fun _ _ e3 => Cells.set_wf e3 _ _)

theorem Group.Canon.putLanes {g : Group} {i : Nat} (h : g.Canon Q i) {r : Nat} {m : LaneMask} {f : Nat → Word} : (g.putLanes r m f).Canon Q i := by
  unfold Group.putLanes
  refine (h.upd (v := fun e => Cells.foldl_wf e fun _ _ e1 => Cells.set_wf e1 _ _) (scar := fun e => ?_)).rowsWritten
  split
  · exact Cells.foldl_wf e fun _ _ e2 => Cells.set_wf e2 _ _
  · exact e

theorem Group.Canon.apply {g : Group} {i : Nat} (h : g.Canon Q i) {p : Pend} : (g.apply p).Canon Q i := by
  unfold Group.apply
  split
  · split
    · exact h
    · exact h.upd (s := fun e2 => Cells.set_wf e2 _ _)
  · extract_lets g1
    have hg1 : g1.Canon Q i := by
      unfold g1
      split
      · exact h
      · exact h.freeTag
    exact hg1.putLanes
  · split
    · exact h
    · exact h.upd (sh := fun e2 => Cells.set_wf e2 _ _)

theorem Group.Canon.settle {g : Group} {i : Nat} (h : g.Canon Q i) : (g.settle).Canon Q i := h.upd.foldl fun _ _ h1 => h1.apply

theorem Group.Canon.tick {g : Group} {i : Nat} (h : g.Canon Q i) {lane : Bool} : (g.tick lane).Canon Q i := h.upd.settle

theorem Group.Canon.claim {g : Group} {i : Nat} (h : g.Canon Q i) {r : RegRef} {m : LaneMask} : (g.claim r m).Canon Q i := h.upd

theorem Group.Canon.writeS {g : Group} {i : Nat} (h : g.Canon Q i) {r : Nat} {v : Word} : (g.writeS r v).Canon Q i := by
  unfold Group.writeS
  split
  · exact h
  · extract_lets g1
    have hg1 : g1.Canon Q i := h.claim
    exact hg1.upd (s := fun e1 => Cells.set_wf e1 _ _)

theorem Group.Canon.setMask {g : Group} {i : Nat} (h : g.Canon Q i) {m : LaneMask} : (g.setMask m).Canon Q i := h.writeS.writeS.writeS

theorem Group.Canon.writeV {g : Group} {i : Nat} (h : g.Canon Q i) {r : Nat} {m : LaneMask} {f : Nat → Word} : (g.writeV r m f).Canon Q i :=
  h.claim.putLanes

theorem Group.Canon.makeRoom {g : Group} {i : Nat} (h : g.Canon Q i) {lane : Bool} {L : Nat} : (g.makeRoom lane L).Canon Q i := by
  unfold Group.makeRoom
  extract_lets ws
  split
  · exact h.upd.settle
  · exact h

theorem Group.Canon.expect {g : Group} {i : Nat} (h : g.Canon Q i) {lane : Bool} {op L : Nat} {rs : List (RegRef × LaneMask × Cells 32)} :
    (g.expect lane op L rs).Canon Q i := by
  unfold Group.expect
  extract_lets rs1 g1
  have hg1 : g1.Canon Q i := h.makeRoom.foldl fun _ _ h1 => h1.claim
  exact hg1.upd

theorem Group.Canon.arrive {g : Group} {i : Nat} (h : g.Canon Q i) {op : Nat} : (g.arrive op).Canon Q i := h.upd.settle

theorem Group.Canon.deliver {g : Group} {i : Nat} (h : g.Canon Q i) {op : Nat} {f : RegRef → Cells 32 → Cells 32} : (g.deliver op f).Canon Q i :=
  h.upd.settle

theorem Group.Canon.closeWindows {g : Group} {i : Nat} (h : g.Canon Q i) : (g.closeWindows).Canon Q i := h.upd.settle

theorem Group.Canon.advance {g : Group} {i : Nat} (h : g.Canon Q i) {len : Nat} : (g.advance len).Canon Q i := h.upd.tick

theorem Group.Canon.laneDone {g : Group} {i : Nat} (h : g.Canon Q i) : (g.laneDone).Canon Q i := by
  unfold Group.laneDone
  extract_lets r g1 g2
  have hg1 : g1.Canon Q i := h.upd
  have hg2 : g2.Canon Q i := by
    unfold g2
    split
    · exact hg1.upd
    · exact hg1
  exact hg2.tick

theorem Group.Canon.opDone {g : Group} {i : Nat} (h : g.Canon Q i) {op : Nat} : (g.opDone op).Canon Q i := h.upd

theorem Group.Canon.setFlags {g : Group} {i : Nat} (h : g.Canon Q i) {f : AFlags} : (g.setFlags f).Canon Q i := h.upd

theorem Group.Canon.setSticky {g : Group} {i : Nat} (h : g.Canon Q i) {c : Cond} : (g.setSticky c).Canon Q i := h.upd

theorem Group.Canon.enterHandler {g : Group} {i : Nat} (h : g.Canon Q i) {c : Cond} : (g.enterHandler c).Canon Q i := h.upd

theorem Group.Canon.leaveHandler {g : Group} {i : Nat} (h : g.Canon Q i) {f : Frame} : (g.leaveHandler f).Canon Q i := by
  unfold Group.leaveHandler
  extract_lets src
  have hsrc : src.Canon Q i := h.setMask
  clear_value src
  exact hsrc.upd

theorem Group.Canon.concrete {g : Group} {i : Nat} (h : g.Canon Q i) {x : Nat → Option Word} {r : Nat} : (g.concrete x r).Canon Q i := by
  unfold Group.concrete
  split
  · exact ((h.upd (v := fun e1 => Cells.foldl_wf e1 fun _ _ e2 => Cells.set_wf e2 _ _)).freeTag).rowsWritten
  · exact h

theorem Group.Canon.allValues {g : Group} {i : Nat} (h : g.Canon Q i) {r : Nat} : (g.allValues r).Canon Q i := by
  unfold Group.allValues
  split
  · exact h.freeTag
  · exact h

theorem Group.Canon.writeVal {g : Group} {i : Nat} (h : g.Canon Q i) {lane : Bool} {x : Nat → Option Word} {r : Nat} {m : LaneMask} {f : Nat → Word}
    : (g.writeVal lane x r m f).Canon Q i := by
  unfold Group.writeVal
  split
  · exact h
  · refine (Group.Canon.writeV ?_).allValues
    split
    · exact h.concrete
    · exact h

theorem Group.Canon.keepVal {g : Group} {i : Nat} (h : g.Canon Q i) {x : Nat → Option Word} {m : LaneMask} {r : Nat} : (g.keepVal x m r).Canon Q i := by
  unfold Group.keepVal
  split
  · exact h
  · exact h.concrete

theorem State.Canon.putCluster {s : State} (h : s.Canon P Q) {c : Nat} {x : Cluster} : (s.putCluster c x).Canon P Q := h.upd

theorem State.Canon.draw {s : State} (h : s.Canon P Q) : (s.draw).2.Canon P Q := by
  unfold State.draw
  dsimp only
  exact h.upd

theorem State.Canon.msix {s : State} (h : s.Canon P Q) {v : Nat} : (s.msix v).Canon P Q := by
  unfold State.msix
  split
  · exact h.upd
  · exact h.upd

theorem State.Canon.machineCheck {s : State} (h : s.Canon P Q) {m : State.Mc} : (s.machineCheck m).Canon P Q := by
  unfold State.machineCheck
  extract_lets n x s1 s2 p s3
  have hs1 : s1.Canon P Q := h.foldl fun _ h1 _ _ => h1.setCfgW
  have hs2 : s2.Canon P Q := hs1.setCfgW
  have hs3 : s3.Canon P Q := by
    unfold s3
    split
    · exact hs2
    · exact hs2.setCfgW
  exact hs3.msix

theorem State.Canon.sfuWrite {s : State} (hs : s.Canon P Q) {h : Nat} : (s.sfuWrite h).Canon P Q := by
  unfold State.sfuWrite
  split
  · split
    next _ _ _ _ _ _ _ _ e2 =>
      extract_lets s1
      have hs1 : s1.Canon P Q := hs.upd (ops := fun h1 => Tab.Canon.del h1)
      split
      · refine hs1.putGroup ?_
        split
        · exact ((hs.group e2).setFlags).enterHandler
        · exact (((((hs.group e2).keepVal).expect).laneDone).arrive).setFlags
      · exact hs1.putGroup (((hs.group e2).arrive).setFlags)
    · exact hs.upd (ops := fun h1 => Tab.Canon.del h1)
    · exact hs
  · exact hs

theorem State.Canon.drainSfu {s : State} (h : s.Canon P Q) {t i : Nat} : (s.drainSfu t i).Canon P Q := h.foldl fun _ h1 _ _ => h1.sfuWrite

theorem State.Canon.pauseTeam {s : State} (h : s.Canon P Q) {t : Nat} {self : Option Nat} : (s.pauseTeam t self).Canon P Q := by
  unfold State.pauseTeam
  split
  · exact h
  next _ _ e =>
    split
    · split
      · exact h.mapGroup fun _ h1 => h1.upd
      · exact h
    · extract_lets s1
      have hs1 : s1.Canon P Q := h.putTeam ((h.team e).upd)
      refine hs1.foldl fun s2 h1 g h2 => ?_
      split
      next _ _ _ e2 =>
        extract_lets run s4
        have hs4 : s4.Canon P Q := (State.Canon.of_snd e2 h1.draw).mapGroup fun _ h3 => h3.upd
        split
        · exact hs4
        · exact hs4.drainSfu

theorem State.Canon.keepHalted {s : State} (h : s.Canon P Q) {t : Nat} : (s.keepHalted t).Canon P Q := by
  unfold State.keepHalted
  split
  · exact h.upd (parts := fun h1 => Tab.Canon.map h1 (fun _ => rfl) fun _ _ h3 => h3)
  · exact h

theorem State.Canon.haltTeam {s : State} (h : s.Canon P Q) {t : Nat} {self : Option Nat} : (s.haltTeam t self).Canon P Q := h.pauseTeam.keepHalted

theorem State.Canon.enqueueRec {s : State} (h : s.Canon P Q) {core : Nat} {r : FaultRec} : (s.enqueueRec core r).Canon P Q := by
  unfold State.enqueueRec
  extract_lets c r1 c1
  have hc : c.Canon Q := h.core
  have hc1 : c1.Canon Q := hc.upd
  split
  next _ _ _ e =>
    refine (State.Canon.of_snd e h.draw).putCore ?_
    split
    · exact hc1.upd
    · exact hc1.upd

theorem State.Canon.raiseGroup {s : State} (h : s.Canon P Q) {t i : Nat} {code : FaultCode} {d : State.Detail} : (s.raiseGroup t i code d).Canon P Q := by
  unfold State.raiseGroup
  split
  next _ _ _ _ _ e1 =>
    extract_lets r s1
    have hs1 : s1.Canon P Q := (h.putGroup ((h.group e1).upd)).enqueueRec
    exact hs1.haltTeam
  · exact h

theorem State.Canon.raiseOp {s : State} (hs : s.Canon P Q) {h idx : Nat} {pc : DWord} {lword : Word} {code : FaultCode} {d : State.Detail} :
    (s.raiseOp h idx pc lword code d).Canon P Q := by
  unfold State.raiseOp
  split
  · exact hs
  · extract_lets s1 g ex core
    have hs1 : s1.Canon P Q := hs.putOp
    split
    · exact hs1
    · extract_lets r
      exact hs1.enqueueRec.haltTeam

theorem State.Canon.raiseCurator {s : State} (h : s.Canon P Q) {c code : Nat} : (s.raiseCurator c code).Canon P Q :=
  (h.mapCore fun _ h1 => h1.upd).machineCheck

theorem State.Canon.raiseNow {s : State} (h : s.Canon P Q) {code : FaultCode} {d : optParam State.Detail { }} : (s.raiseNow code d).Canon P Q := by
  unfold State.raiseNow
  split
  · exact h.raiseGroup
  · exact h.raiseCurator
  · exact h

theorem State.Canon.issuing {s : State} {k : Out} (hk : Out.Canon P Q k) : Out.Canon P Q (s.issuing k) := by
  unfold State.issuing
  split
  · exact hk
  · trivial

theorem State.Canon.byCurator {s : State} (h : s.Canon P Q) {k : Nat → Out} (hk : ∀ c, Out.Canon P Q (k c)) : Out.Canon P Q (s.byCurator k) := by
  unfold State.byCurator
  split
  · exact hk _
  · split
    · exact h.raiseNow
    · trivial
  · trivial

theorem State.Canon.setS {s : State} (h : s.Canon P Q) {r : SReg} {v : Word} : (s.setS r v).Canon P Q := by
  unfold State.setS
  split
  · exact h.mapGroup fun _ h1 => h1.writeS
  · split
    · exact h
    · exact h.mapCore fun _ h1 => h1.upd (s := fun e2 => Cells.set_wf e2 _ _)
  · exact h

theorem State.Canon.setPair {s : State} (h : s.Canon P Q) {r : SReg} {v : DWord} : (s.setPair r v).Canon P Q := h.setS.setS

theorem State.Canon.jump {s : State} (h : s.Canon P Q) {pc : DWord} : (s.jump pc).Canon P Q := by
  unfold State.jump
  split
  · exact h.mapGroup fun _ h1 => h1.upd.tick
  · exact h.mapCore fun _ h1 => h1.upd
  · exact h

theorem State.Canon.advance {s : State} (h : s.Canon P Q) {len : Nat} : (s.advance len).Canon P Q := h.jump

theorem State.Canon.scalar {s : State} (h : s.Canon P Q) {rs : List SReg} {k : State → State} (hk : ∀ s, s.Canon P Q → (k s).Canon P Q) : Out.Canon
    P Q (s.scalar rs k) := by
  unfold State.scalar
  refine State.Canon.issuing ?_
  split
  · exact h
  · exact hk _ h

theorem State.Canon.scalarPairs {s : State} (h : s.Canon P Q) {pairs rs : List SReg} {k : State → State} (hk : ∀ s, s.Canon P Q → (k s).Canon P Q) :
    Out.Canon P Q (s.scalarPairs pairs rs k) := by
  unfold State.scalarPairs
  refine State.Canon.issuing ?_
  split
  · exact h.raiseNow
  · split
    · exact h
    · exact hk _ h

theorem Group.Canon.wakeYield {g : Group} {i : Nat} (h : g.Canon Q i) : (State.wakeYield g).Canon Q i := by
  unfold State.wakeYield
  split
  · split
    · exact h.upd.tick
    · exact h
  · exact h

theorem State.Canon.leaveCounter {s : State} (hs : s.Canon P Q) {t i h : Nat} : (s.leaveCounter t i h).Canon P Q := by
  unfold State.leaveCounter
  refine hs.mapGroup fun g h1 => ?_
  split
  · exact h1
  · exact h1.opDone.wakeYield

theorem State.Canon.newOp {s : State} (h : s.Canon P Q) {t i : Nat} {g : Group} {glid : Nat} {cls : Option Cls} {stage : Stage} {kind : OpKind} :
    (s.newOp t i g glid cls stage kind).2.Canon P Q := by
  unfold State.newOp
  extract_lets h1 o s1 s2
  have hs1 : s1.Canon P Q := h.upd (ops := fun h2 => Tab.Canon.set h2 fun _ => trivial)
  have hs2 : s2.Canon P Q := by
    unfold s2
    split
    · exact hs1.mapGroup fun _ h2 => h2.upd
    · exact hs1
  dsimp only
  exact hs2

theorem State.Canon.slotFlipped {s : State} (h : s.Canon P Q) {t n : Nat} : (s.slotFlipped t n).Canon P Q := by
  unfold State.slotFlipped
  split
  · exact h
  · extract_lets ph s1
    have hs1 : s1.Canon P Q := by
      refine h.foldl fun s2 h1 g h2 => ?_
      split
      · split
        · exact h1.putGroup (((h.groupsOf h2).upd).advance)
        · exact h1
      · exact h1
    exact hs1.mapTeam fun _ h1 => h1.upd

theorem State.Canon.slotArrive {s : State} (h : s.Canon P Q) {t n : Nat} : (s.slotArrive t n).Canon P Q := by
  unfold State.slotArrive
  split
  · exact h
  next _ _ e =>
    extract_lets w w' s1
    have hs1 : s1.Canon P Q := h.putTeam ((h.team e).upd)
    split
    · exact hs1.slotFlipped
    · exact hs1

theorem State.Canon.engineArrive {s : State} (hs : s.Canon P Q) {t h bsl idx : Nat} {pc : DWord} {lword : Word} :
    (s.engineArrive t h bsl idx pc lword).Canon P Q := by
  unfold State.engineArrive
  split
  · exact hs
  · split
    · exact hs
    · split
      · exact hs
      · split
        · exact hs.raiseOp
        · exact hs.slotArrive

theorem State.Canon.setByte {s : State} (h : s.Canon P Q) {l : Loc} {b : Byte} : (s.setByte l b).Canon P Q := by
  unfold State.setByte
  split
  · exact h
  · split
    · exact h.mapTeam fun _ h1 => h1.upd (tm := fun e1 => Cells.set_wf e1 _ _)
    · exact h.mapGroup fun _ h1 => h1.upd (spill := fun e1 => Cells.set_wf e1 _ _)
    · exact h.upd (annex := fun h1 h2 => Cells.set_wf (h1 h2) _ _)
    · exact h.upd (dev := fun h1 h2 => Cells.set_wf (h1 h2) _ _)
    · exact h.upd (peers := fun h1 h2 => Cells.set_wf (h1 h2) _ _)
    · exact h.mapCore fun _ h1 => h1.upd (mem := fun e1 => Cells.set_wf e1 _ _)

theorem State.Canon.setBytesRaw {s : State} (h : s.Canon P Q) {l : Loc} {bs : List Byte} : (s.setBytesRaw l bs).Canon P Q := by
  induction bs generalizing s l with
  | nil => exact h
  | cons b r ih => exact ih h.setByte

theorem State.Canon.freshRows {s : State} (h : s.Canon P Q) {l : Loc} {n : Nat} : (s.freshRows l n).Canon P Q := by
  unfold State.freshRows
  split
  · exact h
  · extract_lets symHit
    exact h.upd

theorem State.Canon.openRows {s : State} (h : s.Canon P Q) : (s.openRows).Canon P Q := by
  unfold State.openRows
  split
  · exact h
  · exact h.upd

theorem State.Canon.checkWatches {s : State} (h : s.Canon P Q) {pa n : Nat} : (s.checkWatches pa n).Canon P Q := by
  unfold State.checkWatches
  extract_lets hit s1 s2
  have hs1 : s1.Canon P Q := by
    refine h.foldl fun s3 h1 a h2 => ?_
    split
    · split
      · exact h1.upd (groups := fun h3 => Tab.Canon.set h3 (((h.group_mem h2).upd).advance))
      · exact h1
    · split
      · exact h1.upd (groups := fun h3 => Tab.Canon.set h3 (((h.group_mem h2).upd).advance))
      · exact h1
    · exact h1
  have hs2 : s2.Canon P Q := by
    refine hs1.foldl fun s3 h1 a h2 => ?_
    split
    · exact h1
    · exact h1.upd (teams := fun h3 => Tab.Canon.set h3 ((hs1.team_mem h2).upd))
  refine hs2.foldl fun s3 h1 a h2 => ?_
  split
  · split
    · exact h1.upd (grids := fun h3 => Tab.Canon.set h3 ((hs2.grid_mem h2).upd))
    · exact h1
  · exact h1

theorem State.Canon.setBytes {s : State} (h : s.Canon P Q) {l : Loc} {bs : List Byte} : (s.setBytes l bs).Canon P Q := by
  unfold State.setBytes
  extract_lets s1
  have hs1 : s1.Canon P Q := h.setBytesRaw.freshRows
  split
  · exact hs1.checkWatches
  · exact hs1

theorem State.Canon.setNum {s : State} (h : s.Canon P Q) {l : Loc} {n x : Nat} : (s.setNum l n x).Canon P Q := h.setBytes

theorem State.Canon.readBad {s : State} (h : s.Canon P Q) {source faddr core : Nat} {row : Option Row} {who : Option (Nat × Option Nat)} :
    (s.readBad source faddr core row who).Canon P Q := by
  unfold State.readBad
  extract_lets g s1
  have hs1 : s1.Canon P Q := h.machineCheck
  split
  · exact hs1.haltTeam
  · exact hs1.raiseCurator

theorem State.Canon.noteRead {s : State} (h : s.Canon P Q) {l : Loc} {n core : Nat} {who : Option (Nat × Option Nat)} :
    (s.noteRead l n core who).Canon P Q := by
  unfold State.noteRead
  split
  · exact h
  · split
    · exact h
    · exact h.readBad

theorem State.Canon.noteHubRead {s : State} (h : s.Canon P Q) {l : Loc} {n : Nat} : (s.noteHubRead l n).Canon P Q := by
  unfold State.noteHubRead
  split
  · exact h
  · split
    · exact h
    · exact h.machineCheck

theorem State.Canon.noteRegs {s : State} (h : s.Canon P Q) {t i : Nat} {rs : List Nat} : (s.noteRegs t i rs).Canon P Q := by
  unfold State.noteRegs
  split
  · split
    · exact h.readBad
    · exact h
  · exact h

theorem State.Canon.fillQueue {s : State} (h : s.Canon P Q) {core : Nat} : (s.fillQueue core).Canon P Q := by
  unfold State.fillQueue
  extract_lets c
  have hc : c.Canon Q := h.core
  split
  · exact h
  · split
    next _ _ _ e1 =>
      split
      · exact (State.Canon.of_snd e1 h.draw).putCore hc.upd
      · exact .of_snd e1 h.draw

theorem State.Canon.translate {s : State} (h : s.Canon P Q) {who : Req} {core : Option Nat} {p asid : Nat} {kind : Kind} {va : Nat} :
    State.Xlat.Canon P Q (s.translate who core p asid kind va) := by
  unfold State.translate
  split
  · trivial
  · extract_lets x join here
    split
    · exact h.putPart
    · split
      · exact h.putPart
      · exact h.putPart

theorem State.Canon.fileService {s : State} (h : s.Canon P Q) {p : Nat} {w : Walk} : (s.fileService p w).Canon P Q := by
  unfold State.fileService
  extract_lets x same q a kind die s1 s2 s3
  have hs1 : s1.Canon P Q := h.putPart
  have hs2 : s2.Canon P Q := hs1.setBytes
  have hs3 : s3.Canon P Q := hs2.setNum
  split
  · exact h.putPart
  · split
    · exact hs3.msix
    · exact hs3

theorem State.Canon.noteWalk {s : State} (h : s.Canon P Q) {p : Nat} {w : Walk} : (s.noteWalk p w).Canon P Q := by
  unfold State.noteWalk
  refine h.foldl fun s1 h1 n h2 => ?_
  split
  · split
    · exact h1.machineCheck
    · exact h1.machineCheck
  · exact h1.readBad.foldl fun _ h3 _ _ => h3.haltTeam

theorem State.Canon.walkOne {s : State} (h : s.Canon P Q) {p : Nat} {w : Walk} : (s.walkOne p w).Canon P Q := by
  unfold State.walkOne
  split
  · split
    next _ _ _ e1 =>
      split
      · exact (State.Canon.of_snd e1 h.draw).mapCore fun _ h1 => h1.upd
      · extract_lets e3
        split
        · exact (State.Canon.of_snd e1 h.draw).upd
        · exact (State.Canon.of_snd e1 h.draw).upd
  · exact h.fileService

theorem State.Canon.walkStep {s : State} (h : s.Canon P Q) {p : Nat} : (s.walkStep p).Canon P Q := by
  unfold State.walkStep
  extract_lets x may
  split
  · exact h
  · extract_lets with' ws s1
    have hs1 : s1.Canon P Q := h.putPart.noteWalk
    exact hs1.foldl fun _ h1 _ _ => h1.walkOne

theorem State.Canon.serviceStep {s : State} (h : s.Canon P Q) {p : Nat} : (s.serviceStep p).Canon P Q := by
  unfold State.serviceStep
  extract_lets x q s1 st s2
  have hs1 : s1.Canon P Q := h.noteHubRead
  have hs2 : s2.Canon P Q := hs1.noteHubRead
  split
  · exact hs1
  · split
    · exact hs1
    · extract_lets x1
      split
      · exact hs2.putPart
      · exact hs2.putPart

theorem State.Canon.translateNow {s : State} (h : s.Canon P Q) {t i : Nat} {kind : Kind} {va : Nat} : State.Xlat.Canon P Q
    (s.translateNow t i kind va) := by
  unfold State.translateNow
  extract_lets core
  exact h.translate

theorem State.Canon.checkDeadlock {s : State} (h : s.Canon P Q) {t : Nat} : (s.checkDeadlock t).Canon P Q := by
  unfold State.checkDeadlock
  split
  · split
    next _ _ _ e1 =>
      extract_lets gs
      split
      · exact (State.Canon.of_snd e1 h.draw).raiseGroup
      · exact .of_snd e1 h.draw
  · exact h

theorem State.Canon.park {s : State} (h : s.Canon P Q) {t i : Nat} {w : Wait} : (s.park t i w).Canon P Q :=
  (h.mapGroup fun _ h1 => h1.upd).checkDeadlock

theorem Out.Canon.notingRegs {s : State} {t i r k : Nat} {o : Out} (h : Out.Canon P Q o) : Out.Canon P Q (s.notingRegs t i r k o) := by
  cases o with
  | next s1 =>
    unfold State.notingRegs
    split
    next _ _ e =>
      split
      · exact (h.of_eq e).readBad
      · exact h.of_eq e
    · split
      · exact h.readBad
      · exact h
  | fault => trivial
  | refused => trivial

theorem State.Canon.readingRegs {s : State} {t i : Nat} {g : Group} {rs : List Nat} {o : Out} (h : Out.Canon P Q o) :
    Out.Canon P Q (s.readingRegs t i g rs o) := by
  unfold State.readingRegs
  split
  · exact h.notingRegs
  · exact h

theorem State.Canon.laneIssue {s : State} (h : s.Canon P Q) {w : LaneWord} {wide : Bool} {rd dst ss : List Nat} {chk : Group → Option FaultCode}
    {k : Nat → Nat → LaneIn → Out} (hk : ∀ a0 a1 a2, a2.g.Canon Q a1 → Out.Canon P Q (k a0 a1 a2)) : Out.Canon P Q
    (s.laneIssue w wide rd dst ss chk k) := by
  unfold State.laneIssue
  refine h.byGroup (fun _ => h.raiseCurator) fun n n1 g e h1 => ?_
  extract_lets c eff g1 x
  have hg1 : g1.Canon Q n1 := h1.makeRoom
  split
  · exact h.raiseNow
  · split
    · exact h.raiseNow
    · clear_value c
      split
      · exact h.raiseNow
      · split
        · exact h
        · split
          · exact h.park
          · exact State.Canon.readingRegs (hk _ _ _ hg1)

/-- The change that a lane word makes of its own keeps a group canonical. -/
def LaneOut.Canon (Q : Prop) (o : LaneOut) : Prop := ∀ i g, Group.Canon Q i g → (o.upd g).Canon Q i

theorem Group.Canon.laneWrite {i : LaneIn} {o : LaneOut} {n : Nat} (h : i.g.Canon Q n) (ho : o.Canon Q) :
    (State.laneWrite i o).Canon Q n := by
  unfold State.laneWrite
  extract_lets g1 g2
  have hg1 : g1.Canon Q n := h.foldl fun _ _ h1 => h1.writeVal
  have hg2 : g2.Canon Q n := hg1.foldl fun _ _ h1 => h1.upd (k := fun e => Cells.set_wf e _ _)
  exact ho _ _ hg2.setFlags

theorem State.Canon.laneFinish {s : State} (h : s.Canon P Q) {t n : Nat} {i : LaneIn} {o : LaneOut} (hi : i.g.Canon Q n)
    (ho : o.Canon Q) : (s.laneFinish t n i o).Canon P Q := by
  unfold State.laneFinish
  split
  · exact h.drainSfu.mapGroup fun _ h1 => h1.setFlags.enterHandler
  · exact h.putGroup (hi.laneWrite ho).laneDone

theorem State.Canon.laneWord {s : State} (h : s.Canon P Q) {w : LaneWord} {rd dst ss : List Nat} {chk : Group → Option FaultCode}
    {f : LaneIn → LaneOut} (hf : ∀ a0, (f a0).Canon Q) : Out.Canon P Q (s.laneWord w rd dst ss chk f) :=
  h.laneIssue fun _ _ _ h1 => h.laneFinish h1 (hf _)

theorem State.Canon.laneElems {s : State} (h : s.Canon P Q) {w : LaneWord} {tern : Bool} {f : Nat → Nat → Nat → Nat × AFlags} : Out.Canon P Q
    (s.laneElems w tern f) := by
  unfold State.laneElems
  extract_lets rd wd
  refine h.laneWord fun a => ?_
  extract_lets one
  exact fun _ _ h => h

theorem State.Canon.laneUnary {s : State} (h : s.Canon P Q) {w : LaneWord} {f : Nat → Nat × AFlags} : Out.Canon P Q (s.laneUnary w f) := by
  unfold State.laneUnary
  refine h.laneWord fun a => ?_
  extract_lets wd one
  exact fun _ _ h => h

end Sys2Proof.Machine
end

