-- ==== Sys2Proof/Proofs/CanonicalLanes.lean ====
section
set_option Elab.async false

/-! PROOF. The canonical form and what lane and scalar words do: deferred registers, rows of memory, the stream, the life of a team, the ordered queues. -/

namespace Sys2Proof.Machine

open Sys2Proof

variable {P Q : Prop}

theorem Group.Canon.putForm {g : Group} {i : Nat} (h : g.Canon Q i) {d y slot : Nat} {m : LaneMask} {f : Nat → Word × Word} :
    (g.putForm d y slot m f).Canon Q i := by
  unfold Group.putForm
  extract_lets g1
  have hg1 : g1.Canon Q i := h.claim
  exact hg1.upd (v := fun e => Cells.foldl_wf e fun _ _ e1 => Cells.set_wf e1 _ _) (tags := fun e => Cells.set_wf e _ _)
      (scar := fun e => Cells.foldl_wf e fun _ _ e1 => Cells.set_wf e1 _ _)

theorem State.Canon.sidecarFull {s : State} (h : s.Canon P Q) {t n : Nat} : (s.sidecarFull t n).Canon P Q := by
  unfold State.sidecarFull
  extract_lets s1
  have hs1 : s1.Canon P Q := h.mapGroup fun _ h1 => h1.setSticky
  split
  · exact hs1.drainSfu.mapGroup fun _ h1 => h1.enterHandler
  · exact hs1.park

theorem State.Canon.writeForm {s : State} (h : s.Canon P Q) {t n : Nat} {i : LaneIn} (hi : i.g.Canon Q n) {d y : Nat}
    {f : Nat → Word × Word} : Out.Canon P Q (s.writeForm t n i d y f) := by
  unfold State.writeForm
  extract_lets g z meet low free new old
  split
  · exact h.putGroup hi.laneDone
  · split
    · exact h.park
    · split
      · exact h.sidecarFull
      · split
        next _ s1 e =>
          extract_lets slot
          have h1 : s1.Canon P Q := by
            split at e
            · cases e
              exact h
            · exact .of_snd e h.draw
          exact h1.putGroup (hi.putForm).laneDone

theorem State.Canon.transform {s : State} (h : s.Canon P Q) {w : LaneWord} {rd ss : List Nat} {os : Group → List State.Opd}
    {f : (Nat → Nat → Option (Word × Word)) → LaneIn → Nat → Word × Word} : Out.Canon P Q (s.transform w rd ss os f) := by
  unfold State.transform
  refine h.byGroup (fun _ => h.raiseCurator) fun n n1 g e h1 => ?_
  split
  · exact h.raiseNow
  · split
    · exact h
    · extract_lets x i ys hi lows low fm
      split
      · exact h.park
      · exact State.Canon.readingRegs (h.writeForm h1)

theorem State.Canon.alu {s : State} (h : s.Canon P Q) {d a b : SReg} {f : Word → Word → Word} : Out.Canon P Q (s.alu d a b f) :=
  h.scalar fun _ h1 => h1.setS.advance

theorem State.Canon.aluImm {s : State} (h : s.Canon P Q) {d a : SReg} {v : Word} {len : Nat} {f : Word → Word → Word} : Out.Canon P Q
    (s.aluImm d a v len f) := h.scalar fun _ h1 => h1.setS.advance

theorem State.Canon.aluPair {s : State} (h : s.Canon P Q) {d a b : SReg} {f : DWord → DWord → DWord} : Out.Canon P Q (s.aluPair d a b f) :=
  h.scalarPairs fun _ h1 => h1.setPair.advance

theorem State.Canon.aluShift64 {s : State} (h : s.Canon P Q) {d a b : SReg} {f : DWord → Word → DWord} : Out.Canon P Q (s.aluShift64 d a b f) :=
  h.scalarPairs fun _ h1 => h1.setPair.advance

theorem State.Canon.execAdd {s : State} (h : s.Canon P Q) {d a b : SReg} : Out.Canon P Q (execAdd d a b s) := h.alu

theorem State.Canon.execSub {s : State} (h : s.Canon P Q) {d a b : SReg} : Out.Canon P Q (execSub d a b s) := h.alu

theorem State.Canon.execMul {s : State} (h : s.Canon P Q) {d a b : SReg} : Out.Canon P Q (execMul d a b s) := h.alu

theorem State.Canon.execMulh {s : State} (h : s.Canon P Q) {d a b : SReg} : Out.Canon P Q (execMulh d a b s) := h.alu

theorem State.Canon.execMulhu {s : State} (h : s.Canon P Q) {d a b : SReg} : Out.Canon P Q (execMulhu d a b s) := h.alu

theorem State.Canon.execAnd {s : State} (h : s.Canon P Q) {d a b : SReg} : Out.Canon P Q (execAnd d a b s) := h.alu

theorem State.Canon.execOr {s : State} (h : s.Canon P Q) {d a b : SReg} : Out.Canon P Q (execOr d a b s) := h.alu

theorem State.Canon.execXor {s : State} (h : s.Canon P Q) {d a b : SReg} : Out.Canon P Q (execXor d a b s) := h.alu

theorem State.Canon.execShl {s : State} (h : s.Canon P Q) {d a b : SReg} : Out.Canon P Q (execShl d a b s) := h.alu

theorem State.Canon.execShr {s : State} (h : s.Canon P Q) {d a b : SReg} : Out.Canon P Q (execShr d a b s) := h.alu

theorem State.Canon.execSra {s : State} (h : s.Canon P Q) {d a b : SReg} : Out.Canon P Q (execSra d a b s) := h.alu

theorem State.Canon.execSlt {s : State} (h : s.Canon P Q) {d a b : SReg} : Out.Canon P Q (execSlt d a b s) := h.alu

theorem State.Canon.execSltu {s : State} (h : s.Canon P Q) {d a b : SReg} : Out.Canon P Q (execSltu d a b s) := h.alu

theorem State.Canon.execMin {s : State} (h : s.Canon P Q) {d a b : SReg} : Out.Canon P Q (execMin d a b s) := h.alu

theorem State.Canon.execMax {s : State} (h : s.Canon P Q) {d a b : SReg} : Out.Canon P Q (execMax d a b s) := h.alu

theorem State.Canon.execPopc {s : State} (h : s.Canon P Q) {d a : SReg} : Out.Canon P Q (execPopc d a s) := h.aluImm

theorem State.Canon.execAddi {s : State} (h : s.Canon P Q) {d a : SReg} {i : Imm} : Out.Canon P Q (execAddi d a i s) := h.aluImm

theorem State.Canon.execAndi {s : State} (h : s.Canon P Q) {d a : SReg} {i : Imm} : Out.Canon P Q (execAndi d a i s) := h.aluImm

theorem State.Canon.execOri {s : State} (h : s.Canon P Q) {d a : SReg} {i : Imm} : Out.Canon P Q (execOri d a i s) := h.aluImm

theorem State.Canon.execXori {s : State} (h : s.Canon P Q) {d a : SReg} {i : Imm} : Out.Canon P Q (execXori d a i s) := h.aluImm

theorem State.Canon.execShli {s : State} (h : s.Canon P Q) {d a : SReg} {n : BitVec 5} : Out.Canon P Q (execShli d a n s) := h.aluImm

theorem State.Canon.execShri {s : State} (h : s.Canon P Q) {d a : SReg} {n : BitVec 5} : Out.Canon P Q (execShri d a n s) := h.aluImm

theorem State.Canon.execSrai {s : State} (h : s.Canon P Q) {d a : SReg} {n : BitVec 5} : Out.Canon P Q (execSrai d a n s) := h.aluImm

theorem State.Canon.execSlti {s : State} (h : s.Canon P Q) {d a : SReg} {i : Imm} : Out.Canon P Q (execSlti d a i s) := h.aluImm

theorem State.Canon.execSltui {s : State} (h : s.Canon P Q) {d a : SReg} {i : Imm} : Out.Canon P Q (execSltui d a i s) := h.aluImm

theorem State.Canon.execAdd64 {s : State} (h : s.Canon P Q) {d a b : SReg} : Out.Canon P Q (execAdd64 d a b s) := h.aluPair

theorem State.Canon.execSub64 {s : State} (h : s.Canon P Q) {d a b : SReg} : Out.Canon P Q (execSub64 d a b s) := h.aluPair

theorem State.Canon.execShl64 {s : State} (h : s.Canon P Q) {d a b : SReg} : Out.Canon P Q (execShl64 d a b s) := h.aluShift64

theorem State.Canon.execShr64 {s : State} (h : s.Canon P Q) {d a b : SReg} : Out.Canon P Q (execShr64 d a b s) := h.aluShift64

theorem State.Canon.execAddi64 {s : State} (h : s.Canon P Q) {d a : SReg} {i : Imm} : Out.Canon P Q (execAddi64 d a i s) :=
  h.scalarPairs fun _ h1 => h1.setPair.advance

theorem State.Canon.execMul64 {s : State} (h : s.Canon P Q) {d a b : SReg} : Out.Canon P Q (execMul64 d a b s) := h.aluPair

theorem State.Canon.execSltu64 {s : State} (h : s.Canon P Q) {d a b : SReg} : Out.Canon P Q (execSltu64 d a b s) :=
  h.scalarPairs fun _ h1 => h1.setS.advance

theorem State.Canon.laneIntBin {s : State} (h : s.Canon P Q) {w : LaneWord} {f : ℤ → ℤ → ℤ} : Out.Canon P Q (s.laneIntBin w f) := h.laneElems

theorem State.Canon.execVaddInt {s : State} (h : s.Canon P Q) {w : LaneWord} : Out.Canon P Q (execVaddInt w s) := h.laneIntBin

theorem State.Canon.execVsubInt {s : State} (h : s.Canon P Q) {w : LaneWord} : Out.Canon P Q (execVsubInt w s) := h.laneIntBin

theorem State.Canon.execVmulInt {s : State} (h : s.Canon P Q) {w : LaneWord} : Out.Canon P Q (execVmulInt w s) := h.laneIntBin

theorem State.Canon.execVmulh {s : State} (h : s.Canon P Q) {w : LaneWord} : Out.Canon P Q (execVmulh w s) := h.laneIntBin

theorem State.Canon.execVmad {s : State} (h : s.Canon P Q) {w : LaneWord} : Out.Canon P Q (execVmad w s) := h.laneElems

theorem State.Canon.execVabsInt {s : State} (h : s.Canon P Q) {w : LaneWord} : Out.Canon P Q (execVabsInt w s) := h.laneUnary

theorem State.Canon.execVnegInt {s : State} (h : s.Canon P Q) {w : LaneWord} : Out.Canon P Q (execVnegInt w s) := h.laneUnary

theorem State.Canon.execVminInt {s : State} (h : s.Canon P Q) {w : LaneWord} : Out.Canon P Q (execVminInt w s) := h.laneIntBin

theorem State.Canon.execVmaxInt {s : State} (h : s.Canon P Q) {w : LaneWord} : Out.Canon P Q (execVmaxInt w s) := h.laneIntBin

theorem State.Canon.execVadds {s : State} (h : s.Canon P Q) {w : LaneWord} : Out.Canon P Q (execVadds w s) := h.laneElems

theorem State.Canon.execVsubs {s : State} (h : s.Canon P Q) {w : LaneWord} : Out.Canon P Q (execVsubs w s) := h.laneElems

theorem State.Canon.execVand {s : State} (h : s.Canon P Q) {w : LaneWord} : Out.Canon P Q (execVand w s) := h.laneElems

theorem State.Canon.execVor {s : State} (h : s.Canon P Q) {w : LaneWord} : Out.Canon P Q (execVor w s) := h.laneElems

theorem State.Canon.execVxor {s : State} (h : s.Canon P Q) {w : LaneWord} : Out.Canon P Q (execVxor w s) := h.laneElems

theorem State.Canon.execVnot {s : State} (h : s.Canon P Q) {w : LaneWord} : Out.Canon P Q (execVnot w s) := h.laneUnary

theorem State.Canon.execVshl {s : State} (h : s.Canon P Q) {w : LaneWord} : Out.Canon P Q (execVshl w s) := h.laneElems

theorem State.Canon.execVshr {s : State} (h : s.Canon P Q) {w : LaneWord} : Out.Canon P Q (execVshr w s) := h.laneElems

theorem State.Canon.execVsra {s : State} (h : s.Canon P Q) {w : LaneWord} : Out.Canon P Q (execVsra w s) := h.laneElems

theorem State.Canon.execVpopc {s : State} (h : s.Canon P Q) {w : LaneWord} : Out.Canon P Q (execVpopc w s) := h.laneUnary

theorem State.Canon.execVclz {s : State} (h : s.Canon P Q) {w : LaneWord} : Out.Canon P Q (execVclz w s) := h.laneUnary

theorem State.Canon.execVbfx {s : State} (h : s.Canon P Q) {w : LaneWord} : Out.Canon P Q (execVbfx w s) := h.laneElems

theorem State.Canon.execVbfi {s : State} (h : s.Canon P Q) {w : LaneWord} : Out.Canon P Q (execVbfi w s) := h.laneElems

theorem State.Canon.execVmov {s : State} (h : s.Canon P Q) {w : LaneWord} : Out.Canon P Q (execVmov w s) := by
  unfold Machine.execVmov
  refine h.byGroup (fun _ => h.raiseCurator) fun n n1 g e h1 => ?_
  split
  · exact h.transform
  · extract_lets n2 src
    exact h.laneWord fun _ _ _ h => h

theorem State.Canon.execVsel {s : State} (h : s.Canon P Q) {w : LaneWord} : Out.Canon P Q (execVsel w s) := by
  unfold Machine.execVsel
  refine h.byGroup (fun _ => h.raiseCurator) fun n n1 g e h1 => ?_
  extract_lets k
  split
  · exact h.transform
  · exact h.laneWord fun _ _ _ h => h

theorem State.Canon.laneCmp {s : State} (h : s.Canon P Q) {w : LaneWord} {f : Word → Word → Bool × AFlags} : Out.Canon P Q (s.laneCmp w f) :=
  h.laneWord fun _ _ _ h => h

theorem State.Canon.execVcmpInt {s : State} (h : s.Canon P Q) {w : LaneWord} : Out.Canon P Q (execVcmpInt w s) := h.laneCmp

theorem State.Canon.laneFp {s : State} (h : s.Canon P Q) {w : LaneWord} {tern : Bool} {isT : Group → Bool}
    {form : (Nat → Nat → Option (Word × Word)) → LaneIn → Nat → Word × Word} {f : FVal → FVal → FVal → FVal × Bool} : Out.Canon P Q
    (s.laneFp w tern isT form f) := by
  unfold State.laneFp
  refine h.byGroup (fun _ => h.raiseCurator) fun n n1 g e h1 => ?_
  split
  · exact h.transform
  · exact h.laneElems

theorem State.Canon.execVaddFp {s : State} (h : s.Canon P Q) {w : LaneWord} : Out.Canon P Q (execVaddFp w s) := h.laneFp

theorem State.Canon.execVsubFp {s : State} (h : s.Canon P Q) {w : LaneWord} : Out.Canon P Q (execVsubFp w s) := h.laneFp

theorem State.Canon.execVmulFp {s : State} (h : s.Canon P Q) {w : LaneWord} : Out.Canon P Q (execVmulFp w s) := h.laneFp

theorem State.Canon.execVfma {s : State} (h : s.Canon P Q) {w : LaneWord} : Out.Canon P Q (execVfma w s) := h.laneFp

theorem State.Canon.execVnegFp {s : State} (h : s.Canon P Q) {w : LaneWord} : Out.Canon P Q (execVnegFp w s) := by
  unfold Machine.execVnegFp
  refine h.byGroup (fun _ => h.raiseCurator) fun n n1 g e h1 => ?_
  split
  · exact h.transform
  · exact h.laneUnary

theorem State.Canon.execVabsFp {s : State} (h : s.Canon P Q) {w : LaneWord} : Out.Canon P Q (execVabsFp w s) := h.laneUnary

theorem State.Canon.execVminFp {s : State} (h : s.Canon P Q) {w : LaneWord} : Out.Canon P Q (execVminFp w s) := h.laneElems

theorem State.Canon.execVmaxFp {s : State} (h : s.Canon P Q) {w : LaneWord} : Out.Canon P Q (execVmaxFp w s) := h.laneElems

theorem State.Canon.execVcmpFp {s : State} (h : s.Canon P Q) {w : LaneWord} : Out.Canon P Q (execVcmpFp w s) := h.laneCmp

theorem State.Canon.execVrnd {s : State} (h : s.Canon P Q) {w : LaneWord} : Out.Canon P Q (execVrnd w s) := h.laneUnary

theorem Group.Canon.addConv {g : Group} {i : Nat} (h : g.Canon Q i) {e : Nat} : (addConv e g).Canon Q i := by
  unfold Machine.addConv
  split
  · exact h.upd
  · exact h

theorem State.Canon.laneConv {s : State} (h : s.Canon P Q) {w : LaneWord} {rd dst ss : List Nat} {chk : Group → Option FaultCode}
    {f : Nat → LaneIn → LaneOut} (hf : ∀ a0 a1, (f a0 a1).Canon Q) : Out.Canon P Q (s.laneConv w rd dst ss chk f) :=
  h.laneIssue fun _ _ _ h1 => h.laneFinish h1 (hf _ _)

theorem State.Canon.execVcvt {s : State} (h : s.Canon P Q) {w : LaneWord} : Out.Canon P Q (execVcvt w s) := by
  unfold Machine.execVcvt
  refine h.laneConv fun n a => ?_
  extract_lets one
  intro n1 g h1
  split
  · exact h1.addConv
  · exact h1

theorem State.Canon.execVpack {s : State} (h : s.Canon P Q) {w : LaneWord} : Out.Canon P Q (execVpack w s) := by
  unfold Machine.execVpack
  refine h.byGroup (fun _ => h.raiseCurator) fun n n1 g e h1 => ?_
  extract_lets n2 sc
  refine h.laneConv fun n3 a => ?_
  extract_lets one
  exact fun _ _ h2 => h2.addConv

theorem State.Canon.execVunpk {s : State} (h : s.Canon P Q) {w : LaneWord} : Out.Canon P Q (execVunpk w s) := by
  unfold Machine.execVunpk
  refine h.byGroup (fun _ => h.raiseCurator) fun n n1 g e h1 => ?_
  extract_lets n2 sc
  refine h.laneWord fun a => ?_
  extract_lets c one
  exact fun _ _ h => h

theorem State.Canon.execVbscale {s : State} (h : s.Canon P Q) {w : LaneWord} : Out.Canon P Q (execVbscale w s) := by
  unfold Machine.execVbscale
  refine h.byGroup (fun _ => h.raiseCurator) fun n n1 g e h1 => ?_
  extract_lets c bits n2 nsc
  refine h.laneConv fun n3 a => ?_
  extract_lets blk used tab at'
  exact fun _ _ h2 => h2.addConv

theorem State.Canon.lanePred {s : State} (h : s.Canon P Q) {w : LaneWord} {f : LaneMask → LaneMask → LaneMask} : Out.Canon P Q (s.lanePred w f) :=
  h.laneWord fun _ _ _ h => h

theorem State.Canon.execVkand {s : State} (h : s.Canon P Q) {w : LaneWord} : Out.Canon P Q (execVkand w s) := h.lanePred

theorem State.Canon.execVkor {s : State} (h : s.Canon P Q) {w : LaneWord} : Out.Canon P Q (execVkor w s) := h.lanePred

theorem State.Canon.execVkxor {s : State} (h : s.Canon P Q) {w : LaneWord} : Out.Canon P Q (execVkxor w s) := h.lanePred

theorem State.Canon.execVkandn {s : State} (h : s.Canon P Q) {w : LaneWord} : Out.Canon P Q (execVkandn w s) := h.lanePred

theorem State.Canon.execVknot {s : State} (h : s.Canon P Q) {w : LaneWord} : Out.Canon P Q (execVknot w s) := h.lanePred

theorem State.Canon.execVkset {s : State} (h : s.Canon P Q) {w : LaneWord} : Out.Canon P Q (execVkset w s) := h.laneWord fun _ _ _ h => h

theorem State.Canon.execVksetC {s : State} (h : s.Canon P Q) {w : LaneWord} : Out.Canon P Q (execVksetC w s) := h.laneWord fun _ _ _ h => h

theorem State.Canon.dropStale {s : State} (h : s.Canon P Q) : (s.dropStale).Canon P Q := h.upd

theorem State.Canon.rowByte {s : State} (h : s.Canon P Q) {r : Row} {n : Nat} {f : Byte → Byte} : (s.rowByte r n f).Canon P Q := by
  unfold State.rowByte
  split
  · exact h.setByte
  · exact h.mapGroup fun _ h1 => h1.upd (v := fun e => Cells.set_wf e _ _)
  · refine h.mapCore fun c h1 => ?_
    extract_lets put
    split
    · exact h1.upd (a0 := fun e1 => Cells.set_wf e1 _ _)
    · exact h1.upd (a1 := fun e1 => Cells.set_wf e1 _ _)
  · exact h.mapTeam fun _ h1 => h1.upd

theorem State.Canon.codeBytes {s : State} (h : s.Canon P Q) {r : Row} {b : Bool} {f : Nat → Byte → Byte} : (s.codeBytes r b f).Canon P Q :=
  h.foldl fun _ h1 _ _ => h1.rowByte

theorem State.Canon.markBad {s : State} (h : s.Canon P Q) {r : Row} {b : Bool} {f : Nat → Byte} : (s.markBad r b f).Canon P Q := by
  unfold State.markBad
  extract_lets was zero src
  have hzero : zero.Canon P Q := h.codeBytes
  have hsrc : src.Canon P Q := h.codeBytes
  clear_value src
  split
  · exact hsrc.upd
  · exact hzero.mapGroup fun _ h1 => h1.upd
  · exact hzero.mapCore fun _ h1 => h1.upd
  · exact hzero.mapTeam fun _ h1 => h1.upd

theorem State.Canon.unmark {s : State} (h : s.Canon P Q) {r : Row} {b : Bool} {f : Nat → Byte} : (s.unmark r b f).Canon P Q := by
  unfold State.unmark
  extract_lets put src
  have hsrc : src.Canon P Q := h.codeBytes
  clear_value src
  split
  · exact hsrc.upd
  · exact (h.mapGroup fun _ h1 => h1.upd).codeBytes
  · exact (h.mapCore fun _ h1 => h1.upd).codeBytes
  · exact (h.mapTeam fun _ h1 => h1.upd).codeBytes
  · exact h

theorem State.Canon.reDecode {s : State} (h : s.Canon P Q) {r : Row} {b : Bool} {old new : Option (Nat → Byte)} : (s.reDecode r b old new).Canon P Q := by
  unfold State.reDecode
  split
  · refine h.foldl fun s1 h1 n h2 => ?_
    split
    · exact h1
    · exact h1.rowByte
  · exact h.markBad
  · exact h.unmark
  · exact h

theorem State.Canon.noteErr {s : State} (h : s.Canon P Q) {r : Row} {b : Bool} : (s.noteErr r b).Canon P Q := by
  unfold State.noteErr
  split
  · exact h.mapGroup fun _ h1 => h1.upd
  · exact h

theorem State.Canon.symErr {s : State} (h : s.Canon P Q) {e : SymErr} : (s.symErr e).Canon P Q := by
  unfold State.symErr
  extract_lets dec s1 s'
  have hs1 : s1.Canon P Q := h.dropStale.noteErr
  have hs' : s'.Canon P Q := hs1.upd
  split
  · exact h
  · exact hs'.reDecode

theorem State.Canon.dropMarks {s : State} (h : s.Canon P Q) : (s.dropMarks).Canon P Q := by
  unfold State.dropMarks
  refine h.upd (groups := fun h1 => Tab.Canon.map h1 (fun a => ?_) fun a h2 h3 => ?_)
  · split
    · rfl
    · rfl
  · change Group.Canon Q _ _
    split
    · exact h.group_mem h2
    · dsimp -zeta only
      extract_lets src
      have hsrc : src.Canon Q (a.1) := h.group_mem h2
      clear_value src
      exact hsrc.upd

theorem State.Canon.mapOut {s : State} (h : s.Canon P Q) {g : Stripe} {bank : Nat} : (s.mapOut g bank).Canon P Q := by
  unfold State.mapOut
  extract_lets cs s'
  have hs' : s'.Canon P Q := h.upd
  exact hs'.foldl fun _ h1 _ _ => h1.reDecode

theorem State.Canon.dropErrs {s : State} (h : s.Canon P Q) {gone : Row → Bool} : (s.dropErrs gone).Canon P Q := by
  unfold State.dropErrs
  split
  · exact h
  · exact h.upd

theorem State.Canon.execBr {s : State} (h : s.Canon P Q) {off : BitVec 25} : Out.Canon P Q (execBr off s) := h.scalar fun _ h1 => h1.jump

theorem State.Canon.execJal {s : State} (h : s.Canon P Q) {d : SReg} {i : Imm} : Out.Canon P Q (execJal d i s) := by
  unfold Machine.execJal
  refine h.scalarPairs fun s1 h1 => ?_
  extract_lets next dest
  refine State.Canon.jump ?_
  split
  · exact h1
  · exact h1.setPair

theorem State.Canon.execJr {s : State} (h : s.Canon P Q) {a : SReg} : Out.Canon P Q (execJr a s) := by
  unfold Machine.execJr
  refine h.scalarPairs fun s1 h1 => ?_
  split
  · exact h1.raiseNow
  · exact h1.jump

theorem State.Canon.branch {s : State} (h : s.Canon P Q) {d a : SReg} {i : Imm} {c : Word → Word → Bool} : Out.Canon P Q (s.branch d a i c) := by
  unfold State.branch
  refine h.scalar fun s1 h1 => ?_
  split
  · exact h1.jump
  · exact h1.advance

theorem State.Canon.execBeq {s : State} (h : s.Canon P Q) {d a : SReg} {i : Imm} : Out.Canon P Q (execBeq d a i s) := h.branch

theorem State.Canon.execBne {s : State} (h : s.Canon P Q) {d a : SReg} {i : Imm} : Out.Canon P Q (execBne d a i s) := h.branch

theorem State.Canon.execBlt {s : State} (h : s.Canon P Q) {d a : SReg} {i : Imm} : Out.Canon P Q (execBlt d a i s) := h.branch

theorem State.Canon.execBge {s : State} (h : s.Canon P Q) {d a : SReg} {i : Imm} : Out.Canon P Q (execBge d a i s) := h.branch

theorem State.Canon.trapWith {s : State} (h : s.Canon P Q) {f : FaultCode} {c : BitVec 16} : Out.Canon P Q (s.trapWith f c) := by
  unfold State.trapWith
  refine State.Canon.issuing ?_
  extract_lets s'
  have hs' : s'.Canon P Q := h.raiseNow
  split
  · exact hs'.mapGroup fun _ h1 => h1.advance
  · exact hs'

theorem State.Canon.execTrap {s : State} (h : s.Canon P Q) {c : BitVec 16} : Out.Canon P Q (execTrap c s) := h.trapWith

theorem State.Canon.execBrk {s : State} (h : s.Canon P Q) {c : BitVec 16} : Out.Canon P Q (execBrk c s) := h.trapWith

theorem State.Canon.fetchWord {s : State} (h : s.Canon P Q) {t i va : Nat} : State.Fetched.Canon P Q (s.fetchWord t i va) := by
  unfold State.fetchWord
  split
  · exact h
  · split
    · exact h.noteRead
    next _ _ e1 => exact h.translateNow.of_eq e1
    next _ _ e1 => exact h.translateNow.of_eq e1

theorem State.Canon.fetchWords {s : State} (h : s.Canon P Q) {t i : Nat} {l : List Nat} : State.Fetched.Canon P Q (s.fetchWords t i l) := by
  induction l generalizing s with
  | nil => exact h
  | cons va r ih =>
    unfold State.fetchWords
    split
    next _ _ e => exact h.fetchWord.of_eq e
    next _ _ e => exact h.fetchWord.of_eq e
    next _ _ s1 e =>
      have h1 : s1.Canon P Q := h.fetchWord.of_eq e
      split
      next _ _ s2 e => exact show s2.Canon P Q from (ih h1).of_eq e
      next _ _ e => exact (ih h1).of_eq e
      next _ _ e => exact (ih h1).of_eq e

theorem State.Canon.fetchRun {s : State} (h : s.Canon P Q) {t i n : Nat} {cursor : Word} : State.Fetched.Canon P Q (s.fetchRun t i n cursor) :=
  h.fetchWords

theorem State.Canon.startRun {s : State} (h : s.Canon P Q) {t i n : Nat} {cursor : Word} {own : Bool} {len : Nat} : Out.Canon P Q
    (s.startRun t i n cursor own len) := by
  unfold State.startRun
  split
  next _ _ e => exact h.fetchRun.of_eq e
  next _ _ e => exact (h.fetchRun.of_eq e).raiseNow
  next _ _ _ e => exact (h.fetchRun.of_eq e).mapGroup fun _ h1 => h1.upd.tick

theorem State.Canon.execLx {s : State} (h : s.Canon P Q) {n : BitVec 11} : Out.Canon P Q (execLx n s) :=
  h.byGroup (fun _ => h.raiseCurator) fun _ _ _ _ _ => h.startRun

theorem State.Canon.execLxa {s : State} (h : s.Canon P Q) {n : BitVec 7} {a : SReg} {i : Imm} : Out.Canon P Q (execLxa n a i s) := by
  unfold Machine.execLxa
  refine h.byGroup (fun _ => h.raiseCurator) fun n1 n2 g e h1 => ?_
  split
  · exact h
  · exact h.startRun

theorem State.Canon.execLpc {s : State} (h : s.Canon P Q) {a : SReg} {i : Imm} : Out.Canon P Q (execLpc a i s) := by
  unfold Machine.execLpc
  refine h.byGroup (fun _ => h.raiseCurator) fun n n1 g e h1 => ?_
  split
  · exact h
  · exact (h.mapGroup fun _ h2 => h2.upd).advance

theorem Group.Canon.pushReconv {g : Group} {i : Nat} (h : g.Canon Q i) {e : Reconv} : (g.pushReconv e).Canon Q i := by
  unfold Group.pushReconv
  extract_lets g1
  have hg1 : g1.Canon Q i := by
    unfold g1
    split
    · exact h
    · split
      · refine h.upd (spill := fun e => ?_)
        dsimp only
        exact Cells.setSlice_wf e _ _
      · exact h
  exact hg1.upd

theorem Group.Canon.popReconv {g : Group} {i : Nat} (h : g.Canon Q i)
    {x : optParam Nat (Cells.num (Group.spill g) (reconvBase + 32 * (Group.rdepth g - 33)) 32)} : (g.popReconv x).Canon Q i := h.upd

theorem State.Canon.execMpush {s : State} (h : s.Canon P Q) {n : BitVec 5} : Out.Canon P Q (execMpush n s) := by
  unfold Machine.execMpush
  refine h.byGroup (fun _ => h.raiseCurator) fun n1 n2 g e h1 => ?_
  split
  · exact h
  · split
    · exact h.raiseNow
    · extract_lets k m s'
      have hs' : s'.Canon P Q := h.putGroup h1.pushReconv.setMask.advance
      split
      · exact hs'
      · exact hs'.freshRows

theorem State.Canon.execMelse {s : State} (h : s.Canon P Q) : Out.Canon P Q (execMelse s) := by
  unfold Machine.execMelse
  refine h.byGroup (fun _ => h.raiseCurator) fun n n1 g e h1 => ?_
  split
  · exact h
  · split
    · exact h.raiseNow
    · exact h.putGroup h1.upd.setMask.advance

theorem State.Canon.execMpop {s : State} (h : s.Canon P Q) : Out.Canon P Q (execMpop s) := by
  unfold Machine.execMpop
  refine h.byGroup (fun _ => h.raiseCurator) fun n n1 g e h1 => ?_
  split
  · exact h
  · split
    · exact h.raiseNow
    · extract_lets l src s'
      have hsrc : src.Canon Q n1 := h1.popReconv
      clear_value src
      have hs' : s'.Canon P Q := h.putGroup hsrc.upd.setMask.advance
      split
      · exact hs'
      · exact hs'.noteRead

theorem State.Canon.execKget {s : State} (h : s.Canon P Q) {d : SReg} {w : BitVec 2} {n : BitVec 5} : Out.Canon P Q (execKget d w n s) := by
  unfold Machine.execKget
  refine h.byGroup (fun _ => h.raiseCurator) fun n1 n2 g e h1 => ?_
  split
  · exact h
  · exact h.setS.advance

theorem State.Canon.execKset {s : State} (h : s.Canon P Q) {a : SReg} {w : BitVec 2} {n : BitVec 5} : Out.Canon P Q (execKset a w n s) := by
  unfold Machine.execKset
  refine h.byGroup (fun _ => h.raiseCurator) fun n1 n2 g e h1 => ?_
  split
  · exact h
  · exact (h.mapGroup fun _ h2 => h2.upd (k := fun e2 => Cells.set_wf e2 _ _)).advance

theorem State.Canon.execMovvs {s : State} (h : s.Canon P Q) {d a : SReg} {v : VReg} : Out.Canon P Q (execMovvs d a v s) := by
  unfold Machine.execMovvs
  refine h.byGroup (fun _ => h.raiseCurator) fun n n1 g e h1 => ?_
  split
  · exact h.raiseNow
  · split
    · exact h
    · split
      · exact h.raiseNow
      · split
        · exact h.park
        · extract_lets l
          exact State.Canon.readingRegs h.setS.advance

theorem State.Canon.execMovsv {s : State} (h : s.Canon P Q) {d a : SReg} {v : VReg} : Out.Canon P Q (execMovsv d a v s) := by
  unfold Machine.execMovsv
  refine h.byGroup (fun _ => h.raiseCurator) fun n n1 g e h1 => ?_
  split
  · exact h.raiseNow
  · split
    · exact h
    · split
      · exact h.raiseNow
      · extract_lets m old
        split
        · exact h.park
        · exact State.Canon.readingRegs (h.putGroup h1.writeVal.advance)

theorem State.Canon.execSget {s : State} (h : s.Canon P Q) {d : SReg} {i : BitVec 11} : Out.Canon P Q (execSget d i s) := by
  unfold Machine.execSget
  split
  · split
    · exact h.raiseCurator
    · split
      · exact h.raiseCurator
      · exact h.setPair.advance
  · refine h.byGroup (fun _ => h.raiseCurator) fun n n1 g e1 h1 => ?_
    split
    · exact h.raiseNow
    · split
      · split
        · exact h
        · exact h.setPair.advance
      · split
        · exact h
        · exact h.setS.advance

theorem Group.Canon.setSpecial {g : Group} {i : Nat} (h : g.Canon Q i) {j : Nat} {v : DWord} : (g.setSpecial j v).Canon Q i := by
  unfold Group.setSpecial
  split
  · exact h.upd
  · exact h.upd
  · exact h.upd
  · exact h.upd
  · exact h.upd
  · exact h

theorem State.Canon.execSset {s : State} (h : s.Canon P Q) {a : SReg} {i : BitVec 11} : Out.Canon P Q (execSset a i s) := by
  unfold Machine.execSset
  split
  · exact h.raiseCurator
  · refine h.byGroup (fun _ => h.raiseCurator) fun n n1 g e1 h1 => ?_
    split
    · exact h.raiseNow
    · split
      · split
        · exact h
        · split
          · exact h.raiseNow
          · extract_lets v
            exact (h.mapGroup fun _ h2 => h2.setSpecial).advance
      · split
        · exact h
        · split
          · exact h.raiseNow
          · extract_lets v
            exact (h.mapGroup fun _ h2 => h2.setSpecial).advance

theorem State.Canon.execElect {s : State} (h : s.Canon P Q) {d a : SReg} : Out.Canon P Q (execElect d a s) := by
  unfold Machine.execElect
  refine h.byGroup (fun _ => h.raiseCurator) fun n n1 g e h1 => ?_
  split
  · exact h
  · split
    · exact h.raiseNow
    · extract_lets c
      exact h.setS.advance

theorem State.Canon.setHnd {s : State} (h : s.Canon P Q) {t i : Nat} {v : DWord} {len : Nat} : (s.setHnd t i v len).Canon P Q :=
  (h.mapGroup fun _ h1 => h1.upd).advance

theorem State.Canon.execHsetLabel {s : State} (h : s.Canon P Q) {i : Imm} : Out.Canon P Q (execHsetLabel i s) := by
  unfold Machine.execHsetLabel
  refine h.byGroup (fun _ => h.raiseCurator) fun n n1 g e h1 => ?_
  split
  · exact h.raiseNow
  · exact h.setHnd

theorem State.Canon.execHsetRegister {s : State} (h : s.Canon P Q) {a : SReg} {p : Bool} : Out.Canon P Q (execHsetRegister a p s) := by
  unfold Machine.execHsetRegister
  refine h.byGroup (fun _ => h.raiseCurator) fun n n1 g e h1 => ?_
  split
  · exact h.raiseNow
  · split
    · exact h
    · split
      · exact h.raiseNow
      · exact h.setHnd

theorem State.Canon.execHret {s : State} (h : s.Canon P Q) : Out.Canon P Q (execHret s) := by
  unfold Machine.execHret
  refine h.byGroup (fun _ => h.raiseCurator) fun n n1 g e h1 => ?_
  split
  · exact h.raiseNow
  · split
    · exact h.raiseNow
    · split
      · exact h
      · exact h.putGroup h1.tick.leaveHandler

theorem State.Canon.startLoad {s : State} (h : s.Canon P Q) {t i : Nat} {g : Group} {lane : Bool} {L : Nat}
    {rs : List (RegRef × LaneMask × Cells 32)} : (s.startLoad t i g lane L rs).Canon P Q := by
  unfold State.startLoad
  split
  next _ _ _ e => exact (State.Canon.of_snd e h.newOp).mapGroup fun _ h1 => h1.expect

theorem State.Canon.withRoom {s : State} (h : s.Canon P Q) {d : SReg} {L : Nat} : (s.withRoom d L).Canon P Q := by
  unfold State.withRoom
  split
  · exact h.mapGroup fun _ h1 => h1.makeRoom
  · exact h

theorem State.Canon.scalarLoad {s : State} (h : s.Canon P Q) {d : SReg} {a : Word} {ax : Bool} {L len : Nat} : Out.Canon P Q
    (s.scalarLoad d a ax L len) := by
  unfold State.scalarLoad
  split
  · exact h.raiseNow
  · extract_lets l
    split
    · split
      · exact h
      · exact h.startLoad.advance.noteRead
    · exact h.setS.advance.noteRead

theorem State.Canon.scalarStore {s : State} (h : s.Canon P Q) {d : SReg} {a : Word} {ax : Bool} {len : Nat} : Out.Canon P Q
    (s.scalarStore d a ax len) := by
  unfold State.scalarStore
  split
  · exact h.raiseNow
  · exact h.setNum.advance

theorem State.Canon.execSldTeamMemory {s : State} (h : s.Canon P Q) {d a : SReg} {i : Imm} : Out.Canon P Q (execSldTeamMemory d a i s) := by
  unfold Machine.execSldTeamMemory
  refine State.Canon.issuing ?_
  split
  · exact h
  · exact h.scalarLoad

theorem State.Canon.execSldAnnex {s : State} (h : s.Canon P Q) {d a : SReg} {i : Imm} : Out.Canon P Q (execSldAnnex d a i s) := by
  unfold Machine.execSldAnnex
  refine State.Canon.issuing ?_
  split
  · exact h
  · exact h.scalarLoad

theorem State.Canon.execSstTeamMemory {s : State} (h : s.Canon P Q) {d a : SReg} {i : Imm} : Out.Canon P Q (execSstTeamMemory d a i s) := by
  unfold Machine.execSstTeamMemory
  refine State.Canon.issuing ?_
  split
  · exact h
  · exact h.scalarStore

theorem State.Canon.execSstAnnex {s : State} (h : s.Canon P Q) {d a : SReg} {i : Imm} : Out.Canon P Q (execSstAnnex d a i s) := by
  unfold Machine.execSstAnnex
  refine State.Canon.issuing ?_
  split
  · exact h
  · exact h.scalarStore

theorem State.Canon.execSldAcq {s : State} (h : s.Canon P Q) {d a : SReg} {ax : Bool} {a1 : BitVec 2} {la : BitVec 4} : Out.Canon P Q
    (execSldAcq d a ax a1 la s) := by
  unfold Machine.execSldAcq
  extract_lets r
  have hr : r.Canon P Q := h.withRoom
  refine State.Canon.issuing ?_
  split
  · exact h
  · exact h.scalarLoad

theorem State.Canon.execSstRel {s : State} (h : s.Canon P Q) {d a : SReg} {ax : Bool} {a1 : BitVec 2} : Out.Canon P Q (execSstRel d a ax a1 s) := by
  unfold Machine.execSstRel
  refine State.Canon.issuing ?_
  split
  · exact h
  · exact h.scalarStore

theorem State.Canon.execShld {s : State} (h : s.Canon P Q) {ax : Bool} {n : ShReg} {a : SReg} {i : Imm} : Out.Canon P Q (execShld ax n a i s) := by
  unfold Machine.execShld
  refine h.byGroup (fun _ => h.raiseCurator) fun n1 n2 g e h1 => ?_
  split
  · exact h
  · extract_lets ad l ws
    split
    · exact h.raiseNow
    · split
      · exact h
      · exact h.startLoad.advance.noteRead

theorem Group.Canon.writeSh {g : Group} {i : Nat} (h : g.Canon Q i) {n : Nat} {f : ShapeBits → ShapeBits} : (g.writeSh n f).Canon Q i := by
  unfold Group.writeSh
  extract_lets g1
  have hg1 : g1.Canon Q i := h.claim
  exact hg1.upd (sh := fun e => Cells.set_wf e _ _)

theorem State.Canon.execShset {s : State} (h : s.Canon P Q) {n : ShReg} {a : SReg} {f : BitVec 7} : Out.Canon P Q (execShset n a f s) := by
  unfold Machine.execShset
  refine h.byGroup (fun _ => h.raiseCurator) fun n1 n2 g e h1 => ?_
  extract_lets pr v
  split
  · exact h.raiseNow
  · split
    · split
      · exact h
      · split
        · exact h.raiseNow
        · exact h.putGroup h1.writeSh.advance
    · split
      · exact h
      · split
        · exact h.raiseNow
        · exact h.putGroup h1.writeSh.advance

theorem State.Canon.batchCheck {s : State} (h : s.Canon P Q) {t i : Nat} : (s.batchCheck t i).Canon P Q := by
  unfold State.batchCheck
  extract_lets bs done
  refine h.foldl fun s1 h1 a h2 => ?_
  split
  · extract_lets s2 halt s3
    have hs2 : s2.Canon P Q := h1.upd (ops := fun h3 => Tab.Canon.del h3)
    have hs3 : s3.Canon P Q := by
      refine (hs2.mapGroup fun g h3 => ?_).leaveCounter
      split
      · exact h3
      · extract_lets g1
        have hg1 : g1.Canon Q i := h3.upd
        exact hg1.setFlags
    split
    · exact hs3.haltTeam
    · exact hs3
  · exact h1

theorem State.Canon.closeBatch {s : State} (h : s.Canon P Q) {t i : Nat} {g : Group} : (s.closeBatch t i g).2.Canon P Q := by
  unfold State.closeBatch
  split
  next _ _ _ e =>
    extract_lets s2
    have hs2 : s2.Canon P Q := (State.Canon.of_snd e h.newOp).mapGroup fun _ h1 => h1.upd
    dsimp only
    exact hs2.batchCheck

theorem State.Canon.barrierCheck {s : State} (h : s.Canon P Q) {gr : Nat} : (s.barrierCheck gr).Canon P Q := by
  unfold State.barrierCheck
  refine h.foldl fun s1 h1 a h2 => ?_
  split
  · split
    · exact h1.upd (groups := fun h3 => Tab.Canon.set h3 (((h.group_mem h2).upd).advance))
    · exact h1
  · exact h1

theorem State.Canon.releaseAcc {s : State} (h : s.Canon P Q) {t c : Nat} : (s.releaseAcc t c).Canon P Q := by
  unfold State.releaseAcc
  extract_lets x keep
  have hx : x.Canon Q := h.core
  split
  · exact h
  · exact h.putCore hx.upd

theorem State.Canon.retire {s : State} (h : s.Canon P Q) {t : Nat} : (s.retire t).Canon P Q := by
  unfold State.retire
  split
  · exact h
  · extract_lets s1 s2 s3
    have hs1 : s1.Canon P Q := h.foldl fun _ h1 _ _ => h1.releaseAcc
    have hs2 : s2.Canon P Q := hs1.upd (teams := fun h1 => Tab.Canon.del h1) (groups := fun h1 => Tab.Canon.filter h1)
        (ops := fun h1 => Tab.Canon.filter h1)
    have hs3 : s3.Canon P Q := hs2.dropErrs
    split
    next _ _ e1 => exact hs3.putGrid ((hs3.grid e1).upd)
    · exact hs3

theorem State.Canon.retireCheck {s : State} (h : s.Canon P Q) {t : Nat} : (s.retireCheck t).Canon P Q := by
  unfold State.retireCheck
  split
  · exact h
  · extract_lets s1 ended
    have hs1 : s1.Canon P Q := h.upd
    split
    · exact hs1.retire
    · exact hs1

theorem State.Canon.reportDead {s : State} (h : s.Canon P Q) {t : Nat} : (s.reportDead t).Canon P Q := by
  unfold State.reportDead
  refine h.foldl fun s1 h1 n h2 => ?_
  split
  · exact h1.raiseOp
  · exact h1

theorem State.Canon.tidyTeam {s : State} (h : s.Canon P Q) {t : Nat} : (s.tidyTeam t).Canon P Q := by
  unfold State.tidyTeam
  extract_lets s1
  have hs1 : s1.Canon P Q := h.reportDead
  split
  · exact hs1
  · exact hs1.barrierCheck.retireCheck

theorem State.Canon.settleTeam {s : State} (h : s.Canon P Q) {t : Nat} : (s.settleTeam t).Canon P Q := h.tidyTeam.checkDeadlock

theorem State.Canon.settleTaken {s : State} (h : s.Canon P Q) {t : Nat} : (s.settleTaken t).Canon P Q := by
  unfold State.settleTaken
  extract_lets s'
  have hs' : s'.Canon P Q := h.tidyTeam
  split
  · exact hs'.checkDeadlock
  · exact hs'

theorem State.Canon.noteVerdicts {s : State} (h : s.Canon P Q) {t : Nat} {g : Group} : (s.noteVerdicts t g).Canon P Q := by
  unfold State.noteVerdicts
  split
  · exact h
  · split
    next _ _ e1 =>
      split
      · exact h
      · exact h.noteRegs.putGrid ((h.grid e1).upd)
    · exact h

theorem State.Canon.endGroup {s : State} (h : s.Canon P Q) {t i : Nat} : (s.endGroup t i).Canon P Q := by
  unfold State.endGroup
  split
  · exact h
  next _ _ e =>
    extract_lets s1 s2 g1 g2
    have hs1 : s1.Canon P Q := h.noteVerdicts
    have hs2 : s2.Canon P Q := by
      refine hs1.upd (ops := fun h1 => Tab.Canon.map h1 (fun a1 => ?_) fun _ _ h3 => h3)
      split
      · rfl
      · rfl
    have hg1 : g1.Canon Q i := (h.group e).upd (s := fun _ => Cells.nil_wf) (v := fun _ => Cells.nil_wf) (k := fun _ => Cells.nil_wf)
        (sh := fun _ => Cells.nil_wf)
    have hg2 : g2.Canon Q i := hg1.upd (spill := fun _ => Cells.nil_wf) (tags := fun _ => Cells.nil_wf) (scar := fun _ => Cells.nil_wf)
    exact (hs2.putGroup hg2).settleTeam

theorem State.Canon.beginEnd {s : State} (h : s.Canon P Q) {t i : Nat} {g : Group} : (s.beginEnd t i g).Canon P Q := by
  unfold State.beginEnd
  split
  · exact h
  · extract_lets s1
    have hs1 : s1.Canon P Q := by
      unfold s1
      split
      · exact h
      · exact h.closeBatch
    exact hs1.mapGroup fun _ h1 => h1.closeWindows.upd

theorem State.Canon.execExit {s : State} (h : s.Canon P Q) : Out.Canon P Q (execExit s) := by
  unfold Machine.execExit
  refine h.byGroup (fun _ => h.raiseCurator) fun n n1 g e h1 => ?_
  split
  · exact h
  · extract_lets s1
    have hs1 : s1.Canon P Q := h.beginEnd
    split
    · exact hs1
    · exact hs1.endGroup

theorem State.Canon.execTail {s : State} (h : s.Canon P Q) : Out.Canon P Q (execTail s) := by
  unfold Machine.execTail
  refine h.byGroup (fun _ => h.raiseCurator) fun n n1 g e h1 => ?_
  split
  · exact h
  · extract_lets s1 pending rest full s2
    have hs1 : s1.Canon P Q := h.beginEnd
    have hs2 : s2.Canon P Q := by
      unfold s2
      split
      · exact hs1.upd
      · exact hs1
    split
    · exact hs1
    · split
      · exact hs1.mapGroup fun _ h2 => h2.upd
      · exact hs2.endGroup

theorem State.Canon.markFull {s : State} (hs : s.Canon P Q) {h : Home} : (s.markFull h).Canon P Q := by
  unfold State.markFull
  split
  · exact hs
  · exact hs.upd

theorem State.Canon.enqueueAdd {s : State} (h : s.Canon P Q) {l : Loc} {x : Word} {rank team grp el : Nat} :
    (s.enqueueAdd l x rank team grp el).Canon P Q := by
  unfold State.enqueueAdd
  extract_lets h1 sq s1
  have hs1 : s1.Canon P Q := h.upd
  split
  · exact hs1.markFull
  · exact hs1

theorem State.Canon.enterAdds {s : State} (h : s.Canon P Q) {rank team : Nat} {l : List (Loc × Word × Nat × Nat)} :
    (s.enterAdds rank team l).1.Canon P Q := by
  induction l generalizing s with
  | nil => exact h
  | cons a r ih =>
    unfold State.enterAdds
    split
    · exact h.markFull
    · exact ih h.enqueueAdd

theorem State.Canon.closeWord {s : State} (h : s.Canon P Q) {l : Loc} : (s.closeWord l).Canon P Q := by
  unfold State.closeWord
  extract_lets es w s1
  have hs1 : s1.Canon P Q := h.upd
  split
  · exact h
  · exact hs1.setNum

theorem State.Canon.laneMove {s : State} (h : s.Canon P Q) {w : LaneWord} {rd ss : List Nat} {σ : LaneIn → Nat → Nat} : Out.Canon P Q
    (s.laneMove w rd ss σ) := h.laneWord fun _ _ _ h => h

theorem State.Canon.execVperm {s : State} (h : s.Canon P Q) {w : LaneWord} : Out.Canon P Q (execVperm w s) := h.laneMove

theorem State.Canon.execVshx {s : State} (h : s.Canon P Q) {w : LaneWord} : Out.Canon P Q (execVshx w s) := h.laneMove

theorem State.Canon.execVup {s : State} (h : s.Canon P Q) {w : LaneWord} : Out.Canon P Q (execVup w s) := h.laneMove

theorem State.Canon.execVdn {s : State} (h : s.Canon P Q) {w : LaneWord} : Out.Canon P Q (execVdn w s) := h.laneMove

theorem State.Canon.execVbcast {s : State} (h : s.Canon P Q) {w : LaneWord} : Out.Canon P Q (execVbcast w s) := h.laneMove

theorem State.Canon.laneReduce {s : State} (h : s.Canon P Q) {w : LaneWord} {upTo : Bool} : Out.Canon P Q (s.laneReduce w upTo) := by
  unfold State.laneReduce
  refine h.laneWord fun a => ?_
  extract_lets sg one
  exact fun _ _ h => h

theorem State.Canon.execVred {s : State} (h : s.Canon P Q) {w : LaneWord} : Out.Canon P Q (execVred w s) := h.laneReduce

theorem State.Canon.execVscan {s : State} (h : s.Canon P Q) {w : LaneWord} : Out.Canon P Q (execVscan w s) := h.laneReduce

theorem State.Canon.laneFault {s : State} (h : s.Canon P Q) {bad : List Nat} {space : Nat} {ad : Nat → ℤ} : (s.laneFault bad space ad).Canon P Q := by
  unfold State.laneFault
  split
  next _ _ _ e =>
    extract_lets l
    exact (State.Canon.of_snd e h.draw).raiseNow

theorem State.Canon.laneMem {s : State} (h : s.Canon P Q) {w : LaneWord} {rd dst odd : List Nat} {long : Bool}
    {k : Nat → Nat → LaneIn → (Nat → Loc) → Out} (hk : ∀ a0 a1 a2 a3, a2.g.Canon Q a1 → Out.Canon P Q (k a0 a1 a2 a3)) : Out.Canon P Q
    (s.laneMem w rd dst odd long k) := by
  unfold State.laneMem
  refine h.laneIssue fun n n1 a h1 => ?_
  extract_lets wb lim bad
  split
  · exact h.laneFault
  · split
    · exact h
    · exact hk _ _ _ _ h1

theorem State.Canon.noteLanes {s : State} (h : s.Canon P Q) {t : Nat} {i : LaneIn} {loc : Nat → Loc} {wb : Nat} : (s.noteLanes t i loc wb).Canon P Q := by
  unfold State.noteLanes
  split
  · exact h
  · exact h.foldl fun _ h1 _ _ => h1.noteRead

theorem State.Canon.laneLoad {s : State} (h : s.Canon P Q) {t n : Nat} {i : LaneIn} {L : Nat} {rs : List (Nat × Cells 32)} :
    (s.laneLoad t n i L rs).Canon P Q := by
  unfold State.laneLoad
  extract_lets s1 g
  have hs1 : s1.Canon P Q := h.mapGroup fun _ h1 => h1.foldl fun _ _ h2 => h2.keepVal
  exact hs1.startLoad.mapGroup fun _ h1 => h1.laneDone

theorem State.Canon.execVld {s : State} (h : s.Canon P Q) {w : LaneWord} : Out.Canon P Q (execVld w s) := by
  unfold Machine.execVld
  refine h.laneMem fun n n1 a a1 h1 => ?_
  extract_lets wb
  exact h.laneLoad.noteLanes

theorem State.Canon.execVst {s : State} (h : s.Canon P Q) {w : LaneWord} : Out.Canon P Q (execVst w s) :=
  h.laneMem fun _ _ _ _ _ => (h.foldl fun _ h2 _ _ => h2.setNum).mapGroup fun _ h2 => h2.laneDone

theorem State.Canon.atomLanes {s : State} (h : s.Canon P Q) {loc : Nat → Loc} {f : Nat → Word → Word} {l : List Nat} {c : Cells 32} :
    (State.atomLanes loc f l s c).1.Canon P Q := by
  induction l generalizing s c with
  | nil => exact h
  | cons a r ih => exact ih h.setNum

theorem State.Canon.laneAtom {s : State} (h : s.Canon P Q) {w : LaneWord} {cas : Bool} {f : LaneIn → Nat → Word → Word} : Out.Canon P Q
    (s.laneAtom w cas f) := by
  unfold State.laneAtom
  refine h.laneMem fun n n1 a a1 h1 => ?_
  extract_lets s1
  have hs1 : s1.Canon P Q := h.noteLanes
  split
  next _ _ _ e => exact (State.Canon.of_fst e hs1.atomLanes).laneLoad

theorem State.Canon.execVatom {s : State} (h : s.Canon P Q) {w : LaneWord} : Out.Canon P Q (execVatom w s) := h.laneAtom

theorem State.Canon.execVfatomMax {s : State} (h : s.Canon P Q) {w : LaneWord} : Out.Canon P Q (execVfatomMax w s) := h.laneAtom

theorem State.Canon.execVfatomAddOrd {s : State} (h : s.Canon P Q) {w : LaneWord} : Out.Canon P Q (execVfatomAddOrd w s) := by
  unfold Machine.execVfatomAddOrd
  refine h.laneMem fun n n1 a a1 h1 => ?_
  extract_lets ls
  split
  next _ _ _ e =>
    split
    · exact (State.Canon.of_fst e h.enterAdds).mapGroup fun _ h2 => h2.laneDone
    · exact (State.Canon.of_fst e h.enterAdds).mapGroup fun _ h2 => h2.upd

theorem State.Canon.laneSpill {s : State} (h : s.Canon P Q) {w : LaneWord} {rd dst : List Nat} {odd : Nat} {long : Bool}
    {k : Nat → Nat → LaneIn → Nat → Out} (hk : ∀ a0 a1 a2 a3, a2.g.Canon Q a1 → Out.Canon P Q (k a0 a1 a2 a3)) : Out.Canon P Q
    (s.laneSpill w rd dst odd long k) := by
  unfold State.laneSpill
  refine h.laneIssue fun n n1 a h1 => ?_
  extract_lets a1
  split
  · exact h.laneFault
  · split
    · exact h
    · exact hk _ _ _ _ h1

theorem State.Canon.execVspill {s : State} (h : s.Canon P Q) {w : LaneWord} : Out.Canon P Q (execVspill w s) :=
  h.laneSpill fun _ _ _ _ _ => (h.foldl fun _ h2 _ _ => h2.foldl fun _ h4 _ _ => h4.setNum).mapGroup fun _ h2 => h2.laneDone

theorem State.Canon.execVfill {s : State} (h : s.Canon P Q) {w : LaneWord} : Out.Canon P Q (execVfill w s) := by
  unfold Machine.execVfill
  refine h.laneSpill fun n n1 a n2 h1 => ?_
  extract_lets loc s'
  have hs' : s'.Canon P Q := h.laneLoad
  exact hs'.foldl fun _ h2 _ _ => h2.noteLanes

theorem State.Canon.execLaneLoadComplete {s : State} (h : s.Canon P Q) {op : Nat} : Out.Canon P Q (execLaneLoadComplete op s) := by
  unfold Machine.execLaneLoadComplete
  split
  · split
    · extract_lets s1
      have hs1 : s1.Canon P Q := h.upd (ops := fun h1 => Tab.Canon.del h1)
      exact ((hs1.mapGroup fun _ h1 => h1.arrive).leaveCounter).settleTaken
    · exact h
  · exact h

end Sys2Proof.Machine
end

