-- ==== Sys2Proof/Proofs/CanonicalCopies.lean ====
section
set_option Elab.async false

/-! PROOF. The canonical form and the engines: copies, closes, collectives, the matrix unit. -/

namespace Sys2Proof.Machine

open Sys2Proof

variable {P Q : Prop}

theorem State.Canon.pages {s : State} (h : s.Canon P Q) {who : Req} {core : Option Nat} {p asid : Nat} {l : List (Kind × Nat)}
    {tab : List (Nat × Nat)} : State.Pages.Canon P Q (s.pages who core p asid l tab) := by
  induction l generalizing tab with
  | nil => trivial
  | cons a r ih =>
    unfold State.pages
    split
    · exact ih
    · next e => exact h.translate.of_eq e
    · next e => exact h.translate.of_eq e

theorem State.Canon.opPages {s : State} (hs : s.Canon P Q) {h : Nat} {o : Op} {ps : List (Kind × Nat)} : State.Pages.Canon P Q (s.opPages h o ps) :=
  hs.pages

theorem State.Canon.putEl {s : State} (h : s.Canon P Q) {x : Shape} {loc : Nat → Loc} {o : ℤ} {v : Nat} : (s.putEl x loc o v).Canon P Q := by
  unfold State.putEl
  split
  · split
    · extract_lets old
      exact h.setNum
    · exact h.setNum

theorem State.Canon.mapStat {s : State} (h : s.Canon P Q) {p n : Nat} {f : Stat → Stat} : (s.mapStat p n f).Canon P Q := h.mapPart

theorem State.Canon.joinCopy {s : State} (h : s.Canon P Q) {t i : Nat} {g : Group} {c : CopyOps} {sl : Slice} : State.Opt.Canon P Q
    (s.joinCopy t i g c sl) := by
  unfold State.joinCopy
  split
  · exact h.newOp
  · split
    · trivial
    · extract_lets j bump
      split
      · split
        · trivial
        · split
          next _ _ _ e4 => exact (State.Canon.of_snd e4 ((h.mapGroup fun _ h1 => h1.upd).newOp)).mapTeam fun _ h1 => h1.upd
      · split
        · split
          · split
            · trivial
            · extract_lets full s1 s2
              have hs1 : s1.Canon P Q := (h.mapGroup fun _ h1 => h1.upd).putOp
              have hs2 : s2.Canon P Q := hs1.mapGroup fun _ h1 => h1.upd
              split
              · exact hs2.mapTeam fun _ h1 => h1.upd
              · exact hs2
          · trivial
        · trivial

theorem State.Canon.copyIssue {s : State} (h : s.Canon P Q) {f : CopyForm} {d x : ShReg} {a : SReg} {b : Bsl} {more : Nat → Group → Bool} :
    Out.Canon P Q (s.copyIssue f d x a b more) := by
  unfold State.copyIssue
  refine h.byGroup (fun _ => h.raiseCurator) fun n n1 g e h1 => ?_
  split
  · exact h
  · extract_lets db sb k c vn gath rows ad sl
    split
    · exact h.raiseNow
    · split
      · exact h
      · split
        · exact h.park
        · split
          · exact h
          · split
            · exact h.raiseNow
            next _ _ e6 => exact State.Canon.readingRegs (((h.joinCopy.of_eq e6).advance).settleTeam)

theorem State.Canon.oneOf {s : State} (h : s.Canon P Q) {l : List ℤ} : (s.oneOf l).2.Canon P Q := by
  unfold State.oneOf
  split
  next _ _ _ e =>
    dsimp only
    exact .of_snd e h.draw

theorem State.Canon.raiseAt {s : State} (hs : s.Canon P Q) {h idx : Nat} {pc : DWord} {lword : Word} {code : FaultCode} {space : Nat} {as : List ℤ}
    : (s.raiseAt h idx pc lword code space as).Canon P Q := by
  unfold State.raiseAt
  split
  next _ _ _ e => exact (State.Canon.of_snd e hs.oneOf).raiseOp

theorem State.Canon.bySlice {s : State} (h : s.Canon P Q) {α : Type} {l : List (Slice × α)} {f : State → Slice → α → State}
    (hf : ∀ s a1 a2, s.Canon P Q → (f s a1 a2).Canon P Q) : (State.bySlice l f s).Canon P Q := h.foldl fun _ h1 _ _ => hf _ _ _ h1

theorem State.Canon.copyStart {s : State} (hs : s.Canon P Q) {h : Nat} {o : Op} {c : CopyOps} {sls : List Slice} : (s.copyStart h o c sls).Canon P Q := by
  unfold State.copyStart
  extract_lets bad
  split
  · exact hs.bySlice fun _ _ _ h1 => h1.raiseAt
  · split
    · exact hs.raiseOp
    · exact hs.putOp

theorem State.Canon.noteSpans {s : State} (h : s.Canon P Q) {o : Op} {loc : Nat → Loc} {l : List (ℤ × Nat)} : (s.noteSpans o loc l).Canon P Q :=
  h.foldl fun _ h1 _ _ => h1.noteRead

theorem State.Canon.moveEl {s : State} (h : s.Canon P Q) {o : Op} {f : CopyForm} {u : State.Xfer} {sl dl : Nat → Loc} :
    (s.moveEl o f u sl dl).1.Canon P Q := by
  unfold State.moveEl
  extract_lets d x s1 s2 v sc
  have hs1 : s1.Canon P Q := by
    unfold s1
    split
    · exact h
    · exact h.noteSpans
  have hs2 : s2.Canon P Q := by
    unfold s2
    split
    · exact hs1.noteSpans
    · exact hs1
  split
  · extract_lets s3 s4
    have hs3 : s3.Canon P Q := hs2.putEl
    have hs4 : s4.Canon P Q := by
      unfold s4
      split
      · exact hs3.setNum
      · exact hs3
    dsimp only
    split
    · exact hs4.mapStat
    · exact hs4

theorem State.Canon.shuffle {s : State} (h : s.Canon P Q) {α : Type} {n : Nat} {l : List α} : (State.shuffle n l s).2.Canon P Q := by
  induction n generalizing s l with
  | zero => exact h
  | succ k ih =>
    unfold State.shuffle
    split
    next n s1 e =>
      have h1 : s1.Canon P Q := .of_snd e h.draw
      extract_lets i
      split
      · exact ih h1
      · exact h1

theorem State.Canon.moveAll {s : State} (h : s.Canon P Q) {o : Op} {f : CopyForm} {us : List (State.Xfer × (Nat → Loc) × (Nat → Loc))} :
    (s.moveAll o f us).1.Canon P Q := by
  unfold State.moveAll
  split
  next us s1 e =>
    have h1 : s1.Canon P Q := by
      split at e
      · exact .of_snd e h.shuffle
      · cases e
        exact h
    exact State.Canon.foldl_fst (b := (s1, [])) h1 fun b hb a _ => hb.moveEl

theorem State.Canon.addCounter {s : State} (h : s.Canon P Q) {o : Op} {c : CopyOps} {tab : List (Nat × Nat)} : (s.addCounter o c tab).Canon P Q := by
  unfold State.addCounter
  split
  · exact h
  · extract_lets l s1
    have hs1 : s1.Canon P Q := h.noteRead
    exact hs1.setNum

theorem State.Canon.restartFull {s : State} (h : s.Canon P Q) {o : Op} {v : VAddr} {n : Nat} : (s.restartFull o v n).Canon P Q := by
  unfold State.restartFull
  extract_lets words hs
  refine h.foldl fun s1 h1 a h2 => ?_
  split
  · exact h1.upd
  · exact h1

theorem State.Canon.sweepCloses {s : State} (h : s.Canon P Q) {t : Nat} : (s.sweepCloses t).Canon P Q := by
  unfold State.sweepCloses
  refine h.foldl fun s1 h1 a h2 => ?_
  split
  · extract_lets s2
    have hs2 : s2.Canon P Q := h1.restartFull
    exact hs2.upd (ops := fun h3 => Tab.Canon.del h3)
  · exact h1

theorem State.Canon.opEnds {s : State} (hs : s.Canon P Q) {h tid : Nat} {idxs : List Nat} : (s.opEnds h tid idxs).Canon P Q := by
  unfold State.opEnds
  extract_lets s1
  have hs1 : s1.Canon P Q := hs.upd (ops := fun h1 => Tab.Canon.del h1)
  exact ((hs1.foldl fun _ h1 _ _ => h1.leaveCounter).sweepCloses).settleTeam

theorem State.Canon.copyDone {s : State} (hs : s.Canon P Q) {h : Nat} {o : Op} {c : CopyOps} {sls : List Slice} {tab : List (Nat × Nat)} :
    (s.copyDone h o c sls tab).Canon P Q := by
  unfold State.copyDone
  extract_lets s1 ts s2
  have hs1 : s1.Canon P Q := hs.addCounter
  have hs2 : s2.Canon P Q := hs1.foldl fun _ h1 _ _ => h1.engineArrive
  exact hs2.opEnds

theorem State.Canon.badPage {s : State} (hs : s.Canon P Q) {h : Nat} {o : Op} {c : CopyOps} {sls : List Slice} {peer : Bool} {pg : Nat} :
    (s.badPage h o c sls peer pg).Canon P Q := by
  unfold State.badPage
  extract_lets bad
  split
  · exact hs.raiseOp
  · exact hs.bySlice fun _ _ _ h1 => h1.raiseAt

theorem State.Canon.noteSources {s : State} (h : s.Canon P Q) {o : Op} {c : CopyOps} {sls : List Slice} {n k : Nat} :
    (s.noteSources o c sls n k).Canon P Q := h.foldl fun _ h1 _ _ => h1.noteSpans

theorem State.Canon.copyPerform {s : State} (hs : s.Canon P Q) {h : Nat} {o : Op} {c : CopyOps} {sls : List Slice} {tab : List (Nat × Nat)} :
    (s.copyPerform h o c sls tab).Canon P Q := by
  unfold State.copyPerform
  split
  · exact hs
  · split
    · extract_lets adds
      split
      next _ _ _ e2 =>
        extract_lets s2
        have hs2 : s2.Canon P Q := (State.Canon.of_fst e2 hs.enterAdds).noteSources
        split
        · exact hs2.copyDone
        · exact hs2.putOp
    · extract_lets us
      split
      next _ _ _ e2 =>
        extract_lets s2
        have hs2 : s2.Canon P Q := by
          refine (State.Canon.of_fst e2 hs.moveAll).foldl fun s3 h1 a3 h2 => h1.mapGroup fun g h3 => ?_
          split
          · exact h3
          · exact h3.setFlags
        exact hs2.copyDone

theorem State.Canon.moveRow {s : State} (h : s.Canon P Q) {o : Op} {sl : Slice} {l : Nat} {tab : List (Nat × Nat)} : (s.moveRow o sl l tab).Canon P
    Q := by
  unfold State.moveRow
  extract_lets d x src dst
  refine h.foldl fun s1 h1 n h2 => ?_
  extract_lets s2 rd c w sc s3
  have hs2 : s2.Canon P Q := h1.foldl fun _ h3 _ _ => h3.noteRead
  have hs3 : s3.Canon P Q := hs2.putEl
  split
  · exact hs3.setNum
  · exact hs3

theorem State.Canon.raiseLanes {s : State} (hs : s.Canon P Q) {h : Nat} {sl : Slice} {code : FaultCode} {ls : List Nat} :
    (s.raiseLanes h sl code ls).Canon P Q := by
  unfold State.raiseLanes
  split
  · exact hs
  · split
    next _ _ _ e1 => exact (State.Canon.of_snd e1 hs.oneOf).raiseOp

theorem State.Canon.gather {s : State} (hs : s.Canon P Q) {h : Nat} {o : Op} {c : CopyOps} {sl : Slice} : (s.gather h o c sl).Canon P Q := by
  unfold State.gather
  extract_lets ls good ask
  split
  next _ _ e => exact hs.opPages.of_eq e
  next _ _ _ e => exact (hs.opPages.of_eq e).raiseOp
  · split
    next _ s1 e =>
      obtain ⟨l, -, hl⟩ := List.exists_of_findSome?_eq_some e
      split at hl
      next ew =>
        cases hl
        exact hs.opPages.of_eq ew
      · cases hl
    · split
      next s1 done bad e =>
        have h1 : s1.Canon P Q := by
          refine .of_fst e (State.Canon.foldl_fst hs fun b hb l _ => ?_)
          split
          · exact hb.moveRow
          · exact hb
          next eb => exact hb.opPages.of_eq eb
        extract_lets left sl1 s2 s3 s4
        have hs2 : s2.Canon P Q := h1.putOp
        split
        · exact hs2.copyDone
        · exact hs2.raiseLanes.raiseLanes.raiseLanes

theorem State.Canon.cutCopy {s : State} (h : s.Canon P Q) {o : Op} {c : CopyOps} {sls : List Slice} : (s.cutCopy o c sls).Canon P Q := by
  unfold State.cutCopy
  extract_lets n tab unit
  split
  · exact h
  · exact h
  · refine h.foldl fun s1 h1 a1 h2 => h1.foldl fun s2 h3 n1 h4 => ?_
    split
    next _ _ _ e1 =>
      extract_lets ps tab1
      split
      · exact (State.Canon.of_snd e1 h3.draw).moveRow
      · exact .of_snd e1 h3.draw
  · extract_lets us units us1 s'
    have hs' : s'.Canon P Q := h.upd.moveAll
    exact hs'.upd (parts := fun _ => h.parts)

theorem State.Canon.cpcbPerform {s : State} (hs : s.Canon P Q) {h : Nat} {o : Op} {n : Nat} {sb : ShapeBits} {bsl : Nat} {tab : List (Nat × Nat)} :
    (s.cpcbPerform h o n sb bsl tab).Canon P Q := by
  unfold State.cpcbPerform
  extract_lets x loc s1 bs s2
  have hs1 : s1.Canon P Q := hs.foldl fun _ h1 _ _ => h1.noteRead
  have hs2 : s2.Canon P Q := hs1.mapTeam fun _ h1 => h1.upd (cb := fun e => Cells.setAll_wf (Cells.wf_filter e _) _)
  exact hs2.engineArrive.opEnds

theorem State.Canon.execCpl {s : State} (h : s.Canon P Q) {d x : ShReg} {a : SReg} {b : Bsl} : Out.Canon P Q (execCpl d x a b s) := h.copyIssue

theorem State.Canon.execCps {s : State} (h : s.Canon P Q) {d x : ShReg} {a : SReg} {b : Bsl} : Out.Canon P Q (execCps d x a b s) := h.copyIssue

theorem State.Canon.execCpx {s : State} (h : s.Canon P Q) {d x : ShReg} {a : SReg} {b : Bsl} : Out.Canon P Q (execCpx d x a b s) := h.copyIssue

theorem State.Canon.execCpm {s : State} (h : s.Canon P Q) {d x : ShReg} {a : SReg} {b : Bsl} : Out.Canon P Q (execCpm d x a b s) := h.copyIssue

theorem State.Canon.execCpg {s : State} (h : s.Canon P Q) {d x : ShReg} {a : SReg} {b : Bsl} : Out.Canon P Q (execCpg d x a b s) := h.copyIssue

theorem State.Canon.execCprPut {s : State} (h : s.Canon P Q) {d x : ShReg} {a : SReg} {b : Bsl} : Out.Canon P Q (execCprPut d x a b s) :=
  h.copyIssue

theorem State.Canon.execCprGet {s : State} (h : s.Canon P Q) {d x : ShReg} {a : SReg} {b : Bsl} : Out.Canon P Q (execCprGet d x a b s) :=
  h.copyIssue

theorem State.Canon.execCpa {s : State} (h : s.Canon P Q) {d x : ShReg} {a : SReg} {b : Bsl} {peer : Bool} {op : BitVec 2} : Out.Canon P Q
    (execCpa d x a b peer op s) := h.copyIssue

theorem State.Canon.execCpst {s : State} (h : s.Canon P Q) {d x : ShReg} {a : SReg} {b : Bsl} : Out.Canon P Q (execCpst d x a b s) := h.copyIssue

theorem State.Canon.execCpw {s : State} (h : s.Canon P Q) {a : SReg} {b : Bsl} {peer : Bool} : Out.Canon P Q (execCpw a b peer s) := by
  unfold Machine.execCpw
  refine h.byGroup (fun _ => h.raiseCurator) fun n n1 g e h1 => ?_
  split
  · exact h
  · extract_lets k c follows c1
    split
    · exact h.raiseNow
    · split
      · exact h.raiseNow
      · split
        · exact h
        · exact h.newOp.advance

theorem State.Canon.execCpcb {s : State} (h : s.Canon P Q) {x : ShReg} {a : SReg} {b : Bsl} {n : BitVec 2} : Out.Canon P Q (execCpcb x a b n s) := by
  unfold Machine.execCpcb
  refine h.byGroup (fun _ => h.raiseCurator) fun n1 n2 g e h1 => ?_
  split
  · exact h
  · extract_lets sb y e2 s1
    have hs1 : s1.Canon P Q := h.newOp
    split
    · exact h.raiseNow
    · split
      · exact h.raiseNow
      · split
        · exact h
        · exact (hs1.mapTeam fun _ h2 => h2.upd).advance

theorem State.Canon.execCopyStart {s : State} (h : s.Canon P Q) {op : Nat} : Out.Canon P Q (execCopyStart op s) := by
  unfold Machine.execCopyStart
  split
  · split
    · exact h
    · split
      · split
        · exact h.copyStart
        · exact h
      · split
        · exact h
        · extract_lets x bad
          split
          · exact h.putOp
          · exact h.raiseAt
      · exact h
  · exact h

theorem State.Canon.execCopyComplete {s : State} (h : s.Canon P Q) {op : Nat} : Out.Canon P Q (execCopyComplete op s) := by
  unfold Machine.execCopyComplete
  split
  · split
    · exact h
    · split
      · split
        · exact h
        · split
          · exact h.upd.badPage
          · split
            · exact h.gather
            · split
              · exact h.copyPerform
              next _ _ e5 => exact h.opPages.of_eq e5
              next _ _ _ e5 => exact (h.opPages.of_eq e5).badPage
      · extract_lets x
        split
        · exact h.cpcbPerform
        next _ _ e3 => exact h.opPages.of_eq e3
        next _ _ _ e3 => exact (h.opPages.of_eq e3).raiseAt
      · exact h
  · exact h

theorem State.Canon.execBkcommit {s : State} (h : s.Canon P Q) {d x : ShReg} {a : SReg} {b : Bsl} : Out.Canon P Q (execBkcommit d x a b s) :=
  h.copyIssue

theorem State.Canon.execAclose {s : State} (h : s.Canon P Q) {sp : BitVec 2} {a b : SReg} : Out.Canon P Q (execAclose sp a b s) := by
  unfold Machine.execAclose
  refine h.byGroup (fun _ => h.raiseCurator) fun n n1 g e h1 => ?_
  extract_lets dev v n2 words
  split
  · exact h.raiseNow
  · split
    · split
      · exact h
      · split
        · exact h.raiseNow
        · split
          · exact h.raiseNow
          · split
            · exact h
            · exact h.newOp.advance
    · split
      · exact h
      · split
        · exact h.raiseNow
        · split
          · exact h.raiseNow
          · split
            · exact h
            · exact h.newOp.advance

theorem State.Canon.pickWord {s : State} (h : s.Canon P Q) {l : List Nat} : (s.pickWord l).2.Canon P Q := by
  unfold State.pickWord
  split
  · dsimp only
    exact h
  · split
    next _ _ _ e1 =>
      dsimp only
      exact .of_snd e1 h.draw

theorem State.Canon.raiseStalled {s : State} (h : s.Canon P Q) {l : List (Nat × Nat × Option (Nat × Slice))} : (s.raiseStalled l).Canon P Q := by
  unfold State.raiseStalled
  refine h.foldl fun s1 h1 a h2 => ?_
  split
  · exact h1.raiseGroup.mapGroup fun _ h3 => h3.upd
  · exact h1.raiseOp

theorem State.Canon.peerExhausted {s : State} (h : s.Canon P Q) {d : Nat} {rs : List (Nat × Nat)} : (s.peerExhausted d rs).Canon P Q := by
  unfold State.peerExhausted
  extract_lets os
  exact h.raiseStalled

theorem State.Canon.execOrderedCloseStep {s : State} (h : s.Canon P Q) {op : Nat} : Out.Canon P Q (execOrderedCloseStep op s) := by
  unfold Machine.execOrderedCloseStep
  split
  · split
    · exact h
    · split
      · exact h.sweepCloses.settleTeam
      · split
        next _ _ _ e4 =>
          split
          next _ _ e5 => exact ((State.Canon.of_snd e4 h.pickWord).opPages).of_eq e5
          next _ _ _ e5 => exact (((State.Canon.of_snd e4 h.pickWord).opPages).of_eq e5).raiseOp
          · extract_lets l s2 left s3
            have hs2 : s2.Canon P Q := by
              unfold s2
              split
              · exact (State.Canon.of_snd e4 h.pickWord).noteRead
              · exact .of_snd e4 h.pickWord
            have hs3 : s3.Canon P Q := hs2.closeWord.putOp
            split
            · exact hs3.leaveCounter.sweepCloses.settleTeam
            · exact hs3
      · exact h
  · exact h

theorem State.Canon.execOrderedQueueExhausted {s : State} (hs : s.Canon P Q) {h : Home} : Out.Canon P Q (execOrderedQueueExhausted h s) := by
  unfold Machine.execOrderedQueueExhausted
  split
  · exact hs
  · split
    · exact hs
    · extract_lets s1
      have hs1 : s1.Canon P Q := hs.raiseStalled
      exact hs1.upd

theorem State.Canon.collIssue {s : State} (h : s.Canon P Q) {op red : Nat} {sr : Bool} {t : ShReg} {a : SReg} {b : Bsl} : Out.Canon P Q
    (s.collIssue op red sr t a b) := by
  unfold State.collIssue
  refine h.byGroup (fun _ => h.raiseCurator) fun n n1 g e h1 => ?_
  split
  · split
    · exact h
    · extract_lets p sb x w ix P1 ms root badReg rank out pn hit n2 seq d s1
      have hs1 : s1.Canon P Q := h.newOp
      split
      · exact h.raiseNow
      · split
        · exact h.raiseNow
        · split
          · exact h.raiseNow
          · split
            · split
              next _ _ _ e7 => exact (State.Canon.of_snd e7 h.oneOf).raiseNow
            · split
              · split
                next _ _ _ e8 => exact (State.Canon.of_snd e8 h.oneOf).raiseNow
              · split
                · exact h
                · exact (hs1.mapTeam fun _ h2 => h2.upd).advance
  · split
    · exact h
    · extract_lets p sb x w ix P1 ms root badReg rank out pn hit n2 seq d s1
      have hs1 : s1.Canon P Q := h.newOp
      split
      · exact h.raiseNow
      · split
        · exact h.raiseNow
        · split
          · exact h.raiseNow
          · split
            · split
              next _ _ _ e7 => exact (State.Canon.of_snd e7 h.oneOf).raiseNow
            · split
              · split
                next _ _ _ e8 => exact (State.Canon.of_snd e8 h.oneOf).raiseNow
              · split
                · exact h
                · exact (hs1.mapTeam fun _ h2 => h2.upd).advance

theorem State.Canon.execClar {s : State} (h : s.Canon P Q) {t : ShReg} {a : SReg} {b : Bsl} {sr : Bool} {op : BitVec 2} : Out.Canon P Q
    (execClar t a b sr op s) := h.collIssue

theorem State.Canon.execClrs {s : State} (h : s.Canon P Q) {t : ShReg} {a : SReg} {b : Bsl} {sr : Bool} {op : BitVec 2} : Out.Canon P Q
    (execClrs t a b sr op s) := h.collIssue

theorem State.Canon.execClag {s : State} (h : s.Canon P Q) {t : ShReg} {a : SReg} {b : Bsl} : Out.Canon P Q (execClag t a b s) := h.collIssue

theorem State.Canon.execClbc {s : State} (h : s.Canon P Q) {t : ShReg} {a : SReg} {b : Bsl} : Out.Canon P Q (execClbc t a b s) := h.collIssue

theorem State.Canon.putTile {s : State} (h : s.Canon P Q) {x : Shape} {loc : Nat → Loc} {c : List ℤ} {v : Nat} : (s.putTile x loc c v).Canon P Q := by
  unfold State.putTile
  extract_lets o
  split
  · exact h.putEl.setNum
  · exact h.putEl

theorem State.Canon.collTile {s : State} (h : s.Canon P Q) {p : Nat} {c : Coll} {loc : Nat → Loc} {val : Nat → Nat → Nat} :
    (s.collTile p c loc val).Canon P Q := by
  unfold State.collTile
  extract_lets x cseed ws heads
  split
  · refine h.foldl fun s1 h1 a h2 => ?_
    extract_lets b es vals
    split
    · refine h1.foldl fun s2 h3 a4 h4 => ?_
      split
      · exact h3.putTile
      · exact h3
  · exact h.foldl fun _ h1 _ _ => h1.putTile

theorem State.Canon.withdrawColl {s : State} (h : s.Canon P Q) {o : Op} : (s.withdrawColl o).Canon P Q := by
  unfold State.withdrawColl
  split
  · split
    · exact h
    · extract_lets p vs
      exact h.mapPart
  · exact h

theorem State.Canon.takeRecv {s : State} (h : s.Canon P Q) {id p : Nat} {c : Coll} {l : List Nat} :
    State.OptPair.Canon P Q (State.takeRecv id p c l s) := by
  induction l generalizing s with
  | nil => exact h
  | cons r rs ih =>
    unfold State.takeRecv
    split
    · trivial
    · exact (ih h).map fun _ h1 => h1
    · split
      next n s1 e =>
        have h1 : s1.Canon P Q := .of_snd e h.draw
        split
        · exact (ih h1).map fun _ h2 => h2
        · trivial

theorem State.Canon.collFault {s : State} (hs : s.Canon P Q) {h : Nat} {o : Op} {c : Coll} {code : FaultCode} {faddr : Nat} :
    (s.collFault h o c code faddr).Canon P Q := hs.raiseOp

theorem State.Canon.execCollectiveDescriptor {s : State} (h : s.Canon P Q) {p idx team seq rank : Nat} {d : CollDesc} {tile : List Nat} : Out.Canon
    P Q (execCollectiveDescriptor p idx team seq rank d tile s) := h.mapPart

theorem State.Canon.execCollectiveComplete {s : State} (h : s.Canon P Q) {op : Nat} : Out.Canon P Q (execCollectiveComplete op s) := by
  unfold Machine.execCollectiveComplete
  split
  · split
    · extract_lets p
      split
      · exact h
      · split
        · exact h
        next _ _ _ e4 =>
          extract_lets s2
          have hs2 : s2.Canon P Q := (h.takeRecv.of_eq e4).mapPart
          split
          · exact hs2.putOp.collFault
          · exact hs2.putOp
    · extract_lets p x rs ws
      split
      · exact h
      · split
        next _ _ e4 => exact h.opPages.of_eq e4
        next _ _ _ e4 =>
          split
          next _ _ _ e5 => exact (State.Canon.of_snd e5 ((h.opPages.of_eq e4).oneOf)).collFault
        · extract_lets loc s1 own val s2
          have hs1 : s1.Canon P Q := h.noteSpans
          have hs2 : s2.Canon P Q := hs1.collTile
          exact hs2.engineArrive.opEnds
    · exact h
  · exact h

theorem State.Canon.execCollectiveTimeout {s : State} (h : s.Canon P Q) {op : Nat} : Out.Canon P Q (execCollectiveTimeout op s) := by
  unfold Machine.execCollectiveTimeout
  split
  · split
    · extract_lets p ms
      split
      · exact h
      · exact h.collFault
    · exact h
  · exact h

theorem State.Canon.charge {s : State} (h : s.Canon P Q) {core band n : Nat} : (s.charge core band n).Canon P Q := by
  unfold State.charge
  extract_lets c w
  exact h.putCluster

theorem State.Canon.chargeMx {s : State} (h : s.Canon P Q) {core band k n : Nat} : (s.chargeMx core band k n).Canon P Q := by
  unfold State.chargeMx
  extract_lets c
  exact h.putCluster

theorem State.Canon.withhold {s : State} (h : s.Canon P Q) {core band n : Nat} : (s.withhold core band n).Canon P Q := by
  unfold State.withhold
  extract_lets c
  exact h.putCluster

theorem State.Canon.setHold {s : State} (hs : s.Canon P Q) {core j : Nat} {h : Option Hold} : (s.setHold core j h).Canon P Q := by
  unfold State.setHold
  refine hs.mapCore fun c h1 => ?_
  split
  · exact h1.upd
  · exact h1.upd

theorem State.Canon.accLeave {s : State} (h : s.Canon P Q) {key core : Nat} : (s.accLeave key core).Canon P Q := h.mapCore fun _ h1 => h1.upd

theorem State.Canon.accJoin {s : State} (h : s.Canon P Q) {key core : Nat} {pc : DWord} {i : Instr} : (s.accJoin key core pc i).Canon P Q := by
  unfold State.accJoin
  refine h.mapCore fun c h1 => ?_
  split
  · exact h1
  · exact h1.upd

theorem State.Canon.mxaIssue {s : State} (h : s.Canon P Q) {i : Instr} {acc : Nat} {z pair sp : Bool} {sel : Nat} {sha : ShReg}
    {pc vbq xx vm len : Nat} : Out.Canon P Q (s.mxaIssue i acc z pair sp sel sha pc vbq xx vm len) := by
  unfold State.mxaIssue
  refine h.byGroup (fun _ => h.raiseCurator) fun n n1 g e h1 => ?_
  split
  · trivial
  · split
    · exact h
    · extract_lets sb y out key res cores js waits s1 m
      have hs1 : s1.Canon P Q := h.foldl fun _ h2 _ _ => h2.accLeave
      split
      · exact h.raiseNow
      · split
        · split
          next _ _ _ e5 => exact (State.Canon.of_snd e5 h.oneOf).raiseNow
        · split
          · exact h.foldl fun _ h2 _ _ => h2.accJoin
          · split
            · exact h
            · split
              next _ _ _ e7 =>
                extract_lets s3 s4
                have hs3 : s3.Canon P Q := by
                  unfold s3
                  split
                  · exact (State.Canon.of_snd e7 hs1.newOp).foldl fun _ h2 _ _ => h2.foldl fun _ h4 _ _ => h4.setHold
                  · exact .of_snd e7 hs1.newOp
                have hs4 : s4.Canon P Q := hs3.foldl fun _ h2 _ _ => h2.mapCore fun _ h4 => h4.upd
                exact hs4.mapGroup fun _ h2 => h2.upd.advance

theorem State.Canon.execMxa {s : State} (h : s.Canon P Q) {acc z pair sp sel : Bool} {sha : ShReg} {pc vbq : BitVec 4} {x : BitVec 8}
    {vm : Option (BitVec 6)} : Out.Canon P Q (execMxa acc z pair sp sel sha pc vbq x vm s) := h.mxaIssue

theorem State.Canon.execMxwb {s : State} (h : s.Canon P Q) {d : ShReg} {a : SReg} {b : Bsl} {pair keep acc : Bool} : Out.Canon P Q
    (execMxwb d a b pair keep acc s) := by
  unfold Machine.execMxwb
  refine h.byGroup (fun _ => h.raiseCurator) fun n n1 g e h1 => ?_
  split
  · trivial
  · extract_lets scaled sb y j cores hs resA1 out h0 w rel
    split
    · split
      · exact h
      · split
        · exact h.raiseNow
        · split
          · exact h.raiseNow
          · split
            · split
              next _ _ _ e7 => exact (State.Canon.of_snd e7 h.oneOf).raiseNow
            · split
              · exact h
              · split
                next _ _ _ e8 =>
                  extract_lets s2 s3
                  have hs2 : s2.Canon P Q := (State.Canon.of_snd e8 h.newOp).foldl fun _ h2 _ _ => h2.mapCore fun _ h4 => h4.upd
                  have hs3 : s3.Canon P Q := by
                    unfold s3
                    split
                    · exact hs2
                    · refine hs2.foldl fun s4 h2 n3 h3 => h2.foldl fun s5 h4 n4 h5 => ?_
                      split
                      · exact h4.setHold
                      · exact h4
                  exact hs3.mapGroup fun _ h2 => h2.upd.advance
    · split
      · exact h
      · split
        · exact h.raiseNow
        · split
          · exact h.raiseNow
          · split
            · split
              next _ _ _ e7 => exact (State.Canon.of_snd e7 h.oneOf).raiseNow
            · split
              · exact h
              · split
                next _ _ _ e8 =>
                  extract_lets s2 s3
                  have hs2 : s2.Canon P Q := (State.Canon.of_snd e8 h.newOp).foldl fun _ h2 _ _ => h2.mapCore fun _ h4 => h4.upd
                  have hs3 : s3.Canon P Q := by
                    unfold s3
                    split
                    · exact hs2
                    · refine hs2.foldl fun s4 h2 n3 h3 => h2.foldl fun s5 h4 n4 h5 => ?_
                      split
                      · exact h4.setHold
                      · exact h4
                  exact hs3.mapGroup fun _ h2 => h2.upd.advance

theorem State.Canon.execMxfence {s : State} (h : s.Canon P Q) {d : SReg} : Out.Canon P Q (execMxfence d s) := by
  unfold Machine.execMxfence
  refine h.byGroup (fun _ => h.raiseCurator) fun n n1 g e h1 => ?_
  split
  · exact h
  · split
    next _ _ _ e2 => exact ((State.Canon.of_snd e2 h.closeBatch).setS).advance

theorem State.Canon.execMxwait {s : State} (h : s.Canon P Q) {a : SReg} : Out.Canon P Q (execMxwait a s) := by
  unfold Machine.execMxwait
  refine h.byGroup (fun _ => h.raiseCurator) fun n n1 g e h1 => ?_
  split
  · exact h
  · extract_lets b n2
    split
    · exact h.raiseNow
    · split
      · exact h
      · exact h.advance

theorem State.Canon.arrayRun {s : State} (h : s.Canon P Q) {t core : Nat} {m : Mxa} : (s.arrayRun t core m).Canon P Q := by
  unfold State.arrayRun
  extract_lets p rows cols upd
  refine h.mapCore fun c h1 => ?_
  split
  · split
    next u v e =>
      intro hq
      obtain ⟨hs, hm, h0, h1⟩ := h1 hq
      obtain ⟨hu, hv⟩ := Cells.rebuild2_wf e h0 h1
      exact ⟨hs, hm, hu, hv⟩
  · split
    · exact h1.upd (a0 := fun e => Cells.rebuild_wf e)
    · exact h1.upd (a1 := fun e => Cells.rebuild_wf e)

theorem State.Canon.mxPop {s : State} (hs : s.Canon P Q) {h : Nat} {o : Op} : (s.mxPop h o).Canon P Q :=
  hs.foldl fun _ h1 _ _ => h1.mapCore fun _ h3 => h3.upd

theorem State.Canon.freeWord {s : State} (h : s.Canon P Q) : (s.freeWord).2.Canon P Q := by
  unfold State.freeWord
  split
  next _ _ _ e =>
    dsimp only
    exact .of_snd e h.draw

theorem State.Canon.wrongProducts {s : State} (h : s.Canon P Q) {core : Nat} {m : Mxa} {es : List CellErr} : (s.wrongProducts core m es).Canon P Q := by
  unfold State.wrongProducts
  refine h.foldl fun s1 h1 a h2 => ?_
  extract_lets e
  split
  next a1 _ _ e1 =>
    split
    · split
      next _ _ _ e3 =>
        exact (State.Canon.of_snd e3 ((State.Canon.of_snd e1 h1.freeWord).freeWord)).mapCore fun _ h3 => h3.upd
            (a0 := fun e4 => Cells.set_wf e4 _ _) (a1 := fun e4 => Cells.set_wf e4 _ _)
    · refine (State.Canon.of_snd e1 h1.freeWord).mapCore fun c h3 => ?_
      split
      · exact h3.upd (a0 := fun e4 => Cells.set_wf e4 _ _)
      · exact h3.upd (a1 := fun e4 => Cells.set_wf e4 _ _)

theorem State.Canon.auditMiss {s : State} (hs : s.Canon P Q) {core quad h : Nat} {o : Op} : (s.auditMiss core quad h o).Canon P Q := by
  unfold State.auditMiss
  extract_lets b s1
  have hs1 : s1.Canon P Q := hs.machineCheck
  refine hs1.mapGroup fun g h1 => ?_
  split
  · exact h1
  · exact h1.upd

theorem State.Canon.audit {s : State} (hs : s.Canon P Q) {core h : Nat} {o : Op} {m : Mxa} : (s.audit core h o m).Canon P Q := by
  unfold State.audit
  extract_lets n s1 es s2 bad
  have hs1 : s1.Canon P Q := hs.mapCore fun _ h1 => h1.upd
  have hs2 : s2.Canon P Q := hs1.upd
  split
  · exact hs1
  · exact hs2.wrongProducts.foldl fun _ h1 _ _ => h1.auditMiss

theorem State.Canon.noteMxa {s : State} (h : s.Canon P Q) {t core : Nat} {o : Op} {m : Mxa} : (s.noteMxa t core o m).Canon P Q := by
  unfold State.noteMxa
  extract_lets x s1 s2 mine s3 s4
  have hs1 : s1.Canon P Q := by
    unfold s1
    split
    · exact h
    · exact h.foldl fun _ h1 _ _ => h1.noteSpans
  have hs2 : s2.Canon P Q := hs1.foldl fun _ h1 _ _ => h1.noteRegs
  have hs3 : s3.Canon P Q := by
    unfold s3
    split
    · split
      · exact hs2
      · exact hs2.readBad
    · exact hs2
  have hs4 : s4.Canon P Q := hs3.dropErrs
  split
  · exact hs4
  · exact hs4.mapCore fun _ h1 => h1.upd

theorem State.Canon.mxaPerform {s : State} (hs : s.Canon P Q) {h : Nat} {o : Op} {m : Mxa} : (s.mxaPerform h o m).Canon P Q := by
  unfold State.mxaPerform
  extract_lets cores s1 s2 src s3
  have hs1 : s1.Canon P Q := hs.foldl fun _ h1 _ _ => h1.arrayRun.noteMxa
  have hs2 : s2.Canon P Q := hs1.foldl fun _ h1 _ _ => h1.audit
  have hsrc : src.Canon P Q := hs2.mxPop
  clear_value src
  have hs3 : s3.Canon P Q := hsrc.upd (ops := fun _ => Tab.Canon.del hs2.ops)
  exact hs3.batchCheck.settleTeam

theorem State.Canon.mxClocks {s : State} (h : s.Canon P Q) {core n : Nat} : (s.mxClocks core n).Canon P Q := by
  unfold State.mxClocks
  split
  · exact h
  · split
    · exact h
    · split
      · split
        · exact h
        · extract_lets d k
          exact (h.mapCore fun _ h1 => h1.upd).chargeMx
      · exact h

theorem State.Canon.wbWrite {s : State} (h : s.Canon P Q) {o : Op} {w : Mxwb} : (s.wbWrite o w).1.Canon P Q := by
  unfold State.wbWrite
  extract_lets x loc clip cs heads ts
  split
  · refine h.foldl_fst fun a h1 a1 h2 => ?_
    extract_lets b
    split
    · dsimp only
      refine h1.foldl fun s1 h3 a5 h4 => ?_
      split
      · exact h3.putEl.setNum
      · exact h3
  · refine h.foldl_fst fun a h1 a1 h2 => ?_
    split
    · dsimp only
      exact h1.putEl

theorem State.Canon.noteFlags {s : State} (hs : s.Canon P Q) {h : Nat} {o : Op} {fl : AFlags} : (s.noteFlags h o fl).Canon P Q := by
  unfold State.noteFlags
  split
  · refine hs.upd (ops := fun h1 => Tab.Canon.map h1 (fun a => ?_) fun _ _ h3 => h3)
    split
    · split
      · rfl
      · rfl
    · rfl
  · exact hs.mapGroup fun _ h1 => h1.upd

theorem State.Canon.wbRelease {s : State} (hs : s.Canon P Q) {h : Nat} {x : Team} : (s.wbRelease h x).Canon P Q := by
  unfold State.wbRelease
  refine hs.foldl fun s1 h1 n h2 => h1.foldl fun s2 h3 n1 h4 => ?_
  split
  · split
    · exact h3.setHold
    · exact h3
  · exact h3

theorem State.Canon.noteWb {s : State} (h : s.Canon P Q) {t i : Nat} {w : Mxwb} : (s.noteWb t i w).Canon P Q := by
  unfold State.noteWb
  refine h.foldl fun s1 h1 a h2 => ?_
  extract_lets cs reads
  split
  · exact h1.readBad
  · exact h1

theorem State.Canon.mxwbPerform {s : State} (hs : s.Canon P Q) {h : Nat} {o : Op} {x : Team} {w : Mxwb} : (s.mxwbPerform h o x w).Canon P Q := by
  unfold State.mxwbPerform
  split
  next _ _ _ e =>
    extract_lets s2 s3 s4
    have hs2 : s2.Canon P Q := (((State.Canon.of_fst e hs.noteWb.wbWrite).noteFlags).wbRelease).mxPop
    have hs3 : s3.Canon P Q := hs2.engineArrive
    have hs4 : s4.Canon P Q := hs3.upd (ops := fun h1 => Tab.Canon.del h1)
    exact hs4.batchCheck.settleTeam

theorem State.Canon.execMatrixOperationComplete {s : State} (h : s.Canon P Q) {core : Nat} : Out.Canon P Q (execMatrixOperationComplete core s) := by
  unfold Machine.execMatrixOperationComplete
  split
  · exact h
  · split
    · exact h
    · split
      · split
        · exact h
        · exact h.mxaPerform
      · exact h

theorem State.Canon.execWriteBackPerformed {s : State} (h : s.Canon P Q) {op : Nat} : Out.Canon P Q (execWriteBackPerformed op s) := by
  unfold Machine.execWriteBackPerformed
  split
  · split
    · split
      · exact h.mxwbPerform
      · exact h
    · exact h
  · exact h

theorem State.Canon.grantIssued {s : State} {t i core : Nat} {a : Out} (ha : Out.Canon P Q a) : Out.Canon P Q
    (s.grantIssued t i core a) := by
  unfold State.grantIssued
  split
  · split
    · exact ha.charge.mapGroup fun _ h1 => h1.upd
    · exact ha
  · exact ha

theorem State.Canon.execAccumulatorGrant {s : State} (h : s.Canon P Q) {core : Nat} : Out.Canon P Q (execAccumulatorGrant core s) := by
  unfold Machine.execAccumulatorGrant
  extract_lets may
  split
  · extract_lets t i
    exact State.Canon.grantIssued ((h.upd.mapGroup fun _ h1 => h1.upd).execMxa)
  · exact h

theorem State.Canon.execWait {s : State} (h : s.Canon P Q) {c : BitVec 3} {n : BitVec 8} : Out.Canon P Q (execWait c n s) := by
  unfold Machine.execWait
  refine h.byGroup (fun _ => h.raiseCurator) fun n1 n2 g e h1 => ?_
  split
  · exact h
  · exact h.mapGroup fun _ h2 => h2.advance

theorem State.Canon.execYield {s : State} (h : s.Canon P Q) {c : BitVec 3} {n : BitVec 8} {o : BitVec 14} : Out.Canon P Q (execYield c n o s) := by
  unfold Machine.execYield
  refine h.byGroup (fun _ => h.raiseCurator) fun n1 n2 g e h1 => ?_
  extract_lets k
  split
  · exact h.park
  · exact h.jump

theorem State.Canon.execFence {s : State} (h : s.Canon P Q) {a : BitVec 3} : Out.Canon P Q (execFence a s) := State.Canon.issuing h.advance

theorem State.Canon.execBsinit {s : State} (h : s.Canon P Q) {a : SReg} {n : BitVec 4} : Out.Canon P Q (execBsinit a n s) := by
  unfold Machine.execBsinit
  refine h.byGroup (fun _ => h.raiseCurator) fun n1 n2 g e h1 => ?_
  split
  · exact h
  · split
    · exact h.raiseNow
    · exact (h.mapTeam fun _ h2 => h2.upd).advance

theorem State.Canon.execBsarr {s : State} (h : s.Canon P Q) {d : SReg} {n : BitVec 4} : Out.Canon P Q (execBsarr d n s) := by
  unfold Machine.execBsarr
  refine h.byGroup (fun _ => h.raiseCurator) fun n1 n2 g e h1 => ?_
  split
  · exact h
  · split
    · exact h.raiseNow
    · extract_lets p
      exact h.setS.advance.slotArrive

theorem State.Canon.execBswait {s : State} (h : s.Canon P Q) {a : SReg} {n : BitVec 4} : Out.Canon P Q (execBswait a n s) := by
  unfold Machine.execBswait
  refine h.byGroup (fun _ => h.raiseCurator) fun n1 n2 g e h1 => ?_
  split
  · exact h
  · split
    · exact h.raiseNow
    · extract_lets p
      split
      · exact h.park
      · exact h.advance

theorem State.Canon.execBsaw {s : State} (h : s.Canon P Q) {n : BitVec 4} : Out.Canon P Q (execBsaw n s) := by
  unfold Machine.execBsaw
  refine h.byGroup (fun _ => h.raiseCurator) fun n1 n2 g e h1 => ?_
  split
  · exact h
  · split
    · exact h.raiseNow
    · extract_lets p s1
      have hs1 : s1.Canon P Q := h.slotArrive
      split
      · exact hs1.park
      · exact hs1.advance

theorem State.Canon.execBsget {s : State} (h : s.Canon P Q) {d : SReg} {n : BitVec 4} : Out.Canon P Q (execBsget d n s) := by
  unfold Machine.execBsget
  refine h.byGroup (fun _ => h.raiseCurator) fun n1 n2 g e h1 => ?_
  split
  · exact h
  · exact h.setS.advance

theorem State.Canon.execGbar {s : State} (h : s.Canon P Q) : Out.Canon P Q (execGbar s) := by
  unfold Machine.execGbar
  refine h.byGroup (fun _ => h.raiseCurator) fun n n1 g e h1 => ?_
  split
  · exact h.raiseNow
  · split
    · exact h.raiseNow
    · split
      · exact h
      · extract_lets s1
        have hs1 : s1.Canon P Q := h.mapGroup fun _ h2 => h2.upd
        exact hs1.barrierCheck

theorem State.Canon.waitWord {s : State} (h : s.Canon P Q) {a b : SReg} {holds : Word → Word → Bool} {mk : Nat → Nat → Word → Bool → Wait} :
    Out.Canon P Q (s.waitWord a b holds mk) := by
  unfold State.waitWord
  refine h.byGroup (fun _ => h.raiseCurator) fun n n1 g e h1 => ?_
  split
  · exact h.raiseNow
  · split
    · exact h
    · extract_lets va
      split
      · exact h.raiseNow
      · split
        next _ _ e4 => exact h.translateNow.of_eq e4
        next _ _ e4 => exact (h.translateNow.of_eq e4).raiseNow
        · split
          · exact h.advance.noteRead
          · exact h.park.noteRead

theorem State.Canon.execWcnt {s : State} (h : s.Canon P Q) {a b : SReg} : Out.Canon P Q (execWcnt a b s) := h.waitWord

theorem State.Canon.execWadr {s : State} (h : s.Canon P Q) {a b : SReg} : Out.Canon P Q (execWadr a b s) := h.waitWord

theorem State.Canon.pollGrids {s : State} (h : s.Canon P Q) : (s.pollGrids).Canon P Q := by
  unfold State.pollGrids
  refine h.foldl fun s1 h1 a h2 => ?_
  split
  · split
    · refine State.Canon.noteHubRead ?_
      split
      · exact h1.upd (grids := fun h3 => Tab.Canon.set h3 ((h.grid_mem h2).upd))
      · exact h1
    · exact h1
  · exact h1

theorem State.Canon.execPollingRecheck {s : State} (h : s.Canon P Q) : Out.Canon P Q (execPollingRecheck s) := by
  unfold Machine.execPollingRecheck
  extract_lets rs s1 s2
  have hs1 : s1.Canon P Q := by
    refine h.foldl fun s3 h1 a h2 => ?_
    split
    · split
      · exact h1.upd (groups := fun h3 => Tab.Canon.set h3 (((h.group_mem h2).upd).advance))
      · exact h1
    · split
      · exact h1.upd (groups := fun h3 => Tab.Canon.set h3 (((h.group_mem h2).upd).advance))
      · exact h1
    · exact h1
  have hs2 : s2.Canon P Q := by
    refine hs1.foldl fun s3 h1 a h2 => ?_
    split
    · exact h1
    · exact h1.upd (teams := fun h3 => Tab.Canon.set h3 ((hs1.team_mem h2).upd))
  exact (hs2.foldl fun _ h1 _ _ => h1.noteRead).pollGrids

end Sys2Proof.Machine
end

