-- ==== Sys2Proof/Proofs/CanonicalLaunch.lean ====
section
set_option Elab.async false

/-! PROOF. The canonical form and launches: a grid enters with a record whose roles have passed their check, its groups start from them. -/

namespace Sys2Proof.Machine

open Sys2Proof

variable {P Q : Prop}

theorem State.Canon.checkRecord {s : State} (h : s.Canon P Q) {who : Req} {core : Option Nat} {p asid : Nat} {r : BitVec 1024} {drain : Bool} :
    State.Checked.Canon P Q (s.checkRecord who core p asid r drain) := by
  unfold State.checkRecord
  split
  · exact h
  · split
    · exact h
    · split
      next _ _ e2 => exact h.translate.of_eq e2
      next _ _ e2 => exact h.translate.of_eq e2
      · split
        next _ _ e3 => exact h.translate.of_eq e3
        next _ _ e3 => exact h.translate.of_eq e3
        · exact h

theorem State.Canon.putStatus {s : State} (h : s.Canon P Q) {p asid va code : Nat} : State.Opt.Canon P Q (s.putStatus p asid va code) :=
  State.Opt.Canon.map fun _ _ => h.setNum

theorem State.Canon.writeStatus {s : State} (h : s.Canon P Q) {p : Nat} {loc : RecLoc} {code : Nat} : (s.writeStatus p loc code).Canon P Q := by
  unfold State.writeStatus
  split
  · exact h
  · exact h
  · exact h.setNum
  · extract_lets later
    split
    · exact h.mapPart
    · split
      next _ _ e1 => exact h.putStatus.of_eq e1
      · split
        · exact h.setNum
        next _ _ e2 => exact (h.translate.of_eq e2).mapPart
        next _ _ e2 => exact h.translate.of_eq e2

theorem State.Canon.retryStatus {s : State} (h : s.Canon P Q) {p : Nat} : (s.retryStatus p).Canon P Q := by
  unfold State.retryStatus
  split
  · exact h
  · extract_lets drop
    split
    · split
      next _ _ e1 => exact (h.putStatus.of_eq e1).mapPart
      · split
        · exact h.setNum.mapPart
        next _ _ e2 => exact h.translate.of_eq e2
        next _ _ e2 => exact (h.translate.of_eq e2).mapPart
    · exact h.mapPart

theorem State.Canon.addGrid {s : State} (h : s.Canon P Q) {g : Grid} (hg : g.Canon Q) : (s.addGrid g).Canon P Q :=
  (h.putPart (n := g.part) (x := { s.part g.part with ages := (s.part g.part).ages + 1 })).upd (grids := fun h1 => h1.set hg)

/-- A record that was accepted has passed the check of its roles: code 4 comes before code 7. -/
theorem State.rolesBad_of_checkRecord {s s1 : State} {who : Req} {core : Option Nat} {p asid k : Nat} {r : BitVec 1024} {drain : Bool}
    (e : s.checkRecord who core p asid r drain = .code k s1) (hk : k = 0 ∨ k = 7) : Spec.rolesBad r = false := by
  by_contra hb
  rw [Bool.not_eq_false] at hb
  have hc : ∃ c l, s.recordCodes p r drain = c :: l ∧ (c = 3 ∨ c = 4) := by
    unfold State.recordCodes
    rw [hb]
    dsimp only
    split
    · exact ⟨3, _, rfl, .inl rfl⟩
    · exact ⟨4, _, rfl, .inr rfl⟩
  obtain ⟨c, l, hl, hc⟩ := hc
  rw [State.checkRecord, hl] at e
  cases e
  omega

theorem State.Canon.tellLauncher {s : State} (h : s.Canon P Q) {x : Posting} {code : Nat} : (s.tellLauncher x code).Canon P Q := by
  unfold State.tellLauncher
  split
  · exact h
  · extract_lets s1 s2
    have hs1 : s1.Canon P Q := h.upd (ops := fun h1 => Tab.Canon.del h1)
    have hs2 : s2.Canon P Q := hs1.mapGroup fun _ h1 => h1.deliver
    exact hs2.settleTeam

theorem State.Canon.finishPosting {s : State} (h : s.Canon P Q) {p : Nat} {x : Posting} {code : Nat} {write : Bool} :
    (s.finishPosting p x code write).Canon P Q := by
  unfold State.finishPosting
  extract_lets s1
  have hs1 : s1.Canon P Q := h.mapPart
  refine State.Canon.tellLauncher ?_
  split
  · exact hs1.writeStatus
  · exact hs1

theorem State.Canon.acceptRecord {s : State} (h : s.Canon P Q) {p : Nat} {x : Posting} {r : BitVec 1024} : (s.acceptRecord p x r).Canon P Q := by
  unfold State.acceptRecord
  split
  next _ s1 e => exact h.checkRecord.of_eq e
  next _ k s1 e =>
    have h1 : s1.Canon P Q := h.checkRecord.of_eq e
    split
    · exact h1.finishPosting
    next hk =>
      extract_lets g dep
      have hk : k = 0 := by simpa using hk
      have hg : g.Canon Q := fun _ => State.rolesBad_of_checkRecord e (.inl hk)
      clear_value g
      split
      · exact (h1.addGrid hg).finishPosting
      · split
        · exact (h1.addGrid hg).finishPosting
        · split
          next _ _ e3 =>
            exact h1.translate.of_eq e3
          next _ _ e3 =>
            exact ((h1.translate.of_eq e3).addGrid hg).finishPosting
          · exact ((h1.addGrid hg.upd).noteHubRead).finishPosting

theorem State.Canon.readPosting {s : State} (h : s.Canon P Q) {p : Nat} {x : Posting} : (s.readPosting p x).Canon P Q := by
  unfold State.readPosting
  split
  · exact h.finishPosting
  · exact h.finishPosting
  · split
    · exact h
    · exact h.noteHubRead.acceptRecord
  · split
    · exact h
    · split
      next _ _ e2 => exact h.pages.of_eq e2
      next _ _ _ e2 => exact (h.pages.of_eq e2).finishPosting
      · extract_lets l
        exact h.noteHubRead.noteHubRead.acceptRecord

theorem State.Canon.execRecordAcceptance {s : State} (h : s.Canon P Q) {p : Nat} : Out.Canon P Q (execRecordAcceptance p s) := by
  unfold Machine.execRecordAcceptance
  extract_lets s1
  have hs1 : s1.Canon P Q := h.retryStatus
  split
  · exact hs1
  · exact hs1.readPosting

theorem State.Canon.execLaunch {s : State} (h : s.Canon P Q) {d a : SReg} {ax : Bool} {la : BitVec 4} : Out.Canon P Q (execLaunch d a ax la s) := by
  unfold Machine.execLaunch
  refine h.byGroup (fun _ => h.raiseCurator) fun n n1 g e h1 => ?_
  split
  · exact h.raiseNow
  · split
    · exact h
    · split
      · trivial
      · extract_lets v loc
        split
        next _ _ _ e4 =>
          extract_lets s2 s3
          have hs2 : s2.Canon P Q := (State.Canon.of_snd e4 h.newOp).mapPart
          have hs3 : s3.Canon P Q := hs2.mapGroup fun _ h2 => h2.expect
          exact hs3.advance

theorem State.Canon.execLaunchAgentWake {s : State} (h : s.Canon P Q) {p : Nat} : Out.Canon P Q (Machine.execLaunchAgentWake p s) := by
  unfold Machine.execLaunchAgentWake
  extract_lets x hla n va asid
  split
  · exact h
  · split
    · exact h
    · split
      next _ _ e => exact h.translate.of_eq e
      next _ _ e => exact h.translate.of_eq e
      · extract_lets w s1
        have hs1 : s1.Canon P Q := h.noteHubRead
        clear_value s1 w n
        split
        · exact hs1
        · exact hs1.putPart

theorem State.Canon.execHostLaunchPort {s : State} (h : s.Canon P Q) {p addr : Nat} : Out.Canon P Q (execHostLaunchPort p addr s) := by
  unfold Machine.execHostLaunchPort
  split
  · exact h
  · exact h.mapPart

theorem State.Canon.drawFrom {s : State} (h : s.Canon P Q) {l : List Nat} : (s.drawFrom l).2.Canon P Q := by
  unfold State.drawFrom
  split
  · dsimp only
    exact h
  · split
    next _ _ _ e1 =>
      dsimp only
      exact .of_snd e1 h.draw

/-- What a team may start from: groups of at most 96 lanes, numbered below 64. -/
def Spec.Fits (x : Spec) : Prop := x.groups.length ≤ 64 ∧ ∀ e ∈ x.groups, e.live ≤ 96

theorem Group.Canon.fresh {i : Nat} (hi : Q → i < 64) {x : GSpec} (hx : Q → x.live ≤ 96) {core slot : Nat} {r : BitVec 1024} :
    (Group.fresh i x core slot r).Canon Q i :=
  fun hq => ⟨(Nat.mod_eq_of_lt (hi hq)).symm, hx hq, Cells.setAll_wf rfl _, rfl, rfl, rfl, rfl, rfl, rfl, rfl⟩

theorem Team.Canon.fresh {t n id : Nat} {x : Spec} {r : BitVec 1024} {core e1 e2 : Nat} : (Team.fresh t n id x r core e1 e2).Canon Q :=
  fun _ => ⟨rfl, rfl⟩

theorem State.Canon.startGroup {s : State} (h : s.Canon P Q) {t core : Nat} {r : BitVec 1024} {idx m : Nat} {x : GSpec} {f : Group → Group}
    (hi : Q → idx < 64) (hx : Q → x.live ≤ 96) (hf : ∀ i g, g.Canon Q i → (f g).Canon Q i) : (s.startGroup t core r idx m x f).Canon P Q :=
  h.drawFrom.putGroup (hf _ _ (.fresh hi hx))

theorem State.Canon.startTeam {s : State} (h : s.Canon P Q) {grid : Nat} {g : Grid} {id : Nat} {x : Spec} {core : Nat} {f : Nat → Group → Group}
    (hx : Q → x.Fits) (hf : ∀ i n g, g.Canon Q i → (f n g).Canon Q i) : (s.startTeam grid g id x core f).Canon P Q := by
  unfold State.startTeam
  extract_lets t s1
  have hs1 : s1.Canon P Q := h.upd
  split
  next e1 s2 he1 =>
    have hs2 : s2.Canon P Q := .of_snd he1 hs1.drawFrom
    split
    next e2 s3 he2 =>
      have hs3 : s3.Canon P Q := by
        split at he2
        · exact .of_snd he2 hs2.drawFrom
        · cases he2
          exact hs2
      refine (hs3.putTeam .fresh).foldl fun s hs e he => hs.startGroup (fun hq => ?_) (fun hq => ?_) (fun _ _ => hf _ _ _)
      · have hlt := List.snd_lt_of_mem_zipIdx he
        have hle := (hx hq).1
        omega
      · exact (hx hq).2 _ (List.fst_mem_of_mem_zipIdx he)

theorem State.Canon.dropGrid {s : State} (h : s.Canon P Q) {n : Nat} {g : Grid} : (s.dropGrid n g).Canon P Q := by
  unfold State.dropGrid
  extract_lets s1
  have hs1 : s1.Canon P Q := h.upd (grids := fun h1 => Tab.Canon.del h1)
  exact hs1.mapPart

theorem State.Canon.setLevels {s : State} (h : s.Canon P Q) {p : Nat} {f : FEnt → Nat} : (s.setLevels p f).Canon P Q := by
  unfold State.setLevels
  refine h.upd (grids := fun h1 => Tab.Canon.map h1 (fun a => ?_) fun a h2 h3 => ?_)
  · split
    · split
      · split
        · rfl
        · rfl
      · rfl
    · rfl
  · change Grid.Canon Q _
    split
    · split
      · split
        · dsimp -zeta only
          extract_lets src
          exact (h.grid_mem h2).upd
        · exact h.grid_mem h2
      · exact h.grid_mem h2
    · exact h.grid_mem h2

theorem State.Canon.levels {s : State} (h : s.Canon P Q) {p n : Nat} : (State.levels p n s).Canon P Q := by
  induction n generalizing s with
  | zero => exact h
  | succ n ih => exact ih h.setLevels

theorem State.Canon.relevel {s : State} (h : s.Canon P Q) {p : Nat} : (s.relevel p).Canon P Q := h.setLevels.levels

theorem State.Canon.fenceCheck {s : State} (h : s.Canon P Q) {p : Nat} : (s.fenceCheck p).Canon P Q := by
  unfold State.fenceCheck
  refine h.foldl fun s1 h1 a h2 => ?_
  split
  · split
    · exact h1.upd (groups := fun h3 => Tab.Canon.set h3 (((h.group_mem h2).upd).advance))
    · exact h1
  · exact h1

theorem State.Canon.completeFiling {s : State} (h : s.Canon P Q) {p : Nat} {f : Filing} : (s.completeFiling p f).Canon P Q := by
  unfold State.completeFiling
  extract_lets x s1 s2
  have hs1 : s1.Canon P Q := h.putPart
  have hs2 : s2.Canon P Q := hs1.upd (ops := fun h1 => Tab.Canon.del h1)
  split
  · exact hs1
  · refine (hs2.mapGroup fun g h1 => Group.Canon.deliver ?_).settleTeam
    split
    · exact h1.upd.advance
    · exact h1

theorem State.Canon.fileParked {s : State} (h : s.Canon P Q) {p : Nat} : (s.fileParked p).Canon P Q := by
  unfold State.fileParked
  split
  · exact h
  · split
    · exact h.mapPart.completeFiling.relevel
    · exact h

theorem State.Canon.commitEntry {s : State} (h : s.Canon P Q) {p acc : Nat} : (s.commitEntry p acc).Canon P Q := h.mapPart.fenceCheck.relevel

theorem State.Canon.markEntry {s : State} (h : s.Canon P Q) {p acc : Nat} {st : FState} {grid : Nat} : (s.markEntry p acc st grid).Canon P Q :=
  h.mapPart.relevel

theorem State.Canon.fileCheck {s : State} (h : s.Canon P Q) {t i : Nat} {g : Group} {ab gb tb : ShapeBits} {r : SReg} : State.FileCheck.Canon P Q
    (s.fileCheck t i g ab gb tb r) := by
  unfold State.fileCheck
  extract_lets p asid va
  split
  · exact h
  · split
    · exact h
    · split
      · exact h
      · split
        next _ _ e3 => exact h.pages.of_eq e3
        next _ _ _ e3 => exact h.pages.of_eq e3
        · extract_lets l rec'
          split
          next _ _ e4 => exact h.checkRecord.of_eq e4
          next _ _ _ e4 =>
            extract_lets s2
            have hs2 : s2.Canon P Q := ((h.checkRecord.of_eq e4).noteRead).noteRead
            split
            · exact hs2
            · split
              · exact hs2
              · split
                · exact hs2
                · exact hs2

theorem State.Canon.fileNow {s : State} (h : s.Canon P Q) {t i : Nat} {g : Group} {f : Filing} {r : SReg} : (s.fileNow t i g f r).Canon P Q := by
  unfold State.fileNow
  extract_lets p x fit again count s1
  have hs1 : s1.Canon P Q := by
    unfold s1
    split
    · exact h.putPart.mapGroup fun _ h1 => h1.setSticky
    · exact h
  split
  · exact h
  · split
    · exact hs1.drainSfu.mapGroup fun _ h1 => h1.enterHandler
    · split
      next _ _ _ e2 =>
        extract_lets f1 s3
        have hs3 : s3.Canon P Q := (State.Canon.of_snd e2 hs1.newOp).mapGroup fun _ h1 => h1.expect
        split
        · exact hs3.advance.completeFiling.relevel
        · exact hs3.mapPart.park.relevel

theorem State.Canon.execBkfile {s : State} (h : s.Canon P Q) {a x : ShReg} {r : SReg} {last : Bool} {tg : ShReg} : Out.Canon P Q
    (execBkfile a x r last tg s) := by
  unfold Machine.execBkfile
  refine h.byGroup (fun _ => h.raiseCurator) fun n n1 g e h1 => ?_
  split
  · exact h
  · extract_lets ab gb tb
    split
    next _ _ _ _ _ e2 => exact (h.fileCheck.of_eq e2).raiseNow
    next _ _ e2 => exact h.fileCheck.of_eq e2
    next _ _ _ e2 =>
      extract_lets f
      exact (h.fileCheck.of_eq e2).fileNow

theorem State.Canon.execFilingComplete {s : State} (h : s.Canon P Q) {p : Nat} : Out.Canon P Q (execFilingComplete p s) := h.fileParked

theorem State.Canon.execBkstat {s : State} (h : s.Canon P Q) {d : SReg} {n : BitVec 11} : Out.Canon P Q (execBkstat d n s) := by
  unfold Machine.execBkstat
  refine h.byGroup (fun _ => h.raiseCurator) fun n1 n2 g e h1 => ?_
  split
  · exact h.raiseNow
  · split
    · exact h
    · exact h.setS.advance

theorem State.Canon.fenceOn {s : State} (hs : s.Canon P Q) {t i : Nat} {g : Group} {h : Option Nat} : (s.fenceOn t i g h).Canon P Q := by
  unfold State.fenceOn
  extract_lets p n
  split
  · exact hs.park.relevel
  · exact hs.advance

theorem State.Canon.execBkfence {s : State} (h : s.Canon P Q) {a : SReg} : Out.Canon P Q (execBkfence a s) := by
  unfold Machine.execBkfence
  refine h.byGroup (fun _ => h.raiseCurator) fun n n1 g e h1 => ?_
  split
  · exact h.raiseNow
  · split
    · exact h.raiseNow
    · split
      · exact h
      · split
        · exact h.raiseNow
        · exact h.fenceOn

theorem State.Canon.execBkfenceAll {s : State} (h : s.Canon P Q) : Out.Canon P Q (execBkfenceAll s) :=
  h.byGroup (fun _ => h.raiseCurator) fun _ _ _ _ _ => h.fenceOn

theorem State.Canon.launchDrain {s : State} (h : s.Canon P Q) {p : Nat} {e : FEnt} {wait : State → State}
    (hw : ∀ s, s.Canon P Q → (wait s).Canon P Q) : (s.launchDrain p e wait).Canon P Q := by
  unfold State.launchDrain
  split
  next _ s1 e1 => exact hw _ (h.checkRecord.of_eq e1)
  next _ s1 e1 =>
    have h1 : s1.Canon P Q := h.checkRecord.of_eq e1
    have hr := State.rolesBad_of_checkRecord e1 (.inl rfl)
    extract_lets g n s2
    have hs2 : s2.Canon P Q := h1.addGrid fun _ => hr
    exact hs2.mapPart.markEntry
  next _ _ s1 _ e1 =>
    have h1 : s1.Canon P Q := h.checkRecord.of_eq e1
    exact h1.markEntry

theorem State.Canon.execDrainLaunch {s : State} (h : s.Canon P Q) {p : Nat} : Out.Canon P Q (execDrainLaunch p s) := by
  unfold Machine.execDrainLaunch
  extract_lets l
  split
  · exact h.launchDrain fun _ h1 => h1
  · exact h

theorem State.Canon.relaunchFailed {s : State} (h : s.Canon P Q) {p : Nat} : (s.relaunchFailed p).Canon P Q := by
  unfold State.relaunchFailed
  split
  · exact h.launchDrain fun _ h1 => h1.markEntry
  · exact h

theorem State.Canon.discardFailed {s : State} (h : s.Canon P Q) {p : Nat} : (s.discardFailed p).Canon P Q := by
  unfold State.discardFailed
  split
  · exact h.commitEntry
  · exact h

theorem State.Canon.resetAcc {s : State} (h : s.Canon P Q) {p : Nat} : (s.resetAcc p).Canon P Q := by
  unfold State.resetAcc
  split
  · exact h.mapPart
  · exact h

theorem State.Canon.execFactRelaunch {s : State} (h : s.Canon P Q) {p : Nat} : Out.Canon P Q (execFactRelaunch p s) := h.relaunchFailed

theorem State.Canon.execFactDiscard {s : State} (h : s.Canon P Q) {p : Nat} : Out.Canon P Q (execFactDiscard p s) := h.discardFailed

theorem State.Canon.execAccreset {s : State} (h : s.Canon P Q) {p : Nat} : Out.Canon P Q (execAccreset p s) := h.resetAcc

theorem State.Canon.execStget {s : State} (h : s.Canon P Q) {d a : SReg} : Out.Canon P Q (execStget d a s) := by
  unfold Machine.execStget
  refine h.byGroup (fun _ => h.raiseCurator) fun n n1 g e h1 => ?_
  split
  · exact h.raiseNow
  · split
    · exact h
    · split
      · exact h.raiseNow
      · extract_lets z s1 s2
        have hs1 : s1.Canon P Q := h.foldl fun _ h2 _ _ => h2.setS
        have hs2 : s2.Canon P Q := by
          unfold s2
          split
          · exact hs1.mapGroup fun _ h2 => h2.upd
          · exact hs1
        exact hs2.advance

theorem State.Canon.execStclr {s : State} (h : s.Canon P Q) {a : SReg} : Out.Canon P Q (execStclr a s) := by
  unfold Machine.execStclr
  refine h.byGroup (fun _ => h.raiseCurator) fun n n1 g e h1 => ?_
  split
  · exact h
  · split
    · exact h.raiseNow
    · split
      · exact h
      · extract_lets n2
        split
        next _ _ _ e4 =>
          extract_lets s2
          have hs2 : s2.Canon P Q := ((State.Canon.of_snd e4 h.newOp).mapStat).advance
          exact (hs2.upd (ops := fun h2 => Tab.Canon.del h2)).leaveCounter

end Sys2Proof.Machine
end

