-- ==== Sys2Proof/Proofs/CanonicalContext.lean ====
section
set_option Elab.async false

/-! PROOF. The canonical form and teams that are saved, restored, admitted and moved. -/

namespace Sys2Proof.Machine

open Sys2Proof

variable {P Q : Prop}

theorem Group.winBase_wf {g : Group} {m : Memory} {b : Nat} {lane : Bool} {n : Nat} {img : Cells 32} (h : img.wf = true) :
    (g.winBase m b lane n img).wf = true := by
  refine Cells.foldl_wf h fun c k hc => Cells.foldl_wf hc fun c r hc => Cells.foldl_wf hc fun c l hc => ?_
  split
  · exact Cells.set_wf hc _ _
  · exact hc

theorem Group.Canon.ofImage {g : Group} {i : Nat} (h : g.Canon Q i) {m : Memory} {b : Nat} {xl : Nat → Option Nat} :
    (g.ofImage m b xl).Canon Q i := by
  unfold Group.ofImage
  split
  · exact h
  · extract_lets w x flags depth ns nl regS regV pend ww wait run spc lpc fw cnt hw here g1 g2 g3
    have hg1 : g1.Canon Q i := h.upd
    have hg2 : g2.Canon Q i := hg1.upd
    have hg3 : g3.Canon Q i := hg2.upd
    clear_value g3 pend
    have hS : (g.winBase m b false ns regS).wf = true := winBase_wf (Cells.set_wf Cells.getCells_wf _ _)
    have hV : (g.winBase m b true nl regV).wf = true := winBase_wf Cells.getCells_wf
    dsimp -zeta only
    extract_lets g4
    have hg4 : g4.Canon Q i := by
      unfold g4
      refine hg3.upd (s := fun _ => ?_) (v := fun _ => ?_) (k := fun _ => ?_) (sh := fun _ => ?_) <;> dsimp only
      · exact Cells.set_wf hS _ _
      · exact hV
      · exact Cells.foldl_wf rfl fun _ _ h => Cells.set_wf h _ _
      · exact Cells.getCells_wf
    clear_value g4
    refine hg4.upd (tags := fun _ => ?_) (scar := fun _ => ?_) <;> dsimp only
    · exact Cells.getCells_wf
    · exact Cells.foldl_wf rfl fun _ _ h => Cells.foldl_wf h fun _ _ h => Cells.set_wf h _ _

theorem Group.Canon.putWord {g : Group} {i : Nat} (h : g.Canon Q i) {off v : Nat} {xl : Nat → Option Nat} : (g.putWord off v xl).Canon Q i := by
  unfold Group.putWord
  extract_lets g1 live l
  have hg1 : g1.Canon Q i := h.ofImage
  split
  · split
    · exact hg1.rowsWritten
    · exact hg1
  · refine hg1.upd (ctxH := fun e => ?_)
    split
    · exact Tab.wf_del e
    · exact Tab.set_wf e _ _

theorem State.Canon.setWaitRec {s : State} (h : s.Canon P Q) {t : Nat} {e : Nat × Bool × List Nat} {w : List Nat} : (s.setWaitRec t e w).Canon P Q := by
  unfold State.setWaitRec
  extract_lets placed
  split
  · refine h.mapGroup fun g h1 => ?_
    split
    · exact h1.upd
    · exact h1
  · split
    · exact h.putOp
    · exact h.putOp
    · exact h.putOp
    · exact h.putOp
    · exact h
  · exact h

theorem State.Canon.holdWords {s : State} (h : s.Canon P Q) {t : Nat} {m : Memory} {cwin : Bool} : (s.holdWords t m cwin).Canon P Q := by
  unfold State.holdWords
  extract_lets gs
  exact h.mapTeam fun _ h1 => h1.upd

theorem State.Canon.takeWaitRecs {s : State} (h : s.Canon P Q) {t : Nat} {x : Team} {m : Memory} {cwin : Bool} : (s.takeWaitRecs t x m cwin).Canon P
    Q := by
  unfold State.takeWaitRecs
  refine (h.foldl fun s1 h1 a h2 => ?_).holdWords
  extract_lets w
  split
  · exact h1
  · exact h1.setWaitRec

theorem State.Canon.addRecOp {s : State} (h : s.Canon P Q) {t : Nat} {e : Nat × DWord × Word × OpKind} : (s.addRecOp t e).Canon P Q := by
  unfold State.addRecOp
  split
  · exact h
  next _ _ e1 =>
    split
    · exact h
    · split
      · extract_lets h1 s1 s2
        have hs1 : s1.Canon P Q := h.upd (ops := fun h2 => Tab.Canon.set h2 fun _ => trivial)
        have hs2 : s2.Canon P Q := hs1.putGroup ((h.group e1).upd)
        split
        · exact hs2.mapTeam fun _ h2 => h2.upd
        · exact hs2

theorem State.Canon.countRecs {s : State} (h : s.Canon P Q) {t : Nat} {m : Memory} : (s.countRecs t m).Canon P Q := by
  unfold State.countRecs
  split
  · exact h
  · exact h.foldl fun _ h1 _ h2 => h1.putGroup ((h.groupsOf h2).upd)

theorem State.Canon.writeImage {s : State} (h : s.Canon P Q) {loc : Nat → Loc} {m : Memory} {n : Nat} : (s.writeImage loc m n).Canon P Q :=
  h.foldl fun _ h1 _ _ => h1.setBytes

theorem State.Canon.noteRows {s : State} (h : s.Canon P Q) {loc : Nat → Loc} {rows : List Nat} {curator : Option Nat} :
    (s.noteRows loc rows curator).Canon P Q := by
  unfold State.noteRows
  split
  · exact h
  · refine h.foldl fun s1 h1 n h2 => ?_
    split
    · exact h1.noteRead
    · exact h1.noteHubRead

theorem State.Canon.noteImage {s : State} (h : s.Canon P Q) {loc : Nat → Loc} {n : Nat} {curator : Option Nat} : (s.noteImage loc n curator).Canon P
    Q := h.noteRows

theorem State.Canon.noteBadRows {s : State} (h : s.Canon P Q) {t : Nat} {x : Team} : (s.noteBadRows t x).Canon P Q := by
  unfold State.noteBadRows
  extract_lets mc none' s1 s2 s3
  have hs1 : s1.Canon P Q := by
    refine h.foldl fun s4 h1 a h2 => ?_
    split
    · exact h1.machineCheck
    · exact h1
  have hs2 : s2.Canon P Q := hs1.foldl fun _ h1 _ _ => h1.foldl fun _ h3 _ _ => h3.machineCheck
  have hs3 : s3.Canon P Q := hs2.foldl fun _ h1 _ _ => h1.machineCheck
  refine hs3.foldl fun s4 h1 n h2 => h1.foldl fun s5 h3 a h4 => ?_
  split
  · split
    · exact h3.machineCheck
    · exact h3
  · split
    · exact h3.machineCheck
    · exact h3

theorem State.Canon.unfile {s : State} (h : s.Canon P Q) {t : Nat} {g : Group} : (s.unfile t g).Canon P Q := by
  unfold State.unfile
  split
  · extract_lets p s1
    have hs1 : s1.Canon P Q := ((h.upd (ops := fun h1 => Tab.Canon.del h1)).mapPart).relevel
    exact hs1.mapGroup fun _ h1 => h1.upd
  · exact h

theorem State.Canon.saveReady {s : State} (h : s.Canon P Q) {t : Nat} : (s.saveReady t).Canon P Q :=
  (h.foldl fun _ h1 _ _ => h1.unfile.mapGroup fun _ h3 => h3.upd).sweepCloses

theorem State.Canon.unloadTeam {s : State} (h : s.Canon P Q) {t : Nat} {slot : Option Nat} {resume : Bool} :
    (s.unloadTeam t slot resume).Canon P Q := by
  unfold State.unloadTeam
  split
  · exact h
  next _ x hx =>
    extract_lets y s1
    have hs1 : s1.Canon P Q := h.foldl fun _ h1 _ _ => h1.releaseAcc.mapCore fun _ h2 => h2.upd
    refine (hs1.upd (teams := fun h1 => h1.del) (groups := fun h1 => h1.filter) (saved := fun h1 hq z hz => ?_)).dropErrs
    rcases List.mem_append.1 hz with hz | hz
    · exact h1 hq z hz
    · cases List.mem_singleton.1 hz
      exact fun g hg => ⟨by have := (h.groupsOf hg hq).1; omega, (h.groupsOf hg hq).2⟩

theorem State.Canon.saveTeam {s : State} (h : s.Canon P Q) {t : Nat} {loc : Nat → Loc} {slot : Option Nat} {resume : Bool} :
    (s.saveTeam t loc slot resume).Canon P Q := by
  unfold State.saveTeam
  split
  · exact h
  · extract_lets s1
    have hs1 : s1.Canon P Q := h.saveReady
    exact hs1.noteBadRows.writeImage.unloadTeam

theorem State.Canon.moveTeam {s : State} (h : s.Canon P Q) {t : Nat} {load : State → Saved → Memory → State}
    (hload : ∀ s y m, s.Canon P Q → y.Canon Q → (load s y m).Canon P Q) : (s.moveTeam t load).Canon P Q := by
  unfold State.moveTeam
  split
  · exact h
  · extract_lets s1 m s2
    have hs1 : s1.Canon P Q := h.saveReady
    have hs2 : s2.Canon P Q := hs1.noteBadRows.unloadTeam
    split
    next _ y hy => exact hload _ _ _ hs2 (hs2.saved_mem (List.mem_of_find?_eq_some hy))
    · exact hs2

theorem State.Canon.placeSaved {s : State} (h : s.Canon P Q) {t c m : Nat} {g : Group} (hg : g.Canon Q g.idx) :
    (s.placeSaved t c m g).Canon P Q := by
  unfold State.placeSaved
  split
  · exact h.putGroup hg.upd
  · split
    next _ _ _ e1 =>
      exact (State.Canon.of_snd e1 h.drawFrom).putGroup hg.upd

theorem State.Canon.unwatch {s : State} (h : s.Canon P Q) {t : Nat} : (s.unwatch t).Canon P Q := by
  unfold State.unwatch
  extract_lets s1
  have hs1 : s1.Canon P Q := h.mapTeam fun _ h1 => h1.upd
  refine hs1.foldl fun s2 h1 g h2 => ?_
  split
  · exact h1.putGroup ((hs1.groupsOf h2).upd)
  · exact h1.putGroup ((hs1.groupsOf h2).upd)
  · exact h1

theorem State.Canon.rewait {s : State} (h : s.Canon P Q) {t p asid : Nat} {g : Group} (hg : g.Canon Q g.idx) :
    (s.rewait t p asid g).Canon P Q := by
  unfold State.rewait
  split
  · exact h.putGroup hg.upd
  · split
    · exact h.putGroup hg.upd.advance
    · exact h
  · split
    · exact h.putGroup hg.upd
    · refine State.Canon.noteRead ?_
      split
      · exact h.putGroup hg.upd.advance
      · exact h.putGroup hg.upd
  · split
    · exact h.putGroup hg.upd
    · refine State.Canon.noteRead ?_
      split
      · exact h.putGroup hg.upd.advance
      · exact h.putGroup hg.upd
  · split
    · exact h.putGroup hg.upd
    · exact h
  · exact h.putGroup hg.wakeYield
  · exact h

theorem State.Canon.resym {s : State} (h : s.Canon P Q) {t p asid n : Nat} {y : Sym} : (s.resym t p asid n y).Canon P Q := by
  unfold State.resym
  split
  · extract_lets fp vp put
    split
    · exact h.mapTeam fun _ h1 => h1.upd
    · exact (h.mapTeam fun _ h1 => h1.upd).noteRead
  · exact h

theorem State.Canon.restoreAcc {s : State} (h : s.Canon P Q) {t c : Nat} {m : Memory} {base : Nat} {h0 h1 : Option Hold} :
    (s.restoreAcc t c m base h0 h1).Canon P Q := by
  unfold State.restoreAcc
  extract_lets mine clean s1
  have hs1 : s1.Canon P Q := by
    unfold s1
    split
    · refine h.mapCore fun _ h2 => h2.upd (a0 := fun _ => ?_)
      dsimp only [clean]
      exact Cells.getCells_wf
    · exact h
  split
  · refine hs1.mapCore fun _ h2 => h2.upd (a1 := fun _ => ?_)
    dsimp only [clean]
    exact Cells.getCells_wf
  · exact hs1

theorem State.teamOfImage_cb {x : Team} {m : Memory} {xl : Nat → Option Nat} : (State.teamOfImage x m xl).cb.wf = true := by
  unfold State.teamOfImage
  dsimp only
  exact Cells.getCells_wf

theorem Team.Canon.teamOfImage {x : Team} {m : Memory} {xl : Nat → Option Nat} (h : x.Canon Q) : (State.teamOfImage x m xl).Canon Q :=
  fun hq => by
    obtain ⟨htm, -⟩ := h hq
    refine ⟨?_, State.teamOfImage_cb⟩
    unfold State.teamOfImage
    exact htm

theorem Saved.Canon.heldAs {y : Saved} (h : y.Canon Q) {w : Nat} : (State.heldAs y w).Canon Q := by
  unfold State.heldAs
  split
  · exact h
  · exact h

theorem State.mem_blockOffs {x : Team} {gs : List Group} {e : Group × Nat} (h : e ∈ State.blockOffs x gs) : e.1 ∈ gs := by
  have hkey : ∀ (l : List Group) (r : Nat × List (Group × Nat)),
      e ∈ (l.foldl (fun (r : Nat × List (Group × Nat)) g => (r.1 + g.blockSize, r.2 ++ [(g, r.1)])) r).2 → e ∈ r.2 ∨ e.1 ∈ l := by
    intro l
    induction l with
    | nil => exact fun r h => .inl h
    | cons g l ih =>
      intro r h
      rcases ih _ h with h | h
      · rcases List.mem_append.1 h with h | h
        · exact .inl h
        · cases List.mem_singleton.1 h
          exact .inr List.mem_cons_self
      · exact .inr (List.mem_cons_of_mem _ h)
  exact (hkey gs _ h).resolve_left (fun h => nomatch h)

theorem Saved.Canon.group {y : Saved} (h : y.Canon Q) {g : Group} (hg : g ∈ y.groups) : g.Canon Q g.idx := fun hq =>
  ⟨(Nat.mod_eq_of_lt (h hq g hg).1).symm, (h hq g hg).2⟩

theorem State.Canon.loadTeam {s : State} (h : s.Canon P Q) {y : Saved} (hy : y.Canon Q) {m : Memory} {c : Nat} : (s.loadTeam y m c).Canon P Q := by
  unfold State.loadTeam
  extract_lets new y1 t p asid xl old coreFor x offs tm spills gs num
  have hgs : ∀ g ∈ gs, g.Canon Q g.idx := fun g hg => by
    obtain ⟨e, he, rfl⟩ := List.mem_map.1 hg
    have he : e.1.Canon Q e.1.idx := Saved.Canon.group hy.heldAs (State.mem_blockOffs he)
    have hn := (he.ofImage (m := m) (b := e.2) (xl := xl)).upd (ctxH := fun _ => rfl)
      (g' := { e.1.ofImage m e.2 xl with badV := [], ctxH := [], skidMax := 0, stepping := false, stall := none })
    dsimp only
    split
    · refine (hn.upd (spill := fun _ => ?_)).self
      dsimp only
      exact Cells.getCells_wf
    · exact hn.self
  have htm : tm.wf = true := Cells.getCells_wf
  have hcb : x.cb.wf = true := State.teamOfImage_cb
  clear_value gs x tm
  split
  next e1 s1 he1 =>
    have hs1 : s1.Canon P Q := .of_snd he1 h.drawFrom
    split
    next e2 s2 he2 =>
      have hs2 : s2.Canon P Q := by
        split at he2
        · exact .of_snd he2 hs1.drawFrom
        · cases he2
          exact hs1
      extract_lets s3 s4 s5 s6 s7 s8 s9 s10 s11 s12
      have hs3 : s3.Canon P Q := hs2.putTeam fun _ => ⟨htm, hcb⟩
      have hs4 : s4.Canon P Q := hs3.foldl fun _ h1 g hg => h1.placeSaved (hgs g hg)
      have hs5 : s5.Canon P Q := hs4.restoreAcc
      have hs6 : s6.Canon P Q := by
        unfold s6
        split
        · exact hs5.restoreAcc
        · exact hs5
      have hs7 : s7.Canon P Q := by
        refine hs6.upd (saved := fun h1 hq z hz => h1 hq z (List.mem_filter.1 hz).1)
          (ops := fun h1 => Tab.Canon.map h1 (fun a => ?_) fun _ _ _ _ => trivial)
        split
        · rfl
        · rfl
      have hs8 : s8.Canon P Q := by
        unfold s8
        split
        · exact (hs7.foldl fun _ h1 _ _ => h1.addRecOp).countRecs
        · exact hs7
      have hs9 : s9.Canon P Q := hs8.takeWaitRecs.unwatch
      have hs10 : s10.Canon P Q := hs9.foldl fun _ h1 _ _ => h1.resym
      have hs11 : s11.Canon P Q := hs10.foldl fun _ h1 _ hg => h1.rewait (hs10.groupsOf hg)
      exact hs11.fenceCheck.barrierCheck.relevel

theorem State.Canon.resumeTeam {s : State} (h : s.Canon P Q) {t : Nat} : (s.resumeTeam t).Canon P Q :=
  (h.mapTeam fun _ h1 => h1.upd).foldl fun _ h1 _ h2 => h1.putGroup ((h.groupsOf h2).upd)

theorem State.Canon.slotPages {s : State} (h : s.Canon P Q) {k : Kind} {p i n : Nat} : State.Pages.Canon P Q (s.slotPages k p i n) := h.pages

theorem State.Canon.restoreFrom {s : State} (h : s.Canon P Q) {y : Saved} (hy : y.Canon Q) {tab : List (Nat × Nat)} {c : Nat} :
    (s.restoreFrom y tab c).Canon P Q := by
  unfold State.restoreFrom
  extract_lets l n m s1
  have hs1 : s1.Canon P Q := h.noteImage.loadTeam hy
  split
  · exact hs1.resumeTeam
  · exact hs1

theorem Group.Canon.drainStart {g : Group} {i : Nat} (h : g.Canon Q i) {e : FEnt} : (State.drainStart e g).Canon Q i :=
  h.upd (s := fun e1 => Cells.setAll_wf e1 _) (sh := fun e1 => Cells.setAll_wf e1 _)

theorem Group.Canon.handlerStart {g : Group} {i : Nat} (h : g.Canon Q i) {gr : Grid} {id : Nat} : (State.handlerStart gr id g).Canon Q i := by
  unfold State.handlerStart
  extract_lets os m v
  refine h.upd (live := fun _ => List.length_take_le _ _) (s := fun e => Cells.setAll_wf e _) (v := fun _ => ?_)
  exact Cells.foldl_wf rfl fun _ _ h1 => Cells.foldl_wf h1 fun _ _ h2 => Cells.set_wf h2 _ _

theorem Group.Canon.startWith {g : Group} {i : Nat} (h : g.Canon Q i) {s : State} {gr : Grid} {id n : Nat} : (State.startWith s gr id n g).Canon Q i := by
  unfold State.startWith
  split
  · split
    · exact h.drainStart
    · exact h
  · exact h.handlerStart
  · exact h

theorem Grid.Canon.admitted {Q : Prop} {g : Grid} (h : g.Canon Q) {ids : List Nat} : (State.Grid.admitted g ids).Canon Q := by
  unfold State.Grid.admitted
  extract_lets S u
  split
  · exact h
  · split
    · exact h
    · split
      · exact h
      · split
        · exact h
        · exact h

/-- A saved team that is to be admitted. -/
def AUnit.Canon (Q : Prop) : AUnit → Prop
  | .restore y => y.Canon Q
  | .fresh _ _ => True

/-- The roles of a record that has passed their check give at most 32 groups of at most 96 lanes. -/
theorem Spec.fits_of {r : BitVec 1024} (h : Spec.rolesBad r = false) {drain : Bool} : (Spec.of r drain).Fits := by
  simp only [Spec.rolesBad, Bool.or_eq_false_iff] at h
  obtain ⟨⟨⟨⟨-, hlive⟩, hlen⟩, -⟩, -⟩ := h
  refine ⟨?_, fun e he => ?_⟩
  · change (specGroups (Rec.paired r) (Rec.roles r)).length ≤ 64
    split at hlen
    next hp =>
      have hside : ∀ e ∈ specGroups (Rec.paired r) (Rec.roles r), e.side = 0 ∨ e.side = 1 := fun e he => by
        obtain ⟨x, -, hx⟩ := List.mem_flatMap.1 he
        obtain ⟨n, -, rfl⟩ := List.mem_map.1 hx
        split
        · exact .inl rfl
        · exact Nat.mod_two_eq_zero_or_one n
      have hsum : ∀ l : List GSpec, (∀ e ∈ l, e.side = 0 ∨ e.side = 1) →
          l.length = (l.filter fun g => g.side == 0).length + (l.filter fun g => g.side == 1).length := fun l hl => by
        induction l with
        | nil => rfl
        | cons a l ih =>
          have hr := ih fun e he => hl e (List.mem_cons_of_mem _ he)
          rcases hl a List.mem_cons_self with ha | ha <;> simp [ha, hr] <;> omega
      have := hsum _ hside
      simp only [Bool.or_eq_false_iff, decide_eq_false_iff_not] at hlen
      omega
    · simp only [Bool.or_eq_false_iff, decide_eq_false_iff_not] at hlen
      omega
  · obtain ⟨x, hx, he⟩ := List.mem_flatMap.1 he
    obtain ⟨n, -, rfl⟩ := List.mem_map.1 he
    have hx := List.any_eq_false.1 hlive x hx
    have hle : x.live ≤ 96 := by
      by_contra hgt
      exact hx (by simp [show 96 < x.live by omega])
    split
    · exact hle
    · exact hle

theorem State.Canon.admitUnit {s : State} (h : s.Canon P Q) {u : AUnit} (hu : u.Canon Q) {cores : List Nat} : (s.admitUnit u cores).Canon P Q := by
  unfold State.admitUnit
  split
  · exact h
  next _ g hg =>
    split
    next _ y =>
      split
      next _ _ e => exact h.slotPages.of_eq e
      next _ _ _ e => exact h.slotPages.of_eq e
      · extract_lets s1
        have hs1 : s1.Canon P Q := h.restoreFrom hu
        split
        next _ _ e => exact hs1.putGrid ((hs1.grid e).upd)
        · exact hs1
    · extract_lets begun x s1 s2
      have hs1 : s1.Canon P Q := h.putGrid (h.grid hg).admitted
      have hs2 : s2.Canon P Q :=
        hs1.foldl fun _ h1 _ _ => h1.startTeam (fun hq => Spec.fits_of (h.grid hg hq)) fun _ _ _ h3 => h3.startWith
      split
      · exact hs2
      · exact hs2.writeStatus

theorem State.Canon.admitFrom_fst {s : State} (h : s.Canon P Q) {p : Nat} {l : List AUnit} (hl : ∀ u ∈ l, u.Canon Q) :
    State.Opt.Canon P Q (s.admitFrom p l).1 := by
  induction l generalizing s with
  | nil => trivial
  | cons u r ih =>
    unfold State.admitFrom
    extract_lets hs lvl head mine ok s2
    have hr := fun v hv => hl v (List.mem_cons_of_mem u hv)
    split
    · extract_lets s1
      have hs1 : s1.Canon P Q := h.admitUnit (hl u List.mem_cons_self)
      split
      · exact hs1.mapPart
      · exact hs1
    · have hs2 : s2.Canon P Q := by
        unfold s2
        split
        · exact h.mapPart
        · exact h
      exact ih hs2 hr

theorem State.Canon.admitFrom {s : State} (h : s.Canon P Q) {p : Nat} {l : List AUnit} : (s.admitFrom p l).2.Canon P Q := by
  induction l generalizing s with
  | nil => exact h
  | cons u r ih =>
    unfold State.admitFrom
    extract_lets hs lvl head mine ok s2
    split
    · exact h
    · have hs2 : s2.Canon P Q := by
        unfold s2
        split
        · exact h.mapPart
        · exact h
      exact ih hs2

theorem State.Canon.queue {s : State} (h : s.Canon P Q) {p : Nat} : ∀ u ∈ s.queue p, u.Canon Q := by
  intro u hu
  obtain ⟨e, -, hu⟩ := List.mem_flatMap.1 hu
  unfold State.unitsOf at hu
  split at hu
  · cases hu
  · rcases List.mem_append.1 hu with hu | hu
    · obtain ⟨id, -, hu⟩ := List.mem_filterMap.1 hu
      obtain ⟨y, hy, rfl⟩ := Option.map_eq_some_iff.1 hu
      exact h.saved_mem (List.mem_of_find?_eq_some hy)
    · unfold State.freshUnits at hu
      extract_lets S T none' lim isHead us at hu
      split at hu
      · split at hu
        · cases List.mem_singleton.1 hu
          trivial
        · cases hu
      · obtain ⟨v, -, rfl⟩ := List.mem_map.1 hu
        trivial

theorem State.Canon.without {s : State} (h : s.Canon P Q) {t : Nat} : (s.without t).Canon P Q := by
  unfold State.without
  split
  · exact h
  · extract_lets s1
    have hs1 : s1.Canon P Q := h.foldl fun _ h1 _ _ => h1.releaseAcc
    exact hs1.upd (teams := fun h1 => Tab.Canon.del h1) (groups := fun h1 => Tab.Canon.filter h1)

theorem State.Canon.beginEvict {s : State} (h : s.Canon P Q) {p t : Nat} {off : Option Nat} : (s.beginEvict p t off).Canon P Q := by
  unfold State.beginEvict
  split
  · exact h
  · extract_lets mates run due s1
    have hs1 : s1.Canon P Q := h.pauseTeam.foldl fun _ h1 _ _ => h1.pauseTeam
    exact hs1.mapPart

theorem State.Canon.preempt {s : State} (h : s.Canon P Q) {p : Nat} : (s.preempt p).Canon P Q := by
  unfold State.preempt
  split
  · exact h
  · extract_lets q
    split
    · exact h
    · split
      next _ _ _ e2 =>
        extract_lets room
        split
        · exact (State.Canon.of_snd e2 h.draw).foldl fun _ h1 _ _ => h1.beginEvict
        · exact .of_snd e2 h.draw

theorem State.Canon.resumeOthers {s : State} (h : s.Canon P Q) {l : List Nat} : (s.resumeOthers l).Canon P Q := by
  unfold State.resumeOthers
  refine h.foldl fun s1 h1 n h2 => ?_
  split
  · exact h1
  · exact h1.resumeTeam

theorem State.Canon.requeue {s : State} (h : s.Canon P Q) {x : Team} : (s.requeue x).Canon P Q := by
  unfold State.requeue
  split
  next _ _ e => exact h.putGrid ((h.grid e).upd)
  · exact h

theorem State.Canon.finishEvict {s : State} (h : s.Canon P Q) {p : Nat} {e : Evict} : (s.finishEvict p e).Canon P Q := by
  unfold State.finishEvict
  extract_lets s1 set
  have hs1 : s1.Canon P Q := h.mapPart
  split
  · exact hs1.mapPart
  · exact hs1.resumeOthers

theorem State.Canon.moveNow {s : State} (h : s.Canon P Q) {p : Nat} {e : Evict} {x : Team} {cl : Nat} : (s.moveNow p e x cl).Canon P Q := by
  unfold State.moveNow
  extract_lets go
  have hgo : ∀ s, s.Canon P Q → (go s).Canon P Q := fun s hs => by
    unfold go
    split
    · exact hs.resumeTeam
    · exact hs
  split
  · exact (hgo _ h).finishEvict
  · exact (h.moveTeam fun _ _ _ hs hy => hgo _ (hs.loadTeam hy)).finishEvict

theorem State.Canon.evictNow {s : State} (h : s.Canon P Q) {p : Nat} {e : Evict} : (s.evictNow p e).Canon P Q := by
  unfold State.evictNow
  split
  · exact h.finishEvict
  · split
    · exact h
    · split
      · exact h.moveNow
      · exact h
      · split
        next _ _ e5 => exact h.slotPages.of_eq e5
        next _ _ _ e5 => exact h.slotPages.of_eq e5
        · extract_lets s1 s2
          have hs1 : s1.Canon P Q := h.saveTeam.finishEvict
          have hs2 : s2.Canon P Q := hs1.setCfgW
          split
          · split
            · exact hs2.upd
            · exact hs2.requeue
          · exact hs2.requeue

theorem State.Canon.askResume {s : State} (h : s.Canon P Q) {t : Nat} : (s.askResume t).Canon P Q := by
  unfold State.askResume
  extract_lets halts mark
  split
  · exact h.upd (parts := fun h1 => Tab.Canon.map h1 (fun _ => rfl) fun _ _ h3 => h3)
  · exact h.resumeTeam

theorem State.Canon.execTeamAdmission {s : State} (h : s.Canon P Q) {p : Nat} : Out.Canon P Q (Machine.execTeamAdmission p s) := by
  unfold Machine.execTeamAdmission
  extract_lets s1
  have hs1 : s1.Canon P Q := h.mapPart
  split
  next _ _ _ e => exact ((hs1.admitFrom_fst hs1.queue).of_fst e).setCfgW
  next _ _ e => exact (State.Canon.of_snd e hs1.admitFrom).preempt

theorem State.Canon.execPreemptionSave {s : State} (h : s.Canon P Q) {t : Nat} : Out.Canon P Q (execPreemptionSave t s) := by
  unfold Machine.execPreemptionSave
  split
  · split
    · exact h.evictNow
    · exact h
  · exact h

theorem State.Canon.finishGrid {s : State} (h : s.Canon P Q) {n : Nat} {g : Grid} : (s.finishGrid n g).Canon P Q := by
  unfold State.finishGrid
  extract_lets s1
  have hs1 : s1.Canon P Q := h.writeStatus.dropGrid
  split
  · split
    · exact hs1.markEntry
    · exact hs1.commitEntry
  · exact hs1

theorem State.Canon.execGridRetirement {s : State} (h : s.Canon P Q) {n : Nat} : Out.Canon P Q (execGridRetirement n s) := by
  unfold Machine.execGridRetirement
  split
  · exact h
  · split
    · exact h
    · extract_lets a2
      split
      · exact h.finishGrid
      · split
        next _ _ e3 => exact h.translate.of_eq e3
        next _ _ e3 => exact (h.translate.of_eq e3).finishGrid
        · exact h.noteHubRead.setNum.finishGrid

end Sys2Proof.Machine
end

