-- ==== Sys2Proof/Proofs/CanonicalDevice.lean ====
section
set_option Elab.async false

/-! PROOF. The canonical form and the device: configuration words, Curators, the market, links, bring-up. -/

namespace Sys2Proof.Machine

open Sys2Proof

variable {P Q : Prop}

theorem State.Canon.setSwapState {s : State} (h : s.Canon P Q) {st : Nat} : (s.setSwapState st).Canon P Q := h.setCfgW.msix

theorem State.Canon.startSwap {s : State} (h : s.Canon P Q) {d : Nat} : (s.startSwap d).Canon P Q := by
  unfold State.startSwap
  extract_lets s1 p mine s2
  have hs1 : s1.Canon P Q := h.upd.setSwapState
  have hs2 : s2.Canon P Q := hs1.mapPart
  exact hs2.foldl fun _ h1 _ _ => h1.beginEvict

theorem State.Canon.requestSwap {s : State} (h : s.Canon P Q) {d : Nat} : (s.requestSwap d).Canon P Q := by
  unfold State.requestSwap
  extract_lets st
  split
  · exact h
  · split
    · exact h
    · split
      · split
        · exact h
        · exact h.setSwapState
      · exact h.startSwap

theorem State.Canon.partWrite {s : State} (h : s.Canon P Q) {p off : Nat} {v : Word} : (s.partWrite p off v).Canon P Q := by
  unfold State.partWrite
  extract_lets n
  split
  · split
    · exact h
    · exact h.setCfgW
  · split
    · split
      · exact h
      · exact h.setCfgW
    · split
      · split
        · exact h.resetAcc
        · exact h
      · split
        · split
          · exact h
          · exact h.setCfgW
        · exact h.setCfgW

theorem State.Canon.portWrite {s : State} (h : s.Canon P Q) {addr : Nat} : (s.portWrite addr).Canon P Q := by
  unfold State.portWrite
  extract_lets l h1
  split
  next _ _ _ e => exact (State.Canon.of_snd e h.drawFrom).mapPart

theorem State.Canon.devWrite {s : State} (h : s.Canon P Q) {off : Nat} {v : Word} : (s.devWrite off v).Canon P Q := by
  unfold State.devWrite
  split
  · exact h.portWrite
  · split
    · split
      · exact h.requestSwap
      · exact h
    · split
      · split
        · exact h.setCfgW
        · exact h
      · exact h.setCfgW

theorem State.Canon.cfgPut {s : State} (h : s.Canon P Q) {space inst off : Nat} {v : Word} : (s.cfgPut space inst off v).Canon P Q := by
  unfold State.cfgPut
  split
  · exact h
  · extract_lets m
    split
    · split
      · exact h.relaunchFailed
      · split
        · exact h.discardFailed
        · exact h
    · split
      · exact h
      · split
        · exact h.setCfgW
        · split
          · exact h.setCfgW
          · exact h
        · exact h.partWrite
        · exact h.devWrite

theorem State.Canon.execSpareSwapRequest {s : State} (h : s.Canon P Q) {v : Word} : Out.Canon P Q (execSpareSwapRequest v s) := by
  unfold Machine.execSpareSwapRequest
  split
  · exact h
  · exact h.devWrite

theorem State.Canon.copyBad {s : State} (h : s.Canon P Q) {d : Nat} {r : BadRow} : (s.copyBad d r).Canon P Q := by
  unfold State.copyBad
  extract_lets core
  exact (h.foldl fun _ h1 _ _ => h1.setByte).machineCheck

theorem State.Canon.swapDie {s : State} (h : s.Canon P Q) {d : Nat} : (s.swapDie d).Canon P Q := by
  unfold State.swapDie
  extract_lets here s1
  have hs1 : s1.Canon P Q := h.foldl fun _ h1 _ _ => h1.copyBad
  refine hs1.upd (cores := fun h1 => Tab.Canon.map h1 (fun a => ?_) fun a h2 h3 => ?_)
  · split
    · rfl
    · rfl
  · change Core.Canon Q _
    split
    · dsimp -zeta only
      extract_lets src
      have hsrc : src.Canon Q := (show Core.Canon Q _ from h3)
      clear_value src
      exact hsrc.upd
    · exact (show Core.Canon Q _ from h3)

theorem State.Canon.swapLoad_fst {s : State} (h : s.Canon P Q) {l : List Nat} : State.Opt.Canon P Q (s.swapLoad l).1 := by
  induction l generalizing s with
  | nil => exact h
  | cons t r ih =>
    unfold State.swapLoad
    split
    · exact ih h
    next _ y hy =>
      split
      · trivial
      · trivial
      · exact ih (h.restoreFrom (h.saved_mem (List.mem_of_find?_eq_some hy)))

theorem State.Canon.swapLoad {s : State} (h : s.Canon P Q) {l : List Nat} : (s.swapLoad l).2.Canon P Q := by
  induction l generalizing s with
  | nil => exact h
  | cons t r ih =>
    unfold State.swapLoad
    split
    · exact ih h
    next _ y hy =>
      split
      next _ _ e => exact h.slotPages.of_eq e
      next _ _ _ e => exact h.slotPages.of_eq e
      · exact ih (h.restoreFrom (h.saved_mem (List.mem_of_find?_eq_some hy)))

theorem State.Canon.execSpareSwapComplete {s : State} (h : s.Canon P Q) : Out.Canon P Q (execSpareSwapComplete s) := by
  unfold Machine.execSpareSwapComplete
  split
  · exact h
  · split
    · exact h
    · split
      next _ _ e2 => exact h.upd (parts := fun _ => (State.Canon.of_snd e2 h.swapDie.setSwapState.setSwapState.swapLoad).parts)
      next _ _ _ e2 => exact ((h.swapDie.setSwapState.setSwapState.swapLoad_fst.of_fst e2).setSwapState).machineCheck

theorem State.Canon.takeTrap {s : State} (h : s.Canon P Q) {c : Nat} : (s.takeTrap c).Canon P Q := by
  unfold State.takeTrap
  extract_lets pc st
  split
  · extract_lets s1 s2
    have hs1 : s1.Canon P Q := h.setCfgW
    have hs2 : s2.Canon P Q := hs1.setCfgW.setCfgW
    exact hs2.mapCore fun _ h1 => h1.upd

theorem State.Canon.leaveTrap {s : State} (h : s.Canon P Q) {c : Nat} : (s.leaveTrap c).Canon P Q := by
  unfold State.leaveTrap
  extract_lets s1
  have hs1 : s1.Canon P Q := h.setCfgW
  exact hs1.mapCore fun _ h1 => h1.upd

theorem State.Canon.curatorDone {s : State} (h : s.Canon P Q) {d : SReg} {v : Word} : (s.curatorDone d v).Canon P Q := h.setS.advance

theorem State.Canon.curatorFault {s : State} (h : s.Canon P Q) {c : Nat} : Out.Canon P Q (s.curatorFault c) := h.raiseCurator

theorem State.Canon.execCuratorTrap {s : State} (h : s.Canon P Q) {c : Nat} : Out.Canon P Q (execCuratorTrap c s) := by
  unfold Machine.execCuratorTrap
  split
  · exact h.takeTrap
  · exact h

theorem State.Canon.execEret {s : State} (h : s.Canon P Q) : Out.Canon P Q (execEret s) := by
  unfold Machine.execEret
  refine h.byCurator fun n => ?_
  split
  · exact h.leaveTrap
  · exact h.curatorFault

theorem State.Canon.execFaultRecordEnqueue {s : State} (h : s.Canon P Q) {c : Nat} : Out.Canon P Q (execFaultRecordEnqueue c s) := h.fillQueue

theorem State.Canon.cfgWord {s : State} (h : s.Canon P Q) {write : Bool} {d a b : SReg} : Out.Canon P Q (s.cfgWord write d a b) := by
  unfold State.cfgWord
  refine h.byCurator fun n => ?_
  split
  · exact h.curatorFault
  · split
    · exact h.curatorFault
    · extract_lets x s1
      have hs1 : s1.Canon P Q := h.curatorDone
      split
      · exact hs1.cfgPut
      · exact hs1

theorem State.Canon.execCfgRead {s : State} (h : s.Canon P Q) {d a b : SReg} : Out.Canon P Q (execCfgRead d a b s) := h.cfgWord

theorem State.Canon.execCfgWrite {s : State} (h : s.Canon P Q) {d a b : SReg} : Out.Canon P Q (execCfgWrite d a b s) := h.cfgWord

theorem State.Canon.execTinv {s : State} (h : s.Canon P Q) {a b : SReg} : Out.Canon P Q (execTinv a b s) := by
  unfold Machine.execTinv
  refine h.byCurator fun n => ?_
  extract_lets m drop src
  have hsrc : src.Canon P Q := h.mapCore fun _ h1 => h1.upd
  clear_value src
  split
  · exact h.curatorFault
  · exact hsrc.upd.advance

theorem State.Canon.afterTeamWrite {s : State} (h : s.Canon P Q) {t off : Nat} : (s.afterTeamWrite t off).Canon P Q := by
  unfold State.afterTeamWrite
  split
  · exact h.slotFlipped
  · split
    · extract_lets n
      split
      · refine h.foldl fun s1 h1 g h2 => ?_
        split
        · exact h1.putGroup ((h.groupsOf h2).upd)
        · exact h1
      · exact h
    · split
      · exact h.fenceCheck
      · exact h

theorem State.Canon.cwinAt {s : State} (h : s.Canon P Q) {c t off : Nat} {a : Word} {g : Group} {tm : Bool}
    (e : s.cwinAt c a = some (t, g, tm, off)) : g.Canon Q g.idx := by
  unfold State.cwinAt at e
  extract_lets n blk o at e
  split at e
  · cases e
  next hs =>
    obtain ⟨x, hx, hs⟩ := Option.map_eq_some_iff.1 hs
    rw [Option.ite_none_left_eq_some] at e
    obtain ⟨-, e⟩ := e
    simp only [Option.some.injEq, Prod.mk.injEq] at e hs
    obtain ⟨-, rfl, -⟩ := e
    obtain ⟨-, rfl⟩ := hs
    exact (h.group_mem (List.mem_of_find?_eq_some hx)).self

theorem State.Canon.cwinPut {s : State} (h : s.Canon P Q) {t : Nat} {g : Group} (hg : g.Canon Q g.idx) {team : Bool} {off : Nat} {v : Word} :
    (s.cwinPut t g team off v).Canon P Q := by
  unfold State.cwinPut
  split
  · exact h.elim fun _ hx => (h.putTeam (h.team hx).teamOfImage).takeWaitRecs.afterTeamWrite
  · exact (h.putGroup hg.putWord.wakeYield).barrierCheck

theorem State.Canon.noteCwin {s' : State} (h : s'.Canon P Q) {s : State} {c t : Nat} {g : Group} {team : Bool} {off : Nat} :
    (s'.noteCwin s c t g team off).Canon P Q := by
  unfold State.noteCwin
  split
  · exact h
  · split
    · split
      · exact h.readBad
      · exact h
    · exact h

theorem State.Canon.execCwinRead {s : State} (h : s.Canon P Q) {d a b : SReg} : Out.Canon P Q (Machine.execCwinRead d a b s) := by
  unfold Machine.execCwinRead
  refine h.byCurator fun c => ?_
  split
  · exact h.curatorFault
  next hg =>
    split
    · exact h.curatorFault
    · extract_lets x s1
      have hs1 : s1.Canon P Q := h.curatorDone
      refine State.Canon.noteCwin ?_
      split
      · exact hs1.cwinPut (h.cwinAt hg)
      · exact hs1

theorem State.Canon.execCwinWrite {s : State} (h : s.Canon P Q) {d a b : SReg} : Out.Canon P Q (Machine.execCwinWrite d a b s) := by
  unfold Machine.execCwinWrite
  refine h.byCurator fun c => ?_
  split
  · exact h.curatorFault
  next hg =>
    split
    · exact h.curatorFault
    · exact (h.curatorDone.cwinPut (h.cwinAt hg)).noteCwin

theorem State.Canon.gctlTeam {s : State} (h : s.Canon P Q) {a : SReg} {k : Nat → Nat → Team → Out} (hk : ∀ a0 a1 a2, Out.Canon P Q (k a0 a1 a2)) :
    Out.Canon P Q (s.gctlTeam a k) := by
  unfold State.gctlTeam
  refine h.byCurator fun n => ?_
  split
  · exact hk _ _ _
  · exact h.curatorFault

theorem State.Canon.gctlOp {s : State} (h : s.Canon P Q) {a : SReg} {k : FaultRec → Out} (hk : ∀ a0, Out.Canon P Q (k a0)) : Out.Canon P Q
    (s.gctlOp a k) := by
  unfold State.gctlOp
  refine h.byCurator fun n => ?_
  split
  · split
    · exact h.curatorFault
    · exact hk _
  · exact h.curatorFault

theorem State.Canon.replayOp {s : State} (h : s.Canon P Q) {r : FaultRec} : (s.replayOp r).Canon P Q := by
  unfold State.replayOp
  split
  · extract_lets kind
    split
    · exact h.putOp
    · exact h
  · exact h

theorem State.Canon.cutOp {s : State} (hs : s.Canon P Q) {h : Nat} {o : Op} : (s.cutOp h o).Canon P Q := by
  unfold State.cutOp
  split
  · split
    · exact hs.cutCopy
    · exact hs
  · exact hs.restartFull
  · exact hs

theorem State.Canon.cancelOp {s : State} (hs : s.Canon P Q) {h : Nat} : (s.cancelOp h).Canon P Q := by
  unfold State.cancelOp
  split
  · exact (hs.withdrawColl.cutOp.mapTeam fun _ h1 => h1.upd).opEnds
  · exact hs

theorem State.Canon.takeRec {s : State} (h : s.Canon P Q) {c q : Nat} {r : FaultRec} : (s.takeRec c q r).Canon P Q :=
  ((h.mapCore fun _ h1 => h1.upd).fillQueue).settleTaken

theorem State.Canon.endGroups {s : State} (h : s.Canon P Q) {t : Nat} : (s.endGroups t).Canon P Q := by
  unfold State.endGroups
  extract_lets read
  refine h.foldl fun s1 h1 g hg => ?_
  split
  · exact h1
  · extract_lets s2 g1 g2
    have hg1 : g1.Canon Q g.idx := by
      unfold g1
      split
      · exact (h.groupsOf hg).closeWindows
      · exact (h.groupsOf hg).upd (v := fun _ => rfl) (tags := fun _ => rfl) (scar := fun _ => rfl)
    have hg2 : g2.Canon Q g.idx := hg1.upd (s := fun _ => rfl) (k := fun _ => rfl) (sh := fun _ => rfl)
    exact h1.noteVerdicts.putGroup (hg2.self.upd (spill := fun _ => rfl))

theorem State.Canon.killTeam {s : State} (h : s.Canon P Q) {t : Nat} : (s.killTeam t).Canon P Q := by
  unfold State.killTeam
  split
  · exact h
  · extract_lets p s1 gone hs s2 s3 s4 s5 s6 s7 s8 s9
    have hs1 : s1.Canon P Q := h.haltTeam
    have hs2 : s2.Canon P Q := hs1.foldl fun _ h1 _ _ => h1.withdrawColl.cutOp
    have hs3 : s3.Canon P Q := hs2.endGroups.mapTeam fun _ h1 => h1.upd
    have hs4 : s4.Canon P Q := by
      refine hs3.upd (ops := fun h1 => Tab.Canon.map (Tab.Canon.filter h1) (fun a1 => ?_) fun _ _ h3 => h3)
      split
      · rfl
      · rfl
    have hs5 : s5.Canon P Q := hs4.mapPart
    have hs6 : s6.Canon P Q := hs5.upd (cores := fun h1 => Tab.Canon.map h1 (fun _ => rfl) fun _ _ h3 => ((show Core.Canon Q _ from h3)).upd)
    have hs7 : s7.Canon P Q := hs6.foldl fun _ h1 _ _ => h1.fillQueue
    have hs8 : s8.Canon P Q := hs7.foldl fun _ h1 _ _ => h1.finishEvict
    have hs9 : s9.Canon P Q := by
      unfold s9
      split
      next _ _ e1 =>
        split
        · exact hs8.putGrid ((hs8.grid e1).upd)
        · exact hs8
      · exact hs8
    exact hs9.settleTeam.relevel

theorem State.Canon.launchService {s : State} (h : s.Canon P Q) {c : Nat} {os : List Origin} : State.Packed.Canon P Q (s.launchService c os) := by
  unfold State.launchService
  -- What the record holds does not matter: it stays closed to the kernel.
  obtain ⟨record, hrecord⟩ : ∃ f, State.serviceRecord = f := ⟨_, rfl⟩
  rw [hrecord]
  clear hrecord
  extract_lets p h1
  split
  · split
    next _ s1 e => exact show s1.Canon P Q from h.pages.of_eq e
    next _ s1 _ e => exact show s1.Canon P Q from h.pages.of_eq e
    · extract_lets s1 r dep g
      have hs1 : s1.Canon P Q := h.noteHubRead
      split
      next _ s2 e => exact show s2.Canon P Q from hs1.checkRecord.of_eq e
      next _ k s2 e =>
        have hs2 : s2.Canon P Q := hs1.checkRecord.of_eq e
        split
        · exact hs2
        next hk =>
          have hk : k = 0 ∨ k = 7 := by simpa [or_iff_not_imp_left] using hk
          have hr := State.rolesBad_of_checkRecord e hk
          extract_lets pa met s3
          have hs3 : s3.Canon P Q := hs2.elim fun _ _ => hs2.noteHubRead
          exact hs3.addGrid fun _ => hr
  · exact h

theorem State.Canon.execGctlHalt {s : State} (h : s.Canon P Q) {d a : SReg} : Out.Canon P Q (execGctlHalt d a s) :=
  h.gctlTeam fun _ _ _ => h.haltTeam.curatorDone

theorem State.Canon.execGctlResume {s : State} (h : s.Canon P Q) {d a : SReg} : Out.Canon P Q (execGctlResume d a s) := by
  unfold Machine.execGctlResume
  refine h.gctlTeam fun n n1 x => ?_
  split
  · exact h.curatorDone
  · exact h.askResume.curatorDone

theorem State.Canon.execGctlReplay {s : State} (h : s.Canon P Q) {d a : SReg} : Out.Canon P Q (execGctlReplay d a s) :=
  h.gctlOp fun _ => h.replayOp.curatorDone

theorem State.Canon.execGctlCancel {s : State} (h : s.Canon P Q) {d a : SReg} : Out.Canon P Q (execGctlCancel d a s) :=
  h.gctlOp fun _ => h.cancelOp.curatorDone

theorem State.Canon.execGctlCompact {s : State} (h : s.Canon P Q) {d a : SReg} : Out.Canon P Q (execGctlCompact d a s) := by
  unfold Machine.execGctlCompact
  refine h.byCurator fun n => ?_
  extract_lets rs rs1 os
  split
  · exact h.curatorFault
  · split
    · exact h.curatorDone
    · split
      next _ _ e2 => exact h.launchService.of_eq e2
      next _ _ _ e2 =>
        extract_lets s2
        have hs2 : s2.Canon P Q := by
          unfold s2
          split
          · exact h.launchService.of_eq e2
          · exact (h.launchService.of_eq e2).mapCore fun _ h1 => h1.upd
        exact hs2.curatorDone

theorem State.Canon.execGctlTake {s : State} (h : s.Canon P Q) {d a : SReg} : Out.Canon P Q (execGctlTake d a s) := by
  unfold Machine.execGctlTake
  refine h.byCurator fun n => ?_
  split
  · exact h.takeRec.curatorDone
  · exact h.curatorDone

theorem State.Canon.execGctlKill {s : State} (h : s.Canon P Q) {d a : SReg} : Out.Canon P Q (execGctlKill d a s) :=
  h.gctlTeam fun _ _ _ => h.killTeam.curatorDone

theorem State.Canon.execGctlStep {s : State} (h : s.Canon P Q) {d a : SReg} : Out.Canon P Q (execGctlStep d a s) := by
  unfold Machine.execGctlStep
  refine h.byCurator fun n => ?_
  split
  · exact (h.haltTeam.mapGroup fun _ h1 => h1.upd).curatorDone
  · exact h.curatorFault

theorem State.Canon.imagePages {s : State} (h : s.Canon P Q) {c : Nat} {k : Kind} {va n : Nat} : State.Pages.Canon P Q (s.imagePages c k va n) := by
  unfold State.imagePages
  split
  · exact h
  · exact h.pages

theorem State.Canon.claimImage {s : State} (h : s.Canon P Q) {y : Saved} : (s.claimImage y).Canon P Q := by
  unfold State.claimImage
  split
  · split
    next _ _ _ _ _ e2 => exact h.putGrid ((h.grid e2).upd)
    · exact h
  · exact h.upd

theorem State.Canon.execCtxSave {s : State} (h : s.Canon P Q) {d a b : SReg} : Out.Canon P Q (execCtxSave d a b s) := by
  unfold Machine.execCtxSave
  refine h.byCurator fun n => ?_
  split
  · exact h.curatorFault
  · split
    · exact h.curatorDone
    · split
      · exact h.curatorDone
      · split
        · exact h.curatorDone
        · extract_lets s1 va
          have hs1 : s1.Canon P Q := h.foldl fun _ h1 _ _ => h1.pauseTeam
          split
          · exact hs1.curatorDone
          · split
            · exact hs1
            · split
              next _ _ e6 => exact hs1.imagePages.of_eq e6
              next _ _ _ e6 => exact (hs1.imagePages.of_eq e6).curatorDone
              · exact hs1.saveTeam.curatorDone

theorem Saved.Canon.withEnded {y : Saved} (h : y.Canon Q) {s : State} {l : Nat → Loc} : (s.withEnded l y).Canon Q := by
  unfold State.withEnded
  split
  · exact h
  · intro hq g hg
    obtain ⟨e, he, rfl⟩ := List.mem_map.1 hg
    exact h hq e.1 (State.mem_blockOffs he)

theorem State.Canon.imageTeam {s : State} (h : s.Canon P Q) {c : Nat} {l : Nat → Loc} {y : Saved} (hy : s.imageTeam c l = some y) : y.Canon Q := by
  unfold State.imageTeam at hy
  extract_lets rd rc p mine at hy
  split at hy
  · cases hy
  · split at hy
    next _ z _ hz =>
      cases hy
      have hz : z ∈ mine.filter (fun y => y.slot.isNone) ++ mine := by rw [hz]; exact List.mem_cons_self
      have hz : z ∈ mine := (List.mem_append.1 hz).elim (fun hz => (List.mem_filter.1 hz).1) id
      exact (h.saved_mem (List.mem_filter.1 hz).1).heldAs
    · obtain ⟨e, he, hy⟩ := Option.bind_eq_some_iff.1 hy
      have hr : e.2.record = rc := by
        have := List.find?_some he
        simp only [Bool.and_eq_true, beq_iff_eq] at this
        exact this.1.2
      extract_lets z at hy
      split at hy
      · rw [← Option.some.inj hy]
        intro hq g hg
        have hx := Spec.fits_of (hr ▸ h.grid_mem (List.mem_of_find?_eq_some he) hq) (drain := e.2.drain.isSome)
        obtain ⟨a, ha, rfl⟩ := List.mem_map.1 hg
        have hlt : a.2 < 64 := by
          have := List.snd_lt_of_mem_zipIdx ha
          have := hx.1
          omega
        exact ⟨hlt, (Group.Canon.fresh (fun _ => hlt) (fun _ => hx.2 _ (List.fst_mem_of_mem_zipIdx ha)) hq).2⟩
      · cases hy

theorem State.Canon.execCtxLoad {s : State} (h : s.Canon P Q) {d a b : SReg} : Out.Canon P Q (Machine.execCtxLoad d a b s) := by
  unfold Machine.execCtxLoad
  refine h.byCurator fun c => ?_
  split
  · exact h.curatorFault
  · extract_lets va l
    split
    next _ _ e => exact h.imagePages.of_eq e
    next _ _ _ e => exact (h.imagePages.of_eq e).curatorDone
    · extract_lets ends
      have hends : ∀ s v more, s.Canon P Q → Out.Canon P Q (ends s v more) := fun s v more hs => hs.curatorDone.noteRows
      clear_value ends
      split
      · exact hends _ _ _ h
      next _ y hy =>
        split
        · exact hends _ _ _ h
        · extract_lets n
          split
          next _ _ e => exact h.imagePages.of_eq e
          next _ _ _ e => exact hends _ _ _ (h.imagePages.of_eq e)
          · extract_lets z
            split
            · exact h.curatorDone.noteRows
            · exact (h.claimImage.loadTeam (h.imageTeam hy).withEnded).curatorDone.noteImage

theorem State.Canon.verdictGather {s : State} (h : s.Canon P Q) {c : Nat} {r : FaultRec} {cancel : LaneMask} {fail : Bool} :
    (s.verdictGather c r cancel fail).Canon P Q := by
  unfold State.verdictGather
  split
  · split
    · extract_lets others stage
      exact h.putOp
    · exact h
  · exact h

theorem State.Canon.applyVerdicts {s : State} (h : s.Canon P Q) {c : Nat} {g : Grid} {q : Nat} {n : Word} : (s.applyVerdicts c g q n).Canon P Q := by
  unfold State.applyVerdicts
  split
  · exact h
  · split
    · exact h
    · extract_lets vs cancel fail s1 s2
      have hs1 : s1.Canon P Q := by
        unfold s1
        split
        · exact h.verdictGather
        · exact h.mapGroup fun _ h1 => h1.upd
      have hs2 : s2.Canon P Q := by
        unfold s2
        split
        · exact hs1.enqueueRec
        · exact hs1
      exact hs2.takeRec

theorem State.Canon.execVerdictApplication {s : State} (h : s.Canon P Q) {c : Nat} : Out.Canon P Q (execVerdictApplication c s) := by
  unfold Machine.execVerdictApplication
  split
  · exact h
  · extract_lets s1
    have hs1 : s1.Canon P Q := h.foldl fun _ h1 _ _ => h1.applyVerdicts
    split
    next _ _ e1 => exact hs1.putGrid ((hs1.grid e1).upd)
    · exact hs1

theorem State.Canon.forceDie {s : State} (h : s.Canon P Q) {d : Nat} : (s.forceDie d).Canon P Q := h.foldl fun _ h1 _ _ => h1.setCfgW

theorem State.Canon.clearMarket {s : State} (h : s.Canon P Q) {n : Nat} : (s.clearMarket n).Canon P Q := by
  unfold State.clearMarket
  extract_lets cs supply segs
  clear_value segs supply
  split
  next won price e =>
    extract_lets s1
    have hs1 : s1.Canon P Q := h.foldl fun _ h1 _ _ => h1.putCluster
    clear_value s1
    exact hs1.upd

theorem State.Canon.closeRecords {s : State} (h : s.Canon P Q) : (s.closeRecords).Canon P Q := by
  unfold State.closeRecords
  refine h.foldl fun s1 h1 n h2 => ?_
  extract_lets x hot
  exact h1.putCluster

theorem State.Canon.execMarketInterval {s : State} (h : s.Canon P Q) : Out.Canon P Q (execMarketInterval s) := by
  unfold Machine.execMarketInterval
  split
  · exact h
  · extract_lets n s1 src s2 src1
    have hs1 : s1.Canon P Q := h.foldl fun _ h1 _ _ => h1.forceDie
    have hsrc : src.Canon P Q := hs1.closeRecords
    clear_value src
    have hs2 : s2.Canon P Q := hsrc.upd
    have hsrc1 : src1.Canon P Q := hs2.setBytes
    clear_value src1
    split
    · exact hsrc1.upd
    · exact hs2.clearMarket

theorem State.Canon.execHostAllocationDeadline {s : State} (h : s.Canon P Q) : Out.Canon P Q (execHostAllocationDeadline s) := by
  unfold Machine.execHostAllocationDeadline
  extract_lets n at' counts s1 ok src
  have hs1 : s1.Canon P Q := h.noteHubRead.noteHubRead
  have hsrc : src.Canon P Q := by
    refine hs1.foldl fun s2 h1 a h2 => ?_
    extract_lets x
    exact h1.putCluster
  clear_value src
  split
  · exact h
  · split
    · exact hsrc.upd
    · exact hs1.setCfgW.clearMarket

theorem State.Canon.beginSub {s : State} (h : s.Canon P Q) {c k : Nat} : (s.beginSub c k).Canon P Q := by
  unfold State.beginSub
  extract_lets x
  exact h.putCluster

theorem State.Canon.dieEffect {s : State} (h : s.Canon P Q) {d : Nat} : (s.dieEffect d).Canon P Q := by
  unfold State.dieEffect
  extract_lets cs s1 k s2
  have hs1 : s1.Canon P Q := by
    refine h.foldl fun s3 h1 n h2 => ?_
    extract_lets x
    exact h1.putCluster.beginSub.setCfgW
  have hs2 : s2.Canon P Q := hs1.setCfgW
  split
  · exact hs2.upd
  · exact hs2

theorem State.Canon.execBudgetTakeEffect {s : State} (h : s.Canon P Q) : Out.Canon P Q (execBudgetTakeEffect s) := by
  unfold Machine.execBudgetTakeEffect
  extract_lets t src
  have hsrc : src.Canon P Q := h.foldl fun _ h1 _ _ => h1.dieEffect
  clear_value src
  split
  · exact h
  · exact hsrc.upd

theorem State.Canon.execClockRaise {s : State} (h : s.Canon P Q) : Out.Canon P Q (execClockRaise s) := by
  unfold Machine.execClockRaise
  split
  · exact h
  · exact h.upd

theorem State.Canon.execGovernorSubslot {s : State} (h : s.Canon P Q) : Out.Canon P Q (execGovernorSubslot s) := by
  unfold Machine.execGovernorSubslot
  extract_lets k
  split
  · exact h
  · exact h.foldl fun _ h1 _ _ => h1.beginSub

theorem State.Canon.migrate {s : State} (h : s.Canon P Q) {d cl : Nat} : State.Opt.Canon P Q (s.migrate d cl) := by
  unfold State.migrate
  split
  · trivial
  · exact State.Opt.Canon.map fun _ _ => h.beginEvict.putCluster

theorem State.Canon.execHotspotMigration {s : State} (h : s.Canon P Q) {d : Nat} : Out.Canon P Q (Machine.execHotspotMigration d s) := by
  unfold Machine.execHotspotMigration
  split
  · exact h
  · split
    next _ s1 e =>
      obtain ⟨cl, -, hcl⟩ := List.exists_of_findSome?_eq_some e
      split at hcl
      · exact h.migrate.of_eq hcl
      · cases hcl
    · exact h

theorem State.Canon.mapBank {s : State} (h : s.Canon P Q) {g : Stripe} {bank : Nat} : (s.mapBank g bank).Canon P Q := by
  unfold State.mapBank
  split
  · exact h
  · extract_lets second s1
    have hs1 : s1.Canon P Q := h.mapOut.machineCheck
    split
    · exact hs1.requestSwap
    · exact hs1

theorem State.Canon.scrub {s : State} (h : s.Canon P Q) {d : Nat} : (s.scrub d).Canon P Q := by
  unfold State.scrub
  extract_lets thr s1 mine found banks failed s2
  have hs1 : s1.Canon P Q := h.dropStale
  have hs2 : s2.Canon P Q := hs1.upd.dropMarks
  exact hs2.foldl fun _ h1 _ _ => h1.mapBank

theorem State.Canon.execScrubPass {s : State} (h : s.Canon P Q) {d : Nat} : Out.Canon P Q (execScrubPass d s) := h.scrub

theorem State.Canon.execMemoryLinkFailure {s : State} (h : s.Canon P Q) {i : Nat} : Out.Canon P Q (execMemoryLinkFailure i s) := by
  unfold Machine.execMemoryLinkFailure
  split
  · exact h
  · exact h.upd.machineCheck

theorem State.Canon.showLinks {s : State} (h : s.Canon P Q) : (s.showLinks).Canon P Q := by
  unfold State.showLinks
  extract_lets up v1 bits
  exact h.setCfgW.setCfgW

theorem State.Canon.mapLink {s : State} (h : s.Canon P Q) {j : Nat} {f : Nalmond → Nalmond} : (s.mapLink j f).Canon P Q := by
  unfold State.mapLink
  split
  · split
    · exact h.upd
    · exact h
  · exact h

theorem State.Canon.execFlitCrcFailure {s : State} (h : s.Canon P Q) {j : Nat} : Out.Canon P Q (execFlitCrcFailure j s) := h.mapLink

theorem State.Canon.execNalmondLaneLoss {s : State} (h : s.Canon P Q) {j : Nat} : Out.Canon P Q (execNalmondLaneLoss j s) := h.mapLink

theorem State.Canon.execNalmondLinkDown {s : State} (h : s.Canon P Q) {j : Nat} : Out.Canon P Q (execNalmondLinkDown j s) := by
  unfold Machine.execNalmondLinkDown
  split
  · exact h.mapLink.showLinks.machineCheck
  · exact h

theorem State.Canon.execPeerLinkReturn {s : State} (h : s.Canon P Q) {j : Nat} : Out.Canon P Q (execPeerLinkReturn j s) := by
  unfold Machine.execPeerLinkReturn
  split
  · exact h.upd.showLinks
  · exact h

theorem State.Canon.execPeerUnreachable {s : State} (h : s.Canon P Q) {op : Nat} : Out.Canon P Q (execPeerUnreachable op s) := by
  unfold Machine.execPeerUnreachable
  split
  · split
    · exact h
    · split
      · exact h.bySlice fun _ _ _ h1 => h1.raiseOp
      · exact h.collFault
      · exact h.raiseOp
  · exact h

theorem State.Canon.peerDo {s : State} (h : s.Canon P Q) {tab : List (Nat × Nat)} {a : PeerReq} : (s.peerDo tab a).Canon P Q := by
  unfold State.peerDo
  split
  · exact h.foldl fun _ h1 _ _ => h1.setBytes
  · extract_lets l
    exact h.noteHubRead.setNum
  · extract_lets l w
    exact h.noteHubRead.setNum
  · extract_lets l
    exact h.noteHubRead.setNum
  · exact h.enqueueAdd

theorem State.Canon.peerTry {s : State} (h : s.Canon P Q) {p asid : Nat} {r : PeerReq} : (s.peerTry p asid r).2.Canon P Q := by
  unfold State.peerTry
  split
  · split
    · dsimp only
      exact h
    · split
      next _ _ e2 =>
        dsimp only
        exact h.pages.of_eq e2
      next _ _ _ e2 =>
        dsimp only
        exact h.pages.of_eq e2
      · split
        · extract_lets h1
          split
          · dsimp only
            exact h.markFull
          · dsimp only
            exact h.peerDo
        · dsimp only
          exact h.peerDo

theorem State.Canon.peerOffer {s : State} (h : s.Canon P Q) {q : Nat × Nat × PeerReq} : (s.peerOffer q).Canon P Q := by
  unfold State.peerOffer
  extract_lets wait
  split
  · exact h.upd
  · split
    next _ _ e1 => exact .of_snd e1 h.peerTry
    next _ _ e1 => exact (State.Canon.of_snd e1 h.peerTry).upd

theorem State.Canon.peerRetry {s : State} (h : s.Canon P Q) {p : Nat} : (s.peerRetry p).Canon P Q := by
  unfold State.peerRetry
  split
  · exact h
  · refine h.upd.foldl fun s1 h1 a h2 => ?_
    split
    · exact h1.peerOffer
    · exact h1.upd

theorem State.Canon.execPeerRequest {s : State} (h : s.Canon P Q) {p asid : Nat} {r : PeerReq} : Out.Canon P Q (execPeerRequest p asid r s) := by
  unfold Machine.execPeerRequest
  split
  · split
    · exact h
    · exact h.peerOffer

theorem State.Canon.execTranslationWalk {s : State} (h : s.Canon P Q) {p : Nat} : Out.Canon P Q (execTranslationWalk p s) := h.walkStep.peerRetry

theorem State.Canon.execServiceResponse {s : State} (h : s.Canon P Q) {p : Nat} : Out.Canon P Q (execServiceResponse p s) := h.serviceStep.peerRetry

theorem State.Canon.linkReset {s : State} (h : s.Canon P Q) : (s.linkReset).Canon P Q := h.upd

theorem State.Canon.execHostLinkReset {s : State} (h : s.Canon P Q) : Out.Canon P Q (execHostLinkReset s) := h.linkReset

theorem State.Canon.execVectorUnmask {s : State} (h : s.Canon P Q) {v : Nat} : Out.Canon P Q (execVectorUnmask v s) := by
  unfold Machine.execVectorUnmask
  split
  · exact h
  · extract_lets s'
    have hs' : s'.Canon P Q := h.upd
    split
    · exact hs'.upd
    · exact hs'

theorem State.Canon.execHostMemoryWrite {s : State} (h : s.Canon P Q) {addr : Nat} {bytes : List Byte} :
    Out.Canon P Q (Machine.execHostMemoryWrite addr bytes s) := by
  unfold Machine.execHostMemoryWrite
  split
  · exact h
  · split
    · split
      · extract_lets rec'
        split
        · exact h
        · exact h.cfgPut
      · exact h
    · split
      · exact h
      · exact h.setBytes

theorem State.Canon.execHostMemoryRead {s : State} (h : s.Canon P Q) {addr len : Nat} : Out.Canon P Q (execHostMemoryRead addr len s) := by
  unfold Machine.execHostMemoryRead
  split
  · exact h
  · split
    · extract_lets v
      exact h.upd
    · split
      · exact h.upd
      · extract_lets pa n s1
        have hs1 : s1.Canon P Q := h.noteHubRead
        exact hs1.upd

theorem State.Canon.setDefaults {s : State} (h : s.Canon P Q) : (s.setDefaults).Canon P Q := h.foldl fun _ h1 _ _ => h1.setCfgW.setCfgW

theorem State.Canon.setEntry {s : State} (h : s.Canon P Q) {e : CfgEntry} : (s.setEntry e).Canon P Q := by
  unfold State.setEntry
  extract_lets v v1
  split
  · exact h.setCfgW
  · exact h.setCfgW

theorem State.Canon.loadRecord {s : State} (h : s.Canon P Q) {l : List Byte} : State.OptPair.Canon P Q (s.loadRecord l) := by
  unfold State.loadRecord
  split
  · trivial
  · split
    · trivial
    · extract_lets s1
      have hs1 : s1.Canon P Q := h.setDefaults.foldl fun _ h1 _ _ => h1.setEntry
      clear_value s1
      generalize s1.wordsOk = b
      cases b with
      | false => trivial
      | true => exact hs1

theorem State.Canon.setPhase {s : State} (h : s.Canon P Q) {k : Nat} : (s.setPhase k).Canon P Q := h.setCfgW.msix

theorem State.Canon.setErr {s : State} (h : s.Canon P Q) {k : Nat} : (s.setErr k).Canon P Q := h.setCfgW

theorem State.Canon.measure {s : State} (h : s.Canon P Q) {l : List Byte} : (s.measure l).Canon P Q := h.upd

theorem State.Canon.loadCurators {s : State} (h : s.Canon P Q) {l : List Byte} : (s.loadCurators l).Canon P Q :=
  h.foldl fun _ h1 _ _ => h1.mapCore fun _ _ => Core.Canon.fresh.upd (mem := fun _ => Cells.setSlice_wf Cells.nil_wf _ _)

theorem State.Canon.trainMemory {s : State} (h : s.Canon P Q) : (s.trainMemory).Canon P Q := by
  unfold State.trainMemory
  extract_lets ms links modeA w s1 s2 src
  have hs1 : s1.Canon P Q := h.setCfgW.setCfgW
  have hs2 : s2.Canon P Q := hs1.setCfgW.setCfgW
  have hsrc : src.Canon P Q := hs2.setCfgW
  clear_value src
  exact hsrc.upd (dev := fun _ _ => Cells.nil_wf) (annex := fun _ _ => Cells.nil_wf)

theorem State.Canon.buildTables {s : State} (h : s.Canon P Q) : (s.buildTables).Canon P Q := by
  unfold State.buildTables
  extract_lets s1 src
  have hs1 : s1.Canon P Q := h.foldl fun _ h1 _ _ => h1.putPart
  have hsrc : src.Canon P Q := hs1.foldl fun _ h1 _ _ => h1.forceDie
  clear_value src
  exact hsrc.upd

theorem State.Canon.finishBringUp {s : State} (h : s.Canon P Q) : (s.finishBringUp).Canon P Q := by
  unfold State.finishBringUp
  extract_lets s1 s2 s3 s4 s5
  have hs1 : s1.Canon P Q := h.setPhase
  have hs2 : s2.Canon P Q := hs1.loadCurators.measure.setPhase
  have hs3 : s3.Canon P Q := hs2.trainMemory.setPhase
  have hs4 : s4.Canon P Q := hs3.buildTables.setPhase.showLinks.setPhase
  have hs5 : s5.Canon P Q := hs4.measure
  split
  · exact hs1.setErr
  · split
    · exact hs2.setErr
    · split
      · exact hs3.setErr
      · exact hs5.setCfgW

theorem State.Canon.bootHub {s : State} (h : s.Canon P Q) : (s.bootHub).Canon P Q := by
  unfold State.bootHub
  extract_lets s1
  have hs1 : s1.Canon P Q := h.setPhase
  split
  · exact hs1.setErr
  · exact hs1.measure.setPhase.setPhase

theorem State.Canon.againFrom {s : State} (h : s.Canon P Q) {err : Nat} : (s.againFrom err).Canon P Q := by
  unfold State.againFrom
  split
  · exact h
  · exact (h.upd (cfg := fun h1 h2 => Cells.wf_filter (h1 h2) _)).bootHub

theorem State.Canon.clearErr {s : State} (h : s.Canon P Q) : (s.clearErr).Canon P Q := h.setCfgW

theorem State.Canon.takeRecord {s : State} (h : s.Canon P Q) {l : List Byte} : (s.takeRecord l).Canon P Q := by
  unfold State.takeRecord
  extract_lets t
  have ht : t.Canon P Q := h.upd (cfg := fun h1 h2 => Cells.wf_filter (h1 h2) _)
  split
  · exact ht.setErr
  next _ _ _ e => exact (((ht.loadRecord.of_eq e).upd).measure).finishBringUp

theorem State.Canon.execBringUp {s : State} (h : s.Canon P Q) : Out.Canon P Q (execBringUp s) := by
  unfold Machine.execBringUp
  split
  · exact h
  · exact h.bootHub

theorem State.Canon.execRecordWindowDeadline {s : State} (h : s.Canon P Q) : Out.Canon P Q (execRecordWindowDeadline s) := by
  unfold Machine.execRecordWindowDeadline
  extract_lets w err l s1
  have hs1 : s1.Canon P Q := h.clearErr.againFrom
  split
  · exact h
  · split
    · exact hs1
    · exact hs1.takeRecord

theorem State.Canon.execAttestationRequest {s : State} (h : s.Canon P Q) : Out.Canon P Q (execAttestationRequest s) := by
  unfold Machine.execAttestationRequest
  split
  · exact h
  · exact h.devWrite

theorem State.Canon.report {s : State} (h : s.Canon P Q) : (s.report).2.Canon P Q := by
  unfold State.report
  split
  next _ _ _ e =>
    dsimp only
    exact .of_snd e h.draw

theorem State.Canon.execAttestationReportReady {s : State} (h : s.Canon P Q) : Out.Canon P Q (execAttestationReportReady s) := by
  unfold Machine.execAttestationReportReady
  split
  · exact h
  · split
    next _ _ _ e1 =>
      extract_lets s2
      have hs2 : s2.Canon P Q := (State.Canon.of_snd e1 h.report).foldl fun _ h1 _ _ => h1.setCfgW
      exact hs2.setCfgW

theorem State.Canon.execIllegalInstruction {s : State} (h : s.Canon P Q) : Out.Canon P Q (execIllegalInstruction s) :=
  State.Canon.issuing h.raiseNow

theorem State.Canon.execExtensionPrefix {s : State} (h : s.Canon P Q) {a : BitVec 21} : Out.Canon P Q (execExtensionPrefix a s) :=
  State.Canon.issuing h.raiseNow

theorem State.Canon.loseCore {s : State} (h : s.Canon P Q) {c : Nat} : (s.loseCore c).Canon P Q := by
  unfold State.loseCore
  extract_lets o
  exact h.setCfgW

theorem State.Canon.sense {s : State} (h : s.Canon P Q) {c temp : Nat} : (s.sense c temp).Canon P Q := by
  unfold State.sense
  extract_lets x hot
  exact h.putCluster

theorem State.Canon.showNow {s : State} (h : s.Canon P Q) : (s.showNow).Canon P Q := by
  unfold State.showNow
  split
  · exact h.showLinks
  · exact h

theorem State.Canon.take {s : State} (h : s.Canon P Q) {a : Input} : (s.take a).Canon P Q := by
  unfold State.take
  split
  · exact h.upd
  · exact h.upd
  · exact h.upd.showNow
  · exact h.upd.showNow
  · extract_lets src
    have hsrc : src.Canon P Q := by
      unfold src
      split
      · exact h
      · exact h.linkReset
    clear_value src
    exact hsrc.upd
  · exact h.upd
  · exact h.sense
  · split
    · exact h
    · exact h.markBad
  · exact h.symErr
  · exact h.upd
  · exact h.upd
  · exact h.upd
  · exact h.peerExhausted
  · exact h.mapLink
  · exact h.upd
  · exact h.loseCore
  · exact h.upd
  · exact h.upd (peers := fun h1 h2 => Cells.set_wf (h1 h2) _ _)
  · exact h.upd

end Sys2Proof.Machine
end

