-- ==== Sys2Proof/Proofs/CanonicalUnits.lean ====
section
set_option Elab.async false

/-! PROOF. The canonical form and the profile unit, the special-function unit, the symbols. -/

namespace Sys2Proof.Machine

open Sys2Proof

variable {P Q : Prop}

theorem State.Canon.profIssue {s : State} (h : s.Canon P Q) {w : LaneWord} {es rd dst : List Nat} {writes : Bool} {chk : LaneIn → Bool}
    {f : LaneIn → ProfOp} : Out.Canon P Q (s.profIssue w es rd dst writes chk f) := by
  unfold State.profIssue
  refine h.byGroup (fun _ => h.raiseCurator) fun n n1 g e h1 => h.laneIssue fun n2 n3 a h2 => ?_
  split
  · exact h.raiseNow
  · split
    · exact h
    · extract_lets sync
      split
      next _ _ _ e3 =>
        extract_lets s2
        have hs2 : s2.Canon P Q := (State.Canon.of_snd e3 h.newOp).mapCore fun _ h3 => h3.upd
        refine hs2.mapGroup fun g1 h3 => ?_
        split
        · exact h3.upd
        · exact ((h3.foldl fun _ _ h4 => h4.keepVal).expect).laneDone

theorem State.Canon.execPclr {s : State} (h : s.Canon P Q) {w : LaneWord} : Out.Canon P Q (execPclr w s) := by
  unfold Machine.execPclr
  extract_lets a
  exact h.profIssue

theorem State.Canon.execPins {s : State} (h : s.Canon P Q) {w : LaneWord} : Out.Canon P Q (execPins w s) := h.profIssue

theorem State.Canon.execPmax {s : State} (h : s.Canon P Q) {w : LaneWord} : Out.Canon P Q (execPmax w s) := h.profIssue

theorem State.Canon.execPadd {s : State} (h : s.Canon P Q) {w : LaneWord} : Out.Canon P Q (execPadd w s) := h.profIssue

theorem State.Canon.execPinf {s : State} (h : s.Canon P Q) {w : LaneWord} : Out.Canon P Q (execPinf w s) := h.profIssue

theorem State.Canon.execPconj {s : State} (h : s.Canon P Q) {w : LaneWord} : Out.Canon P Q (execPconj w s) := h.profIssue

theorem State.Canon.execPsimp {s : State} (h : s.Canon P Q) {w : LaneWord} : Out.Canon P Q (execPsimp w s) := h.profIssue

theorem State.Canon.execPeval {s : State} (h : s.Canon P Q) {w : LaneWord} : Out.Canon P Q (execPeval w s) := h.profIssue

theorem State.Canon.execParg {s : State} (h : s.Canon P Q) {w : LaneWord} : Out.Canon P Q (execParg w s) := h.profIssue

theorem State.Canon.execPget {s : State} (h : s.Canon P Q) {w : LaneWord} : Out.Canon P Q (execPget w s) := h.profIssue

theorem State.Canon.putProf {s : State} (h : s.Canon P Q) {t d : Nat} {q : Prof} : (s.putProf t d q).Canon P Q := by
  unfold State.putProf
  extract_lets full
  refine (h.mapTeam fun x h1 => ?_).dropErrs
  extract_lets bad
  exact h1.upd

theorem State.Canon.noteProfs {s : State} (h : s.Canon P Q) {t i core : Nat} {es : List Nat} : (s.noteProfs t i core es).Canon P Q := by
  unfold State.noteProfs
  split
  · exact h.readBad
  · exact h

theorem State.Canon.profPerform {s : State} (hs : s.Canon P Q) {h : Nat} {o : Op} {p : ProfOp} {tau : Word} {sync : Bool} :
    (s.profPerform h o p tau sync).Canon P Q := by
  unfold State.profPerform
  extract_lets ps s1 done m fl base s2
  have hs1 : s1.Canon P Q := hs.upd (ops := fun h1 => h1.del)
  have hs2 : s2.Canon P Q := hs1.mapGroup fun _ h1 => h1.deliver.setFlags
  have hdone : ∀ i g, g.Canon Q i → (done g).Canon Q i := fun i g hg => by
    unfold done
    split
    · exact hg.laneDone
    · exact hg
  split
  · exact (hs1.putProf.mapGroup fun _ h1 => hdone _ _ h1.setFlags).leaveCounter
  · split
    · exact (hs1.mapGroup fun _ h1 => h1.setSticky).leaveCounter.drainSfu.mapGroup fun _ h1 => h1.enterHandler
    · exact (hs1.mapGroup fun _ h1 => hdone _ _ h1.setFlags.setSticky).leaveCounter
  · exact hs2.leaveCounter

theorem State.Canon.execProfileOperationComplete {s : State} (h : s.Canon P Q) {core : Nat} : Out.Canon P Q (execProfileOperationComplete core s) := by
  unfold Machine.execProfileOperationComplete
  split
  · exact h
  · extract_lets s1
    have hs1 : s1.Canon P Q := h.mapCore fun _ h1 => h1.upd
    split
    · split
      · exact hs1.noteProfs.profPerform.settleTeam
      · exact hs1
    · exact hs1

theorem State.Canon.sfuIssue {s : State} (h : s.Canon P Q) {w : LaneWord} {rd ss : List Nat} {f : LaneIn → Nat → Nat × AFlags} : Out.Canon P Q
    (s.sfuIssue w rd ss f) := by
  unfold State.sfuIssue
  refine h.laneIssue fun n n1 a h1 => ?_
  extract_lets beats vals flags hold
  split
  · exact h
  · split
    next _ _ _ e1 =>
      refine (State.Canon.of_snd e1 h.newOp).mapGroup fun g h2 => ?_
      split
      · exact h2.upd
      · exact h2.keepVal.expect.laneDone

theorem State.Canon.sfuUn {s : State} (h : s.Canon P Q) {w : LaneWord} {f : FVal → Nat × AFlags} : Out.Canon P Q (s.sfuUn w f) := h.sfuIssue

theorem State.Canon.execVrcp {s : State} (h : s.Canon P Q) {w : LaneWord} : Out.Canon P Q (execVrcp w s) := h.sfuUn

theorem State.Canon.execVrsqrt {s : State} (h : s.Canon P Q) {w : LaneWord} : Out.Canon P Q (execVrsqrt w s) := h.sfuUn

theorem State.Canon.execVsqrt {s : State} (h : s.Canon P Q) {w : LaneWord} : Out.Canon P Q (execVsqrt w s) := h.sfuUn

theorem State.Canon.execVexp2 {s : State} (h : s.Canon P Q) {w : LaneWord} : Out.Canon P Q (execVexp2 w s) := h.sfuUn

theorem State.Canon.execVlog2 {s : State} (h : s.Canon P Q) {w : LaneWord} : Out.Canon P Q (execVlog2 w s) := h.sfuUn

theorem State.Canon.execVsin {s : State} (h : s.Canon P Q) {w : LaneWord} : Out.Canon P Q (execVsin w s) := h.sfuUn

theorem State.Canon.execVcos {s : State} (h : s.Canon P Q) {w : LaneWord} : Out.Canon P Q (execVcos w s) := h.sfuUn

theorem State.Canon.execVtanh {s : State} (h : s.Canon P Q) {w : LaneWord} : Out.Canon P Q (execVtanh w s) := h.sfuUn

theorem State.Canon.execVsigm {s : State} (h : s.Canon P Q) {w : LaneWord} : Out.Canon P Q (execVsigm w s) := h.sfuUn

theorem State.Canon.execVdiv {s : State} (h : s.Canon P Q) {w : LaneWord} : Out.Canon P Q (execVdiv w s) := h.sfuIssue

theorem State.Canon.execSfuResultWrite {s : State} (h : s.Canon P Q) {op : Nat} : Out.Canon P Q (execSfuResultWrite op s) := by
  unfold Machine.execSfuResultWrite
  split
  · split
    · exact h.sfuWrite.settleTaken
    · exact h
  · exact h

theorem State.Canon.resolveSym {s : State} (h : s.Canon P Q) {t n : Nat} {x : Word} : (s.resolveSym t n x).Canon P Q := by
  unfold State.resolveSym
  extract_lets s1
  have hs1 : s1.Canon P Q := h.mapTeam fun _ h1 => h1.upd
  refine hs1.foldl fun s2 h1 g h2 => ?_
  split
  · exact h1.putGroup ((hs1.groupsOf h2).upd)
  · exact h1

theorem State.Canon.bindSym {s : State} (h : s.Canon P Q) {t n : Nat} {src : SymSrc} {met : Bool} : (s.bindSym t n src met).Canon P Q :=
  h.mapTeam fun _ h1 => h1.upd

theorem State.Canon.symWord {s : State} (h : s.Canon P Q) {bad : Bool} {vs ss : List Nat} {chk : Nat → Group → Bool} {k : Nat → Nat → Group → Out}
    (hk : ∀ a0 a1 g, g.Canon Q a1 → Out.Canon P Q (k a0 a1 g)) : Out.Canon P Q (s.symWord bad vs ss chk k) := by
  unfold State.symWord
  refine h.byGroup (fun _ => h.raiseCurator) fun n n1 g e h1 => ?_
  split
  · exact h.raiseNow
  · split
    · exact h
    · split
      · exact h.raiseNow
      · exact hk _ _ _ h1

theorem State.Canon.execVlate {s : State} (h : s.Canon P Q) {w : LaneWord} : Out.Canon P Q (execVlate w s) := by
  unfold Machine.execVlate
  refine h.symWord fun n n1 g h1 => ?_
  extract_lets x
  exact h.writeForm h1

theorem State.Canon.execVres {s : State} (h : s.Canon P Q) {w : LaneWord} : Out.Canon P Q (execVres w s) := by
  unfold Machine.execVres
  refine h.laneIssue fun n n1 a h1 => ?_
  extract_lets d
  refine h.putGroup (Group.Canon.laneDone ?_)
  split
  · exact h1.writeVal
  · exact h1

theorem State.Canon.execSybindManual {s : State} (h : s.Canon P Q) {w : LaneWord} : Out.Canon P Q (execSybindManual w s) :=
  h.symWord fun _ _ _ _ => h.bindSym.mapGroup fun _ h2 => h2.laneDone

theorem State.Canon.execSybindCnt {s : State} (h : s.Canon P Q) {w : LaneWord} : Out.Canon P Q (execSybindCnt w s) := by
  unfold Machine.execSybindCnt
  extract_lets a b c bad
  refine h.symWord fun n n1 g h1 => ?_
  extract_lets f v target
  split
  next _ _ e => exact h.translateNow.of_eq e
  next _ _ e => exact (h.translateNow.of_eq e).raiseNow
  · split
    next _ _ e1 => exact h.translateNow.of_eq e1
    next _ _ e1 => exact (h.translateNow.of_eq e1).raiseNow
    · extract_lets holds s' s'1 s'2
      have hs' : s'.Canon P Q := h.bindSym
      have hs'1 : s'1.Canon P Q := by
        unfold s'1
        split
        · exact hs'.resolveSym
        · exact hs'
      have hs'2 : s'2.Canon P Q := (hs'1.mapGroup fun _ h2 => h2.laneDone).noteRead
      split
      · exact hs'2.noteRead
      · exact hs'2

theorem State.Canon.execSybindSlot {s : State} (h : s.Canon P Q) {w : LaneWord} : Out.Canon P Q (execSybindSlot w s) := by
  unfold Machine.execSybindSlot
  extract_lets a ax m
  refine h.symWord fun n n1 g h1 => ?_
  extract_lets off
  split
  · exact h.raiseNow
  · exact h.bindSym.mapGroup fun _ h2 => h2.laneDone

theorem State.Canon.execSyset {s : State} (h : s.Canon P Q) {w : LaneWord} : Out.Canon P Q (execSyset w s) :=
  h.symWord fun _ _ _ _ => h.resolveSym.mapGroup fun _ h2 => h2.laneDone

theorem Group.Canon.dropSym {g : Group} {i : Nat} (h : g.Canon Q i) {x : Nat → Option Word} {n : Nat} : (State.dropSym x n g).Canon Q i := by
  unfold State.dropSym
  refine h.foldl fun g1 n1 h1 => ?_
  split
  · exact h1.concrete
  · exact h1

theorem State.Canon.releaseSym {s : State} (h : s.Canon P Q) {t n : Nat} : (s.releaseSym t n).Canon P Q := by
  unfold State.releaseSym
  extract_lets x s1
  have hs1 : s1.Canon P Q := h.foldl fun _ h1 _ h2 => h1.putGroup (((h.groupsOf h2).dropSym).upd)
  exact hs1.mapTeam fun _ h1 => h1.upd

theorem State.Canon.noteDeps {s : State} (h : s.Canon P Q) {t n : Nat} : (s.noteDeps t n).Canon P Q := by
  unfold State.noteDeps
  split
  · exact h
  · exact h.foldl fun _ h1 _ _ => h1.noteRegs

theorem State.Canon.execSyrel {s : State} (h : s.Canon P Q) {w : LaneWord} : Out.Canon P Q (execSyrel w s) := by
  unfold Machine.execSyrel
  refine h.symWord fun n n1 g h1 => ?_
  split
  · exact h.park
  · exact h.noteDeps.releaseSym.mapGroup fun _ h2 => h2.laneDone

theorem State.Canon.execSymbolResolution {s : State} (h : s.Canon P Q) {team sym : Nat} : Out.Canon P Q (execSymbolResolution team sym s) := by
  unfold Machine.execSymbolResolution
  split
  · exact h
  · split
    · exact h
    · split
      · exact h
      · split
        · exact h
        · exact h.resolveSym.noteRead
        · extract_lets l
          exact h.resolveSym.noteRead

end Sys2Proof.Machine
end

