-- ==== Sys2Proof/Proofs/CanonicalStep.lean ====
section
set_option Elab.async false

/-! PROOF. The canonical form and a step: each arm of exec, the fetch of a word, a move of the agenda. -/

namespace Sys2Proof.Machine

open Sys2Proof

variable {P Q : Prop}

theorem State.Canon.refuse {s : State} (h : s.Canon P Q) {lane : Bool} {r : Reject} : Out.Canon P Q (s.refuse lane r) := h.raiseNow

theorem State.Canon.exec {s : State} (h : s.Canon P Q) {i : Instr} : Out.Canon P Q (Machine.exec i s) := by
  cases i with
  | br => exact h.execBr
  | jal => exact h.execJal
  | jr => exact h.execJr
  | beq => exact h.execBeq
  | bne => exact h.execBne
  | blt => exact h.execBlt
  | bge => exact h.execBge
  | trap => exact h.execTrap
  | brk => exact h.execBrk
  | hsetLabel => exact h.execHsetLabel
  | hsetRegister => exact h.execHsetRegister
  | lpc => exact h.execLpc
  | add => exact h.execAdd
  | sub => exact h.execSub
  | mul => exact h.execMul
  | mulh => exact h.execMulh
  | mulhu => exact h.execMulhu
  | and => exact h.execAnd
  | or => exact h.execOr
  | xor => exact h.execXor
  | shl => exact h.execShl
  | shr => exact h.execShr
  | sra => exact h.execSra
  | slt => exact h.execSlt
  | sltu => exact h.execSltu
  | min => exact h.execMin
  | max => exact h.execMax
  | popc => exact h.execPopc
  | addi => exact h.execAddi
  | andi => exact h.execAndi
  | ori => exact h.execOri
  | xori => exact h.execXori
  | shli => exact h.execShli
  | shri => exact h.execShri
  | srai => exact h.execSrai
  | slti => exact h.execSlti
  | sltui => exact h.execSltui
  | add64 => exact h.execAdd64
  | sub64 => exact h.execSub64
  | shl64 => exact h.execShl64
  | shr64 => exact h.execShr64
  | addi64 => exact h.execAddi64
  | mul64 => exact h.execMul64
  | sltu64 => exact h.execSltu64
  | sldTeamMemory => exact h.execSldTeamMemory
  | sldAnnex => exact h.execSldAnnex
  | sstTeamMemory => exact h.execSstTeamMemory
  | sstAnnex => exact h.execSstAnnex
  | sldAcq _ _ _ sc => exact h.execSldAcq (a1 := sc)
  | sstRel _ _ _ sc => exact h.execSstRel (a1 := sc)
  | mpush => exact h.execMpush
  | kget => exact h.execKget
  | kset => exact h.execKset
  | movvs => exact h.execMovvs
  | sget => exact h.execSget
  | sset => exact h.execSset
  | elect => exact h.execElect
  | shld => exact h.execShld
  | shset => exact h.execShset
  | movsv => exact h.execMovsv
  | wait => exact h.execWait
  | yield => exact h.execYield
  | fence sc => exact h.execFence (a := sc)
  | bsinit => exact h.execBsinit
  | bsarr => exact h.execBsarr
  | bswait => exact h.execBswait
  | bsaw => exact h.execBsaw
  | wcnt => exact h.execWcnt
  | wadr => exact h.execWadr
  | bsget => exact h.execBsget
  | cpl => exact h.execCpl
  | cps => exact h.execCps
  | cpx => exact h.execCpx
  | cpm => exact h.execCpm
  | cpg => exact h.execCpg
  | cprPut => exact h.execCprPut
  | cprGet => exact h.execCprGet
  | cpa => exact h.execCpa
  | cpw => exact h.execCpw
  | cpst => exact h.execCpst
  | cpcb => exact h.execCpcb
  | aclose => exact h.execAclose
  | clar => exact h.execClar
  | clrs => exact h.execClrs
  | clag => exact h.execClag
  | clbc => exact h.execClbc
  | launch => exact h.execLaunch
  | mxa => exact h.execMxa
  | mxwb => exact h.execMxwb
  | mxfence => exact h.execMxfence
  | mxwait => exact h.execMxwait
  | bkfile => exact h.execBkfile
  | bkcommit => exact h.execBkcommit
  | bkstat => exact h.execBkstat
  | bkfence => exact h.execBkfence
  | stget => exact h.execStget
  | stclr => exact h.execStclr
  | cwinRead => exact h.execCwinRead
  | cwinWrite => exact h.execCwinWrite
  | gctlHalt => exact h.execGctlHalt
  | gctlResume => exact h.execGctlResume
  | gctlReplay => exact h.execGctlReplay
  | gctlCancel => exact h.execGctlCancel
  | gctlCompact _ a => exact h.execGctlCompact (a := a)
  | gctlTake _ a => exact h.execGctlTake (a := a)
  | gctlKill => exact h.execGctlKill
  | gctlStep => exact h.execGctlStep
  | ctxSave => exact h.execCtxSave
  | ctxLoad =>
    unfold Machine.exec
    exact h.execCtxLoad
  | tinv => exact h.execTinv
  | cfgRead => exact h.execCfgRead
  | cfgWrite => exact h.execCfgWrite
  | lx => exact h.execLx
  | lxa => exact h.execLxa
  | extensionPrefix n => exact h.execExtensionPrefix (a := n)
  | vaddInt => exact h.execVaddInt
  | vsubInt => exact h.execVsubInt
  | vmulInt => exact h.execVmulInt
  | vmulh => exact h.execVmulh
  | vmad => exact h.execVmad
  | vabsInt => exact h.execVabsInt
  | vnegInt => exact h.execVnegInt
  | vminInt => exact h.execVminInt
  | vmaxInt => exact h.execVmaxInt
  | vadds => exact h.execVadds
  | vsubs => exact h.execVsubs
  | vand => exact h.execVand
  | vor => exact h.execVor
  | vxor => exact h.execVxor
  | vnot => exact h.execVnot
  | vshl => exact h.execVshl
  | vshr => exact h.execVshr
  | vsra => exact h.execVsra
  | vpopc => exact h.execVpopc
  | vclz => exact h.execVclz
  | vbfx => exact h.execVbfx
  | vbfi => exact h.execVbfi
  | vmov => exact h.execVmov
  | vsel => exact h.execVsel
  | vcmpInt => exact h.execVcmpInt
  | vaddFp => exact h.execVaddFp
  | vsubFp => exact h.execVsubFp
  | vmulFp => exact h.execVmulFp
  | vfma => exact h.execVfma
  | vnegFp => exact h.execVnegFp
  | vabsFp => exact h.execVabsFp
  | vminFp => exact h.execVminFp
  | vmaxFp => exact h.execVmaxFp
  | vcmpFp => exact h.execVcmpFp
  | vrnd => exact h.execVrnd
  | vrcp => exact h.execVrcp
  | vrsqrt => exact h.execVrsqrt
  | vsqrt => exact h.execVsqrt
  | vexp2 => exact h.execVexp2
  | vlog2 => exact h.execVlog2
  | vsin => exact h.execVsin
  | vcos => exact h.execVcos
  | vtanh => exact h.execVtanh
  | vsigm => exact h.execVsigm
  | vdiv => exact h.execVdiv
  | vcvt => exact h.execVcvt
  | vpack => exact h.execVpack
  | vunpk => exact h.execVunpk
  | vbscale => exact h.execVbscale
  | vperm => exact h.execVperm
  | vshx => exact h.execVshx
  | vup => exact h.execVup
  | vdn => exact h.execVdn
  | vbcast => exact h.execVbcast
  | vred => exact h.execVred
  | vscan => exact h.execVscan
  | vld => exact h.execVld
  | vst => exact h.execVst
  | vatom => exact h.execVatom
  | vfatomAddOrd => exact h.execVfatomAddOrd
  | vfatomMax => exact h.execVfatomMax
  | vspill => exact h.execVspill
  | vfill => exact h.execVfill
  | pclr => exact h.execPclr
  | pins => exact h.execPins
  | pmax => exact h.execPmax
  | padd => exact h.execPadd
  | pinf => exact h.execPinf
  | pconj => exact h.execPconj
  | psimp => exact h.execPsimp
  | peval => exact h.execPeval
  | parg => exact h.execParg
  | pget => exact h.execPget
  | vlate => exact h.execVlate
  | vres => exact h.execVres
  | sybindManual => exact h.execSybindManual
  | sybindCnt => exact h.execSybindCnt
  | sybindSlot => exact h.execSybindSlot
  | syset => exact h.execSyset
  | syrel => exact h.execSyrel
  | vkand => exact h.execVkand
  | vkor => exact h.execVkor
  | vkxor => exact h.execVkxor
  | vkandn => exact h.execVkandn
  | vknot => exact h.execVknot
  | vkset => exact h.execVkset
  | vksetC => exact h.execVksetC
  | laneLoadComplete => exact h.execLaneLoadComplete
  | sfuResultWrite => exact h.execSfuResultWrite
  | copyStart => exact h.execCopyStart
  | copyComplete => exact h.execCopyComplete
  | orderedCloseStep => exact h.execOrderedCloseStep
  | orderedQueueExhausted => exact h.execOrderedQueueExhausted
  | accumulatorGrant => exact h.execAccumulatorGrant
  | matrixOperationComplete => exact h.execMatrixOperationComplete
  | writeBackPerformed => exact h.execWriteBackPerformed
  | profileOperationComplete => exact h.execProfileOperationComplete
  | collectiveDescriptor => exact h.execCollectiveDescriptor
  | collectiveComplete => exact h.execCollectiveComplete
  | collectiveTimeout => exact h.execCollectiveTimeout
  | symbolResolution => exact h.execSymbolResolution
  | filingComplete => exact h.execFilingComplete
  | drainLaunch => exact h.execDrainLaunch
  | factRelaunch => exact h.execFactRelaunch
  | factDiscard => exact h.execFactDiscard
  | accreset => exact h.execAccreset
  | recordAcceptance => exact h.execRecordAcceptance
  | launchAgentWake => exact h.execLaunchAgentWake
  | hostLaunchPort => exact h.execHostLaunchPort
  | teamAdmission => exact h.execTeamAdmission
  | preemptionSave => exact h.execPreemptionSave
  | gridRetirement => exact h.execGridRetirement
  | faultRecordEnqueue => exact h.execFaultRecordEnqueue
  | curatorTrap => exact h.execCuratorTrap
  | verdictApplication => exact h.execVerdictApplication
  | hotspotMigration => exact h.execHotspotMigration
  | translationWalk => exact h.execTranslationWalk
  | serviceResponse => exact h.execServiceResponse
  | scrubPass => exact h.execScrubPass
  | spareSwapRequest => exact h.execSpareSwapRequest
  | hostMemoryWrite =>
    unfold Machine.exec
    exact h.execHostMemoryWrite
  | hostMemoryRead => exact h.execHostMemoryRead
  | peerRequest => exact h.execPeerRequest
  | memoryLinkFailure => exact h.execMemoryLinkFailure
  | nalmondLinkDown => exact h.execNalmondLinkDown
  | peerUnreachable => exact h.execPeerUnreachable
  | flitCrcFailure => exact h.execFlitCrcFailure
  | nalmondLaneLoss => exact h.execNalmondLaneLoss
  | peerLinkReturn => exact h.execPeerLinkReturn
  | vectorUnmask => exact h.execVectorUnmask
  | exit => exact h.execExit
  | tail => exact h.execTail
  | hret => exact h.execHret
  | melse => exact h.execMelse
  | mpop => exact h.execMpop
  | gbar => exact h.execGbar
  | bkfenceAll => exact h.execBkfenceAll
  | eret => exact h.execEret
  | pollingRecheck => exact h.execPollingRecheck
  | marketInterval => exact h.execMarketInterval
  | budgetTakeEffect => exact h.execBudgetTakeEffect
  | clockRaise => exact h.execClockRaise
  | governorSubslot => exact h.execGovernorSubslot
  | hostAllocationDeadline => exact h.execHostAllocationDeadline
  | spareSwapComplete => exact h.execSpareSwapComplete
  | hostLinkReset => exact h.execHostLinkReset
  | bringUp => exact h.execBringUp
  | recordWindowDeadline => exact h.execRecordWindowDeadline
  | attestationRequest => exact h.execAttestationRequest
  | attestationReportReady => exact h.execAttestationReportReady
  | illegalInstruction => exact h.execIllegalInstruction

theorem State.Canon.runWord {s : State} (h : s.Canon P Q) {i : Instr} : Out.Canon P Q (s.runWord i) := h.exec

theorem State.Canon.afterIssue {s0 : State} (h : s0.Canon P Q) {t i core band n : Nat} {a : Out} (ha : Out.Canon P Q a) : Out.Canon P Q
    (s0.afterIssue t i core band n a) := by
  unfold State.afterIssue
  split
  · extract_lets held s1 halted s2
    have hheld : held.Canon P Q := by
      unfold held
      split
      · exact h
      · exact h.withhold.mapGroup fun _ h1 => h1.upd
    have hs1 : s1.Canon P Q := ha.charge
    have hs2 : s2.Canon P Q := hs1.mapGroup fun _ h1 => h1.upd
    split
    · split
      · split
        · exact hheld
        · split
          · exact hs2.drainSfu
          · exact hs2
      · exact ha.mapGroup fun _ h1 => h1.upd
    · split
      · exact hheld
      · exact hs1
  · exact ha

theorem State.Canon.issueScalar {s : State} (h : s.Canon P Q) {t i : Nat} {g : Group} : Out.Canon P Q (s.issueScalar t i g) := by
  unfold State.issueScalar
  split
  next _ _ e => exact h.fetchWord.of_eq e
  next _ _ e => exact (h.fetchWord.of_eq e).raiseNow
  next _ w s1 e =>
    have h1 : s1.Canon P Q := h.fetchWord.of_eq e
    extract_lets run
    have hrun : ∀ s next, s.Canon P Q → Out.Canon P Q (run s next) := fun s next hs => by
      unfold run
      split
      · exact hs.refuse
      · exact hs.afterIssue hs.runWord
    split
    · split
      next _ _ e2 => exact h1.fetchWord.of_eq e2
      next _ _ e2 => exact hrun _ _ (h1.fetchWord.of_eq e2)
      next _ _ _ e2 => exact hrun _ _ (h1.fetchWord.of_eq e2)
    · exact hrun _ _ h1

theorem State.Canon.issueLane {s : State} (h : s.Canon P Q) {t i : Nat} {g : Group} (hg : g.Canon Q i) : Out.Canon P Q (s.issueLane t i g) := by
  unfold State.issueLane
  extract_lets run
  have hrun : ∀ s g, s.Canon P Q → Out.Canon P Q (run s g) := fun s g hs => by
    unfold run
    split
    · exact hs.refuse
    · exact hs.afterIssue hs.runWord
  split
  · split
    next _ _ e => exact h.fetchRun.of_eq e
    next _ _ e => exact (h.fetchRun.of_eq e).raiseNow
    next _ _ _ e => exact hrun _ _ ((h.fetchRun.of_eq e).putGroup hg.upd)
  · exact hrun _ _ h

theorem State.Canon.issueGroup {s : State} (h : s.Canon P Q) {t i : Nat} : Out.Canon P Q (s.issueGroup t i) := by
  unfold State.issueGroup
  split
  · exact h
  next _ _ e =>
    split
    · extract_lets s1
      have hs1 : s1.Canon P Q := h.putGroup ((h.group e).upd)
      split
      · exact hs1.issueScalar
      · exact hs1.issueLane (h.group e)
    · exact h

theorem State.Canon.afterCurator {s0 s1 : State} (h : s1.Canon P Q) {c band n : Nat} {i : Instr} : (s0.afterCurator s1 c band n i).Canon P Q := by
  unfold State.afterCurator
  extract_lets waits s
  have hs : s.Canon P Q := by
    unfold s
    split
    · exact h
    · exact h.charge
  exact hs.mapCore fun _ h1 => h1.upd

theorem State.Canon.issueCurator {s : State} (h : s.Canon P Q) {c : Nat} : Out.Canon P Q (s.issueCurator c) := by
  unfold State.issueCurator
  split
  · exact h
  · split
    · exact h.takeTrap
    · extract_lets a s1 b
      have hs1 : s1.Canon P Q := h.noteRead
      split
      · exact h.raiseNow
      · split
        · exact hs1.raiseNow
        · extract_lets n1
          split
          · split
            · exact hs1
            · exact hs1.withhold.mapCore fun _ h1 => h1.upd
          · split
            next _ _ e5 => exact (hs1.runWord.of_eq e5).afterCurator
            · exact hs1.runWord

theorem State.Canon.issue {s : State} (h : s.Canon P Q) {a : Agent} : Out.Canon P Q (s.issue a) := by
  unfold State.issue
  extract_lets s1
  have hs1 : s1.Canon P Q := h.upd
  split
  · exact hs1.issueGroup
  · exact hs1.issueCurator

theorem State.Canon.passTime {s : State} (h : s.Canon P Q) {n : Nat} : (s.passTime n).Canon P Q := by
  unfold State.passTime
  extract_lets s1
  have hs1 : s1.Canon P Q := h.upd
  exact hs1.foldl fun _ h1 _ _ => h1.mxClocks

theorem State.Canon.act {s : State} (h : s.Canon P Q) {m : Move} : Out.Canon P Q (s.act m) := by
  unfold State.act
  extract_lets s1
  have hs1 : s1.Canon P Q := h.openRows
  split
  · exact hs1.issue
  · exact hs1.upd.exec
  · exact hs1.passTime
  · exact hs1.take

theorem State.Canon.nextMove {s : State} (h : s.Canon P Q) : (s.nextMove).2.Canon P Q := by
  unfold State.nextMove
  split
  · dsimp only
    exact h.upd
  · split
    next _ _ _ e1 =>
      dsimp only
      exact .of_snd e1 h.draw

theorem State.Canon.step {s : State} (h : s.Canon P Q) : Out.Canon P Q (step s) := h.nextMove.act

end Sys2Proof.Machine
end

