-- ==== Sys2Proof/Proofs/StepCanonical.lean ====
section
/-! PROOF. O59: a step keeps the stores and the tables canonical. -/

namespace Sys2Proof.Machine

open Sys2Proof

/-- Settles O59: the canonical form, stores and tables each behind a premise of its own, is kept by every arm of exec and by what issuing a word,
passing time and taking an input add. -/
theorem stepKeepsStoresCanonical : Obligations.StepKeepsStoresCanonical := by
  unfold Obligations.StepKeepsStoresCanonical
  constructor
  · intro s s' hs hstep
    have h : s.Canon True False := State.canon_iff.2 ⟨fun _ => hs, False.elim⟩
    exact (State.canon_iff.1 (h.step.of_eq hstep)).1 trivial
  · intro s s' ht hstep
    have h : s.Canon False True := State.canon_iff.2 ⟨False.elim, fun _ => ht⟩
    exact (State.canon_iff.1 (h.step.of_eq hstep)).2 trivial

end Sys2Proof.Machine
end

