-- ==== Sys2Proof/Proofs/CopyIntoBlocks.lean ====
section
set_option Elab.async false
/-! PROOF. O40 is refuted. Its clause on copies of a row asks of the destination only that its elements are whole bytes, not that its format is one that
the form allows (05 R107) or that it is no block-scaled one. Format 6 (04 R76) has one-byte elements too, and its codes stand behind the 32 scale bytes of
their superblock: the copy writes beyond the n bytes from the address of the row. -/

namespace Sys2Proof.Machine

open Sys2Proof

namespace BlockCopy

/-- A shape register that lays out one element of a format at an address of a space. -/
def oneElement (space fmt addr : Nat) : ShapeBits :=
  BitVec.ofNat 512 (addr + space * 2 ^ 60 + fmt * 2 ^ 64 + 1 * 2 ^ 88 + 1 * 2 ^ 96 + 1 * 2 ^ 256)

/-- The slice: an FP32 element at 0x100 of team memory goes to an element of format 6 at 0x200 of the annex window. -/
def slice : Slice :=
  { idx := 0, glid := 0, pc := 0x10000, lword := 0, dst := oneElement 2 6 0x200, src := oneElement 1 0 0x100, origin := [0, 0, 0, 0, 0], lanes := 0,
    addrs := [], seq := 0 }

/-- The operands of its cpx: no barrier slot, no counter word. -/
def operands : CopyOps := ⟨.cpx, 1, 31, 0, 0, 0, 0, [], 0⟩

/-- The copy, which moves. -/
def op : Op := ⟨0, 0, 0, 0, 0x10000, 0, some .cp, false, .moving, none, 0, .copy operands [slice]⟩

/-- Group 0 of team 0, which runs on core 0. -/
def group : Group := Group.fresh 0 ⟨2, 0, 96, 10, 0⟩ 0 0 State.bootRecord

/-- Its team, with the word 1 at 0x100. -/
def team : Team := { Team.fresh 0 0 0 (Spec.of State.bootRecord false) State.bootRecord 0 0 0 with tm := [(0x100, 1)] }

/-- The machine at reset with that team resident and the copy under way. -/
def state : State :=
  { State.reset with teams := [(0, team)], groups := [(0, group)], grids := [(0, State.bootGrid)], ops := [(0, op)] }

/-- The first code of the destination: behind the 32 scale bytes. -/
def code : Loc := .annex 0 0x220

theorem state_completes : state.Completes 0 0 op team group where
  sound := ⟨rfl, rfl, rfl⟩
  owf := rfl
  gwf := rfl
  keys := by
    intro k e he
    have hm : (k, e) ∈ [(0, group)] := Tab.mem_of_get he
    obtain ⟨rfl, rfl⟩ := Prod.mk.inj (List.mem_singleton.1 hm)
    rfl
  op := rfl
  moving := rfl
  team := rfl
  alive := rfl
  whole := rfl
  twf := by decide
  lt := by decide
  idx := rfl
  group := rfl
  runs := rfl
  awake := rfl

/-- The issue of such a copy would have been refused: a destination of another format is an illegal field (05 R107). -/
theorem formats_refused : CopyForm.cpx.formatsOk (Shape.of slice.dst) (Shape.of slice.src) = false := by decide +kernel

theorem source_isRow : IsRow slice.src 1 0 0x100 1 := by unfold IsRow; decide +kernel

theorem destination_isRow : IsRow slice.dst 2 6 0x200 1 := by unfold IsRow; decide +kernel

theorem destination_width : (Shape.of slice.dst).width = 8 * 1 := by decide +kernel

/-- The byte at a place after an event, where there is a next state. -/
def byteAfter (o : Out) (l : Loc) : Byte :=
  match o with
  | .next s => s.byteAt l
  | _ => 0

theorem code_before : state.byteAt code = 0 := by decide +kernel

theorem code_after : byteAfter (exec (.copyComplete 0) state) code = 1 := by decide +kernel

end BlockCopy

open BlockCopy in
/-- Refutes O40: a moving cpx of one FP32 element, 1, from 0x100 of team memory to a row of one element of the block-scaled format 6 at 0x200 of the annex.
The statement takes byte 0x200 alone for the destination; the completion writes the element's code at 0x220. -/
theorem not_copiesArePerformed : ¬ Obligations.CopiesArePerformed := by
  unfold Obligations.CopiesArePerformed
  rintro ⟨-, -, rows, -⟩
  have row := rows state 0 0 op team group operands slice 1 1 1 2 0 6 0x100 0x200 (fun b => .team 0 b) (fun b => .annex 0 b) state_completes rfl rfl rfl rfl
    (by decide) (by decide) source_isRow destination_isRow destination_width (by decide) rfl rfl rfl rfl nofun
    (.inl ⟨rfl, fun _ => rfl⟩) (fun _ _ => trivial)
  have inWindow (b : Nat) : Loc.annex 0 b = .annex (op.core / 12) ((state.window op.tid).1 + b) := by
    rw [show (state.window op.tid).1 = 0 from rfl, Nat.zero_add]; rfl
  obtain ⟨s', hnext, -, frame, -⟩ := row.1 (.inr (.inl ⟨rfl, inWindow⟩)) (fun k hk => by simp only [Loc.Real]; omega) (fun _ _ _ _ => nofun) (fun _ => nofun) nofun nofun
    (fun _ => nofun)
  have kept : s'.byteAt code = state.byteAt code := frame code (by simp [code, Loc.Real]) fun k hk e => by
    simp only [code, Loc.annex.injEq] at e; omega
  have written : s'.byteAt code = 1 := by simpa only [hnext, byteAfter] using code_after
  rw [code_before, written] at kept
  exact absurd kept (by decide)

end Sys2Proof.Machine
end

