-- ==== Sys2Proof/Proofs/WriteBackScales.lean ====
section
/-! PROOF. O43 is refuted. Its clause on write-backs says for every `fmt` and every destination that no byte outside the spans of the destination's elements
changes, and only its two last parts tie smode 2 to the block-scaled formats 6 and 7 (03 R68). With smode 2 the model writes a scale byte for each block
(04 R86), and the spans of an element hold a scale byte only where the format is block-scaled: of an FP32 destination the byte lies beyond them. -/

namespace Sys2Proof.Machine

open Sys2Proof

namespace ScaledWriteBack

/-- A destination in team memory: a column of two FP32 elements, at 0x200 and, 256 elements further on, at 0x600. -/
def dst : ShapeBits :=
  BitVec.ofNat 512 (0x200 + 1 * 2 ^ 60 + 2 * 2 ^ 88 + 1 * 2 ^ 96 + 2 * 2 ^ 128 + 1 * 2 ^ 256 + 256 * 2 ^ 304)

/-- A write-back of a0 of core 0 with smode 2 and the FP32 format: no barrier slot, no clip. -/
def word : Mxwb :=
  { acc := 0, keep := false, pair := false, dst := dst, scale := 0, fmt := 0x200, clip := 0x7F800000, seed := 0, cnt := 0, bsl := 31, core := 0,
    res := false, res2 := false }

/-- Its operation, of group 0 of team 0. -/
def op : Op := ⟨0, 0, 0, 0, 0x10000, 0, none, false, .ready, none, 0, .mxwb word⟩

/-- Its team, with its memory zero. -/
def team : Team := { BlockCopy.team with tm := [] }

/-- The machine at reset with that team resident and the write-back at the head of core 0's queue. -/
def state : State :=
  { State.reset with teams := [(0, team)], groups := [(0, BlockCopy.group)], grids := [(0, State.bootGrid)], ops := [(0, op)],
                     cores := [(0, { Core.fresh with mxq := [0] })] }

/-- The place that the second element's offset, 256, gives for a scale byte: 256 / 32 bytes from the address of the tile. -/
def scaleByte : Loc := .team 0 0x208

/-- `sset` would have refused such a `fmt`: with smode 2 FP32 is no format of the mode (03 R68). -/
theorem fmt_refused : fmtOk word.fmt = false := by decide +kernel

theorem dst_fields :
    Shape.of dst = { space := 1, addr := 0x200, fmt := 0, layout := 0, ndim := 2, nanfill := false, exts := [1, 2], strides := [1, 256], stslot := 0, cbtag := 0 } := by
  decide +kernel

/-- The elements lie in team memory. -/
theorem dst_place (a : Nat) (l : Loc) : (if (Shape.of dst).space = 1 then Loc.team op.tid a else l) = .team 0 a :=
  if_pos (congrArg Shape.space dst_fields)

theorem dst_ok : Shape.ok false dst = true := by decide +kernel

theorem dst_offset_injective :
    ∀ c ∈ Shape.box (Shape.of dst).exts, ∀ d ∈ Shape.box (Shape.of dst).exts, (Shape.of dst).offset c = (Shape.of dst).offset d → c = d := by
  decide +kernel

/-- The bytes of the two elements. -/
theorem dst_spans {c : List Int} (hc : c ∈ Shape.box (Shape.of dst).exts) {q : Int × Nat} (hq : q ∈ (Shape.of dst).spans c) :
    q = (0x200, 4) ∨ q = (0x600, 4) := by
  have all : (Shape.box (Shape.of dst).exts).flatMap (Shape.of dst).spans = [(0x200, 4), (0x600, 4)] := by decide +kernel
  simpa only [all, List.mem_cons, List.not_mem_nil, or_false] using List.mem_flatMap.2 ⟨c, hc, hq⟩

/-- The scale byte lies in no element. -/
theorem scaleByte_outside {c : List Int} (hc : c ∈ Shape.box (Shape.of dst).exts) {q : Int × Nat} (hq : q ∈ (Shape.of dst).spans c) {b : Nat}
    (hb : b < q.2) : scaleByte ≠ .team 0 (q.1.toNat + b) := by
  intro e
  simp only [scaleByte, Loc.team.injEq, true_and] at e
  rcases dst_spans hc hq with rfl | rfl <;> omega

theorem scaleByte_before : state.byteAt scaleByte = 0 := by decide +kernel

/-- The scale of a block of zeros, 2^0, is the byte 127 (04 R86). -/
theorem scaleByte_after : BlockCopy.byteAfter (exec (.writeBackPerformed 0) state) scaleByte = 127 := by decide +kernel

end ScaledWriteBack

open ScaledWriteBack in
/-- Refutes O43: a write-back of zeros with smode 2 to a column of two FP32 elements, at 0x200 and 0x600 of team memory, at the head of its queue. The statement
has every byte outside the two elements as it was; the performed write-back stores the scale of the second element's block, 127, at 0x208. -/
theorem not_matrixOperationsArePerformed : ¬ Obligations.MatrixOperationsArePerformed := by
  unfold Obligations.MatrixOperationsArePerformed
  rintro ⟨-, -, writeBacks⟩
  have heads : ∀ k ∈ [0], (state.core k).mxq.head? = some 0 ∧ (state.core k).badA = [] := by decide +kernel
  have bytes_real : ∀ c ∈ Shape.box (Shape.of dst).exts, ∀ q ∈ (Shape.of dst).spans c, 0 ≤ q.1 ∧
      ∀ b, b < q.2 → (if (Shape.of dst).space = 1 then Loc.team op.tid (q.1.toNat + b)
        else .annex (op.core / 12) ((state.window op.tid).1 + (q.1.toNat + b))).Real := by
    refine fun c hc q hq => ⟨?_, fun b _ => ?_⟩
    · rcases dst_spans hc hq with rfl | rfl <;> decide
    · rw [dst_place]; trivial
  obtain ⟨s', hnext, -, -, -, frame, -⟩ := writeBacks state 0 0 1 2 op team BlockCopy.group word ⟨rfl, rfl, rfl⟩ rfl rfl rfl rfl rfl rfl rfl rfl rfl (by decide)
    rfl rfl rfl rfl rfl rfl heads dst_ok (.inl (congrArg Shape.space dst_fields)) (congrArg Shape.ndim dst_fields) (congrArg Shape.exts dst_fields) (by decide)
    (by decide) dst_offset_injective bytes_real
  have kept : s'.byteAt scaleByte = state.byteAt scaleByte := frame scaleByte trivial fun c hc q hq b hb e =>
    scaleByte_outside hc hq hb (e.trans (dst_place ..))
  have written : s'.byteAt scaleByte = 127 := by simpa only [hnext, BlockCopy.byteAfter] using scaleByte_after
  rw [scaleByte_before, written] at kept
  exact absurd kept (by decide)

end Sys2Proof.Machine
end

