-- ==== Sys2Proof/Proofs/FillerEvents.lean ====
section
/-! PROOF. O45: the Filler's own events (09 R172, R176, R177, R182; 23 R378). A filing is followed by its group's result and by what settles the
group's team, which may halt it and so touch the pre-emptions of a partition, but never its Filler; a commit wakes fences, and so changes groups
only; levels change the grids only. -/

namespace Sys2Proof.Machine

open Sys2Proof

/-- The row of a number after every row has been changed under its number. -/
theorem Tab.get_map_row {α : Type} {f : Nat × α → Nat × α} (hf : ∀ e, (f e).1 = e.1) (m : Tab α) (k : Nat) :
    Tab.get (m.map f) k = (m.get k).map fun v => (f (k, v)).2 := by
  have hkey : (fun e : Nat × α => (e.1, (f e).2)) = f := funext fun e => by rw [← hf e]
  induction m with
  | nil => rfl
  | cons e r ih =>
    obtain ⟨j, u⟩ := e
    rw [List.map_cons, ← hkey]
    simp only [get, hkey]
    split_ifs with hj
    · rw [hj]; rfl
    · rfl
    · exact ih

namespace State

variable {s s' s'' : State}

/-! ### What leaves every Filler as it is -/

/-- Every partition is as it was, but for its pre-emptions under way. -/
structure SameFillers (s s' : State) : Prop where
  part : ∀ p, ∃ ev, s'.part p = { s.part p with evict := ev }

namespace SameFillers

theorem of_parts (h : s'.parts = s.parts) : s.SameFillers s' :=
  ⟨fun p => ⟨(s.part p).evict, by rw [State.part, h]; rfl⟩⟩

theorem refl (s : State) : s.SameFillers s := .of_parts rfl

theorem trans (h : s.SameFillers s') (k : s'.SameFillers s'') : s.SameFillers s'' where
  part p := by
    obtain ⟨_, h⟩ := h.part p
    obtain ⟨ev, k⟩ := k.part p
    exact ⟨ev, by rw [k, h]⟩

theorem foldl {α : Type} {f : State → α → State} (hf : ∀ (s : State) a, s.SameFillers (f s a)) (h : s.SameFillers s') (l : List α) :
    s.SameFillers (l.foldl f s') :=
  List.foldlRecOn (motive := fun u : State => s.SameFillers u) l f h fun u ih a _ => ih.trans (hf u a)

end SameFillers

variable (s)

theorem mapGroup_fillers (t i : Nat) (f : Group → Group) : s.SameFillers (s.mapGroup t i f) := by
  unfold mapGroup
  split
  · exact .of_parts rfl
  · exact .refl s

theorem sfuWrite_fillers (h : Nat) : s.SameFillers (s.sfuWrite h) := by
  unfold sfuWrite
  split
  · split
    · simp only
      split
      · exact .of_parts rfl
      · exact .of_parts rfl
    · exact .of_parts rfl
    · exact .refl s
  · exact .refl s

theorem pauseTeam_fillers (t : Nat) (self : Option Nat) : s.SameFillers (s.pauseTeam t self) := by
  unfold pauseTeam
  split
  · exact .refl s
  · next x _ =>
    split
    · split
      · exact mapGroup_fillers ..
      · exact .refl s
    · have hput : s.SameFillers (s.putTeam t { x with halted := true }) := .of_parts rfl
      refine .foldl (fun u g => ?_) hput _
      have hmap := SameFillers.trans (s := u) (s' := u.draw.2) (.of_parts rfl) (mapGroup_fillers u.draw.2 t g.idx fun h => { h with
        skid := 0, skidMax := if !g.ended && g.wait.isNone && self != some g.idx then Config.skid u.draw.1 % 7 else 0 })
      simp only
      split
      · exact hmap
      · exact .foldl sfuWrite_fillers hmap _

/-- That a team is not to be resumed is noted in the pre-emptions under way. -/
theorem keepHalted_fillers (t : Nat) : s.SameFillers (s.keepHalted t) := by
  unfold keepHalted
  split
  · refine ⟨fun p => ?_⟩
    simp only [part]
    rw [Tab.get_map_row]
    · cases s.parts.get p with
      | none => exact ⟨[], rfl⟩
      | some y => exact ⟨_, rfl⟩
    · exact fun _ => rfl
  · exact .refl s

theorem haltTeam_fillers (t : Nat) (self : Option Nat) : s.SameFillers (s.haltTeam t self) :=
  (pauseTeam_fillers s t self).trans (keepHalted_fillers _ t)

theorem raiseGroup_fillers (t i : Nat) (code : FaultCode) (d : Detail) : s.SameFillers (s.raiseGroup t i code d) := by
  unfold raiseGroup
  split
  · simp only
    refine SameFillers.trans ?_ (haltTeam_fillers _ t (some i))
    exact .of_parts rfl
  · exact .refl s

theorem raiseOp_fillers (h i : Nat) (pc : DWord) (w : Word) (code : FaultCode) (d : Detail) : s.SameFillers (s.raiseOp h i pc w code d) := by
  unfold raiseOp
  split
  · exact .refl s
  · next o _ =>
    simp only
    split
    · exact .of_parts rfl
    · refine SameFillers.trans ?_ (haltTeam_fillers _ o.tid none)
      exact .of_parts rfl

theorem reportDead_fillers (t : Nat) : s.SameFillers (s.reportDead t) := by
  unfold reportDead
  refine .foldl (fun u h => ?_) (.refl s) _
  split
  · exact raiseOp_fillers ..
  · exact .refl u

theorem sameButGroups_fillers (h : s.SameButGroups s') : s.SameFillers s' := .of_parts (by rw [show s' = _ from h])

theorem retire_fillers (t : Nat) : s.SameFillers (s.retire t) := by
  unfold retire
  split
  · exact .refl s
  · simp only
    rw [foldl_cores fun s c => releaseAcc_cores s t c, dropErrs_eq]
    split
    · exact .of_parts rfl
    · exact .of_parts rfl

theorem retireCheck_fillers (t : Nat) : s.SameFillers (s.retireCheck t) := by
  unfold retireCheck
  split
  · exact .refl s
  · extract_lets freed ended
    have hfreed : s.SameFillers freed := .of_parts rfl
    split
    · exact hfreed.trans (retire_fillers freed t)
    · exact hfreed

theorem tidyTeam_fillers (t : Nat) : s.SameFillers (s.tidyTeam t) := by
  have hdead := reportDead_fillers s t
  unfold tidyTeam
  simp only
  split
  · exact hdead
  · exact (hdead.trans (sameButGroups_fillers _ (barrierCheck_sameButGroups _ _))).trans (retireCheck_fillers _ t)

theorem checkDeadlock_fillers (t : Nat) : s.SameFillers (s.checkDeadlock t) := by
  have hdraw : s.SameFillers s.draw.2 := .of_parts rfl
  unfold checkDeadlock
  split
  · simp only
    split
    · exact hdraw.trans (raiseGroup_fillers ..)
    · exact hdraw
  · exact .refl s

/-- Whatever settles a team (01 R34, R35, R40; 05 R102) leaves the Fillers. -/
theorem settleTeam_fillers (t : Nat) : s.SameFillers (s.settleTeam t) := (tidyTeam_fillers s t).trans (checkDeadlock_fillers _ t)

/-! ### Levels of drain grids (09 R181) -/

theorem levels_eq (p n : Nat) : levels p n s = { s with grids := (levels p n s).grids } := by
  induction n generalizing s with
  | zero => rfl
  | succ n ih => rw [levels, ih]; rfl

/-- Only the grids differ where levels have been given. -/
theorem relevel_eq (p : Nat) : s.relevel p = { s with grids := (s.relevel p).grids } := by
  rw [relevel, levels_eq]
  rfl

theorem relevel_part (p q : Nat) : (s.relevel p).part q = s.part q := by rw [relevel_eq]; rfl

theorem mapPart_sameSpaces (p : Nat) (f : Part → Part) : s.SameSpaces (s.mapPart p f) :=
  ⟨mapPart_stores .., rfl, rfl, rfl, fun _ => rfl, fun _ => rfl⟩

theorem relevel_sameSpaces (p : Nat) : s.SameSpaces (s.relevel p) := by
  rw [relevel_eq]
  exact ⟨.refl s, rfl, rfl, rfl, fun _ => rfl, fun _ => rfl⟩

variable {s}

/-- A grid stays in its row, all but its level as it was. -/
theorem setLevels_grid {n : Nat} {g : Grid} (h : s.grid n = some g) (p : Nat) (f : FEnt → Nat) :
    ∃ v, (s.setLevels p f).grid n = some { g with prio := v } := by
  have hrow : s.grids.get n = some g := h
  simp only [grid, setLevels]
  rw [Tab.get_map_row, hrow]
  · simp only [Option.map_some]
    split
    · split
      · split
        · exact ⟨_, rfl⟩
        · exact ⟨g.prio, rfl⟩
      · exact ⟨g.prio, rfl⟩
    · exact ⟨g.prio, rfl⟩
  · intro e
    split
    · split
      · split <;> rfl
      · rfl
    · rfl

theorem levels_grid {n : Nat} {g : Grid} (h : s.grid n = some g) (p k : Nat) : ∃ v, (levels p k s).grid n = some { g with prio := v } := by
  induction k generalizing s g with
  | zero => exact ⟨g.prio, h⟩
  | succ k ih =>
    obtain ⟨v, hv⟩ := setLevels_grid h p (s.drainLevel p)
    obtain ⟨w, hw⟩ := ih hv
    exact ⟨w, hw⟩

theorem relevel_grid {n : Nat} {g : Grid} (h : s.grid n = some g) (p : Nat) : ∃ v, (s.relevel p).grid n = some { g with prio := v } := by
  obtain ⟨v, hv⟩ := setLevels_grid h p (s.baseLevel p)
  obtain ⟨w, hw⟩ := levels_grid hv p (s.part p).entries.length
  exact ⟨w, hw⟩

/-! ### Fences -/

/-- Only the groups differ after fences have been looked at. -/
theorem fenceCheck_sameButGroups (s : State) (p : Nat) : s.SameButGroups (s.fenceCheck p) := by
  unfold fenceCheck
  refine List.foldlRecOn (motive := fun u : State => s.SameButGroups u) _ _ rfl fun u ih e _ => ?_
  have hput (m : Tab Group) : s.SameButGroups { u with groups := m } := by rw [ih]; rfl
  split
  · split
    · exact hput _
    · exact ih
  · exact ih

/-- A fence that completes moves no byte: its group keeps its spill stack. -/
theorem fenceCheck_sameSpaces (hw : Tab.wf s.groups = true) (p : Nat) : s.SameSpaces (s.fenceCheck p) := by
  unfold fenceCheck
  refine List.foldlRecOn (motive := fun u : State => s.SameSpaces u) _ _ (.refl s) fun u ih e he => ?_
  split
  · split
    · exact ih.setGroup (Tab.get_of_mem hw he) (Group.advance_spill ..)
    · exact ih
  · exact ih

/-! ### Filing (09 R172, R176) -/

/-- A filing that completes adds its entry and takes the next number; what its group and team do then leaves the Fillers. -/
theorem completeFiling_fillers (s : State) (p : Nat) (f : Filing) :
    (s.putPart p { s.part p with
      entries := (s.part p).entries ++ [⟨(s.part p).next, f, .filed, 0⟩], next := accNext (s.part p).next }).SameFillers
      (s.completeFiling p f) := by
  unfold completeFiling
  extract_lets x filed
  split
  · exact .refl filed
  · next o _ =>
    have hdone : filed.SameFillers { filed with ops := filed.ops.del f.op } := .of_parts rfl
    exact (hdone.trans (mapGroup_fillers ..)).trans (settleTeam_fillers ..)

/-- The first parked filing, where it fits, is filed. -/
theorem fileParked_files {p : Nat} {f : Filing} {r : List Filing} (hp : (s.part p).parked = f :: r)
    (hf : s.fitsWith p (s.part p).entries f = true) : ((s.fileParked p).part p).parked = r ∧
      ((s.fileParked p).part p).entries = (s.part p).entries ++ [⟨(s.part p).next, f, .filed, 0⟩] ∧
      ((s.fileParked p).part p).next = accNext (s.part p).next := by
  have heq : s.fileParked p = ((s.mapPart p fun x => { x with parked := r }).completeFiling p f).relevel p := by
    simp only [fileParked, hp, hf, if_true]
  obtain ⟨ev, h⟩ := (completeFiling_fillers (s.mapPart p fun x => { x with parked := r }) p f).part p
  rw [heq, relevel_part, h, part_putPart, mapPart_part]
  exact ⟨rfl, rfl, rfl⟩

/-! ### Drains (09 R177, R182) -/

/-- A record that fails no check and whose two code pages are at hand passes (01 R25). -/
theorem checkRecord_passes {who : Req} {core : Option Nat} {p asid pa pb : Nat} {r : BitVec 1024} {drain : Bool}
    (hcodes : s.recordCodes p r drain = []) (he : Rec.entry r < 2 ^ 57) (hl : Rec.laneBase r < 2 ^ 57)
    (hpa : s.translate who core p asid .fetch (Rec.entry r) = .ok pa) (hpb : s.translate who core p asid .fetch (Rec.laneBase r) = .ok pb) :
    s.checkRecord who core p asid r drain = .code 0 s := by
  have hlow : ¬(2 ^ 57 ≤ Rec.entry r ∨ 2 ^ 57 ≤ Rec.laneBase r) := by omega
  simp only [checkRecord, hcodes, hpa, hpb, Bool.or_eq_true, decide_eq_true_eq, if_neg hlow]

/-- The new state of an entry stands in the Filler. -/
theorem markEntry_entries (s : State) (p acc : Nat) (st : FState) (n : Nat) : ((s.markEntry p acc st n).part p).entries =
    (s.part p).entries.map fun y => if y.acc = acc then { y with state := st, grid := n } else y := by
  rw [markEntry, relevel_part, mapPart_part]

/-- Of the grids it changes no more than the levels. -/
theorem markEntry_grid {n : Nat} {g : Grid} (h : s.grid n = some g) (p acc : Nat) (st : FState) (k : Nat) :
    ∃ v, (s.markEntry p acc st k).grid n = some { g with prio := v } := by
  rw [markEntry]
  exact relevel_grid (s := s.mapPart p _) h p

theorem markEntry_sameSpaces (s : State) (p acc : Nat) (st : FState) (n : Nat) : s.SameSpaces (s.markEntry p acc st n) :=
  (mapPart_sameSpaces ..).trans (relevel_sameSpaces _ p)

theorem addGrid_sameSpaces (s : State) (g : Grid) : s.SameSpaces (s.addGrid g) :=
  ⟨⟨rfl, rfl, rfl, rfl⟩, rfl, rfl, rfl, fun _ => rfl, fun _ => rfl⟩

theorem addGrid_grid (s : State) (g : Grid) : (s.addGrid g).grid s.handles = some { g with age := (s.part g.part).ages } :=
  Tab.get_set_same ..

theorem addGrid_entries (s : State) (g : Grid) : ((s.addGrid g).part g.part).entries = (s.part g.part).entries := by
  have hput : (s.addGrid g).part g.part = { s.part g.part with ages := (s.part g.part).ages + 1 } := part_putPart ..
  rw [hput]

/-- The drain grid of an entry as it is accepted (09 R177). -/
def drainGrid (s : State) (p : Nat) (e : FEnt) : Grid :=
  { newGrid p e.f.record .nowhere e.f.asid e.f.awBase e.f.awSize (s.drainLevel p e) with drain := some e.acc }

section

variable {p : Nat} {e : FEnt} (h : s.checkRecord .hub none p e.f.asid e.f.record true = .code 0 s) (wait : State → State)

include h

/-- The grid is added and counted, and the entry marked. -/
theorem launchDrain_eq : s.launchDrain p e wait =
    ((s.addGrid (s.drainGrid p e)).mapPart p fun x => { x with drains := x.drains + 1 }).markEntry p e.acc .draining s.handles := by
  unfold launchDrain
  split
  · next hwait => cases h.symm.trans hwait
  · next hpass =>
    cases h.symm.trans hpass
    rfl
  · next hne hcode =>
    cases h.symm.trans hcode
    exact absurd rfl hne

/-- Its drain grid stands under the next handle, of the copy of the record. -/
theorem launchDrain_grid : ∃ v, (s.launchDrain p e wait).grid s.handles =
    some { s.drainGrid p e with age := (s.part p).ages, prio := v } := by
  rw [launchDrain_eq h]
  exact markEntry_grid (s := (s.addGrid _).mapPart p _) (addGrid_grid s (s.drainGrid p e)) ..

/-- The entry is draining, by that grid. -/
theorem launchDrain_entries : ((s.launchDrain p e wait).part p).entries =
    (s.part p).entries.map fun y => if y.acc = e.acc then { y with state := .draining, grid := s.handles } else y := by
  rw [launchDrain_eq h, markEntry_entries, mapPart_part]
  exact congrArg (List.map _) (addGrid_entries s (s.drainGrid p e))

theorem launchDrain_sameSpaces : s.SameSpaces (s.launchDrain p e wait) := by
  rw [launchDrain_eq h]
  exact ((addGrid_sameSpaces ..).trans (mapPart_sameSpaces ..)).trans (markEntry_sameSpaces ..)

/-- An entry whose record passes gets its drain grid, and no byte of memory moves. -/
theorem launchDrain_launches : ∃ gr, (s.launchDrain p e wait).grid s.handles = some gr ∧ gr.drain = some e.acc ∧ gr.record = e.f.record ∧
    gr.part = p ∧ gr.next = 0 ∧ ((s.launchDrain p e wait).part p).entries =
      (s.part p).entries.map (fun y => if y.acc = e.acc then { y with state := .draining, grid := s.handles } else y) ∧
    s.MemorySame (s.launchDrain p e wait) := by
  obtain ⟨_, hgr⟩ := launchDrain_grid h wait
  exact ⟨_, hgr, rfl, rfl, rfl, rfl, launchDrain_entries h wait, (launchDrain_sameSpaces h wait).memorySame⟩

end

/-! ### Discards -/

/-- A committed entry has left. -/
theorem commitEntry_entries (s : State) (p acc : Nat) :
    ((s.commitEntry p acc).part p).entries = (s.part p).entries.filter fun e => e.acc != acc := by
  obtain ⟨_, h⟩ := (sameButGroups_fillers _ (fenceCheck_sameButGroups
    (s.mapPart p fun x => { x with entries := x.entries.filter fun e => e.acc != acc }) p)).part p
  rw [commitEntry, relevel_part, h, mapPart_part]

theorem commitEntry_sameSpaces (hw : Tab.wf s.groups = true) (p acc : Nat) : s.SameSpaces (s.commitEntry p acc) :=
  ((mapPart_sameSpaces ..).trans (fenceCheck_sameSpaces (s := s.mapPart p _) hw p)).trans (relevel_sameSpaces _ p)

end State

/-! ### The events -/

section

variable {s : State} {p : Nat} {e : FEnt}

theorem exec_filingComplete (s : State) (p : Nat) : exec (.filingComplete p) s = .next (s.fileParked p) := rfl

/-- DRAIN_LAUNCH takes the first entry that the selector may launch. -/
theorem exec_drainLaunch (h : (s.part p).entries.find? (fun y => State.relaunching y ||
    (State.eligible (s.part p).entries y && s.released p y)) = some e) : exec (.drainLaunch p) s = .next (s.launchDrain p e id) := by
  have hexec : exec (.drainLaunch p) s = execDrainLaunch p s := rfl
  simp only [hexec, execDrainLaunch, h]

/-- FACT_RELAUNCH and FACT_DISCARD take the failed entry that faccn names. -/
theorem exec_factRelaunch (h : s.failedEntry p = some e) :
    exec (.factRelaunch p) s = .next (s.launchDrain p e fun u => u.markEntry p e.acc .draining 0) := by
  have hexec : exec (.factRelaunch p) s = .next (s.relaunchFailed p) := rfl
  simp only [hexec, State.relaunchFailed, h]

theorem exec_factDiscard (h : s.failedEntry p = some e) : exec (.factDiscard p) s = .next (s.commitEntry p e.acc) := by
  have hexec : exec (.factDiscard p) s = .next (s.discardFailed p) := rfl
  simp only [hexec, State.discardFailed, h]

theorem exec_accreset (s : State) (p : Nat) : exec (.accreset p) s =
    .next (if (s.part p).entries = [] then s.putPart p { s.part p with next := 1 } else s) := by
  have hexec : exec (.accreset p) s = .next (s.resetAcc p) := rfl
  simp only [hexec, State.resetAcc, List.isEmpty_iff, State.mapPart]

end

/-- Settles O45, event by event. -/
theorem fillerEventsComplete : Obligations.FillerEventsComplete := by
  unfold Obligations.FillerEventsComplete
  intro s p hw
  refine ⟨fun f r hp hf => ?filing, fun e pa pb hcodes he hl hpa hpb => ?launch, fun e hfail => ?discard, fun hnil => ?reset, fun hne => ?kept⟩
  case filing => exact ⟨_, exec_filingComplete s p, State.fileParked_files hp hf⟩
  case launch =>
    have hpass := State.checkRecord_passes hcodes he hl hpa hpb
    refine ⟨fun hfind => ?_, fun hfail => ?_⟩
    · exact ⟨_, (State.launchDrain_launches hpass id).imp fun _ h => ⟨exec_drainLaunch hfind, h⟩⟩
    · exact ⟨_, (State.launchDrain_launches hpass _).imp fun _ h => ⟨exec_factRelaunch hfail, h⟩⟩
  case discard =>
    exact ⟨_, exec_factDiscard hfail, State.commitEntry_entries .., (State.commitEntry_sameSpaces hw ..).memorySame⟩
  case reset => rw [exec_accreset, if_pos hnil]
  case kept => rw [exec_accreset, if_neg hne]

end Sys2Proof.Machine
end

