-- ==== Sys2Proof/Proofs/FormValues.lean ====
section
/-! PROOF. O34: the value of a form (10 R188), and vres (10 R195). A register made concrete takes its values in the live lanes and gives up its tag and its
sidecar slot; the write of vres, which acts in every live lane, then writes those values again. -/

namespace Sys2Proof.Machine

open Sys2Proof

/-! ### The value of a form (10 R188) -/

/-- A scale is ±0 where its magnitude is zero. -/
theorem scale_eq_zero_iff (sc : Word) : sc.setWidth 31 = 0 ↔ sc = 0 ∨ sc = 0x80000000 := by
  have h : sc.toNat % 2 ^ 31 = 0 ↔ sc.toNat = 0 ∨ sc.toNat = 0x80000000 := by have := sc.isLt; omega
  simp only [BitVec.toNat_eq, BitVec.toNat_setWidth]
  exact h

theorem formVal_zero {sc : Word} (h : sc = 0 ∨ sc = 0x80000000) (x o : Word) : formVal sc x o = o :=
  if_pos ((scale_eq_zero_iff sc).2 h)

theorem formVal_of_scale {sc : Word} (h : ¬(sc = 0 ∨ sc = 0x80000000)) (x o : Word) :
    formVal sc x o = if (f32 x).isNan || (f32 o).isNan then 0x7FC00000 else (rne32 ((f32 sc).fma (f32 x) (f32 o)).1).1 :=
  if_neg ((scale_eq_zero_iff sc).not.2 h)

/-! ### Stores and masks -/

/-- What is not kept reads as zero. -/
theorem Cells.get_keep_of_false {w : Nat} {p : Nat → Bool} {k : Nat} (h : p k = false) (m : Cells w) : (m.keep p).get k = 0 := by
  induction m with
  | nil => rfl
  | cons e r ih =>
    obtain ⟨j, u⟩ := e
    rw [keep, List.filter_cons]
    split
    next hj =>
      have hne : j ≠ k := fun he => by simp [he, h] at hj
      rw [get, if_neg hne]
      split
      · rfl
      · exact ih
    next => exact ih

namespace Group

variable {g : Group} {lane : Bool} {x : Nat → Option Word} {r : Nat}

theorem getLsbD_liveMask {l : Nat} (hl : l < 96) : g.liveMask.getLsbD l = decide (l < g.live) := by
  rw [liveMask, lanesBelow, BitVec.getLsbD_ofNat, Nat.testBit_two_pow_sub_one, decide_eq_true hl, Bool.true_and]

theorem liveMask_ne_zero (h : 0 < g.live) : g.liveMask ≠ 0 := fun he => by
  have h0 := getLsbD_liveMask (g := g) (l := 0) (by decide)
  rw [he, decide_eq_true h] at h0
  exact absurd h0 (by decide)

/-- A row of lanes written by a fold over a mask: every lane of every register. -/
theorem get_foldl_lanesOf {v : Cells 32} (hv : v.wf = true) (r : Nat) (m : LaneMask) (f : Nat → Word) (q : Nat) {l : Nat} (hl : l < 96) :
    ((lanesOf m).foldl (fun v l => v.set (96 * r + l) (f l)) v).get (96 * q + l) =
      if q = r ∧ m.getLsbD l = true then f l else v.get (96 * q + l) := by
  split
  next h =>
    obtain ⟨rfl, hm⟩ := h
    exact get_foldl_lanes _ q f v hv l (mem_lanesOf.2 ⟨hl, hm⟩)
  next h =>
    refine get_foldl_set _ (fun l => 96 * r + l) f v hv _ fun j hj he => h ?_
    obtain ⟨hj, hm⟩ := mem_lanesOf.1 hj
    obtain ⟨rfl, rfl⟩ : q = r ∧ l = j := by omega
    exact ⟨rfl, hm⟩

/-! ### Registers that hold forms, with no result on its way -/

theorem readsForm_idle (h : g.Idle) (lane : Bool) (r : Nat) : g.readsForm lane r = g.deferred r := by
  unfold Idle at h
  simp [readsForm, h]

theorem scale_idle (h : g.Idle) (lane : Bool) (r l : Nat) : g.scale lane r l = g.scar.get (96 * g.tagSlot r + l) := by
  unfold Idle at h
  simp [scale, seenV, h]

theorem allValues_idle (h : g.Idle) (r : Nat) : g.allValues r = g := by
  unfold Idle at h
  simp [allValues, h]

theorem tagSym_lt (g : Group) (r : Nat) : g.tagSym r < 32 := Nat.mod_lt _ (by decide)

/-- A register that holds a form reads as the value of that form (10 R188). -/
theorem value_form (h : g.Idle) (hd : g.deferred r = true) (l : Nat) :
    g.value lane x r l = formVal (g.scar.get (96 * g.tagSlot r + l)) ((x (g.tagSym r)).getD 0) (g.v.get (96 * r + l)) := by
  rw [value, readsForm_idle h, if_pos hd, scale_idle h, readV_idle h]

/-- What a word that reads one register waits for. -/
theorem pendingSym_singleton (h : g.Idle) :
    g.pendingSym lane x [r] = if g.deferred r = true ∧ x (g.tagSym r) = none then some (g.tagSym r) else none := by
  have hmin : Nat.min 31 (g.tagSym r) = g.tagSym r := Nat.min_eq_right (by have := tagSym_lt g r; omega)
  simp only [pendingSym, readsForm_idle h, List.filter_cons, List.filter_nil, Bool.and_eq_true, Option.isNone_iff_eq_none]
  split_ifs <;> simp_all

/-- A register made concrete: its values in the live lanes, its tag and its slot gone. -/
theorem concrete_eq (hb : g.badV = []) (hd : g.deferred r = true) : g.concrete x r = { g with
    v := (lanesOf g.liveMask).foldl (fun v l =>
      v.set (96 * r + l) (formVal (g.scar.get (96 * g.tagSlot r + l)) ((x (g.tagSym r)).getD 0) (g.v.get (96 * r + l)))) g.v,
    tags := g.tags.set r 0, scar := g.scar.keep fun k => k / 96 != g.tagSlot r } := by
  have hd' : (g.tags.get r).getLsbD 0 = true := hd
  simp [concrete, freeTag, rowsWritten, deferred, tagSlot, hd', hb]

section

variable (hb : g.badV = []) (hd : g.deferred r = true)

include hb hd

theorem concrete_v_wf (hv : g.v.wf = true) : (g.concrete x r).v.wf = true := by
  rw [concrete_eq hb hd]
  exact wf_foldl_set _ (fun l => 96 * r + l) _ _ hv

/-- Each lane of each register after it. -/
theorem get_concrete (hv : g.v.wf = true) (q : Nat) {l : Nat} (hl : l < 96) : (g.concrete x r).v.get (96 * q + l) =
    if q = r ∧ l < g.live then formVal (g.scar.get (96 * g.tagSlot r + l)) ((x (g.tagSym r)).getD 0) (g.v.get (96 * r + l))
    else g.v.get (96 * q + l) := by
  rw [concrete_eq hb hd]
  simp only [get_foldl_lanesOf hv r g.liveMask _ q hl, getLsbD_liveMask hl, decide_eq_true_eq]

theorem deferred_concrete (ht : g.tags.wf = true) : (g.concrete x r).deferred r = false := by
  rw [concrete_eq hb hd, deferred, Cells.get_set_same ht]
  rfl

theorem tags_concrete_ne (ht : g.tags.wf = true) {q : Nat} (hq : q ≠ r) : (g.concrete x r).tags.get q = g.tags.get q := by
  rw [concrete_eq hb hd]
  exact Cells.get_set_ne hq ht _

/-- The scales of its slot are gone. -/
theorem scar_concrete {l : Nat} (hl : l < 96) : (g.concrete x r).scar.get (96 * g.tagSlot r + l) = 0 := by
  have hslot : ((96 * g.tagSlot r + l) / 96 != g.tagSlot r) = false := bne_eq_false_iff_eq.2 (by omega)
  rw [concrete_eq hb hd]
  exact Cells.get_keep_of_false (p := fun k => k / 96 != g.tagSlot r) hslot _

/-- Where every live lane is written with the value that the register reads as, the register is made concrete, no more. -/
theorem writeVal_value (h : g.Idle) (hv : g.v.wf = true) (ht : g.tags.wf = true) (hl : 0 < g.live) :
    g.writeVal lane x r g.liveMask (g.value lane x r) = g.concrete x r := by
  have hidle : (g.concrete x r).Idle := by rw [concrete_eq hb hd]; exact h
  have hbad : (g.concrete x r).badV = [] := by rw [concrete_eq hb hd]; exact hb
  have hwf := concrete_v_wf (x := x) hb hd hv
  have hsame : (lanesOf g.liveMask).foldl (fun v l => v.set (96 * r + l) (g.value lane x r l)) (g.concrete x r).v = (g.concrete x r).v := by
    refine Cells.ext_of_get (wf_foldl_set _ (fun l => 96 * r + l) _ _ hwf) hwf fun a => ?_
    have hlane : a % 96 < 96 := Nat.mod_lt _ (by decide)
    rw [← Nat.div_add_mod a 96]
    simp only [get_foldl_lanesOf hwf r _ _ _ hlane, getLsbD_liveMask hlane, decide_eq_true_eq]
    split
    next hin => rw [get_concrete hb hd hv _ hlane, if_pos hin, value_form h hd]
    next => rfl
  rw [writeVal, if_neg (liveMask_ne_zero hl), readsForm_idle h, if_pos hd, writeV_idle hidle hbad (deferred_concrete hb hd ht), hsame]
  exact allValues_idle hidle r

end

end Group

namespace State

variable {s : State} {t i : Nat} {g : Group}

/-- A lane word that writes no vector register, held back by no result and passing its checks, issues, or its group parks on the symbol that it needs
first (10 R193). -/
theorem laneIssue_reads (h : s.Issuer t i g) (hi : g.Idle) (hb : g.badV = []) {w : LaneWord} {wide : Bool} {rd ss : List Nat}
    {chk : Group → Option FaultCode} (hc : chk g = none) (hr : ∀ r ∈ rd, r < 32 * g.blocks) (k : Nat → Nat → LaneIn → Out) :
    s.laneIssue w wide rd [] ss chk k = (g.pendingSym true (s.symX t) rd).elim
      (k t i ⟨g, if wide then g.liveMask &&& ~~~g.cancel else g.effect w, s.symX t, g.value true (s.symX t), g.opB (s.symX t) w⟩)
      fun y => .next (s.park t i (.sym y)) := by
  have hkept (m : LaneMask) : g.kept m [] = [] := ite_self _
  rw [laneIssue, byGroup_group h]
  simp only [hc, Group.makeRoom_idle hi, List.append_nil, Group.badReg_budget hr, Group.laneBlocked_idle hi, readingRegs_sound hb, hkept]
  cases g.pendingSym true (s.symX t) rd <;> rfl

end State

section

variable {s : State} {t i : Nat} {g : Group} {w : LaneWord} (h : s.Issuer t i g) (hi : g.Idle) (hb : g.badV = []) (hr : w.vd.toNat < 32 * g.blocks)

include h hi hb hr

/-- vres of a form whose symbol is pending (10 R195). -/
theorem exec_vres_pending (hd : g.deferred w.vd.toNat = true) (hX : s.symX t (g.tagSym w.vd.toNat) = none) :
    exec (.vres w) s = .next (s.park t i (.sym (g.tagSym w.vd.toNat))) := by
  have hexec : exec (.vres w) s = execVres w s := rfl
  rw [hexec, execVres, State.laneIssue_reads h hi hb rfl (by simpa using hr), Group.pendingSym_singleton hi, if_pos ⟨hd, hX⟩]
  rfl

/-- Any other vres. -/
theorem exec_vres_issues (hX : g.deferred w.vd.toNat = true → s.symX t (g.tagSym w.vd.toNat) ≠ none) :
    exec (.vres w) s = .next (s.putGroup t i (if g.deferred w.vd.toNat then
      g.writeVal true (s.symX t) w.vd.toNat g.liveMask (g.value true (s.symX t) w.vd.toNat) else g).laneDone) := by
  have hexec : exec (.vres w) s = execVres w s := rfl
  rw [hexec, execVres, State.laneIssue_reads h hi hb rfl (by simpa using hr), Group.pendingSym_singleton hi, if_neg fun hp => hX hp.1 hp.2]
  rfl

end

/-- Settles O34: the value of a form by its scale; vres of a form parks or makes its register concrete, and of a concrete register moves on. -/
theorem resolveWordCompletes : Obligations.ResolveWordCompletes := by
  unfold Obligations.ResolveWordCompletes
  refine ⟨fun sc x o => ⟨fun h => formVal_zero h x o, fun h hn => ?nan, fun h hx ho => ?finite⟩,
    fun s t i g w h hi hr hv ht _ _ hb hl _ => ⟨fun X hd hX => ?resolved, exec_vres_pending h hi hb hr, fun hd => ?concrete⟩⟩
  case nan => rw [formVal_of_scale h, if_pos (by simpa using hn)]
  case finite => rw [formVal_of_scale h, if_neg (by simp [hx, ho])]
  case resolved =>
    refine ⟨g.concrete (s.symX t) w.vd.toNat, ?_, Group.deferred_concrete hb hd ht, fun l hl => ?_, fun q l hq hl => ?_,
      fun q hq => Group.tags_concrete_ne hb hd ht hq, fun l hl => Group.scar_concrete hb hd hl, ?_⟩
    · rw [exec_vres_issues h hi hb hr (by simp [hX]), if_pos hd, Group.writeVal_value hb hd hi hv ht hl]
    · simp only [Group.get_concrete hb hd hv _ hl, hX, Option.getD_some, true_and]
    · rw [Group.get_concrete hb hd hv _ hl, if_neg fun hin => hq hin.1]
    · rw [Group.concrete_eq hb hd]
      exact ⟨rfl, rfl, rfl, rfl⟩
  case concrete => rw [exec_vres_issues h hi hb hr (by simp [hd]), if_neg (by simp [hd])]

end Sys2Proof.Machine
end

