-- ==== Sys2Proof/Proofs/SymbolResolution.lean ====
section
/-! PROOF. O36: resolution (10 R185, R186). One row of the team's symbols takes the value; the groups are then gone through one by one, and each that is
parked on the symbol is put back ready. -/

namespace Sys2Proof.Machine

open Sys2Proof

/-- A group after symbol n of its team has resolved: parked on it, it is ready (10 R186). -/
def Group.seeSym (n : Nat) (g : Group) : Group := { g with wait := if g.wait = some (.sym n) then none else g.wait }

/-- The team after its symbol n, bound as y, has resolved to v. -/
def Team.resolved (x : Team) (n : Nat) (y : Sym) (v : Word) : Team := { x with syms := x.syms.set n { y with val := some v } }

namespace State

variable {s : State} {t i n : Nat} {g h : Group} {x : Team} {y : Sym} {v : Word}

/-! ### The groups, one by one -/

/-- One group of the team is told that symbol n has resolved. -/
def tellSym (t n : Nat) (s : State) (g : Group) : State :=
  if g.wait == some (.sym n) then s.putGroup t g.idx { g with wait := none } else s

/-- It is put as it then is, or it is not changed by it. -/
theorem tellSym_eq (t n : Nat) (s : State) (g : Group) :
    s.tellSym t n g = s.putGroup t g.idx (g.seeSym n) ∨ s.tellSym t n g = s ∧ g.seeSym n = g := by
  by_cases hw : g.wait = some (.sym n)
  · left; simp [tellSym, Group.seeSym, hw]
  · right; simp [tellSym, Group.seeSym, hw]

theorem tellSyms_sameButGroups (s : State) (l : List Group) : s.SameButGroups (l.foldl (tellSym t n) s) :=
  List.foldlRecOn (motive := fun s' : State => s.SameButGroups s') l _ rfl fun s' ih g _ => by
    rcases tellSym_eq t n s' g with he | ⟨he, -⟩ <;> rw [he, ih] <;> rfl

/-- Each group of a list of groups with different indices is told; one that was told before stays so. -/
theorem tellSyms_group {l : List Group} (hl : ∀ g ∈ l, g.idx = h.idx → g = h)
    (hs : s.group t h.idx = some (h.seeSym n) ∨ h ∈ l ∧ s.group t h.idx = some h) :
    (l.foldl (tellSym t n) s).group t h.idx = some (h.seeSym n) := by
  induction l generalizing s with
  | nil => exact hs.resolve_right fun hin => List.not_mem_nil hin.1
  | cons g l ih =>
    refine ih (fun k hk => hl k (List.mem_cons_of_mem _ hk)) ?_
    by_cases hidx : g.idx = h.idx
    · obtain rfl := hl g List.mem_cons_self hidx
      left
      rcases tellSym_eq t n s g with he | ⟨he, hstay⟩
      · rw [he, group_putGroup]
      · rw [hstay] at hs ⊢
        rw [he]
        exact hs.elim id And.right
    · have hother : (s.tellSym t n g).group t h.idx = s.group t h.idx := by
        rcases tellSym_eq t n s g with he | ⟨he, -⟩
        · rw [he, group_putGroup_ne s (by omega)]
        · rw [he]
      rw [hother]
      exact hs.imp_right (And.imp_left fun hin => (List.mem_cons.1 hin).resolve_left fun heq => hidx (heq ▸ rfl))

/-! ### The resolution -/

theorem resolveSym_eq (hx : s.team t = some x) (hy : x.syms.get n = some y) :
    s.resolveSym t n v = (s.groupsOf t).foldl (tellSym t n) (s.putTeam t (x.resolved n y v)) := by
  unfold resolveSym
  rw [mapTeam_some s hx, hy]
  rfl

/-- Resolving changes the team and the groups only. -/
theorem resolveSym_frame (hx : s.team t = some x) (hy : x.syms.get n = some y) :
    s.resolveSym t n v = { s.putTeam t (x.resolved n y v) with groups := (s.resolveSym t n v).groups } := by
  rw [resolveSym_eq hx hy]
  exact tellSyms_sameButGroups ..

theorem resolveSym_group (hx : s.team t = some x) (hy : x.syms.get n = some y) (hw : Tab.wf s.groups = true)
    (hidx : ∀ i h, i < 64 → s.group t i = some h → h.idx = i) (hi : i < 64) (hg : s.group t i = some h) :
    (s.resolveSym t n v).group t i = some (h.seeSym n) := by
  obtain rfl := hidx i h hi hg
  rw [resolveSym_eq hx hy]
  refine tellSyms_group (fun g hmem hsame => ?_) (.inr ⟨mem_groupsOf_of_group hi hg, hg⟩)
  obtain ⟨j, hj, hgj⟩ := group_of_mem_groupsOf hw hmem
  obtain rfl := hidx j g hj hgj
  rw [hsame, hg] at hgj
  exact (Option.some.inj hgj).symm

theorem symX_of_team (hx : s.team t = some x) (n : Nat) : s.symX t n = (x.syms.get n).bind (·.val) := by
  rw [symX, hx, Option.bind_some]

theorem resolveSym_team (hx : s.team t = some x) (hy : x.syms.get n = some y) : (s.resolveSym t n v).team t = some (x.resolved n y v) := by
  rw [resolveSym_frame hx hy]
  exact team_putTeam ..

theorem resolveSym_sound (hx : s.team t = some x) (hy : x.syms.get n = some y) (hs : s.Sound) : (s.resolveSym t n v).Sound := by
  rw [resolveSym_frame hx hy]
  exact hs

end State

/-- The event of a counter symbol whose condition has held, on sound storage: it resolves to its value word (10 R185). -/
theorem exec_symbolResolution_counter {s : State} {t n : Nat} {x : Team} {f fpa va vpa : Nat} {tg : Word} {p : Bool} (hs : s.Sound) (hx : s.team t = some x)
    (hy : x.syms.get n = some ⟨.counter f fpa tg va vpa p, true, none⟩) :
    exec (.symbolResolution t n) s = .next (s.resolveSym t n (s.wordAt (.dev vpa))) := by
  have hexec : exec (.symbolResolution t n) s = execSymbolResolution t n s := rfl
  rw [hexec, execSymbolResolution]
  simp only [hx, hy]
  exact congrArg Host.Outcome.next (State.noteRead_sound _ (State.resolveSym_sound hx hy hs) ..)

/-- Settles O36: the row of the symbol, the rows of the others, the groups one by one, and the event. -/
theorem symbolResolvesForWholeTeam : Obligations.SymbolResolvesForWholeTeam := by
  unfold Obligations.SymbolResolvesForWholeTeam
  intro s t n x y v hx hy hw hidx
  have hidx' (i : Nat) (h : Group) (hi : i < 64) (hg : s.group t i = some h) : h.idx = i := by
    rw [hidx _ h hg (by omega)]
    omega
  have hteam := State.resolveSym_team (v := v) hx hy
  refine ⟨?value, fun m hm => ?others, fun i g hi hg => ?groups, fun f fpa tg va vpa p hs hc => ?event⟩
  case value => rw [State.symX_of_team hteam, Team.resolved, Tab.get_set_same, Option.bind_some]
  case others => rw [State.symX_of_team hteam, State.symX_of_team hx, Team.resolved, Tab.get_set_ne _ hm]
  case groups => exact ⟨g.seeSym n, State.resolveSym_group hx hy hw hidx' hi hg, rfl⟩
  case event => exact exec_symbolResolution_counter hs hx (hc ▸ hy)

end Sys2Proof.Machine
end

