-- ==== Sys2Proof/Proofs/ReservedOperandB.lean ====
section
/-! PROOF. O35 is refuted. Its clause on the transforms quantifies over every lane word, those with the reserved bsrc 3 among them (12 R220). There the
statement takes operand b to be the word of register vb, and B, which asks for bsrc 0, to be false even where vb holds a form; the model reads the value of
vb (10 R188), which for a form over a resolved symbol is another word. No word that is well-formed has this bsrc. -/

namespace Sys2Proof.Machine

open Sys2Proof

namespace ReservedOperandB

/-- Group 0 of team 0, in whose lane 0 v0 holds the form (+0, +0) and v1 the form (1.0, +0), both over symbol 0. -/
def group : Group := { BlockCopy.group with tags := [(0, Group.mkTag 0 0), (1, Group.mkTag 0 1)], scar := [(96, 0x3F800000)] }

/-- Its team, whose symbol 0 is resolved to 1.0. -/
def team : Team := { BlockCopy.team with syms := [(0, ⟨.manual, false, some 0x3F800000⟩)] }

/-- The machine at reset with that team resident and its group issuing. -/
def state : State := { State.reset with cur := some (.group 0 0), groups := [(0, group)], teams := [(0, team)] }

/-- vadd.f32 v2, v0 with vb = 1 and bsrc = 3. -/
def word : LaneWord := { pred := 31, neg := false, ty := 0, vd := 2, va := 0, vb := 1, vc := 3, la := 0, mod := 0x30, ext := 0 }

/-- Decoding would have refused such a word. -/
theorem vadd_refused : Instr.wf (.vaddFp word) = false := by decide +kernel

theorem acts_zero : group.acts word 0 = true := by decide +kernel

theorem forms_over_zero : ∀ r ∈ [2, 0, 1, 3], group.deferred r = true → group.tagSym r = 0 := by decide +kernel

theorem freeSlots_ne : group.freeSlots ≠ [] := by decide +kernel

/-- What the statement has lane 0 of v2 hold: +0 + +0. -/
theorem sum_of_words : (rne32 ((f32 (group.v.get 0)).add (f32 (group.operandB word 0))).1).1 = 0 := by decide +kernel

/-- A lane of a register of the group after its word, where there is a next state. -/
def laneAfter (o : Out) (r l : Nat) : Option Word :=
  match o with
  | .next s => (s.group 0 0).map fun g => g.v.get (96 * r + l)
  | _ => none

/-- What the model leaves there: +0 + 1.0, the value of v1 being 1.0 × 1.0 + +0. -/
theorem laneAfter_vadd : laneAfter (exec (.vaddFp word) state) 2 0 = some 0x3F800000 := by decide +kernel

end ReservedOperandB

open ReservedOperandB in
/-- Refutes O35: vadd.f32 v2, v0 with the reserved bsrc 3 and vb naming v1, where v0 and v1 hold the forms (+0, +0) and (1.0, +0) over a symbol that is
resolved to 1.0. The statement has the offset of v2 be +0, the sum of the two offsets; the word leaves 1.0, the offset of v0 plus the value of v1. -/
theorem not_symbolWordsComplete : ¬ Obligations.SymbolWordsComplete := by
  unfold Obligations.SymbolWordsComplete
  rintro ⟨-, -, forms, -⟩
  obtain ⟨transforms, -⟩ := forms state 0 0 0 group word ⟨rfl, rfl⟩ rfl rfl rfl (by decide) rfl rfl rfl (by decide) ⟨0, acts_zero⟩
  obtain ⟨s', g', hnext, hgroup, -, -, -, -, -, lanes⟩ :=
    transforms forms_over_zero (.inr freeSlots_ne) _ (.tail _ (.tail _ (.head _))) (by decide +kernel)
  have stated : g'.v.get (96 * 2 + 0) = 0 := calc
    _ = (rne32 ((f32 (group.v.get 0)).add (f32 (group.operandB word 0))).1).1 :=
      congrArg Prod.snd ((lanes 0 (by decide)).trans (if_pos acts_zero))
    _ = 0 := sum_of_words
  have written : laneAfter (exec (.vaddFp word) state) 2 0 = some (g'.v.get (96 * 2 + 0)) := by simp only [hnext, laneAfter, hgroup, Option.map_some]
  rw [laneAfter_vadd, stated] at written
  exact absurd (Option.some.inj written) (by decide)

end Sys2Proof.Machine
end

