-- ==== Sys2Proof/Proofs/ExactNumbers.lean ====
section
/-! PROOF. The exact numbers and the FP32 words of 04 R72-R79: the arithmetic on fractions is that of the rationals, words that are no NaN stand in
the order of their keys, and a word's number rounds to that word with no flag. -/

namespace Sys2Proof.Machine

open Sys2Proof

namespace Q

variable {a b : Q}

/-! ### The arithmetic is that of the rationals -/

theorem den_add_pos (ha : 0 < a.den) (hb : 0 < b.den) : 0 < (a.add b).den := by
  unfold add
  split
  · exact ha
  · split
    · exact hb
    · exact Nat.mul_pos ha hb

theorem den_sub_pos (ha : 0 < a.den) (hb : 0 < b.den) : 0 < (a.sub b).den := den_add_pos ha hb

theorem den_mul_pos (ha : 0 < a.den) (hb : 0 < b.den) : 0 < (a.mul b).den := Nat.mul_pos ha hb

theorem den_div_pos (ha : 0 < a.den) : 0 < (a.div b).den := by
  unfold div
  split
  · exact Nat.one_pos
  next h =>
    have hb : 0 < b.num.natAbs := Int.natAbs_pos.2 fun h0 => h (beq_iff_eq.2 h0)
    split <;> exact Nat.mul_pos ha hb

@[simp] theorem val_zero : zero.val = 0 := by simp [zero, val]

@[simp] theorem val_neg : a.neg.val = -a.val := by simp [neg, val, neg_div]

@[simp] theorem val_abs : a.abs.val = |a.val| := by simp [abs, val, abs_div]

/-- A denominator that the other one divides is the other one times the quotient. -/
theorem den_eq_mul_of_mod (h : (a.den % b.den == 0) = true) : (a.den : ℚ) = b.den * (a.den / b.den : Nat) := by
  exact_mod_cast (Nat.mul_div_cancel' (Nat.dvd_of_mod_eq_zero (beq_iff_eq.1 h))).symm

theorem val_add (ha : 0 < a.den) (hb : 0 < b.den) : (a.add b).val = a.val + b.val := by
  have ha' : (a.den : ℚ) ≠ 0 := by exact_mod_cast ha.ne'
  have hb' : (b.den : ℚ) ≠ 0 := by exact_mod_cast hb.ne'
  unfold add val
  split
  next h =>
    have hd := den_eq_mul_of_mod h
    have hk : ((a.den / b.den : Nat) : ℚ) ≠ 0 := fun h0 => ha' (by rw [hd, h0, mul_zero])
    rw [Int.cast_add, Int.cast_mul, Int.cast_natCast, add_div, hd, mul_div_mul_right _ _ hk]
  · split
    next h =>
      have hd := den_eq_mul_of_mod h
      have hk : ((b.den / a.den : Nat) : ℚ) ≠ 0 := fun h0 => hb' (by rw [hd, h0, mul_zero])
      rw [Int.cast_add, Int.cast_mul, Int.cast_natCast, add_div, hd, mul_div_mul_right _ _ hk]
    · push_cast
      rw [div_add_div _ _ ha' hb', mul_comm (a.den : ℚ) b.num]

/-- The sum does not depend on the order, not even in its form. -/
theorem add_comm_of_pos (hb : 0 < b.den) : a.add b = b.add a := by
  unfold add
  by_cases hab : a.den % b.den = 0 <;> by_cases hba : b.den % a.den = 0
  · have hd : a.den = b.den := Nat.dvd_antisymm (Nat.dvd_of_mod_eq_zero hba) (Nat.dvd_of_mod_eq_zero hab)
    simp [hd, Nat.div_self hb, add_comm]
  · simp [hab, hba, add_comm]
  · simp [hab, hba, add_comm]
  · simp [hab, hba, add_comm, mul_comm]

theorem val_sub (ha : 0 < a.den) (hb : 0 < b.den) : (a.sub b).val = a.val - b.val := by
  rw [sub, val_add ha (b := b.neg) hb, val_neg, sub_eq_add_neg]

theorem sub_neg (p q : Q) : p.sub q.neg = p.add q := by rw [sub, neg, neg, Int.neg_neg]

theorem val_mul : (a.mul b).val = a.val * b.val := by
  simp [mul, val, div_mul_div_comm]

theorem val_div : (a.div b).val = a.val / b.val := by
  unfold div
  split
  next h => rw [val_zero, val, val, beq_iff_eq.1 h, Int.cast_zero, zero_div, div_zero]
  · split
    next h =>
      have habs : (b.num.natAbs : ℚ) = -(b.num : ℚ) := by rw [Nat.cast_natAbs, abs_of_neg h, Int.cast_neg]
      simp [val, habs, div_div_div_eq, neg_div_neg_eq]
    next h =>
      have habs : (b.num.natAbs : ℚ) = (b.num : ℚ) := by rw [Nat.cast_natAbs, abs_of_nonneg (not_lt.1 h)]
      simp [val, habs, div_div_div_eq]

theorem lt_iff (ha : 0 < a.den) (hb : 0 < b.den) : a.lt b = true ↔ a.val < b.val := by
  have ha' : (0 : ℚ) < a.den := by exact_mod_cast ha
  have hb' : (0 : ℚ) < b.den := by exact_mod_cast hb
  rw [lt, decide_eq_true_iff, val, val, div_lt_div_iff₀ ha' hb']
  exact_mod_cast Iff.rfl

theorem le_iff (ha : 0 < a.den) (hb : 0 < b.den) : a.le b = true ↔ a.val ≤ b.val := by
  have ha' : (0 : ℚ) < a.den := by exact_mod_cast ha
  have hb' : (0 : ℚ) < b.den := by exact_mod_cast hb
  rw [le, decide_eq_true_iff, val, val, div_le_div_iff₀ ha' hb']
  exact_mod_cast Iff.rfl

theorem eq_iff (ha : 0 < a.den) (hb : 0 < b.den) : a.eq b = true ↔ a.val = b.val := by
  have ha' : (a.den : ℚ) ≠ 0 := by exact_mod_cast ha.ne'
  have hb' : (b.den : ℚ) ≠ 0 := by exact_mod_cast hb.ne'
  rw [eq, decide_eq_true_iff, val, val, div_eq_div_iff ha' hb']
  exact_mod_cast Iff.rfl

theorem isZero_iff (ha : 0 < a.den) : a.isZero = true ↔ a.val = 0 := by
  have ha' : (a.den : ℚ) ≠ 0 := by exact_mod_cast ha.ne'
  simp [isZero, val, ha']

theorem isNeg_iff (ha : 0 < a.den) : a.isNeg = true ↔ a.val < 0 := by
  have ha' : (0 : ℚ) < a.den := by exact_mod_cast ha
  rw [isNeg, decide_eq_true_iff, val, div_lt_iff₀ ha', zero_mul]
  exact_mod_cast Iff.rfl

theorem den_pow2_pos (e : Int) : 0 < (pow2 e).den := by
  unfold pow2
  split
  · exact Nat.pow_pos (by decide)
  · exact Nat.one_pos

theorem val_pow2 (e : Int) : (pow2 e).val = 2 ^ e := by
  unfold pow2
  split
  next h =>
    obtain ⟨n, rfl⟩ := Int.exists_eq_neg_ofNat h.le
    simp [val]
  next h =>
    obtain ⟨n, rfl⟩ := Int.eq_ofNat_of_zero_le (not_lt.1 h)
    simp [val]

/-- floor(log2) of a positive number is the exponent of the power of two at or below it. -/
theorem log2_spec (ha : 0 < a.den) (hn : 0 < a.num) : (2 : ℚ) ^ a.log2 ≤ a.val ∧ a.val < 2 ^ (a.log2 + 1) := by
  obtain ⟨n, hnum⟩ := Int.eq_ofNat_of_zero_le hn.le
  have hn' : n ≠ 0 := by omega
  have hd : (0 : ℚ) < a.den := by exact_mod_cast ha
  have hv : a.val = n / a.den := by simp [val, hnum]
  have hnlo : (2 : ℚ) ^ (n.log2 : Int) ≤ n := by exact_mod_cast Nat.log2_self_le hn'
  have hnhi : (n : ℚ) < 2 ^ ((n.log2 : Int) + 1) := by exact_mod_cast Nat.lt_log2_self
  have hdlo : (2 : ℚ) ^ (a.den.log2 : Int) ≤ a.den := by exact_mod_cast Nat.log2_self_le ha.ne'
  have hdhi : (a.den : ℚ) < 2 ^ ((a.den.log2 : Int) + 1) := by exact_mod_cast Nat.lt_log2_self
  have hlow : (2 : ℚ) ^ ((n.log2 : Int) - a.den.log2 - 1) < a.val := by
    rw [hv, lt_div_iff₀ hd]
    calc (2 : ℚ) ^ ((n.log2 : Int) - a.den.log2 - 1) * a.den
        < 2 ^ ((n.log2 : Int) - a.den.log2 - 1) * 2 ^ ((a.den.log2 : Int) + 1) := by gcongr
      _ = 2 ^ (n.log2 : Int) := by rw [← zpow_add₀ two_ne_zero]; congr 1; ring
      _ ≤ n := hnlo
  have hhigh : a.val < (2 : ℚ) ^ ((n.log2 : Int) - a.den.log2 + 1) := by
    rw [hv, div_lt_iff₀ hd]
    calc (n : ℚ) < 2 ^ ((n.log2 : Int) + 1) := hnhi
      _ = 2 ^ ((n.log2 : Int) - a.den.log2 + 1) * 2 ^ (a.den.log2 : Int) := by rw [← zpow_add₀ two_ne_zero]; congr 1; ring
      _ ≤ _ := by gcongr
  unfold log2
  simp only [hnum, Int.natAbs_natCast, le_iff (den_pow2_pos _) ha, val_pow2]
  split
  next h => rw [if_neg (not_le.2 hhigh)]; exact ⟨h, hhigh⟩
  next h => exact ⟨hlow.le, by simpa using h⟩

/-- That exponent is the only one. -/
theorem log2_eq {e : Int} (ha : 0 < a.den) (hn : 0 < a.num) (hlo : (2 : ℚ) ^ e ≤ a.val) (hhi : a.val < 2 ^ (e + 1)) : a.log2 = e := by
  obtain ⟨h1, h2⟩ := log2_spec ha hn
  have hlt := (zpow_lt_zpow_iff_right₀ (one_lt_two (α := ℚ))).1 (hlo.trans_lt h2)
  have hgt := (zpow_lt_zpow_iff_right₀ (one_lt_two (α := ℚ))).1 (h1.trans_lt hhi)
  omega

theorem log2_lt {e : Int} (ha : 0 < a.den) (hn : 0 < a.num) (hhi : a.val < 2 ^ e) : a.log2 < e :=
  (zpow_lt_zpow_iff_right₀ (one_lt_two (α := ℚ))).1 ((log2_spec ha hn).1.trans_lt hhi)

/-- A whole number rounds to itself. -/
theorem rneNat_of_val {n : Nat} (ha : 0 < a.den) (h : a.val = n) : rneNat a = n := by
  have hd : (a.den : ℚ) ≠ 0 := by exact_mod_cast ha.ne'
  have hnum : a.num = n * a.den := by
    have := (div_eq_iff hd).1 h
    exact_mod_cast this
  have habs : a.num.natAbs = n * a.den := by rw [hnum]; exact_mod_cast Int.natAbs_natCast _
  simp [rneNat, habs, Nat.mul_div_cancel _ ha, ha]

end Q

/-! ### The numbers of FP32 words (04 R74) -/

/-- The exponent field of a magnitude code; zero and the subnormal codes have that of the least normal one. -/
def exp32 (n : Nat) : Nat := max (n / 2 ^ 23) 1

/-- The significand of a magnitude code, with its hidden bit. -/
def sig32 (n : Nat) : Nat := n - (exp32 n - 1) * 2 ^ 23

/-- The number of a magnitude code; the code of infinity stands for 2^128. -/
def mag32 (n : Nat) : ℚ := sig32 n * 2 ^ ((exp32 n : Int) - 150)

theorem code_eq (n : Nat) : (exp32 n - 1) * 2 ^ 23 + sig32 n = n := by
  unfold sig32 exp32; omega

theorem sig32_lt (n : Nat) : sig32 n < 2 ^ 24 := by
  unfold sig32 exp32; omega

@[simp] theorem mag32_zero : mag32 0 = 0 := by simp [mag32, sig32]

theorem mag32_nonneg (n : Nat) : 0 ≤ mag32 n := by unfold mag32; positivity

theorem mag32_strictMono : StrictMono mag32 := by
  refine strictMono_nat_of_lt_succ fun n => ?_
  have hs : (sig32 (n + 1) = sig32 n + 1 ∧ exp32 (n + 1) = exp32 n) ∨ (sig32 n + 1 = 2 * sig32 (n + 1) ∧ exp32 (n + 1) = exp32 n + 1) := by
    unfold sig32 exp32; omega
  unfold mag32
  rcases hs with ⟨h1, h2⟩ | ⟨h1, h2⟩
  · rw [h1, h2]; push_cast; gcongr; linarith
  · have h1' : (sig32 n : ℚ) + 1 = 2 * sig32 (n + 1) := by exact_mod_cast h1
    have hp : (0 : ℚ) < 2 ^ ((exp32 n : Int) - 150) := by positivity
    have he : (2 : ℚ) ^ (((exp32 n + 1 : Nat) : Int) - 150) = 2 ^ ((exp32 n : Int) - 150) * 2 := by
      rw [← zpow_add_one₀ two_ne_zero]; congr 1; push_cast; ring
    rw [h2, he]
    nlinarith

/-- The sign bit. -/
def neg32 (w : Word) : Bool := decide (2 ^ 31 ≤ w.toNat)

/-- The decoding of 04 R74 with the numbers of FP32 put in. -/
theorem f32_eq (w : Word) : f32 w =
    if w.toNat / 2 ^ 23 % 2 ^ 8 = 255 then if w.toNat % 2 ^ 23 = 0 then .inf (neg32 w) else .nan
    else if w.toNat / 2 ^ 23 % 2 ^ 8 = 0 then .fin (neg32 w) (Q.mul ⟨(w.toNat % 2 ^ 23 : Nat), 1⟩ (Q.pow2 (-149)))
    else .fin (neg32 w) (Q.mul ⟨(2 ^ 23 + w.toNat % 2 ^ 23 : Nat), 1⟩ (Q.pow2 ((w.toNat / 2 ^ 23 % 2 ^ 8 : Nat) - 150))) := by
  have hs : (w.toNat / 2 ^ 31 % 2 == 1) = neg32 w := by
    have := w.isLt
    rw [neg32, Bool.beq_eq_decide_eq, decide_eq_decide]; omega
  have he : ((w.toNat / 2 ^ 23 % 2 ^ 8 : Nat) : Int) - 127 - 23 = (w.toNat / 2 ^ 23 % 2 ^ 8 : Nat) - 150 := by ring
  rw [← hs, ← he, Nat.cast_add]
  simp only [← beq_iff_eq (a := w.toNat / 2 ^ 23 % 2 ^ 8), ← beq_iff_eq (a := w.toNat % 2 ^ 23)]
  rfl

theorem f32_of_finite {w : Word} (h : w.toNat % 2 ^ 31 < 0x7F800000) :
    ∃ m : Q, f32 w = .fin (neg32 w) m ∧ 0 < m.den ∧ m.val = mag32 (w.toNat % 2 ^ 31) := by
  have hv (k : Nat) (e : Int) : (Q.mul ⟨k, 1⟩ (Q.pow2 e)).val = k * 2 ^ e := by
    rw [Q.val_mul, Q.val_pow2]; simp [Q.val]
  have hd (k : Nat) (e : Int) : 0 < (Q.mul ⟨k, 1⟩ (Q.pow2 e)).den := Nat.mul_pos Nat.one_pos (Q.den_pow2_pos e)
  rw [f32_eq, if_neg (by omega)]
  split
  next he =>
    have h1 : exp32 (w.toNat % 2 ^ 31) = 1 := by unfold exp32; omega
    have h2 : sig32 (w.toNat % 2 ^ 31) = w.toNat % 2 ^ 23 := by unfold sig32; omega
    exact ⟨_, rfl, hd _ _, by rw [hv, mag32, h1, h2]; rfl⟩
  next he =>
    have h1 : exp32 (w.toNat % 2 ^ 31) = w.toNat / 2 ^ 23 % 2 ^ 8 := by unfold exp32; omega
    have h2 : sig32 (w.toNat % 2 ^ 31) = 2 ^ 23 + w.toNat % 2 ^ 23 := by unfold sig32; omega
    exact ⟨_, rfl, hd _ _, by rw [hv, mag32, h1, h2]⟩

theorem f32_of_infinite {w : Word} (h : w.toNat % 2 ^ 31 = 0x7F800000) : f32 w = .inf (neg32 w) := by
  rw [f32_eq, if_pos (by omega), if_pos (by omega)]

theorem f32_of_nan {w : Word} (h : nanWord w) : f32 w = .nan := by
  unfold nanWord at h
  rw [f32_eq, if_pos (by omega), if_neg (by omega)]

/-- A word is finite by its magnitude code. -/
theorem finite32_iff (w : Word) : finite32 w = true ↔ w.toNat % 2 ^ 31 < 0x7F800000 := by
  unfold finite32
  rcases lt_trichotomy (w.toNat % 2 ^ 31) 0x7F800000 with h | h | h
  · obtain ⟨m, hm, -⟩ := f32_of_finite h
    rw [hm]
    exact iff_of_true rfl h
  · rw [f32_of_infinite h]
    exact iff_of_false Bool.false_ne_true h.not_lt
  · rw [f32_of_nan h]
    exact iff_of_false Bool.false_ne_true h.le.not_gt

theorem not_nanWord_of_finite {w : Word} (h : finite32 w = true) : ¬nanWord w :=
  fun hn => absurd ((finite32_iff w).1 h) (not_lt.2 (le_of_lt hn))

theorem isNan_f32 {w : Word} (h : nanWord w) : (f32 w).isNan = true := by rw [f32_of_nan h]; rfl

theorem isNan_f32_eq_false {w : Word} (h : ¬nanWord w) : (f32 w).isNan = false := by
  rcases lt_or_eq_of_le (not_lt.1 h) with h | h
  · obtain ⟨m, hm, -⟩ := f32_of_finite h
    rw [hm]; rfl
  · rw [f32_of_infinite h]; rfl

/-- A word that is no NaN is finite or one of the two infinities. -/
theorem word_cases {w : Word} (hn : ¬nanWord w) : finite32 w = true ∨ w = 0x7F800000 ∨ w = 0xFF800000 := by
  have hlt := w.isLt
  have hcode : w.toNat % 2 ^ 31 < 0x7F800000 ∨ w.toNat = 0x7F800000 ∨ w.toNat = 0xFF800000 := by
    unfold nanWord at hn
    omega
  exact hcode.imp (finite32_iff w).2 (Or.imp BitVec.eq_of_toNat_eq BitVec.eq_of_toNat_eq)

/-- The denominator of what a word decodes to. -/
theorem den_f32_pos (w : Word) : 0 < (f32 w).toQ.den := by
  by_cases h : finite32 w = true
  · obtain ⟨m, hm, hd, -⟩ := f32_of_finite ((finite32_iff w).1 h)
    rw [hm]
    cases neg32 w <;> exact hd
  · unfold finite32 at h
    split at h
    · exact absurd rfl h
    · rw [FVal.toQ]
      · exact Nat.one_pos
      · assumption

/-! ### Order (04 R74) -/

/-- The number of a finite key. -/
def keyNum (k : Int) : ℚ := if 0 ≤ k then mag32 k.toNat else -mag32 (-k).toNat

theorem keyNum_strictMono : StrictMono keyNum := by
  intro a b h
  unfold keyNum
  split
  next ha => rw [if_pos (ha.trans h.le)]; exact mag32_strictMono (by omega)
  next ha =>
    have hpos : 0 < mag32 (-a).toNat := by rw [← mag32_zero]; exact mag32_strictMono (by omega)
    split
    · linarith [mag32_nonneg b.toNat]
    next hb => exact neg_lt_neg (mag32_strictMono (by omega))

theorem num_f32 {w : Word} (h : finite32 w = true) : (f32 w).num = keyNum (wordKey w) := by
  obtain ⟨m, hm, -, hv⟩ := f32_of_finite ((finite32_iff w).1 h)
  have hlt := w.isLt
  unfold keyNum wordKey
  rw [hm, FVal.num, FVal.toQ, neg32]
  by_cases hs : 2 ^ 31 ≤ w.toNat
  · rw [if_pos (decide_eq_true hs), if_neg (not_lt.2 hs), Q.val_neg, hv]
    by_cases h0 : w.toNat = 2 ^ 31
    · simp [h0]
    · rw [if_neg (by omega)]; congr 2; omega
  · rw [if_neg (by simpa using hs), if_pos (not_le.1 hs), if_pos (by omega), hv]; congr 1; omega

theorem f32_posInf : f32 0x7F800000 = .inf false := f32_of_infinite rfl

theorem f32_negInf : f32 0xFF800000 = .inf true := f32_of_infinite rfl

theorem wordKey_lt_of_finite {w : Word} (h : finite32 w = true) : -0x7F800000 < wordKey w ∧ wordKey w < 0x7F800000 := by
  rw [finite32_iff] at h
  have := w.isLt
  unfold wordKey
  split <;> omega

theorem fin_of_finite32 {w : Word} (h : finite32 w = true) : ∃ s m, f32 w = .fin s m :=
  let ⟨m, hm, _⟩ := f32_of_finite ((finite32_iff w).1 h)
  ⟨_, m, hm⟩

/-- Words that are no NaN compare as their keys do. -/
theorem f32_lt_iff {a b : Word} (ha : ¬nanWord a) (hb : ¬nanWord b) : (f32 a).lt (f32 b) = true ↔ wordKey a < wordKey b := by
  rcases word_cases ha with hfa | rfl | rfl <;> rcases word_cases hb with hfb | rfl | rfl
  case inl.inl =>
    rw [← keyNum_strictMono.lt_iff_lt, ← num_f32 hfa, ← num_f32 hfb, FVal.num, FVal.num, ← Q.lt_iff (den_f32_pos a) (den_f32_pos b)]
    obtain ⟨s, m, hm⟩ := fin_of_finite32 hfa
    obtain ⟨t, n, hn⟩ := fin_of_finite32 hfb
    rw [hm, hn]
    rfl
  case inl.inr.inl =>
    obtain ⟨s, m, hm⟩ := fin_of_finite32 hfa
    exact iff_of_true (by rw [hm, f32_posInf]; rfl) (wordKey_lt_of_finite hfa).2
  case inl.inr.inr =>
    obtain ⟨s, m, hm⟩ := fin_of_finite32 hfa
    exact iff_of_false (by rw [hm, f32_negInf]; exact Bool.false_ne_true) (wordKey_lt_of_finite hfa).1.not_gt
  case inr.inl.inl =>
    obtain ⟨s, m, hm⟩ := fin_of_finite32 hfb
    exact iff_of_false (by rw [hm, f32_posInf]; exact Bool.false_ne_true) (wordKey_lt_of_finite hfb).2.not_gt
  case inr.inr.inl =>
    obtain ⟨s, m, hm⟩ := fin_of_finite32 hfb
    exact iff_of_true (by rw [hm, f32_negInf]; rfl) (wordKey_lt_of_finite hfb).1
  all_goals decide

/-- Numbers are equal where neither is below the other. -/
theorem FVal.eq_iff_not_lt {v w : FVal} (hv : v.isNan = false) (hw : w.isNan = false) (hdv : 0 < v.toQ.den) (hdw : 0 < w.toQ.den) :
    v.eq w = true ↔ ¬v.lt w = true ∧ ¬w.lt v = true := by
  match v, w with
  | .fin s m, .fin t n =>
    show (FVal.fin s m).toQ.eq (FVal.fin t n).toQ = true ↔ ¬(FVal.fin s m).toQ.lt (FVal.fin t n).toQ = true ∧ ¬(FVal.fin t n).toQ.lt (FVal.fin s m).toQ = true
    rw [Q.eq_iff hdv hdw, Q.lt_iff hdv hdw, Q.lt_iff hdw hdv, not_lt, not_lt, and_comm, le_antisymm_iff]
  | .inf s, .inf t => revert s t; decide
  | .inf s, .fin _ _ => cases s <;> exact iff_of_false Bool.false_ne_true (by simp [lt])
  | .fin _ _, .inf t => cases t <;> exact iff_of_false Bool.false_ne_true (by simp [lt])
  | .nan, _ => cases hv
  | .inf _, .nan => cases hw
  | .fin _ _, .nan => cases hw

theorem f32_eq_iff {a b : Word} (ha : ¬nanWord a) (hb : ¬nanWord b) : (f32 a).eq (f32 b) = true ↔ wordKey a = wordKey b := by
  rw [FVal.eq_iff_not_lt (isNan_f32_eq_false ha) (isNan_f32_eq_false hb) (den_f32_pos a) (den_f32_pos b), f32_lt_iff ha hb, f32_lt_iff hb ha]
  omega

/-! ### Rounding to FP32 (04 R78, R79) -/

/-- The word of a sign and a magnitude code. -/
def word32 (s : Bool) (n : Nat) : Word := BitVec.ofNat 32 ((if s then 2 ^ 31 else 0) + n)

theorem word32_code (w : Word) : word32 (neg32 w) (w.toNat % 2 ^ 31) = w := by
  apply BitVec.eq_of_toNat_eq
  have := w.isLt
  rw [word32, BitVec.toNat_ofNat, neg32]
  by_cases h : 2 ^ 31 ≤ w.toNat
  · rw [if_pos (decide_eq_true h)]; omega
  · rw [if_neg (by simpa using h)]; omega

/-- The exponent of a nonzero magnitude code, as rounding finds it. -/
theorem max_log2_of_mag32 {m : Q} {n : Nat} (hd : 0 < m.den) (hv : m.val = mag32 n) (h0 : 0 < n) : max m.log2 (-126) = (exp32 n : Int) - 127 := by
  have hpos : 0 < m.num := by
    have hval : 0 < m.val := by rw [hv, ← mag32_zero]; exact mag32_strictMono h0
    have hd' : (0 : ℚ) < m.den := by exact_mod_cast hd
    have := (div_pos_iff_of_pos_right hd').1 hval
    exact_mod_cast this
  have hup : m.val < 2 ^ ((exp32 n : Int) - 127 + 1) := by
    have hs : (sig32 n : ℚ) < 2 ^ (24 : Int) := by exact_mod_cast sig32_lt n
    calc m.val = sig32 n * 2 ^ ((exp32 n : Int) - 150) := hv
      _ < 2 ^ (24 : Int) * 2 ^ ((exp32 n : Int) - 150) := by gcongr
      _ = _ := by rw [← zpow_add₀ two_ne_zero]; congr 1; ring
  by_cases hn : 2 ^ 23 ≤ sig32 n
  · have hlo : (2 : ℚ) ^ ((exp32 n : Int) - 127) ≤ m.val := by
      have hs : (2 : ℚ) ^ (23 : Int) ≤ sig32 n := by exact_mod_cast hn
      calc (2 : ℚ) ^ ((exp32 n : Int) - 127) = 2 ^ (23 : Int) * 2 ^ ((exp32 n : Int) - 150) := by rw [← zpow_add₀ two_ne_zero]; congr 1; ring
        _ ≤ sig32 n * 2 ^ ((exp32 n : Int) - 150) := by gcongr
        _ = m.val := hv.symm
    have he : 1 ≤ exp32 n := le_max_right _ _
    rw [Q.log2_eq hd hpos hlo hup]
    omega
  · have he : exp32 n = 1 := by unfold sig32 exp32 at *; omega
    rw [he] at hup ⊢
    -- Below 2^23 significant units the number is below the least normal one.
    have hs : (sig32 n : ℚ) < 2 ^ (23 : Int) := by exact_mod_cast not_le.1 hn
    have hlow : m.val < 2 ^ (-126 : Int) := by
      calc m.val = sig32 n * 2 ^ ((1 : Int) - 150) := by rw [hv, mag32, he]; rfl
        _ < 2 ^ (23 : Int) * 2 ^ ((1 : Int) - 150) := by gcongr
        _ = _ := by rw [← zpow_add₀ two_ne_zero]; congr 1
    have := Q.log2_lt hd hpos hlow
    omega

/-- A magnitude that a code has is rounded to that code. -/
theorem roundMag_of_mag32 {m : Q} {n : Nat} (hd : 0 < m.den) (hv : m.val = mag32 n) (h0 : 0 < n) : FFmt.fp32.roundMag .rne m = n := by
  have he := max_log2_of_mag32 hd hv h0
  have h1 : 1 ≤ exp32 n := le_max_right _ _
  have hq : (m.div (Q.pow2 ((exp32 n : Int) - 127 - 23))).val = sig32 n := by
    rw [Q.val_div, Q.val_pow2, hv, mag32, show (exp32 n : Int) - 127 - 23 = exp32 n - 150 by ring]
    exact mul_div_cancel_right₀ _ (by positivity)
  calc FFmt.fp32.roundMag .rne m
      = (max m.log2 (-126) + 127 - 1).toNat * 2 ^ 23 + rneNat (m.div (Q.pow2 (max m.log2 (-126) - 23))) := rfl
    _ = (exp32 n - 1) * 2 ^ 23 + sig32 n := by rw [he, Q.rneNat_of_val (Q.den_div_pos hd) hq]; congr 2; omega
    _ = n := code_eq n

/-- What a finite word holds rounds to that word and raises no flag. -/
theorem rne32_of_mag32 {m : Q} {n : Nat} (s : Bool) (hd : 0 < m.den) (hv : m.val = mag32 n) (hn : n < 0x7F800000) :
    rne32 (.fin s m) = (word32 s n, 0) := by
  have hcode (k : Nat) (hk : k < 0x7F800000) : 0 < (FFmt.fp32.value k).toQ.den ∧ (FFmt.fp32.value k).toQ.val = mag32 k := by
    have hmod : (BitVec.ofNat 32 k).toNat = k := BitVec.toNat_ofNat .. |>.trans (Nat.mod_eq_of_lt (by omega))
    obtain ⟨q, hq, hqd, hqv⟩ := f32_of_finite (w := BitVec.ofNat 32 k) (by rw [hmod]; omega)
    rw [hmod, Nat.mod_eq_of_lt (by omega)] at hqv
    rw [f32, hmod, neg32, hmod, decide_eq_false (by omega)] at hq
    rw [hq]
    exact ⟨hqd, hqv⟩
  rcases Nat.eq_zero_or_pos n with rfl | h0
  case inl =>
    have hz : m.isZero = true := (Q.isZero_iff hd).2 (hv.trans mag32_zero)
    rw [rne32, FFmt.narrow, if_pos hz]
    rfl
  case inr =>
    have hz : ¬m.isZero = true := fun h => (mag32_strictMono h0).ne' (by rw [← hv, mag32_zero, (Q.isZero_iff hd).1 h])
    have hmax : ¬(FFmt.fp32.maxCode < n) := by show ¬(0x7F7FFFFF < n); omega
    have hovf : (FFmt.fp32.maxVal.lt m) = false := by
      obtain ⟨hmd, hmv⟩ := hcode FFmt.fp32.maxCode (by decide)
      rw [← Bool.not_eq_true, FFmt.maxVal, Q.lt_iff hmd hd, hv]
      exact not_lt.2 ((mag32_strictMono.monotone (Nat.not_lt.1 hmax)).trans_eq hmv.symm)
    have hex : (FFmt.fp32.value n).toQ.eq m = true := (Q.eq_iff (hcode n hn).1 hd).2 ((hcode n hn).2.trans hv.symm)
    rw [rne32, FFmt.narrow, if_neg hz, roundMag_of_mag32 hd hv h0]
    simp only [if_neg hmax, hovf, hex, Bool.not_true, Bool.false_and]
    rfl

theorem rne32_f32 {w : Word} (h : finite32 w = true) : rne32 (f32 w) = (w, 0) := by
  have hc := (finite32_iff w).1 h
  obtain ⟨m, hm, hd, hv⟩ := f32_of_finite hc
  rw [hm, rne32_of_mag32 _ hd hv hc, word32_code]

theorem word32_not_neg (w : Word) : word32 (!neg32 w) (w.toNat % 2 ^ 31) = w ^^^ 0x80000000 := by
  have hadd : word32 (!neg32 w) (w.toNat % 2 ^ 31) = BitVec.ofNat 32 (2 ^ 31 + w.toNat) := by
    apply BitVec.eq_of_toNat_eq
    have := w.isLt
    rw [word32, BitVec.toNat_ofNat, BitVec.toNat_ofNat, neg32]
    by_cases h : 2 ^ 31 ≤ w.toNat
    · rw [decide_eq_true h]; simp; omega
    · rw [decide_eq_false h]; simp; omega
  rw [hadd]
  apply BitVec.eq_of_getLsbD_eq
  intro i hi
  rw [BitVec.getLsbD_ofNat, BitVec.getLsbD_xor, decide_eq_true hi, Bool.true_and]
  have hmask : (0x80000000 : Word).getLsbD i = decide (31 = i) := by
    rw [show (0x80000000 : Word) = BitVec.twoPow 32 31 from rfl, BitVec.getLsbD_twoPow]
    simp
  rw [hmask]
  rcases Nat.lt_or_ge i 31 with h | h
  · rw [Nat.testBit_two_pow_add_gt h, decide_eq_false h.ne', Bool.xor_false]; rfl
  · obtain rfl : i = 31 := by omega
    rw [Nat.testBit_two_pow_add_eq, decide_eq_true rfl, Bool.xor_true]; rfl

theorem finite32_xor_sign {w : Word} (h : finite32 w = true) : finite32 (w ^^^ 0x80000000) = true := by
  rw [finite32_iff] at h ⊢
  rw [← word32_not_neg, word32, BitVec.toNat_ofNat]
  split <;> omega

/-- The opposite of what a finite word holds is the word with its sign bit changed. -/
theorem rne32_neg_f32 {w : Word} (h : finite32 w = true) : rne32 (f32 w).neg = (w ^^^ 0x80000000, 0) := by
  have hc := (finite32_iff w).1 h
  obtain ⟨m, hm, hd, hv⟩ := f32_of_finite hc
  rw [hm, FVal.neg, rne32_of_mag32 _ hd hv hc, word32_not_neg]

@[simp] theorem den_ofQ (q : Q) : (FVal.ofQ q).toQ.den = q.den := by
  rw [FVal.ofQ, FVal.toQ]
  split <;> rfl

theorem val_ofQ {q : Q} (hd : 0 < q.den) : (FVal.ofQ q).toQ.val = q.val := by
  rw [FVal.ofQ, FVal.toQ]
  split
  next h => rw [Q.val_neg, Q.val_abs, abs_of_neg ((Q.isNeg_iff hd).1 h), neg_neg]
  next h => rw [Q.val_abs, abs_of_nonneg (not_lt.1 fun hn => h ((Q.isNeg_iff hd).2 hn))]

theorem sign_ofQ_f32 {w : Word} (h : finite32 w = true) (hz : w ≠ 0x80000000) : (f32 w).toQ.isNeg = neg32 w := by
  rw [Bool.eq_iff_iff, Q.isNeg_iff (den_f32_pos w)]
  have hk : (f32 w).toQ.val = keyNum (wordKey w) := num_f32 h
  have h0 : (0 : ℚ) = keyNum 0 := mag32_zero.symm
  rw [hk, h0, keyNum_strictMono.lt_iff_lt, wordKey, neg32, decide_eq_true_iff]
  have hne : w.toNat ≠ 0x80000000 := fun he => hz (BitVec.eq_of_toNat_eq he)
  split <;> omega

/-- The number of a finite word, zero with no sign, rounds to that word unless it is -0. -/
theorem rne32_ofQ_f32 {w : Word} (h : finite32 w = true) (hz : w ≠ 0x80000000) : rne32 (.ofQ (f32 w).toQ) = (w, 0) := by
  have hc := (finite32_iff w).1 h
  obtain ⟨m, hm, hd, hv⟩ := f32_of_finite hc
  have habs : (f32 w).toQ.abs.val = mag32 (w.toNat % 2 ^ 31) := by
    have hpos : 0 ≤ m.val := hv.symm ▸ mag32_nonneg _
    rw [Q.val_abs, hm, FVal.toQ]
    split
    · rw [Q.val_neg, abs_neg, abs_of_nonneg hpos, hv]
    · rw [abs_of_nonneg hpos, hv]
  rw [FVal.ofQ, sign_ofQ_f32 h hz, rne32_of_mag32 _ (m := (f32 w).toQ.abs) (den_f32_pos w) habs hc, word32_code]

theorem rne32_posInf : rne32 (.inf false) = (0x7F800000, 0) := rfl
theorem rne32_negInf : rne32 (.inf true) = (0xFF800000, 0) := rfl

/-- A word that is no NaN rounds to itself. -/
theorem rne32_f32_of_not_nan {w : Word} (h : ¬nanWord w) : rne32 (f32 w) = (w, 0) := by
  rcases word_cases h with hf | rfl | rfl
  · exact rne32_f32 hf
  · rw [f32_posInf, rne32_posInf]
  · rw [f32_negInf, rne32_negInf]

/-! ### The infinities as domain ends -/

theorem not_nanWord_negInf : ¬nanWord 0xFF800000 := by unfold nanWord; decide

theorem not_nanWord_posInf : ¬nanWord 0x7F800000 := by unfold nanWord; decide

theorem negInf_le_posInf : wordKey 0xFF800000 ≤ wordKey 0x7F800000 := by decide

end Sys2Proof.Machine
end

