-- ==== Sys2Proof/Proofs/Envelopes.lean ====
section
/-! PROOF. The envelope (11 R201, R202): candidates sorted by slope, the pieces found so far as a hull of ascending crossings, and the greatest line at a
point. Nothing that a candidate gives in the domain is lost. -/

namespace Sys2Proof.Machine

open Sys2Proof

/-! ### Lines at a point -/

namespace Line

theorem aq_pos (l : Line) : 0 < l.aq.den := den_f32_pos l.a
theorem bq_pos (l : Line) : 0 < l.bq.den := den_f32_pos l.b

theorem at_eq (l : Line) (x : ℚ) : l.at x = l.aq.val * x + l.bq.val := rfl

theorem den_eval_pos (l : Line) {x : Q} (hx : 0 < x.den) : 0 < (l.eval x).den := Q.den_add_pos (Q.den_mul_pos l.aq_pos hx) l.bq_pos

theorem val_eval (l : Line) {x : Q} (hx : 0 < x.den) : (l.eval x).val = l.at x.val := by
  rw [eval, Q.val_add (Q.den_mul_pos l.aq_pos hx) l.bq_pos, Q.val_mul, at_eq]

end Line

theorem den_cross_pos (l m : Line) : 0 < (cross l m).den := Q.den_div_pos (Q.den_sub_pos l.bq_pos m.bq_pos)

theorem val_cross (l m : Line) : (cross l m).val = (l.bq.val - m.bq.val) / (m.aq.val - l.aq.val) := by
  rw [cross, Q.val_div, Q.val_sub l.bq_pos m.bq_pos, Q.val_sub m.aq_pos l.aq_pos]

/-- From its crossing with a line of smaller slope on a line is at or above that one. -/
theorem at_le_iff_cross_le {l m : Line} (h : l.aq.val < m.aq.val) (x : ℚ) : l.at x ≤ m.at x ↔ (cross l m).val ≤ x := by
  rw [val_cross, div_le_iff₀ (sub_pos.2 h), Line.at_eq, Line.at_eq]
  constructor <;> intro hx <;> linarith

/-- Up to that crossing it is at or below it. -/
theorem at_ge_iff_le_cross {l m : Line} (h : l.aq.val < m.aq.val) (x : ℚ) : m.at x ≤ l.at x ↔ x ≤ (cross l m).val := by
  rw [val_cross, le_div_iff₀ (sub_pos.2 h), Line.at_eq, Line.at_eq]
  constructor <;> intro hx <;> linarith

/-! ### Domain ends -/

/-- x is at or right of a left end. -/
def PEnd.Below (lo : PEnd) (x : ℚ) : Prop := ∀ q ∈ lo, q.val ≤ x

/-- x is at or left of a right end. -/
def PEnd.Above (hi : PEnd) (x : ℚ) : Prop := ∀ q ∈ hi, x ≤ q.val

theorem endOf_of_finite {w : Word} (h : finite32 w = true) : endOf w = some (f32 w).toQ := by
  obtain ⟨s, m, hm⟩ := fin_of_finite32 h
  rw [endOf, hm]

theorem endOf_posInf : endOf 0x7F800000 = none := by rw [endOf, f32_posInf]
theorem endOf_negInf : endOf 0xFF800000 = none := by rw [endOf, f32_negInf]

theorem finite32_of_mem_endOf {w : Word} {q : Q} (h : q ∈ endOf w) : finite32 w = true ∧ q = (f32 w).toQ := by
  unfold endOf at h
  unfold finite32
  split at h
  next hm => rw [hm]; exact ⟨rfl, (Option.some.inj h).symm⟩
  · cases h

theorem den_pos_of_mem_endOf {w : Word} {q : Q} (h : q ∈ endOf w) : 0 < q.den := by
  obtain ⟨-, rfl⟩ := finite32_of_mem_endOf h
  exact den_f32_pos w

theorem val_of_mem_endOf {w : Word} {q : Q} (h : q ∈ endOf w) : q.val = keyNum (wordKey w) := by
  obtain ⟨hf, rfl⟩ := finite32_of_mem_endOf h
  exact num_f32 hf

theorem below_of_between {lo hi : Word} {x : ℚ} (h : between lo hi x) : PEnd.Below (endOf lo) x := fun q hq => by
  obtain ⟨hf, rfl⟩ := finite32_of_mem_endOf hq
  exact h.1 hf

theorem above_of_between {lo hi : Word} {x : ℚ} (h : between lo hi x) : PEnd.Above (endOf hi) x := fun q hq => by
  obtain ⟨hf, rfl⟩ := finite32_of_mem_endOf hq
  exact h.2 hf

/-! ### Sorting by slope -/

/-- Slopes ascend strictly. -/
def Ascending (ls : List Line) : Prop := ls.Pairwise fun l m => l.aq.val < m.aq.val

theorem mem_insLine {l m : Line} {ls : List Line} (h : m ∈ insLine l ls) : m = l ∨ m ∈ ls := by
  induction ls with
  | nil => exact .inl (List.mem_singleton.1 h)
  | cons k r ih =>
    rw [insLine] at h
    split_ifs at h
    · exact List.mem_cons.1 h
    · rcases List.mem_cons.1 h with rfl | h
      · exact .inr List.mem_cons_self
      · exact (ih h).imp_right (List.mem_cons_of_mem _)
    · exact (List.mem_cons.1 h).imp_right (List.mem_cons_of_mem _)
    · exact .inr h

theorem length_insLine_le (l : Line) (ls : List Line) : (insLine l ls).length ≤ ls.length + 1 := by
  induction ls with
  | nil => exact le_rfl
  | cons k r ih =>
    rw [insLine]
    split_ifs
    · exact le_rfl
    · exact Nat.succ_le_succ ih
    · exact Nat.le_succ _
    · exact Nat.le_succ _

theorem insLine_ascending {l : Line} {ls : List Line} (h : Ascending ls) : Ascending (insLine l ls) := by
  induction ls with
  | nil => exact List.pairwise_singleton ..
  | cons m r ih =>
    obtain ⟨hm, hr⟩ := List.pairwise_cons.1 h
    rw [insLine]
    simp only [Q.lt_iff l.aq_pos m.aq_pos, Q.lt_iff m.aq_pos l.aq_pos]
    split_ifs with h1 h2
    · refine List.pairwise_cons.2 ⟨fun k hk => ?_, h⟩
      rcases List.mem_cons.1 hk with rfl | hk
      · exact h1
      · exact h1.trans (hm k hk)
    · refine List.pairwise_cons.2 ⟨fun k hk => ?_, ih hr⟩
      rcases mem_insLine hk with rfl | hk
      · exact h2
      · exact hm k hk
    · exact List.pairwise_cons.2 ⟨fun k hk => (le_antisymm (not_lt.1 h2) (not_lt.1 h1)).trans_lt (hm k hk), hr⟩
    · exact h

/-- Of every line put in a line of its slope stands in the list that is nowhere below it. -/
theorem insLine_covers {l k : Line} {ls : List Line} (h : k = l ∨ k ∈ ls) : ∃ m ∈ insLine l ls, ∀ x, k.at x ≤ m.at x := by
  have self (ms : List Line) (hk : k ∈ ms) : ∃ m ∈ ms, ∀ x, k.at x ≤ m.at x := ⟨k, hk, fun _ => le_rfl⟩
  induction ls with
  | nil => exact self _ (List.mem_singleton.2 (h.resolve_right List.not_mem_nil))
  | cons m r ih =>
    rw [insLine]
    simp only [Q.lt_iff l.aq_pos m.aq_pos, Q.lt_iff m.aq_pos l.aq_pos, Q.lt_iff m.bq_pos l.bq_pos]
    split_ifs with h1 h2 h3
    · exact self _ (List.mem_cons.2 h)
    · rw [List.mem_cons, or_left_comm] at h
      rcases h with rfl | h
      · exact self _ List.mem_cons_self
      · obtain ⟨n, hn, hle⟩ := ih h
        exact ⟨n, List.mem_cons_of_mem _ hn, hle⟩
    all_goals
      have ha : l.aq.val = m.aq.val := le_antisymm (not_lt.1 h2) (not_lt.1 h1)
    · rcases h with rfl | h
      · exact self _ List.mem_cons_self
      · rcases List.mem_cons.1 h with rfl | h
        · exact ⟨l, List.mem_cons_self, fun x => by rw [Line.at_eq, Line.at_eq, ha]; linarith⟩
        · exact self _ (List.mem_cons_of_mem _ h)
    · rcases h with rfl | h
      · exact ⟨m, List.mem_cons_self, fun x => by rw [Line.at_eq, Line.at_eq, ha]; linarith [not_lt.1 h3]⟩
      · exact self _ h

/-- The lines of a list by ascending slope, of parallel ones the greatest. -/
def sortLines (cs : List Line) : List Line := cs.foldl (fun ls l => insLine l ls) []

theorem mem_of_mem_sortLines {cs : List Line} {m : Line} (h : m ∈ sortLines cs) : m ∈ cs := by
  have key : ∀ m ∈ sortLines cs, m ∈ cs :=
    List.foldlRecOn (motive := fun ls => ∀ m ∈ ls, m ∈ cs) cs _ (fun _ h => absurd h List.not_mem_nil) fun ls ih l hl m hm =>
      (mem_insLine hm).elim (fun h => h ▸ hl) (ih m)
  exact key m h

theorem sortLines_ascending (cs : List Line) : Ascending (sortLines cs) :=
  List.foldlRecOn (motive := Ascending) cs _ List.Pairwise.nil fun _ ih _ _ => insLine_ascending ih

theorem length_foldl_le {α β : Type} {f : List β → α → List β} (hf : ∀ ls a, (f ls a).length ≤ ls.length + 1) (cs : List α) (ls : List β) :
    (cs.foldl f ls).length ≤ ls.length + cs.length := by
  induction cs generalizing ls with
  | nil => exact le_rfl
  | cons c r ih => exact (ih _).trans (by have := hf ls c; simp only [List.length_cons]; omega)

theorem length_sortLines_le (cs : List Line) : (sortLines cs).length ≤ cs.length :=
  (length_foldl_le (fun ls l => length_insLine_le l ls) cs []).trans_eq (Nat.zero_add _)

theorem sortLines_covers {cs : List Line} {k : Line} (hk : k ∈ cs) : ∃ m ∈ sortLines cs, ∀ x, k.at x ≤ m.at x := by
  have key : ∀ (cs ls : List Line) (k : Line), k ∈ cs ∨ (∃ m ∈ ls, ∀ x, k.at x ≤ m.at x) →
      ∃ m ∈ cs.foldl (fun ls l => insLine l ls) ls, ∀ x, k.at x ≤ m.at x := by
    intro cs
    induction cs with
    | nil => exact fun ls k h => h.resolve_left List.not_mem_nil
    | cons c r ih =>
      intro ls k h
      refine ih _ k ?_
      rcases h with h | ⟨m, hm, hle⟩
      · rcases List.mem_cons.1 h with rfl | h
        · exact .inr (insLine_covers (.inl rfl))
        · exact .inl h
      · obtain ⟨n, hn, hmn⟩ := insLine_covers (l := c) (.inr hm)
        exact .inr ⟨n, hn, fun x => (hle x).trans (hmn x)⟩
  exact key cs [] k (.inl hk)

/-! ### The pieces found so far -/

theorem pushLine_nil (lo hi : PEnd) (l : Line) : pushLine lo hi l [] = [(l, lo)] := rfl

/-- The newest piece goes where the new line crosses it at or left of its left end; the new line is left out where that is at or right of the
domain's right end. -/
theorem pushLine_cons (lo hi : PEnd) (l m : Line) (x : PEnd) (r : List (Line × PEnd)) : pushLine lo hi l ((m, x) :: r) =
    if x.any (cross m l).le then pushLine lo hi l r
    else if hi.any fun h => h.le (cross m l) then (m, x) :: r
    else (l, some (cross m l)) :: (m, x) :: r := by
  cases x <;> cases hi <;> rfl

/-- IsHull of an upper envelope, newest first: slopes descend, each left end is the crossing with the piece before, the last one begins at the
domain's left end. -/
def IsHull (lo : PEnd) : List (Line × PEnd) → Prop
  | [] => True
  | [(_, x)] => x = lo
  | (l, x) :: (m, y) :: r => m.aq.val < l.aq.val ∧ x = some (cross m l) ∧ IsHull lo ((m, y) :: r)

theorem IsHull.tail {lo : PEnd} {e : Line × PEnd} {r : List (Line × PEnd)} (h : IsHull lo (e :: r)) : IsHull lo r := by
  cases r with
  | nil => trivial
  | cons e' r => exact h.2.2

theorem mem_pushLine {lo hi : PEnd} {l : Line} {st : List (Line × PEnd)} {e : Line × PEnd} (h : e ∈ pushLine lo hi l st) :
    e.1 = l ∨ e ∈ st := by
  induction st with
  | nil => rw [pushLine_nil] at h; exact .inl (congrArg Prod.fst (List.mem_singleton.1 h))
  | cons p r ih =>
    obtain ⟨m, x⟩ := p
    rw [pushLine_cons] at h
    split_ifs at h
    · exact (ih h).imp_right (List.mem_cons_of_mem _)
    · exact .inr h
    · exact (List.mem_cons.1 h).imp_left (congrArg Prod.fst)

theorem length_pushLine_le (lo hi : PEnd) (l : Line) (st : List (Line × PEnd)) : (pushLine lo hi l st).length ≤ st.length + 1 := by
  induction st with
  | nil => exact le_rfl
  | cons p r ih =>
    obtain ⟨m, x⟩ := p
    rw [pushLine_cons]
    split_ifs
    · exact ih.trans (Nat.le_succ _)
    · exact Nat.le_succ _
    · exact le_rfl

theorem pushLine_isHull {lo hi : PEnd} {l : Line} {st : List (Line × PEnd)} (h : IsHull lo st) (hl : ∀ e ∈ st, e.1.aq.val < l.aq.val) :
    IsHull lo (pushLine lo hi l st) := by
  induction st with
  | nil => exact rfl
  | cons p r ih =>
    obtain ⟨m, x⟩ := p
    rw [pushLine_cons]
    split_ifs
    · exact ih h.tail fun e he => hl e (List.mem_cons_of_mem _ he)
    · exact h
    · exact ⟨hl (m, x) List.mem_cons_self, rfl, h⟩

/-- In the domain nothing is lost: what a popped or a rejected piece gave another one gives. -/
theorem pushLine_covers {lo hi : PEnd} {l : Line} {st : List (Line × PEnd)} {x : ℚ} (h : IsHull lo st) (hl : ∀ e ∈ st, e.1.aq.val < l.aq.val)
    (hlo : lo.Below x) (hhi : hi.Above x) (hdl : ∀ q ∈ lo, 0 < q.den) (hdh : ∀ q ∈ hi, 0 < q.den) :
    ∀ k, (k = l ∨ ∃ e ∈ st, e.1 = k) → ∃ e ∈ pushLine lo hi l st, k.at x ≤ e.1.at x := by
  induction st with
  | nil =>
    intro k hk
    rcases hk with rfl | ⟨e, he, -⟩
    · rw [pushLine_nil]
      exact ⟨(k, lo), List.mem_cons_self, le_rfl⟩
    · cases he
  | cons p r ih =>
    obtain ⟨m, y⟩ := p
    have hml : m.aq.val < l.aq.val := hl (m, y) List.mem_cons_self
    have hr := ih h.tail fun e he => hl e (List.mem_cons_of_mem _ he)
    -- The end of the newest piece is a number with a positive denominator.
    have hdy : ∀ q ∈ y, 0 < q.den := by
      cases r with
      | nil => obtain rfl : y = lo := h; exact hdl
      | cons e r => obtain ⟨-, rfl, -⟩ := h; intro q hq; rw [← Option.some.inj hq]; exact den_cross_pos ..
    intro k hk
    rw [pushLine_cons]
    split_ifs with hgone hout
    case pos =>
      rcases hk with rfl | ⟨e, he, rfl⟩
      · exact hr _ (.inl rfl)
      rcases List.mem_cons.1 he with rfl | he
      case inr => exact hr _ (.inr ⟨e, he, rfl⟩)
      -- Right of its left end the popped piece is below l, left of it below the piece before.
      obtain ⟨q, rfl, hq⟩ := (Option.any_eq_true _ _).1 hgone
      have hle : (cross m l).val ≤ q.val := (Q.le_iff (den_cross_pos ..) (hdy q rfl)).1 hq
      rcases le_total q.val x with hx | hx
      · obtain ⟨e, he, hle'⟩ := hr _ (.inl rfl)
        exact ⟨e, he, ((at_le_iff_cross_le hml x).2 (hle.trans hx)).trans hle'⟩
      · cases r with
        | nil =>
          obtain ⟨e, he, hle'⟩ := hr _ (.inl rfl)
          have hlo' : q.val ≤ x := hlo q (show lo = some q from (h : some q = lo).symm)
          exact ⟨e, he, ((at_le_iff_cross_le hml x).2 (hle.trans hlo')).trans hle'⟩
        | cons e' r =>
          obtain ⟨hslope, hq, -⟩ := h
          obtain rfl := Option.some.inj hq
          obtain ⟨e, he, hle'⟩ := hr _ (.inr ⟨e', List.mem_cons_self, rfl⟩)
          exact ⟨e, he, ((at_ge_iff_le_cross hslope x).2 hx).trans hle'⟩
    case pos =>
      rcases hk with rfl | ⟨e, he, rfl⟩
      · -- The rejected line crosses the newest piece at or right of the domain's end.
        obtain ⟨q, rfl, hq⟩ := (Option.any_eq_true _ _).1 hout
        have hle : q.val ≤ (cross m k).val := (Q.le_iff (hdh q rfl) (den_cross_pos ..)).1 hq
        exact ⟨(m, y), List.mem_cons_self, (at_ge_iff_le_cross hml x).2 ((hhi q rfl).trans hle)⟩
      · exact ⟨e, he, le_rfl⟩
    case neg =>
      rcases hk with rfl | ⟨e, he, rfl⟩
      · exact ⟨(k, some (cross m k)), List.mem_cons_self, le_rfl⟩
      · exact ⟨e, List.mem_cons_of_mem _ he, le_rfl⟩

/-- Every line pushed, by ascending slope, is reached everywhere in the domain. -/
theorem foldl_pushLine_covers {lo hi : PEnd} {x : ℚ} (hlo : lo.Below x) (hhi : hi.Above x) (hdl : ∀ q ∈ lo, 0 < q.den) (hdh : ∀ q ∈ hi, 0 < q.den) :
    ∀ {ls : List Line} {st : List (Line × PEnd)} {k : Line}, Ascending ls → IsHull lo st → (∀ e ∈ st, ∀ l ∈ ls, e.1.aq.val < l.aq.val) →
      ((∃ e ∈ st, k.at x ≤ e.1.at x) ∨ k ∈ ls) → ∃ e ∈ ls.foldl (fun st l => pushLine lo hi l st) st, k.at x ≤ e.1.at x := by
  intro ls
  induction ls with
  | nil => exact fun _ _ _ hk => hk.resolve_right List.not_mem_nil
  | cons l r ih =>
    intro st k hasc hst hlt hk
    obtain ⟨hl, hr⟩ := List.pairwise_cons.1 hasc
    have hst' (e : Line × PEnd) (he : e ∈ st) : e.1.aq.val < l.aq.val := hlt e he l List.mem_cons_self
    have hpush := pushLine_covers hst hst' hlo hhi hdl hdh
    refine ih hr (pushLine_isHull hst hst') (fun e he m hm => ?_) ?_
    · rcases mem_pushLine he with h | he
      · rw [h]; exact hl m hm
      · exact hlt e he m (List.mem_cons_of_mem l hm)
    · rcases hk with ⟨e, he, hle⟩ | hk
      · obtain ⟨e', he', hle'⟩ := hpush e.1 (.inr ⟨e, he, rfl⟩)
        exact .inl ⟨e', he', hle.trans hle'⟩
      · rcases List.mem_cons.1 hk with rfl | hk
        · exact .inl (hpush k (.inl rfl))
        · exact .inr hk

/-! ### The greatest line at a point -/

theorem mem_of_topAt {val : Line → FVal} {ls : List Line} {m : Line} (h : topAt val ls = some m) : m ∈ ls := by
  induction ls generalizing m with
  | nil => cases h
  | cons l r ih =>
    rw [topAt] at h
    cases htop : topAt val r with
    | none => rw [htop] at h; exact Option.some.inj h ▸ List.mem_cons_self
    | some k =>
      rw [htop] at h
      have hk := List.mem_cons_of_mem l (ih htop)
      simp only at h
      split_ifs at h <;> cases Option.some.inj h
      exacts [hk, List.mem_cons_self, hk, List.mem_cons_self]

/-- k is the greatest of the lines at x, of equal ones that of the largest slope. -/
def IsTop (ls : List Line) (x : ℚ) (k : Line) : Prop := k ∈ ls ∧ ∀ j ∈ ls, j.at x ≤ k.at x ∧ (j.at x = k.at x → j.aq.val ≤ k.aq.val)

theorem IsTop.cons_below {ls : List Line} {x : ℚ} {k l : Line} (h : IsTop ls x k) (hle : l.at x ≤ k.at x)
    (heq : l.at x = k.at x → l.aq.val ≤ k.aq.val) : IsTop (l :: ls) x k :=
  ⟨List.mem_cons_of_mem l h.1, List.forall_mem_cons.2 ⟨⟨hle, heq⟩, h.2⟩⟩

theorem IsTop.cons_above {ls : List Line} {x : ℚ} {k l : Line} (h : IsTop ls x k) (hle : k.at x ≤ l.at x)
    (heq : k.at x = l.at x → k.aq.val ≤ l.aq.val) : IsTop (l :: ls) x l := by
  refine ⟨List.mem_cons_self, List.forall_mem_cons.2 ⟨⟨le_rfl, fun _ => le_rfl⟩, fun j hj => ?_⟩⟩
  obtain ⟨hjk, hjeq⟩ := h.2 j hj
  refine ⟨hjk.trans hle, fun he => ?_⟩
  have hk : k.at x = l.at x := le_antisymm hle (he ▸ hjk)
  exact (hjeq (he.trans hk.symm)).trans (heq hk)

theorem limitAt_of_finite {w : Word} (h : finite32 w = true) (l : Line) : limitAt l (f32 w) = .ofQ (l.eval (f32 w).toQ) := by
  obtain ⟨s, m, hm⟩ := fin_of_finite32 h
  rw [hm, limitAt]

theorem lt_limitAt_iff {w : Word} (h : finite32 w = true) (l m : Line) :
    (limitAt l (f32 w)).lt (limitAt m (f32 w)) = true ↔ l.at (f32 w).num < m.at (f32 w).num := by
  have hw := den_f32_pos w
  have hval (k : Line) : (FVal.ofQ (k.eval (f32 w).toQ)).toQ.val = k.at (f32 w).num := (val_ofQ (k.den_eval_pos hw)).trans (k.val_eval hw)
  have hden (k : Line) : 0 < (FVal.ofQ (k.eval (f32 w).toQ)).toQ.den := by rw [den_ofQ]; exact k.den_eval_pos hw
  rw [limitAt_of_finite h, limitAt_of_finite h, ← hval, ← hval, ← Q.lt_iff (hden l) (hden m)]
  rfl

theorem topAt_isTop {w : Word} (h : finite32 w = true) {ls : List Line} (hne : ls ≠ []) :
    ∃ k, topAt (fun l => limitAt l (f32 w)) ls = some k ∧ IsTop ls (f32 w).num k := by
  induction ls with
  | nil => exact absurd rfl hne
  | cons l r ih =>
    rcases r with _ | ⟨m, r⟩
    · exact ⟨l, rfl, List.mem_cons_self, List.forall_mem_cons.2 ⟨⟨le_rfl, fun _ => le_rfl⟩, fun j hj => absurd hj List.not_mem_nil⟩⟩
    · obtain ⟨k, hk, htop⟩ := ih (List.cons_ne_nil m r)
      rw [topAt, hk]
      simp only [lt_limitAt_iff h, Q.lt_iff l.aq_pos k.aq_pos]
      split_ifs with h1 h2 h3
      · exact ⟨k, rfl, htop.cons_below h1.le fun he => absurd he h1.ne⟩
      · exact ⟨l, rfl, htop.cons_above h2.le fun he => absurd he h2.ne⟩
      · exact ⟨k, rfl, htop.cons_below (not_lt.1 h2) fun _ => h3.le⟩
      · exact ⟨l, rfl, htop.cons_above (not_lt.1 h1) fun _ => not_lt.1 h3⟩

/-! ### The envelope -/

theorem envelope_point {cs : List Line} {lo hi : Word} (hlo : ¬nanWord lo) (hhi : ¬nanWord hi) (h : wordKey lo = wordKey hi) :
    envelope cs lo hi = (topAt (fun l => limitAt l (f32 lo)) cs).toList := by
  rw [envelope, if_neg fun hlt => h.not_gt ((f32_lt_iff hhi hlo).1 hlt), if_pos ((f32_eq_iff hlo hhi).2 h)]

theorem envelope_interval {cs : List Line} {lo hi : Word} (hlo : ¬nanWord lo) (hhi : ¬nanWord hi) (h : wordKey lo < wordKey hi) :
    envelope cs lo hi = (((sortLines cs).foldl (fun st l => pushLine (endOf lo) (endOf hi) l st) []).map (·.1)).reverse := by
  rw [envelope, if_neg fun hlt => h.not_gt ((f32_lt_iff hhi hlo).1 hlt), if_neg fun he => h.ne ((f32_eq_iff hlo hhi).1 he)]
  rfl

section
variable {cs : List Line} {lo hi : Word} (hlo : ¬nanWord lo) (hhi : ¬nanWord hi) (hle : wordKey lo ≤ wordKey hi)
include hlo hhi hle

theorem mem_of_mem_envelope {m : Line} (h : m ∈ envelope cs lo hi) : m ∈ cs := by
  rcases hle.eq_or_lt with hk | hk
  · rw [envelope_point hlo hhi hk, Option.mem_toList] at h
    exact mem_of_topAt h
  · rw [envelope_interval hlo hhi hk, List.mem_reverse] at h
    obtain ⟨e, he, rfl⟩ := List.mem_map.1 h
    have key : ∀ e ∈ (sortLines cs).foldl (fun st l => pushLine (endOf lo) (endOf hi) l st) [], e.1 ∈ cs :=
      List.foldlRecOn (motive := fun st : List (Line × PEnd) => ∀ e ∈ st, e.1 ∈ cs) _ _ (fun _ h => absurd h List.not_mem_nil)
        fun st ih l hl e he => (mem_pushLine he).elim (fun h => h ▸ mem_of_mem_sortLines hl) (ih e)
    exact key e he

theorem length_envelope_le : (envelope cs lo hi).length ≤ cs.length := by
  rcases hle.eq_or_lt with hk | hk
  · rw [envelope_point hlo hhi hk]
    cases htop : topAt (fun l => limitAt l (f32 lo)) cs with
    | none => exact Nat.zero_le _
    | some k => exact List.length_pos_of_mem (mem_of_topAt htop)
  · rw [envelope_interval hlo hhi hk, List.length_reverse, List.length_map]
    have hpush := length_foldl_le (fun st l => length_pushLine_le (endOf lo) (endOf hi) l st) (sortLines cs) []
    exact (hpush.trans_eq (Nat.zero_add _)).trans (length_sortLines_le cs)

/-- Everywhere in the domain some line of the envelope is at or above each candidate. -/
theorem envelope_covers (hfin : wordKey lo = wordKey hi → finite32 lo = true) {x : ℚ} (hx : between lo hi x) {l : Line} (hl : l ∈ cs) :
    ∃ m ∈ envelope cs lo hi, l.at x ≤ m.at x := by
  rcases hle.eq_or_lt with hk | hk
  · have hflo := hfin hk
    have hfhi : finite32 hi = true := by
      rcases word_cases hhi with h | rfl | rfl
      · exact h
      · exact absurd hk (wordKey_lt_of_finite hflo).2.ne
      · exact absurd hk (wordKey_lt_of_finite hflo).1.ne'
    have hxeq : x = (f32 lo).num := by
      refine le_antisymm ((hx.2 hfhi).trans_eq ?_) (hx.1 hflo)
      rw [num_f32 hfhi, num_f32 hflo, hk]
    obtain ⟨k, htop, hkmem, hkle⟩ := topAt_isTop hflo (List.ne_nil_of_mem hl)
    rw [envelope_point hlo hhi hk, htop, hxeq]
    exact ⟨k, List.mem_singleton_self k, (hkle l hl).1⟩
  · obtain ⟨m, hm, hlm⟩ := sortLines_covers hl
    obtain ⟨e, he, hme⟩ := foldl_pushLine_covers (below_of_between hx) (above_of_between hx) (fun _ => den_pos_of_mem_endOf)
      (fun _ => den_pos_of_mem_endOf) (sortLines_ascending cs) (st := []) trivial (fun _ h => absurd h List.not_mem_nil) (.inr hm)
    rw [envelope_interval hlo hhi hk]
    exact ⟨e.1, List.mem_reverse.2 (List.mem_map_of_mem he), (hlm x).trans hme⟩

theorem envelope_singleton (l : Line) : envelope [l] lo hi = [l] := by
  rcases hle.eq_or_lt with hk | hk
  · rw [envelope_point hlo hhi hk]; rfl
  · rw [envelope_interval hlo hhi hk]; rfl

end

/-- Of two parallel lines of which the first is not the lower the first stays. -/
theorem envelope_parallel {l m : Line} {lo hi : Word} (hlo : ¬nanWord lo) (hhi : ¬nanWord hi) (h : wordKey lo < wordKey hi)
    (ha : m.aq.val = l.aq.val) (hb : m.bq.val ≤ l.bq.val) : envelope [l, m] lo hi = [l] := by
  have hsort : sortLines [l, m] = [l] := by
    show insLine m [l] = [l]
    rw [insLine, if_neg fun h => ((Q.lt_iff m.aq_pos l.aq_pos).1 h).ne ha, if_neg fun h => ((Q.lt_iff l.aq_pos m.aq_pos).1 h).ne' ha,
      if_neg fun h => ((Q.lt_iff l.bq_pos m.bq_pos).1 h).not_ge hb]
  rw [envelope_interval hlo hhi h, hsort]
  rfl

/-- Two lines of ascending slope that cross inside the domain both stay. -/
theorem envelope_crossing {l m : Line} {lo hi : Word} (hlo : ¬nanWord lo) (hhi : ¬nanWord hi) (h : wordKey lo < wordKey hi)
    (ha : l.aq.val < m.aq.val) (hleft : ∀ q ∈ endOf lo, q.val < (cross l m).val) (hright : ∀ q ∈ endOf hi, (cross l m).val < q.val) :
    envelope [l, m] lo hi = [l, m] := by
  have hsort : sortLines [l, m] = [l, m] := by
    show insLine m [l] = [l, m]
    rw [insLine, if_neg fun h => ((Q.lt_iff m.aq_pos l.aq_pos).1 h).not_gt ha, if_pos ((Q.lt_iff l.aq_pos m.aq_pos).2 ha), insLine]
  have hstay : pushLine (endOf lo) (endOf hi) m [(l, endOf lo)] = [(m, some (cross l m)), (l, endOf lo)] := by
    rw [pushLine_cons, if_neg, if_neg]
    · rw [Option.any_eq_true]
      rintro ⟨q, hq, hle⟩
      exact (hright q hq).not_ge ((Q.le_iff (den_pos_of_mem_endOf hq) (den_cross_pos l m)).1 hle)
    · rw [Option.any_eq_true]
      rintro ⟨q, hq, hle⟩
      exact (hleft q hq).not_ge ((Q.le_iff (den_cross_pos l m) (den_pos_of_mem_endOf hq)).1 hle)
  rw [envelope_interval hlo hhi h, hsort]
  show ((pushLine (endOf lo) (endOf hi) m (pushLine (endOf lo) (endOf hi) l [])).map (·.1)).reverse = [l, m]
  rw [pushLine_nil, hstay]
  rfl

end Sys2Proof.Machine
end

