-- ==== Sys2Proof/Proofs/ProfileResults.lean ====
section
/-! PROOF. The profiles that the operations of the Profile unit leave (11 R202-R207, R210). -/

namespace Sys2Proof.Machine

open Sys2Proof

/-! ### Coefficients and domain ends (11 R202) -/

@[simp] theorem flags_or_zero (f : AFlags) : f ||| 0 = f := BitVec.or_zero
@[simp] theorem flags_zero_or (f : AFlags) : 0 ||| f = f := BitVec.zero_or

/-- A coefficient that stays finite is rounded as any number is. -/
theorem coef_of_finite {v : FVal} (h : finite32 (rne32 v).1 = true) : coef v = rne32 v := by
  have hmag : ¬((rne32 v).1.setWidth 31 = 0x7F800000) := fun he => by
    rw [BitVec.toNat_eq, BitVec.toNat_setWidth] at he
    exact ((finite32_iff _).1 h).ne he
  simp only [coef, if_neg hmag]

theorem coef_f32 {w : Word} (h : finite32 w = true) : coef (f32 w) = (w, 0) := by
  rw [coef_of_finite (by rw [rne32_f32 h]; exact h), rne32_f32 h]

theorem endRne_f32 {w : Word} (h : ¬nanWord w) : endRne (f32 w) = (w, 0) := by
  rw [endRne, rne32_f32_of_not_nan h]
  simp

theorem isVoid_iff {p : Prof} (hlo : ¬nanWord p.lo) (hhi : ¬nanWord p.hi) : p.isVoid = true ↔ wordKey p.hi < wordKey p.lo :=
  f32_lt_iff hhi hlo

theorem isVoid_eq_false {p : Prof} (hlo : ¬nanWord p.lo) (hhi : ¬nanWord p.hi) (h : wordKey p.lo ≤ wordKey p.hi) : p.isVoid = false :=
  Bool.eq_false_iff.2 fun hv => h.not_gt ((isVoid_iff hlo hhi).1 hv)

/-! ### How a result is formed (11 R202) -/

/-- A candidate rounded. -/
def Cand.line (c : Cand) : Line := ⟨(coef c.a).1, (coef c.b).1, c.t⟩

/-- The flags of the roundings of candidates. -/
def candFlags (cs : List Cand) : AFlags := cs.foldl (fun f c => f ||| (coef c.a).2 ||| (coef c.b).2) 0

@[simp] theorem candFlags_singleton (c : Cand) : candFlags [c] = (coef c.a).2 ||| (coef c.b).2 := by simp [candFlags]

@[simp] theorem candFlags_pair (c d : Cand) : candFlags [c, d] = (coef c.a).2 ||| (coef c.b).2 ||| (coef d.a).2 ||| (coef d.b).2 := by
  simp [candFlags]

theorem formResult_words {cs : List Cand} {lo hi : Word} (hlo : ¬nanWord lo) (hhi : ¬nanWord hi) (tau : Word) :
    formResult cs (f32 lo) (f32 hi) tau =
      if wordKey hi < wordKey lo then (some Prof.void, candFlags cs)
      else
        let env := envelope (cs.map Cand.line) lo hi
        let env := if 512 < env.length then simplify env lo hi tau else env
        (if 512 < env.length then none else some ⟨lo, hi, env⟩, candFlags cs) := by
  rw [formResult, endRne_f32 hlo, endRne_f32 hhi]
  simp only [f32_lt_iff hhi hlo, List.map_map, List.foldl_map, flags_or_zero]
  rfl

section
variable {cs : List Cand} {lo hi : Word} (hlo : ¬nanWord lo) (hhi : ¬nanWord hi)
include hlo hhi

theorem formResult_void (h : wordKey hi < wordKey lo) (tau : Word) : formResult cs (f32 lo) (f32 hi) tau = (some Prof.void, candFlags cs) := by
  rw [formResult_words hlo hhi, if_pos h]

/-- At most 512 candidates leave the envelope of their lines. -/
theorem formResult_envelope (h : wordKey lo ≤ wordKey hi) (hn : cs.length ≤ 512) (tau : Word) :
    formResult cs (f32 lo) (f32 hi) tau = (some ⟨lo, hi, envelope (cs.map Cand.line) lo hi⟩, candFlags cs) := by
  have hlen : ¬512 < (envelope (cs.map Cand.line) lo hi).length :=
    ((length_envelope_le hlo hhi h).trans_eq (List.length_map _) |>.trans hn).not_gt
  rw [formResult_words hlo hhi, if_neg h.not_gt]
  simp only [if_neg hlen]

/-- One candidate is the one line of its result. -/
theorem formResult_singleton (h : wordKey lo ≤ wordKey hi) (c : Cand) (tau : Word) :
    formResult [c] (f32 lo) (f32 hi) tau = (some ⟨lo, hi, [c.line]⟩, (coef c.a).2 ||| (coef c.b).2) := by
  rw [formResult_envelope hlo hhi h (Nat.le_of_ble_eq_true rfl), List.map_singleton, envelope_singleton hlo hhi h, candFlags_singleton]

end

/-! ### Lines as candidates -/

theorem Line.line_cand {l : Line} (h : l.finite) : l.cand.line = l := by
  rw [Line.cand, Cand.line, coef_f32 h.1, coef_f32 h.2]

theorem map_line_cand {ls : List Line} (h : ∀ l ∈ ls, l.finite) : (ls.map Line.cand).map Cand.line = ls := by
  rw [List.map_map]
  exact (List.map_congr_left fun l hl => Line.line_cand (h l hl)).trans (List.map_id ls)

theorem candFlags_lines {ls : List Line} (h : ∀ l ∈ ls, l.finite) : candFlags (ls.map Line.cand) = 0 := by
  rw [candFlags, List.foldl_map]
  refine List.foldlRecOn (motive := (· = 0)) ls _ rfl fun f hf l hl => ?_
  rw [hf, Line.cand, coef_f32 (h l hl).1, coef_f32 (h l hl).2, flags_or_zero, flags_or_zero]

/-- Finite lines that are no more than 512 leave their envelope and raise no flag. -/
theorem formResult_lines {ls : List Line} {lo hi : Word} (hls : ∀ l ∈ ls, l.finite) (hlo : ¬nanWord lo) (hhi : ¬nanWord hi)
    (h : wordKey lo ≤ wordKey hi) (hn : ls.length ≤ 512) (tau : Word) :
    formResult (ls.map Line.cand) (f32 lo) (f32 hi) tau = (some ⟨lo, hi, envelope ls lo hi⟩, 0) := by
  rw [formResult_envelope hlo hhi h (by rwa [List.length_map]), map_line_cand hls, candFlags_lines hls]

/-- The lines of p are among cs and, everywhere in its domain, reach each of cs. -/
def Prof.Reaches (p : Prof) (cs : List Line) : Prop :=
  (∀ l ∈ p.lines, l ∈ cs) ∧ ∀ x, between p.lo p.hi x → ∀ l ∈ cs, ∃ m ∈ p.lines, l.at x ≤ m.at x

theorem envelope_reaches {ls : List Line} {lo hi : Word} (hlo : ¬nanWord lo) (hhi : ¬nanWord hi) (h : wordKey lo ≤ wordKey hi)
    (hfin : wordKey lo = wordKey hi → finite32 lo = true) : (⟨lo, hi, envelope ls lo hi⟩ : Prof).Reaches ls :=
  ⟨fun _ => mem_of_mem_envelope hlo hhi h, fun _ hx _ => envelope_covers hlo hhi h hfin hx⟩

/-- A profile with finite lines and a domain that is neither a NaN nor nowhere: what the sources of an operation are. -/
structure Prof.Plain (p : Prof) : Prop where
  lines : ∀ l ∈ p.lines, l.finite
  lo : ¬nanWord p.lo
  hi : ¬nanWord p.hi
  lo_ne : p.lo ≠ 0x7F800000
  hi_ne : p.hi ≠ 0xFF800000

/-- A domain that is one point is a finite one. -/
theorem finite32_of_point {lo hi : Word} (hlo : ¬nanWord lo) (hlo' : lo ≠ 0x7F800000) (hhi : ¬nanWord hi) (hhi' : hi ≠ 0xFF800000)
    (h : wordKey lo = wordKey hi) : finite32 lo = true := by
  rcases word_cases hlo with hf | he | rfl
  · exact hf
  · exact absurd he hlo'
  · rcases word_cases hhi with hf | rfl | he
    · exact absurd h (wordKey_lt_of_finite hf).1.ne
    · exact absurd h (by decide)
    · exact absurd he hhi'

/-! ### Maximum and insertion (11 R203, R204) -/

theorem lower_eq {f g : Prof} (hf : ¬nanWord f.lo) (hg : ¬nanWord g.lo) : lower f g = if wordKey f.lo < wordKey g.lo then g.lo else f.lo := by
  simp only [lower, f32_lt_iff hf hg]

theorem upper_eq {f g : Prof} (hf : ¬nanWord f.hi) (hg : ¬nanWord g.hi) : upper f g = if wordKey g.hi < wordKey f.hi then g.hi else f.hi := by
  simp only [upper, f32_lt_iff hg hf]

theorem lower_cases (f g : Prof) : lower f g = f.lo ∨ lower f g = g.lo := by
  unfold lower; split
  exacts [.inr rfl, .inl rfl]

theorem upper_cases (f g : Prof) : upper f g = f.hi ∨ upper f g = g.hi := by
  unfold upper; split
  exacts [.inr rfl, .inl rfl]

section
variable {f g : Prof} (hf : f.Plain) (hg : g.Plain)
include hf hg

theorem not_nan_lower : ¬nanWord (lower f g) := by
  rcases lower_cases f g with h | h <;> rw [h]
  exacts [hf.lo, hg.lo]

theorem not_nan_upper : ¬nanWord (upper f g) := by
  rcases upper_cases f g with h | h <;> rw [h]
  exacts [hf.hi, hg.hi]

theorem finite_lower_of_point (h : wordKey (lower f g) = wordKey (upper f g)) : finite32 (lower f g) = true := by
  refine finite32_of_point (not_nan_lower hf hg) ?_ (not_nan_upper hf hg) ?_ h
  · rcases lower_cases f g with h | h <;> rw [h]
    exacts [hf.lo_ne, hg.lo_ne]
  · rcases upper_cases f g with h | h <;> rw [h]
    exacts [hf.hi_ne, hg.hi_ne]

theorem finite_append : ∀ l ∈ f.lines ++ g.lines, l.finite := fun l hl => (List.mem_append.1 hl).elim (hf.lines l) (hg.lines l)

theorem pMax_void (h : wordKey (upper f g) < wordKey (lower f g)) (tau : Word) : pMax f g tau = (some Prof.void, 0) := by
  rw [pMax, ← List.map_append, formResult_void (not_nan_lower hf hg) (not_nan_upper hf hg) h, candFlags_lines (finite_append hf hg)]

theorem pMax_reaches (h : wordKey (lower f g) ≤ wordKey (upper f g)) (hn : f.lines.length + g.lines.length ≤ 512) (tau : Word) :
    ∃ p : Prof, pMax f g tau = (some p, 0) ∧ p.lo = lower f g ∧ p.hi = upper f g ∧ p.Reaches (f.lines ++ g.lines) := by
  have hlo := not_nan_lower hf hg
  have hhi := not_nan_upper hf hg
  refine ⟨⟨lower f g, upper f g, envelope (f.lines ++ g.lines) _ _⟩, ?_, rfl, rfl, envelope_reaches hlo hhi h (finite_lower_of_point hf hg)⟩
  rw [pMax, ← List.map_append, formResult_lines (finite_append hf hg) hlo hhi h (by rwa [List.length_append])]

end

theorem pIns_reaches {e : Prof} (he : e.Plain) {ls : List Line} (hls : ∀ l ∈ ls, l.finite) (h : wordKey e.lo ≤ wordKey e.hi)
    (hn : e.lines.length + ls.length ≤ 512) (bad : Bool) (tau : Word) :
    ∃ p : Prof, pIns e ls bad tau = (some p, flIf bad flInvalid) ∧ p.lo = e.lo ∧ p.hi = e.hi ∧ p.Reaches (e.lines ++ ls) := by
  refine ⟨⟨e.lo, e.hi, envelope (e.lines ++ ls) e.lo e.hi⟩, ?_, rfl, rfl, envelope_reaches he.lo he.hi h (finite32_of_point he.lo he.lo_ne he.hi he.hi_ne)⟩
  have hfin : ∀ l ∈ e.lines ++ ls, l.finite := fun l hl => (List.mem_append.1 hl).elim (he.lines l) (hls l)
  rw [pIns, ← List.map_append, formResult_lines hfin he.lo he.hi h (by rwa [List.length_append])]
  simp only [flags_zero_or]

/-! ### The sum of two lines (11 R205) -/

theorem sumTag_eq (tm : Nat) (t u : BitVec 16) :
    sumTag tm t u = if tm = 0 then t else if tm = 1 then u else BitVec.ofNat 16 (t.toNat % 256 * 256 + u.toNat % 256) := by
  have hcat : (t.setWidth 8 : BitVec 8) ++ (u.setWidth 8 : BitVec 8) = BitVec.ofNat 16 (t.toNat % 256 * 256 + u.toNat % 256) := by
    apply BitVec.eq_of_toNat_eq
    rw [BitVec.toNat_append, BitVec.toNat_ofNat, BitVec.toNat_setWidth, BitVec.toNat_setWidth, ← Nat.shiftLeft_add_eq_or_of_lt (Nat.mod_lt _ (by decide)),
      Nat.shiftLeft_eq]
    omega
  rw [sumTag, hcat]

theorem mem_maxLeft {x y : PEnd} {q : Q} (h : q ∈ maxLeft x y) : q ∈ x ∨ q ∈ y := by
  match x, y with
  | none, _ => exact .inr h
  | some _, none => exact .inl h
  | some a, some b =>
    obtain rfl := Option.some.inj h
    unfold Q.max
    split
    exacts [.inr rfl, .inl rfl]

theorem mem_minRight {x y : PEnd} {q : Q} (h : q ∈ minRight x y) : q ∈ x ∨ q ∈ y := by
  match x, y with
  | none, _ => exact .inr h
  | some _, none => exact .inl h
  | some a, some b =>
    obtain rfl := Option.some.inj h
    unfold Q.min
    split
    exacts [.inr rfl, .inl rfl]

section
variable {f g : Prof} (hf : f.Plain) (hg : g.Plain)
include hf hg

theorem key_le_lower : wordKey f.lo ≤ wordKey (lower f g) ∧ wordKey g.lo ≤ wordKey (lower f g) := by
  rw [lower_eq hf.lo hg.lo]; split <;> omega

theorem upper_le_key : wordKey (upper f g) ≤ wordKey f.hi ∧ wordKey (upper f g) ≤ wordKey g.hi := by
  rw [upper_eq hf.hi hg.hi]; split <;> omega

/-- The left end of the overlap of two whole domains is at or left of that of their intersection. -/
theorem overlap_left {q : Q} (h : q ∈ maxLeft (maxLeft (endOf f.lo) (endOf g.lo)) (endOf (lower f g))) :
    0 < q.den ∧ q.val ≤ keyNum (wordKey (lower f g)) := by
  obtain ⟨hlf, hlg⟩ := key_le_lower hf hg
  have hw : ∃ w, q ∈ endOf w ∧ wordKey w ≤ wordKey (lower f g) := by
    rcases mem_maxLeft h with h | h
    · rcases mem_maxLeft h with h | h
      exacts [⟨_, h, hlf⟩, ⟨_, h, hlg⟩]
    · exact ⟨_, h, le_rfl⟩
  obtain ⟨w, hq, hle⟩ := hw
  exact ⟨den_pos_of_mem_endOf hq, (val_of_mem_endOf hq).trans_le (keyNum_strictMono.monotone hle)⟩

theorem overlap_right {q : Q} (h : q ∈ minRight (minRight (endOf f.hi) (endOf g.hi)) (endOf (upper f g))) :
    0 < q.den ∧ keyNum (wordKey (upper f g)) ≤ q.val := by
  obtain ⟨huf, hug⟩ := upper_le_key hf hg
  have hw : ∃ w, q ∈ endOf w ∧ wordKey (upper f g) ≤ wordKey w := by
    rcases mem_minRight h with h | h
    · rcases mem_minRight h with h | h
      exacts [⟨_, h, huf⟩, ⟨_, h, hug⟩]
    · exact ⟨_, h, le_rfl⟩
  obtain ⟨w, hq, hle⟩ := hw
  exact ⟨den_pos_of_mem_endOf hq, (keyNum_strictMono.monotone hle).trans_eq (val_of_mem_endOf hq).symm⟩

end

/-- Ends on either side of a left and a right number that are apart enclose an interval. -/
theorem positive_of_lt {l r : PEnd} {a b : ℚ} (hl : ∀ q ∈ l, 0 < q.den ∧ q.val ≤ a) (hr : ∀ q ∈ r, 0 < q.den ∧ b ≤ q.val) (h : a < b) :
    positive l r = true := by
  match l, r with
  | none, _ => rfl
  | some _, none => rfl
  | some x, some y =>
    obtain ⟨hx, hxa⟩ := hl x rfl
    obtain ⟨hy, hyb⟩ := hr y rfl
    exact (Q.lt_iff hx hy).2 ((hxa.trans_lt h).trans_le hyb)

theorem pAdd_singletons {f g : Prof} (hf : f.Plain) (hg : g.Plain) {l m : Line} (hl : f.lines = [l]) (hm : g.lines = [m])
    (h : wordKey (lower f g) ≤ wordKey (upper f g)) (tm : Nat) (tau : Word) :
    pAdd tm f g tau = formResult [⟨((f32 l.a).add (f32 m.a)).1, ((f32 l.b).add (f32 m.b)).1, sumTag tm l.t m.t⟩] (f32 (lower f g)) (f32 (upper f g)) tau := by
  have hlo := not_nan_lower hf hg
  have hhi := not_nan_upper hf hg
  have hnv : ¬((f32 (upper f g)).lt (f32 (lower f g)) = true) := fun hlt => h.not_gt ((f32_lt_iff hhi hlo).1 hlt)
  have hleft := fun q => overlap_left hf hg (q := q)
  have hright := fun q => overlap_right hf hg (q := q)
  unfold pAdd
  rw [hl, hm]
  simp only [if_neg hnv, pieces, List.flatMap_cons, List.flatMap_nil, List.append_nil]
  rw [List.filter_cons_of_pos, List.filter_nil, List.map_singleton]
  split
  next hpt =>
    have hk := (f32_eq_iff hlo hhi).1 hpt
    obtain ⟨s, q, hq⟩ := fin_of_finite32 (finite_lower_of_point hf hg hk)
    rw [hq]
    split
    next heq => cases heq
    next a b ha hb _ =>
      obtain ⟨hda, hva⟩ := hleft a ha
      obtain ⟨hdb, hvb⟩ := hright b hb
      exact (Q.le_iff hda hdb).2 (hva.trans ((congrArg keyNum hk).trans_le hvb))
    next => rfl
  next hpt =>
    have hlt := lt_of_le_of_ne h fun hk => hpt ((f32_eq_iff hlo hhi).2 hk)
    exact positive_of_lt hleft hright (keyNum_strictMono hlt)

theorem pAdd_lines {f g : Prof} (hf : f.Plain) (hg : g.Plain) {l m : Line} (hl : f.lines = [l]) (hm : g.lines = [m])
    (h : wordKey (lower f g) ≤ wordKey (upper f g)) (tm : Nat) (tau : Word)
    (ha : finite32 (rne32 ((f32 l.a).add (f32 m.a)).1).1 = true) (hb : finite32 (rne32 ((f32 l.b).add (f32 m.b)).1).1 = true) :
    pAdd tm f g tau = (some ⟨lower f g, upper f g, [⟨(rne32 ((f32 l.a).add (f32 m.a)).1).1, (rne32 ((f32 l.b).add (f32 m.b)).1).1, sumTag tm l.t m.t⟩]⟩,
      (rne32 ((f32 l.a).add (f32 m.a)).1).2 ||| (rne32 ((f32 l.b).add (f32 m.b)).1).2) := by
  rw [pAdd_singletons hf hg hl hm h, formResult_singleton (not_nan_lower hf hg) (not_nan_upper hf hg) h, Cand.line, coef_of_finite ha, coef_of_finite hb]

/-! ### Infimal convolution with one line on the whole axis (11 R206) -/

/-- The conjugate of one line on [lo, hi] at slope a: the greater of a x - m(x) at its ends. -/
def lineConj (lo hi a : Q) (m : Line) : Q :=
  if a.eq m.aq then m.bq.neg else if a.lt m.aq then (a.mul lo).sub (m.eval lo) else (a.mul hi).sub (m.eval hi)

theorem conjAt_line (lo hi a : Q) (m : Line) : conjAt (some lo) (some hi) a [m] none = some (lineConj lo hi a m) := by
  rw [conjAt, lineConj]
  split_ifs <;> rfl

/-- On the whole axis it is finite at the slope of the line only. -/
theorem conjAt_line_unbounded (a : Q) (m : Line) : conjAt none none a [m] none = if a.eq m.aq then some m.bq.neg else none := by
  rw [conjAt]
  split_ifs <;> rfl

section
variable {lo hi a : Q} (m : Line) (hlo : 0 < lo.den) (hhi : 0 < hi.den) (ha : 0 < a.den)
include hlo hhi ha

theorem den_lineConj_pos : 0 < (lineConj lo hi a m).den := by
  unfold lineConj
  split_ifs
  · exact m.bq_pos
  · exact Q.den_sub_pos (Q.den_mul_pos ha hlo) (m.den_eval_pos hlo)
  · exact Q.den_sub_pos (Q.den_mul_pos ha hhi) (m.den_eval_pos hhi)

theorem val_lineConj : (lineConj lo hi a m).val = (if a.val < m.aq.val then (a.val - m.aq.val) * lo.val else (a.val - m.aq.val) * hi.val) - m.bq.val := by
  unfold lineConj
  simp only [Q.eq_iff ha m.aq_pos, Q.lt_iff ha m.aq_pos]
  split_ifs with heq hlt hlt
  · exact absurd heq hlt.ne
  · rw [Q.val_neg, heq]; ring
  · rw [Q.val_sub (Q.den_mul_pos ha hlo) (m.den_eval_pos hlo), Q.val_mul, m.val_eval hlo, Line.at_eq]; ring
  · rw [Q.val_sub (Q.den_mul_pos ha hhi) (m.den_eval_pos hhi), Q.val_mul, m.val_eval hhi, Line.at_eq]; ring

end

theorem endSum_negInf (y : Word) : endSum 0xFF800000 y = f32 0xFF800000 := by rw [endSum, f32_negInf]

theorem endSum_posInf (y : Word) : endSum 0x7F800000 y = f32 0x7F800000 := by rw [endSum, f32_posInf]

section
variable {g : Prof} {l m : Line} (hm : g.lines = [m]) (hlo : finite32 g.lo = true) (hhi : finite32 g.hi = true) (hle : wordKey g.lo ≤ wordKey g.hi)
include hm hlo hhi hle

/-- The line l on the whole axis convolved with the line m on [lo, hi]: one candidate by l, and one by m where the slopes agree. -/
theorem pInf_candidates (tau : Word) : pInf ⟨0xFF800000, 0x7F800000, [l]⟩ g tau =
    formResult (⟨f32 l.a, .ofQ (l.bq.sub (lineConj (f32 g.lo).toQ (f32 g.hi).toQ l.aq m)), l.t⟩ ::
      if m.aq.eq l.aq then [⟨f32 m.a, .ofQ (m.bq.add l.bq), m.t⟩] else []) (f32 0xFF800000) (f32 0x7F800000) tau := by
  have hfv : (⟨0xFF800000, 0x7F800000, [l]⟩ : Prof).isVoid = false := 
    isVoid_eq_false not_nanWord_negInf not_nanWord_posInf negInf_le_posInf
  have hgv : g.isVoid = false := isVoid_eq_false (not_nanWord_of_finite hlo) (not_nanWord_of_finite hhi) hle
  unfold pInf
  simp only [hfv, hgv, hm, endOf_of_finite hlo, endOf_of_finite hhi, endOf_negInf, endOf_posInf, endSum_negInf, endSum_posInf, List.filterMap_cons,
    List.filterMap_nil, List.isEmpty_cons, conjAt_line, conjAt_line_unbounded, Option.map_some, Bool.or_self, Bool.false_eq_true, if_false]
  split_ifs
  case pos => rw [Option.map_some, Q.sub_neg]; rfl
  case neg => rfl

theorem pInf_line (hla : finite32 l.a = true) (hma : finite32 m.a = true) (tau : Word)
    (hfin : finite32 (rne32 (.ofQ (l.bq.sub (lineConj (f32 g.lo).toQ (f32 g.hi).toQ l.aq m)))).1 = true) :
    pInf ⟨0xFF800000, 0x7F800000, [l]⟩ g tau =
      (some ⟨0xFF800000, 0x7F800000, [⟨l.a, (rne32 (.ofQ (l.bq.sub (lineConj (f32 g.lo).toQ (f32 g.hi).toQ l.aq m)))).1, l.t⟩]⟩,
        (rne32 (.ofQ (l.bq.sub (lineConj (f32 g.lo).toQ (f32 g.hi).toQ l.aq m)))).2) := by
  have hlt : wordKey 0xFF800000 < wordKey 0x7F800000 := by decide
  rw [pInf_candidates hm hlo hhi hle]
  split
  next heq =>
    -- The second candidate is the first but for its tag.
    have hval : m.aq.val = l.aq.val := (Q.eq_iff m.aq_pos l.aq_pos).1 heq
    have hv : lineConj (f32 g.lo).toQ (f32 g.hi).toQ l.aq m = m.bq.neg := if_pos ((Q.eq_iff l.aq_pos m.aq_pos).2 hval.symm)
    have hone (b : Word) : envelope [⟨l.a, b, l.t⟩, ⟨m.a, b, m.t⟩] 0xFF800000 0x7F800000 = [⟨l.a, b, l.t⟩] :=
      envelope_parallel not_nanWord_negInf not_nanWord_posInf hlt hval le_rfl
    rw [hv, Q.sub_neg] at hfin ⊢
    rw [Q.add_comm_of_pos (a := m.bq) l.bq_pos, formResult_envelope not_nanWord_negInf not_nanWord_posInf hlt.le (Nat.le_of_ble_eq_true rfl)]
    simp only [List.map_cons, List.map_nil, Cand.line, candFlags_pair, coef_of_finite hfin, coef_f32 hla, coef_f32 hma, flags_zero_or, flags_or_zero,
      BitVec.or_self]
    rw [hone]
  next =>
    rw [formResult_singleton not_nanWord_negInf not_nanWord_posInf hlt.le, Cand.line, coef_of_finite hfin, coef_f32 hla, flags_zero_or]

/-- What that result is, by its number: the sum of the intercepts and what the difference of the slopes makes at an end of the domain. -/
theorem pInf_line_spec (hla : finite32 l.a = true) (hma : finite32 m.a = true) (tau : Word) : ∃ v : Q, 0 < v.den ∧
    v.val = l.bq.val + m.bq.val + (if l.aq.val < m.aq.val then (m.aq.val - l.aq.val) * (f32 g.lo).num else (m.aq.val - l.aq.val) * (f32 g.hi).num) ∧
    (finite32 (rne32 (.ofQ v)).1 = true →
      pInf ⟨0xFF800000, 0x7F800000, [l]⟩ g tau = (some ⟨0xFF800000, 0x7F800000, [⟨l.a, (rne32 (.ofQ v)).1, l.t⟩]⟩, (rne32 (.ofQ v)).2)) := by
  have hdlo := den_f32_pos g.lo
  have hdhi := den_f32_pos g.hi
  have hden := den_lineConj_pos m hdlo hdhi l.aq_pos
  refine ⟨_, Q.den_sub_pos l.bq_pos hden, ?_, pInf_line hm hlo hhi hle hla hma tau⟩
  rw [Q.val_sub l.bq_pos hden, val_lineConj m hdlo hdhi l.aq_pos, FVal.num, FVal.num]
  split_ifs <;> ring

end

/-! ### Conjugate (11 R207) -/

section
variable {f : Prof}

theorem pConj_void (h : f.isVoid = true) (tau : Word) : pConj f tau = (some Prof.empty, 0) := by rw [pConj, if_pos h]

theorem pSimp_void (h : f.isVoid = true) (tau : Word) : pSimp f tau = (some Prof.void, 0) := by rw [pSimp, if_pos h]

theorem pConj_empty (hv : f.isVoid = false) (hl : f.lines = []) (tau : Word) : pConj f tau = (some Prof.void, 0) := by
  rw [pConj, hv, hl]
  rfl

theorem coef_zero : coef (.fin false Q.zero) = (0, 0) := rfl

/-- A line on the whole axis: its conjugate is finite at its slope alone. -/
theorem pConj_line_unbounded {l : Line} (hv : f.isVoid = false) (hl : f.lines = [l]) (hlo : f.lo = 0xFF800000) (hhi : f.hi = 0x7F800000)
    (hfin : l.finite) (tau : Word) : pConj f tau = (some ⟨l.a, l.a, [⟨0, l.b ^^^ 0x80000000, l.t⟩]⟩, 0) := by
  have hn := not_nanWord_of_finite hfin.1
  have hc : coef (f32 l.b).neg = (l.b ^^^ 0x80000000, 0) := by
    rw [coef_of_finite, rne32_neg_f32 hfin.2]
    rw [rne32_neg_f32 hfin.2]
    exact finite32_xor_sign hfin.2
  calc pConj f tau
      = formResult [⟨.fin false Q.zero, (f32 l.b).neg, l.t⟩] (f32 l.a) (f32 l.a) tau := by
        rw [pConj, hv, hl, hlo, hhi, endOf_negInf, endOf_posInf]; rfl
    _ = _ := by rw [formResult_singleton hn hn le_rfl, Cand.line, coef_zero, hc, flags_or_zero]

theorem vertices_line (x y : Q) (l : Line) : vertices (some x) (some y) [l] =
    [⟨.ofQ x, .ofQ (l.eval x).neg, l.t ^^^ 0x8000⟩, ⟨.ofQ y, .ofQ (l.eval y).neg, l.t⟩] := rfl

/-- A line on a finite domain: a vertex at each end. -/
theorem pConj_line {l : Line} (hl : f.lines = [l]) (hlo : finite32 f.lo = true) (hhi : finite32 f.hi = true) (h : wordKey f.lo < wordKey f.hi)
    (hlo0 : f.lo ≠ 0x80000000) (hhi0 : f.hi ≠ 0x80000000) (tau : Word)
    (hu : finite32 (rne32 (.ofQ (l.eval (f32 f.lo).toQ).neg)).1 = true) (hw : finite32 (rne32 (.ofQ (l.eval (f32 f.hi).toQ).neg)).1 = true) :
    pConj f tau = (some ⟨0xFF800000, 0x7F800000, [⟨f.lo, (rne32 (.ofQ (l.eval (f32 f.lo).toQ).neg)).1, l.t ^^^ 0x8000⟩,
      ⟨f.hi, (rne32 (.ofQ (l.eval (f32 f.hi).toQ).neg)).1, l.t⟩]⟩,
      (rne32 (.ofQ (l.eval (f32 f.lo).toQ).neg)).2 ||| (rne32 (.ofQ (l.eval (f32 f.hi).toQ).neg)).2) := by
  have hv : f.isVoid = false := isVoid_eq_false (not_nanWord_of_finite hlo) (not_nanWord_of_finite hhi) h.le
  have hend {w : Word} (hf : finite32 w = true) (h0 : w ≠ 0x80000000) : coef (.ofQ (f32 w).toQ) = (w, 0) := by
    rw [coef_of_finite, rne32_ofQ_f32 hf h0]
    rw [rne32_ofQ_f32 hf h0]; exact hf
  have henv (b c : Word) : envelope [⟨f.lo, b, l.t ^^^ 0x8000⟩, ⟨f.hi, c, l.t⟩] 0xFF800000 0x7F800000 = [⟨f.lo, b, l.t ^^^ 0x8000⟩, ⟨f.hi, c, l.t⟩] := by
    refine envelope_crossing not_nanWord_negInf not_nanWord_posInf (by decide) ?_ ?_ ?_
    · show (f32 f.lo).num < (f32 f.hi).num
      rw [num_f32 hlo, num_f32 hhi]
      exact keyNum_strictMono h
    · rw [endOf_negInf]; exact fun _ h => nomatch h
    · rw [endOf_posInf]; exact fun _ h => nomatch h
  calc pConj f tau
      = formResult (vertices (some (f32 f.lo).toQ) (some (f32 f.hi).toQ) [l]) (.inf true) (.inf false) tau := by
        rw [pConj, hv, hl, endOf_of_finite hlo, endOf_of_finite hhi]; rfl
    _ = _ := by
      rw [vertices_line, ← f32_negInf, ← f32_posInf,
        formResult_envelope not_nanWord_negInf not_nanWord_posInf negInf_le_posInf (Nat.le_of_ble_eq_true rfl)]
      simp only [List.map_cons, List.map_nil, Cand.line, candFlags_pair, hend hlo hlo0, hend hhi hhi0, coef_of_finite hu, coef_of_finite hw, henv,
        flags_zero_or, flags_or_zero]

end

/-! ### Simplification (11 R210) -/

theorem pSimp_lines {f : Prof} {ls : List Line} (hf : f.Plain) (h : wordKey f.lo ≤ wordKey f.hi) (tau : Word) (hs : simplify f.lines f.lo f.hi tau = ls)
    (hls : ∀ l ∈ ls, l ∈ f.lines) (hn : ls.length ≤ 512) : pSimp f tau = (some ⟨f.lo, f.hi, envelope ls f.lo f.hi⟩, 0) := by
  rw [pSimp, isVoid_eq_false hf.lo hf.hi h, hs, if_neg Bool.false_ne_true, formResult_lines (fun l hl => hf.lines l (hls l hl)) hf.lo hf.hi h hn]

/-- The only line stays. -/
theorem simplify_singleton (l : Line) (lo hi tau : Word) : simplify [l] lo hi tau = [l] := rfl

theorem pSimp_singleton {f : Prof} {l : Line} (hf : f.Plain) (h : wordKey f.lo ≤ wordKey f.hi) (hl : f.lines = [l]) (tau : Word) :
    pSimp f tau = (some f, 0) := by
  rw [pSimp_lines hf h tau (ls := f.lines) (by rw [hl, simplify_singleton]) (fun _ h => h) (by rw [hl]; exact Nat.le_of_ble_eq_true rfl), hl,
    envelope_singleton hf.lo hf.hi h, ← hl]

/-- Of two lines the lower goes where at the left end it rises above the other by no more than the tolerance, else the upper by the same test at
the right end. -/
theorem simplify_pair {l m : Line} {lo hi tau : Word} (hlo : finite32 lo = true) (hhi : finite32 hi = true) (htau : finite32 tau = true) :
    simplify [l, m] lo hi tau =
      if l.at (f32 lo).num - m.at (f32 lo).num ≤ (f32 tau).num then [m]
      else if m.at (f32 hi).num - l.at (f32 hi).num ≤ (f32 tau).num then [l] else [l, m] := by
  have hrise (a b : Line) (w : Word) : (f32 tau).lt (.ofQ ((a.eval (f32 w).toQ).sub (b.eval (f32 w).toQ))) = true ↔
      ¬(a.at (f32 w).num - b.at (f32 w).num ≤ (f32 tau).num) := by
    have hw := den_f32_pos w
    have hd := Q.den_sub_pos (a.den_eval_pos hw) (b.den_eval_pos hw)
    have hval : (FVal.ofQ ((a.eval (f32 w).toQ).sub (b.eval (f32 w).toQ))).toQ.val = a.at (f32 w).num - b.at (f32 w).num := by
      rw [val_ofQ hd, Q.val_sub (a.den_eval_pos hw) (b.den_eval_pos hw), a.val_eval hw, b.val_eval hw]; rfl
    obtain ⟨s, q, hq⟩ := fin_of_finite32 htau
    rw [not_le, ← hval, FVal.num, ← Q.lt_iff (den_f32_pos tau) (by rw [den_ofQ]; exact hd), hq]
    rfl
  unfold simplify
  rw [endOf_of_finite hlo, endOf_of_finite hhi]
  simp only [simpPass, rise, List.head?_nil, List.head?_cons, Option.map_some, hrise]
  split_ifs <;> rfl

theorem pSimp_pair {f : Prof} {l m : Line} (hf : f.Plain) (hl : f.lines = [l, m]) (ha : l.aq.val < m.aq.val) (hlo : finite32 f.lo = true)
    (hhi : finite32 f.hi = true) (h : wordKey f.lo < wordKey f.hi) {tau : Word} (htau : finite32 tau = true) (h0 : 0 ≤ (f32 tau).num) :
    pSimp f tau = (some ⟨f.lo, f.hi, if l.at (f32 f.lo).num - m.at (f32 f.lo).num ≤ (f32 tau).num then [m]
      else if m.at (f32 f.hi).num - l.at (f32 f.hi).num ≤ (f32 tau).num then [l] else [l, m]⟩, 0) := by
  have hs := (congrArg (fun ls => simplify ls f.lo f.hi tau) hl).trans (simplify_pair hlo hhi htau)
  have hmem : ∀ k ∈ [l, m], k ∈ f.lines := fun k hk => by rw [hl]; exact hk
  split_ifs at hs ⊢ with hleft hright
  · rw [pSimp_lines hf h.le tau hs (fun k hk => hmem k (List.mem_cons_of_mem l hk)) (Nat.le_of_ble_eq_true rfl), envelope_singleton hf.lo hf.hi h.le]
  · rw [pSimp_lines hf h.le tau hs (fun k hk => hmem k (List.mem_singleton.1 hk ▸ List.mem_cons_self)) (Nat.le_of_ble_eq_true rfl),
      envelope_singleton hf.lo hf.hi h.le]
  · -- Each rises above the other by more than a tolerance that is not negative, so they cross inside.
    have hcl : (f32 f.lo).num < (cross l m).val := not_le.1 fun hc => hleft (by linarith [(at_le_iff_cross_le ha _).2 hc])
    have hcr : (cross l m).val < (f32 f.hi).num := not_le.1 fun hc => hright (by linarith [(at_ge_iff_le_cross ha _).2 hc])
    rw [pSimp_lines hf h.le tau hs hmem (Nat.le_of_ble_eq_true rfl), envelope_crossing hf.lo hf.hi h ha]
    · intro q hq
      obtain ⟨-, rfl⟩ := finite32_of_mem_endOf hq
      exact hcl
    · intro q hq
      obtain ⟨-, rfl⟩ := finite32_of_mem_endOf hq
      exact hcr

end Sys2Proof.Machine
end

