-- ==== Sys2Proof/Proofs/ProfileOperations.lean ====
section
/-! PROOF. O33: what is read from a profile (11 R208, R209), and the event in which the unit performs the head of its queue (11 R212). -/

namespace Sys2Proof.Machine

open Sys2Proof

/-! ### Reading a profile (11 R200, R208, R209) -/

section
variable {p : Prof} {w : Word} (hlo : ¬nanWord p.lo) (hhi : ¬nanWord p.hi)

theorem pEval_nan (h : nanWord w) : pEval p w = (0x7FC00000, 0) := if_pos (isNan_f32 h)

theorem pArg_nan (h : nanWord w) : pArg p w = 0xFFFF := if_pos (by rw [isNan_f32 h, Bool.true_or])

include hlo hhi in
theorem inDomain_iff (h : ¬nanWord w) : inDomain p (f32 w) = true ↔ wordKey p.lo ≤ wordKey p.hi ∧ wordKey p.lo ≤ wordKey w ∧ wordKey w ≤ wordKey p.hi := by
  have hv : (!p.isVoid) = true ↔ wordKey p.lo ≤ wordKey p.hi := by rw [Bool.not_eq_true', ← Bool.not_eq_true, isVoid_iff hlo hhi, not_lt]
  have hl : (!(f32 w).lt (f32 p.lo)) = true ↔ wordKey p.lo ≤ wordKey w := by rw [Bool.not_eq_true', ← Bool.not_eq_true, f32_lt_iff h hlo, not_lt]
  have hr : (!(f32 p.hi).lt (f32 w)) = true ↔ wordKey w ≤ wordKey p.hi := by rw [Bool.not_eq_true', ← Bool.not_eq_true, f32_lt_iff hhi h, not_lt]
  rw [inDomain, isNan_f32_eq_false h, Bool.not_false, Bool.and_true, Bool.and_eq_true, Bool.and_eq_true, hv, hl, hr, and_assoc]

theorem pEval_outside (hn : ¬nanWord w) (h : inDomain p (f32 w) = false) : pEval p w = (0x7F800000, 0) := by
  rw [pEval, isNan_f32_eq_false hn, h]
  rfl

theorem pArg_outside (h : inDomain p (f32 w) = false) : pArg p w = 0xFFFF := by
  rw [pArg, h, Bool.not_false, Bool.or_true]
  rfl

section
variable (hn : ¬nanWord w) (hin : inDomain p (f32 w) = true)
include hn hin

theorem pEval_none (h : lineAt p (f32 w) = none) : pEval p w = (0xFF800000, 0) := by
  rw [pEval, isNan_f32_eq_false hn, hin, h]
  rfl

theorem pArg_none (h : lineAt p (f32 w) = none) : pArg p w = 0xFFFF := by
  rw [pArg, isNan_f32_eq_false hn, hin, h]
  rfl

theorem pArg_some {l : Line} (h : lineAt p (f32 w) = some l) : pArg p w = l.t.setWidth 32 := by
  rw [pArg, isNan_f32_eq_false hn, hin, h]
  rfl

theorem pEval_inf {l : Line} (h : lineAt p (f32 w) = some l) {s : Bool} (hl : limitAt l (f32 w) = .inf s) :
    pEval p w = (if s then 0xFF800000 else 0x7F800000, 0) := by
  simp [pEval, isNan_f32_eq_false hn, hin, h, hl]

theorem pEval_fin {l : Line} (h : lineAt p (f32 w) = some l) {s : Bool} {m : Q} (hl : limitAt l (f32 w) = .fin s m) :
    pEval p w = rne32 (.fin s m) := by
  simp [pEval, isNan_f32_eq_false hn, hin, h, hl]

end

theorem lineAt_nil (h : p.lines = []) (x : FVal) : lineAt p x = none := by
  unfold lineAt
  rw [h]
  split
  · split <;> rfl
  · rfl

/-- At a number the line that is read is the greatest, of equal ones that of the largest slope. -/
theorem lineAt_finite (h : finite32 w = true) (hne : p.lines ≠ []) : ∃ k, lineAt p (f32 w) = some k ∧ IsTop p.lines (f32 w).num k := by
  obtain ⟨k, hk, htop⟩ := topAt_isTop h hne
  refine ⟨k, ?_, htop⟩
  obtain ⟨s, m, hm⟩ := fin_of_finite32 h
  rw [hm] at hk ⊢
  exact hk

theorem pEval_finite (h : finite32 w = true) (hin : inDomain p (f32 w) = true) {k : Line} (hk : lineAt p (f32 w) = some k) :
    pEval p w = rne32 (.ofQ (k.eval (f32 w).toQ)) :=
  pEval_fin (not_nanWord_of_finite h) hin hk (limitAt_of_finite h k)

/-- The limit of a line at an infinity. -/
theorem limitAt_inf (l : Line) (s : Bool) : limitAt l (.inf s) = if l.aq.val = 0 then f32 l.b else .inf (s != decide (l.aq.val < 0)) := by
  have hneg : l.aq.isNeg = decide (l.aq.val < 0) := by rw [Bool.eq_iff_iff, Q.isNeg_iff l.aq_pos, decide_eq_true_iff]
  simp only [limitAt, Q.isZero_iff l.aq_pos, hneg]

/-- What is read at an infinity, where k is the line of the extreme slope there. -/
theorem pEval_infinite {s : Bool} (hn : ¬nanWord w) (hw : f32 w = .inf s) (hin : inDomain p (f32 w) = true) {k : Line} (hk : lineAt p (f32 w) = some k)
    (hb : finite32 k.b = true) :
    pEval p w = (if k.aq.val = 0 then k.b else if (s != decide (k.aq.val < 0)) = true then 0xFF800000 else 0x7F800000, 0) := by
  have hlim := limitAt_inf k s
  rw [← hw] at hlim
  split_ifs at hlim ⊢ with h0 hs
  · obtain ⟨t, m, hm⟩ := fin_of_finite32 hb
    rw [pEval_fin hn hin hk (hlim.trans hm), ← hm, rne32_f32 hb]
  · rw [pEval_inf hn hin hk hlim, if_pos hs]
  · rw [pEval_inf hn hin hk hlim, if_neg hs]

theorem lineAt_posInf : lineAt p (f32 0x7F800000) = p.lines.getLast? := by rw [f32_posInf]; rfl

theorem lineAt_negInf : lineAt p (f32 0xFF800000) = p.lines.head? := by rw [f32_negInf]; rfl

theorem pEval_posInf (hin : inDomain p (f32 0x7F800000) = true) {k : Line} (hk : p.lines.getLast? = some k) (hb : finite32 k.b = true) :
    pEval p 0x7F800000 = (if k.aq.val = 0 then k.b else if k.aq.val < 0 then 0xFF800000 else 0x7F800000, 0) := by
  rw [pEval_infinite not_nanWord_posInf f32_posInf hin (lineAt_posInf.trans hk) hb]
  simp only [bne_iff_ne, ne_eq, Bool.false_eq, decide_eq_false_iff_not, not_not]

theorem pEval_negInf (hin : inDomain p (f32 0xFF800000) = true) {k : Line} (hk : p.lines.head? = some k) (hb : finite32 k.b = true) :
    pEval p 0xFF800000 = (if k.aq.val = 0 then k.b else if k.aq.val < 0 then 0x7F800000 else 0xFF800000, 0) := by
  rw [pEval_infinite not_nanWord_negInf f32_negInf hin (lineAt_negInf.trans hk) hb]
  simp only [bne_iff_ne, ne_eq, Bool.true_eq, decide_eq_true_iff, ite_not]

/-! The words of pget -/

variable {i : Nat}

theorem pGet_last {k : Line} (h : p.lines[i]? = some k) (hi : p.lines[i + 1]? = none) : pGet p i = (k.a, k.b, k.t.setWidth 32, p.hi) := by
  rw [pGet, if_neg (List.getElem?_eq_some_iff.1 h).1.ne, h, hi]

theorem pGet_inner {k m : Line} (h : p.lines[i]? = some k) (hi : p.lines[i + 1]? = some m) :
    pGet p i = (k.a, k.b, k.t.setWidth 32, (rne32 (.ofQ (cross k m))).1) := by
  rw [pGet, if_neg (List.getElem?_eq_some_iff.1 h).1.ne, h, hi]

theorem pGet_domain (h : i = p.lines.length) : pGet p i = (p.lo, p.hi, 0xFFFFFFFE, BitVec.ofNat 32 p.lines.length) := if_pos h

theorem pGet_beyond (h : p.lines.length < i) : pGet p i = (0, 0, 0xFFFFFFFF, 0) := by
  rw [pGet, if_neg h.ne', List.getElem?_eq_none h.le]

end

/-- Where a group's one result on its way is one of a vector register it is written there when its values come. -/
theorem Group.deliver_single {g : Group} {k h : Nat} {m : LaneMask} {vals : Cells 32} (hd : ∀ r, g.deferred r = false) (hb : g.badV = [])
    (hpend : g.pend = [⟨.v k, m, vals, h, true, 0, 0, false, false⟩]) (f : RegRef → Cells 32 → Cells 32) :
    g.deliver h f = { g with pend := [], v := (lanesOf m).foldl (fun v l => v.set (96 * k + l) ((f (.v k) vals).get l)) g.v } := by
  have hd' : Group.deferred { g with pend := [] } k = false := hd k
  have hfree : (if (false || m = 0) then ({ g with pend := [] } : Group) else Group.freeTag { g with pend := [] } k) = { g with pend := [] } := by
    rw [freeTag, hd', if_neg Bool.false_ne_true, ite_self]
  have hfold : g.deliver h f = Group.apply { g with pend := [] } ⟨.v k, m, f (.v k) vals, h, true, 0, 0, true, false⟩ := by
    rw [deliver, hpend, List.map_singleton, beq_self_eq_true, if_pos rfl]
    rfl
  rw [hfold, apply]
  simp only
  rw [hfree, putLanes_plain (g := { g with pend := [] }) hb hd']

/-- The lanes of a row of values given lane by lane. -/
theorem get_foldl_row {m : LaneMask} (f : Nat → Word) {l : Nat} (hl : l < 96) (hm : m.getLsbD l = true) :
    Cells.get ((lanesOf m).foldl (fun c l => Cells.set c l (f l)) []) l = f l := by
  have h := Group.get_foldl_lanes (lanesOf m) 0 f [] rfl l (Group.mem_lanesOf.2 ⟨hl, hm⟩)
  simpa only [Nat.mul_zero, Nat.zero_add] using h

namespace State

variable {s u : State} {t i c h : Nat} {g g' : Group} {x : Team} {o : Op} {p : ProfOp} {tau : Word}

/-! ### What follows a profile operation -/

/-- The operation of a group that runs on and does not wait leaves its counter after its effect on the group. -/
theorem mapGroup_leaveCounter (hg : s.group t i = some g) {f : Group → Group} (he : (f g).ended = false) (hw : (f g).wait = none) (h : Nat) :
    (s.mapGroup t i f).leaveCounter t i h = s.putGroup t i ((f g).opDone h) := by
  have hwake : wakeYield ((f g).opDone h) = (f g).opDone h := by
    have hw' : ((f g).opDone h).wait = none := hw
    rw [wakeYield, hw']
  rw [mapGroup_some s hg, leaveCounter, mapGroup_some _ (group_putGroup ..), he, if_neg Bool.false_ne_true, hwake, putGroup_putGroup]

/-- Where a group of the team runs on, what follows a change of it leaves it, the team and the cores as they are. -/
theorem settleTeam_putGroup (hw : Tab.wf u.groups = true) (hx : u.team t = some x) (hk : x.killing = false) (ha : x.asms = []) (hi : i < 64)
    (he : g.ended = false) (hwait : g.wait = none) :
    ((u.putGroup t i g).settleTeam t).team t = some x ∧ ((u.putGroup t i g).settleTeam t).group t i = some g ∧
      ((u.putGroup t i g).settleTeam t).cores = u.cores := by
  have hw' : Tab.wf (u.putGroup t i g).groups = true := Tab.set_wf hw _ _
  have hg : (u.putGroup t i g).group t i = some g := group_putGroup ..
  obtain ⟨hteam, hgroups⟩ := settleTeam_running hw' (x := x) hx hk ha hi hg he hwait
  refine ⟨hteam, hgroups t i g hg hwait, ?_⟩
  have hb := barrierCheck_sameButGroups (u.putGroup t i g) x.grid
  have hbh := mem_groupsOf_of_group hi (barrierCheck_awake hw' hg hwait x.grid)
  obtain ⟨l, hr⟩ := retireCheck_running (t := t) (x := x) (by rw [hb]; exact hx) hk hbh he
  have hrh : g ∈ (((u.putGroup t i g).barrierCheck x.grid).retireCheck t).groupsOf t := by rw [hr]; exact hbh
  rw [settleTeam, tidyTeam_whole (s := u.putGroup t i g) (x := x) hx ha, checkDeadlock_running hrh he hwait, hr, hb]
  rfl

/-! ### An operation is performed -/

/-- With no codeword of its profiles uncorrectable a team's profile is written and nothing else of the team. -/
theorem putProf_sound (hx : s.team t = some x) (hb : x.badP = []) (d : Nat) (q : Prof) :
    (s.putProf t d q).team t = some { x with profs := x.profs.set d q } ∧ (s.putProf t d q).groups = s.groups ∧ (s.putProf t d q).cores = s.cores := by
  have hx' : ({ x with badP := [], profs := x.profs.set d q } : Team) = { x with profs := x.profs.set d q } := by rw [← hb]
  unfold putProf
  simp only [mapTeam_some s hx, hb, List.filter_nil, List.map_nil, List.foldl_nil, hx']
  rw [dropErrs_eq]
  exact ⟨team_putTeam .., rfl, rfl⟩

theorem noteProfs_sound (hx : s.team t = some x) (hb : x.badP = []) (i core : Nat) (es : List Nat) : s.noteProfs t i core es = s := by
  rw [noteProfs, hx, Option.bind_some, hb, List.find?_nil]

/-- The profile registers of a team as the unit reads them. -/
def profOf (x : Team) (e : Nat) : Prof := (x.profs.get e).getD Prof.empty

theorem profOf_team (hx : s.team t = some x) : (fun e => ((s.team t).bind fun x => x.profs.get e).getD Prof.empty) = profOf x := by rw [hx]; rfl

section
variable (hx : s.team o.tid = some x) (hg : s.group o.tid o.idx = some g) (he : g.ended = false) (hw : g.wait = none)
include hx hg he hw

/-- A result is written, its flags are set, and the operation leaves. -/
theorem profPerform_result (hb : x.badP = []) {d : Nat} {q : Prof} {fl : AFlags} (hr : profResult (profOf x) tau p = some (d, some q, fl)) (h : Nat) :
    ∃ u : State, s.profPerform h o p tau false = u.putGroup o.tid o.idx ((g.setFlags fl).opDone h) ∧
      u.team o.tid = some { x with profs := x.profs.set d q } ∧ u.groups = s.groups ∧ u.cores = s.cores := by
  obtain ⟨hteam, hgroups, hcores⟩ := putProf_sound (s := { s with ops := s.ops.del h }) hx hb d q
  have hg' : (({ s with ops := s.ops.del h } : State).putProf o.tid d q).group o.tid o.idx = some g := by rw [group, hgroups]; exact hg
  unfold profPerform
  simp only [profOf_team hx, hr, Bool.false_eq_true, if_false]
  exact ⟨_, mapGroup_leaveCounter (f := fun g => g.setFlags fl) hg' he hw h, hteam, hgroups, hcores⟩

/-- A result of too many lines changes no profile register and sets its sticky bit. -/
theorem profPerform_overflow {d : Nat} {fl : AFlags} (hr : profResult (profOf x) tau p = some (d, none, fl)) (h : Nat) :
    ∃ u : State, s.profPerform h o p tau false = u.putGroup o.tid o.idx (((g.setFlags fl).setSticky .profile).opDone h) ∧
      u.team o.tid = some x ∧ u.groups = s.groups ∧ u.cores = s.cores := by
  unfold profPerform
  simp only [profOf_team hx, hr, Bool.false_and, Bool.false_eq_true, if_false]
  exact ⟨_, mapGroup_leaveCounter (s := { s with ops := s.ops.del h }) (f := fun g => (g.setFlags fl).setSticky .profile) hg he hw h, hx, rfl, rfl⟩

/-- The answers of peval and parg reach the lanes of their register. -/
theorem profPerform_query {e k : Nat} {xs vals : Cells 32} {m : LaneMask} (hp : p = .eval e xs m ∨ p = .arg e xs m) (hv : g.v.wf = true)
    (hd : ∀ r, g.deferred r = false) (hb : g.badV = []) (hpend : g.pend = [⟨.v k, m, vals, h, true, 0, 0, false, false⟩]) :
    ∃ (u : State) (g' : Group), s.profPerform h o p tau false = u.putGroup o.tid o.idx g' ∧ u.team o.tid = some x ∧ u.groups = s.groups ∧
      u.cores = s.cores ∧ g'.ended = false ∧ g'.wait = none ∧ g'.pend = [] ∧
      ∀ q l, l < 96 → g'.v.get (96 * q + l) = if q = k ∧ m.getLsbD l = true then (profQuery (profOf x) p 0 l).1 else g.v.get (96 * q + l) := by
  have hquery : ∃ (fl : AFlags) (f : RegRef → Cells 32 → Cells 32), 
      f (.v k) vals = (lanesOf m).foldl (fun c l => Cells.set c l (profQuery (profOf x) p 0 l).1) [] ∧
      s.profPerform h o p tau false =
        (({ s with ops := s.ops.del h } : State).mapGroup o.tid o.idx fun g => (g.deliver h f).setFlags fl).leaveCounter o.tid o.idx h := by
    rcases hp with rfl | rfl
    all_goals
      unfold profPerform
      simp only [profOf_team hx, profResult, Nat.sub_self]
      exact ⟨_, _, rfl, rfl⟩
  obtain ⟨fl, f, hf, hperf⟩ := hquery
  have hdel := Group.deliver_single hd hb hpend f
  have hended : (g.deliver h f).ended = false := by rw [hdel]; exact he
  have hwait : (g.deliver h f).wait = none := by rw [hdel]; exact hw
  have hpend' : (g.deliver h f).pend = [] := by rw [hdel]
  refine ⟨_, _, hperf.trans (mapGroup_leaveCounter (s := { s with ops := s.ops.del h }) (f := fun g => (g.deliver h f).setFlags fl) hg hended hwait h),
    hx, rfl, rfl, hended, hwait, hpend', fun q l hl => ?_⟩
  show (g.deliver h f).v.get (96 * q + l) = _
  rw [hdel]
  simp only
  rw [Group.get_foldl_lanesOf hv k m (fun l => (f (.v k) vals).get l) q hl, hf]
  split_ifs with hq
  · rw [get_foldl_row _ hl hq.2]
  · rfl

end

/-! ### PROFILE_OPERATION_COMPLETE (11 R212) -/

/-- The head of a core's queue of profile operations has been taken. -/
def dequeue (s : State) (c : Nat) (r : List Nat) : State := s.mapCore c fun k => { k with prq := r }

theorem dequeue_prq (s : State) (c : Nat) (r : List Nat) : ((s.dequeue c r).core c).prq = r := congrArg Core.prq (mapCore_core ..)

theorem exec_profileOperationComplete {r : List Nat} (hq : (s.core c).prq = h :: r) (ho : s.ops.get h = some o) (hk : o.kind = .prof p tau false)
    (hx : s.team o.tid = some x) (hb : x.badP = []) :
    exec (.profileOperationComplete c) s = .next (((s.dequeue c r).profPerform h o p tau false).settleTeam o.tid) := by
  have hnote := noteProfs_sound (s := s.dequeue c r) hx hb o.idx o.core (profReads p)
  have hdq : (s.mapCore c fun k => { k with prq := r }) = s.dequeue c r := rfl
  have ho' : (s.dequeue c r).ops.get h = some o := ho
  show execProfileOperationComplete c s = _
  unfold execProfileOperationComplete
  simp only [hq, hdq, ho', hk, hnote]

/-- Once the operation has been performed with a group and a team that run on, they stand so after the event. -/
theorem profile_event {r : List Nat} {x' : Team} (hq : (s.core c).prq = h :: r) (ho : s.ops.get h = some o) (hk : o.kind = .prof p tau false)
    (hx : s.team o.tid = some x) (hb : x.badP = []) (hw : Tab.wf s.groups = true) (hi : o.idx < 64)
    (hperf : (s.dequeue c r).profPerform h o p tau false = u.putGroup o.tid o.idx g') (hx' : u.team o.tid = some x') (hgroups : u.groups = s.groups)
    (hcores : u.cores = (s.dequeue c r).cores) (hkill : x'.killing = false) (hasm : x'.asms = []) (hend : g'.ended = false) (hwait : g'.wait = none) :
    ∃ s', exec (.profileOperationComplete c) s = .next s' ∧ (s'.core c).prq = r ∧ s'.team o.tid = some x' ∧ s'.group o.tid o.idx = some g' := by
  obtain ⟨hteam, hgroup, hcore⟩ := settleTeam_putGroup (by rw [hgroups]; exact hw) hx' hkill hasm hi hend hwait
  refine ⟨_, (exec_profileOperationComplete hq ho hk hx hb).trans (congrArg (fun v : State => Host.Outcome.next (v.settleTeam o.tid)) hperf), ?_, hteam, hgroup⟩
  rw [core, hcore, hcores]
  exact dequeue_prq s c r

end State

/-! ### The results and the answers, operation by operation (11 R203, R208, R209) -/

section
variable (ps : Nat → Prof) (tau : Word) (d a b : Nat)

theorem profResult_ins (e : Nat) (ls : List Line) (bad : Bool) : profResult ps tau (.ins e ls bad) = some (e, pIns (ps e) ls bad tau) := rfl
theorem profResult_max : profResult ps tau (.max d a b) = some (d, pMax (ps a) (ps b) tau) := rfl
theorem profResult_add (tm : Nat) : profResult ps tau (.add d a b tm) = some (d, pAdd tm (ps a) (ps b) tau) := rfl
theorem profResult_inf : profResult ps tau (.inf d a b) = some (d, pInf (ps a) (ps b) tau) := rfl
theorem profResult_conj : profResult ps tau (.conj d a) = some (d, pConj (ps a) tau) := rfl
theorem profResult_simp : profResult ps tau (.simp d a) = some (d, pSimp (ps a) tau) := rfl

theorem profQuery_get (e l : Nat) (imm : Word) (m : LaneMask) {w0 w1 w2 w3 : Word} (h : pGet (ps e) (imm.toNat + l) = (w0, w1, w2, w3)) :
    (profQuery ps (.get d e imm m) 0 l).1 = w0 ∧ (profQuery ps (.get d e imm m) 1 l).1 = w1 ∧ (profQuery ps (.get d e imm m) 2 l).1 = w2 ∧
      (profQuery ps (.get d e imm m) 3 l).1 = w3 := by
  simp only [profQuery, h, and_self]

end

open State

/-- Settles O33: the event by what it writes; the results and the answers operation by operation. -/
theorem profileOperationIsPerformed : Obligations.ProfileOperationIsPerformed := by
  unfold Obligations.ProfileOperationIsPerformed
  refine ⟨?performed, ?results, ?answers⟩
  case performed =>
    rintro s _ _ c h g x o r p tau hq ho hk rfl rfl hg hx hw hi hkill hasm hb hend hwait
    have event {u : State} {g' : Group} {x' : Team} := profile_event (u := u) (g' := g') (x' := x') hq ho hk hx hb hw hi
    refine ⟨fun d q fl _ hr => ?_, fun d fl _ hr => ?_, fun e xs m k vals hp hv hd hbv hpend => ?_⟩
    · obtain ⟨u, hperf, hx', hgroups, hcores⟩ := profPerform_result (s := s.dequeue c r) hx hg hend hwait hb hr h
      obtain ⟨s', hexec, hprq, hteam, hgroup⟩ := event hperf hx' hgroups hcores hkill hasm hend hwait
      refine ⟨s', _, _, hexec, hprq, hteam, Tab.get_set_same .., fun e he => Tab.get_set_ne _ he _, hgroup, rfl, rfl, ?_⟩
      rintro e lo hi rfl
      have hclr : some (e, some ⟨lo, hi, []⟩, 0) = some (d, some q, fl) := hr
      cases hclr
      exact ⟨rfl, rfl⟩
    · obtain ⟨u, hperf, hx', hgroups, hcores⟩ := profPerform_overflow (s := s.dequeue c r) hx hg hend hwait hr h
      obtain ⟨s', hexec, -, hteam, hgroup⟩ := event hperf hx' hgroups hcores hkill hasm hend hwait
      exact ⟨s', _, hexec, ⟨x, hteam, rfl⟩, hgroup, rfl, rfl⟩
    · obtain ⟨u, g', hperf, hx', hgroups, hcores, hend', hwait', hpend', hval⟩ :=
        profPerform_query (s := s.dequeue c r) hx hg hend hwait hp hv hd hbv hpend
      obtain ⟨s', hexec, -, -, hgroup⟩ := event hperf hx' hgroups hcores hkill hasm hend' hwait'
      exact ⟨s', g', hexec, hgroup, hpend', hval⟩
  case results =>
    intro ps tau d a b f g plain num reaches lo hi
    have hplain {p : Prof} (h : plain p) : p.Plain := ⟨h.1, h.2.1, h.2.2.1, h.2.2.2.1, h.2.2.2.2⟩
    rw [profResult_max, profResult_conj, profResult_simp, profResult_inf]
    refine ⟨fun hf hg => ?_, fun hv hlo hhi => ?_, fun hf hle => ?_⟩
    · have pf := hplain hf
      have pg := hplain hg
      have hlo : lower f g = lo := lower_eq pf.lo pg.lo
      have hhi : upper f g = hi := upper_eq pf.hi pg.hi
      rw [← hlo, ← hhi]
      refine ⟨fun h => ?_, fun h hn => ?_, fun ls bad hls h hn => ?_, fun l m tm hl hm h => ?_, fun l m hl hm hflo hfhi h => ?_⟩
      · rw [pMax_void pf pg h]; rfl
      · obtain ⟨p, hp, hplo, hphi, hreach⟩ := pMax_reaches pf pg h hn tau
        exact ⟨p, by rw [hp], hplo, hphi, hreach⟩
      · obtain ⟨p, hp, hplo, hphi, hreach⟩ := pIns_reaches pf hls h hn bad tau
        exact ⟨p, by rw [profResult_ins, hp], hplo, hphi, hreach⟩
      · intro ra rb ha hb
        rw [profResult_add, pAdd_lines pf pg hl hm h tm tau ha hb, sumTag_eq]
      · have hla : finite32 l.a = true := (pf.lines l (by rw [hl]; exact List.mem_singleton_self l)).1
        have hma : finite32 m.a = true := (pg.lines m (by rw [hm]; exact List.mem_singleton_self m)).1
        obtain ⟨v, hden, hval, hres⟩ := pInf_line_spec hm hflo hfhi h hla hma tau
        refine ⟨v, hden, hval, fun hfin => ?_⟩
        show some (d, pInf f g tau) = _
        rw [hl, hres hfin]
    · have hvoid : f.isVoid = true := (isVoid_iff hlo hhi).2 hv
      exact ⟨by rw [pConj_void hvoid]; rfl, by rw [pSimp_void hvoid]; rfl⟩
    · have pf := hplain hf
      have hv : f.isVoid = false := isVoid_eq_false pf.lo pf.hi hle
      refine ⟨fun hl => ?_, fun l hl hlo hhi => ?_, fun l hl hlo hhi h hlo0 hhi0 => ?_, fun l hl => ?_, fun l m hl ha hlo hhi h htau h0 => ?_⟩
      · rw [pConj_empty hv hl]; rfl
      · rw [pConj_line_unbounded hv hl hlo hhi (pf.lines l (by rw [hl]; exact List.mem_singleton_self l))]
      · have hval (w : Word) : (l.eval (f32 w).toQ).neg.val = -l.at (num w) := by rw [Q.val_neg, l.val_eval (den_f32_pos w)]; rfl
        refine ⟨(l.eval (f32 f.lo).toQ).neg, (l.eval (f32 f.hi).toQ).neg, l.den_eval_pos (den_f32_pos f.lo), l.den_eval_pos (den_f32_pos f.hi),
          hval f.lo, hval f.hi, fun hu hw => ?_⟩
        rw [pConj_line hl hlo hhi h hlo0 hhi0 tau hu hw]
      · rw [pSimp_singleton pf hle hl]
      · rw [pSimp_pair pf hl ha hlo hhi h htau h0]
  case answers =>
    intro ps e l xs m f w ev tg num hfin hlo hhi
    have hin (hn : ¬nanWord w) := inDomain_iff hlo hhi hn
    have hev : ev = pEval f w := rfl
    have htg : tg = (pArg f w, 0) := rfl
    rw [hev, htg]
    refine ⟨fun hn => ⟨pEval_nan hn, by rw [pArg_nan hn]⟩, fun hn hout => ?_, fun hn hl hr => ?_, fun d imm => ?_⟩
    · have hnot : inDomain f (f32 w) = false := Bool.eq_false_iff.2 fun h => by
        obtain ⟨-, hl, hr⟩ := (hin hn).1 h
        omega
      exact ⟨pEval_outside hn hnot, by rw [pArg_outside hnot]⟩
    · have hd : inDomain f (f32 w) = true := (hin hn).2 ⟨hl.trans hr, hl, hr⟩
      refine ⟨fun hnil => ?_, fun hne hfw => ?_, fun k hw hk => ?_, fun k hw hk => ?_⟩
      · exact ⟨pEval_none hn hd (lineAt_nil hnil _), by rw [pArg_none hn hd (lineAt_nil hnil _)]⟩
      · obtain ⟨k, hk, hmem, htop⟩ := lineAt_finite hfw hne
        refine ⟨k, hmem, k.eval (f32 w).toQ, k.den_eval_pos (den_f32_pos w), k.val_eval (den_f32_pos w), pEval_finite hfw hd hk, ?_, htop⟩
        rw [pArg_some hn hd hk]
      · rw [hw] at hn hd ⊢
        exact ⟨pEval_posInf hd hk (hfin k (List.mem_of_getLast? hk)).2, by rw [pArg_some hn hd (lineAt_posInf.trans hk)]⟩
      · rw [hw] at hn hd ⊢
        exact ⟨pEval_negInf hd hk (hfin k (List.mem_of_head? hk)).2, by rw [pArg_some hn hd (lineAt_negInf.trans hk)]⟩
    · intro i n got
      have hgot {w0 w1 w2 w3 : Word} (h : pGet f i = (w0, w1, w2, w3)) : got 0 = w0 ∧ got 1 = w1 ∧ got 2 = w2 ∧ got 3 = w3 :=
        profQuery_get ps d e l imm m h
      refine ⟨fun k hk => ?_, fun hi => hgot (pGet_domain hi), fun hi => hgot (pGet_beyond hi)⟩
      cases hnext : f.lines[i + 1]? with
      | none =>
        obtain ⟨h0, h1, h2, h3⟩ := hgot (pGet_last hk hnext)
        exact ⟨h0, h1, h2, fun _ => h3, fun k' hk' => nomatch hk'⟩
      | some m =>
        obtain ⟨h0, h1, h2, h3⟩ := hgot (pGet_inner hk hnext)
        refine ⟨h0, h1, h2, fun hi => absurd (List.getElem?_eq_some_iff.1 hnext).1 hi.not_lt, fun k' hk' hlt => ?_⟩
        obtain rfl := Option.some.inj hk'
        exact ⟨cross k m, den_cross_pos k m, by rw [val_cross]; exact div_mul_cancel₀ _ (sub_pos.2 hlt).ne', h3⟩

end Sys2Proof.Machine
end

