-- ==== Sys2Proof/Proofs/WordFields.lean ====
section
/-! PROOF. The fields of an encoded word (12 R214, R216): each format's accessors read back what its encoder put there, and so do the parts of a
field that an entry divides further. A word is a chain of appended fields: a part lies in the lowest of them or above it. -/

namespace Sys2Proof

open BitVec

/-- A bit as a part of one bit, so that bits and wider parts are read by the same rules. -/
theorem getLsbD_eq_part {n : Nat} (x : BitVec n) (k : Nat) : x.getLsbD k = (x.extractLsb' k 1 == 1#1) := by
  rw [Bool.eq_iff_iff, beq_iff_eq]
  constructor
  · intro h
    ext m hm
    obtain rfl : m = 0 := by omega
    simpa using h
  · intro h
    simpa using congrArg (·.getLsbD 0) h

theorem fBit_eq_part (w : Word) (n : Nat) : fBit w n = (w.extractLsb' n 1 == 1#1) := getLsbD_eq_part w n

theorem ofBool_eq_one_beq (x : BitVec 1) : ofBool (x == 1#1) = x := by
  obtain rfl | rfl := BitVec.eq_zero_or_eq_one x <;> rfl

theorem ofBool_beq_one (b : Bool) : (ofBool b == 1#1) = b := by cases b <;> rfl

/-! ### The formats -/

section

variable (op : BitVec 7) (d a b : SReg) (l : BitVec 4) (i : BitVec 11) (j : BitVec 25) (s1 s2 : ShReg) (bsl m : BitVec 5)

@[simp] theorem fOp_encS3 : fOp (encS3 op d a b l) = op := by
  simp (disch := decide) only [fOp, encS3, extractLsb'_append_eq_of_le, Nat.reduceSub, extractLsb'_eq_self]

@[simp] theorem fB_encS3 : fB (encS3 op d a b l) = b := by
  simp (disch := decide) only [fB, encS3, extractLsb'_append_eq_of_le, extractLsb'_append_eq_of_add_le, Nat.reduceSub, extractLsb'_eq_self]

@[simp] theorem fields_encS3 : fD (encS3 op d a b l) = d ∧ fA (encS3 op d a b l) = a ∧ fL (encS3 op d a b l) = l := by
  simp (disch := decide) only [fD, fA, fL, encS3, extractLsb'_append_eq_of_le, extractLsb'_append_eq_of_add_le, Nat.reduceSub,
    extractLsb'_eq_self, true_and]

@[simp] theorem fOp_encSI : fOp (encSI op d a i) = op := by
  simp (disch := decide) only [fOp, encSI, extractLsb'_append_eq_of_le, Nat.reduceSub, extractLsb'_eq_self]

@[simp] theorem fields_encSI : fD (encSI op d a i) = d ∧ fA (encSI op d a i) = a ∧ fI (encSI op d a i) = i := by
  simp (disch := decide) only [fD, fA, fI, encSI, extractLsb'_append_eq_of_le, extractLsb'_append_eq_of_add_le, Nat.reduceSub,
    extractLsb'_eq_self, true_and]

@[simp] theorem fOp_encSJ : fOp (encSJ op j) = op := by
  simp (disch := decide) only [fOp, encSJ, extractLsb'_append_eq_of_le, Nat.reduceSub, extractLsb'_eq_self]

@[simp] theorem fJ_encSJ : fJ (encSJ op j) = j := by
  simp (disch := decide) only [fJ, encSJ, extractLsb'_append_eq_of_add_le, extractLsb'_eq_self]

@[simp] theorem fOp_encSE : fOp (encSE op s1 s2 a bsl m) = op := by
  simp (disch := decide) only [fOp, encSE, extractLsb'_append_eq_of_le, Nat.reduceSub, extractLsb'_eq_self]

@[simp] theorem fields_encSE : fS1 (encSE op s1 s2 a bsl m) = s1 ∧ fS2 (encSE op s1 s2 a bsl m) = s2 ∧
    fSA (encSE op s1 s2 a bsl m) = a ∧ fBsl (encSE op s1 s2 a bsl m) = bsl ∧ fMod (encSE op s1 s2 a bsl m) = m := by
  simp (disch := decide) only [fS1, fS2, fSA, fBsl, fMod, encSE, extractLsb'_append_eq_of_le, extractLsb'_append_eq_of_add_le, Nat.reduceSub,
    extractLsb'_eq_self, true_and]

@[simp] theorem fields_encPfx (h : BitVec 21) : fOp (encPfx h) = 0x7F ∧ (encPfx h).extractLsb' 21 4 = 0 ∧ (encPfx h).extractLsb' 0 21 = h := by
  simp (disch := decide) only [fOp, encPfx, extractLsb'_append_eq_of_le, extractLsb'_append_eq_of_add_le, Nat.reduceSub, extractLsb'_eq_self]
  trivial

@[simp] theorem fOp_encMxa (acc z pair sp sel : Bool) (sha : ShReg) (pc vbq : BitVec 4) (x : BitVec 8) :
    fOp (encMxa acc z pair sp sel sha pc vbq x) = 0x68#7 := by
  simp (disch := decide) only [fOp, encMxa, extractLsb'_append_eq_of_le, Nat.reduceSub, extractLsb'_eq_self]

@[simp] theorem fields_encMxa (acc z pair sp sel : Bool) (sha : ShReg) (pc vbq : BitVec 4) (x : BitVec 8) :
    let w := encMxa acc z pair sp sel sha pc vbq x
    fBit w 24 = acc ∧ fBit w 23 = z ∧ fBit w 22 = pair ∧ fBit w 21 = sp ∧ fBit w 20 = sel ∧ w.extractLsb' 16 4 = sha ∧
      w.extractLsb' 12 4 = pc ∧ w.extractLsb' 8 4 = vbq ∧ w.extractLsb' 0 8 = x := by
  simp (disch := decide) only [fBit_eq_part, encMxa, extractLsb'_append_eq_of_le, extractLsb'_append_eq_of_add_le, Nat.reduceSub,
    extractLsb'_eq_self, ofBool_beq_one, true_and]

/-! ### Parts of a field -/

/-- launch: the space in sb. -/
@[simp] theorem space_encS3 (ax : Bool) : fBit (encS3 op d a (0#6 ++ ofBool ax) l) 4 = ax := by
  simp (disch := decide) only [fBit_eq_part, encS3, extractLsb'_append_eq_of_le, extractLsb'_append_eq_of_add_le, Nat.reduceSub,
    extractLsb'_eq_self, ofBool_beq_one]

/-- aclose: the space in sd. -/
@[simp] theorem closed_encS3 (p : BitVec 2) : (encS3 op (0#5 ++ p) a b l).extractLsb' 18 2 = p := by
  simp (disch := decide) only [encS3, extractLsb'_append_eq_of_le, extractLsb'_append_eq_of_add_le, Nat.reduceSub, extractLsb'_eq_self]

/-- shset: the shape register in sd. -/
@[simp] theorem shape_encS3 (n : ShReg) : (encS3 op (0#3 ++ n) a b l).extractLsb' 18 4 = n := by
  simp (disch := decide) only [encS3, extractLsb'_append_eq_of_le, extractLsb'_append_eq_of_add_le, Nat.reduceSub, extractLsb'_eq_self]

/-- shld: the space and the shape register in sd. -/
@[simp] theorem spaceShape_encSI (ax : Bool) (n : ShReg) : fBit (encSI op (0#2 ++ ofBool ax ++ n) a i) 22 = ax ∧
    (encSI op (0#2 ++ ofBool ax ++ n) a i).extractLsb' 18 4 = n := by
  simp (disch := decide) only [fBit_eq_part, encSI, extractLsb'_append_eq_of_le, extractLsb'_append_eq_of_add_le, Nat.reduceSub,
    extractLsb'_eq_self, ofBool_beq_one, true_and]

/-- The SO format: the space, the scope and L. -/
@[simp] theorem ordered_encSI (ax : Bool) (sc : BitVec 2) (la : BitVec 4) : fBit (encSI op d a (ofBool ax ++ sc ++ 0#4 ++ la)) 10 = ax ∧
    (encSI op d a (ofBool ax ++ sc ++ 0#4 ++ la)).extractLsb' 8 2 = sc ∧ fL (encSI op d a (ofBool ax ++ sc ++ 0#4 ++ la)) = la := by
  simp (disch := decide) only [fBit_eq_part, fL, encSI, extractLsb'_append_eq_of_le, extractLsb'_append_eq_of_add_le, Nat.reduceSub,
    extractLsb'_eq_self, ofBool_beq_one, true_and]

/-- The SO format of a store, which has no L. -/
@[simp] theorem released_encSI (ax : Bool) (sc : BitVec 2) : fBit (encSI op d a (ofBool ax ++ sc ++ 0#8)) 10 = ax ∧
    (encSI op d a (ofBool ax ++ sc ++ 0#8)).extractLsb' 8 2 = sc := by
  simp (disch := decide) only [fBit_eq_part, encSI, extractLsb'_append_eq_of_le, extractLsb'_append_eq_of_add_le, Nat.reduceSub,
    extractLsb'_eq_self, ofBool_beq_one, true_and]

/-- kget and kset: the third of a predicate, and the predicate. -/
@[simp] theorem predicate_encSI (t : BitVec 2) (n : BitVec 5) : (encSI op d a (0#4 ++ t ++ n)).extractLsb' 5 2 = t ∧
    fMod (encSI op d a (0#4 ++ t ++ n)) = n := by
  simp (disch := decide) only [fMod, encSI, extractLsb'_append_eq_of_le, extractLsb'_append_eq_of_add_le, Nat.reduceSub, extractLsb'_eq_self,
    true_and]

/-- The SV format: the vector register. -/
@[simp] theorem vector_encSI (v : VReg) : (encSI op d a (v ++ 0#2)).extractLsb' 2 9 = v := by
  simp (disch := decide) only [encSI, extractLsb'_append_eq_of_le, extractLsb'_append_eq_of_add_le, Nat.reduceSub, extractLsb'_eq_self]

/-- wait: the counter class and the count. -/
@[simp] theorem counter_encSI (c : BitVec 3) (n : BitVec 8) : (encSI op d a (c ++ n)).extractLsb' 8 3 = c ∧
    (encSI op d a (c ++ n)).extractLsb' 0 8 = n := by
  simp (disch := decide) only [encSI, extractLsb'_append_eq_of_le, extractLsb'_append_eq_of_add_le, Nat.reduceSub, extractLsb'_eq_self, true_and]

/-- mpush: a predicate in imm11. -/
@[simp] theorem fMod_encSI (n : BitVec 5) : fMod (encSI op d a (n.setWidth 11)) = n := by
  simp (disch := decide) only [fMod, encSI, extractLsb'_append_eq_of_add_le, extractLsb'_setWidth_of_le, extractLsb'_eq_self]

/-- The words of a barrier slot: its number in imm11. -/
@[simp] theorem fL_encSI (n : BitVec 4) : fL (encSI op d a (n.setWidth 11)) = n := by
  simp (disch := decide) only [fL, encSI, extractLsb'_append_eq_of_add_le, extractLsb'_setWidth_of_le, extractLsb'_eq_self]

/-- fence: the scope in imm11. -/
@[simp] theorem scope_encSI (sc : BitVec 3) : (encSI op d a (sc.setWidth 11)).extractLsb' 0 3 = sc := by
  simp (disch := decide) only [encSI, extractLsb'_append_eq_of_add_le, extractLsb'_setWidth_of_le, extractLsb'_eq_self]

/-- The SW format: class, count and offset. -/
@[simp] theorem counter_encSJ (c : BitVec 3) (n : BitVec 8) (o : BitVec 14) : (encSJ op (c ++ n ++ o)).extractLsb' 22 3 = c ∧
    (encSJ op (c ++ n ++ o)).extractLsb' 14 8 = n ∧ (encSJ op (c ++ n ++ o)).extractLsb' 0 14 = o := by
  simp (disch := decide) only [encSJ, extractLsb'_append_eq_of_le, extractLsb'_append_eq_of_add_le, Nat.reduceSub, extractLsb'_eq_self, true_and]

/-- cpa, clar and clrs: a flag and an operation in mod. -/
@[simp] theorem flagOp_encSE (p : Bool) (o : BitVec 2) : fBit (encSE op s1 s2 a bsl (0#2 ++ ofBool p ++ o)) 2 = p ∧
    (encSE op s1 s2 a bsl (0#2 ++ ofBool p ++ o)).extractLsb' 0 2 = o := by
  simp (disch := decide) only [fBit_eq_part, encSE, extractLsb'_append_eq_of_le, extractLsb'_append_eq_of_add_le, Nat.reduceSub,
    extractLsb'_eq_self, ofBool_beq_one, true_and]

/-- cpw: a flag in mod. -/
@[simp] theorem flag_encSE (p : Bool) : fBit (encSE op s1 s2 a bsl (0#4 ++ ofBool p)) 0 = p := by
  simp (disch := decide) only [fBit_eq_part, encSE, extractLsb'_append_eq_of_add_le, extractLsb'_eq_self, ofBool_beq_one]

/-- The two words of cpr: 0 and 1 in mod. -/
@[simp] theorem direction_encSE : fBit (encSE op s1 s2 a bsl 0#5) 0 = false ∧ fBit (encSE op s1 s2 a bsl 1#5) 0 = true := by
  simp (disch := decide) only [fBit_eq_part, encSE, extractLsb'_append_eq_of_add_le]
  decide

/-- cpcb: the tag in mod. -/
@[simp] theorem tag_encSE (t : BitVec 2) : (encSE op s1 s2 a bsl (0#3 ++ t)).extractLsb' 0 2 = t := by
  simp (disch := decide) only [encSE, extractLsb'_append_eq_of_add_le, extractLsb'_eq_self]

/-- mxwb: three flags in mod. -/
@[simp] theorem flags_encSE (p k c : Bool) : fBit (encSE op s1 s2 a bsl (0#2 ++ ofBool p ++ ofBool k ++ ofBool c)) 2 = p ∧
    fBit (encSE op s1 s2 a bsl (0#2 ++ ofBool p ++ ofBool k ++ ofBool c)) 1 = k ∧
    fBit (encSE op s1 s2 a bsl (0#2 ++ ofBool p ++ ofBool k ++ ofBool c)) 0 = c := by
  simp (disch := decide) only [fBit_eq_part, encSE, extractLsb'_append_eq_of_le, extractLsb'_append_eq_of_add_le, Nat.reduceSub,
    extractLsb'_eq_self, ofBool_beq_one, true_and]

/-- bkfile: the last flag and the third shape register in mod. -/
@[simp] theorem lastShape_encSE (p : Bool) (n : ShReg) : fBit (encSE op s1 s2 a bsl (ofBool p ++ n)) 4 = p ∧
    fL (encSE op s1 s2 a bsl (ofBool p ++ n)) = n := by
  simp (disch := decide) only [fBit_eq_part, fL, encSE, extractLsb'_append_eq_of_le, extractLsb'_append_eq_of_add_le, Nat.reduceSub,
    extractLsb'_eq_self, ofBool_beq_one, true_and]

end

/-- A word of opcode 0x7F without a reserved bit is the prefixing word of its bits. -/
theorem encPfx_bits {w : Word} (hop : fOp w = 0x7F) (hz : w.extractLsb' 21 4 = 0) : encPfx (w.extractLsb' 0 21) = w := by
  rw [encPfx, show (0x7F#7 : BitVec 7) = w.extractLsb' 25 7 from hop.symm, show (0#4 : BitVec 4) = w.extractLsb' 21 4 from hz.symm,
    extractLsb'_append_extractLsb'_eq_extractLsb' (by decide), extractLsb'_append_extractLsb'_eq_extractLsb' (by decide)]
  exact extractLsb'_eq_self

/-- The prefixing word of an mxa word holds vm in its lowest six bits (12 R216). -/
@[simp] theorem vm_prefixBits (v : BitVec 6) : (0#15 ++ v).setWidth 6 = v := by
  rw [setWidth_eq_extractLsb' (by decide), extractLsb'_append_eq_of_add_le (by decide), extractLsb'_eq_self]

/-! ### Immediates -/

/-- The bits of the prefixing word that stands before an immediate's word, if one does. -/
def Imm.above (i : Imm) : Option (BitVec 21) := if i.pfx then some i.high else none

theorem high_append_low (i : Imm) : i.high ++ i.low = i.val := by
  rw [Imm.high, Imm.low, setWidth_eq_extractLsb' (by decide), extractLsb'_append_extractLsb'_eq_extractLsb' (by decide)]
  exact extractLsb'_eq_self

/-- A signed immediate is read back, prefixed or not. -/
theorem immS_encSI {i : Imm} (h : i.okSigned = true) (op : BitVec 7) (d a : SReg) : immS (encSI op d a i.low) i.above = i := by
  obtain ⟨val, pfx⟩ := i
  cases pfx with
  | true => simpa [Imm.above, immS] using high_append_low ⟨val, true⟩
  | false =>
    have hval : val = (val.setWidth 11).signExtend 32 := by simpa [Imm.okSigned] using h
    simpa [Imm.above, immS, Imm.low] using hval.symm

/-- So is an unsigned one. -/
theorem immU_encSI {i : Imm} (h : i.okUnsigned = true) (op : BitVec 7) (d a : SReg) : immU (encSI op d a i.low) i.above = i := by
  obtain ⟨val, pfx⟩ := i
  cases pfx with
  | true => simpa [Imm.above, immU] using high_append_low ⟨val, true⟩
  | false =>
    have hval : val = (val.setWidth 11).setWidth 32 := by simpa only [Imm.okUnsigned, Bool.false_or, beq_iff_eq] using h
    simpa only [Imm.above, immU, Imm.low, fields_encSI, Bool.false_eq_true, if_false, Imm.mk.injEq, and_true] using hval.symm

end Sys2Proof
end

