-- ==== Sys2Proof/Proofs/ScalarWords.lean ====
section
/-! PROOF. The scalar opcode map reads an encoded word back (12 R214-R216, R223): word by word, with the prefixing word before it when it has one. -/

namespace Sys2Proof

/-- A word, and before it the prefixing word with the bits h when it has one (12 R216). -/
def prefixed (h : Option (BitVec 21)) (w : Word) : List Word := (h.map encPfx).toList ++ [w]

theorem encImm_eq_prefixed (i : Imm) (w : Word) : encImm i w = prefixed i.above w := by
  unfold encImm Imm.above
  split <;> rfl

theorem prefixed_eq_one {h : Option (BitVec 21)} {w w0 : Word} (e : prefixed h w = [w0]) : h = none ∧ w = w0 := by
  cases h with
  | none => exact ⟨rfl, (List.cons.inj e).1⟩
  | some b => cases e

theorem prefixed_eq_two {h : Option (BitVec 21)} {w w0 w1 : Word} (e : prefixed h w = [w0, w1]) : ∃ b, h = some b ∧ w0 = encPfx b ∧ w = w1 := by
  cases h with
  | none => cases e
  | some b =>
    obtain ⟨e0, e1⟩ := List.cons.inj e
    exact ⟨b, rfl, e0.symm, (List.cons.inj e1).1⟩

/-- The opcode map names, for the word of i and the prefixing word before it, the row of i, and a word that is prefixed may be. -/
def ReadsBack (i : Instr) : Prop :=
  ∃ h w, encScalar i = prefixed h w ∧ scalarInstr w h = some i.canon ∧ (h.isSome = true → prefixable (fOp w) = true)

/-- An instruction of one word without an immediate that may be extended. -/
theorem readsBack_word {i : Instr} {w : Word} (he : encScalar i = [w]) (hr : scalarInstr w none = some i.canon) : ReadsBack i :=
  ⟨none, w, he, hr, nofun⟩

/-- An instruction with such an immediate. -/
theorem readsBack_imm {i : Instr} {m : Imm} {w : Word} (he : encScalar i = encImm m w) (hr : scalarInstr w m.above = some i.canon)
    (hp : prefixable (fOp w) = true) : ReadsBack i :=
  ⟨m.above, w, he.trans (encImm_eq_prefixed m w), hr, fun _ => hp⟩

/-- Every scalar instruction but a prefixing word that stands alone reads back, format by format. -/
theorem readsBack {i : Instr} (hwf : i.wf = true) (hne : encScalar i ≠ []) (hx : ∀ b, i ≠ .extensionPrefix b) : ReadsBack i := by
  cases i with
  | jr a | add d a b | sub d a b | mul d a b | mulh d a b | mulhu d a b | and d a b | or d a b | xor d a b | shl d a b | shr d a b | sra d a b
  | slt d a b | sltu d a b | min d a b | max d a b | popc d a | add64 d a b | sub64 d a b | shl64 d a b | shr64 d a b | mul64 d a b
  | sltu64 d a b | elect d a | shset n a f | wcnt a b | wadr a b | aclose p a b | launch d a ax la | bkfence a | bkfenceAll | tinv a b
  | cwinRead d a b | cwinWrite d a b | ctxSave d a b | ctxLoad d a b | cfgRead d a b | cfgWrite d a b =>
    refine readsBack_word rfl ?_
    rw [scalarInstr, fOp_encS3]
    exact congrArg some (by simp [Instr.canon])
  | gctlHalt d a | gctlResume d a | gctlReplay d a | gctlCancel d a | gctlCompact d a | gctlTake d a | gctlKill d a | gctlStep d a =>
    refine readsBack_word rfl ?_
    rw [scalarInstr, fOp_encS3, fB_encS3]
    exact congrArg some (by simp [Instr.canon])
  | br o | exit | tail | trap c | brk c | hret | melse | mpop | yield c n o | gbar | eret =>
    refine readsBack_word rfl ?_
    rw [scalarInstr, fOp_encSJ]
    exact congrArg some (by simp [Instr.canon])
  | shli d a n | shri d a n | srai d a n | sldAcq d a ax sc la | sstRel d a ax sc | mpush n | kget d t n | kset a t n | movvs d a v | sget d n
  | sset a n | movsv d a v | wait c n | fence sc | bsinit a n | bsarr d n | bswait a n | bsaw n | bsget d n | mxfence d | mxwait a | bkstat d n
  | stget d a | stclr a | lx n =>
    refine readsBack_word rfl ?_
    rw [scalarInstr, fOp_encSI]
    exact congrArg some (by simp [Instr.canon])
  | jal d m | beq d a m | bne d a m | blt d a m | bge d a m | hsetLabel m | addi d a m | andi d a m | ori d a m | xori d a m | slti d a m
  | sltui d a m | addi64 d a m | sldTeamMemory d a m | sldAnnex d a m | sstTeamMemory d a m | sstAnnex d a m | shld ax n a m =>
    refine readsBack_imm rfl ?_ (by rw [fOp_encSI]; decide)
    rw [scalarInstr, fOp_encSI]
    exact congrArg some (by simp [Instr.canon, immS_encSI (i := m) hwf])
  | lpc a m =>
    refine readsBack_imm rfl ?_ (by rw [fOp_encSI]; decide)
    rw [scalarInstr, fOp_encSI]
    exact congrArg some (by simp [Instr.canon, immU_encSI (i := m) hwf])
  | lxa n a m =>
    obtain ⟨hm, -⟩ := Bool.and_eq_true_iff.1 hwf
    refine readsBack_imm rfl ?_ (by rw [fOp_encSI]; decide)
    rw [scalarInstr, fOp_encSI]
    exact congrArg some (by simp [Instr.canon, immU_encSI hm])
  | hsetRegister a p =>
    have ha : a ≠ 0#7 := by simpa [Instr.wf] using hwf
    refine readsBack_imm rfl ?_ (by rw [fOp_encSI]; decide)
    rw [scalarInstr, fOp_encSI]
    exact congrArg some (by cases p <;> simp [Instr.canon, Imm.above, ha])
  | cpl d s a b | cps d s a b | cpx d s a b | cpm d s a b | cpg d s a b | cprPut d s a b | cprGet d s a b | cpa d s a b p o | cpw a b p
  | cpst d s a b | cpcb s a b t | clar t a b sr o | clrs t a b sr o | clag t a b | clbc t a b | mxwb d a b p k acc | bkfile sa sg r l st
  | bkcommit d s a b =>
    refine readsBack_word rfl ?_
    rw [scalarInstr, fOp_encSE]
    exact congrArg some (by simp [Instr.canon])
  | mxa acc z pair sp sel sha pc vbq x vm =>
    cases vm with
    | none =>
      refine readsBack_word rfl ?_
      rw [scalarInstr, fOp_encMxa]
      exact congrArg some (by simp [Instr.canon])
    | some m =>
      refine ⟨some (0#15 ++ m), _, rfl, ?_, fun _ => by rw [fOp_encMxa]; decide⟩
      rw [scalarInstr, fOp_encMxa]
      exact congrArg some (by simp [Instr.canon])
  | extensionPrefix b => exact absurd rfl (hx b)
  | _ => exact absurd rfl hne

end Sys2Proof
end

