-- ==== Sys2Proof/Proofs/DecodeEncode.lean ====
section
/-! PROOF. O56: decoding undoes encoding, and what is accepted is the encoding of what it is read as (12 R214, R216, R217, R223-R225). -/

namespace Sys2Proof

open BitVec

/-! ### Lane words -/

@[simp] theorem op_encLane (op : BitVec 8) (w : LaneWord) : (encLane op w).extractLsb' 0 8 = op := by
  simp (disch := decide) only [encLane, extractLsb'_append_eq_of_add_le, extractLsb'_eq_self]

/-- The fields of an encoded lane word are those it was encoded from. -/
@[simp] theorem laneFields_encLane (op : BitVec 8) (w : LaneWord) : laneFields (encLane op w) = w := by
  simp (disch := decide) only [laneFields, getLsbD_eq_part, encLane, extractLsb'_append_eq_of_le, extractLsb'_append_eq_of_add_le, Nat.reduceSub,
    extractLsb'_eq_self, ofBool_beq_one]

/-- The fields of 96 bits and their opcode are all of them. -/
theorem encLane_laneFields (x : BitVec 96) : encLane (x.extractLsb' 0 8) (laneFields x) = x := by
  simp (disch := decide) only [encLane, laneFields, getLsbD_eq_part, ofBool_eq_one_beq, extractLsb'_append_extractLsb'_eq_extractLsb']
  exact extractLsb'_eq_self

/-- The lane opcode map names a well-formed lane instruction by its own opcode and fields. -/
theorem laneInstr_laneParts {i : Instr} {op : BitVec 8} {w : LaneWord} (hp : laneParts i = some (op, w)) (hwf : i.wf = true) :
    laneInstr op w = some i := by
  cases i with
  | vfatomAddOrd w' => exact (Laws.F.vfatomAddOrd w').1 op w hp hwf
  | vfatomMax w' => exact (Laws.F.vfatomMax w').1 op w hp hwf
  | sybindManual w' => exact (Laws.F.sybindManual w').1 op w hp hwf
  | sybindCnt w' => exact (Laws.F.sybindCnt w').1 op w hp hwf
  | sybindSlot w' => exact (Laws.F.sybindSlot w').1 op w hp hwf
  | vkset w' => exact (Laws.F.vkset w').1 op w hp hwf
  | vksetC w' => exact (Laws.F.vksetC w').1 op w hp hwf
  | _ => cases hp <;> rfl

/-- What the map names has that opcode and those fields. -/
theorem laneParts_laneInstr {i : Instr} {op : BitVec 8} {w : LaneWord} (h : laneInstr op w = some i) : laneParts i = some (op, w) := by
  obtain ⟨n, hn⟩ : ∃ n, op.toNat = n := ⟨_, rfl⟩
  have hop : op = BitVec.ofNat 8 n := by rw [← hn, BitVec.ofNat_toNat, BitVec.setWidth_eq]
  rw [laneInstr, hn] at h
  split at h <;> cases h
  all_goals
    subst hop
    repeat' split
    all_goals rfl

/-- A well-formed lane instruction is read back from its 96 bits. -/
theorem decodeLane_encLane {i : Instr} {op : BitVec 8} {w : LaneWord} (hp : laneParts i = some (op, w)) (hwf : i.wf = true) :
    decodeLane (encLane op w) = .ok i := by
  rw [decodeLane, op_encLane, laneFields_encLane, laneInstr_laneParts hp hwf]
  exact if_pos hwf

/-- What is read from 96 bits is well formed, and has their opcode and fields. -/
theorem decodeLane_ok {x : BitVec 96} {i : Instr} (h : decodeLane x = .ok i) (hi : i ≠ .illegalInstruction) :
    i.wf = true ∧ laneParts i = some (x.extractLsb' 0 8, laneFields x) := by
  rw [decodeLane] at h
  cases hl : laneInstr (x.extractLsb' 0 8) (laneFields x) with
  | none =>
    rw [hl] at h
    exact absurd (Except.ok.inj h).symm hi
  | some i' =>
    simp only [hl] at h
    split at h
    next hwf =>
      obtain rfl := Except.ok.inj h
      exact ⟨hwf, laneParts_laneInstr hl⟩
    next => cases h

/-! ### Scalar words -/

/-- The row that stands for a word is as well formed as the row it stands for, and has its encoding. -/
theorem wf_canon (i : Instr) : i.canon.wf = i.wf := by
  unfold Instr.canon
  split <;> rfl

theorem encScalar_canon (i : Instr) : encScalar i.canon = encScalar i := by
  unfold Instr.canon
  split <;> rfl

theorem encScalar_extensionPrefix (b : BitVec 21) : encScalar (.extensionPrefix b) = [encPfx b] := rfl

/-- A well-formed instruction of one word is read back from it. -/
theorem decodeScalar_word {i : Instr} {w : Word} (hwf : i.wf = true) (hw : encScalar i = [w]) (hop : fOp w ≠ 0x7F) (next : Option Word) :
    decodeScalar w next = .ok (i.canon, 1) := by
  have hx : ∀ b, i ≠ .extensionPrefix b := by
    rintro b rfl
    obtain rfl : encPfx b = w := (List.cons.inj hw).1
    exact hop (fields_encPfx b).1
  obtain ⟨h, w', he, hr, -⟩ := readsBack hwf (by simp [hw]) hx
  obtain ⟨rfl, rfl⟩ := prefixed_eq_one (he.symm.trans hw)
  unfold decodeScalar
  rw [if_neg (mt beq_iff_eq.1 hop), hr]
  simp [wf_canon, hwf, encScalar_canon, hw]

/-- One of two words is read back from them. -/
theorem decodeScalar_pair {i : Instr} {w0 w1 : Word} (hwf : i.wf = true) (hw : encScalar i = [w0, w1]) :
    decodeScalar w0 (some w1) = .ok (i.canon, 2) := by
  have hx : ∀ b, i ≠ .extensionPrefix b := by
    rintro b rfl
    cases hw
  obtain ⟨h, w, he, hr, hp⟩ := readsBack hwf (by simp [hw]) hx
  obtain ⟨b, rfl, rfl, rfl⟩ := prefixed_eq_two (he.symm.trans hw)
  unfold decodeScalar
  simp [hr, hp rfl, wf_canon, hwf, encScalar_canon, hw]

/-- What a word of opcode 0x7F is read as: with the word after it an instruction of two words, or one that prefixes nothing. -/
theorem decodeScalar_prefixing {w : Word} {next : Option Word} {i : Instr} {n : Nat} (hop : fOp w = 0x7F) (h : decodeScalar w next = .ok (i, n)) :
    (n = 2 ∧ i.wf = true ∧ ∃ w1, next = some w1 ∧ encScalar i = [w, w1]) ∨ (n = 1 ∧ i = .extensionPrefix (w.extractLsb' 0 21) ∧ w.extractLsb' 21 4 = 0) := by
  cases next with
  | none => simp [decodeScalar, hop] at h
  | some w1 =>
    unfold decodeScalar at h
    rw [if_pos (beq_iff_eq.2 hop)] at h
    simp only at h
    split at h
    · cases hs : scalarInstr w1 (some (w.extractLsb' 0 21)) with
      | none => simp [hs] at h
      | some i' =>
        simp only [hs] at h
        split at h
        next hc =>
          obtain ⟨rfl, rfl⟩ := Prod.mk.inj (Except.ok.inj h)
          obtain ⟨hwf, henc⟩ := Bool.and_eq_true_iff.1 hc
          exact .inl ⟨rfl, hwf, w1, rfl, beq_iff_eq.1 henc⟩
        next => cases h
    · split at h
      next hz =>
        obtain ⟨rfl, rfl⟩ := Prod.mk.inj (Except.ok.inj h)
        exact .inr ⟨rfl, rfl, beq_iff_eq.1 hz⟩
      next => cases h

/-- What any other word is read as: an unassigned opcode, the instruction whose encoding it is, or nothing, for a field. -/
theorem decodeScalar_unprefixed {w : Word} (hop : fOp w ≠ 0x7F) (next : Option Word) :
    decodeScalar w next = .ok (.illegalInstruction, 1) ∨ (∃ i, i.wf = true ∧ encScalar i = [w] ∧ decodeScalar w next = .ok (i, 1)) ∨
      decodeScalar w next = .error (.illegalField (fOp w).toNat) := by
  unfold decodeScalar
  rw [if_neg (mt beq_iff_eq.1 hop)]
  cases scalarInstr w none with
  | none => exact .inl rfl
  | some i =>
    simp only
    split
    next hc =>
      obtain ⟨hwf, henc⟩ := Bool.and_eq_true_iff.1 hc
      exact .inr (.inl ⟨i, hwf, beq_iff_eq.1 henc, rfl⟩)
    next => exact .inr (.inr rfl)

/-- What a single word is read as is well formed and has that word as its encoding. -/
theorem decodeScalar_one {w : Word} {next : Option Word} {i : Instr} (h : decodeScalar w next = .ok (i, 1)) (hi : i ≠ .illegalInstruction) :
    i.wf = true ∧ encScalar i = [w] := by
  by_cases hop : fOp w = 0x7F
  · obtain ⟨hn, -⟩ | ⟨-, rfl, hz⟩ := decodeScalar_prefixing hop h
    · cases hn
    · exact ⟨rfl, by rw [encScalar_extensionPrefix, encPfx_bits hop hz]⟩
  · obtain hd | ⟨i', hwf, henc, hd⟩ | hd := decodeScalar_unprefixed hop next
    · exact absurd (congrArg Prod.fst (Except.ok.inj (h.symm.trans hd))) hi
    · obtain rfl := congrArg Prod.fst (Except.ok.inj (h.symm.trans hd))
      exact ⟨hwf, henc⟩
    · cases h.symm.trans hd

/-- What two words are read as is well formed and has them as its encoding. -/
theorem decodeScalar_two {w : Word} {next : Option Word} {i : Instr} (h : decodeScalar w next = .ok (i, 2)) :
    i.wf = true ∧ ∃ w1, next = some w1 ∧ encScalar i = [w, w1] := by
  by_cases hop : fOp w = 0x7F
  · obtain ⟨-, henc⟩ | ⟨hn, -⟩ := decodeScalar_prefixing hop h
    · exact henc
    · cases hn
  · obtain hd | ⟨i', -, -, hd⟩ | hd := decodeScalar_unprefixed hop next <;> cases h.symm.trans hd

/-- Settles O56: a lane word is its opcode and fields, and the lane map and its inverse agree on both; the scalar map reads each format's word back,
prefixed or not; and the decoder accepts only what it would encode to the very words read. -/
theorem decodeOfEncodeIsTheInstruction : Obligations.DecodeOfEncodeIsTheInstruction := by
  unfold Obligations.DecodeOfEncodeIsTheInstruction
  refine ⟨fun i hwf => ⟨fun op w hp => decodeLane_encLane hp hwf, fun _ w hw hop next => decodeScalar_word hwf hw hop next,
    fun _ w0 w1 hw => decodeScalar_pair hwf hw⟩, fun x i h hi => ?_, fun w next i h hi => decodeScalar_one h hi, fun w next i h => decodeScalar_two h⟩
  obtain ⟨hwf, hp⟩ := decodeLane_ok h hi
  exact ⟨hwf, _, _, hp, encLane_laneFields x⟩

end Sys2Proof
end

