-- ==== Sys2Proof/Proofs/PrivilegedWords.lean ====
section
/-! PROOF. O48: what a group, or a Curator, takes from a privileged word, from an unassigned opcode, from a word that prefixes nothing, and from a
word of the privileged opcodes that is no instruction (12 R216, R225, R228; 22 R358). -/

namespace Sys2Proof.Machine

open Sys2Proof

namespace State

variable {s : State} {t i c : Nat} {g : Group}

theorem raiseNow_group (h : s.Issuer t i g) (code : FaultCode) (d : Detail) : s.raiseNow code d = s.raiseGroup t i code d := by
  simp only [raiseNow, h.cur]

theorem raiseNow_curator (h : s.Curates c) (code : FaultCode) : s.raiseNow code = s.raiseCurator c 0 := by
  rw [Curates] at h
  simp only [raiseNow, h]
  rfl

theorem present_curator (h : s.Curates c) : s.present = true := by
  rw [Curates] at h
  simp only [present, h]

/-- What a Curator's own word would do is not asked where a group issues it. -/
theorem byCurator_group (h : s.Issuer t i g) (k : Nat → Out) : s.byCurator k = .next (s.raiseGroup t i .privilegedInstruction {}) := by
  simp only [byCurator, h.cur, present_group h, if_true, raiseNow_group h]

theorem issuing_of_present (h : s.present = true) (k : Out) : s.issuing k = k := if_pos h

end State

/-! ### Words that no group, or nobody, executes -/

/-- Every word of the privileged opcodes is a Curator's own. -/
theorem exec_privileged (d a b : SReg) (s : State) :
    ∀ ins ∈ [Instr.eret, .cwinRead d a b, .cwinWrite d a b, .gctlHalt d a, .gctlResume d a, .gctlReplay d a, .gctlCancel d a, .gctlCompact d a,
        .gctlTake d a, .gctlKill d a, .gctlStep d a, .ctxSave d a b, .ctxLoad d a b, .tinv a b, .cfgRead d a b, .cfgWrite d a b],
      ∃ k, exec ins s = s.byCurator k := by
  simp only [List.forall_mem_cons]
  exact ⟨⟨_, rfl⟩, ⟨_, rfl⟩, ⟨_, rfl⟩, ⟨_, rfl⟩, ⟨_, rfl⟩, ⟨_, rfl⟩, ⟨_, rfl⟩, ⟨_, rfl⟩, ⟨_, rfl⟩, ⟨_, rfl⟩, ⟨_, rfl⟩, ⟨_, rfl⟩, ⟨_, rfl⟩, ⟨_, rfl⟩,
    ⟨_, rfl⟩, ⟨_, rfl⟩, List.forall_mem_nil _⟩

/-- An unassigned opcode faults for whoever issues it. -/
theorem exec_illegalInstruction {s : State} (h : s.present = true) : exec .illegalInstruction s = .next (s.raiseNow .illegalInstruction) :=
  State.issuing_of_present h _

/-- So does a prefixing word that prefixes nothing. -/
theorem exec_extensionPrefix {s : State} (h : s.present = true) (b : BitVec 21) :
    exec (.extensionPrefix b) s = .next (s.raiseNow .illegalField) :=
  State.issuing_of_present h _

/-! ### A word of the privileged opcodes that is no instruction -/

theorem fOp_toNat (w : Word) : (fOp w).toNat = w.toNat / 2 ^ 25 := by
  have := w.isLt
  simp only [fOp, BitVec.extractLsb'_toNat, Nat.shiftRight_eq_div_pow]
  omega

/-- A word that is not prefixed and is refused is refused for a field, under its own opcode. -/
theorem decodeScalar_error {w : Word} {next : Option Word} {e : Reject} (hop : fOp w ≠ 0x7F) (h : decodeScalar w next = .error e) :
    e = .illegalField (fOp w).toNat := by
  obtain hd | ⟨i, -, -, hd⟩ | hd := decodeScalar_unprefixed hop next
  · cases h.symm.trans hd
  · cases h.symm.trans hd
  · exact Except.error.inj (h.symm.trans hd)

namespace State

variable {s : State} {t i : Nat} {g : Group}

theorem rejectFault_privileged {op : Nat} (hlo : 0x76 ≤ op) (hhi : op ≤ 0x7B) : rejectFault (.illegalField op) = .privilegedInstruction :=
  if_pos (Bool.and_eq_true_iff.2 ⟨decide_eq_true hlo, decide_eq_true hhi⟩)

/-- A mapped word that is no instruction takes the fault of its opcode. -/
theorem issueScalar_rejected (hs : s.Sound) {pa : Nat} {e : Reject} (hlt : g.spc.toNat < 2 ^ 57)
    (hpa : s.translateNow t i .fetch g.spc.toNat = .ok pa) (hop : fOp (s.wordAt (.dev pa)) ≠ 0x7F)
    (hdec : decodeScalar (s.wordAt (.dev pa)) none = .error e) : s.issueScalar t i g = .next (s.raiseNow (rejectFault e)) := by
  unfold issueScalar
  simp only [fetchWord_ok hs hlt hpa, hop, if_false, hdec, refuse, Bool.false_eq_true]

end State

/-- Settles O48: each privileged word is a Curator's own, the other two fault for whoever issues them, and a word of the privileged opcodes that the
decoder refuses is refused under its opcode, whose fault is the privileged-instruction fault. -/
theorem privilegedAndIllegalWordsFault : Obligations.PrivilegedAndIllegalWordsFault := by
  unfold Obligations.PrivilegedAndIllegalWordsFault
  refine ⟨fun s t i g d a b h ins hins => ?privileged, fun s b => ⟨fun t i g h => ?group, fun c h => ?curator⟩, ?malformed⟩
  case privileged =>
    obtain ⟨k, hk⟩ := exec_privileged d a b s ins hins
    rw [hk, State.byCurator_group h]
  case group =>
    have hp := State.present_group h
    rw [exec_illegalInstruction hp, exec_extensionPrefix hp, State.raiseNow_group h, State.raiseNow_group h]
    exact ⟨rfl, rfl⟩
  case curator =>
    have hp := State.present_curator h
    rw [exec_illegalInstruction hp, exec_extensionPrefix hp, State.raiseNow_curator h, State.raiseNow_curator h]
    exact ⟨rfl, rfl⟩
  case malformed =>
    intro s r t i pa g ha hg hs s1 s2 w hm hn hlt hpa hlo hhi e hdec
    have hw : (fOp w).toNat = w.toNat / 2 ^ 25 := fOp_toNat w
    have hop : fOp w ≠ 0x7F := fun h => by
      rw [h] at hw
      exact absurd (hw.trans_le hhi) (by decide)
    have hcode : State.rejectFault e = .privilegedInstruction := by
      rw [decodeScalar_error hop hdec, hw, State.rejectFault_privileged hlo hhi]
    have hissuer : s2.Issuer t i { g with moved := false } := ⟨rfl, State.group_putGroup ..⟩
    rw [State.step_issueGroup hs ha hg hm]
    simp only [hn, if_true]
    rw [State.issueScalar_rejected (s := s2) hs hlt hpa hop hdec, hcode, State.raiseNow_group hissuer]

end Sys2Proof.Machine
end

