-- ==== Sys2Proof/Proofs/HaltFrame.lean ====
section
/-! PROOF. What taking a fault, halting a team and parking a group leave alone (22 R348, R349; 01 R38, R40): everything but teams, groups, cores,
partitions, the SFU words that drain and the count of free values. -/

namespace Sys2Proof.Machine

open Sys2Proof

namespace State

variable {s s' s'' : State}

/-- Nothing differs but what a halt reaches. -/
def SameButHalt (s s' : State) : Prop :=
  s' = { s with ops := s'.ops, teams := s'.teams, groups := s'.groups, cores := s'.cores, parts := s'.parts, free := s'.free }

namespace SameButHalt

theorem refl (s : State) : s.SameButHalt s := rfl

theorem trans (h : s.SameButHalt s') (k : s'.SameButHalt s'') : s.SameButHalt s'' := by
  rw [SameButHalt] at h k ⊢
  rw [k, h]

theorem foldl {α : Type} {f : State → α → State} (hf : ∀ (s : State) a, s.SameButHalt (f s a)) (h : s.SameButHalt s') (l : List α) :
    s.SameButHalt (l.foldl f s') :=
  List.foldlRecOn (motive := fun u : State => s.SameButHalt u) l f h fun u ih a _ => ih.trans (hf u a)

theorem sound (h : s.SameButHalt s') (hs : s.Sound) : s'.Sound := by
  rw [h]
  exact hs

end SameButHalt

variable (s)

theorem mapGroup_halt (t i : Nat) (f : Group → Group) : s.SameButHalt (s.mapGroup t i f) := by
  unfold mapGroup
  split <;> rfl

theorem sfuWrite_halt (h : Nat) : s.SameButHalt (s.sfuWrite h) := by
  unfold sfuWrite
  split
  · split
    · dsimp only
      split <;> rfl
    · rfl
    · rfl
  · rfl

theorem drainSfu_halt (t i : Nat) : s.SameButHalt (s.drainSfu t i) := (SameButHalt.refl s).foldl sfuWrite_halt _

theorem pauseTeam_halt (t : Nat) (self : Option Nat) : s.SameButHalt (s.pauseTeam t self) := by
  unfold pauseTeam
  split
  · rfl
  · split
    · split
      · exact mapGroup_halt ..
      · rfl
    · refine SameButHalt.foldl (fun s g => ?_) (s' := s.putTeam t _) rfl _
      refine SameButHalt.trans (s' := s.draw.2) rfl ?_
      dsimp only
      split
      · exact mapGroup_halt ..
      · exact (mapGroup_halt ..).trans (drainSfu_halt ..)

theorem keepHalted_halt (t : Nat) : s.SameButHalt (s.keepHalted t) := by
  unfold keepHalted
  split <;> rfl

theorem haltTeam_halt (t : Nat) (self : Option Nat) : s.SameButHalt (s.haltTeam t self) :=
  (pauseTeam_halt s t self).trans (keepHalted_halt _ t)

theorem raiseGroup_halt (t i : Nat) (code : FaultCode) (d : Detail) : s.SameButHalt (s.raiseGroup t i code d) := by
  unfold raiseGroup
  split
  · exact SameButHalt.trans (s' := (s.putGroup t i _).enqueueRec _ _) rfl (haltTeam_halt ..)
  · rfl

theorem checkDeadlock_halt (t : Nat) : s.SameButHalt (s.checkDeadlock t) := by
  unfold checkDeadlock
  split
  · dsimp only
    split
    · exact SameButHalt.trans (s' := s.draw.2) rfl (raiseGroup_halt ..)
    · rfl
  · rfl

/-- A group that parks leaves all else, but for a deadlock that its team then is in (01 R38, R40). -/
theorem park_halt (t i : Nat) (w : Wait) : s.SameButHalt (s.park t i w) := (mapGroup_halt ..).trans (checkDeadlock_halt ..)

end State

end Sys2Proof.Machine
end

