-- ==== Sys2Proof/Proofs/TableSweeps.lean ====
section
/-! PROOF. A sweep of a table: each row that satisfies a test is put anew. What it does to a row, and to a look at the rows that no put changes. -/

namespace Sys2Proof.Machine

open Sys2Proof

namespace Tab

variable {α β : Type} {m r : Tab α} {k : Nat} {v : α}

/-- One row of a sweep: where it satisfies c it is put as w makes it. -/
def putWhere (c : Nat × α → Bool) (w : α → α) (r : Tab α) (e : Nat × α) : Tab α := if c e then r.set e.1 (w e.2) else r

theorem get_putWhere_ne {e : Nat × α} (hk : e.1 ≠ k) (c : Nat × α → Bool) (w : α → α) : get (putWhere c w r e) k = get r k := by
  unfold putWhere
  split
  · exact get_set_ne _ (Ne.symm hk) _
  · rfl

/-- In a canonical table a row's number names it. -/
theorem eq_of_mem (hw : wf m = true) (h : get m k = some v) {e : Nat × α} (he : e ∈ m) (hk : e.1 = k) : e = (k, v) :=
  Prod.ext hk (Option.some.inj (by rw [← get_of_mem hw he, hk, h]))

/-- A canonical table after a sweep of its own rows. -/
theorem get_foldl_putWhere (hw : wf m = true) (h : get m k = some v) (c : Nat × α → Bool) (w : α → α) :
    get (m.foldl (putWhere c w) m) k = some (if c (k, v) then w v else v) := by
  have swept : ∀ l, l ⊆ m → ∀ r, (k, v) ∈ l ∨ get r k = some (if c (k, v) then w v else v) →
      (get r k = some v ∨ get r k = some (if c (k, v) then w v else v)) →
      get (l.foldl (putWhere c w) r) k = some (if c (k, v) then w v else v) := by
    intro l
    induction l with
    | nil => exact fun _ r hr _ => hr.resolve_left (List.not_mem_nil)
    | cons e l ih =>
      intro hl r hr hget
      have hrest : l ⊆ m := fun x hx => hl (List.mem_cons_of_mem e hx)
      by_cases hk : e.1 = k
      · obtain rfl := eq_of_mem hw h (hl List.mem_cons_self) hk
        have hput : get (putWhere c w r (k, v)) k = some (if c (k, v) then w v else v) := by
          unfold putWhere
          split
          · exact get_set_same ..
          · next hc => simpa [hc] using hget
        exact ih hrest _ (.inr hput) (.inr hput)
      · have hne : (k, v) ≠ e := fun heq => hk (heq ▸ rfl)
        refine ih hrest _ ?_ (by rwa [get_putWhere_ne hk])
        rw [get_putWhere_ne hk]
        exact hr.imp_left fun hin => (List.mem_cons.1 hin).resolve_left hne
  exact swept m (List.Subset.refl m) m (.inl (mem_of_get h)) (.inl h)

/-- What f shows of each row. -/
def look (f : α → β) (m : Tab α) : Tab β := m.map fun e => (e.1, f e.2)

/-- A put of a row that looks the same changes no look. -/
theorem look_set {f : α → β} {u : α} (h : get m k = some u) (hf : f v = f u) : look f (set m k v) = look f m := by
  induction m with
  | nil => cases h
  | cons e m ih =>
    obtain ⟨a, b⟩ := e
    rw [get] at h
    split_ifs at h with h1 h2
    · obtain rfl := h1
      obtain rfl := Option.some.inj h
      simp [set, look, hf]
    · rw [set, if_neg h1, if_neg h2]
      exact congrArg (List.cons _) (ih h)

/-- Where the rows look as those of m do, so they do once one of m's rows has been swept. -/
theorem look_putWhere {f : α → β} {c : Nat × α → Bool} {w : α → α} (hw : wf m = true) (hf : ∀ v, f (w v) = f v) (hr : look f r = look f m)
    {e : Nat × α} (he : e ∈ m) : look f (putWhere c w r e) = look f m := by
  unfold putWhere
  split
  · have hget : (get r e.1).map f = some (f e.2) := by
      rw [← get_map f r, show r.map (fun e => (e.1, f e.2)) = look f m from hr, look, get_map, get_of_mem hw he, Option.map_some]
    obtain ⟨u, hu, hfu⟩ := Option.map_eq_some_iff.1 hget
    rw [look_set hu ((hf e.2).trans hfu.symm), hr]
  · exact hr

/-- A fold over states that sweeps one of their tables, where each step does so while inv holds of the table so far. -/
theorem foldl_sweep {upd : Tab α → State} {step : State → Nat × α → State} {c : Nat × α → Bool} {w : α → α} {inv : Tab α → Prop} {m : Tab α}
    (hinv : ∀ r e, e ∈ m → inv r → inv (putWhere c w r e)) (hstep : ∀ r e, inv r → step (upd r) e = upd (putWhere c w r e)) (h0 : inv r) :
    m.foldl step (upd r) = upd (m.foldl (putWhere c w) r) := by
  induction m generalizing r with
  | nil => rfl
  | cons e m ih =>
    rw [List.foldl_cons, List.foldl_cons, hstep r e h0]
    exact ih (fun r e he => hinv r e (List.mem_cons_of_mem _ he)) (hinv r e List.mem_cons_self h0)

end Tab

end Sys2Proof.Machine
end

