-- ==== Sys2Proof/Proofs/GroupResults.lean ====
section
/-! PROOF. Results that reach a group's registers leave all else of the group: where it stands, whom it waits for, its counters and its marks
(02 R53). -/

namespace Sys2Proof.Machine

open Sys2Proof

namespace Group

variable {g g' g'' : Group}

/-- Nothing differs but the registers, their sidecar and what is on its way to them. -/
def SameButResults (g g' : Group) : Prop :=
  g' = { g with s := g'.s, v := g'.v, sh := g'.sh, tags := g'.tags, scar := g'.scar, badV := g'.badV, pend := g'.pend }

namespace SameButResults

theorem refl (g : Group) : g.SameButResults g := rfl

theorem trans (h : g.SameButResults g') (k : g'.SameButResults g'') : g.SameButResults g'' := by
  rw [SameButResults] at h k ⊢
  rw [k, h]

end SameButResults

theorem freeTag_results (g : Group) (r : Nat) : g.SameButResults (g.freeTag r) := by
  unfold freeTag
  split <;> rfl

theorem rowsWritten_results (g : Group) (r : Nat) (m : LaneMask) : g.SameButResults (g.rowsWritten r m) := by
  unfold rowsWritten
  split <;> rfl

theorem putLanes_results (g : Group) (r : Nat) (m : LaneMask) (f : Nat → Word) : g.SameButResults (g.putLanes r m f) :=
  SameButResults.trans (g' := { g with v := _, scar := _ }) rfl (rowsWritten_results ..)

theorem apply_results (g : Group) (p : Pend) : g.SameButResults (g.apply p) := by
  unfold apply
  split
  · split <;> rfl
  · refine SameButResults.trans ?_ (putLanes_results ..)
    split
    · rfl
    · exact freeTag_results ..
  · split <;> rfl

theorem settle_results (g : Group) : g.SameButResults g.settle :=
  List.foldlRecOn (motive := fun h : Group => g.SameButResults h) _ _ rfl fun _ ih p _ => ih.trans (apply_results _ p)

/-- A result that is not over stays as it is. -/
theorem settle_waiting (h : ∀ p ∈ g.pend, p.over = false) : g.settle = g := by
  have hnone : g.pend.filter Pend.over = [] := List.filter_eq_nil_iff.2 fun p hp => by simp [h p hp]
  have hall : (g.pend.filter fun (p : Pend) => !p.over) = g.pend := List.filter_eq_self.2 fun p hp => by simp [h p hp]
  rw [settle, hnone, hall]
  rfl

/-- The word that the group waited on is past it. -/
def resumed (g : Group) : Group := ({ g with wait := none } : Group).advance 4

theorem resumed_idle (h : g.Idle) :
    g.resumed = { g with wait := none, spc := g.spc + 4, reissue := none, moved := true, stall := none } :=
  tick_idle (g := { g with wait := none, spc := g.spc + 4, reissue := none }) h false

end Group

end Sys2Proof.Machine
end

