-- ==== Sys2Proof/Proofs/GridWaits.lean ====
section
/-! PROOF. O19: the grid barrier and waits on device words (13 R263, R264; 08 R165-R167; 23 R365). A barrier that is looked at and a polling re-check are
sweeps of the groups, the latter of the grids too; what decides about a row is the same throughout the sweep. -/

namespace Sys2Proof.Machine

open Sys2Proof

namespace State

variable {s : State} {t i k n gr : Nat} {g : Group} {x : Team}

/-- A sweep of the groups that keeps their spill stacks moves no byte of memory. -/
theorem sweep_sameSpaces (hw : Tab.wf s.groups = true) {c : Nat × Group → Bool} {w : Group → Group} (hsp : ∀ g, (w g).spill = g.spill) :
    s.SameSpaces { s with groups := s.groups.foldl (Tab.putWhere c w) s.groups } := by
  refine List.foldlRecOn (motive := fun m : Tab Group => s.SameSpaces { s with groups := m }) _ _ (.refl s) fun m hm e he => ?_
  unfold Tab.putWhere
  split
  · exact hm.setGroup (Tab.get_of_mem hw he) (hsp e.2)
  · exact hm

/-! ### The grid barrier (13 R263) -/

/-- What a barrier asks of a group: whether it has ended, and how many barriers it has arrived at. -/
def arrivals (g : Group) : Bool × Nat := (g.ended, g.gbarN)

theorem arrivals_resumed (g : Group) : arrivals g.resumed = arrivals g := by
  rw [Group.resumed, Group.advance, Group.tick, Group.settle_results]
  rfl

theorem groupsOf_all_atBarrier (s : State) (t j : Nat) : (s.groupsOf t).all (atBarrier j) =
    ((Tab.look arrivals s.groups).filter fun e => e.1 / 64 == t).all fun e => e.2.1 || decide (j < e.2.2) := by
  rw [groupsOf, Tab.look, List.filter_map, List.all_map, List.all_map]
  rfl

/-- A barrier is met or not whatever else the groups hold. -/
theorem barrierMet_look {r : Tab Group} (h : Tab.look arrivals r = Tab.look arrivals s.groups) (gr j : Nat) :
    ({ s with groups := r } : State).barrierMet gr j = s.barrierMet gr j := by
  simp only [barrierMet, groupsOf_all_atBarrier, h]

/-- The group of a row waits at a barrier of the grid that is met. -/
def leavesBarrier (s : State) (gr : Nat) (e : Nat × Group) : Bool :=
  match e.2.wait with
  | some (.gbar j) => (s.team (e.1 / 64)).map (·.grid) == some gr && s.barrierMet gr j
  | _ => false

theorem barrierCheck_eq (hw : Tab.wf s.groups = true) (gr : Nat) :
    s.barrierCheck gr = { s with groups := s.groups.foldl (Tab.putWhere (s.leavesBarrier gr) Group.resumed) s.groups } := by
  refine Tab.foldl_sweep (upd := fun r => { s with groups := r }) (inv := fun r => Tab.look arrivals r = Tab.look arrivals s.groups)
    (fun r e he hr => Tab.look_putWhere hw arrivals_resumed hr he) (fun r e hr => ?_) rfl
  cases hwait : e.2.wait with
  | none => simp only [Tab.putWhere, leavesBarrier, hwait, Bool.false_eq_true, if_false]
  | some w =>
    cases w with
    | gbar j =>
      simp only [Tab.putWhere, leavesBarrier, barrierMet_look hr, hwait, team]
      split <;> rfl
    | _ => simp only [Tab.putWhere, leavesBarrier, hwait, Bool.false_eq_true, if_false]

/-- Every row of a canonical groups' table after a barrier has been looked at. -/
theorem get_barrierCheck (hw : Tab.wf s.groups = true) (hg : s.groups.get k = some g) (gr : Nat) :
    (s.barrierCheck gr).groups.get k = some (if s.leavesBarrier gr (k, g) then g.resumed else g) := by
  rw [barrierCheck_eq hw]
  exact Tab.get_foldl_putWhere hw hg _ _

/-- A barrier of a grid is met where every group of every team of it, those of saved teams among them, has arrived there or has ended. -/
theorem barrierMet_iff (hw : Tab.wf s.teams = true) (gr j : Nat) : s.barrierMet gr j = true ↔
    (∀ t x, s.teams.get t = some x → x.grid = gr → ∀ h ∈ s.groupsOf t, h.ended = true ∨ j < h.gbarN) ∧
      ∀ y ∈ s.saved, y.grid = gr → ∀ h ∈ y.groups, h.ended = true ∨ j < h.gbarN := by
  have hasked (n : Nat) (l : List Group) : (n != gr || l.all (atBarrier j)) = true ↔ (n = gr → ∀ h ∈ l, h.ended = true ∨ j < h.gbarN) := by
    simp [atBarrier, imp_iff_not_or]
  simp only [barrierMet, Bool.and_eq_true, List.all_eq_true, hasked]
  exact and_congr_left fun _ => ⟨fun h t x hx => h (t, x) (Tab.mem_of_get hx), fun h e he => h e.1 e.2 (Tab.get_of_mem hw he)⟩

/-- The group of index i of a team leaves where it waits at a barrier of the grid that is met. -/
theorem leavesBarrier_iff (hi : i < 64) (gr : Nat) : s.leavesBarrier gr (64 * t + i, g) = true ↔
    ∃ j, g.wait = some (.gbar j) ∧ (s.team t).map (·.grid) = some gr ∧ s.barrierMet gr j = true := by
  unfold leavesBarrier
  simp only [groupKey_div hi]
  cases g.wait with
  | none => simp
  | some w => cases w <;> simp

/-- So it stands past the barrier, or as it was. -/
theorem group_barrierCheck (hw : Tab.wf s.groups = true) (hg : s.group t i = some g) (gr : Nat) :
    (s.barrierCheck gr).group t i = some (if s.leavesBarrier gr (64 * t + i, g) then g.resumed else g) := get_barrierCheck hw hg gr

end State

/-! ### Waits on device words (08 R165-R167) -/

theorem State.MemorySame.wordAt {s s' : State} (h : s.MemorySame s') (l : Loc) : s'.wordAt l = s.wordAt l := by
  have hbytes (n : Nat) : ∀ l, s'.bytesAt l n = s.bytesAt l n := by
    induction n with
    | zero => exact fun _ => rfl
    | succ n ih => exact fun l => by rw [State.bytesAt, State.bytesAt, h, ih]
  rw [State.wordAt, State.wordAt, State.numAt, State.numAt, hbytes]

namespace State

variable {s : State} {t i k n gr : Nat} {g : Group} {x : Team}

/-- A word of memory reads the same whatever the groups hold, but for those that hold its bytes. -/
theorem wordAt_dev_groups (s : State) (r : Tab Group) (a : Nat) : ({ s with groups := r } : State).wordAt (.dev a) = s.wordAt (.dev a) := rfl

theorem cntHolds_iff (w v : Word) : cntHolds w v = true ↔ (w - v).toNat < 2 ^ 31 := decide_eq_true_iff

/-- A waiting group that goes on where c holds stands past its word exactly then, and elsewhere is as it was. -/
theorem resumed_where {c : Bool} {p q : Prop} (hi : g.Idle) (hw : g.wait ≠ none) (hc : c = true ↔ p) (hq : q → ¬p) :
    (if c then g.resumed else g).s = g.s ∧ ((if c then g.resumed else g).wait = none ∧ (if c then g.resumed else g).spc = g.spc + 4 ↔ p) ∧
      (q → (if c then g.resumed else g) = g) := by
  cases c with
  | false => exact ⟨rfl, ⟨fun hgone => absurd hgone.1 hw, fun hp => absurd (hc.2 hp) Bool.false_ne_true⟩, fun _ => rfl⟩
  | true =>
    rw [if_pos rfl, Group.resumed_idle hi]
    exact ⟨rfl, ⟨fun _ => hc.1 rfl, fun _ => ⟨rfl, rfl⟩⟩, fun hneg => absurd (hc.1 rfl) (hq hneg)⟩

/-- The wait of a group that polls, whose condition holds (08 R167). -/
def pollHolds (s : State) (g : Group) : Bool :=
  match g.wait with
  | some (.wadr _ a old true) => s.wordAt (.dev a) != old
  | some (.wcnt _ a v true) => cntHolds (s.wordAt (.dev a)) v
  | _ => false

/-- The dependency word of a grid that is polled, and has its value (23 R365). -/
def pollMet (s : State) (x : Grid) : Bool :=
  match x.depPa with
  | some a => x.depPoll && !x.depMet && decide (Rec.depValue x.record ≤ (s.wordAt (.dev a)).toNat)
  | none => false

/-- The groups after a polling re-check. -/
def polledGroups (s : State) : Tab Group := s.groups.foldl (Tab.putWhere (fun e => s.pollHolds e.2) Group.resumed) s.groups

/-- The grids after it. -/
def polledGrids (s : State) : Tab Grid := s.grids.foldl (Tab.putWhere (fun e => s.pollMet e.2) fun x => { x with depMet := true }) s.grids

theorem noteHubRead_grids (hs : s.Sound) (m : Tab Grid) (l : Loc) (n : Nat) :
    ({ s with grids := m } : State).noteHubRead l n = { s with grids := m } :=
  noteHubRead_sound { s with grids := m } hs l n

theorem pollGrids_eq (hs : s.Sound) : s.pollGrids = { s with grids := s.polledGrids } := by
  refine Tab.foldl_sweep (upd := fun r => { s with grids := r }) (inv := fun _ => True) (fun _ _ _ _ => trivial) (fun r e _ => ?_) trivial
  cases hdep : e.2.depPa with
  | none => simp only [Tab.putWhere, pollMet, hdep, Bool.false_eq_true, if_false]
  | some a =>
    simp only [Tab.putWhere, pollMet, hdep]
    cases hp : e.2.depPoll && !e.2.depMet with
    | false => simp only [Bool.false_and, Bool.false_eq_true, if_false]
    | true =>
      simp only [Bool.true_and, if_true, decide_eq_true_iff]
      rw [← apply_ite (fun m : Tab Grid => ({ s with grids := m } : State))]
      exact noteHubRead_grids hs _ _ _

/-- A polling re-check sweeps the groups and the grids; of the teams it changes symbols only. -/
theorem exec_pollingRecheck (hs : s.Sound) (hg : Tab.wf s.groups = true) (ht : Tab.wf s.teams = true) :
    ∃ m, exec .pollingRecheck s = .next { s with groups := s.polledGroups, teams := m, grids := s.polledGrids } ∧
      s.SameSpaces { s with groups := s.polledGroups, teams := m, grids := s.polledGrids } := by
  have hexec : exec .pollingRecheck s = execPollingRecheck s := rfl
  rw [hexec]
  unfold execPollingRecheck
  extract_lets rs woken told
  have hwoken : woken = { s with groups := s.polledGroups } := by
    refine Tab.foldl_sweep (upd := fun r => { s with groups := r }) (inv := fun _ => True) (fun _ _ _ _ => trivial) (fun r e _ => ?_) trivial
    cases hwait : e.2.wait with
    | none => simp only [Tab.putWhere, pollHolds, hwait, Bool.false_eq_true, if_false]
    | some w =>
      cases w with
      | wadr va a old p =>
        cases p with
        | false => simp only [Tab.putWhere, pollHolds, hwait, Bool.false_eq_true, if_false]
        | true =>
          simp only [Tab.putWhere, pollHolds, hwait, wordAt_dev_groups]
          exact (apply_ite (fun m : Tab Group => ({ s with groups := m } : State)) _ _ _).symm
      | wcnt va a v p =>
        cases p with
        | false => simp only [Tab.putWhere, pollHolds, hwait, Bool.false_eq_true, if_false]
        | true =>
          simp only [Tab.putWhere, pollHolds, hwait, wordAt_dev_groups]
          exact (apply_ite (fun m : Tab Group => ({ s with groups := m } : State)) _ _ _).symm
      | _ => simp only [Tab.putWhere, pollHolds, hwait, Bool.false_eq_true, if_false]
  have htold : (∃ m, told = { woken with teams := m }) ∧ woken.SameSpaces told := by
    refine List.foldlRecOn (motive := fun u : State => (∃ m, u = { woken with teams := m }) ∧ woken.SameSpaces u) _ _
      ⟨⟨_, rfl⟩, .refl woken⟩ fun u hu e he => ?_
    obtain ⟨⟨m, rfl⟩, hsame⟩ := hu
    have hrow : woken.teams.get e.1 = some e.2 := Tab.get_of_mem (by rw [hwoken]; exact ht) he
    split
    · exact ⟨⟨m, rfl⟩, hsame⟩
    · exact ⟨⟨_, rfl⟩, hsame.setTeam hrow rfl⟩
  obtain ⟨⟨m, hm⟩, hsame⟩ := htold
  have hread (u : State) (hu : u.Sound) : rs.foldl (fun s r => s.noteRead (.dev r.1) 4 r.2.1 (some r.2.2)) u = u :=
    List.foldlRecOn (motive := fun v : State => v = u) _ _ rfl fun v hv r _ => by rw [hv, noteRead_sound u hu]
  have htoldSound : told.Sound := by rw [hm, hwoken]; exact hs
  refine ⟨m, ?_, ?_⟩
  · rw [hread told htoldSound, pollGrids_eq htoldSound, hm, hwoken]
    rfl
  · have hsweep : s.SameSpaces woken := hwoken ▸ sweep_sameSpaces hg fun g => Group.advance_spill ..
    have hall : s.SameSpaces told := hsweep.trans hsame
    rw [hm, hwoken] at hall
    exact hall.trans ⟨.refl _, rfl, rfl, rfl, fun _ => rfl, fun _ => rfl⟩

/-! ### The words (13 R263, R264) -/

theorem bitAt_toNat {w : Nat} (x : BitVec w) (b : Nat) : bitAt x.toNat b = x.getLsbD b := by
  rw [bitAt, BitVec.getLsbD, Nat.testBit_eq_decide_div_mod_eq]
  rfl

theorem gridOf_team {y : Grid} (hx : s.team t = some x) (hy : s.grid x.grid = some y) : s.gridOf t = some y := by
  rw [gridOf, hx]
  exact hy

section

variable (h : s.Issuer t i g) (hx : s.team t = some x) {y : Grid} (hy : s.grid x.grid = some y)

include h hx hy

theorem exec_gbar_scope (hr : y.record.getLsbD 229 = false) : exec .gbar s = .next (s.raiseNow .illegalScope) := by
  have hexec : exec .gbar s = execGbar s := rfl
  rw [hexec, execGbar, byGroup_group h, gridOf_team hx hy]
  dsimp only
  rw [bitAt_toNat, hr]
  rfl

theorem exec_gbar (hr : y.record.getLsbD 229 = true) (hld : g.counter .ld = 0) (hcp : g.counter .cp = 0) (hcl : g.counter .cl = 0) :
    exec .gbar s = .next ((s.putGroup t i { g with gbarN := g.gbarN + 1, wait := some (.gbar g.gbarN) }).barrierCheck x.grid) := by
  have hexec : exec .gbar s = execGbar s := rfl
  have hteam : (s.putGroup t i { g with gbarN := g.gbarN + 1, wait := some (.gbar g.gbarN) }).team t = some x := hx
  rw [hexec, execGbar, byGroup_group h, gridOf_team hx hy]
  dsimp only
  rw [bitAt_toNat, hr, hld, hcp, hcl, mapGroup_some s h.here, hteam]
  rfl

end

/-- A wait on a device word whose address is translated goes on, or parks with its record (08 R165, R166). -/
theorem waitWord_translated (h : s.Issuer t i g) (hi : g.Idle) (hs : s.Sound) {a : SReg} {pa : Nat} (ha : a.toNat % 2 = 0)
    (hlt : (s.spair a).toNat < 2 ^ 57) (hal : (s.spair a).toNat % 4 = 0) (hpa : s.translateNow t i .read (s.spair a).toNat = .ok pa) (b : SReg)
    (holds : Word → Word → Bool) (mk : Nat → Nat → Word → Bool → Wait) : s.waitWord a b holds mk =
      .next (if holds (s.wordAt (.dev pa)) (s.sreg b) then s.advance 4
        else s.park t i (mk (s.spair a).toNat pa (s.sreg b) (s.mustPoll pa))) := by
  have heven : ¬a.toNat % 2 = 1 := by omega
  have haddr : ¬(2 ^ 57 ≤ (s.spair a).toNat || (s.spair a).toNat % 4 ≠ 0) = true := by
    rw [Bool.or_eq_true, decide_eq_true_iff, decide_eq_true_iff]
    omega
  have hadv : (s.advance 4).Sound := by rw [advance_group h]; exact hs
  rw [waitWord, byGroup_group h, if_neg heven, held_idle h hi, if_neg Bool.false_ne_true]
  dsimp only
  rw [if_neg haddr, hpa]
  dsimp only
  rw [noteRead_sound _ hadv, noteRead_sound _ ((park_halt s t i _).sound hs)]
  split <;> rfl

end State

/-- Settles O19: gbar by the record of its grid, the waits by their condition, the re-check and the barrier row by row of what they sweep. -/
theorem gridAndWordWaitsComplete : Obligations.GridAndWordWaitsComplete := by
  unfold Obligations.GridAndWordWaitsComplete
  refine ⟨fun s t i g x y h hx hy => ⟨State.exec_gbar_scope h hx hy, State.exec_gbar h hx hy⟩, fun s t i g a b pa h hi hs ha => ?waits,
    fun s k a va v g hs hg ht hk hi => ?recheck, fun s gr hg => ?barrier⟩
  case waits =>
    intro va w hlt hal hpa
    have hcnt : exec (.wcnt a b) s = s.waitWord a b State.cntHolds Wait.wcnt := rfl
    have hadr : exec (.wadr a b) s = s.waitWord a b (fun w v => w != v) Wait.wadr := rfl
    rw [hcnt, hadr, State.waitWord_translated h hi hs ha hlt hal hpa, State.waitWord_translated h hi hs ha hlt hal hpa]
    refine ⟨fun hc => ?_, fun hc => ⟨s.mustPoll pa, ?_⟩, fun hc => ?_, fun hc => ⟨s.mustPoll pa, ?_⟩⟩
    · rw [if_pos ((State.cntHolds_iff _ _).2 hc)]
    · rw [if_neg fun hholds => absurd ((State.cntHolds_iff _ _).1 hholds) (Nat.not_lt.2 hc)]
    · rw [if_pos (bne_iff_ne.2 hc)]
    · rw [if_neg (by simpa using hc)]
  case recheck =>
    obtain ⟨m, hexec, hsame⟩ := State.exec_pollingRecheck hs hg ht
    have hgroup : s.polledGroups.get k = some (if s.pollHolds g then g.resumed else g) := Tab.get_foldl_putWhere hg hk _ _
    refine ⟨_, hexec, hsame.memorySame, fun n gr b hgr hn hb hpoll hmet => ?_, fun hw => ⟨_, hgroup, ?_⟩, fun hw => ⟨_, hgroup, ?_⟩⟩
    · have hrow : s.polledGrids.get n = some _ := Tab.get_foldl_putWhere hgr hn (fun e => s.pollMet e.2) _
      have htest : s.pollMet gr = decide (Rec.depValue gr.record ≤ (s.wordAt (.dev b)).toNat) := by simp only [State.pollMet, hb, hpoll, hmet]; rfl
      rw [← htest]
      refine hrow.trans (congrArg some ?_)
      cases s.pollMet gr with
      | false => exact congrArg (fun d => { gr with depMet := d }) hmet
      | true => rfl
    · have hholds : s.pollHolds g = true ↔ (s.wordAt (.dev a) - v).toNat < 2 ^ 31 := by
        rw [State.pollHolds, hw]
        exact State.cntHolds_iff _ _
      exact State.resumed_where hi (hw ▸ Option.some_ne_none _) hholds fun hle => Nat.not_lt.2 hle
    · have hholds : s.pollHolds g = true ↔ s.wordAt (.dev a) ≠ v := by
        rw [State.pollHolds, hw]
        exact bne_iff_ne
      exact State.resumed_where hi (hw ▸ Option.some_ne_none _) hholds fun heq => not_not_intro heq
  case barrier =>
    intro met s'
    refine ⟨State.barrierCheck_sameButGroups s gr, fun ht t i h hi hh => ?_⟩
    have hleaves := State.leavesBarrier_iff (s := s) (t := t) (g := h) hi gr
    simp only [State.barrierMet_iff ht] at hleaves
    have hrow := State.group_barrierCheck hg hh gr
    exact ⟨fun hgoes => by rw [hrow, if_pos (hleaves.2 hgoes)]; rfl, fun hstays => by rw [hrow, if_neg fun hl => hstays (hleaves.1 hl)]⟩

end Sys2Proof.Machine
end

