-- ==== Sys2Proof/Proofs/LoadsIssue.lean ====
section
/-! PROOF. A load of a group with no result on its way (13 R250, R251, R257): the word counts on ld and the result is on its way; nothing else happens. -/

namespace Sys2Proof.Machine

open Sys2Proof

namespace Group

variable {g : Group} {r : RegRef} {vals : Cells 32} {h L len : Nat}

/-- The result that operation h brings to a register while a window of L instructions is open. -/
def coming (h L : Nat) (r : RegRef) (vals : Cells 32) : Pend := ⟨r, 1, vals, h, false, L, if L = 0 then 0 else h, false, false⟩

/-- The results on their way once a load into r has issued: none of one into s0. -/
def loads (h L : Nat) (r : RegRef) (vals : Cells 32) : List Pend := if r = .s 0 then [] else [coming h L r vals]

/-- The group once a scalar load of len bytes has issued. -/
def loading (g : Group) (h L len : Nat) (r : RegRef) (vals : Cells 32) : Group :=
  { g with infl := g.infl ++ [⟨.ld, h, false⟩], pend := loads h L r vals, spc := g.spc + BitVec.ofNat 64 len, reissue := none,
           moved := true, stall := none }

theorem expect_idle (hi : g.Idle) : g.expect false h L [(r, 1, vals)] =
    { g with pend := if r = .s 0 then [] else [{ coming h L r vals with left := L + 1 }] } := by
  have hpend : g.pend = [] := hi
  by_cases hr : r = .s 0
  · subst hr
    simp [expect, makeRoom_idle hi, ← hpend]
  · have hfilter : [(r, (1 : LaneMask), vals)].filter (fun e => e.1 != .s 0 && e.2.1 != 0) = [(r, 1, vals)] := by simp [hr]
    rw [expect, hfilter, if_neg hr]
    simp [makeRoom_idle hi, claim_idle hi, hpend, coming]

/-- The instruction that opens a window is not counted in it. -/
theorem tick_loading : ({ g with pend := if r = .s 0 then [] else [{ coming h L r vals with left := L + 1 }] } : Group).tick false =
    { g with pend := loads h L r vals, moved := true, stall := none } := by
  unfold tick loads
  split
  · exact settle_waiting fun p hp => absurd hp List.not_mem_nil
  · have hover : (coming h L r vals).over = false := by simp [Pend.over, coming]
    change ({ g with pend := [coming h L r vals], moved := true, stall := none } : Group).settle = _
    exact settle_waiting fun p hp => List.mem_singleton.1 hp ▸ hover

theorem counter_loading (hc : g.counter .ld < 255) : (g.loading h L len r vals).counter .ld = g.counter .ld + 1 := by
  unfold counter at hc ⊢
  simp only [loading, List.filter_append, List.length_append]
  have hone : (List.filter (fun x : Infl => x.cls == .ld) [⟨.ld, h, false⟩]).length = 1 := rfl
  rw [hone]
  omega

end Group

namespace State

variable {s : State} {t i : Nat} {g : Group} {r : RegRef} {vals : Cells 32} {L len : Nat}

theorem self_group (h : s.Issuer t i g) : s.self = some (t, i, g) := by
  simp only [self, h.cur, h.here, Option.map_some]

theorem withRoom_idle (h : s.Issuer t i g) (hi : g.Idle) (d : SReg) (L : Nat) : s.withRoom d L = s := by
  rw [withRoom, h.cur]
  exact (mapGroup_some s h.here _).trans (by rw [Group.makeRoom_idle hi]; exact congrArg (fun m => { s with groups := m }) (Tab.set_get_self h.here))

/-- The operation is recorded under the next handle. -/
def filed (s : State) (o : Op) : State := { s with handles := s.handles + 1, ops := s.ops.set s.handles o }

theorem filed_sameSpaces (s : State) (o : Op) : s.SameSpaces (s.filed o) := ⟨.refl s, rfl, rfl, rfl, fun _ => rfl, fun _ => rfl⟩

/-- A load by the issuing group: it has the next handle, the group counts it and goes on. -/
theorem startLoad_advance (h : s.Issuer t i g) (hi : g.Idle) : ∃ o : Op, (o.kind = .load ∧ o.tid = t ∧ o.idx = i) ∧
    (s.startLoad t i g false L [(r, 1, vals)]).advance len =
      (s.filed o).putGroup t i (g.loading s.handles L len r vals) := by
  refine ⟨⟨t, i, s.glid t i, g.core, g.spc, g.lword, some .ld, false, .moving, none, s.clk.toNat, .load⟩, ⟨rfl, rfl, rfl⟩, ?_⟩
  let o : Op := ⟨t, i, s.glid t i, g.core, g.spc, g.lword, some .ld, false, .moving, none, s.clk.toNat, .load⟩
  have hu : (s.filed o).Issuer t i g := ⟨h.cur, h.here⟩
  have hstart : s.startLoad t i g false L [(r, 1, vals)] =
      (s.filed o).putGroup t i (({ g with infl := g.infl ++ [⟨.ld, s.handles, false⟩] } : Group).expect false s.handles L [(r, 1, vals)]) := by
    have hnew : s.newOp t i g (s.glid t i) (some .ld) .moving .load =
        (s.handles, (s.filed o).putGroup t i { g with infl := g.infl ++ [⟨.ld, s.handles, false⟩] }) := by
      simp only [newOp]
      exact congrArg (Prod.mk _) (mapGroup_some (s.filed o) h.here _)
    rw [startLoad, hnew]
    exact (mapGroup_some _ (group_putGroup ..) _).trans (putGroup_putGroup ..)
  rw [hstart, Group.expect_idle (g := { g with infl := g.infl ++ [⟨.ld, s.handles, false⟩] }) hi, advance_group (hu.put _), putGroup_putGroup]
  exact congrArg _ (Group.tick_loading
    (g := { g with infl := g.infl ++ [⟨.ld, s.handles, false⟩], spc := g.spc + BitVec.ofNat 64 len, reissue := none }))

/-- What a load that has issued leaves: the result on its way, the operation under its handle, and every byte of memory. -/
structure Loaded (s : State) (t i : Nat) (g : Group) (L len : Nat) (r : RegRef) (vals : Cells 32) (s' : State) (g' : Group) : Prop where
  here : s'.group t i = some g'
  made : g' = g.loading s.handles L len r vals
  op : ∃ o, s'.ops.get s.handles = some o ∧ o.kind = .load ∧ o.tid = t ∧ o.idx = i
  memory : s.MemorySame s'
  sound : s.Sound → s'.Sound

theorem startLoad_loaded (h : s.Issuer t i g) (hi : g.Idle) (L len : Nat) (r : RegRef) (vals : Cells 32) :
    s.Loaded t i g L len r vals ((s.startLoad t i g false L [(r, 1, vals)]).advance len) (g.loading s.handles L len r vals) := by
  obtain ⟨o, ho, hstate⟩ := startLoad_advance (L := L) (len := len) (r := r) (vals := vals) h hi
  have hmem : s.MemorySame ((s.startLoad t i g false L [(r, 1, vals)]).advance len) := by
    rw [hstate]
    exact ((s.filed_sameSpaces o).setGroup (g' := g.loading s.handles L len r vals) h.here rfl).memorySame
  exact ⟨hstate ▸ group_putGroup .., rfl, ⟨o, hstate ▸ Tab.get_set_same .., ho⟩, hmem, hstate ▸ id⟩

theorem badAddr_iff (s : State) (ax : Bool) (a n align : Nat) : s.badAddr ax a n align = true ↔ a % align ≠ 0 ∨ s.limit ax < a + n := by
  rw [badAddr, Bool.or_eq_true, bne_iff_ne, decide_eq_true_iff]

/-- An address inside its space. -/
theorem badAddr_fits {ax : Bool} {a n align : Nat} (hal : a % align = 0) (hin : a + n ≤ s.limit ax) : s.badAddr ax a n align = false := by
  rw [← Bool.not_eq_true, badAddr_iff]
  omega

theorem scalarLoad_group (h : s.Issuer t i g) (hs : s.Sound) (hi : g.Idle) (hc : g.counter .ld < 255) {a : Word} {ax : Bool} (hal : a.toNat % 4 = 0)
    (hin : a.toNat + 4 ≤ s.limit ax) (d : SReg) (L len : Nat) : s.scalarLoad d a ax L len =
      .next ((s.startLoad t i g false L [(.s d.toNat, 1, Cells.set [] 0 (s.wordAt (s.placeNow ax a.toNat)))]).advance len) := by
  have hsound := (startLoad_loaded h hi L len (.s d.toNat) (Cells.set [] 0 (s.wordAt (s.placeNow ax a.toNat)))).sound hs
  rw [scalarLoad, badAddr_fits hal hin, if_neg Bool.false_ne_true, self_group h]
  dsimp only
  rw [if_neg (Nat.not_le.2 hc), noteRead_sound _ hsound]

end State

end Sys2Proof.Machine
end

