-- ==== Sys2Proof/Proofs/LoadsComplete.lean ====
section
/-! PROOF. O13: scalar loads issue, and the data of a load reaches its registers (13 R250, R251; 02 R53-R55). A load that completes leaves everything but its
group and its operation as it was, where a group of the team runs on. -/

namespace Sys2Proof.Machine

open Sys2Proof

/-- The number whose word k is f k. -/
def wordSum (f : Nat → Word) (n : Nat) : Nat := (List.range n).foldl (fun x i => x + (f i).toNat * 2 ^ (32 * i)) 0

theorem wordSum_succ (f : Nat → Word) (n : Nat) : wordSum f (n + 1) = wordSum f n + (f n).toNat * 2 ^ (32 * n) := by
  rw [wordSum, List.range_succ, List.foldl_append]
  rfl

theorem wordSum_lt (f : Nat → Word) (n : Nat) : wordSum f n < 2 ^ (32 * n) := by
  induction n with
  | zero => exact Nat.one_pos
  | succ n ih =>
    have hword : (f n).toNat + 1 ≤ 2 ^ 32 := (f n).isLt
    calc wordSum f (n + 1) < 2 ^ (32 * n) + (f n).toNat * 2 ^ (32 * n) := by rw [wordSum_succ]; omega
      _ = ((f n).toNat + 1) * 2 ^ (32 * n) := by ring
      _ ≤ 2 ^ 32 * 2 ^ (32 * n) := Nat.mul_le_mul_right _ hword
      _ = 2 ^ (32 * (n + 1)) := by rw [← pow_add]; congr 1; omega

/-- Each word of it. -/
theorem wordSum_word (f : Nat → Word) {n k : Nat} (hk : k < n) : wordSum f n / 2 ^ (32 * k) % 2 ^ 32 = (f k).toNat := by
  induction n with
  | zero => exact absurd hk (Nat.not_lt_zero k)
  | succ n ih =>
    rw [wordSum_succ]
    rcases Nat.lt_succ_iff_lt_or_eq.1 hk with hlt | rfl
    · obtain ⟨d, rfl⟩ := Nat.exists_eq_add_of_lt hlt
      have hpow : (f (k + d + 1)).toNat * 2 ^ (32 * (k + d + 1)) = (f (k + d + 1)).toNat * 2 ^ (32 * d) * 2 ^ 32 * 2 ^ (32 * k) := by ring
      rw [hpow, Nat.add_mul_div_right _ _ (by positivity), Nat.add_mul_mod_self_right, ih hlt]
    · rw [Nat.add_mul_div_right _ _ (by positivity), Nat.div_eq_of_lt (wordSum_lt f k), Nat.zero_add, Nat.mod_eq_of_lt (f k).isLt]

theorem extract_wordSum (f : Nat → Word) {n k : Nat} (hk : k < n) : (BitVec.ofNat (32 * n) (wordSum f n)).extractLsb' (32 * k) 32 = f k := by
  refine BitVec.eq_of_toNat_eq ?_
  rw [BitVec.extractLsb'_toNat, BitVec.toNat_ofNat, Nat.mod_eq_of_lt (wordSum_lt f n), Nat.shiftRight_eq_div_pow, wordSum_word f hk]

namespace Group

variable {g : Group} {h r n : Nat}

/-- Values are put in the lanes of a register. -/
def putRow (r : Nat) (m : LaneMask) (vals : Cells 32) (v : Cells 32) : Cells 32 := (lanesOf m).foldl (fun v l => v.set (96 * r + l) (vals.get l)) v

/-- Values are put in the lanes of n registers. -/
def putRows (r : Nat) (m : LaneMask) (vals : Nat → Cells 32) (v : Cells 32) (n : Nat) : Cells 32 :=
  (List.range n).foldl (fun v j => putRow (r + j) m (vals j) v) v

theorem putRows_succ (r : Nat) (m : LaneMask) (vals : Nat → Cells 32) (v : Cells 32) (n : Nat) :
    putRows r m vals v (n + 1) = putRow (r + n) m (vals n) (putRows r m vals v n) := by
  rw [putRows, List.range_succ, List.foldl_append]
  rfl

theorem putRows_wf {v : Cells 32} (hv : v.wf = true) (r : Nat) (m : LaneMask) (vals : Nat → Cells 32) (n : Nat) : (putRows r m vals v n).wf = true := by
  induction n with
  | zero => exact hv
  | succ n ih => exact putRows_succ r m vals v n ▸ wf_foldl_set _ _ _ _ ih

theorem get_putRows {v : Cells 32} (hv : v.wf = true) (r : Nat) (m : LaneMask) (vals : Nat → Cells 32) (n q : Nat) {l : Nat} (hl : l < 96) :
    (putRows r m vals v n).get (96 * q + l) = if r ≤ q ∧ q < r + n ∧ m.getLsbD l = true then (vals (q - r)).get l else v.get (96 * q + l) := by
  induction n with
  | zero => exact (if_neg (by omega)).symm
  | succ n ih =>
    rw [putRows_succ, putRow, get_foldl_lanesOf (putRows_wf hv r m vals n) _ _ _ _ hl, ih]
    by_cases hq : q = r + n
    · subst hq
      simp
    · have hlast : q < r + (n + 1) ↔ q < r + n := by omega
      rw [if_neg fun hrow => hq hrow.1]
      simp only [hlast]

/-! ### The results of one operation come -/

theorem arrive_results (g : Group) (h : Nat) : g.SameButResults (g.arrive h) :=
  SameButResults.trans (g' := { g with pend := _ }) rfl (settle_results _)

/-- Where every result on its way is one of the operation and no window is open, each is written in turn. -/
theorem arrive_closed (hop : ∀ p ∈ g.pend, p.op = h ∧ p.left = 0) :
    g.arrive h = (g.pend.map fun p => { p with here := true }).foldl apply { g with pend := [] } := by
  have hmap : (g.pend.map fun (p : Pend) => if p.op == h then { p with here := true } else p) = g.pend.map fun p => { p with here := true } :=
    List.map_congr_left fun p hp => if_pos (beq_iff_eq.2 (hop p hp).1)
  have hover : ∀ p ∈ g.pend.map fun p => { p with here := true }, p.over = true := fun p hp => by
    obtain ⟨q, hq, rfl⟩ := List.mem_map.1 hp
    simp [Pend.over, (hop q hq).2]
  have hnone : ((g.pend.map fun p => { p with here := true }).filter fun (p : Pend) => !p.over) = [] :=
    List.filter_eq_nil_iff.2 fun p hp => by simp [hover p hp]
  rw [arrive, settle, hmap]
  dsimp only
  rw [List.filter_eq_self.2 hover, hnone]

/-- In a window that is open the data waits. -/
theorem arrive_open (hop : ∀ p ∈ g.pend, p.op = h ∧ 0 < p.left) : g.arrive h = { g with pend := g.pend.map fun p => { p with here := true } } := by
  have hmap : (g.pend.map fun (p : Pend) => if p.op == h then { p with here := true } else p) = g.pend.map fun p => { p with here := true } :=
    List.map_congr_left fun p hp => if_pos (beq_iff_eq.2 (hop p hp).1)
  rw [arrive, hmap]
  refine settle_waiting fun p hp => ?_
  obtain ⟨q, hq, rfl⟩ := List.mem_map.1 hp
  have hleft : q.left ≠ 0 := (hop q hq).2.ne'
  simp [Pend.over, hleft]

theorem apply_scalar (hr : r ≠ 0) (p : Pend) (hp : p.reg = .s r) (hm : p.lanes ≠ 0) : g.apply p = { g with s := g.s.set r (p.vals.get 0) } := by
  rw [apply, hp]
  exact if_neg (by rw [Bool.or_eq_true, decide_eq_true_iff, decide_eq_true_iff]; exact not_or.2 ⟨hr, hm⟩)

theorem apply_shape (p : Pend) (hp : p.reg = .sh n) (hm : p.lanes ≠ 0) :
    g.apply p = { g with sh := g.sh.set n (BitVec.ofNat 512 (wordSum p.vals.get 16)) } := by
  rw [apply, hp]
  exact if_neg hm

theorem apply_vector (hb : g.badV = []) (hd : g.deferred r = false) (p : Pend) (hp : p.reg = .v r) :
    g.apply p = { g with v := putRow r p.lanes p.vals g.v } := by
  have hfree : (if (p.form || p.lanes = 0) then g else g.freeTag r) = g := by rw [freeTag, hd, if_neg Bool.false_ne_true, ite_self]
  rw [apply, hp]
  dsimp only
  rw [hfree, putLanes_plain hb hd]
  rfl

theorem foldl_apply_vectors (hb : g.badV = []) (hd : ∀ q, g.deferred q = false) (r : Nat) (m : LaneMask) (vals : Nat → Cells 32) (h n : Nat) :
    ((List.range n).map fun j => (⟨.v (r + j), m, vals j, h, true, 0, 0, true, false⟩ : Pend)).foldl apply g =
      { g with v := putRows r m vals g.v n } := by
  induction n with
  | zero => rfl
  | succ n ih =>
    have hd' : ({ g with v := putRows r m vals g.v n } : Group).deferred (r + n) = false := hd (r + n)
    rw [List.range_succ, List.map_append, List.foldl_append, ih, putRows_succ]
    exact apply_vector (g := { g with v := putRows r m vals g.v n }) hb hd' ⟨.v (r + n), m, vals n, h, true, 0, 0, true, false⟩ rfl

theorem arrive_scalar {v : Word} (hr : r ≠ 0) (hp : g.pend = [⟨.s r, 1, Cells.set [] 0 v, h, false, 0, 0, false, false⟩]) :
    g.arrive h = { g with pend := [], s := g.s.set r v } := by
  have hval : (Cells.set [] 0 v).get 0 = v := Cells.get_set_same rfl 0 v
  rw [arrive_closed (h := h) (by simp [hp]), hp]
  refine (apply_scalar (g := { g with pend := [] }) hr ⟨.s r, 1, Cells.set [] 0 v, h, false, 0, 0, true, false⟩ rfl (show (1 : LaneMask) ≠ 0 by decide)).trans ?_
  dsimp only
  rw [hval]

theorem arrive_vectors {m : LaneMask} {vals : Nat → Cells 32} (hb : g.badV = []) (hd : ∀ q, g.deferred q = false)
    (hp : g.pend = (List.range n).map fun j => ⟨.v (r + j), m, vals j, h, true, 0, 0, false, false⟩) :
    g.arrive h = { g with pend := [], v := putRows r m vals g.v n } := by
  rw [arrive_closed (h := h) (by simp [hp]), hp, List.map_map]
  exact foldl_apply_vectors (g := { g with pend := [] }) hb hd r m vals h n

theorem arrive_shape {vals : Cells 32} (hp : g.pend = [⟨.sh n, 1, vals, h, false, 0, 0, false, false⟩]) :
    g.arrive h = { g with pend := [], sh := g.sh.set n (BitVec.ofNat 512 (wordSum vals.get 16)) } := by
  rw [arrive_closed (h := h) (by simp [hp]), hp]
  exact apply_shape (g := { g with pend := [] }) ⟨.sh n, 1, vals, h, false, 0, 0, true, false⟩ rfl (show (1 : LaneMask) ≠ 0 by decide)

/-- A register that no result on its way belongs to is read as it stands. -/
theorem readS_awaited {q : Nat} (hp : ∀ p ∈ g.pend, p.reg ≠ .s q) : g.readS false q = if q = 0 then 0 else g.s.get q := by
  have hnone : (g.pend.find? fun p => p.reg == .s q && p.lanes != 0 && p.seen false) = none :=
    List.find?_eq_none.2 fun p hin => by simp [hp p hin]
  rw [readS, hnone]

/-- The one operation of a group that counts no other leaves its counter at zero. -/
theorem counter_opDone (hinfl : g.infl = [⟨.ld, h, false⟩]) (hadj : g.cntAdj = []) : (g.opDone h).counter .ld = 0 := by
  have hnone : (g.opDone h).infl = [] := by simp [opDone, hinfl, leave]
  have hadj' : (g.opDone h).cntAdj = [] := hadj
  rw [counter, hnone, hadj']
  rfl

end Group

namespace State

variable {s : State} {t i h : Nat} {g : Group} {x : Team} {o : Op}

/-- Where a group of the team runs on, what follows a load that ends leaves it, the operations and every byte of memory. -/
theorem settleTaken_running (hw : Tab.wf s.groups = true) (hx : s.team t = some x) (hk : x.killing = false) (ha : x.asms = []) (hi : i < 64)
    (hg : s.group t i = some g) (he : g.ended = false) (hwait : g.wait = none) :
    (s.settleTaken t).group t i = some g ∧ (s.settleTaken t).ops = s.ops ∧ s.SameSpaces (s.settleTaken t) := by
  have hb := barrierCheck_sameButGroups s x.grid
  have hgroup := barrierCheck_awake hw hg hwait x.grid
  have hbh := mem_groupsOf_of_group hi hgroup
  obtain ⟨l, hr⟩ := retireCheck_running (t := t) (x := x) (by rw [hb]; exact hx) hk hbh he
  have htidy : s.tidyTeam t = { s.barrierCheck x.grid with trackers := l } := (tidyTeam_whole hx ha).trans hr
  have hcalm : (s.tidyTeam t).checkDeadlock t = s.tidyTeam t := checkDeadlock_running (h := g) (by rw [htidy]; exact hbh) he hwait
  have htaken : s.settleTaken t = { s.barrierCheck x.grid with trackers := l } := by
    rw [settleTaken, hcalm]
    dsimp only
    rw [ite_self, htidy]
  have hspaces : s.SameSpaces (s.barrierCheck x.grid) := by
    rw [barrierCheck_eq hw]
    exact sweep_sameSpaces hw fun g => Group.advance_spill ..
  rw [htaken]
  exact ⟨hgroup, by rw [hb], hspaces.trans ⟨.refl _, rfl, rfl, rfl, fun _ => rfl, fun _ => rfl⟩⟩

/-- The data of a load comes to a running group: its results arrive, the load leaves ld, and nothing else of memory or operations changes. -/
theorem exec_laneLoadComplete (how : Tab.wf s.ops = true) (ho : s.ops.get h = some o) (hload : o.kind = .load) (hot : o.tid = t) (hoi : o.idx = i)
    (hw : Tab.wf s.groups = true) (hg : s.group t i = some g) (hi : i < 64) (hx : s.team t = some x) (hk : x.killing = false) (ha : x.asms = [])
    (he : g.ended = false) (hwait : g.wait = none) :
    ∃ s', exec (.laneLoadComplete h) s = .next s' ∧ s'.group t i = some ((g.arrive h).opDone h) ∧ s'.ops.get h = none ∧ s.MemorySame s' := by
  subst hot hoi
  have hexec : exec (.laneLoadComplete h) s = execLaneLoadComplete h s := rfl
  have hsame := Group.arrive_results g h
  have hended : (g.arrive h).ended = false := by rw [hsame]; exact he
  have hawake : (g.arrive h).wait = none := by rw [hsame]; exact hwait
  have hspill : ((g.arrive h).opDone h).spill = g.spill := by
    change (g.arrive h).spill = g.spill
    rw [hsame]
  let u : State := { s with ops := s.ops.del h }
  have hleft := mapGroup_leaveCounter (s := u) (t := o.tid) (i := o.idx) hg (f := fun g => g.arrive h) hended hawake h
  let y : State := u.putGroup o.tid o.idx ((g.arrive h).opDone h)
  obtain ⟨hgroup, hops, hspaces⟩ := settleTaken_running (s := y) (Tab.set_wf hw _ _) hx hk ha hi (group_putGroup ..) hended hawake
  have hput : s.SameSpaces y :=
    SameSpaces.setGroup (s' := u) (g' := (g.arrive h).opDone h) ⟨.refl s, rfl, rfl, rfl, fun _ => rfl, fun _ => rfl⟩ hg hspill
  refine ⟨y.settleTaken o.tid, ?_, hgroup, ?_, (hput.trans hspaces).memorySame⟩
  · rw [hexec, execLaneLoadComplete, ho]
    dsimp only
    rw [hload]
    exact congrArg (fun z => Host.Outcome.next (State.settleTaken z o.tid)) hleft
  · rw [hops]
    exact Tab.get_del_same how h

end State

/-- Settles O13: the loads by what an idle group's load leaves (`State.startLoad_loaded`), the completion by what `Group.arrive` does to the results named. -/
theorem scalarLoadsComplete : Obligations.ScalarLoadsComplete := by
  unfold Obligations.ScalarLoadsComplete
  refine ⟨fun s t i g d a im la sc ax h hs hi hc hla => ?issue,
    fun s t i h g x o how ho hload hot hoi hw hg hidx hi hx hk ha he hwait hinfl hadj => ?complete⟩
  case issue =>
    intro fits loads off
    have hloads (ins : Instr) (y : Word) (L len : Nat) (hexec : exec ins s = s.scalarLoad d y ax L len) (hy : fits y.toNat) : loads ins y.toNat L len := by
      have hl := State.startLoad_loaded h hi L len (.s d.toNat) (Cells.set [] 0 (s.wordAt (s.placeNow ax y.toNat)))
      refine ⟨_, _, hexec.trans (State.scalarLoad_group h hs hi hc hy.1 hy.2 d L len), hl.here, rfl, rfl, Group.counter_loading hc, ?_, hl.op, hl.memory⟩
      simp only [Group.loading, Group.loads, RegRef.s.injEq]
      rfl
    have hplain (b : Bool) (len : Nat) : s.issuing (if s.held [d, a] then .next s else s.scalarLoad d (s.sreg a + im.val) b 0 len) =
        s.scalarLoad d (s.sreg a + im.val) b 0 len := by
      rw [State.issuing_of_present (State.present_group h), State.held_idle h hi, if_neg Bool.false_ne_true]
    refine ⟨fun hax hoff => hloads _ _ 0 _ ?_ hoff, fun hax hoff => hloads _ _ 0 _ ?_ hoff, fun hfit => hloads _ _ la 4 ?_ hfit⟩
    · subst hax
      exact hplain false _
    · subst hax
      exact hplain true _
    · have hL : (BitVec.ofNat 4 la).toNat = la := Nat.mod_eq_of_lt hla
      have hexec : exec (.sldAcq d a ax (BitVec.ofNat 2 sc) (BitVec.ofNat 4 la)) s = execSldAcq d a ax (BitVec.ofNat 2 sc) (BitVec.ofNat 4 la) s := rfl
      rw [hexec, execSldAcq, hL, State.withRoom_idle h hi, State.issuing_of_present (State.present_group h), State.held_idle h hi, if_neg Bool.false_ne_true]
  case complete =>
    intro ends
    obtain ⟨s', hnext, hgroup, hgone, hmem⟩ := State.exec_laneLoadComplete how ho hload hot hoi hw hg hi hx hk ha he hwait
    have hends (f : Group → Prop) (hf : f ((g.arrive h).opDone h)) : ends f := by
      have hsame := Group.arrive_results g h
      have hcount := Group.counter_opDone (g := g.arrive h) (h := h) (by rw [hsame]; exact hinfl) (by rw [hsame]; exact hadj)
      exact ⟨s', _, hnext, hgroup, hcount, hgone, hmem, hf⟩
    refine ⟨fun r v hwf hr hp => hends _ ?_, fun n r m vals hwf hb hd hp => hends _ ?_, fun n r left win m vals hleft hp => hends _ ?_,
      fun n vals hwf hp => hends _ ?_⟩
    · rw [Group.arrive_scalar hr hp]
      have hread (q : Nat) : (({ g with pend := [], s := g.s.set r v } : Group).opDone h).readS false q = if q = 0 then 0 else (g.s.set r v).get q :=
        Group.readS_idle (g := ({ g with pend := [], s := g.s.set r v } : Group).opDone h) rfl false q
      have hkept (q : Nat) (hq : q ≠ r) : g.readS false q = if q = 0 then 0 else g.s.get q :=
        Group.readS_awaited fun p hin => by simpa [List.mem_singleton.1 (hp ▸ hin)] using hq.symm
      refine ⟨rfl, ?_, fun q hq => ?_, rfl, rfl, rfl⟩
      · rw [hread, if_neg hr, Cells.get_set_same hwf]
      · rw [hread, hkept q hq, Cells.get_set_ne hq hwf]
    · rw [Group.arrive_vectors hb hd hp]
      exact ⟨rfl, fun q l hl => Group.get_putRows hwf r m vals n q hl, rfl, rfl, rfl⟩
    · rw [Group.arrive_open (h := h) (by rw [hp]; simpa using fun _ _ => hleft), hp, List.map_map]
      exact ⟨rfl, rfl, rfl⟩
    · rw [Group.arrive_shape hp]
      refine ⟨rfl, fun k hk => ?_, fun q hq => Cells.get_set_ne hq hwf _, rfl, rfl, rfl⟩
      have hreg : (g.sh.set n (BitVec.ofNat 512 (wordSum vals.get 16))).get n = BitVec.ofNat 512 (wordSum vals.get 16) := Cells.get_set_same hwf n _
      have hword := extract_wordSum vals.get (n := 16) hk
      rw [← hreg] at hword
      exact hword

end Sys2Proof.Machine
end

