-- ==== Sys2Proof/Proofs/ShapeWords.lean ====
section
/-! PROOF. O16: shld issues as a load of 64 bytes, shset replaces the bits of its field (13 R257, R258). -/

namespace Sys2Proof.Machine

open Sys2Proof

/-- Bit j after len bits at lo have been replaced. -/
theorem getLsbD_setBits {w : Nat} (x : BitVec w) (lo len v : Nat) {j : Nat} (hj : j < w) :
    (setBits x lo len v).getLsbD j = if lo ≤ j ∧ j < lo + len then v.testBit (j - lo) else x.getLsbD j := by
  have hsub : j - lo < w := Nat.lt_of_le_of_lt (Nat.sub_le j lo) hj
  simp only [setBits, BitVec.getLsbD_or, BitVec.getLsbD_and, BitVec.getLsbD_not, BitVec.getLsbD_shiftLeft, BitVec.getLsbD_ofNat, hj, hsub, decide_true,
    Bool.true_and, Nat.testBit_two_pow_sub_one, Nat.testBit_mod_two_pow]
  by_cases hlo : j < lo
  · have hout : ¬(lo ≤ j ∧ j < lo + len) := fun h => absurd h.1 (Nat.not_le.2 hlo)
    simp [hlo, hout]
  · have hin : j - lo < len ↔ j < lo + len := by omega
    by_cases hlen : j < lo + len
    · simp [hlo, hin, hlen, Nat.le_of_not_lt hlo]
    · simp [hlo, hin, hlen]

/-- The field codes below 16 name a field. -/
theorem shSet_eq {f : Nat} (hf : f < 16) (x : ShapeBits) (v : DWord) : shSet x f v = setBits x (shField f).1 (shField f).2 v.toNat := by
  interval_cases f <;> rfl

/-- A word is the extension of its low 48 bits where it is within their range. -/
theorem eq_signExtend48 (v : DWord) : v = (v.setWidth 48).signExtend 64 ↔ -(2 : Int) ^ 47 ≤ v.toInt ∧ v.toInt < 2 ^ 47 := by
  have hn : v.toNat < 2 ^ 64 := v.isLt
  rw [← BitVec.toInt_inj, BitVec.toInt_signExtend_of_le (by decide), BitVec.toInt_setWidth, BitVec.toInt_eq_toNat_cond, Int.bmod]
  split_ifs <;> omega

/-- The field of code f takes the value (13 R258). -/
def ShTakes (f : Nat) (v : DWord) : Prop :=
  if 9 ≤ f ∧ f ≤ 13 then -(2 : Int) ^ 47 ≤ v.toInt ∧ v.toInt < 2 ^ 47 else if f = 3 then v.toNat < 16 else v.toNat < 2 ^ (shField f).2

theorem shTooWide_iff {f : Nat} (hf : f < 16) {v : DWord} (hv : shPair f = false → v.toNat < 2 ^ 32) : shTooWide f v = true ↔ ¬ShTakes f v := by
  by_cases hlong : 9 ≤ f ∧ f ≤ 13
  · have hrange : (decide (9 ≤ f) && decide (f ≤ 13)) = true := by simp [hlong]
    have hcode : f ≠ 1 ∧ f ≠ 2 ∧ f ≠ 3 ∧ f ≠ 14 ∧ f ≠ 15 := by omega
    obtain ⟨h1, h2, h3, h14, h15⟩ := hcode
    rw [shTooWide, if_neg h1, if_neg h2, if_neg h3, if_neg h14, if_neg h15, if_pos hrange, ShTakes, if_pos hlong, ← eq_signExtend48, bne_iff_ne]
  · have hlt : v.toNat < 2 ^ 64 := v.isLt
    have hcode : f = 0 ∨ f = 1 ∨ f = 2 ∨ f = 3 ∨ 4 ≤ f ∧ f ≤ 8 ∨ f = 14 ∨ f = 15 := by omega
    rw [ShTakes, if_neg hlong]
    have hshort (b : Nat) : decide (b < v.toNat) = true ↔ ¬v.toNat < b + 1 := by rw [decide_eq_true_iff]; omega
    rcases hcode with rfl | rfl | rfl | rfl | h48 | rfl | rfl
    · exact iff_of_false Bool.false_ne_true (not_not_intro hlt)
    · exact hshort 255
    · exact hshort 65535
    · exact hshort 15
    · obtain ⟨h4, h8⟩ := h48
      interval_cases f <;> exact iff_of_false Bool.false_ne_true (not_not_intro (hv rfl))
    · exact hshort 255
    · exact hshort 15

namespace State

variable {s : State} {t i : Nat} {g : Group}

/-- The value that shset takes (13 R258). -/
def shSource (s : State) (f : Nat) (a : SReg) : DWord := if shPair f then s.spair a else (s.sreg a).setWidth 64

theorem shSource_lt (s : State) {f : Nat} (a : SReg) (hp : shPair f = false) : (s.shSource f a).toNat < 2 ^ 32 := by
  rw [shSource, hp, if_neg Bool.false_ne_true, BitVec.toNat_setWidth]
  exact Nat.lt_of_le_of_lt (Nat.mod_le _ _) (s.sreg a).isLt

theorem writeSh_idle (hi : g.Idle) (n : Nat) (f : ShapeBits → ShapeBits) : g.writeSh n f = { g with sh := g.sh.set n (f (g.sh.get n)) } := by
  rw [Group.writeSh, Group.claim_idle hi]

/-- The group once a scalar word of four bytes has set a shape register. -/
def shaped (g : Group) (n : Nat) (x : ShapeBits) : Group := { g with sh := g.sh.set n x, spc := g.spc + 4, reissue := none, moved := true, stall := none }

theorem advance_writeSh (hi : g.Idle) (n : Nat) (f : ShapeBits → ShapeBits) : (g.writeSh n f).advance 4 = shaped g n (f (g.sh.get n)) := by
  rw [writeSh_idle hi]
  exact Group.tick_idle (g := { g with sh := g.sh.set n (f (g.sh.get n)), spc := g.spc + 4, reissue := none }) hi false

/-- The sixteen words that shld reads at x. -/
def shWords (s : State) (ax : Bool) (x : Nat) : Cells 32 := (List.range 16).foldl (fun c k => c.set k (s.wordAt ((s.placeNow ax x).plus (4 * k)))) []

theorem get_shWords (s : State) (ax : Bool) (x : Nat) {k : Nat} (hk : k < 16) : (s.shWords ax x).get k = s.wordAt ((s.placeNow ax x).plus (4 * k)) := by
  have hget := Group.get_foldl_lanes (List.range 16) 0 (fun k => s.wordAt ((s.placeNow ax x).plus (4 * k))) [] rfl k (List.mem_range.2 hk)
  simpa only [shWords, Nat.mul_zero, Nat.zero_add] using hget

theorem exec_shld (h : s.Issuer t i g) (hi : g.Idle) (ax : Bool) (n : ShReg) (a : SReg) (im : Imm) : exec (.shld ax n a im) s =
    if s.badAddr ax (s.sreg a + im.val).toNat 64 64 then .next (s.raiseNow .address { faddr := faddrOf ax (s.sreg a + im.val).toNat })
    else if 255 ≤ g.counter .ld then .next s
    else .next (((s.startLoad t i g false 0 [(.sh n.toNat, 1, s.shWords ax (s.sreg a + im.val).toNat)]).advance (immLen im)).noteRead
      (s.placeNow ax (s.sreg a + im.val).toNat) 64 g.core (some (t, some i))) := by
  have hexec : exec (.shld ax n a im) s = execShld ax n a im s := rfl
  rw [hexec, execShld, byGroup_group h, held_idle h hi, Group.blocked_idle hi]
  rfl

section

variable (h : s.Issuer t i g) (n : ShReg) (a : SReg) (f : BitVec 7)

include h

theorem exec_shset_odd (hp : shPair f.toNat = true) (ha : a.toNat % 2 = 1) : exec (.shset n a f) s = .next (s.raiseNow .illegalRegister) := by
  have hexec : exec (.shset n a f) s = execShset n a f s := rfl
  rw [hexec, execShset, byGroup_group h]
  dsimp only
  rw [hp, ha]
  rfl

theorem exec_shset (hi : g.Idle) (hp : shPair f.toNat = true → a.toNat % 2 = 0) : exec (.shset n a f) s =
    if shTooWide f.toNat (s.shSource f.toNat a) then .next (s.raiseNow .illegalOperand)
    else .next (s.putGroup t i (shaped g n.toNat (shSet (g.sh.get n.toNat) f.toNat (s.shSource f.toNat a)))) := by
  have hexec : exec (.shset n a f) s = execShset n a f s := rfl
  have heven : (shPair f.toNat && a.toNat % 2 == 1) = false := by
    cases hpair : shPair f.toNat with
    | false => rfl
    | true => rw [hp hpair]; rfl
  rw [hexec, execShset, byGroup_group h]
  dsimp only
  rw [heven, held_idle h hi, Group.blocked_idle hi, advance_writeSh hi]
  rfl

end

end State

/-- Settles O16: shld by what an idle group's load leaves (`State.startLoad_loaded`), shset by the bits that `setBits` replaces. -/
theorem shapeWordsComplete : Obligations.ShapeWordsComplete := by
  unfold Obligations.ShapeWordsComplete
  refine ⟨fun s t i g ax n a im h hs hi hc => ?load, fun s t i g n a f h hi hwf => ?set⟩
  case load =>
    intro x
    have hx : x < 2 ^ 60 := Nat.lt_of_lt_of_le (s.sreg a + im.val).isLt (by decide)
    refine ⟨fun hbad => ?_, fun hal hin => ?_⟩
    · rw [State.exec_shld h hi, if_pos ((State.badAddr_iff ..).2 hbad), State.faddrOf, Nat.mod_eq_of_lt hx]
    · have hl := State.startLoad_loaded h hi 0 (immLen im) (.sh n.toNat) (State.shWords s ax x)
      refine ⟨_, _, State.shWords s ax x, ?_, hl.here, rfl, Group.counter_loading hc, rfl, fun k hk => State.get_shWords s ax x hk, rfl, hl.memory⟩
      rw [State.exec_shld h hi, State.badAddr_fits hal hin, if_neg Bool.false_ne_true, if_neg (Nat.not_le.2 hc), State.noteRead_sound _ (hl.sound hs)]
  case set =>
    intro pair v takes
    have hwide (hf : f.toNat < 16) : shTooWide f.toNat (s.shSource f.toNat a) = true ↔ ¬takes := shTooWide_iff hf (s.shSource_lt a)
    have hput (hnot : shTooWide f.toNat (s.shSource f.toNat a) = false) (heven : shPair f.toNat = true → a.toNat % 2 = 0) : exec (.shset n a f) s =
        .next (s.putGroup t i (State.shaped g n.toNat (shSet (g.sh.get n.toNat) f.toNat (s.shSource f.toNat a)))) := by
      rw [State.exec_shset h n a f hi heven, hnot, if_neg Bool.false_ne_true]
    refine ⟨State.exec_shset_odd h n a f, fun heven => ⟨fun hf htakes => ?_, fun hf htakes => ?_, fun hf => ?_⟩⟩
    · have hnot : shTooWide f.toNat (s.shSource f.toNat a) = false := (Bool.not_eq_true _).mp fun hw => (hwide hf).1 hw htakes
      refine ⟨_, hput hnot heven, rfl, fun j hj => ?_, fun m hm => Cells.get_set_ne hm hwf _, rfl⟩
      refine (congrArg (BitVec.getLsbD · j) (Cells.get_set_same hwf _ _)).trans ?_
      rw [shSet_eq hf, getLsbD_setBits _ _ _ _ hj]
      rfl
    · rw [State.exec_shset h n a f hi heven, if_pos ((hwide hf).2 htakes)]
    · have hnot : shTooWide f.toNat (s.shSource f.toNat a) = false := by rw [hf]; rfl
      refine ⟨_, hput hnot heven, rfl, ?_, fun m hm => Cells.get_set_ne hm hwf _⟩
      refine (Cells.get_set_same hwf _ _).trans ?_
      rw [hf]
      rfl

end Sys2Proof.Machine
end

