-- ==== Sys2Proof/Proofs/ScalarWords.lean ====
section
/-! PROOF. O1-O3: the scalar integer words (13 R247-R249). Each operation of the model is the arithmetic of the spec's table; the words are one frame. -/

namespace Sys2Proof.Machine

open Sys2Proof

/-! ### The operations -/

section

variable (x y : Word)

theorem opAdd_eq : opAdd x y = BitVec.ofNat 32 (x.toNat + y.toNat) := BitVec.eq_of_toNat_eq (by rw [opAdd, BitVec.toNat_add, BitVec.toNat_ofNat])

theorem opSub_eq : opSub x y = BitVec.ofInt 32 (x.toInt - y.toInt) := BitVec.eq_of_toInt_eq (by rw [opSub, BitVec.toInt_sub, BitVec.toInt_ofInt])

theorem opMul_eq : opMul x y = BitVec.ofNat 32 (x.toNat * y.toNat) := BitVec.eq_of_toNat_eq (by rw [opMul, BitVec.toNat_mul, BitVec.toNat_ofNat])

theorem opMulh_eq : opMulh x y = BitVec.ofInt 32 (x.toInt * y.toInt / 2 ^ 32) := by
  have hprod : x.signExtend 64 * y.signExtend 64 = BitVec.ofInt 64 (x.toInt * y.toInt) := BitVec.eq_of_toInt_eq (by
    rw [BitVec.toInt_mul, BitVec.toInt_ofInt, BitVec.toInt_signExtend_of_le (by decide), BitVec.toInt_signExtend_of_le (by decide)])
  rw [opMulh, hprod]
  generalize x.toInt * y.toInt = p
  refine BitVec.eq_of_toNat_eq ?_
  rw [BitVec.extractLsb'_toNat, Nat.shiftRight_eq_div_pow, BitVec.toNat_ofInt, BitVec.toNat_ofInt]
  omega

theorem opMulhu_eq : opMulhu x y = BitVec.ofNat 32 (x.toNat * y.toNat / 2 ^ 32) := by
  have hx : (x.setWidth 64).toNat = x.toNat := BitVec.toNat_setWidth_of_le (by decide)
  have hy : (y.setWidth 64).toNat = y.toNat := BitVec.toNat_setWidth_of_le (by decide)
  refine BitVec.eq_of_toNat_eq ?_
  rw [opMulhu, BitVec.extractLsb'_toNat, Nat.shiftRight_eq_div_pow, BitVec.toNat_mul, hx, hy, BitVec.toNat_ofNat]
  generalize x.toNat * y.toNat = p
  omega

end

/-- A word moved left, the bits beyond it lost. -/
theorem shiftLeft_eq_ofNat {w : Nat} (x : BitVec w) (n : Nat) : x <<< n = BitVec.ofNat w (x.toNat * 2 ^ n) :=
  BitVec.eq_of_toNat_eq (by rw [BitVec.toNat_shiftLeft, Nat.shiftLeft_eq, BitVec.toNat_ofNat])

theorem ushiftRight_eq_ofNat {w : Nat} (x : BitVec w) (n : Nat) : x >>> n = BitVec.ofNat w (x.toNat / 2 ^ n) := by
  rw [← Nat.shiftRight_eq_div_pow, ← BitVec.toNat_ushiftRight, BitVec.ofNat_toNat, BitVec.setWidth_eq]

theorem sshiftRight_eq_ofInt {w : Nat} (x : BitVec w) (n : Nat) : x.sshiftRight n = BitVec.ofInt w (x.toInt / 2 ^ n) := by
  rw [BitVec.sshiftRight, Int.shiftRight_eq_div_pow]
  norm_cast

section

variable (x y : Word)

theorem opShl_eq : opShl x y = if y.toNat < 32 then BitVec.ofNat 32 (x.toNat * 2 ^ y.toNat) else 0 := by rw [opShl, shiftLeft_eq_ofNat]

theorem opShr_eq : opShr x y = if y.toNat < 32 then BitVec.ofNat 32 (x.toNat / 2 ^ y.toNat) else 0 := by rw [opShr, ushiftRight_eq_ofNat]

theorem opSra_eq : opSra x y = BitVec.ofInt 32 (x.toInt / 2 ^ min y.toNat 31) := sshiftRight_eq_ofInt x _

/-! The lesser and the greater of two words: of equal numbers either, since they are one word. -/

theorem opMin_eq : opMin x y = if x.toInt < y.toInt then x else y := by
  unfold opMin
  rcases lt_trichotomy x.toInt y.toInt with hlt | heq | hgt
  · rw [if_pos hlt.le, if_pos hlt]
  · rw [BitVec.toInt_inj.1 heq, ite_self, ite_self]
  · rw [if_neg hgt.not_ge, if_neg hgt.not_gt]

theorem opMax_eq : opMax x y = if x.toInt < y.toInt then y else x := by
  unfold opMax
  rcases lt_trichotomy x.toInt y.toInt with hlt | heq | hgt
  · rw [if_pos hlt.le, if_pos hlt]
  · rw [BitVec.toInt_inj.1 heq, ite_self, ite_self]
  · rw [if_neg hgt.not_ge, if_neg hgt.not_gt]

theorem opPopc_eq : opPopc x = BitVec.ofNat 32 ((List.range 32).countP fun k => x.getLsbD k) := by rw [opPopc, popCount, List.countP_eq_length_filter]

/-- A shift amount of a word with an immediate. -/
theorem toNat_shiftImm (n : BitVec 5) : (n.setWidth 32).toNat = n.toNat := BitVec.toNat_setWidth_of_le (by decide)

theorem opShl_imm (n : BitVec 5) : opShl x (n.setWidth 32) = BitVec.ofNat 32 (x.toNat * 2 ^ n.toNat) := by
  rw [opShl_eq, toNat_shiftImm, if_pos n.isLt]

theorem opShr_imm (n : BitVec 5) : opShr x (n.setWidth 32) = BitVec.ofNat 32 (x.toNat / 2 ^ n.toNat) := by
  rw [opShr_eq, toNat_shiftImm, if_pos n.isLt]

theorem opSra_imm (n : BitVec 5) : opSra x (n.setWidth 32) = BitVec.ofInt 32 (x.toInt / 2 ^ n.toNat) := by
  rw [opSra_eq, toNat_shiftImm, Nat.min_eq_left (Nat.le_of_lt_succ n.isLt)]

end

section

variable (x y : DWord) (n : Word)

theorem opAdd64_eq : opAdd64 x y = BitVec.ofNat 64 (x.toNat + y.toNat) := BitVec.eq_of_toNat_eq (by rw [opAdd64, BitVec.toNat_add, BitVec.toNat_ofNat])

theorem opSub64_eq : opSub64 x y = BitVec.ofInt 64 (x.toInt - y.toInt) := BitVec.eq_of_toInt_eq (by rw [opSub64, BitVec.toInt_sub, BitVec.toInt_ofInt])

theorem opMul64_eq : opMul64 x y = BitVec.ofNat 64 (x.toNat * y.toNat) := BitVec.eq_of_toNat_eq (by rw [opMul64, BitVec.toNat_mul, BitVec.toNat_ofNat])

theorem opShl64_eq : opShl64 x n = if n.toNat < 64 then BitVec.ofNat 64 (x.toNat * 2 ^ n.toNat) else 0 := by rw [opShl64, shiftLeft_eq_ofNat]

theorem opShr64_eq : opShr64 x n = if n.toNat < 64 then BitVec.ofNat 64 (x.toNat / 2 ^ n.toNat) else 0 := by rw [opShr64, ushiftRight_eq_ofNat]

theorem opAdd64_imm : opAdd64 x (n.signExtend 64) = BitVec.ofInt 64 (x.toInt + n.toInt) := BitVec.eq_of_toInt_eq (by
  rw [opAdd64, BitVec.toInt_add, BitVec.toInt_ofInt, BitVec.toInt_signExtend_of_le (by decide)])

end

namespace State

variable {s : State}

/-! ### The words -/

/-- A word that names fewer registers waits no longer. -/
theorem held_subset {l m : List SReg} (hm : s.held m = false) (hl : l ⊆ m) : s.held l = false := by
  unfold held at hm ⊢
  split at hm
  · split at hm
    · exact List.any_eq_false.2 fun r hr => List.any_eq_false.1 hm r (hl hr)
    · exact hm
  · exact hm

section

variable (hp : s.present = true)

include hp

theorem scalar_free {rs : List SReg} (hh : s.held rs = false) (k : State → State) : s.scalar rs k = .next (k s) := by
  rw [scalar, issuing_of_present hp, hh, if_neg Bool.false_ne_true]

/-- Every operand written as a pair names an even register, and none waits. -/
theorem scalarPairs_even {ps rs : List SReg} (he : ∀ r ∈ ps, r.toNat % 2 = 0) (hh : s.held (rs ++ ps ++ ps.map (· + 1)) = false) (k : State → State) :
    s.scalarPairs ps rs k = .next (k s) := by
  have heven : (ps.any fun r => r.toNat % 2 == 1) = false := List.any_eq_false.2 fun r hr => by simp [he r hr]
  rw [scalarPairs, issuing_of_present hp, heven, hh, if_neg Bool.false_ne_true, if_neg Bool.false_ne_true]

theorem scalarPairs_odd {ps rs : List SReg} {r : SReg} (hr : r ∈ ps) (ho : r.toNat % 2 = 1) (k : State → State) :
    s.scalarPairs ps rs k = .next (s.raiseNow .illegalRegister) := by
  have hodd : (ps.any fun r => r.toNat % 2 == 1) = true := List.any_eq_true.2 ⟨r, hr, beq_iff_eq.2 ho⟩
  rw [scalarPairs, issuing_of_present hp, hodd, if_pos rfl]

end

end State

/-- Settles O1: each word is `State.alu` of its operation, and each operation the entry of the table. -/
theorem scalarRegisterWordsComplete : Obligations.ScalarRegisterWordsComplete := by
  unfold Obligations.ScalarRegisterWordsComplete
  intro s d a b hp hh x y put
  have halu (f : Word → Word → Word) {v : Word} (hv : f x y = v) : s.alu d a b f = put v :=
    (State.scalar_free hp hh _).trans (hv ▸ rfl)
  have hpopc : exec (.popc d a) s = put (BitVec.ofNat 32 ((List.range 32).countP fun k => x.getLsbD k)) := by
    have hexec : exec (.popc d a) s = s.aluImm d a 0 4 fun x _ => opPopc x := rfl
    rw [hexec, State.aluImm, State.scalar_free hp (State.held_subset hh (by simp)), opPopc_eq]
  simp only [List.forall_mem_cons, List.not_mem_nil, false_imp_iff, implies_true, and_true]
  exact ⟨⟨⟨rfl, halu opAdd (opAdd_eq x y)⟩, ⟨rfl, halu opSub (opSub_eq x y)⟩, ⟨rfl, halu opMul (opMul_eq x y)⟩, ⟨rfl, halu opMulh (opMulh_eq x y)⟩,
    ⟨rfl, halu opMulhu (opMulhu_eq x y)⟩, ⟨rfl, halu opAnd rfl⟩, ⟨rfl, halu opOr rfl⟩, ⟨rfl, halu opXor rfl⟩, ⟨rfl, halu opShl (opShl_eq x y)⟩,
    ⟨rfl, halu opShr (opShr_eq x y)⟩, ⟨rfl, halu opSra (opSra_eq x y)⟩, ⟨rfl, halu opSlt rfl⟩, ⟨rfl, halu opSltu rfl⟩, ⟨rfl, halu opMin (opMin_eq x y)⟩,
    ⟨rfl, halu opMax (opMax_eq x y)⟩⟩, rfl, hpopc⟩

/-- Settles O2: each word is `State.aluImm` of its operation. -/
theorem scalarImmediateWordsComplete : Obligations.ScalarImmediateWordsComplete := by
  unfold Obligations.ScalarImmediateWordsComplete
  intro s d a i n hp hh x on put
  have halu (f : Word → Word → Word) (w : Word) (len : Nat) {v : Word} (hv : f x w = v) : s.aluImm d a w len f = .next ((s.setS d v).advance len) :=
    (State.scalar_free hp hh _).trans (hv ▸ rfl)
  exact ⟨halu opAdd _ _ (opAdd_eq x _), halu opAnd _ _ rfl, halu opOr _ _ rfl, halu opXor _ _ rfl, halu opShl _ _ (opShl_imm x n),
    halu opShr _ _ (opShr_imm x n), halu opSra _ _ (opSra_imm x n), halu opSlt _ _ rfl, halu opSltu _ _ rfl⟩

/-- Settles O3: the pair forms by the frame `State.scalarPairs`. -/
theorem scalarPairWordsComplete : Obligations.ScalarPairWordsComplete := by
  unfold Obligations.ScalarPairWordsComplete
  intro s d a b i hp x y n put trap
  have heven {ps rs hs : List SReg} (k : State → State) (he : ∀ r ∈ ps, r.toNat % 2 = 0) (hh : s.held hs = false)
      (hsub : rs ++ ps ++ ps.map (· + 1) ⊆ hs) : s.scalarPairs ps rs k = .next (k s) :=
    State.scalarPairs_even hp he (State.held_subset hh hsub) k
  have hodd {ps rs : List SReg} (k : State → State) (ho : ∃ r ∈ ps, r.toNat % 2 = 1) : s.scalarPairs ps rs k = trap := by
    obtain ⟨r, hr, ho⟩ := ho
    exact State.scalarPairs_odd hp hr ho k
  have hpair (f : DWord → DWord → DWord) {v : DWord} (hv : f x y = v) :
      (d.toNat % 2 = 0 → a.toNat % 2 = 0 → b.toNat % 2 = 0 → s.held [d, d + 1, a, a + 1, b, b + 1] = false → s.aluPair d a b f = put v) ∧
        (d.toNat % 2 = 1 ∨ a.toNat % 2 = 1 ∨ b.toNat % 2 = 1 → s.aluPair d a b f = trap) :=
    ⟨fun hd ha hb hh => (heven _ (by simp [hd, ha, hb]) hh (by simp)).trans (hv ▸ rfl), fun ho => hodd _ (by simpa using ho)⟩
  have hshift (f : DWord → Word → DWord) {v : DWord} (hv : f x (s.sreg b) = v) :
      (d.toNat % 2 = 0 → a.toNat % 2 = 0 → s.held [d, d + 1, a, a + 1, b] = false → s.aluShift64 d a b f = put v) ∧
        (d.toNat % 2 = 1 ∨ a.toNat % 2 = 1 → s.aluShift64 d a b f = trap) :=
    ⟨fun hd ha hh => (heven _ (by simp [hd, ha]) hh (by simp)).trans (hv ▸ rfl), fun ho => hodd _ (by simpa using ho)⟩
  have haddi : exec (.addi64 d a i) s = s.scalarPairs [d, a] [] fun s =>
      (s.setPair d (opAdd64 (s.spair a) (i.val.signExtend 64))).advance (immLen i) := rfl
  have hsltu : exec (.sltu64 d a b) s = s.scalarPairs [a, b] [d] fun s => (s.setS d (opSltu64 (s.spair a) (s.spair b))).advance 4 := rfl
  simp only [List.forall_mem_cons, List.not_mem_nil, false_imp_iff, implies_true, and_true]
  refine ⟨⟨⟨rfl, hpair opAdd64 (opAdd64_eq x y)⟩, ⟨rfl, hpair opSub64 (opSub64_eq x y)⟩, ⟨rfl, hpair opMul64 (opMul64_eq x y)⟩⟩,
    ⟨⟨rfl, hshift opShl64 (opShl64_eq x _)⟩, ⟨rfl, hshift opShr64 (opShr64_eq x _)⟩⟩, rfl, fun hd ha hh => ?_, fun ho => ?_, rfl,
    fun ha hb hh => ?_, fun ho => ?_⟩
  · rw [haddi, heven _ (by simp [hd, ha]) hh (by simp), opAdd64_imm]
    rfl
  · rw [haddi, hodd _ (by simpa using ho)]
  · rw [hsltu, heven _ (by simp [ha, hb]) hh (by simp)]
    rfl
  · rw [hsltu, hodd _ (by simpa using ho)]

end Sys2Proof.Machine
end

