-- ==== Sys2Proof/Proofs/Handlers.lean ====
section
/-! PROOF. O10 and O11: the handler address, entering a handler and returning from it (13 R266-R268). -/

namespace Sys2Proof.Machine

open Sys2Proof

namespace State

/-- A target stands four times its offset from the word. -/
theorem target_eq (s : State) (o : Word) : s.target o = s.spc + BitVec.ofInt 64 (4 * o.toInt) := by
  rw [target, BitVec.signExtend, Int.mul_comm, BitVec.ofInt_mul]
  rfl

end State

/-! ### The handler address (13 R266) -/

section

variable {s : State} {t i : Nat} {g : Group} (h : s.Issuer t i g)

include h

theorem setHnd_group (v : DWord) (len : Nat) : s.setHnd t i v len = (s.putGroup t i { g with hnd := v }).advance len := by
  rw [State.setHnd, State.mapGroup_some s h.here]

theorem exec_hsetLabel (im : Imm) : exec (.hsetLabel im) s = .next (
    if (g.spc + BitVec.ofInt 64 (4 * im.val.toInt)).toNat % 4 = 0 then
      (s.putGroup t i { g with hnd := g.spc + BitVec.ofInt 64 (4 * im.val.toInt) }).advance (immLen im)
    else s.raiseNow .illegalOperand) := by
  have hexec : exec (.hsetLabel im) s = execHsetLabel im s := rfl
  rw [hexec, execHsetLabel, State.byGroup_group h, State.target_eq, State.spc_group h, setHnd_group h, ite_not]
  split <;> rfl

theorem exec_hsetRegister (hi : g.Idle) {a : SReg} (ha : a.toNat % 2 = 0) (p : Bool) : exec (.hsetRegister a p) s = .next (
    if (s.spair a).toNat % 4 = 0 then (s.putGroup t i { g with hnd := s.spair a }).advance (if p then 8 else 4)
    else s.raiseNow .illegalOperand) := by
  have hexec : exec (.hsetRegister a p) s = execHsetRegister a p s := rfl
  have heven : ¬a.toNat % 2 = 1 := by omega
  rw [hexec, execHsetRegister, State.byGroup_group h, if_neg heven, State.held_idle h hi, if_neg Bool.false_ne_true, setHnd_group h, ite_not]
  split <;> rfl

theorem exec_hsetRegister_odd {a : SReg} (ha : a.toNat % 2 = 1) (p : Bool) :
    exec (.hsetRegister a p) s = .next (s.raiseNow .illegalRegister) := by
  have hexec : exec (.hsetRegister a p) s = execHsetRegister a p s := rfl
  rw [hexec, execHsetRegister, State.byGroup_group h, if_pos ha]

end

/-- A word of hset that names a register and carries an immediate is no instruction. -/
theorem decodeScalar_hset_both {w : Word} (hop : fOp w = 0x0C) (ha : fA w ≠ 0) (hi : fI w ≠ 0) (next : Option Word) :
    decodeScalar w next = .error (.illegalField 0x0C) := by
  have hreads : scalarInstr w none = some (.hsetRegister (fA w) false) := by
    rw [scalarInstr, hop]
    exact congrArg some (if_neg (mt beq_iff_eq.1 ha))
  have hother : encScalar (.hsetRegister (fA w) false) ≠ [w] := fun henc => by
    obtain ⟨-, -, himm⟩ := fields_encSI 0x0C 0 (fA w) 0
    rw [(List.cons.inj henc).1] at himm
    exact hi himm
  have hprefix : ¬(fOp w == 0x7F) = true := by rw [hop]; decide
  unfold decodeScalar
  rw [if_neg hprefix, hreads]
  simp only [beq_eq_false_iff_ne.2 hother, Bool.and_false, Bool.false_eq_true, if_false, hop]
  rfl

/-- Settles O10: each form by whether its address is a multiple of 4, and the word that mixes them by its fields. -/
theorem handlerAddressIsSet : Obligations.HandlerAddressIsSet := by
  unfold Obligations.HandlerAddressIsSet
  intro s t i g a im p h hi put goal
  refine ⟨rfl, fun hal => ?_, fun hmis => ?_, rfl, fun ha hal => ?_, fun ha hmis => ?_, fun ha => exec_hsetRegister_odd h ha p,
    fun w next hop ha hi => ⟨decodeScalar_hset_both hop ha hi next, rfl⟩⟩
  · exact (exec_hsetLabel h im).trans (congrArg _ (if_pos hal))
  · exact (exec_hsetLabel h im).trans (congrArg _ (if_neg hmis))
  · rw [exec_hsetRegister h hi ha, if_pos hal]
  · rw [exec_hsetRegister h hi ha, if_neg hmis]

/-! ### Entering and leaving (13 R267, R268) -/

namespace Group

variable {g : Group}

/-- With no result on its way both streams see the same mask. -/
theorem mask_idle (h : g.Idle) (lane : Bool) : g.mask lane = g.mask false := by
  simp only [mask, readS_idle h]

/-- A return sets fmt, LPC, run and SPC to those of the frame and leaves the handler. -/
theorem leaveHandler_stands (g : Group) (f : Frame) : (g.leaveHandler f).fmt = f.fmt ∧ (g.leaveHandler f).lpc = f.lpc ∧
    (g.leaveHandler f).run = f.run ∧ (g.leaveHandler f).spc = f.spc ∧ (g.leaveHandler f).frame = none := ⟨rfl, rfl, rfl, rfl, rfl⟩

/-- It sets the mask to the frame's; every register outside the mask is as it was. -/
theorem leaveHandler_regs (h : g.Idle) (hw : g.s.wf = true) (f : Frame) :
    (g.leaveHandler f).mask false = f.mask ∧ ∀ r, r < 125 → (g.leaveHandler f).readS false r = g.readS false r := by
  refine ⟨setMask_mask h hw f.mask false, fun r hr => (setMask_readS h hw f.mask false r).trans ?_⟩
  have h127 : r ≠ 127 := by omega
  have h126 : r ≠ 126 := by omega
  have h125 : r ≠ 125 := by omega
  rw [if_neg h127, if_neg h126, if_neg h125]

/-- The frame that entering the handler fills (13 R267). -/
def frameOf (g : Group) (c : Cond) : Frame := ⟨g.spc, g.lpc, g.run, g.mask true, g.fmt, g.rdepth, c⟩

theorem enterHandler_eq (g : Group) (c : Cond) :
    g.enterHandler c = { g with frame := some (g.frameOf c), spc := g.hnd, run := Run.none } := rfl

/-- A group in its handler enters it for no condition (03 R69). -/
theorem canEnter_inHandler {f : Frame} (h : g.frame = some f) (c : Cond) : g.canEnter c = false := by
  simp [canEnter, h]

end Group

section

variable {s : State} {t i : Nat} {g : Group} (h : s.Issuer t i g)

include h

theorem exec_hret (hi : g.Idle) {f : Frame} (hf : g.frame = some f) (hd : g.rdepth = f.depth) :
    exec .hret s = .next (s.putGroup t i ({ g with moved := true, stall := none }.leaveHandler f)) := by
  have hexec : exec .hret s = execHret s := rfl
  rw [hexec, execHret, State.byGroup_group h]
  simp [hf, hd, maskHeld_idle h hi, Group.tick_idle hi]

theorem exec_hret_depth {f : Frame} (hf : g.frame = some f) (hd : g.rdepth ≠ f.depth) :
    exec .hret s = .next (s.raiseNow .illegalOperand) := by
  have hexec : exec .hret s = execHret s := rfl
  rw [hexec, execHret, State.byGroup_group h]
  simp [hf, hd]

theorem exec_hret_outside (hf : g.frame = none) : exec .hret s = .next (s.raiseNow .illegalOperand) := by
  have hexec : exec .hret s = execHret s := rfl
  rw [hexec, execHret, State.byGroup_group h]
  simp [hf]

end

/-- Settles O11: what hret leaves is `Group.leaveHandler_stands` and `Group.leaveHandler_regs`, for the group that issues it and for one that has
just entered its handler. -/
theorem handlerReturnRestoresFrame : Obligations.HandlerReturnRestoresFrame := by
  unfold Obligations.HandlerReturnRestoresFrame
  refine ⟨fun s t i g h hi hw => ⟨fun f hf hd => ?returns, fun f => exec_hret_depth h, exec_hret_outside h⟩, fun g c hi hw => ?entry⟩
  case returns =>
    obtain ⟨hmask, hregs⟩ := Group.leaveHandler_regs (g := { g with moved := true, stall := none }) hi hw f
    obtain ⟨hfmt, hlpc, hrun, hspc, hframe⟩ := Group.leaveHandler_stands { g with moved := true, stall := none } f
    refine ⟨_, exec_hret h hi hf hd, hmask, hfmt, hlpc, hrun, hspc, hframe, hregs, ?_⟩
    simp only [Group.leaveHandler, Group.setMask_idle (g := { g with moved := true, stall := none }) hi, and_self]
  case entry =>
    rw [Group.enterHandler_eq]
    intro e
    obtain ⟨hmask, -⟩ := Group.leaveHandler_regs (g := e) hi hw (g.frameOf c)
    obtain ⟨hfmt, hlpc, hrun, hspc, hframe⟩ := Group.leaveHandler_stands e (g.frameOf c)
    exact ⟨rfl, rfl, rfl, rfl, Group.canEnter_inHandler rfl, g.frameOf c, rfl, rfl, hspc, hlpc, hrun,
      hmask.trans (Group.mask_idle hi true), hfmt, hframe⟩

end Sys2Proof.Machine
end

