-- ==== Sys2Proof/Proofs/Branches.lean ====
section
/-! PROOF. O5 and O6: branches and jumps, and the words that set the LPC and start a run (13 R243, R246). -/

namespace Sys2Proof.Machine

open Sys2Proof

namespace State

variable {s : State}

theorem branch_free (hp : s.present = true) {d a : SReg} (hh : s.held [d, a] = false) (i : Imm) (c : Word → Word → Bool) : s.branch d a i c =
    .next (if c (s.sreg d) (s.sreg a) then s.jump (s.spc + BitVec.ofInt 64 (4 * i.val.toInt)) else s.advance (immLen i)) := by
  rw [branch, scalar_free hp hh, target_eq]

end State

/-- The length of a word with an immediate, as a step of the SPC. -/
theorem ofNat_immLen (i : Imm) : BitVec.ofNat 64 (immLen i) = if i.pfx then 8 else 4 := by
  rw [immLen]
  split <;> rfl

/-- Settles O5: the branches by `State.branch`, the jumps by their frame of pairs. -/
theorem branchesComplete : Obligations.BranchesComplete := by
  unfold Obligations.BranchesComplete
  intro s d a i off hp hh trap goal on either
  have hbranch (c : Word → Word → Bool) {p : Prop} [Decidable p] (hc : c (s.sreg d) (s.sreg a) = true ↔ p) : s.branch d a i c = either p := by
    rw [State.branch_free hp hh]
    exact congrArg Host.Outcome.next (if_congr hc rfl rfl)
  have hbr : exec (.br off) s = s.scalar [] fun s => s.jump (s.target (off.signExtend 32)) := rfl
  have hjal : exec (.jal d i) s = s.scalarPairs [d] [] fun s =>
      (if d = 0 then s else s.setPair d (s.spc + BitVec.ofNat 64 (immLen i))).jump (s.target i.val) := rfl
  have hjr : exec (.jr a) s = s.scalarPairs [a] [] fun s =>
      if (s.spair a).toNat % 4 ≠ 0 then s.raiseNow .illegalOperand else s.jump (s.spair a) := rfl
  refine ⟨?_, hbranch _ beq_iff_eq, hbranch _ bne_iff_ne, hbranch (fun x y => decide (x.toInt < y.toInt)) decide_eq_true_iff,
    hbranch (fun x y => decide (y.toInt ≤ x.toInt)) decide_eq_true_iff,
    fun hd hh' => ?_, fun ha hh' => ?_, fun ho => ?_, fun ho => ?_⟩
  · rw [hbr, State.scalar_free hp (State.held_subset hh (List.nil_subset _)), State.target_eq, BitVec.toInt_signExtend_of_le (by decide)]
  · rw [hjal, State.scalarPairs_even hp (by simpa using hd) hh', State.target_eq, ofNat_immLen]
  · rw [hjr, State.scalarPairs_even hp (by simpa using ha) hh', ite_not]
  · exact hjal.trans (State.scalarPairs_odd hp List.mem_cons_self ho _)
  · exact hjr.trans (State.scalarPairs_odd hp List.mem_cons_self ho _)

/-! ### Runs -/

/-- A list of rows of three, given place by place. -/
theorem eq_rows {α : Type} {l : List α} {n : Nat} {f : Nat → Nat → α} (hlen : l.length = 3 * n) (hf : ∀ j < n, ∀ q < 3, l[3 * j + q]? = some (f j q)) :
    l = (List.range n).flatMap fun j => (List.range 3).map fun q => f j q := by
  induction n generalizing l f with
  | zero => exact List.eq_nil_of_length_eq_zero hlen
  | succ n ih =>
    match l, hlen with
    | a :: b :: c :: l, hlen =>
      have hrest : l = (List.range n).flatMap fun j => (List.range 3).map fun q => f (j + 1) q :=
        ih (by simp only [List.length_cons] at hlen; omega) fun j hj q hq => by
          rw [← hf (j + 1) (Nat.succ_lt_succ hj) q hq, show 3 * (j + 1) + q = 3 * j + q + 1 + 1 + 1 by omega]
          rfl
      have ha : a = f 0 0 := Option.some.inj (hf 0 n.succ_pos 0 (by decide))
      have hb : b = f 0 1 := Option.some.inj (hf 0 n.succ_pos 1 (by decide))
      have hc : c = f 0 2 := Option.some.inj (hf 0 n.succ_pos 2 (by decide))
      rw [List.range_succ_eq_map (n := n), List.flatMap_cons, List.flatMap_map, ← hrest, ha, hb, hc]
      rfl

namespace State

variable {s : State} {t i n : Nat} {g : Group} {code : List Word} {x : Word}

/-- A run of which every word is mapped starts with the code that stands there. -/
theorem startRun_code (hg : s.group t i = some g) (hs : s.Sound) (hlen : code.length = 3 * n)
    (hcode : ∀ j, j < n → ∀ q, q < 3 → s.laneAddr t (x + BitVec.ofNat 32 j) q < 2 ^ 57 ∧
      ∃ pa, s.translateNow t i .fetch (s.laneAddr t (x + BitVec.ofNat 32 j) q) = .ok pa ∧ code[3 * j + q]? = some (s.wordAt (.dev pa)))
    (own : Bool) (len : Nat) :
    s.startRun t i n x own len = .next (s.putGroup t i (({ g with run := ⟨n, x, own, len, code⟩, reissue := none } : Group).tick false)) := by
  have hplace (j q : Nat) : ∃ pa, j < n → q < 3 → s.laneAddr t (x + BitVec.ofNat 32 j) q < 2 ^ 57 ∧
      s.translateNow t i .fetch (s.laneAddr t (x + BitVec.ofNat 32 j) q) = .ok pa ∧ code[3 * j + q]? = some (s.wordAt (.dev pa)) := by
    by_cases hin : j < n ∧ q < 3
    · obtain ⟨hlt, pa, hpa⟩ := hcode j hin.1 q hin.2
      exact ⟨pa, fun _ _ => ⟨hlt, hpa⟩⟩
    · exact ⟨0, fun hj hq => absurd ⟨hj, hq⟩ hin⟩
  choose p hp using hplace
  have hfetch := fetchRun_ok (t := t) (i := i) (n := n) (cursor := x) (p := p) hs fun k q hk hq => ⟨(hp k q hk hq).1, (hp k q hk hq).2.1⟩
  rw [← eq_rows hlen fun j hj q hq => (hp j q hj hq).2.2] at hfetch
  rw [startRun, hfetch]
  dsimp only
  rw [mapGroup_some s hg]

end State

/-- Settles O6: a run starts with the code that is fetched (`State.startRun_code`). -/
theorem laneRunsStart : Obligations.LaneRunsStart := by
  unfold Obligations.LaneRunsStart
  intro s t i g a im n m code h hh hs codeOf start
  have hlpc : exec (.lpc a im) s = execLpc a im s := rfl
  have hlx : exec (.lx n) s = execLx n s := rfl
  have hlxa : exec (.lxa m a im) s = execLxa m a im s := rfl
  refine ⟨?_, fun hcode => ?_, fun hcode => ?_⟩
  · rw [hlpc, execLpc, State.byGroup_group h, hh, if_neg Bool.false_ne_true, State.mapGroup_some s h.here]
    rfl
  · rw [hlx, execLx, State.byGroup_group h, State.startRun_code h.here hs hcode.1 hcode.2]
  · rw [hlxa, execLxa, State.byGroup_group h, hh, if_neg Bool.false_ne_true, State.startRun_code h.here hs hcode.1 hcode.2]
    rfl

end Sys2Proof.Machine
end

