-- ==== Sys2Proof/Proofs/PredicateMoves.lean ====
section
/-! PROOF. O8: predicates, one lane of a vector register, and elect (13 R253, R254, R256). -/

namespace Sys2Proof.Machine

open Sys2Proof

/-- Bits 32 w to 32 w + 31 of a predicate come from the word, the others stay, and none is set beyond the live lanes. -/
theorem getLsbD_ksetVal (live k : LaneMask) {w l : Nat} (hw : w < 3) (hl : l < 96) (v : Word) : (ksetVal live k w v).getLsbD l =
    (live.getLsbD l && if l / 32 = w then v.getLsbD (l % 32) else k.getLsbD l) := by
  have hones : (0xFFFFFFFF#96).getLsbD (l - 32 * w) = decide (l - 32 * w < 32) := by
    rw [show (0xFFFFFFFF#96) = BitVec.ofNat 96 (2 ^ 32 - 1) from rfl, BitVec.getLsbD_ofNat, Nat.testBit_two_pow_sub_one,
      decide_eq_true (show l - 32 * w < 96 by omega), Bool.true_and]
  have hfield : (decide (l < 96) && !decide (l < 32 * w) && (0xFFFFFFFF#96).getLsbD (l - 32 * w)) = decide (l / 32 = w) := by
    rw [hones, Bool.eq_iff_iff]
    simp only [Bool.and_eq_true, Bool.not_eq_true', decide_eq_true_eq, decide_eq_false_iff_not]
    omega
  simp only [ksetVal, BitVec.getLsbD_and, BitVec.getLsbD_or, BitVec.getLsbD_not, BitVec.getLsbD_shiftLeft, hfield]
  by_cases hin : l / 32 = w
  · have hbit : l - 32 * w = l % 32 := by omega
    have hbelow : ¬l < 32 * w := by omega
    have hlt : l % 32 < 96 := by omega
    simp [hin, hbit, hbelow, hl, hlt, Bool.and_comm]
  · simp [hin, hl, Bool.and_comm]

/-- The mask of one lane, as far as it is live. -/
theorem getLsbD_single (live : LaneMask) (l : Nat) {j : Nat} (hj : j < 96) :
    (maskOf [l] &&& live).getLsbD j = (decide (j = l) && live.getLsbD l) := by
  rcases Nat.lt_trichotomy j l with hlt | rfl | hgt
  · simp [maskOf, hlt, hlt.ne]
  · simp [maskOf, hj]
  · have hpos : j - l ≠ 0 := by omega
    simp [maskOf, hgt.ne', hpos]

theorem lanesOf_single (live : LaneMask) {l : Nat} (hl : l < 96) (hlive : live.getLsbD l = true) : lanesOf (maskOf [l] &&& live) = [l] := by
  have hmem : ∀ j ∈ List.range 96, (maskOf [l] &&& live).getLsbD j = decide (j = l) := fun j hj => by
    rw [getLsbD_single live l (List.mem_range.1 hj), hlive, Bool.and_true]
  rw [lanesOf, List.filter_congr hmem, List.filter_eq, List.count_eq_one_of_mem List.nodup_range (List.mem_range.2 hl)]
  rfl

theorem single_ne_zero {live : LaneMask} {l : Nat} (hl : l < 96) (hlive : live.getLsbD l = true) : maskOf [l] &&& live ≠ 0 := fun h0 => by
  have hbit := getLsbD_single live l hl
  rw [h0, hlive, decide_eq_true rfl, BitVec.ofNat_eq_ofNat, BitVec.getLsbD_zero] at hbit
  exact absurd hbit (by decide)

theorem single_eq_zero {live : LaneMask} {l : Nat} (hdead : live.getLsbD l = false) : maskOf [l] &&& live = 0 :=
  BitVec.eq_of_getLsbD_eq fun j hj => by
    rw [getLsbD_single live l hj, hdead, Bool.and_false, BitVec.ofNat_eq_ofNat, BitVec.getLsbD_zero]

namespace Group

variable {g : Group}

/-- A word that reads no form waits for no symbol. -/
theorem pendingSym_values {lane : Bool} {rs : List Nat} (h : ∀ r ∈ rs, g.readsForm lane r = false) (x : Nat → Option Word) :
    g.pendingSym lane x rs = none := by
  have hnone : (rs.filter fun r => g.readsForm lane r && (x (g.tagSym r)).isNone) = [] :=
    List.filter_eq_nil_iff.2 fun r hr => by simp [h r hr]
  rw [pendingSym, hnone]
  rfl

theorem kept_subset (g : Group) (m : LaneMask) (rs : List Nat) : g.kept m rs ⊆ rs := by
  unfold kept
  split
  · exact List.nil_subset rs
  · exact List.Subset.refl rs

/-- A value is put in one lane of a register that holds no form, where the lane is live. -/
theorem writeVal_lane {lane : Bool} {r l : Nat} (hi : g.Idle) (hb : g.badV = []) (hd : g.deferred r = false) (hl : l < 96) (x : Nat → Option Word) (v : Word) :
    g.writeVal lane x r (maskOf [l] &&& g.liveMask) (fun _ => v) = if l < g.live then { g with v := g.v.set (96 * r + l) v } else g := by
  have hlive := getLsbD_liveMask (g := g) hl
  split
  next hin =>
    rw [decide_eq_true hin] at hlive
    have hwrite : g.writeV r (maskOf [l] &&& g.liveMask) (fun _ => v) = { g with v := g.v.set (96 * r + l) v } := by
      rw [writeV_idle hi hb hd, lanesOf_single _ hl hlive]
      rfl
    rw [writeVal, if_neg (single_ne_zero hl hlive), readsForm_idle hi, hd, if_neg Bool.false_ne_true, hwrite]
    exact allValues_idle (g := { g with v := g.v.set (96 * r + l) v }) hi r
  next hout =>
    rw [decide_eq_false hout] at hlive
    rw [writeVal, if_pos (single_eq_zero hlive)]

end Group

namespace State

variable {s : State} {t i : Nat} {g : Group} {d a : SReg} {v : VReg}

/-- A register beyond the budget. -/
theorem badReg_single {r : Nat} (hr : 32 * g.blocks ≤ r) : g.badReg [r] = true := by simp [Group.badReg, hr]

section

variable (h : s.Issuer t i g)

include h

theorem exec_kget (hi : g.Idle) (w : BitVec 2) (n : BitVec 5) : exec (.kget d w n) s =
    .next ((s.setS d (BitVec.ofNat 32 ((g.k.get n.toNat).toNat / 2 ^ (32 * w.toNat)))).advance 4) := by
  have hexec : exec (.kget d w n) s = execKget d w n s := rfl
  have hbits : (g.k.get n.toNat).extractLsb' (32 * w.toNat) 32 = BitVec.ofNat 32 ((g.k.get n.toNat).toNat / 2 ^ (32 * w.toNat)) :=
    BitVec.eq_of_toNat_eq (by rw [BitVec.extractLsb'_toNat, Nat.shiftRight_eq_div_pow, BitVec.toNat_ofNat])
  rw [hexec, execKget, byGroup_group h, held_idle h hi, if_neg Bool.false_ne_true, hbits]

theorem exec_kset (hi : g.Idle) (w : BitVec 2) (n : BitVec 5) : exec (.kset a w n) s = .next ((s.putGroup t i
    { g with k := g.k.set n.toNat (ksetVal g.liveMask (g.k.get n.toNat) w.toNat (s.sreg a)) }).advance 4) := by
  have hexec : exec (.kset a w n) s = execKset a w n s := rfl
  rw [hexec, execKset, byGroup_group h, held_idle h hi, if_neg Bool.false_ne_true, mapGroup_some s h.here]

/-! ### One lane of a vector register -/

theorem exec_movs_budget (hv : 32 * g.blocks ≤ v.toNat) : ∀ ins ∈ [Instr.movvs d a v, .movsv d a v], exec ins s = .next (s.raiseNow .illegalRegister) := by
  have hvs : exec (.movvs d a v) s = execMovvs d a v s := rfl
  have hsv : exec (.movsv d a v) s = execMovsv d a v s := rfl
  simp only [List.forall_mem_cons, List.not_mem_nil, false_imp_iff, implies_true, and_true]
  exact ⟨by rw [hvs, execMovvs, byGroup_group h, badReg_single hv, if_pos rfl], by rw [hsv, execMovsv, byGroup_group h, badReg_single hv, if_pos rfl]⟩

theorem exec_movs_lane (hi : g.Idle) (hv : v.toNat < 32 * g.blocks) (ha : 96 ≤ (s.sreg a).toNat) :
    ∀ ins ∈ [Instr.movvs d a v, .movsv d a v], exec ins s = .next (s.raiseNow .illegalOperand) := by
  have hvs : exec (.movvs d a v) s = execMovvs d a v s := rfl
  have hsv : exec (.movsv d a v) s = execMovsv d a v s := rfl
  have hbudget : g.badReg [v.toNat] = false := Group.badReg_budget (by simpa using hv)
  simp only [List.forall_mem_cons, List.not_mem_nil, false_imp_iff, implies_true, and_true]
  constructor
  · rw [hvs, execMovvs, byGroup_group h, hbudget, held_idle h hi, Group.blocked_idle hi]
    exact if_pos ha
  · rw [hsv, execMovsv, byGroup_group h, hbudget, held_idle h hi, Group.blocked_idle hi]
    exact if_pos ha

section

variable (hi : g.Idle) (hv : v.toNat < 32 * g.blocks) (ha : (s.sreg a).toNat < 96) (hd : g.deferred v.toNat = false) (hb : g.badV = [])

include hi hv ha hd hb

theorem exec_movvs : exec (.movvs d a v) s =
    .next ((s.setS d (if (s.sreg a).toNat < g.live then g.v.get (96 * v.toNat + (s.sreg a).toNat) else 0)).advance 4) := by
  have hexec : exec (.movvs d a v) s = execMovvs d a v s := rfl
  have hvalue : g.value false (s.symX t) v.toNat (s.sreg a).toNat = g.v.get (96 * v.toNat + (s.sreg a).toNat) := by
    rw [Group.value, Group.readsForm_idle hi, hd, if_neg Bool.false_ne_true, Group.readV_idle hi]
  have hsym : g.pendingSym false (s.symX t) [v.toNat] = none :=
    Group.pendingSym_values (fun r hr => by rw [List.mem_singleton.1 hr, Group.readsForm_idle hi, hd]) _
  have hlane : ¬95 < (s.sreg a).toNat := Nat.not_lt.2 (Nat.le_of_lt_succ ha)
  rw [hexec, execMovvs, byGroup_group h, Group.badReg_budget (by simpa using hv), held_idle h hi, Group.blocked_idle hi, Bool.or_self,
    if_neg Bool.false_ne_true, if_neg Bool.false_ne_true, if_neg hlane, hsym]
  dsimp only
  rw [readingRegs_sound hb, hvalue, ← ite_not]
  simp only [Nat.not_le]

theorem exec_movsv : exec (.movsv d a v) s = .next (s.putGroup t i
    ((if (s.sreg a).toNat < g.live then { g with v := g.v.set (96 * v.toNat + (s.sreg a).toNat) (s.sreg d) } else g : Group).advance 4)) := by
  have hexec : exec (.movsv d a v) s = execMovsv d a v s := rfl
  have hsym : g.pendingSym false (s.symX t) (g.kept (maskOf [(s.sreg a).toNat] &&& g.liveMask) [v.toNat]) = none :=
    Group.pendingSym_values (fun r hr => by rw [List.mem_singleton.1 (Group.kept_subset g _ _ hr), Group.readsForm_idle hi, hd]) _
  have hlane : ¬95 < (s.sreg a).toNat := Nat.not_lt.2 (Nat.le_of_lt_succ ha)
  rw [hexec, execMovsv, byGroup_group h, Group.badReg_budget (by simpa using hv), held_idle h hi, Group.blocked_idle hi, Bool.or_self,
    if_neg Bool.false_ne_true, if_neg Bool.false_ne_true, if_neg hlane]
  dsimp only
  rw [hsym]
  dsimp only
  rw [readingRegs_sound hb, Group.writeVal_lane hi hb hd ha]

end

/-! ### elect (13 R256) -/

theorem exec_elect_wide (hi : g.Idle) (ha : 16 ≤ (s.sreg a).toNat) : exec (.elect d a) s = .next (s.raiseNow .illegalOperand) := by
  have hexec : exec (.elect d a) s = execElect d a s := rfl
  have hwide : (s.sreg a).toNat / 16 ≠ 0 := by omega
  rw [hexec, execElect, byGroup_group h, held_idle h hi, if_neg Bool.false_ne_true, if_pos hwide]

theorem exec_elect (hi : g.Idle) (ha : (s.sreg a).toNat < 16) : exec (.elect d a) s = .next ((s.setS d
    (if (((s.groupsOf t).filter (electable (s.sreg a) g.core)).head?.map (·.idx)) = some i then 1 else 0)).advance 4) := by
  have hexec : exec (.elect d a) s = execElect d a s := rfl
  have hfits : ¬(s.sreg a).toNat / 16 ≠ 0 := by omega
  rw [hexec, execElect, byGroup_group h, held_idle h hi, if_neg Bool.false_ne_true, if_neg hfits]
  simp only [beq_iff_eq]

end

/-- What a selection word asks of a group: its kind among those selected, and its core where bit 0 is set. -/
theorem electable_eq (sel : Word) (core : Nat) (x : Group) : electable sel core x =
    ((decide (1 ≤ x.kind) && decide (x.kind ≤ 3) && sel.getLsbD x.kind) && (!sel.getLsbD 0 || x.core == core)) := by
  simp only [electable, Bool.and_assoc, Bool.and_left_comm, Bool.and_comm]

end State

/-- Settles O8, word by word. -/
theorem predicateMoveWordsComplete : Obligations.PredicateMoveWordsComplete := by
  unfold Obligations.PredicateMoveWordsComplete
  intro s t i g d a w n v h hi hwf
  refine ⟨State.exec_kget h hi w n, fun hw => ⟨_, State.exec_kset h hi w n, fun l hl => ?_, fun k hk => Cells.get_set_ne hk hwf _, rfl⟩,
    fun hv ha hd hb => ⟨State.exec_movvs h hi hv ha hd hb, fun hlive => ?_, fun hdead => ?_⟩, fun hv ha => State.exec_movs_lane h hi hv ha,
    fun hv => State.exec_movs_budget h hv, fun ha => State.exec_elect_wide h hi ha, fun ha => ?_⟩
  · dsimp only
    rw [Cells.get_set_same hwf, getLsbD_ksetVal _ _ hw hl, Group.getLsbD_liveMask hl]
  · rw [State.exec_movsv h hi hv ha hd hb, if_pos hlive]
  · rw [State.exec_movsv h hi hv ha hd hb, if_neg (Nat.not_lt.2 hdead)]
  · dsimp only
    rw [State.exec_elect h hi ha, List.filter_congr fun x _ => State.electable_eq (s.sreg a) g.core x]

end Sys2Proof.Machine
end

