-- ==== Sys2Proof/Proofs/Specials.lean ====
section
/-! PROOF. O9: sget and sset (13 R255, 03 R67-R69). -/

namespace Sys2Proof.Machine

open Sys2Proof

/-- The low word of a special that is shown as a number, or as a word, in 64 bits. -/
theorem low_ofNat (n : Nat) : (BitVec.ofNat 64 n).setWidth 32 = BitVec.ofNat 32 n := BitVec.setWidth_ofNat_of_le (by decide) n

theorem low_word (w : Word) : (w.setWidth 64).setWidth 32 = BitVec.ofNat 32 w.toNat := by
  rw [BitVec.setWidth_setWidth_of_le _ (by decide), BitVec.setWidth_eq, BitVec.ofNat_toNat, BitVec.setWidth_eq]

namespace State

variable {s : State} {t i : Nat} {g : Group}

/-- A wide special named through an even pair takes no fault for its register. -/
theorem special_even {k : BitVec 11} {a : SReg} (ha : wideSpecial k.toNat = true → a.toNat % 2 = 0) :
    (wideSpecial k.toNat && a.toNat % 2 == 1) = false := by
  cases hk : wideSpecial k.toNat with
  | false => rfl
  | true => rw [ha hk]; rfl

/-- A wide special takes an even pair. -/
theorem exec_sset_odd {a : SReg} {k : BitVec 11} (h : s.Issuer t i g) (hk : wideSpecial k.toNat = true) (ha : a.toNat % 2 = 1) : exec (.sset a k) s = .next (s.raiseNow .illegalRegister) := by
  have hexec : exec (.sset a k) s = execSset a k s := rfl
  rw [hexec, execSset, h.cur]
  dsimp only
  rw [byGroup_group h, hk, ha]
  rfl

section

variable (h : s.Issuer t i g) (hi : g.Idle)

include h hi

/-- A special reads into a register, or a pair where it is wide. -/
theorem exec_sget (hops : s.sfuOps t i = []) (d : SReg) (k : BitVec 11) : exec (.sget d k) s = .next (
    if wideSpecial k.toNat then (if d.toNat % 2 = 1 then s.raiseNow .illegalRegister else (s.setPair d (s.special t g k.toNat)).advance 4)
    else (s.setS d ((s.special t g k.toNat).setWidth 32)).advance 4) := by
  have hexec : exec (.sget d k) s = execSget d k s := rfl
  rw [hexec, execSget, h.cur]
  dsimp only
  rw [byGroup_group h, held_idle h hi, hops]
  cases wideSpecial k.toNat <;> simp [apply_ite Host.Outcome.next]

variable {a : SReg} {k : BitVec 11}

/-- A value that the special does not take. -/
theorem exec_sset_bad {c : FaultCode} (ha : wideSpecial k.toNat = true → a.toNat % 2 = 0) (hf : specialFault k.toNat (s.sreg a) = some c) :
    exec (.sset a k) s = .next (s.raiseNow c) := by
  have hexec : exec (.sset a k) s = execSset a k s := rfl
  rw [hexec, execSset, h.cur]
  dsimp only
  rw [byGroup_group h, special_even ha, held_idle h hi, hf]
  rfl

/-- A value that it takes. -/
theorem exec_sset (ha : wideSpecial k.toNat = true → a.toNat % 2 = 0) (hf : specialFault k.toNat (s.sreg a) = none) : exec (.sset a k) s =
    .next ((s.putGroup t i (g.setSpecial k.toNat (if wideSpecial k.toNat then s.spair a else (s.sreg a).setWidth 64))).advance 4) := by
  have hexec : exec (.sset a k) s = execSset a k s := rfl
  rw [hexec, execSset, h.cur]
  dsimp only
  rw [byGroup_group h, special_even ha, held_idle h hi, hf, mapGroup_some s h.here]
  rfl

end

end State

/-- Settles O9: sget by `State.special`, sset by the special's fault or its write. -/
theorem specialRegistersReadAndWrite : Obligations.SpecialRegistersReadAndWrite := by
  unfold Obligations.SpecialRegistersReadAndWrite
  refine ⟨fun s t i g x gr d h hi hx hgr hops => ?read, fun s t i g a h hi => ?write⟩
  case read =>
    intro one two
    have hone (k v : Nat) (hk : wideSpecial (BitVec.ofNat 11 k).toNat = false)
        (hv : (s.special t g (BitVec.ofNat 11 k).toNat).setWidth 32 = BitVec.ofNat 32 v) : one k v := by
      change exec (.sget d (BitVec.ofNat 11 k)) s = _
      rw [State.exec_sget h hi hops, hk, if_neg Bool.false_ne_true, hv]
    have htwo (k : Nat) (v : DWord) (hk : wideSpecial (BitVec.ofNat 11 k).toNat = true) (hv : s.special t g (BitVec.ofNat 11 k).toNat = v) : two k v := by
      refine ⟨fun hd => ?_, fun hd => ?_⟩
      · have hd' : ¬d.toNat % 2 = 1 := by omega
        rw [State.exec_sget h hi hops, hk, if_pos rfl, if_neg hd', hv]
      · rw [State.exec_sget h hi hops, hk, if_pos rfl, if_pos hd]
    have hid : (s.team t).map (·.id) = some x.id := by rw [hx]; rfl
    have hngrp : (s.team t).map (·.ngrp) = some x.ngrp := by rw [hx]; rfl
    have hteams : (s.gridOf t).map (·.nteams) = some gr.nteams := by rw [hgr]; rfl
    refine ⟨hone 0 _ rfl (low_ofNat _), hone 1 _ rfl ?_, hone 2 _ rfl ?_, hone 3 _ rfl (low_ofNat _), hone 4 _ rfl (low_ofNat _), hone 5 _ rfl ?_,
      hone 6 _ rfl ?_, hone 7 _ rfl (low_ofNat _), hone 8 _ rfl (low_ofNat _), hone 9 _ rfl (low_ofNat _), hone 10 _ rfl (low_ofNat _),
      hone 12 _ rfl (low_word _), hone 14 _ rfl (low_word _), hone 15 _ rfl (low_word _), hone 16 _ rfl (low_word _),
      htwo 11 _ rfl rfl, htwo 13 _ rfl rfl, htwo 17 _ rfl rfl⟩
    · exact (low_ofNat _).trans (by rw [hid]; rfl)
    · exact (low_ofNat _).trans (by rw [hid]; rfl)
    · exact (low_ofNat _).trans (by rw [hngrp]; rfl)
    · exact (low_ofNat _).trans (by rw [hteams]; rfl)
  case write =>
    intro v put
    have hlow : (v.setWidth 64).setWidth 32 = v := by rw [BitVec.setWidth_setWidth_of_le _ (by decide), BitVec.setWidth_eq]
    have hput (k : BitVec 11) (f : Word → Group) (hk : wideSpecial k.toNat = false) (hf : specialFault k.toNat v = none)
        (hset : g.setSpecial k.toNat (v.setWidth 64) = f ((v.setWidth 64).setWidth 32)) : exec (.sset a k) s = put (f v) := by
      rw [State.exec_sset h hi (fun hw => absurd hw (by rw [hk]; decide)) hf, hk, if_neg Bool.false_ne_true, hset, hlow]
    have hbad (k : BitVec 11) {c : FaultCode} (hk : wideSpecial k.toNat = false) (hf : specialFault k.toNat v = some c) :
        exec (.sset a k) s = .next (s.raiseNow c) :=
      State.exec_sset_bad h hi (fun hw => absurd hw (by rw [hk]; decide)) hf
    refine ⟨fun hv => hput 12 (fun w => { g with fmt := w }) rfl (if_pos hv) rfl, fun hv => hbad 12 rfl (if_neg (by rw [hv]; decide)),
      fun ha => State.exec_sset h hi (fun _ => ha) rfl,
      fun hv => ⟨hput 14 (fun w => { g with ptol := w }) rfl (if_pos hv) rfl, hput 15 (fun w => { g with clip := w }) rfl (if_pos hv) rfl⟩,
      fun hv => ⟨hbad 14 rfl (if_neg (by rw [hv]; decide)), hbad 15 rfl (if_neg (by rw [hv]; decide))⟩,
      fun ha => State.exec_sset_odd h rfl ha, fun hv => hput 16 (fun w => { g with cond := w }) rfl (if_pos ?_) rfl,
      fun hv => hbad 16 rfl (if_neg ?_), fun k hk => ?_⟩
    · exact beq_iff_eq.2 (Nat.div_eq_of_lt hv)
    · rw [beq_iff_eq]
      omega
    · rcases hk with hlt | ⟨rfl | rfl, ha⟩
      · interval_cases k <;> exact hbad _ rfl rfl
      · exact State.exec_sset_bad h hi (fun _ => ha) rfl
      · exact State.exec_sset_bad h hi (fun _ => ha) rfl

end Sys2Proof.Machine
end

