-- ==== Sys2Proof/Proofs/SharedHandle.lean ====
section
/-! PROOF. O12 is refuted. Its hypotheses let the table of operations hold two rows under one handle, which no step of the machine makes: a handle is given
once (`State.newOp`). -/

namespace Sys2Proof.Machine

open Sys2Proof

namespace SharedHandle

/-- An SFU word in flight that sets the invalid flag. -/
def op (t i : Nat) : Op := ⟨t, i, 0, 0, 0x10000, 0, none, false, .moving, none, 0, .sfu 1 0 0 none⟩

/-- Group i of the team, on core 0. -/
def group (i : Nat) : Group := { BlockCopy.group with idx := i, slot := i }

/-- The machine at reset with team 1 and its groups 0 and 1 resident, group 0 issuing. Handle 5 names two operations: the first is filed under the
place 64 of team 0, which has the key of group 0 of team 1, the second is group 1's. -/
def state : State :=
  { State.reset with cur := some (.group 1 0), teams := [(1, BlockCopy.team)], groups := [(64, group 0), (65, group 1)],
                     ops := [(5, op 0 64), (5, op 1 1)] }

/-- cond of the group that has issued a word, where there is a next state. -/
def condAfter (o : Out) : Option Word :=
  match o with
  | .next s => (s.group 1 0).map (·.cond)
  | _ => none

theorem group_cond : (group 0).cond = 0 := rfl

theorem condAfter_trap : condAfter (exec (.trap 0) state) = some 0x21 := by decide +kernel

end SharedHandle

open SharedHandle in
/-- Refutes O12: two rows of the table of operations share a handle. The halt drains the SFU word of group 1, looks its handle up and finds the other row,
whose place is that of the group that issued the trap: cond of that group takes the invalid flag. -/
theorem not_trapWordsTakeTheirFault : ¬ Obligations.TrapWordsTakeTheirFault := by
  unfold Obligations.TrapWordsTakeTheirFault
  intro holds
  obtain ⟨s', g', r, hnext, hgroup, -, -, -, -, -, -, -, -, -, -, -, -, -, -, -, -, -, -, hcond, -⟩ :=
    holds state 1 0 (group 0) BlockCopy.team 0 ⟨rfl, rfl⟩ rfl rfl rfl (by decide) rfl _ (.head _)
  have written : condAfter (exec (.trap 0) state) = some g'.cond := by simp only [hnext, condAfter, hgroup, Option.map_some]
  rw [condAfter_trap, hcond, group_cond] at written
  exact absurd (Option.some.inj written) (by decide)

end Sys2Proof.Machine
end

