-- ==== Sys2Proof/Proofs/SeventeenthWindow.lean ====
section
/-! PROOF. O14 is refuted, by its clause on the faults of sld.acq. With la nonzero that word opens a window, and a seventeenth closes the oldest (02 R54) before
anything else of the word is looked at: the register that held the address then waits for its load, so the word waits too, and takes no fault at this issue.
The plain loads and the stores open no window. -/

namespace Sys2Proof.Machine

open Sys2Proof

namespace SeventeenthWindow

/-- A scalar load into register r that has opened window w and has not come. -/
def load (r w : Nat) : Pend := ⟨.s r, 1, [], w, false, 1, w, false, false⟩

/-- Group 0 of team 0 with 1 in s1. Sixteen windows of its scalar stream are open: the oldest is that of a load into s1, the others are those of loads into
s11 to s25. -/
def group : Group := { BlockCopy.group with s := [(1, 1)], pend := load 1 1 :: (List.range 15).map fun k => load (11 + k) (2 + k) }

/-- The machine at reset with that team resident and its group issuing. -/
def state : State := { State.reset with cur := some (.group 0 0), teams := [(0, BlockCopy.team)], groups := [(0, group)] }

/-- No register that the word names is waited for while the windows are open. -/
theorem held_before : state.held [2, 1] = false := by decide +kernel

/-- The address, the value that s1 still has inside its window, is no multiple of 4. -/
theorem address_odd : (state.sreg 1).toNat % 4 ≠ 0 := by decide +kernel

/-- Once the oldest window is closed s1 is waited for. -/
theorem held_withRoom : (state.withRoom 2 1).held [2, 1] = true := by decide +kernel

theorem exec_sldAcq_waits : exec (.sldAcq 2 1 false 0 1) state = .next state := by
  have hexec : exec (.sldAcq 2 1 false 0 1) state = execSldAcq 2 1 false 0 1 state := rfl
  rw [hexec, execSldAcq]
  exact (if_pos rfl).trans (if_pos held_withRoom)

/-- The group that issues has a fault pending. -/
def faulted (s : State) : Option Bool := (s.group 0 0).map (·.faulted)

theorem faulted_before : faulted state = some false := rfl

theorem faulted_after (d : State.Detail) : faulted (state.raiseNow .address d) = some true := rfl

end SeventeenthWindow

open SeventeenthWindow in
/-- Refutes O14: sixteen windows are open, the oldest over the register that holds a misaligned address; sld.acq closes it and waits for the register. -/
theorem not_scalarStoresComplete : ¬ Obligations.ScalarStoresComplete := by
  unfold Obligations.ScalarStoresComplete
  rintro ⟨-, faults⟩
  obtain ⟨-, -, acquire⟩ := faults state 2 1 ⟨0, false⟩ 0 1 false rfl held_before
  obtain ⟨trap, -⟩ := acquire (.inl address_odd)
  rw [exec_sldAcq_waits] at trap
  have same := congrArg faulted (Host.Outcome.next.inj trap)
  rw [faulted_before, faulted_after] at same
  exact absurd (Option.some.inj same) (by decide)

end Sys2Proof.Machine
end
